-- ==== Sys2Proof/Word.lean ====
section
/-! DEFINITION. The words of the Kundaser package: an instruction word of 96 bits (R21), lane words of 32 bits,
register pairs of 64 bits, bytes, and sparse tables of numbered things in one canonical form. -/

namespace Sys2Proof

/-- A byte of memory. -/
abbrev Byte := BitVec 8
/-- The contents of one lane register (R68). -/
abbrev Word := BitVec 32
/-- A register pair, an address or a system value of 64 bits (R35). -/
abbrev Dword := BitVec 64
/-- An instruction word (R21). -/
abbrev IWord := BitVec 96

/-- A sparse table: numbered entries in strictly rising order. Which value an unlisted number holds is the caller's
default; a table lists no entry that holds it. -/
abbrev Tab (α : Type) := List (Nat × α)

/-- Read entry `k` of a table whose unlisted entries hold `d`. -/
def Tab.get {α : Type} (d : α) : Tab α → Nat → α
  | [], _ => d
  | (j, v) :: t, k => if j = k then v else Tab.get d t k

/-- Look up entry `k`. -/
def Tab.find {α : Type} : Tab α → Nat → Option α
  | [], _ => none
  | (j, v) :: t, k => if j = k then some v else Tab.find t k

/-- Put `v` at `k`, keeping the order, with no regard to the default. -/
def Tab.put {α : Type} (k : Nat) (v : α) : Tab α → Tab α
  | [] => [(k, v)]
  | (j, w) :: t => if k < j then (k, v) :: (j, w) :: t else if k = j then (k, v) :: t else (j, w) :: Tab.put k v t

/-- Remove the entry at `k`. -/
def Tab.del {α : Type} (k : Nat) : Tab α → Tab α
  | [] => []
  | (j, w) :: t => if k < j then (j, w) :: t else if k = j then t else (j, w) :: Tab.del k t

/-- Write `v` at `k` in a table whose unlisted entries hold `d`: writing `d` removes the entry. -/
def Tab.set {α : Type} [DecidableEq α] (d : α) (k : Nat) (v : α) (t : Tab α) : Tab α :=
  if v = d then Tab.del k t else Tab.put k v t

/-- All numbers of the table lie above `b`, rising, and no entry holds the default `d`. -/
def Tab.wfFrom {α : Type} [DecidableEq α] (d : α) : Nat → Tab α → Bool
  | _, [] => true
  | b, (j, w) :: t => decide (b ≤ j) && decide (w ≠ d) && Tab.wfFrom d (j + 1) t

/-- The canonical form of a table: strictly rising numbers and no entry equal to the default. -/
def Tab.wf {α : Type} [DecidableEq α] (d : α) (t : Tab α) : Bool := Tab.wfFrom d 0 t

end Sys2Proof
end

