-- ==== Sys2Proof/Config.lean ====
section
/-! DEFINITION. What an implementation of the package fixes and the free values: results and choices the manual leaves
open, as constants with no body. -/

namespace Sys2Proof

/-- The free choices of an interleaving: the model's counter, and which choice of the step it is (assumption 4). -/
opaque Config.pick (tick tag : Nat) : Nat
/-- The fuse map's die of a core, taken modulo 3 (R14). DESIGN CHOICE (assumption 27): a core number keeps its die when the fuse
map is rebuilt. -/
opaque Config.die (core : Nat) : Nat
/-- The seven approximate functions, as the implementation fixes them (R88); the model uses a value only where it lies
within the bound. -/
opaque Config.frcp (x : Word) : Word
opaque Config.frsq (x : Word) : Word
opaque Config.fexp2 (x : Word) : Word
opaque Config.flog2 (x : Word) : Word
opaque Config.ftanh (x : Word) : Word
opaque Config.fsin (x : Word) : Word
opaque Config.fcos (x : Word) : Word
/-- The register-file word at which a fibre's window begins, taken modulo 131,072, for one placement of the group's
windows (R131). -/
opaque Config.wbase (placement group fibre : Nat) : Nat
/-- A byte that the device writes for itself, to a capture, a save slot, the step intake or a binding table (R231, R337,
R385, R389), or that lies past the end of the shared SRAM (assumption 9). -/
opaque Config.freeByte (tick addr : Nat) : Byte
/-- Whether both signatures of a firmware image verify (R400). -/
opaque Config.signed (cls image : Nat) : Bool
/-- The least security version that the fuses accept for an image class (R400). -/
opaque Config.fusedMin (cls : Nat) : Nat
/-- The result of a module's attestation and link set-up (R398, R402). -/
opaque Config.attest (tick module : Nat) : BitVec 8
/-- The measurement of a firmware image, and of the boot ROM and fuse map (R402). -/
opaque Config.measure (cls image version : Nat) : List Byte
opaque Config.measureRom (badCores : List Nat) : List Byte

/-- The carried error of the noise-shaped mode after an element that converts to an infinity, or after a NaN (R77 states
none; assumption 12). -/
opaque Config.nsCarry (t : Word) (code : Nat) : Word

end Sys2Proof
end

