-- ==== Sys2Proof/Syntax.lean ====
section
/-! DEFINITION. The instructions of the Kundaser package: one constructor for each row of the opcode table. An
instruction word carries its guard and hints in a header and its operands by kind; a command packet, a chain entry and
a host register write carry their fields; a step of the device itself names what it acts on. -/

namespace Sys2Proof

/-- A lane-register operand: KIND 00 a direct number, KIND 01 an index register and a base (R33). -/
inductive Reg where
  | v (n : BitVec 11)
  | idx (i : BitVec 2) (base : BitVec 11)
  deriving DecidableEq, Repr

/-- A source operand: a lane register, or the 14-bit signed immediate of KIND 10 (R33, R36). -/
inductive Src where
  | reg (r : Reg)
  | imm (n : BitVec 14)
  deriving DecidableEq, Repr

/-- A memory operand: base register in A, displacement or register offset in B (R60). -/
structure Mem where
  base : Reg
  off : Src
  deriving DecidableEq, Repr

/-- The guard of an instruction word (R24). -/
inductive Guard where
  | always
  | p (n : BitVec 4) (neg : Bool)
  deriving DecidableEq, Repr

/-- The common header of an instruction word: guard, HINT.LAST, HINT.KEEP and HINT.SEL (R23 to R25, R43). -/
structure Hdr where
  guard : Guard
  last : BitVec 3
  keep : Bool
  sel : Bool
  deriving DecidableEq, Repr

/-- The type codes of R30, without code 0. -/
inductive Ty where
  | b8 | b16 | b32 | b64 | b128 | s8 | s16 | s32 | s64 | z8 | z16 | z32 | z64 | f32 | f16 | bf16
  | ln8 | e4m3 | e5m2 | e2m1 | mxi8 | sc
  deriving DecidableEq, Repr

/-- The rounding modes of R31. -/
inductive Rnd where
  | rne | rz | sr | ns
  deriving DecidableEq, Repr

/-- The conditions of ICMP (the first six, R149) and of FCMP (all eight, R86). -/
inductive Cond where
  | eq | ne | lt | le | gt | ge | un | ord
  deriving DecidableEq, Repr

/-- The operations of R173; RRED takes the first three and the three of logic (R116). -/
inductive AtomOp where
  | add | min | max | and | or | xor | exch | cas
  deriving DecidableEq, Repr

/-- The modes of RXCHG (R114). -/
inductive XMode where
  | pos | rot | rev | last
  deriving DecidableEq, Repr

/-- The modes of RVOTE (R115). -/
inductive VMode where
  | ballot | any | all
  deriving DecidableEq, Repr

/-- The destination of RVOTE: a lane register for a ballot, a predicate for the others (R115). -/
inductive VoteDst where
  | reg (r : Reg)
  | pred (p : BitVec 4)
  deriving DecidableEq, Repr

/-- XMOV writes an index register from A, or D from an index register (R54, R141). -/
inductive XMov where
  | toIdx (i : BitVec 2) (a : Src)
  | fromIdx (i : BitVec 2) (d : Reg)
  deriving DecidableEq, Repr

/-- PMOV reads the predicate word into D, or sets the predicates of a mask from A (R151). -/
inductive PMov where
  | get (d : Reg)
  | set (a : Reg) (mask : BitVec 12)
  deriving DecidableEq, Repr

/-- The operand of TMASK: a whole value in a pair, or the enables alone (R381). -/
inductive TMaskArg where
  | full (a : Reg)
  | en (a : Src)
  deriving DecidableEq, Repr

/-- The sparsity of a plane: SP = 0 dense, 1 four of twelve, 2 two of twelve (R195). -/
inductive Sparsity where
  | dense | sp4 | sp2
  deriving DecidableEq, Repr

/-- The kinds of collective (R312). -/
inductive CollKind where
  | allred | redsc | allgat | bcast
  deriving DecidableEq, Repr

/-- The scopes of FENCE (R339). -/
inductive Scope where
  | fibre | group | cluster | package | pod
  deriving DecidableEq, Repr

/-- The kinds of FENCE: full, release, acquire (R339). -/
inductive FenceKind where
  | full | rel | acq
  deriving DecidableEq, Repr

/-- The system registers of R38. -/
inductive SysReg where
  | fibre | lane | rank | group | cluster | core | die | peer | cycle | wbase | wsize | flags | tmask | tcause | tpc
  | taddr | step | argp
  deriving DecidableEq, Repr

/-- A clause header (R39 to R45): WAIT, SETA, SETB, LEN and YLD. -/
structure Clause where
  wait : BitVec 12
  seta : BitVec 4
  setb : BitVec 4
  len : BitVec 3
  yld : Bool
  deriving DecidableEq, Repr

/-- The fields of a Format S word (R28): option field, base registers, count, steps and element type. -/
structure Sweep where
  opt : BitVec 6
  d : BitVec 10
  a : BitVec 10
  b : BitVec 10
  count : BitVec 12
  dstep : BitVec 8
  astep : BitVec 8
  bstep : BitVec 8
  ty : Ty
  deriving DecidableEq, Repr

/-- The conditions of R355. -/
inductive PCond where
  | eq | ne | ltu | geu
  deriving DecidableEq, Repr

/-- An operand of a chain entry: a virtual address, or a FIFO of the controller (R283). -/
inductive EOp where
  | mem (va : BitVec 56)
  | fifo (n : BitVec 4)
  deriving DecidableEq, Repr

/-- The operations of REDUCE (R283, MODE). -/
inductive EMode where
  | add | min | max
  deriving DecidableEq, Repr

/-- The owner of a slot: peer number, ASID and generation (R281). -/
structure Owner where
  peer : BitVec 10
  asid : BitVec 16
  gen : BitVec 8
  deriving DecidableEq, Repr

/-- A host write of a register: all 8 bytes, or the low (`false`) or high (`true`) half (R368). -/
structure HVal where
  half : Option Bool
  v : Dword
  deriving DecidableEq, Repr

/-- What a Kundaser requester carries in the endpoint's header field: MODE, RULE and KEY (R305). -/
structure PodHdr where
  step : Bool
  rule : BitVec 3
  key : BitVec 32
  deriving DecidableEq, Repr

/-- An inbound request (R304, R305): its source, the port it came by, the requester's tag, whether it came forwarded
(R327), the header of a Kundaser windowed request, and the inbound address. -/
structure InReq where
  src : Nat
  port : Nat
  tag : Nat
  fwd : Bool
  hdr : Option PodHdr
  addr : BitVec 45
  deriving DecidableEq, Repr

/-- What a participant of a collective brings (R330, R331): its kind, reduction, format, MX, box and RMASK, its table
COLL_SEL, which of the collectives on this group and RMASK it is, and its tile. -/
structure CollPart where
  kind : CollKind
  rop : Nat
  fmt : Ty
  mx : Bool
  box : List Nat
  rmask : Dword
  sel : List Dword
  nth : Nat
  tile : List Byte
  deriving DecidableEq, Repr

/-- The shared units of a core (R103). -/
inductive UnitId where
  | sweep | matrix | qstore | window | fatom | engine | ualink | lark
  deriving DecidableEq, Repr

/-- The image classes of R400. -/
inductive ImageClass where
  | commandProcessor | larkCore | managementCore | controlSequencer
  deriving DecidableEq, Repr

/-- The instructions: one constructor for each row of the opcode table: those that the package itself fetches or
starts, in the table's order, then what reaches it from outside, then the rows with no fields. -/
inductive Instr where
  | clause (c : Clause) -- a clause header, R39 to R45
  | nop (h : Hdr) -- R106
  | yield (h : Hdr) -- R106
  | bra (h : Hdr) (imm : BitVec 40) -- R109
  | brx (h : Hdr) (a : Reg) -- R109
  | call (h : Hdr) (d : Reg) (imm : BitVec 40) -- R109
  | ret (h : Hdr) (a : Reg) -- R109
  | jset (h : Hdr) (m : BitVec 3) -- R111
  | jwait (h : Hdr) (m : BitVec 3) -- R111
  | jwaitt (h : Hdr) (p : BitVec 4) (m : BitVec 3) (budget : BitVec 16) -- R112
  | jdrop (h : Hdr) (m : BitVec 3) -- R111
  | jwaittBudgetExpiry (g f : Nat) -- R112
  | fnew (h : Hdr) (d a : Reg) (b : Src) -- R117
  | fend (h : Hdr) -- R118
  | bar (h : Hdr) (n : BitVec 4) -- R121
  | bara (h : Hdr) (n : BitVec 4) -- R121
  | barw (h : Hdr) (n : BitVec 4) -- R121
  | cbar (h : Hdr) -- R122
  | cbarx (h : Hdr) -- R122
  | task (h : Hdr) (d a b : Reg) -- R123
  | taskWaveStart (g : Nat) -- R124
  | fork (h : Hdr) (d a : Reg) -- R125
  | rxchg (h : Hdr) (d a : Reg) (b : Src) (ty : Ty) (mode : XMode) (m : BitVec 3) -- R114
  | rvote (h : Hdr) (d : VoteDst) (a : BitVec 4) (mode : VMode) (m : BitVec 3) -- R115
  | rred (h : Hdr) (d a : Reg) (ty : Ty) (op : AtomOp) (m : BitVec 3) -- R116
  | sharedUnitAccept (c : Nat) (u : UnitId) -- R103
  | groupSwitchOut (g : Nat) -- R126
  | mov (h : Hdr) (d : Reg) (a : Src) (ty : Ty) -- R140
  | movi (h : Hdr) (d : Reg) (wide : Bool) (imm : BitVec 40) -- R140
  | xset (h : Hdr) (i : BitVec 2) (imm : BitVec 40) -- R141
  | xadd (h : Hdr) (i : BitVec 2) (imm : BitVec 40) -- R141
  | xmov (h : Hdr) (x : XMov) -- R141
  | sel (h : Hdr) (d : Reg) (a : Src) (p : BitVec 4) (ty : Ty) (inv : Bool) -- R142
  | iadd (h : Hdr) (d : Reg) (a b : Src) (ty : Ty) (sat : Bool) -- R143
  | isub (h : Hdr) (d : Reg) (a b : Src) (ty : Ty) (sat : Bool) -- R143
  | imul (h : Hdr) (d : Reg) (a b : Src) (ty : Ty) (sat : Bool) -- R143
  | imulh (h : Hdr) (d : Reg) (a b : Src) (ty : Ty) -- R143
  | imad (h : Hdr) (d : Reg) (a b : Src) (ty : Ty) (sat : Bool) -- R143
  | idiv (h : Hdr) (d : Reg) (a b : Src) (ty : Ty) (sat : Bool) -- R144
  | irem (h : Hdr) (d : Reg) (a b : Src) (ty : Ty) -- R144
  | imin (h : Hdr) (d : Reg) (a b : Src) (ty : Ty) -- R143
  | imax (h : Hdr) (d : Reg) (a b : Src) (ty : Ty) -- R143
  | iabs (h : Hdr) (d : Reg) (a : Src) (ty : Ty) (sat : Bool) -- R143
  | ineg (h : Hdr) (d : Reg) (a : Src) (ty : Ty) (sat : Bool) -- R143
  | and (h : Hdr) (d : Reg) (a b : Src) (ty : Ty) -- R145
  | or (h : Hdr) (d : Reg) (a b : Src) (ty : Ty) -- R145
  | xor (h : Hdr) (d : Reg) (a b : Src) (ty : Ty) -- R145
  | not (h : Hdr) (d : Reg) (a : Src) (ty : Ty) -- R145
  | andn (h : Hdr) (d : Reg) (a b : Src) (ty : Ty) -- R145
  | shl (h : Hdr) (d : Reg) (a b : Src) (ty : Ty) -- R145
  | shr (h : Hdr) (d : Reg) (a b : Src) (ty : Ty) -- R145
  | sar (h : Hdr) (d : Reg) (a b : Src) (ty : Ty) -- R145
  | rotl (h : Hdr) (d : Reg) (a b : Src) (ty : Ty) -- R145
  | popc (h : Hdr) (d a : Reg) (ty : Ty) -- R146
  | clz (h : Hdr) (d a : Reg) (ty : Ty) -- R146
  | brev (h : Hdr) (d a : Reg) (ty : Ty) -- R146
  | bfx (h : Hdr) (d a : Reg) (b : Src) (ty : Ty) (len : BitVec 8) -- R147
  | bfi (h : Hdr) (d : Reg) (a b : Src) (ty : Ty) (len : BitVec 8) -- R147
  | aadd (h : Hdr) (d a : Reg) (b : Src) (ty : Ty) -- R148
  | amad (h : Hdr) (d : Reg) (a b : Src) (ty : Ty) -- R148
  | icmp (h : Hdr) (d : BitVec 4) (a b : Src) (ty : Ty) (c : Cond) -- R149
  | plop (h : Hdr) (d a b lut : BitVec 4) -- R150
  | pmov (h : Hdr) (x : PMov) -- R151
  | sread (h : Hdr) (d : Reg) (x : SysReg) -- R152
  | claim (h : Hdr) (d : Reg) (c : BitVec 14) -- R153
  | surr (h : Hdr) (d : Reg) (c : BitVec 14) -- R153
  | claimGrant (g : Nat) -- R155
  | fadd (h : Hdr) (d : Reg) (a b : Src) (ty : Ty) (rnd : Rnd) (sat : Bool) -- R84
  | fsub (h : Hdr) (d : Reg) (a b : Src) (ty : Ty) (rnd : Rnd) (sat : Bool) -- R84
  | fmul (h : Hdr) (d : Reg) (a b : Src) (ty : Ty) (rnd : Rnd) (sat : Bool) -- R84
  | ffma (h : Hdr) (d : Reg) (a b : Src) (ty : Ty) (rnd : Rnd) (sat : Bool) -- R84
  | fmin (h : Hdr) (d : Reg) (a b : Src) (ty : Ty) -- R85
  | fmax (h : Hdr) (d : Reg) (a b : Src) (ty : Ty) -- R85
  | fcmp (h : Hdr) (d : BitVec 4) (a b : Src) (ty : Ty) (c : Cond) -- R86
  | frcp (h : Hdr) (d : Reg) (a : Src) (ty : Ty) -- R88
  | frsq (h : Hdr) (d : Reg) (a : Src) (ty : Ty) -- R88
  | fexp2 (h : Hdr) (d : Reg) (a : Src) (ty : Ty) -- R88
  | flog2 (h : Hdr) (d : Reg) (a : Src) (ty : Ty) -- R88
  | ftanh (h : Hdr) (d : Reg) (a : Src) (ty : Ty) -- R88
  | fsin (h : Hdr) (d : Reg) (a : Src) (ty : Ty) -- R88
  | fcos (h : Hdr) (d : Reg) (a : Src) (ty : Ty) -- R88
  | hadd2 (h : Hdr) (d : Reg) (a b : Src) (ty : Ty) (rnd : Rnd) (sat : Bool) -- R87
  | hmul2 (h : Hdr) (d : Reg) (a b : Src) (ty : Ty) (rnd : Rnd) (sat : Bool) -- R87
  | hfma2 (h : Hdr) (d : Reg) (a b : Src) (ty : Ty) (rnd : Rnd) (sat : Bool) -- R87
  | cvt (h : Hdr) (d : Reg) (a : Src) (ty ty2 : Ty) (rnd : Rnd) (sat : Bool) (bsel : BitVec 2) (hi : Bool) -- R90
  | cvtp (h : Hdr) (d a : Reg) (ty : Ty) (rnd : Rnd) (sat : Bool) -- R92
  | cvtx (h : Hdr) (d a b : Reg) (ty : Ty) (rnd : Rnd) -- R93
  | ld (h : Hdr) (d : Reg) (m : Mem) (ty : Ty) -- R244
  | st (h : Hdr) (d : Reg) (m : Mem) (ty : Ty) -- R244
  | atom (h : Hdr) (d : Reg) (m : Mem) (ty : Ty) (op : AtomOp) -- R244
  | red (h : Hdr) (d : Reg) (m : Mem) (ty : Ty) (op : AtomOp) -- R244
  | probe (h : Hdr) (d : Reg) (m : Mem) -- R249
  | pageRequestPost (c : Nat) -- R238
  | countedCompletion (o : Nat) -- R43
  | ldp (h : Hdr) (d : Reg) (m : Mem) (ty : Ty) -- R172
  | stp (h : Hdr) (d : Reg) (m : Mem) (ty : Ty) -- R172
  | atomp (h : Hdr) (d : Reg) (m : Mem) (ty : Ty) (op : AtomOp) -- R173
  | ldc (h : Hdr) (d : Reg) (m : Mem) (ty : Ty) -- R174
  | stc (h : Hdr) (d : Reg) (m : Mem) (ty : Ty) -- R174
  | bdecl (h : Hdr) (n : BitVec 6) (a b : Src) (ty : Ty) (exp : BitVec 2) -- R175
  | bseal (h : Hdr) (n : BitVec 6) -- R176
  | bdrain (h : Hdr) (n : BitVec 6) -- R176
  | bdone (h : Hdr) (n : BitVec 6) -- R176
  | bufferTransitionEffect (g : Nat) -- R168
  | bstat (h : Hdr) (d : Reg) (n : BitVec 6) -- R177
  | vadd (h : Hdr) (w : Sweep) -- R180
  | vsub (h : Hdr) (w : Sweep) -- R180
  | vmul (h : Hdr) (w : Sweep) -- R180
  | vfma (h : Hdr) (w : Sweep) -- R180
  | vmin (h : Hdr) (w : Sweep) -- R180
  | vmax (h : Hdr) (w : Sweep) -- R180
  | vabs (h : Hdr) (w : Sweep) -- R180
  | vexp2 (h : Hdr) (w : Sweep) -- R180
  | vrcp (h : Hdr) (w : Sweep) -- R180
  | vrsq (h : Hdr) (w : Sweep) -- R180
  | vtanh (h : Hdr) (w : Sweep) -- R180
  | vcvt (h : Hdr) (w : Sweep) -- R180
  | vcpy (h : Hdr) (w : Sweep) -- R180
  | vfill (h : Hdr) (w : Sweep) -- R180
  | vsumr (h : Hdr) (w : Sweep) -- R180
  | vmaxr (h : Hdr) (w : Sweep) -- R180
  | vscal (h : Hdr) (w : Sweep) -- R180
  | vselp (h : Hdr) (w : Sweep) -- R180
  | sweepComplete (c : Nat) -- R183: one iteration, and completion after the last
  | wld (h : Hdr) (m : Mem) (ty : Ty) (sp : Sparsity) -- R201
  | wldx (h : Hdr) (m : Mem) (ty : Ty) -- R201
  | wswap (h : Hdr) (a : Src) -- R202
  | planeSwap (g : Nat) -- R202
  | mma (h : Hdr) (t : BitVec 4) (a : Reg) (ty : Ty) (kb : BitVec 3) -- R203
  | mmab (h : Hdr) (t : BitVec 4) (a : Reg) (ty : Ty) (q : BitVec 2) -- R203
  | mmax (h : Hdr) (t : BitVec 4) (a s : Reg) (ty : Ty) (bsel : BitVec 2) (kb : BitVec 3) -- R204
  | azero (h : Hdr) (t : BitVec 4) -- R207
  | ald (h : Hdr) (t : BitVec 4) (m : Mem) -- R207
  | ast (h : Hdr) (t : BitVec 4) (m : Mem) -- R207
  | amov (h : Hdr) (t u : BitVec 4) -- R207
  | matrixOpPerform (o : Nat) -- R197
  | qst (h : Hdr) (t : BitVec 4) (m : Mem) (ty : Ty) (rnd : Rnd) (sat : Bool) (h3 : BitVec 3) (mx : Bool) -- R219
  | qstp (h : Hdr) (d : Reg) (m : Mem) (ty : Ty) (rnd : Rnd) (sat : Bool) (h3 : BitVec 3) (mx : Bool) -- R219
  | qstTurnAccept (g f : Nat) -- R217
  | hdecl (h : Hdr) (b : BitVec 3) (a : Reg) (len : BitVec 14) (ty : Ty) (axis wrap mx : Bool) (rows : BitVec 5) -- R215
  | hsave (h : Hdr) (b : BitVec 3) (m : Mem) -- R222
  | hload (h : Hdr) (b : BitVec 3) (m : Mem) -- R222
  | hclr (h : Hdr) (b : BitVec 3) -- R223
  | bankOpPerform (o : Nat) -- R216
  | winset (h : Hdr) (d : Reg) (a : Src) -- R254
  | fetch (h : Hdr) (n : BitVec 6) (m : Mem) (ab : BitVec 4) (link : Bool) -- R259
  | put (h : Hdr) (n : BitVec 6) (m : Mem) (ab : BitVec 4) (link : Bool) -- R259
  | redt (h : Hdr) (n : BitVec 6) (m : Mem) (ab : BitVec 4) (link : Bool) -- R259
  | postAccept (o : Nat) -- R252
  | transferArrival (o : Nat) -- R262
  | putCompletion (o : Nat) -- R262
  | fatom (h : Hdr) (d : Reg) (m : Mem) (ty : Ty) (op : AtomOp) -- R267
  | abar (h : Hdr) (a : Src) (ab : BitVec 4) -- R270
  | await (h : Hdr) (p ab : BitVec 4) -- R271
  | etail (h : Hdr) (d : Reg) (a b : Src) -- R291
  | etailRst (h : Hdr) (d : Reg) (a : Src) (b : Reg) -- R292
  | eseq (h : Hdr) (d : Reg) (a : Src) -- R291
  | ewait (h : Hdr) (p : BitVec 4) (a b : Src) -- R291
  | engineEntryForward (ctx hnd : Nat) -- R286
  | engineEntryComplete (slot : Nat) -- R287
  | engineChainFail (slot : Nat) -- R300
  | copy (d a : EOp) (len : BitVec 32) -- R293
  | reduce (d a b : EOp) (ty : Ty) (mode : EMode) (len : BitVec 32) -- R293
  | fill (d : EOp) (pat : Dword) (len : BitVec 32) -- R293
  | tload (a : BitVec 56) (len : BitVec 32) -- R296
  | transduce (d a : EOp) (start : Option (BitVec 12)) (cap len : BitVec 32) -- R298
  | engineQfence (pairs : List (BitVec 12 × BitVec 52)) -- R289
  | metard (va : BitVec 56) -- R284
  | metawr (va : BitVec 56) (ce : Bool) -- R301
  | slotbind (slot : BitVec 8) (owner : Option Owner) -- R284
  | fifoStall (fifo : Nat) -- R295
  | xld (h : Hdr) (d : Reg) (m : Mem) (ty : Ty) -- R312
  | xst (h : Hdr) (d : Reg) (m : Mem) (ty : Ty) -- R312
  | xatom (h : Hdr) (d : Reg) (m : Mem) (ty : Ty) (op : AtomOp) -- R312
  | xputq (h : Hdr) (m : Mem) -- R316
  | sput (h : Hdr) (d : Reg) (m : Mem) (ty : Ty) -- R321
  | swait (h : Hdr) (p : BitVec 4) (a : Src) -- R325
  | sstat (h : Hdr) (d : Reg) (a : Src) -- R325
  | ctile (h : Hdr) (n : BitVec 6) (m : Mem) (k : CollKind) -- R328
  | busyRetry (o : Nat) -- R310
  | collWatchdog (o p : Nat) -- R330: the lowest missing participant p
  | fence (h : Hdr) (sc : Scope) (k : FenceKind) -- R340
  | acq (h : Hdr) (d : Reg) (m : Mem) -- R341
  | rel (h : Hdr) (m : Mem) -- R341
  | bind (h : Hdr) (d a b : Reg) -- R342
  | unbind (h : Hdr) (d b : Reg) -- R342
  | hintnext (h : Hdr) (n : BitVec 14) -- R364
  | waitpred (h : Hdr) -- R364
  | qpost (h : Hdr) (d a b : Reg) -- R364
  | signal (h : Hdr) (d : Reg) (m : Mem) (add irq : Bool) -- R364
  | tfence (h : Hdr) -- R379
  | trap (h : Hdr) (a : Src) -- R380
  | brk (h : Hdr) (a : Src) -- R380
  | tret (h : Hdr) -- R377
  | tmask (h : Hdr) (d : Reg) (x : TMaskArg) -- R381
  | flags (h : Hdr) (d : Reg) (a : Src) -- R382
  | sysr (h : Hdr) (d : Reg) (n : BitVec 2) -- R383
  | sysw (h : Hdr) (x : SysReg) (a : Reg) -- R383
  | groupSave (g : Nat) -- R98, R127, R384
  | groupPlace (pad : Nat) -- R362, R385
  | launchStart (l : Nat) -- R361
  | launchComplete (l : Nat) -- R363
  | quantumExpiry (pad : Nat) -- R367
  | launch (record : Dword) -- R356
  | launchi (record grid : Dword) -- R356
  | waitseq (cyc : Bool) (va value : Dword) -- R356
  | signalPacket (add irq : Bool) (va value : Dword) -- R356
  | loop (count : BitVec 32) -- R357
  | endloop (on : Bool) (c : PCond) (va value mask : Dword) -- R357
  | ifmem (c : PCond) (va value mask : Dword) -- R357
  | engcmd (hnd : BitVec 12) (n : Dword) -- R356
  | stepb (n : Dword) -- R356
  | hqTail (q : Nat) (v : HVal) -- R352
  | hqCtl (q : Nat) (v : HVal) -- R352
  | clear (q : Nat) -- R352
  | resume (q : Nat) -- R352
  | pgResp (status : BitVec 2) (page : BitVec 40) (asid : BitVec 16) -- R239
  | tlbInvalRange (count : BitVec 32) (asid : BitVec 16) -- R234
  | tlbInvalAsid (asid : BitVec 16) -- R234
  | asidBind (asid : BitVec 16) -- R236
  | asidRelease (asid : BitVec 16) -- R236
  | peerId (v : HVal) -- R308
  | peerTmo (v : HVal) -- R309
  | winReset (hnd : BitVec 16) -- R309
  | keyInval (slot : BitVec 13) -- R399
  | sramPool (v : HVal) -- R231
  | sramIntake (v : HVal) -- R231
  | sramLcache (v : HVal) -- R231
  | stepCtl (v : HVal) -- R318
  | stepNum (v : HVal) -- R318, R320
  | stepDom (w : Nat) (v : HVal) -- R318, R324
  | stepSpill (v : HVal) -- R318
  | optRing (v : HVal) -- R393
  | oeReset (e : BitVec 5) -- R395
  | provision (m : BitVec 6) -- R398
  | drain (m : BitVec 6) -- R398
  | release (m : BitVec 6) -- R398
  | provIgnored (m : BitVec 6) -- R398
  | lsOff (s : BitVec 3) -- R405
  | lsOn (s : BitVec 3) -- R405
  | preemptCtl (pad : Nat) (v : Dword) -- R384
  | dbgBadOperation (code : BitVec 4) -- R391
  | pwrCap (v : HVal) -- R406
  | registerWrite (off : Nat) (v : HVal) -- R368, R369
  | ctileComplete (o : Nat) (status : BitVec 8) (parts : List CollPart) -- R329: what the participants bring, in index order
  | inboundRead (r : InReq) (len : Nat) -- R305, R306
  | inboundWrite (r : InReq) (bytes : List (Option Byte)) -- R305, R306, R311
  | inboundAtomic (r : InReq) (op : AtomOp) (ty : Ty) (x y : Dword) -- R305, R306
  | inboundUnsupported (r : InReq) -- R306
  | xputqInbound (r : InReq) (qword : Dword) (bytes : List Byte) -- R317
  | stepRecordInbound (r : InReq) (n : Nat) (bytes : List Byte) -- R321, R324
  | peerResponse (o : Nat) (status : BitVec 8) (bytes : List Byte) -- R314, R317, R321
  | requestTimeout (o : Nat) -- R309
  | responseDiscard (p tag : Nat) -- R310
  | readyMsg (p n : Nat) -- R322
  | appliedMsg (p n : Nat) -- R322
  | hostMemoryAccess (write : Bool) (off : Nat) (bytes : List Byte) -- R346
  | heartbeat (c : Nat) -- R389
  | heartbeatMiss (c : Nat) (lost : Bool) -- R389: whether dirty lines are lost
  | wlFail (e : Nat) (ingress : Bool) (wl m : Nat) (delay : Dword) -- R394
  | wlDrop (e : Nat) (ingress : Bool) (wl m : Nat) (delay : Dword) -- R394
  | laserAge (s : Nat) -- R394
  | retrain (e : Nat) (ingress : Bool) (m : Nat) (delay : Dword) -- R394
  | laneSpare (e : Nat) (ingress : Bool) (wl m : Nat) -- R394, R396
  | sourceLost (s : Nat) (delay : Dword) -- R394
  | linkDown (e : Nat) (ingress : Bool) (m : Nat) -- R394, R395
  | firmwareImage (cls : ImageClass) (image version : Nat) -- R400
  | spdmRequest (index : Nat) -- R402
  | keyLoad (slot : BitVec 13) (k1 k2 : BitVec 256) -- R399
  | powerCapCrossing (watts : Nat) -- R406
  | retrainingComplete (e : Nat) (ingress ok : Bool) -- R395
  | portDown (p : Nat) -- R307
  | portUp (p : Nat) -- R307
  | xputqPageWaitExpiry (o : Nat) -- R317
  | sheafRound -- R101
  | engineNop -- R284
  | boundaryDrained -- R322
  | stepApply -- R322, R323
  | boundaryComplete -- R322
  | stepWatchdog -- R324
  | packetNop -- R354
  | elsePacket -- R357
  | endifPacket -- R357
  | qfence -- R356
  | halt -- R356
  | tlbInvalFull -- R234
  | tlbInvalComplete -- R234
  | dbgStop -- R391
  | dbgResume -- R391
  | dbgStep -- R391
  | dbgRead -- R391, R392
  | dbgWrite -- R391, R392
  | dbgDiscard -- R391
  | reset -- R403
  | thermalTrip -- R406
  deriving DecidableEq, Repr

end Sys2Proof
end

