-- ==== Sys2Proof/WellFormed.lean ====
section
/-! DEFINITION. Static legality of instructions: operand kinds and alignment (R33 to R36), types (R30), options and
immediates (the encoding tables of the owning chapters). A word that fails one raises ILLEGAL_INSTR (R56). -/

namespace Sys2Proof

/-- Registers an operand of the type names: a pair for 64 bits, a quad for 128 (R35). -/
def Ty.regs : Ty → Nat
  | .b64 | .s64 | .z64 => 2
  | .b128 => 4
  | _ => 1

/-- Width in bits of a value of the type; .e2m1 codes are 4 bits wide (R67, R68). -/
def Ty.width : Ty → Nat
  | .b8 | .s8 | .z8 | .ln8 | .e4m3 | .e5m2 | .mxi8 | .sc => 8
  | .b16 | .s16 | .z16 | .f16 | .bf16 => 16
  | .b32 | .s32 | .z32 | .f32 => 32
  | .b64 | .s64 | .z64 => 64
  | .b128 => 128
  | .e2m1 => 4

/-- The integer types of R138. -/
def Ty.isInt : Ty → Bool
  | .s32 | .z32 | .s64 | .z64 => true
  | _ => false

/-- Every integer type, as CVT takes them (R90). -/
def Ty.isAnyInt : Ty → Bool
  | .s8 | .s16 | .s32 | .s64 | .z8 | .z16 | .z32 | .z64 => true
  | _ => false

/-- Signed integer types. -/
def Ty.isSigned : Ty → Bool
  | .s8 | .s16 | .s32 | .s64 => true
  | _ => false

def Ty.isFloat : Ty → Bool
  | .f32 | .f16 | .bf16 => true
  | _ => false

def Ty.isHalf : Ty → Bool
  | .f16 | .bf16 => true
  | _ => false

/-- The formats of scaled blocks (R93, R200). -/
def Ty.isScaled : Ty → Bool
  | .ln8 | .e4m3 | .e5m2 | .e2m1 | .mxi8 => true
  | _ => false

/-- The formats a plane row may hold (R193); they are also the destinations of QST and QSTP (R213). -/
def Ty.isPlane (t : Ty) : Bool := t.isHalf || t.isScaled

/-- The formats a sparse plane may hold (R195). -/
def Ty.isByte : Ty → Bool
  | .ln8 | .e4m3 | .e5m2 | .mxi8 => true
  | _ => false

/-- NB of R193: the K blocks of a plane. -/
def Ty.nb : Ty → Nat
  | .f16 | .bf16 => 2
  | .ln8 | .e4m3 | .e5m2 | .mxi8 => 4
  | .e2m1 => 8
  | _ => 0

def Ty.isLoad : Ty → Bool
  | .b8 | .s8 | .b16 | .s16 | .b32 | .b64 | .b128 => true
  | _ => false

def Ty.isStore : Ty → Bool
  | .b8 | .b16 | .b32 | .b64 | .b128 => true
  | _ => false

/-- A bit-field length lies from 1 to the width (R147). -/
def Ty.okLen (t : Ty) (len : BitVec 8) : Bool := decide (1 ≤ len.toNat) && decide (len.toNat ≤ t.width)

def Rnd.isRneRz : Rnd → Bool
  | .rne | .rz => true
  | _ => false

/-- NS is accepted only by the quantising store (R78). -/
def Rnd.isCvt : Rnd → Bool
  | .ns => false
  | _ => true

/-- The pairs and rounding modes of R90. -/
def Ty.okCvt (dst src : Ty) (rnd : Rnd) : Bool :=
  if src.isFloat && dst.isFloat then rnd.isCvt
  else if src == .f32 && dst.isScaled then rnd.isCvt
  else if src.isScaled && dst == .f32 then rnd == .rne
  else if src == .f32 && dst == .sc then rnd == .rne
  else if src == .sc && dst == .f32 then rnd == .rne
  else if src.isFloat && dst.isInt then rnd.isRneRz
  else if src.isInt && dst.isFloat then rnd.isRneRz
  else if src.isAnyInt && dst.isAnyInt then rnd == .rne
  else false

/-- Where MOD.SAT may be 1 in CVT (R90). -/
def Ty.okCvtSat (dst src : Ty) (sat : Bool) : Bool :=
  !sat || dst.isFloat || dst == .e5m2 || (src.isAnyInt && dst.isAnyInt)

/-- The positions that BSEL and IMM8 may name for a source type (R91). -/
def Ty.okSel (src : Ty) (bsel : BitVec 2) (hi : Bool) : Bool :=
  (!hi || src == .e2m1) &&
  (if src.width == 16 then bsel == 0#2 || bsel == 2#2 else if src.width ≤ 8 then true else bsel == 0#2)

/-- The destinations of CVTP (R92). -/
def Ty.isPackDst (t : Ty) : Bool := t.isHalf || t.isScaled

/-- The elements CVTP packs into one register (R92). -/
def Ty.packN (t : Ty) : Nat := 32 / t.width

/-- A direct register number is a multiple of `n` (R35). -/
def Reg.aligned (n : Nat) : Reg → Bool
  | .v k => k.toNat % n == 0
  | .idx _ _ => true

def Src.aligned (n : Nat) : Src → Bool
  | .reg r => r.aligned n
  | .imm _ => true

/-- An immediate lies in the range; a register is not judged. -/
def Src.immIn (lo hi : Int) : Src → Bool
  | .reg _ => true
  | .imm k => decide (lo ≤ k.toInt) && decide (k.toInt ≤ hi)

/-- A predicate number names p0 to p11 (R33). -/
def predOk (p : BitVec 4) : Bool := decide (p.toNat < 12)

/-- The guard names a predicate p0 to p11 (R23), and HINT.SEL is 0 unless the instruction counts (R43). -/
def Hdr.ok (h : Hdr) (counts : Bool) : Bool :=
  (match h.guard with
    | .always => true
    | .p n _ => predOk n) && (counts || !h.sel)

/-- The registers SREAD writes and SYSW reads: a pair for a system register of width 64 (R137). -/
def SysReg.regs : SysReg → Nat
  | .group | .cycle | .flags | .tmask | .tpc | .taddr | .step | .argp => 2
  | _ => 1

/-- ICMP takes the first six conditions only (R149). -/
def Cond.isOrder : Cond → Bool
  | .un | .ord => false
  | _ => true

/-- The B operand of RXCHG: 0 to 31 where it is an immediate, and the immediate 0 in .rev and .last (R114). -/
def XMode.okB (m : XMode) (b : Src) : Bool :=
  match m with
  | .pos | .rot => b.immIn 0 31
  | .rev | .last => b == .imm 0#14

def VMode.okDst (m : VMode) (d : VoteDst) : Bool :=
  match m, d with
  | .ballot, .reg _ => true
  | .any, .pred p => predOk p
  | .all, .pred p => predOk p
  | _, _ => false

/-- Operation and type of RRED (R116). -/
def AtomOp.okTyRed (op : AtomOp) (t : Ty) : Bool :=
  match op with
  | .add | .min | .max => t == .s32 || t == .z32 || t == .f32
  | .and | .or | .xor => t == .b32
  | .exch | .cas => false

/-- Operation and type of ATOM, RED and ATOMP (R173). -/
def AtomOp.okTyNear (op : AtomOp) (t : Ty) : Bool :=
  match op with
  | .add | .min | .max => t == .s32 || t == .z32 || t == .f32
  | .and | .or | .xor | .exch | .cas => t == .b32 || t == .b64

/-- Operation and type of FATOM and XATOM (R267). -/
def AtomOp.okTyFar (op : AtomOp) (t : Ty) : Bool :=
  match op with
  | .add | .min | .max => t.isInt
  | .and | .or | .xor | .exch | .cas => t == .b32 || t == .b64

/-- RED takes rows 0 to 5 (R244). -/
def AtomOp.isRed : AtomOp → Bool
  | .exch | .cas => false
  | _ => true

/-- The registers operand D of an atomic names: .cas holds compare and new value (R173). -/
def AtomOp.regs (op : AtomOp) (t : Ty) : Nat := if op == .cas then 2 * t.regs else t.regs

/-- Seta and setb name k0 to k11, or 15 for none (R40). -/
def setOk (x : BitVec 4) : Bool := decide (x.toNat < 12) || x == 15#4

/-- The element types of Format S (R28). -/
def Ty.isSweep : Ty → Bool
  | .f32 | .f16 | .bf16 | .s32 | .z32 | .s16 | .z16 | .s8 | .z8 | .ln8 | .e4m3 | .e5m2 | .e2m1 | .mxi8 | .b32 => true
  | _ => false

/-- The types of VADD, VSUB and VMUL (R180). -/
def Ty.isVArith : Ty → Bool
  | .f32 | .f16 | .bf16 | .s32 | .z32 | .s16 | .z16 => true
  | _ => false

/-- The element type of Format S for a code (R28). -/
def Ty.ofSweepCode (c : BitVec 4) : Option Ty :=
  match c.toNat with
  | 0 => some .f32 | 1 => some .f16 | 2 => some .bf16 | 3 => some .s32 | 4 => some .z32 | 5 => some .s16
  | 6 => some .z16 | 7 => some .s8 | 8 => some .z8 | 9 => some .ln8 | 10 => some .e4m3 | 11 => some .e5m2
  | 12 => some .e2m1 | 13 => some .mxi8 | 14 => some .b32
  | _ => none

/-- No B operand: its base and step fields are zero (R39). -/
def Sweep.noB (w : Sweep) : Bool := w.b == 0#10 && w.bstep == 0#8

def Sweep.vaddOk (w : Sweep) : Bool := w.ty.isVArith && decide (w.opt.toNat < 4)
def Sweep.vsubOk (w : Sweep) : Bool := w.vaddOk
def Sweep.vmulOk (w : Sweep) : Bool := w.vaddOk
def Sweep.vfmaOk (w : Sweep) : Bool := (w.ty.isFloat || w.ty == .s32 || w.ty == .z32) && decide (w.opt.toNat < 4)
def Sweep.vminOk (w : Sweep) : Bool := (w.ty.isVArith || w.ty == .s8 || w.ty == .z8) && w.opt == 0#6
def Sweep.vmaxOk (w : Sweep) : Bool := w.vminOk
def Sweep.vabsOk (w : Sweep) : Bool :=
  (w.ty.isFloat || w.ty == .s32 || w.ty == .s16 || w.ty == .s8) && (w.opt &&& 0x3D#6 == 0#6) && w.noB
/-- VEXP2, VRCP, VRSQ and VTANH take .f32 and no option (R180). -/
def Sweep.vfunOk (w : Sweep) : Bool := w.ty == .f32 && w.opt == 0#6 && w.noB
def Sweep.vexp2Ok (w : Sweep) : Bool := w.vfunOk
def Sweep.vrcpOk (w : Sweep) : Bool := w.vfunOk
def Sweep.vrsqOk (w : Sweep) : Bool := w.vfunOk
def Sweep.vtanhOk (w : Sweep) : Bool := w.vfunOk
/-- The rounding of VCVT from option bits 5:4 (R182). -/
def Sweep.cvtRnd (w : Sweep) : Option Rnd :=
  match (w.opt.extractLsb' 4 2).toNat with
  | 0 => some .rne | 1 => some .rz | 2 => some .sr
  | _ => none
/-- VCVT takes the pairs of R90 whose types Format S can name (R182). -/
def Sweep.vcvtOk (w : Sweep) : Bool :=
  (match Ty.ofSweepCode (w.opt.extractLsb' 0 4), w.cvtRnd with
    | some src, some rnd => Ty.okCvt w.ty src rnd
    | _, _ => false) && w.noB
def Sweep.vcpyOk (w : Sweep) : Bool := w.ty == .b32 && w.opt == 0#6 && w.noB
def Sweep.vfillOk (w : Sweep) : Bool := w.ty == .b32 && w.opt == 0#6 && w.noB && w.astep == 0#8
/-- Groups of 2^L iterations, a whole number of them, and no D step (R181). -/
def Sweep.vredOk (w : Sweep) : Bool :=
  (w.ty == .f32 || w.ty == .s32 || w.ty == .z32) && decide (w.opt.toNat < 16) && w.noB && w.dstep == 0#8 &&
  w.count.toNat % 2 ^ (w.opt.toNat % 8) == 0
def Sweep.vsumrOk (w : Sweep) : Bool := w.vredOk
def Sweep.vmaxrOk (w : Sweep) : Bool := w.vredOk
def Sweep.vscalOk (w : Sweep) : Bool := w.ty.isFloat && decide (w.opt.toNat < 4) && w.bstep == 0#8
def Sweep.vselpOk (w : Sweep) : Bool := w.ty == .b32 && decide (w.opt.toNat < 32) && decide (w.opt.toNat % 16 < 12)

/-- The static legality of an instruction: what R29 to R39 and the encoding tables of the owning chapters require of
a word, and what R354 and R284 require of the fields of a packet and an entry. A step of the device is well formed as
it stands. -/
def Instr.wf : Instr → Bool
  | .clause c => setOk c.seta && setOk c.setb
  | .nop h => h.ok false
  | .yield h => h.ok false
  | .bra h _ => h.ok false
  | .brx h a => h.ok false && a.aligned 2
  | .call h d _ => h.ok false && d.aligned 2
  | .ret h a => h.ok false && a.aligned 2
  | .jset h _ => h.ok false
  | .jwait h _ => h.ok false
  | .jwaitt h p _ budget => h.ok false && predOk p && budget != 0#16
  | .jdrop h _ => h.ok false
  | .jwaittBudgetExpiry _ _ => true
  | .fnew h _ a _ => h.ok false && a.aligned 2
  | .fend h => h.ok false
  | .bar h _ => h.ok false
  | .bara h _ => h.ok false
  | .barw h _ => h.ok false
  | .cbar h => h.ok false
  | .cbarx h => h.ok false
  | .task h d a b => h.ok false && d.aligned 2 && a.aligned 2 && b.aligned 2
  | .taskWaveStart _ => true
  | .fork h _ a => h.ok false && a.aligned 2
  | .rxchg h d a b ty mode _ => h.ok false && (ty == .b32 || ty == .b64) && d.aligned ty.regs && a.aligned ty.regs && mode.okB b
  | .rvote h d a mode _ => h.ok false && predOk a && mode.okDst d
  | .rred h _ _ ty op _ => h.ok false && op.okTyRed ty
  | .sheafRound => true
  | .sharedUnitAccept _ _ => true
  | .groupSwitchOut _ => true
  | .mov h d a ty => h.ok false && (ty == .b32 || ty == .b64 || ty == .b128) && d.aligned ty.regs && a.aligned ty.regs
  | .movi h d wide imm => h.ok false && (if wide then d.aligned 2 else imm.extractLsb' 32 8 == 0#8 || imm.extractLsb' 32 8 == 255#8)
  | .xset h _ imm => h.ok false && decide (-32768 ≤ imm.toInt) && decide (imm.toInt ≤ 32767)
  | .xadd h _ imm => h.ok false && decide (-32768 ≤ imm.toInt) && decide (imm.toInt ≤ 32767)
  | .xmov h _ => h.ok false
  | .sel h d a p ty _ => h.ok false && predOk p && (ty == .b32 || ty == .b64) && d.aligned ty.regs && a.aligned ty.regs
  | .iadd h d a b ty _ => h.ok false && ty.isInt && d.aligned ty.regs && a.aligned ty.regs && b.aligned ty.regs
  | .isub h d a b ty _ => h.ok false && ty.isInt && d.aligned ty.regs && a.aligned ty.regs && b.aligned ty.regs
  | .imul h d a b ty _ => h.ok false && ty.isInt && d.aligned ty.regs && a.aligned ty.regs && b.aligned ty.regs
  | .imulh h d a b ty => h.ok false && ty.isInt && d.aligned ty.regs && a.aligned ty.regs && b.aligned ty.regs
  | .imad h d a b ty _ => h.ok false && ty.isInt && d.aligned ty.regs && a.aligned ty.regs && b.aligned ty.regs
  | .idiv h d a b ty _ => h.ok false && ty.isInt && d.aligned ty.regs && a.aligned ty.regs && b.aligned ty.regs
  | .irem h d a b ty => h.ok false && ty.isInt && d.aligned ty.regs && a.aligned ty.regs && b.aligned ty.regs
  | .imin h d a b ty => h.ok false && ty.isInt && d.aligned ty.regs && a.aligned ty.regs && b.aligned ty.regs
  | .imax h d a b ty => h.ok false && ty.isInt && d.aligned ty.regs && a.aligned ty.regs && b.aligned ty.regs
  | .iabs h d a ty _ => h.ok false && (ty == .s32 || ty == .s64) && d.aligned ty.regs && a.aligned ty.regs
  | .ineg h d a ty _ => h.ok false && (ty == .s32 || ty == .s64) && d.aligned ty.regs && a.aligned ty.regs
  | .and h d a b ty => h.ok false && (ty == .b32 || ty == .b64) && d.aligned ty.regs && a.aligned ty.regs && b.aligned ty.regs
  | .or h d a b ty => h.ok false && (ty == .b32 || ty == .b64) && d.aligned ty.regs && a.aligned ty.regs && b.aligned ty.regs
  | .xor h d a b ty => h.ok false && (ty == .b32 || ty == .b64) && d.aligned ty.regs && a.aligned ty.regs && b.aligned ty.regs
  | .not h d a ty => h.ok false && (ty == .b32 || ty == .b64) && d.aligned ty.regs && a.aligned ty.regs
  | .andn h d a b ty => h.ok false && (ty == .b32 || ty == .b64) && d.aligned ty.regs && a.aligned ty.regs && b.aligned ty.regs
  | .shl h d a _ ty => h.ok false && (ty == .b32 || ty == .b64) && d.aligned ty.regs && a.aligned ty.regs
  | .shr h d a _ ty => h.ok false && (ty == .b32 || ty == .b64) && d.aligned ty.regs && a.aligned ty.regs
  | .sar h d a _ ty => h.ok false && (ty == .b32 || ty == .b64) && d.aligned ty.regs && a.aligned ty.regs
  | .rotl h d a _ ty => h.ok false && (ty == .b32 || ty == .b64) && d.aligned ty.regs && a.aligned ty.regs
  | .popc h d a ty => h.ok false && (ty == .b32 || ty == .b64) && d.aligned 1 && a.aligned ty.regs
  | .clz h d a ty => h.ok false && (ty == .b32 || ty == .b64) && d.aligned 1 && a.aligned ty.regs
  | .brev h d a ty => h.ok false && (ty == .b32 || ty == .b64) && d.aligned ty.regs && a.aligned ty.regs
  | .bfx h d a _ ty len => h.ok false && ty.isInt && d.aligned ty.regs && a.aligned ty.regs && ty.okLen len
  | .bfi h d a _ ty len => h.ok false && (ty == .b32 || ty == .b64) && d.aligned ty.regs && a.aligned ty.regs && ty.okLen len
  | .aadd h d a _ ty => h.ok false && (ty == .s32 || ty == .z32) && d.aligned 2 && a.aligned 2
  | .amad h d _ _ ty => h.ok false && (ty == .s32 || ty == .z32) && d.aligned 2
  | .icmp h d a b ty c => h.ok false && predOk d && ty.isInt && a.aligned ty.regs && b.aligned ty.regs && c.isOrder
  | .plop h d a b _ => h.ok false && predOk d && predOk a && predOk b
  | .pmov h _ => h.ok false
  | .sread h d x => h.ok false && d.aligned x.regs
  | .claim h _ c => h.ok false && decide (1 ≤ c.toNat) && decide (c.toNat ≤ 127)
  | .surr h _ c => h.ok false && decide (1 ≤ c.toNat) && decide (c.toNat ≤ 127)
  | .claimGrant _ => true
  | .fadd h _ _ _ ty rnd _ => h.ok false && ty.isFloat && rnd.isRneRz
  | .fsub h _ _ _ ty rnd _ => h.ok false && ty.isFloat && rnd.isRneRz
  | .fmul h _ _ _ ty rnd _ => h.ok false && ty.isFloat && rnd.isRneRz
  | .ffma h _ _ _ ty rnd _ => h.ok false && ty.isFloat && rnd.isRneRz
  | .fmin h _ _ _ ty => h.ok false && ty.isFloat
  | .fmax h _ _ _ ty => h.ok false && ty.isFloat
  | .fcmp h d _ _ ty _ => h.ok false && predOk d && ty.isFloat
  | .frcp h _ _ ty => h.ok false && ty == .f32
  | .frsq h _ _ ty => h.ok false && ty == .f32
  | .fexp2 h _ _ ty => h.ok false && ty == .f32
  | .flog2 h _ _ ty => h.ok false && ty == .f32
  | .ftanh h _ _ ty => h.ok false && ty == .f32
  | .fsin h _ _ ty => h.ok false && ty == .f32
  | .fcos h _ _ ty => h.ok false && ty == .f32
  | .hadd2 h _ _ _ ty rnd _ => h.ok false && ty.isHalf && rnd.isRneRz
  | .hmul2 h _ _ _ ty rnd _ => h.ok false && ty.isHalf && rnd.isRneRz
  | .hfma2 h _ _ _ ty rnd _ => h.ok false && ty.isHalf && rnd.isRneRz
  | .cvt h d a ty ty2 rnd sat bsel hi => h.ok false && Ty.okCvt ty ty2 rnd && Ty.okCvtSat ty ty2 sat && ty2.okSel bsel hi && d.aligned ty.regs && a.aligned ty2.regs
  | .cvtp h _ a ty rnd sat => h.ok false && ty.isPackDst && rnd.isCvt && (!sat || ty == .f16 || ty == .bf16 || ty == .e5m2) && a.aligned ty.packN
  | .cvtx h d a _ ty rnd => h.ok false && ty.isScaled && rnd.isCvt && a.aligned 4 && d.aligned 4
  | .ld h d m ty => h.ok true && ty.isLoad && d.aligned ty.regs && m.base.aligned 2
  | .st h d m ty => h.ok true && ty.isStore && d.aligned ty.regs && m.base.aligned 2
  | .atom h d m ty op => h.ok true && op.okTyNear ty && d.aligned (op.regs ty) && m.base.aligned 2
  | .red h d m ty op => h.ok true && op.okTyNear ty && op.isRed && d.aligned (op.regs ty) && m.base.aligned 2
  | .probe h d m => h.ok true && d.aligned 2 && m.base.aligned 2
  | .pageRequestPost _ => true
  | .countedCompletion _ => true
  | .ldp h d _ ty => h.ok true && ty.isLoad && d.aligned ty.regs
  | .stp h d _ ty => h.ok true && ty.isStore && d.aligned ty.regs
  | .atomp h d _ ty op => h.ok true && op.okTyNear ty && d.aligned (op.regs ty)
  | .ldc h d _ ty => h.ok true && ty.isLoad && d.aligned ty.regs && ty != .b128
  | .stc h d _ ty => h.ok true && ty.isStore && d.aligned ty.regs && ty != .b128
  | .bdecl h _ a b ty _ => h.ok false && ty != .sc && a.immIn 0 8191 && b.immIn 0 8191
  | .bseal h _ => h.ok false
  | .bdrain h _ => h.ok false
  | .bdone h _ => h.ok false
  | .bufferTransitionEffect _ => true
  | .bstat h d _ => h.ok false && d.aligned 2
  | .vadd h w => h.ok true && w.vaddOk
  | .vsub h w => h.ok true && w.vsubOk
  | .vmul h w => h.ok true && w.vmulOk
  | .vfma h w => h.ok true && w.vfmaOk
  | .vmin h w => h.ok true && w.vminOk
  | .vmax h w => h.ok true && w.vmaxOk
  | .vabs h w => h.ok true && w.vabsOk
  | .vexp2 h w => h.ok true && w.vexp2Ok
  | .vrcp h w => h.ok true && w.vrcpOk
  | .vrsq h w => h.ok true && w.vrsqOk
  | .vtanh h w => h.ok true && w.vtanhOk
  | .vcvt h w => h.ok true && w.vcvtOk
  | .vcpy h w => h.ok true && w.vcpyOk
  | .vfill h w => h.ok true && w.vfillOk
  | .vsumr h w => h.ok true && w.vsumrOk
  | .vmaxr h w => h.ok true && w.vmaxrOk
  | .vscal h w => h.ok true && w.vscalOk
  | .vselp h w => h.ok true && w.vselpOk
  | .sweepComplete _ => true
  | .wld h _ ty sp => h.ok true && ty.isPlane && (sp == .dense || ty.isByte)
  | .wldx h _ ty => h.ok true && ty.isScaled
  | .wswap h _ => h.ok false
  | .planeSwap _ => true
  | .mma h _ _ ty kb => h.ok true && ty.isPlane && decide (kb.toNat < ty.nb)
  | .mmab h _ _ ty q => h.ok true && ty.isPlane && q != 3#2
  | .mmax h _ _ s ty bsel kb => h.ok true && ty.isScaled && s.aligned (if ty == .e2m1 then 2 else 1) && decide (kb.toNat < ty.nb) && decide (bsel.toNat + kb.toNat + 1 ≤ ty.nb)
  | .azero h _ => h.ok false
  | .ald h _ _ => h.ok true
  | .ast h _ _ => h.ok true
  | .amov h _ _ => h.ok false
  | .matrixOpPerform _ => true
  | .qst h _ _ ty rnd sat h3 mx => h.ok true && ty.isPlane && (!sat || ty == .f16 || ty == .bf16 || ty == .e5m2) && (rnd == .ns || h3 == 0#3) && !(mx && (ty == .f16 || ty == .bf16))
  | .qstp h d _ ty rnd sat h3 mx => h.ok true && ty.isPlane && (!sat || ty == .f16 || ty == .bf16 || ty == .e5m2) && (rnd == .ns || h3 == 0#3) && !(mx && (ty == .f16 || ty == .bf16)) && d.aligned 4
  | .qstTurnAccept _ _ => true
  | .hdecl h _ a len ty axis _ mx rows => h.ok false && ty.isPlane && a.aligned 2 && decide (len.toNat ≤ 16) && !(mx && (ty == .f16 || ty == .bf16)) && !(axis && mx) && !(axis && len == 0#14) && (axis || rows == 0#5)
  | .hsave h _ _ => h.ok true
  | .hload h _ _ => h.ok true
  | .hclr h _ => h.ok false
  | .bankOpPerform _ => true
  | .winset h _ a => h.ok false && a.immIn 1 32
  | .fetch h _ m _ _ => h.ok true && m.base.aligned 2
  | .put h _ m _ _ => h.ok true && m.base.aligned 2
  | .redt h _ m _ _ => h.ok true && m.base.aligned 2
  | .postAccept _ => true
  | .transferArrival _ => true
  | .putCompletion _ => true
  | .fatom h d m ty op => h.ok true && op.okTyFar ty && d.aligned (op.regs ty) && m.base.aligned 2
  | .abar h a _ => h.ok false && a.immIn 0 8191
  | .await h p _ => h.ok false && predOk p
  | .etail h d a b => h.ok true && d.aligned 2 && a.immIn 0 4095 && b.immIn 0 64
  | .etailRst h d a b => h.ok true && d.aligned 2 && a.immIn 0 4095 && b.aligned 2
  | .eseq h d a => h.ok true && d.aligned 2 && a.immIn 0 4095
  | .ewait h p a b => h.ok false && predOk p && a.immIn 0 4095 && b.aligned 2 && b.immIn 0 8191
  | .engineEntryForward _ _ => true
  | .engineEntryComplete _ => true
  | .engineChainFail _ => true
  | .engineNop => true
  | .copy _ _ len => len != 0#32
  | .reduce _ _ _ ty _ len => (ty.isFloat || ty == .s32 || ty == .z32) && len != 0#32 && len.toNat % (ty.width / 8) == 0
  | .fill _ _ len => len != 0#32
  | .tload _ _ => true
  | .transduce _ _ _ _ len => len != 0#32
  | .engineQfence pairs => decide (1 ≤ pairs.length) && decide (pairs.length ≤ 4)
  | .metard _ => true
  | .metawr _ _ => true
  | .slotbind _ _ => true
  | .fifoStall _ => true
  | .xld h d m ty => h.ok true && ty.isLoad && d.aligned ty.regs && m.base.aligned 2
  | .xst h d m ty => h.ok true && ty.isStore && d.aligned ty.regs && m.base.aligned 2
  | .xatom h d m ty op => h.ok true && op.okTyFar ty && d.aligned (op.regs ty) && m.base.aligned 2
  | .xputq h m => h.ok true && m.base.aligned 2
  | .sput h d m ty => h.ok true && ty.isStore && d.aligned ty.regs && m.base.aligned 2
  | .swait h p a => h.ok false && predOk p && a.aligned 2 && a.immIn 0 8191
  | .sstat h d a => h.ok false && d.aligned 2 && a.aligned 2 && a.immIn 0 8191
  | .ctile h _ m _ => h.ok true && m.base.aligned 2
  | .ctileComplete _ _ _ => true
  | .inboundRead _ _ => true
  | .inboundWrite _ _ => true
  | .inboundAtomic _ _ _ _ _ => true
  | .inboundUnsupported _ => true
  | .xputqInbound _ _ _ => true
  | .stepRecordInbound _ _ _ => true
  | .peerResponse _ _ _ => true
  | .busyRetry _ => true
  | .requestTimeout _ => true
  | .responseDiscard _ _ => true
  | .boundaryDrained => true
  | .readyMsg _ _ => true
  | .stepApply => true
  | .appliedMsg _ _ => true
  | .boundaryComplete => true
  | .stepWatchdog => true
  | .collWatchdog _ _ => true
  | .fence h _ _ => h.ok false
  | .acq h _ m => h.ok false && m.base.aligned 2
  | .rel h m => h.ok true && m.base.aligned 2
  | .bind h _ a b => h.ok false && a.aligned 2 && b.aligned 2
  | .unbind h _ b => h.ok false && b.aligned 2
  | .hintnext h n => h.ok false && decide (n.toNat ≤ 16)
  | .waitpred h => h.ok false
  | .qpost h _ a _ => h.ok true && a.aligned 2
  | .signal h d m _ _ => h.ok true && d.aligned 2 && m.base.aligned 2
  | .tfence h => h.ok false
  | .trap h a => h.ok false && a.immIn 0 8191
  | .brk h a => h.ok false && a.immIn 0 8191
  | .tret h => h.ok false
  | .tmask h d x => h.ok false && d.aligned 2 && (match x with
      | .full a => a.aligned 2
      | .en a => a.immIn 0 127)
  | .flags h _ a => h.ok false && a.immIn 0 127
  | .sysr h d n => h.ok false && d.aligned 2 && n != 3#2
  | .sysw h x a => h.ok false && (x == .tcause || x == .tpc || x == .taddr) && a.aligned x.regs
  | .groupSave _ => true
  | .groupPlace _ => true
  | .launchStart _ => true
  | .launchComplete _ => true
  | .quantumExpiry _ => true
  | .packetNop => true
  | .launch _ => true
  | .launchi _ _ => true
  | .waitseq _ _ _ => true
  | .signalPacket _ _ _ _ => true
  | .loop _ => true
  | .endloop _ _ _ _ _ => true
  | .ifmem _ _ _ _ => true
  | .elsePacket => true
  | .endifPacket => true
  | .qfence => true
  | .engcmd _ _ => true
  | .stepb _ => true
  | .halt => true
  | .hqTail _ _ => true
  | .hqCtl _ _ => true
  | .clear _ => true
  | .resume _ => true
  | .pgResp _ _ _ => true
  | .tlbInvalRange _ _ => true
  | .tlbInvalAsid _ => true
  | .tlbInvalFull => true
  | .tlbInvalComplete => true
  | .asidBind _ => true
  | .asidRelease _ => true
  | .peerId _ => true
  | .peerTmo _ => true
  | .winReset _ => true
  | .keyInval _ => true
  | .sramPool _ => true
  | .sramIntake _ => true
  | .sramLcache _ => true
  | .stepCtl _ => true
  | .stepNum _ => true
  | .stepDom _ _ => true
  | .stepSpill _ => true
  | .optRing _ => true
  | .oeReset _ => true
  | .provision _ => true
  | .drain _ => true
  | .release _ => true
  | .provIgnored _ => true
  | .lsOff _ => true
  | .lsOn _ => true
  | .preemptCtl _ _ => true
  | .dbgStop => true
  | .dbgResume => true
  | .dbgStep => true
  | .dbgRead => true
  | .dbgWrite => true
  | .dbgDiscard => true
  | .dbgBadOperation _ => true
  | .pwrCap _ => true
  | .registerWrite _ _ => true
  | .hostMemoryAccess _ _ _ => true
  | .heartbeat _ => true
  | .heartbeatMiss _ _ => true
  | .wlFail _ _ _ _ _ => true
  | .wlDrop _ _ _ _ _ => true
  | .laserAge _ => true
  | .retrain _ _ _ _ => true
  | .laneSpare _ _ _ _ => true
  | .sourceLost _ _ => true
  | .linkDown _ _ _ => true
  | .reset => true
  | .firmwareImage _ _ _ => true
  | .spdmRequest _ => true
  | .keyLoad _ _ _ => true
  | .powerCapCrossing _ => true
  | .thermalTrip => true
  | .retrainingComplete _ _ _ => true
  | .portDown _ => true
  | .portUp _ => true
  | .xputqPageWaitExpiry _ => true

end Sys2Proof
end

