-- ==== Sys2Proof/Decode.lean ====
section
/-! DEFINITION. The decoders and encoders: an instruction word (R21 to R56), a command packet (R354), a chain entry
(R283, R284) and a host register write (R368, R369). Each is total and answers nothing for what is not one. -/

namespace Sys2Proof

/-- A condition of the decoder: nothing when it fails. -/
def need (b : Bool) : Option Unit := if b then some () else none

/-- Codes of R30. -/
def Ty.code : Ty → BitVec 5
  | .b8 => 0x01 | .b16 => 0x02 | .b32 => 0x03 | .b64 => 0x04 | .b128 => 0x05 | .s8 => 0x06 | .s16 => 0x07
  | .s32 => 0x08 | .s64 => 0x09 | .z8 => 0x0A | .z16 => 0x0B | .z32 => 0x0C | .z64 => 0x0D | .f32 => 0x0E
  | .f16 => 0x0F | .bf16 => 0x10 | .ln8 => 0x11 | .e4m3 => 0x12 | .e5m2 => 0x13 | .e2m1 => 0x14 | .mxi8 => 0x15
  | .sc => 0x16

def Ty.ofCode (c : BitVec 5) : Option Ty :=
  match c.toNat with
  | 0x01 => some .b8 | 0x02 => some .b16 | 0x03 => some .b32 | 0x04 => some .b64 | 0x05 => some .b128
  | 0x06 => some .s8 | 0x07 => some .s16 | 0x08 => some .s32 | 0x09 => some .s64 | 0x0A => some .z8
  | 0x0B => some .z16 | 0x0C => some .z32 | 0x0D => some .z64 | 0x0E => some .f32 | 0x0F => some .f16
  | 0x10 => some .bf16 | 0x11 => some .ln8 | 0x12 => some .e4m3 | 0x13 => some .e5m2 | 0x14 => some .e2m1
  | 0x15 => some .mxi8 | 0x16 => some .sc
  | _ => none

/-- Codes of the element types of Format S (R28). -/
def Ty.sweepCode : Ty → BitVec 4
  | .f32 => 0x0 | .f16 => 0x1 | .bf16 => 0x2 | .s32 => 0x3 | .z32 => 0x4 | .s16 => 0x5 | .z16 => 0x6 | .s8 => 0x7
  | .z8 => 0x8 | .ln8 => 0x9 | .e4m3 => 0xA | .e5m2 => 0xB | .e2m1 => 0xC | .mxi8 => 0xD
  | _ => 0xE

/-- Codes of R31. -/
def Rnd.code : Rnd → BitVec 3
  | .rne => 0 | .rz => 1 | .sr => 2 | .ns => 3

def Rnd.ofCode (c : BitVec 3) : Option Rnd :=
  match c.toNat with
  | 0 => some .rne | 1 => some .rz | 2 => some .sr | 3 => some .ns
  | _ => none

def Cond.code : Cond → BitVec 8
  | .eq => 0 | .ne => 1 | .lt => 2 | .le => 3 | .gt => 4 | .ge => 5 | .un => 6 | .ord => 7

def Cond.ofCode (c : BitVec 8) : Option Cond :=
  match c.toNat with
  | 0 => some .eq | 1 => some .ne | 2 => some .lt | 3 => some .le | 4 => some .gt | 5 => some .ge | 6 => some .un
  | 7 => some .ord
  | _ => none

def AtomOp.code : AtomOp → BitVec 8
  | .add => 0 | .min => 1 | .max => 2 | .and => 3 | .or => 4 | .xor => 5 | .exch => 6 | .cas => 7

def AtomOp.ofCode (c : BitVec 8) : Option AtomOp :=
  match c.toNat with
  | 0 => some .add | 1 => some .min | 2 => some .max | 3 => some .and | 4 => some .or | 5 => some .xor
  | 6 => some .exch | 7 => some .cas
  | _ => none

/-- The three-bit operation field of RRED (R116). -/
def AtomOp.code3 (o : AtomOp) : BitVec 3 := o.code.extractLsb' 0 3
def AtomOp.ofCode3 (c : BitVec 3) : Option AtomOp := AtomOp.ofCode (0#5 ++ c)

def XMode.code : XMode → BitVec 2
  | .pos => 0 | .rot => 1 | .rev => 2 | .last => 3

def XMode.ofCode (c : BitVec 2) : Option XMode :=
  match c.toNat with
  | 0 => some .pos | 1 => some .rot | 2 => some .rev
  | _ => some .last

def VMode.code : VMode → BitVec 2
  | .ballot => 0 | .any => 1 | .all => 2

def VMode.ofCode (c : BitVec 2) : Option VMode :=
  match c.toNat with
  | 0 => some .ballot | 1 => some .any | 2 => some .all
  | _ => none

def Sparsity.code : Sparsity → BitVec 2
  | .dense => 0 | .sp4 => 1 | .sp2 => 2

def Sparsity.ofCode (c : BitVec 2) : Option Sparsity :=
  match c.toNat with
  | 0 => some .dense | 1 => some .sp4 | 2 => some .sp2
  | _ => none

def CollKind.code : CollKind → BitVec 3
  | .allred => 0 | .redsc => 1 | .allgat => 2 | .bcast => 3

def CollKind.ofCode (c : BitVec 3) : Option CollKind :=
  match c.toNat with
  | 0 => some .allred | 1 => some .redsc | 2 => some .allgat | 3 => some .bcast
  | _ => none

def Scope.code : Scope → BitVec 3
  | .fibre => 0 | .group => 1 | .cluster => 2 | .package => 3 | .pod => 4

def Scope.ofCode (c : BitVec 3) : Option Scope :=
  match c.toNat with
  | 0 => some .fibre | 1 => some .group | 2 => some .cluster | 3 => some .package | 4 => some .pod
  | _ => none

def FenceKind.code : FenceKind → BitVec 2
  | .full => 0 | .rel => 1 | .acq => 2

def FenceKind.ofCode (c : BitVec 2) : Option FenceKind :=
  match c.toNat with
  | 0 => some .full | 1 => some .rel | 2 => some .acq
  | _ => none

/-- Numbers of R38. -/
def SysReg.num : SysReg → BitVec 11
  | .fibre => 0x000 | .lane => 0x001 | .rank => 0x002 | .group => 0x003 | .cluster => 0x004 | .core => 0x005
  | .die => 0x006 | .peer => 0x007 | .cycle => 0x008 | .wbase => 0x009 | .wsize => 0x00A | .flags => 0x00B
  | .tmask => 0x00C | .tcause => 0x00D | .tpc => 0x00E | .taddr => 0x00F | .step => 0x010 | .argp => 0x011

def SysReg.ofNum (c : BitVec 11) : Option SysReg :=
  match c.toNat with
  | 0x000 => some .fibre | 0x001 => some .lane | 0x002 => some .rank | 0x003 => some .group | 0x004 => some .cluster
  | 0x005 => some .core | 0x006 => some .die | 0x007 => some .peer | 0x008 => some .cycle | 0x009 => some .wbase
  | 0x00A => some .wsize | 0x00B => some .flags | 0x00C => some .tmask | 0x00D => some .tcause | 0x00E => some .tpc
  | 0x00F => some .taddr | 0x010 => some .step | 0x011 => some .argp
  | _ => none

/-! ### Operand fields (R33, R36) -/

/-- KIND 00: bits 13:11 zero; KIND 01: bit 11 zero. -/
def regOf (f : BitVec 16) : Option Reg :=
  if f.extractLsb' 11 5 == 0#5 then some (.v (f.extractLsb' 0 11))
  else if f.extractLsb' 14 2 == 1#2 && f.extractLsb' 11 1 == 0#1 then
    some (.idx (f.extractLsb' 12 2) (f.extractLsb' 0 11))
  else none

def Reg.code : Reg → BitVec 16
  | .v n => 0#5 ++ n
  | .idx i b => 1#2 ++ i ++ 0#1 ++ b

/-- KIND 10. -/
def imm14Of (f : BitVec 16) : Option (BitVec 14) :=
  if f.extractLsb' 14 2 == 2#2 then some (f.extractLsb' 0 14) else none

def immCode (n : BitVec 14) : BitVec 16 := 2#2 ++ n

def srcOf (f : BitVec 16) : Option Src :=
  match imm14Of f with
  | some n => some (.imm n)
  | none => (regOf f).map .reg

def Src.code : Src → BitVec 16
  | .reg r => r.code
  | .imm n => immCode n

def memOf (a b : BitVec 16) : Option Mem := do
  let base ← regOf a
  let off ← srcOf b
  some ⟨base, off⟩

/-- KIND 11: the number of an operand of class `c` whose numbers are `k` bits wide. -/
def classOf (c : BitVec 3) (k : Nat) (f : BitVec 16) : Option (BitVec k) :=
  if f.extractLsb' 14 2 == 3#2 && f.extractLsb' 11 3 == c && decide ((f.extractLsb' 0 11).toNat < 2 ^ k) then
    some (f.extractLsb' 0 k)
  else none

def classCode (c : BitVec 3) (n : BitVec 11) : BitVec 16 := 3#2 ++ c ++ n

def predOf (f : BitVec 16) : Option (BitVec 4) := classOf 0#3 4 f
def maskOf (f : BitVec 16) : Option (BitVec 3) := classOf 1#3 3 f
def tileOf (f : BitVec 16) : Option (BitVec 4) := classOf 3#3 4 f
def bufOf (f : BitVec 16) : Option (BitVec 6) := classOf 4#3 6 f
def bankOf (f : BitVec 16) : Option (BitVec 3) := classOf 5#3 3 f
def sysOf (f : BitVec 16) : Option SysReg := (classOf 6#3 11 f).bind SysReg.ofNum

def predCode (n : BitVec 4) : BitVec 16 := classCode 0#3 (n.setWidth 11)
def maskCode (n : BitVec 3) : BitVec 16 := classCode 1#3 (n.setWidth 11)
def tileCode (n : BitVec 4) : BitVec 16 := classCode 3#3 (n.setWidth 11)
def bufCode (n : BitVec 6) : BitVec 16 := classCode 4#3 (n.setWidth 11)
def bankCode (n : BitVec 3) : BitVec 16 := classCode 5#3 (n.setWidth 11)
def SysReg.code (r : SysReg) : BitVec 16 := classCode 6#3 r.num

def voteOf (f : BitVec 16) : Option VoteDst :=
  match predOf f with
  | some p => some (.pred p)
  | none => (regOf f).map .reg

def VoteDst.code : VoteDst → BitVec 16
  | .reg r => r.code
  | .pred p => predCode p

/-! ### The common header (R23) -/

/-- G, GN, HINT.LAST, HINT.KEEP and HINT.SEL, bits 81:72 of a word. -/
def hdrOf (x : BitVec 10) : Option Hdr :=
  let g := x.extractLsb' 6 4
  let gn := x.getLsbD 5
  let last := x.extractLsb' 2 3
  let keep := x.getLsbD 1
  let sel := x.getLsbD 0
  if g.toNat < 12 then some ⟨.p g gn, last, keep, sel⟩
  else if g == 15#4 && !gn then some ⟨.always, last, keep, sel⟩
  else none

def Hdr.code (h : Hdr) : BitVec 10 :=
  let g : BitVec 5 := match h.guard with
    | .always => 15#4 ++ 0#1
    | .p n neg => n ++ BitVec.ofBool neg
  g ++ h.last ++ BitVec.ofBool h.keep ++ BitVec.ofBool h.sel

/-! ### Format R (R26, R29) -/

/-- The fields of a Format R word. -/
structure RawR where
  op : BitVec 8
  sub : BitVec 6 := 0#6
  hdr : BitVec 10
  d : BitVec 16 := 0#16
  a : BitVec 16 := 0#16
  b : BitVec 16 := 0#16
  ty : BitVec 5 := 0#5
  ty2 : BitVec 5 := 0#5
  rnd : BitVec 3 := 0#3
  sat : Bool := false
  bsel : BitVec 2 := 0#2
  imm : BitVec 8 := 0#8
  deriving DecidableEq, Repr

/-- The fields of the word, as R26 and R29 place them. -/
def RawR.ofWord (w : IWord) : RawR where
  op := w.extractLsb' 88 8
  sub := w.extractLsb' 82 6
  hdr := w.extractLsb' 72 10
  d := w.extractLsb' 56 16
  a := w.extractLsb' 40 16
  b := w.extractLsb' 24 16
  ty := w.extractLsb' 19 5
  ty2 := w.extractLsb' 14 5
  rnd := w.extractLsb' 11 3
  sat := w.getLsbD 10
  bsel := w.extractLsb' 8 2
  imm := w.extractLsb' 0 8

def RawR.word (r : RawR) : IWord :=
  r.op ++ r.sub ++ r.hdr ++ r.d ++ r.a ++ r.b ++ r.ty ++ r.ty2 ++ r.rnd ++ BitVec.ofBool r.sat ++ r.bsel ++ r.imm

/-- Read a Format R word by its OP and SUB (R53) into an instruction; its types, ranges and alignments are judged by
`Instr.wf`. -/
def parseR (r : RawR) (h : Hdr) : Option Instr :=
  match r.op.toNat, r.sub.toNat with
  | 0x01, 0 => do
    need (r.d == 0 && r.a == 0 && r.b == 0 && r.ty == 0 && r.ty2 == 0 && r.rnd == 0 && !r.sat && r.bsel == 0 && r.imm == 0)
    some (.nop h)
  | 0x02, 1 => do
    need (r.d == 0 && r.b == 0 && r.ty == 0 && r.ty2 == 0 && r.rnd == 0 && !r.sat && r.bsel == 0 && r.imm == 0)
    let a ← regOf r.a
    some (.brx h a)
  | 0x02, 3 => do
    need (r.d == 0 && r.b == 0 && r.ty == 0 && r.ty2 == 0 && r.rnd == 0 && !r.sat && r.bsel == 0 && r.imm == 0)
    let a ← regOf r.a
    some (.ret h a)
  | 0x03, 0 => do
    need (r.d == 0 && r.b == 0 && r.ty == 0 && r.ty2 == 0 && r.rnd == 0 && !r.sat && r.bsel == 0 && r.imm == 0)
    let m ← maskOf r.a
    some (.jset h m)
  | 0x03, 1 => do
    need (r.d == 0 && r.b == 0 && r.ty == 0 && r.ty2 == 0 && r.rnd == 0 && !r.sat && r.bsel == 0 && r.imm == 0)
    let m ← maskOf r.a
    some (.jwait h m)
  | 0x03, 3 => do
    need (r.d == 0 && r.b == 0 && r.ty == 0 && r.ty2 == 0 && r.rnd == 0 && !r.sat && r.bsel == 0 && r.imm == 0)
    let m ← maskOf r.a
    some (.jdrop h m)
  | 0x04, 0 => do
    need (r.ty == 0 && r.ty2 == 0 && r.rnd == 0 && !r.sat && r.bsel == 0 && r.imm == 0)
    let d ← regOf r.d
    let a ← regOf r.a
    let b ← srcOf r.b
    some (.fnew h d a b)
  | 0x04, 1 => do
    need (r.d == 0 && r.a == 0 && r.b == 0 && r.ty == 0 && r.ty2 == 0 && r.rnd == 0 && !r.sat && r.bsel == 0 && r.imm == 0)
    some (.fend h)
  | 0x05, 0 => do
    need (r.d == 0 && r.a == 0 && r.b == 0 && r.ty == 0 && r.ty2 == 0 && r.rnd == 0 && !r.sat && r.bsel == 0 && r.imm &&& 0xF0#8 == 0)
    let n := r.imm.extractLsb' 0 4
    some (.bar h n)
  | 0x05, 1 => do
    need (r.d == 0 && r.a == 0 && r.b == 0 && r.ty == 0 && r.ty2 == 0 && r.rnd == 0 && !r.sat && r.bsel == 0 && r.imm &&& 0xF0#8 == 0)
    let n := r.imm.extractLsb' 0 4
    some (.bara h n)
  | 0x05, 2 => do
    need (r.d == 0 && r.a == 0 && r.b == 0 && r.ty == 0 && r.ty2 == 0 && r.rnd == 0 && !r.sat && r.bsel == 0 && r.imm &&& 0xF0#8 == 0)
    let n := r.imm.extractLsb' 0 4
    some (.barw h n)
  | 0x06, 0 => do
    need (r.d == 0 && r.a == 0 && r.b == 0 && r.ty == 0 && r.ty2 == 0 && r.rnd == 0 && !r.sat && r.bsel == 0 && r.imm == 0)
    some (.cbar h)
  | 0x06, 1 => do
    need (r.d == 0 && r.a == 0 && r.b == 0 && r.ty == 0 && r.ty2 == 0 && r.rnd == 0 && !r.sat && r.bsel == 0 && r.imm == 0)
    some (.cbarx h)
  | 0x07, 0 => do
    need (r.ty == 0 && r.ty2 == 0 && r.rnd == 0 && !r.sat && r.bsel == 0 && r.imm == 0)
    let d ← regOf r.d
    let a ← regOf r.a
    let b ← regOf r.b
    some (.task h d a b)
  | 0x07, 1 => do
    need (r.b == 0 && r.ty == 0 && r.ty2 == 0 && r.rnd == 0 && !r.sat && r.bsel == 0 && r.imm == 0)
    let d ← regOf r.d
    let a ← regOf r.a
    some (.fork h d a)
  | 0x08, 0 => do
    need (r.d == 0 && r.a == 0 && r.b == 0 && r.ty == 0 && r.ty2 == 0 && r.rnd == 0 && !r.sat && r.bsel == 0 && r.imm == 0)
    some (.yield h)
  | 0x09, 0 => do
    need (r.ty2 == 0 && r.rnd == 0 && !r.sat && r.bsel == 0 && r.imm &&& 0xE0#8 == 0)
    let d ← regOf r.d
    let a ← regOf r.a
    let b ← srcOf r.b
    let ty ← Ty.ofCode r.ty
    let mode ← XMode.ofCode (r.imm.extractLsb' 3 2)
    let m := r.imm.extractLsb' 0 3
    some (.rxchg h d a b ty mode m)
  | 0x09, 1 => do
    need (r.b == 0 && r.ty == 0 && r.ty2 == 0 && r.rnd == 0 && !r.sat && r.bsel == 0 && r.imm &&& 0xE0#8 == 0)
    let d ← voteOf r.d
    let a ← predOf r.a
    let mode ← VMode.ofCode (r.imm.extractLsb' 3 2)
    let m := r.imm.extractLsb' 0 3
    some (.rvote h d a mode m)
  | 0x09, 2 => do
    need (r.b == 0 && r.ty2 == 0 && r.rnd == 0 && !r.sat && r.bsel == 0 && r.imm &&& 0xC0#8 == 0)
    let d ← regOf r.d
    let a ← regOf r.a
    let ty ← Ty.ofCode r.ty
    let op ← AtomOp.ofCode3 (r.imm.extractLsb' 3 3)
    let m := r.imm.extractLsb' 0 3
    some (.rred h d a ty op m)
  | 0x10, 0 => do
    need (r.b == 0 && r.ty2 == 0 && r.rnd == 0 && !r.sat && r.bsel == 0 && r.imm == 0)
    let d ← regOf r.d
    let a ← srcOf r.a
    let ty ← Ty.ofCode r.ty
    some (.mov h d a ty)
  | 0x13, 0 => do
    need (r.ty2 == 0 && r.rnd == 0 && !r.sat && r.bsel == 0 && r.imm &&& 0xFE#8 == 0)
    let d ← regOf r.d
    let a ← srcOf r.a
    let p ← predOf r.b
    let ty ← Ty.ofCode r.ty
    let inv := r.imm.getLsbD 0
    some (.sel h d a p ty inv)
  | 0x14, 0 => do
    need (r.ty2 == 0 && r.rnd == 0 && r.bsel == 0 && r.imm == 0)
    let d ← regOf r.d
    let a ← srcOf r.a
    let b ← srcOf r.b
    let ty ← Ty.ofCode r.ty
    some (.iadd h d a b ty r.sat)
  | 0x14, 1 => do
    need (r.ty2 == 0 && r.rnd == 0 && r.bsel == 0 && r.imm == 0)
    let d ← regOf r.d
    let a ← srcOf r.a
    let b ← srcOf r.b
    let ty ← Ty.ofCode r.ty
    some (.isub h d a b ty r.sat)
  | 0x15, 0 => do
    need (r.ty2 == 0 && r.rnd == 0 && r.bsel == 0 && r.imm == 0)
    let d ← regOf r.d
    let a ← srcOf r.a
    let b ← srcOf r.b
    let ty ← Ty.ofCode r.ty
    some (.imul h d a b ty r.sat)
  | 0x15, 1 => do
    need (r.ty2 == 0 && r.rnd == 0 && !r.sat && r.bsel == 0 && r.imm == 0)
    let d ← regOf r.d
    let a ← srcOf r.a
    let b ← srcOf r.b
    let ty ← Ty.ofCode r.ty
    some (.imulh h d a b ty)
  | 0x15, 2 => do
    need (r.ty2 == 0 && r.rnd == 0 && r.bsel == 0 && r.imm == 0)
    let d ← regOf r.d
    let a ← srcOf r.a
    let b ← srcOf r.b
    let ty ← Ty.ofCode r.ty
    some (.imad h d a b ty r.sat)
  | 0x16, 0 => do
    need (r.ty2 == 0 && r.rnd == 0 && r.bsel == 0 && r.imm == 0)
    let d ← regOf r.d
    let a ← srcOf r.a
    let b ← srcOf r.b
    let ty ← Ty.ofCode r.ty
    some (.idiv h d a b ty r.sat)
  | 0x16, 1 => do
    need (r.ty2 == 0 && r.rnd == 0 && !r.sat && r.bsel == 0 && r.imm == 0)
    let d ← regOf r.d
    let a ← srcOf r.a
    let b ← srcOf r.b
    let ty ← Ty.ofCode r.ty
    some (.irem h d a b ty)
  | 0x17, 0 => do
    need (r.ty2 == 0 && r.rnd == 0 && !r.sat && r.bsel == 0 && r.imm == 0)
    let d ← regOf r.d
    let a ← srcOf r.a
    let b ← srcOf r.b
    let ty ← Ty.ofCode r.ty
    some (.imin h d a b ty)
  | 0x17, 1 => do
    need (r.ty2 == 0 && r.rnd == 0 && !r.sat && r.bsel == 0 && r.imm == 0)
    let d ← regOf r.d
    let a ← srcOf r.a
    let b ← srcOf r.b
    let ty ← Ty.ofCode r.ty
    some (.imax h d a b ty)
  | 0x18, 0 => do
    need (r.b == 0 && r.ty2 == 0 && r.rnd == 0 && r.bsel == 0 && r.imm == 0)
    let d ← regOf r.d
    let a ← srcOf r.a
    let ty ← Ty.ofCode r.ty
    some (.iabs h d a ty r.sat)
  | 0x18, 1 => do
    need (r.b == 0 && r.ty2 == 0 && r.rnd == 0 && r.bsel == 0 && r.imm == 0)
    let d ← regOf r.d
    let a ← srcOf r.a
    let ty ← Ty.ofCode r.ty
    some (.ineg h d a ty r.sat)
  | 0x19, 0 => do
    need (r.ty2 == 0 && r.rnd == 0 && !r.sat && r.bsel == 0 && r.imm == 0)
    let d ← regOf r.d
    let a ← srcOf r.a
    let b ← srcOf r.b
    let ty ← Ty.ofCode r.ty
    some (.and h d a b ty)
  | 0x19, 1 => do
    need (r.ty2 == 0 && r.rnd == 0 && !r.sat && r.bsel == 0 && r.imm == 0)
    let d ← regOf r.d
    let a ← srcOf r.a
    let b ← srcOf r.b
    let ty ← Ty.ofCode r.ty
    some (.or h d a b ty)
  | 0x19, 2 => do
    need (r.ty2 == 0 && r.rnd == 0 && !r.sat && r.bsel == 0 && r.imm == 0)
    let d ← regOf r.d
    let a ← srcOf r.a
    let b ← srcOf r.b
    let ty ← Ty.ofCode r.ty
    some (.xor h d a b ty)
  | 0x19, 4 => do
    need (r.ty2 == 0 && r.rnd == 0 && !r.sat && r.bsel == 0 && r.imm == 0)
    let d ← regOf r.d
    let a ← srcOf r.a
    let b ← srcOf r.b
    let ty ← Ty.ofCode r.ty
    some (.andn h d a b ty)
  | 0x19, 3 => do
    need (r.b == 0 && r.ty2 == 0 && r.rnd == 0 && !r.sat && r.bsel == 0 && r.imm == 0)
    let d ← regOf r.d
    let a ← srcOf r.a
    let ty ← Ty.ofCode r.ty
    some (.not h d a ty)
  | 0x1A, 0 => do
    need (r.ty2 == 0 && r.rnd == 0 && !r.sat && r.bsel == 0 && r.imm == 0)
    let d ← regOf r.d
    let a ← srcOf r.a
    let b ← srcOf r.b
    let ty ← Ty.ofCode r.ty
    some (.shl h d a b ty)
  | 0x1A, 1 => do
    need (r.ty2 == 0 && r.rnd == 0 && !r.sat && r.bsel == 0 && r.imm == 0)
    let d ← regOf r.d
    let a ← srcOf r.a
    let b ← srcOf r.b
    let ty ← Ty.ofCode r.ty
    some (.shr h d a b ty)
  | 0x1A, 2 => do
    need (r.ty2 == 0 && r.rnd == 0 && !r.sat && r.bsel == 0 && r.imm == 0)
    let d ← regOf r.d
    let a ← srcOf r.a
    let b ← srcOf r.b
    let ty ← Ty.ofCode r.ty
    some (.sar h d a b ty)
  | 0x1A, 3 => do
    need (r.ty2 == 0 && r.rnd == 0 && !r.sat && r.bsel == 0 && r.imm == 0)
    let d ← regOf r.d
    let a ← srcOf r.a
    let b ← srcOf r.b
    let ty ← Ty.ofCode r.ty
    some (.rotl h d a b ty)
  | 0x1B, 0 => do
    need (r.b == 0 && r.ty2 == 0 && r.rnd == 0 && !r.sat && r.bsel == 0 && r.imm == 0)
    let d ← regOf r.d
    let a ← regOf r.a
    let ty ← Ty.ofCode r.ty
    some (.popc h d a ty)
  | 0x1B, 1 => do
    need (r.b == 0 && r.ty2 == 0 && r.rnd == 0 && !r.sat && r.bsel == 0 && r.imm == 0)
    let d ← regOf r.d
    let a ← regOf r.a
    let ty ← Ty.ofCode r.ty
    some (.clz h d a ty)
  | 0x1B, 2 => do
    need (r.b == 0 && r.ty2 == 0 && r.rnd == 0 && !r.sat && r.bsel == 0 && r.imm == 0)
    let d ← regOf r.d
    let a ← regOf r.a
    let ty ← Ty.ofCode r.ty
    some (.brev h d a ty)
  | 0x1C, 0 => do
    need (r.ty2 == 0 && r.rnd == 0 && !r.sat && r.bsel == 0)
    let d ← regOf r.d
    let a ← regOf r.a
    let b ← srcOf r.b
    let ty ← Ty.ofCode r.ty
    let len := r.imm.extractLsb' 0 8
    some (.bfx h d a b ty len)
  | 0x1C, 1 => do
    need (r.ty2 == 0 && r.rnd == 0 && !r.sat && r.bsel == 0)
    let d ← regOf r.d
    let a ← srcOf r.a
    let b ← srcOf r.b
    let ty ← Ty.ofCode r.ty
    let len := r.imm.extractLsb' 0 8
    some (.bfi h d a b ty len)
  | 0x1D, 0 => do
    need (r.ty2 == 0 && r.rnd == 0 && !r.sat && r.bsel == 0 && r.imm == 0)
    let d ← regOf r.d
    let a ← regOf r.a
    let b ← srcOf r.b
    let ty ← Ty.ofCode r.ty
    some (.aadd h d a b ty)
  | 0x1D, 1 => do
    need (r.ty2 == 0 && r.rnd == 0 && !r.sat && r.bsel == 0 && r.imm == 0)
    let d ← regOf r.d
    let a ← srcOf r.a
    let b ← srcOf r.b
    let ty ← Ty.ofCode r.ty
    some (.amad h d a b ty)
  | 0x1E, 0 => do
    need (r.ty2 == 0 && r.rnd == 0 && !r.sat && r.bsel == 0)
    let d ← predOf r.d
    let a ← srcOf r.a
    let b ← srcOf r.b
    let ty ← Ty.ofCode r.ty
    let c ← Cond.ofCode r.imm
    some (.icmp h d a b ty c)
  | 0x1F, 0 => do
    need (r.ty == 0 && r.ty2 == 0 && r.rnd == 0 && !r.sat && r.bsel == 0 && r.imm &&& 0xF0#8 == 0)
    let d ← predOf r.d
    let a ← predOf r.a
    let b ← predOf r.b
    let lut := r.imm.extractLsb' 0 4
    some (.plop h d a b lut)
  | 0x20, 0 => do
    need (r.b == 0 && r.ty == 0 && r.ty2 == 0 && r.rnd == 0 && !r.sat && r.bsel == 0 && r.imm == 0)
    let d ← regOf r.d
    let x ← sysOf r.a
    some (.sread h d x)
  | 0x21, 0 => do
    need (r.b == 0 && r.ty == 0 && r.ty2 == 0 && r.rnd == 0 && !r.sat && r.bsel == 0 && r.imm == 0)
    let d ← regOf r.d
    let c ← imm14Of r.a
    some (.claim h d c)
  | 0x21, 1 => do
    need (r.b == 0 && r.ty == 0 && r.ty2 == 0 && r.rnd == 0 && !r.sat && r.bsel == 0 && r.imm == 0)
    let d ← regOf r.d
    let c ← imm14Of r.a
    some (.surr h d c)
  | 0x30, 0 => do
    need (r.ty2 == 0 && r.bsel == 0 && r.imm == 0)
    let d ← regOf r.d
    let a ← srcOf r.a
    let b ← srcOf r.b
    let ty ← Ty.ofCode r.ty
    let rnd ← Rnd.ofCode r.rnd
    some (.fadd h d a b ty rnd r.sat)
  | 0x30, 1 => do
    need (r.ty2 == 0 && r.bsel == 0 && r.imm == 0)
    let d ← regOf r.d
    let a ← srcOf r.a
    let b ← srcOf r.b
    let ty ← Ty.ofCode r.ty
    let rnd ← Rnd.ofCode r.rnd
    some (.fsub h d a b ty rnd r.sat)
  | 0x31, 0 => do
    need (r.ty2 == 0 && r.bsel == 0 && r.imm == 0)
    let d ← regOf r.d
    let a ← srcOf r.a
    let b ← srcOf r.b
    let ty ← Ty.ofCode r.ty
    let rnd ← Rnd.ofCode r.rnd
    some (.fmul h d a b ty rnd r.sat)
  | 0x32, 0 => do
    need (r.ty2 == 0 && r.bsel == 0 && r.imm == 0)
    let d ← regOf r.d
    let a ← srcOf r.a
    let b ← srcOf r.b
    let ty ← Ty.ofCode r.ty
    let rnd ← Rnd.ofCode r.rnd
    some (.ffma h d a b ty rnd r.sat)
  | 0x33, 0 => do
    need (r.ty2 == 0 && r.rnd == 0 && !r.sat && r.bsel == 0 && r.imm == 0)
    let d ← regOf r.d
    let a ← srcOf r.a
    let b ← srcOf r.b
    let ty ← Ty.ofCode r.ty
    some (.fmin h d a b ty)
  | 0x33, 1 => do
    need (r.ty2 == 0 && r.rnd == 0 && !r.sat && r.bsel == 0 && r.imm == 0)
    let d ← regOf r.d
    let a ← srcOf r.a
    let b ← srcOf r.b
    let ty ← Ty.ofCode r.ty
    some (.fmax h d a b ty)
  | 0x34, 0 => do
    need (r.ty2 == 0 && r.rnd == 0 && !r.sat && r.bsel == 0)
    let d ← predOf r.d
    let a ← srcOf r.a
    let b ← srcOf r.b
    let ty ← Ty.ofCode r.ty
    let c ← Cond.ofCode r.imm
    some (.fcmp h d a b ty c)
  | 0x35, 0 => do
    need (r.b == 0 && r.ty2 == 0 && r.rnd == 0 && !r.sat && r.bsel == 0 && r.imm == 0)
    let d ← regOf r.d
    let a ← srcOf r.a
    let ty ← Ty.ofCode r.ty
    some (.frcp h d a ty)
  | 0x35, 1 => do
    need (r.b == 0 && r.ty2 == 0 && r.rnd == 0 && !r.sat && r.bsel == 0 && r.imm == 0)
    let d ← regOf r.d
    let a ← srcOf r.a
    let ty ← Ty.ofCode r.ty
    some (.frsq h d a ty)
  | 0x35, 2 => do
    need (r.b == 0 && r.ty2 == 0 && r.rnd == 0 && !r.sat && r.bsel == 0 && r.imm == 0)
    let d ← regOf r.d
    let a ← srcOf r.a
    let ty ← Ty.ofCode r.ty
    some (.fexp2 h d a ty)
  | 0x35, 3 => do
    need (r.b == 0 && r.ty2 == 0 && r.rnd == 0 && !r.sat && r.bsel == 0 && r.imm == 0)
    let d ← regOf r.d
    let a ← srcOf r.a
    let ty ← Ty.ofCode r.ty
    some (.flog2 h d a ty)
  | 0x35, 4 => do
    need (r.b == 0 && r.ty2 == 0 && r.rnd == 0 && !r.sat && r.bsel == 0 && r.imm == 0)
    let d ← regOf r.d
    let a ← srcOf r.a
    let ty ← Ty.ofCode r.ty
    some (.ftanh h d a ty)
  | 0x35, 5 => do
    need (r.b == 0 && r.ty2 == 0 && r.rnd == 0 && !r.sat && r.bsel == 0 && r.imm == 0)
    let d ← regOf r.d
    let a ← srcOf r.a
    let ty ← Ty.ofCode r.ty
    some (.fsin h d a ty)
  | 0x35, 6 => do
    need (r.b == 0 && r.ty2 == 0 && r.rnd == 0 && !r.sat && r.bsel == 0 && r.imm == 0)
    let d ← regOf r.d
    let a ← srcOf r.a
    let ty ← Ty.ofCode r.ty
    some (.fcos h d a ty)
  | 0x36, 0 => do
    need (r.ty2 == 0 && r.bsel == 0 && r.imm == 0)
    let d ← regOf r.d
    let a ← srcOf r.a
    let b ← srcOf r.b
    let ty ← Ty.ofCode r.ty
    let rnd ← Rnd.ofCode r.rnd
    some (.hadd2 h d a b ty rnd r.sat)
  | 0x36, 1 => do
    need (r.ty2 == 0 && r.bsel == 0 && r.imm == 0)
    let d ← regOf r.d
    let a ← srcOf r.a
    let b ← srcOf r.b
    let ty ← Ty.ofCode r.ty
    let rnd ← Rnd.ofCode r.rnd
    some (.hmul2 h d a b ty rnd r.sat)
  | 0x36, 2 => do
    need (r.ty2 == 0 && r.bsel == 0 && r.imm == 0)
    let d ← regOf r.d
    let a ← srcOf r.a
    let b ← srcOf r.b
    let ty ← Ty.ofCode r.ty
    let rnd ← Rnd.ofCode r.rnd
    some (.hfma2 h d a b ty rnd r.sat)
  | 0x37, 0 => do
    need (r.b == 0 && r.imm &&& 0xFE#8 == 0)
    let d ← regOf r.d
    let a ← srcOf r.a
    let ty ← Ty.ofCode r.ty
    let ty2 ← Ty.ofCode r.ty2
    let rnd ← Rnd.ofCode r.rnd
    let hi := r.imm.getLsbD 0
    some (.cvt h d a ty ty2 rnd r.sat r.bsel hi)
  | 0x38, 0 => do
    need (r.ty2 == Ty.code .f32 && r.b == 0 && r.bsel == 0 && r.imm == 0)
    let d ← regOf r.d
    let a ← regOf r.a
    let ty ← Ty.ofCode r.ty
    let rnd ← Rnd.ofCode r.rnd
    some (.cvtp h d a ty rnd r.sat)
  | 0x39, 0 => do
    need (r.ty2 == Ty.code .f32 && !r.sat && r.bsel == 0 && r.imm == 0)
    let d ← regOf r.d
    let a ← regOf r.a
    let b ← regOf r.b
    let ty ← Ty.ofCode r.ty
    let rnd ← Rnd.ofCode r.rnd
    some (.cvtx h d a b ty rnd)
  | 0x40, 0 => do
    need (r.ty2 == 0 && r.rnd == 0 && !r.sat && r.bsel == 0 && r.imm == 0)
    let d ← regOf r.d
    let m ← memOf r.a r.b
    let ty ← Ty.ofCode r.ty
    some (.ld h d m ty)
  | 0x41, 0 => do
    need (r.ty2 == 0 && r.rnd == 0 && !r.sat && r.bsel == 0 && r.imm == 0)
    let d ← regOf r.d
    let m ← memOf r.a r.b
    let ty ← Ty.ofCode r.ty
    some (.st h d m ty)
  | 0x42, 0 => do
    need (r.ty2 == 0 && r.rnd == 0 && !r.sat && r.bsel == 0)
    let d ← regOf r.d
    let m ← memOf r.a r.b
    let ty ← Ty.ofCode r.ty
    let op ← AtomOp.ofCode r.imm
    some (.atom h d m ty op)
  | 0x43, 0 => do
    need (r.ty2 == 0 && r.rnd == 0 && !r.sat && r.bsel == 0)
    let d ← regOf r.d
    let m ← memOf r.a r.b
    let ty ← Ty.ofCode r.ty
    let op ← AtomOp.ofCode r.imm
    some (.red h d m ty op)
  | 0x44, 0 => do
    need (r.ty == 0 && r.ty2 == 0 && r.rnd == 0 && !r.sat && r.bsel == 0 && r.imm == 0)
    let d ← regOf r.d
    let m ← memOf r.a r.b
    some (.probe h d m)
  | 0x50, 0 => do
    need (r.ty2 == 0 && r.rnd == 0 && !r.sat && r.bsel == 0 && r.imm == 0)
    let d ← regOf r.d
    let m ← memOf r.a r.b
    let ty ← Ty.ofCode r.ty
    some (.ldp h d m ty)
  | 0x51, 0 => do
    need (r.ty2 == 0 && r.rnd == 0 && !r.sat && r.bsel == 0 && r.imm == 0)
    let d ← regOf r.d
    let m ← memOf r.a r.b
    let ty ← Ty.ofCode r.ty
    some (.stp h d m ty)
  | 0x52, 0 => do
    need (r.ty2 == 0 && r.rnd == 0 && !r.sat && r.bsel == 0)
    let d ← regOf r.d
    let m ← memOf r.a r.b
    let ty ← Ty.ofCode r.ty
    let op ← AtomOp.ofCode r.imm
    some (.atomp h d m ty op)
  | 0x53, 0 => do
    need (r.ty2 == 0 && r.rnd == 0 && !r.sat && r.bsel == 0 && r.imm == 0)
    let d ← regOf r.d
    let m ← memOf r.a r.b
    let ty ← Ty.ofCode r.ty
    some (.ldc h d m ty)
  | 0x54, 0 => do
    need (r.ty2 == 0 && r.rnd == 0 && !r.sat && r.bsel == 0 && r.imm == 0)
    let d ← regOf r.d
    let m ← memOf r.a r.b
    let ty ← Ty.ofCode r.ty
    some (.stc h d m ty)
  | 0x55, 0 => do
    need (r.ty2 == 0 && r.rnd == 0 && !r.sat && r.bsel == 0 && r.imm &&& 0xFC#8 == 0)
    let n ← bufOf r.d
    let a ← srcOf r.a
    let b ← srcOf r.b
    let ty ← Ty.ofCode r.ty
    let exp := r.imm.extractLsb' 0 2
    some (.bdecl h n a b ty exp)
  | 0x56, 0 => do
    need (r.a == 0 && r.b == 0 && r.ty == 0 && r.ty2 == 0 && r.rnd == 0 && !r.sat && r.bsel == 0 && r.imm == 0)
    let n ← bufOf r.d
    some (.bseal h n)
  | 0x57, 0 => do
    need (r.a == 0 && r.b == 0 && r.ty == 0 && r.ty2 == 0 && r.rnd == 0 && !r.sat && r.bsel == 0 && r.imm == 0)
    let n ← bufOf r.d
    some (.bdrain h n)
  | 0x58, 0 => do
    need (r.a == 0 && r.b == 0 && r.ty == 0 && r.ty2 == 0 && r.rnd == 0 && !r.sat && r.bsel == 0 && r.imm == 0)
    let n ← bufOf r.d
    some (.bdone h n)
  | 0x59, 0 => do
    need (r.b == 0 && r.ty == 0 && r.ty2 == 0 && r.rnd == 0 && !r.sat && r.bsel == 0 && r.imm == 0)
    let d ← regOf r.d
    let n ← bufOf r.a
    some (.bstat h d n)
  | 0x78, 0 => do
    need (r.d == 0 && r.ty2 == 0 && r.rnd == 0 && !r.sat && r.bsel == 0 && r.imm &&& 0xFC#8 == 0)
    let m ← memOf r.a r.b
    let ty ← Ty.ofCode r.ty
    let sp ← Sparsity.ofCode (r.imm.extractLsb' 0 2)
    some (.wld h m ty sp)
  | 0x79, 0 => do
    need (r.d == 0 && r.ty2 == 0 && r.rnd == 0 && !r.sat && r.bsel == 0 && r.imm == 0)
    let m ← memOf r.a r.b
    let ty ← Ty.ofCode r.ty
    some (.wldx h m ty)
  | 0x7A, 0 => do
    need (r.d == 0 && r.b == 0 && r.ty == 0 && r.ty2 == 0 && r.rnd == 0 && !r.sat && r.bsel == 0 && r.imm == 0)
    let a ← srcOf r.a
    some (.wswap h a)
  | 0x7B, 0 => do
    need (r.b == 0 && r.ty2 == 0 && r.rnd == 0 && !r.sat && r.bsel == 0 && r.imm &&& 0xF8#8 == 0)
    let t ← tileOf r.d
    let a ← regOf r.a
    let ty ← Ty.ofCode r.ty
    let kb := r.imm.extractLsb' 0 3
    some (.mma h t a ty kb)
  | 0x7C, 0 => do
    need (r.b == 0 && r.ty2 == 0 && r.rnd == 0 && !r.sat && r.bsel == 0 && r.imm &&& 0xFC#8 == 0)
    let t ← tileOf r.d
    let a ← regOf r.a
    let ty ← Ty.ofCode r.ty
    let q := r.imm.extractLsb' 0 2
    some (.mmab h t a ty q)
  | 0x7D, 0 => do
    need (r.ty2 == 0 && r.rnd == 0 && !r.sat && r.imm &&& 0xF8#8 == 0)
    let t ← tileOf r.d
    let a ← regOf r.a
    let s ← regOf r.b
    let ty ← Ty.ofCode r.ty
    let kb := r.imm.extractLsb' 0 3
    some (.mmax h t a s ty r.bsel kb)
  | 0x7E, 0 => do
    need (r.a == 0 && r.b == 0 && r.ty == 0 && r.ty2 == 0 && r.rnd == 0 && !r.sat && r.bsel == 0 && r.imm == 0)
    let t ← tileOf r.d
    some (.azero h t)
  | 0x7F, 0 => do
    need (r.ty == Ty.code .f32 && r.ty2 == 0 && r.rnd == 0 && !r.sat && r.bsel == 0 && r.imm == 0)
    let t ← tileOf r.d
    let m ← memOf r.a r.b
    some (.ald h t m)
  | 0x80, 0 => do
    need (r.ty == Ty.code .f32 && r.ty2 == 0 && r.rnd == 0 && !r.sat && r.bsel == 0 && r.imm == 0)
    let t ← tileOf r.d
    let m ← memOf r.a r.b
    some (.ast h t m)
  | 0x81, 0 => do
    need (r.b == 0 && r.ty == 0 && r.ty2 == 0 && r.rnd == 0 && !r.sat && r.bsel == 0 && r.imm == 0)
    let t ← tileOf r.d
    let u ← tileOf r.a
    some (.amov h t u)
  | 0x84, 0 => do
    need (r.ty2 == 0 && r.bsel == 0 && r.imm &&& 0xF0#8 == 0)
    let t ← tileOf r.d
    let m ← memOf r.a r.b
    let ty ← Ty.ofCode r.ty
    let rnd ← Rnd.ofCode r.rnd
    let h3 := r.imm.extractLsb' 0 3
    let mx := r.imm.getLsbD 3
    some (.qst h t m ty rnd r.sat h3 mx)
  | 0x85, 0 => do
    need (r.ty2 == 0 && r.bsel == 0 && r.imm &&& 0xF0#8 == 0)
    let d ← regOf r.d
    let m ← memOf r.a r.b
    let ty ← Ty.ofCode r.ty
    let rnd ← Rnd.ofCode r.rnd
    let h3 := r.imm.extractLsb' 0 3
    let mx := r.imm.getLsbD 3
    some (.qstp h d m ty rnd r.sat h3 mx)
  | 0x86, 0 => do
    need (r.ty2 == 0 && r.rnd == 0 && !r.sat && r.bsel == 0)
    let b ← bankOf r.d
    let a ← regOf r.a
    let len ← imm14Of r.b
    let ty ← Ty.ofCode r.ty
    let axis := r.imm.getLsbD 0
    let wrap := r.imm.getLsbD 1
    let mx := r.imm.getLsbD 2
    let rows := r.imm.extractLsb' 3 5
    some (.hdecl h b a len ty axis wrap mx rows)
  | 0x87, 0 => do
    need (r.ty == 0 && r.ty2 == 0 && r.rnd == 0 && !r.sat && r.bsel == 0 && r.imm == 0)
    let b ← bankOf r.d
    let m ← memOf r.a r.b
    some (.hsave h b m)
  | 0x88, 0 => do
    need (r.ty == 0 && r.ty2 == 0 && r.rnd == 0 && !r.sat && r.bsel == 0 && r.imm == 0)
    let b ← bankOf r.d
    let m ← memOf r.a r.b
    some (.hload h b m)
  | 0x89, 0 => do
    need (r.a == 0 && r.b == 0 && r.ty == 0 && r.ty2 == 0 && r.rnd == 0 && !r.sat && r.bsel == 0 && r.imm == 0)
    let b ← bankOf r.d
    some (.hclr h b)
  | 0x8C, 0 => do
    need (r.b == 0 && r.ty == 0 && r.ty2 == 0 && r.rnd == 0 && !r.sat && r.bsel == 0 && r.imm == 0)
    let d ← regOf r.d
    let a ← srcOf r.a
    some (.winset h d a)
  | 0x8D, 0 => do
    need (r.ty == 0 && r.ty2 == 0 && r.rnd == 0 && !r.sat && r.bsel == 0 && r.imm &&& 0xE0#8 == 0)
    let n ← bufOf r.d
    let m ← memOf r.a r.b
    let ab := r.imm.extractLsb' 0 4
    let link := r.imm.getLsbD 4
    some (.fetch h n m ab link)
  | 0x8E, 0 => do
    need (r.ty == 0 && r.ty2 == 0 && r.rnd == 0 && !r.sat && r.bsel == 0 && r.imm &&& 0xE0#8 == 0)
    let n ← bufOf r.d
    let m ← memOf r.a r.b
    let ab := r.imm.extractLsb' 0 4
    let link := r.imm.getLsbD 4
    some (.put h n m ab link)
  | 0x8F, 0 => do
    need (r.ty == 0 && r.ty2 == 0 && r.rnd == 0 && !r.sat && r.bsel == 0 && r.imm &&& 0xE0#8 == 0)
    let n ← bufOf r.d
    let m ← memOf r.a r.b
    let ab := r.imm.extractLsb' 0 4
    let link := r.imm.getLsbD 4
    some (.redt h n m ab link)
  | 0x90, 0 => do
    need (r.ty2 == 0 && r.rnd == 0 && !r.sat && r.bsel == 0)
    let d ← regOf r.d
    let m ← memOf r.a r.b
    let ty ← Ty.ofCode r.ty
    let op ← AtomOp.ofCode r.imm
    some (.fatom h d m ty op)
  | 0x91, 0 => do
    need (r.d == 0 && r.b == 0 && r.ty == 0 && r.ty2 == 0 && r.rnd == 0 && !r.sat && r.bsel == 0 && r.imm &&& 0xF0#8 == 0)
    let a ← srcOf r.a
    let ab := r.imm.extractLsb' 0 4
    some (.abar h a ab)
  | 0x92, 0 => do
    need (r.a == 0 && r.b == 0 && r.ty == 0 && r.ty2 == 0 && r.rnd == 0 && !r.sat && r.bsel == 0 && r.imm &&& 0xF0#8 == 0)
    let p ← predOf r.d
    let ab := r.imm.extractLsb' 0 4
    some (.await h p ab)
  | 0x94, 0 => if r.imm == 1 then do
      need (r.ty == 0 && r.ty2 == 0 && r.rnd == 0 && !r.sat && r.bsel == 0 && r.imm == 1)
      let d ← regOf r.d
      let a ← srcOf r.a
      let b ← regOf r.b
      some (.etailRst h d a b)
    else do
      need (r.ty == 0 && r.ty2 == 0 && r.rnd == 0 && !r.sat && r.bsel == 0 && r.imm == 0)
      let d ← regOf r.d
      let a ← srcOf r.a
      let b ← srcOf r.b
      some (.etail h d a b)
  | 0x95, 0 => do
    need (r.b == 0 && r.ty == 0 && r.ty2 == 0 && r.rnd == 0 && !r.sat && r.bsel == 0 && r.imm == 0)
    let d ← regOf r.d
    let a ← srcOf r.a
    some (.eseq h d a)
  | 0x96, 0 => do
    need (r.ty == 0 && r.ty2 == 0 && r.rnd == 0 && !r.sat && r.bsel == 0 && r.imm == 0)
    let p ← predOf r.d
    let a ← srcOf r.a
    let b ← srcOf r.b
    some (.ewait h p a b)
  | 0x98, 0 => do
    need (r.ty2 == 0 && r.rnd == 0 && !r.sat && r.bsel == 0 && r.imm == 0)
    let d ← regOf r.d
    let m ← memOf r.a r.b
    let ty ← Ty.ofCode r.ty
    some (.xld h d m ty)
  | 0x99, 0 => do
    need (r.ty2 == 0 && r.rnd == 0 && !r.sat && r.bsel == 0 && r.imm == 0)
    let d ← regOf r.d
    let m ← memOf r.a r.b
    let ty ← Ty.ofCode r.ty
    some (.xst h d m ty)
  | 0x9A, 0 => do
    need (r.ty2 == 0 && r.rnd == 0 && !r.sat && r.bsel == 0)
    let d ← regOf r.d
    let m ← memOf r.a r.b
    let ty ← Ty.ofCode r.ty
    let op ← AtomOp.ofCode r.imm
    some (.xatom h d m ty op)
  | 0x9B, 0 => do
    need (r.d == 0 && r.ty == 0 && r.ty2 == 0 && r.rnd == 0 && !r.sat && r.bsel == 0 && r.imm == 0)
    let m ← memOf r.a r.b
    some (.xputq h m)
  | 0x9C, 0 => do
    need (r.ty2 == 0 && r.rnd == 0 && !r.sat && r.bsel == 0 && r.imm == 0)
    let d ← regOf r.d
    let m ← memOf r.a r.b
    let ty ← Ty.ofCode r.ty
    some (.sput h d m ty)
  | 0x9D, 0 => do
    need (r.b == 0 && r.ty == 0 && r.ty2 == 0 && r.rnd == 0 && !r.sat && r.bsel == 0 && r.imm == 0)
    let p ← predOf r.d
    let a ← srcOf r.a
    some (.swait h p a)
  | 0x9E, 0 => do
    need (r.b == 0 && r.ty == 0 && r.ty2 == 0 && r.rnd == 0 && !r.sat && r.bsel == 0 && r.imm == 0)
    let d ← regOf r.d
    let a ← srcOf r.a
    some (.sstat h d a)
  | 0x9F, 0 => do
    need (r.ty == 0 && r.ty2 == 0 && r.rnd == 0 && !r.sat && r.bsel == 0 && r.imm &&& 0xF8#8 == 0)
    let n ← bufOf r.d
    let m ← memOf r.a r.b
    let k ← CollKind.ofCode (r.imm.extractLsb' 0 3)
    some (.ctile h n m k)
  | 0xA0, 0 => do
    need (r.d == 0 && r.a == 0 && r.b == 0 && r.ty == 0 && r.ty2 == 0 && r.rnd == 0 && !r.sat && r.bsel == 0 && r.imm &&& 0xE0#8 == 0)
    let sc ← Scope.ofCode (r.imm.extractLsb' 0 3)
    let k ← FenceKind.ofCode (r.imm.extractLsb' 3 2)
    some (.fence h sc k)
  | 0xA1, 0 => do
    need (r.ty == 0 && r.ty2 == 0 && r.rnd == 0 && !r.sat && r.bsel == 0 && r.imm == 0)
    let d ← regOf r.d
    let m ← memOf r.a r.b
    some (.acq h d m)
  | 0xA2, 0 => do
    need (r.d == 0 && r.ty == 0 && r.ty2 == 0 && r.rnd == 0 && !r.sat && r.bsel == 0 && r.imm == 0)
    let m ← memOf r.a r.b
    some (.rel h m)
  | 0xA3, 0 => do
    need (r.ty == 0 && r.ty2 == 0 && r.rnd == 0 && !r.sat && r.bsel == 0 && r.imm == 0)
    let d ← regOf r.d
    let a ← regOf r.a
    let b ← regOf r.b
    some (.bind h d a b)
  | 0xA4, 0 => do
    need (r.a == 0 && r.ty == 0 && r.ty2 == 0 && r.rnd == 0 && !r.sat && r.bsel == 0 && r.imm == 0)
    let d ← regOf r.d
    let b ← regOf r.b
    some (.unbind h d b)
  | 0xA8, 0 => do
    need (r.d == 0 && r.b == 0 && r.ty == 0 && r.ty2 == 0 && r.rnd == 0 && !r.sat && r.bsel == 0 && r.imm == 0)
    let n ← imm14Of r.a
    some (.hintnext h n)
  | 0xA9, 0 => do
    need (r.d == 0 && r.a == 0 && r.b == 0 && r.ty == 0 && r.ty2 == 0 && r.rnd == 0 && !r.sat && r.bsel == 0 && r.imm == 0)
    some (.waitpred h)
  | 0xAA, 0 => do
    need (r.ty == 0 && r.ty2 == 0 && r.rnd == 0 && !r.sat && r.bsel == 0 && r.imm == 0)
    let d ← regOf r.d
    let a ← regOf r.a
    let b ← regOf r.b
    some (.qpost h d a b)
  | 0xAB, 0 => do
    need (r.ty == 0 && r.ty2 == 0 && r.rnd == 0 && !r.sat && r.bsel == 0 && r.imm &&& 0xFC#8 == 0)
    let d ← regOf r.d
    let m ← memOf r.a r.b
    let add := r.imm.getLsbD 0
    let irq := r.imm.getLsbD 1
    some (.signal h d m add irq)
  | 0xB0, 0 => do
    need (r.d == 0 && r.a == 0 && r.b == 0 && r.ty == 0 && r.ty2 == 0 && r.rnd == 0 && !r.sat && r.bsel == 0 && r.imm == 0)
    some (.tfence h)
  | 0xB1, 0 => do
    need (r.d == 0 && r.b == 0 && r.ty == 0 && r.ty2 == 0 && r.rnd == 0 && !r.sat && r.bsel == 0 && r.imm == 0)
    let a ← srcOf r.a
    some (.trap h a)
  | 0xB2, 0 => do
    need (r.d == 0 && r.a == 0 && r.b == 0 && r.ty == 0 && r.ty2 == 0 && r.rnd == 0 && !r.sat && r.bsel == 0 && r.imm == 0)
    some (.tret h)
  | 0xB4, 0 => do
    need (r.d == 0 && r.b == 0 && r.ty == 0 && r.ty2 == 0 && r.rnd == 0 && !r.sat && r.bsel == 0 && r.imm == 0)
    let a ← srcOf r.a
    some (.brk h a)
  | 0xB5, 0 => do
    need (r.b == 0 && r.ty == 0 && r.ty2 == 0 && r.rnd == 0 && !r.sat && r.bsel == 0 && r.imm == 0)
    let d ← regOf r.d
    let a ← srcOf r.a
    some (.flags h d a)
  | 0xB6, 0 => do
    need (r.a == 0 && r.b == 0 && r.ty == 0 && r.ty2 == 0 && r.rnd == 0 && !r.sat && r.bsel == 0 && r.imm &&& 0xFC#8 == 0)
    let d ← regOf r.d
    let n := r.imm.extractLsb' 0 2
    some (.sysr h d n)
  | 0xB7, 0 => do
    need (r.b == 0 && r.ty == 0 && r.ty2 == 0 && r.rnd == 0 && !r.sat && r.bsel == 0 && r.imm == 0)
    let x ← sysOf r.d
    let a ← regOf r.a
    some (.sysw h x a)
  | 0x12, 2 => do
    need (r.b == 0 && r.ty == 0 && r.ty2 == 0 && r.rnd == 0 && !r.sat && r.bsel == 0)
    need (r.imm &&& 0xF8#8 == 0)
    let i := r.imm.extractLsb' 0 2
    if r.imm.getLsbD 2 then
      need (r.a == 0)
      let d ← regOf r.d
      some (.xmov h (.fromIdx i d))
    else
      need (r.d == 0)
      let a ← srcOf r.a
      some (.xmov h (.toIdx i a))
  | 0x1F, 1 => do
    need (r.ty == 0 && r.ty2 == 0 && r.rnd == 0 && !r.sat && r.bsel == 0)
    if r.imm == 0 then
      need (r.a == 0 && r.b == 0)
      let d ← regOf r.d
      some (.pmov h (.get d))
    else
      need (r.imm == 1 && r.d == 0)
      let a ← regOf r.a
      let m ← imm14Of r.b
      need (m.extractLsb' 12 2 == 0#2)
      some (.pmov h (.set a (m.extractLsb' 0 12)))
  | 0xB3, 0 => do
    need (r.b == 0 && r.ty == 0 && r.ty2 == 0 && r.rnd == 0 && !r.sat && r.bsel == 0)
    let d ← regOf r.d
    if r.imm == 0 then
      let a ← regOf r.a
      some (.tmask h d (.full a))
    else
      need (r.imm == 1)
      let a ← srcOf r.a
      some (.tmask h d (.en a))
  | _, _ => none

/-- The Format R fields of an instruction, none where it has no Format R word. -/
def rawR : Instr → Option RawR
  | .nop h => some { op := 0x01#8, hdr := h.code }
  | .brx h a => some { op := 0x02#8, sub := 1#6, hdr := h.code, a := a.code }
  | .ret h a => some { op := 0x02#8, sub := 3#6, hdr := h.code, a := a.code }
  | .jset h m => some { op := 0x03#8, hdr := h.code, a := maskCode m }
  | .jwait h m => some { op := 0x03#8, sub := 1#6, hdr := h.code, a := maskCode m }
  | .jdrop h m => some { op := 0x03#8, sub := 3#6, hdr := h.code, a := maskCode m }
  | .fnew h d a b => some { op := 0x04#8, hdr := h.code, d := d.code, a := a.code, b := b.code }
  | .fend h => some { op := 0x04#8, sub := 1#6, hdr := h.code }
  | .bar h n => some { op := 0x05#8, hdr := h.code, imm := (0#4 ++ n) }
  | .bara h n => some { op := 0x05#8, sub := 1#6, hdr := h.code, imm := (0#4 ++ n) }
  | .barw h n => some { op := 0x05#8, sub := 2#6, hdr := h.code, imm := (0#4 ++ n) }
  | .cbar h => some { op := 0x06#8, hdr := h.code }
  | .cbarx h => some { op := 0x06#8, sub := 1#6, hdr := h.code }
  | .task h d a b => some { op := 0x07#8, hdr := h.code, d := d.code, a := a.code, b := b.code }
  | .fork h d a => some { op := 0x07#8, sub := 1#6, hdr := h.code, d := d.code, a := a.code }
  | .yield h => some { op := 0x08#8, hdr := h.code }
  | .rxchg h d a b ty mode m => some { op := 0x09#8, hdr := h.code, d := d.code, a := a.code, b := b.code, ty := ty.code, imm := (0#3 ++ mode.code ++ m) }
  | .rvote h d a mode m => some { op := 0x09#8, sub := 1#6, hdr := h.code, d := d.code, a := predCode a, imm := (0#3 ++ mode.code ++ m) }
  | .rred h d a ty op m => some { op := 0x09#8, sub := 2#6, hdr := h.code, d := d.code, a := a.code, ty := ty.code, imm := (0#2 ++ op.code3 ++ m) }
  | .mov h d a ty => some { op := 0x10#8, hdr := h.code, d := d.code, a := a.code, ty := ty.code }
  | .sel h d a p ty inv => some { op := 0x13#8, hdr := h.code, d := d.code, a := a.code, b := predCode p, ty := ty.code, imm := (0#7 ++ BitVec.ofBool inv) }
  | .iadd h d a b ty sat => some { op := 0x14#8, hdr := h.code, d := d.code, a := a.code, b := b.code, ty := ty.code, sat := sat }
  | .isub h d a b ty sat => some { op := 0x14#8, sub := 1#6, hdr := h.code, d := d.code, a := a.code, b := b.code, ty := ty.code, sat := sat }
  | .imul h d a b ty sat => some { op := 0x15#8, hdr := h.code, d := d.code, a := a.code, b := b.code, ty := ty.code, sat := sat }
  | .imulh h d a b ty => some { op := 0x15#8, sub := 1#6, hdr := h.code, d := d.code, a := a.code, b := b.code, ty := ty.code }
  | .imad h d a b ty sat => some { op := 0x15#8, sub := 2#6, hdr := h.code, d := d.code, a := a.code, b := b.code, ty := ty.code, sat := sat }
  | .idiv h d a b ty sat => some { op := 0x16#8, hdr := h.code, d := d.code, a := a.code, b := b.code, ty := ty.code, sat := sat }
  | .irem h d a b ty => some { op := 0x16#8, sub := 1#6, hdr := h.code, d := d.code, a := a.code, b := b.code, ty := ty.code }
  | .imin h d a b ty => some { op := 0x17#8, hdr := h.code, d := d.code, a := a.code, b := b.code, ty := ty.code }
  | .imax h d a b ty => some { op := 0x17#8, sub := 1#6, hdr := h.code, d := d.code, a := a.code, b := b.code, ty := ty.code }
  | .iabs h d a ty sat => some { op := 0x18#8, hdr := h.code, d := d.code, a := a.code, ty := ty.code, sat := sat }
  | .ineg h d a ty sat => some { op := 0x18#8, sub := 1#6, hdr := h.code, d := d.code, a := a.code, ty := ty.code, sat := sat }
  | .and h d a b ty => some { op := 0x19#8, hdr := h.code, d := d.code, a := a.code, b := b.code, ty := ty.code }
  | .or h d a b ty => some { op := 0x19#8, sub := 1#6, hdr := h.code, d := d.code, a := a.code, b := b.code, ty := ty.code }
  | .xor h d a b ty => some { op := 0x19#8, sub := 2#6, hdr := h.code, d := d.code, a := a.code, b := b.code, ty := ty.code }
  | .andn h d a b ty => some { op := 0x19#8, sub := 4#6, hdr := h.code, d := d.code, a := a.code, b := b.code, ty := ty.code }
  | .not h d a ty => some { op := 0x19#8, sub := 3#6, hdr := h.code, d := d.code, a := a.code, ty := ty.code }
  | .shl h d a b ty => some { op := 0x1A#8, hdr := h.code, d := d.code, a := a.code, b := b.code, ty := ty.code }
  | .shr h d a b ty => some { op := 0x1A#8, sub := 1#6, hdr := h.code, d := d.code, a := a.code, b := b.code, ty := ty.code }
  | .sar h d a b ty => some { op := 0x1A#8, sub := 2#6, hdr := h.code, d := d.code, a := a.code, b := b.code, ty := ty.code }
  | .rotl h d a b ty => some { op := 0x1A#8, sub := 3#6, hdr := h.code, d := d.code, a := a.code, b := b.code, ty := ty.code }
  | .popc h d a ty => some { op := 0x1B#8, hdr := h.code, d := d.code, a := a.code, ty := ty.code }
  | .clz h d a ty => some { op := 0x1B#8, sub := 1#6, hdr := h.code, d := d.code, a := a.code, ty := ty.code }
  | .brev h d a ty => some { op := 0x1B#8, sub := 2#6, hdr := h.code, d := d.code, a := a.code, ty := ty.code }
  | .bfx h d a b ty len => some { op := 0x1C#8, hdr := h.code, d := d.code, a := a.code, b := b.code, ty := ty.code, imm := len }
  | .bfi h d a b ty len => some { op := 0x1C#8, sub := 1#6, hdr := h.code, d := d.code, a := a.code, b := b.code, ty := ty.code, imm := len }
  | .aadd h d a b ty => some { op := 0x1D#8, hdr := h.code, d := d.code, a := a.code, b := b.code, ty := ty.code }
  | .amad h d a b ty => some { op := 0x1D#8, sub := 1#6, hdr := h.code, d := d.code, a := a.code, b := b.code, ty := ty.code }
  | .icmp h d a b ty c => some { op := 0x1E#8, hdr := h.code, d := predCode d, a := a.code, b := b.code, ty := ty.code, imm := c.code }
  | .plop h d a b lut => some { op := 0x1F#8, hdr := h.code, d := predCode d, a := predCode a, b := predCode b, imm := (0#4 ++ lut) }
  | .sread h d x => some { op := 0x20#8, hdr := h.code, d := d.code, a := x.code }
  | .claim h d c => some { op := 0x21#8, hdr := h.code, d := d.code, a := immCode c }
  | .surr h d c => some { op := 0x21#8, sub := 1#6, hdr := h.code, d := d.code, a := immCode c }
  | .fadd h d a b ty rnd sat => some { op := 0x30#8, hdr := h.code, d := d.code, a := a.code, b := b.code, ty := ty.code, rnd := rnd.code, sat := sat }
  | .fsub h d a b ty rnd sat => some { op := 0x30#8, sub := 1#6, hdr := h.code, d := d.code, a := a.code, b := b.code, ty := ty.code, rnd := rnd.code, sat := sat }
  | .fmul h d a b ty rnd sat => some { op := 0x31#8, hdr := h.code, d := d.code, a := a.code, b := b.code, ty := ty.code, rnd := rnd.code, sat := sat }
  | .ffma h d a b ty rnd sat => some { op := 0x32#8, hdr := h.code, d := d.code, a := a.code, b := b.code, ty := ty.code, rnd := rnd.code, sat := sat }
  | .fmin h d a b ty => some { op := 0x33#8, hdr := h.code, d := d.code, a := a.code, b := b.code, ty := ty.code }
  | .fmax h d a b ty => some { op := 0x33#8, sub := 1#6, hdr := h.code, d := d.code, a := a.code, b := b.code, ty := ty.code }
  | .fcmp h d a b ty c => some { op := 0x34#8, hdr := h.code, d := predCode d, a := a.code, b := b.code, ty := ty.code, imm := c.code }
  | .frcp h d a ty => some { op := 0x35#8, hdr := h.code, d := d.code, a := a.code, ty := ty.code }
  | .frsq h d a ty => some { op := 0x35#8, sub := 1#6, hdr := h.code, d := d.code, a := a.code, ty := ty.code }
  | .fexp2 h d a ty => some { op := 0x35#8, sub := 2#6, hdr := h.code, d := d.code, a := a.code, ty := ty.code }
  | .flog2 h d a ty => some { op := 0x35#8, sub := 3#6, hdr := h.code, d := d.code, a := a.code, ty := ty.code }
  | .ftanh h d a ty => some { op := 0x35#8, sub := 4#6, hdr := h.code, d := d.code, a := a.code, ty := ty.code }
  | .fsin h d a ty => some { op := 0x35#8, sub := 5#6, hdr := h.code, d := d.code, a := a.code, ty := ty.code }
  | .fcos h d a ty => some { op := 0x35#8, sub := 6#6, hdr := h.code, d := d.code, a := a.code, ty := ty.code }
  | .hadd2 h d a b ty rnd sat => some { op := 0x36#8, hdr := h.code, d := d.code, a := a.code, b := b.code, ty := ty.code, rnd := rnd.code, sat := sat }
  | .hmul2 h d a b ty rnd sat => some { op := 0x36#8, sub := 1#6, hdr := h.code, d := d.code, a := a.code, b := b.code, ty := ty.code, rnd := rnd.code, sat := sat }
  | .hfma2 h d a b ty rnd sat => some { op := 0x36#8, sub := 2#6, hdr := h.code, d := d.code, a := a.code, b := b.code, ty := ty.code, rnd := rnd.code, sat := sat }
  | .cvt h d a ty ty2 rnd sat bsel hi => some { op := 0x37#8, hdr := h.code, d := d.code, a := a.code, ty := ty.code, ty2 := ty2.code, rnd := rnd.code, sat := sat, bsel := bsel, imm := (0#7 ++ BitVec.ofBool hi) }
  | .cvtp h d a ty rnd sat => some { op := 0x38#8, hdr := h.code, d := d.code, a := a.code, ty := ty.code, ty2 := Ty.code .f32, rnd := rnd.code, sat := sat }
  | .cvtx h d a b ty rnd => some { op := 0x39#8, hdr := h.code, d := d.code, a := a.code, b := b.code, ty := ty.code, ty2 := Ty.code .f32, rnd := rnd.code }
  | .ld h d m ty => some { op := 0x40#8, hdr := h.code, d := d.code, a := m.base.code, b := m.off.code, ty := ty.code }
  | .st h d m ty => some { op := 0x41#8, hdr := h.code, d := d.code, a := m.base.code, b := m.off.code, ty := ty.code }
  | .atom h d m ty op => some { op := 0x42#8, hdr := h.code, d := d.code, a := m.base.code, b := m.off.code, ty := ty.code, imm := op.code }
  | .red h d m ty op => some { op := 0x43#8, hdr := h.code, d := d.code, a := m.base.code, b := m.off.code, ty := ty.code, imm := op.code }
  | .probe h d m => some { op := 0x44#8, hdr := h.code, d := d.code, a := m.base.code, b := m.off.code }
  | .ldp h d m ty => some { op := 0x50#8, hdr := h.code, d := d.code, a := m.base.code, b := m.off.code, ty := ty.code }
  | .stp h d m ty => some { op := 0x51#8, hdr := h.code, d := d.code, a := m.base.code, b := m.off.code, ty := ty.code }
  | .atomp h d m ty op => some { op := 0x52#8, hdr := h.code, d := d.code, a := m.base.code, b := m.off.code, ty := ty.code, imm := op.code }
  | .ldc h d m ty => some { op := 0x53#8, hdr := h.code, d := d.code, a := m.base.code, b := m.off.code, ty := ty.code }
  | .stc h d m ty => some { op := 0x54#8, hdr := h.code, d := d.code, a := m.base.code, b := m.off.code, ty := ty.code }
  | .bdecl h n a b ty exp => some { op := 0x55#8, hdr := h.code, d := bufCode n, a := a.code, b := b.code, ty := ty.code, imm := (0#6 ++ exp) }
  | .bseal h n => some { op := 0x56#8, hdr := h.code, d := bufCode n }
  | .bdrain h n => some { op := 0x57#8, hdr := h.code, d := bufCode n }
  | .bdone h n => some { op := 0x58#8, hdr := h.code, d := bufCode n }
  | .bstat h d n => some { op := 0x59#8, hdr := h.code, d := d.code, a := bufCode n }
  | .wld h m ty sp => some { op := 0x78#8, hdr := h.code, a := m.base.code, b := m.off.code, ty := ty.code, imm := (0#6 ++ sp.code) }
  | .wldx h m ty => some { op := 0x79#8, hdr := h.code, a := m.base.code, b := m.off.code, ty := ty.code }
  | .wswap h a => some { op := 0x7A#8, hdr := h.code, a := a.code }
  | .mma h t a ty kb => some { op := 0x7B#8, hdr := h.code, d := tileCode t, a := a.code, ty := ty.code, imm := (0#5 ++ kb) }
  | .mmab h t a ty q => some { op := 0x7C#8, hdr := h.code, d := tileCode t, a := a.code, ty := ty.code, imm := (0#6 ++ q) }
  | .mmax h t a s ty bsel kb => some { op := 0x7D#8, hdr := h.code, d := tileCode t, a := a.code, b := s.code, ty := ty.code, bsel := bsel, imm := (0#5 ++ kb) }
  | .azero h t => some { op := 0x7E#8, hdr := h.code, d := tileCode t }
  | .ald h t m => some { op := 0x7F#8, hdr := h.code, d := tileCode t, a := m.base.code, b := m.off.code, ty := Ty.code .f32 }
  | .ast h t m => some { op := 0x80#8, hdr := h.code, d := tileCode t, a := m.base.code, b := m.off.code, ty := Ty.code .f32 }
  | .amov h t u => some { op := 0x81#8, hdr := h.code, d := tileCode t, a := tileCode u }
  | .qst h t m ty rnd sat h3 mx => some { op := 0x84#8, hdr := h.code, d := tileCode t, a := m.base.code, b := m.off.code, ty := ty.code, rnd := rnd.code, sat := sat, imm := (0#4 ++ BitVec.ofBool mx ++ h3) }
  | .qstp h d m ty rnd sat h3 mx => some { op := 0x85#8, hdr := h.code, d := d.code, a := m.base.code, b := m.off.code, ty := ty.code, rnd := rnd.code, sat := sat, imm := (0#4 ++ BitVec.ofBool mx ++ h3) }
  | .hdecl h b a len ty axis wrap mx rows => some { op := 0x86#8, hdr := h.code, d := bankCode b, a := a.code, b := immCode len, ty := ty.code, imm := (rows ++ BitVec.ofBool mx ++ BitVec.ofBool wrap ++ BitVec.ofBool axis) }
  | .hsave h b m => some { op := 0x87#8, hdr := h.code, d := bankCode b, a := m.base.code, b := m.off.code }
  | .hload h b m => some { op := 0x88#8, hdr := h.code, d := bankCode b, a := m.base.code, b := m.off.code }
  | .hclr h b => some { op := 0x89#8, hdr := h.code, d := bankCode b }
  | .winset h d a => some { op := 0x8C#8, hdr := h.code, d := d.code, a := a.code }
  | .fetch h n m ab link => some { op := 0x8D#8, hdr := h.code, d := bufCode n, a := m.base.code, b := m.off.code, imm := (0#3 ++ BitVec.ofBool link ++ ab) }
  | .put h n m ab link => some { op := 0x8E#8, hdr := h.code, d := bufCode n, a := m.base.code, b := m.off.code, imm := (0#3 ++ BitVec.ofBool link ++ ab) }
  | .redt h n m ab link => some { op := 0x8F#8, hdr := h.code, d := bufCode n, a := m.base.code, b := m.off.code, imm := (0#3 ++ BitVec.ofBool link ++ ab) }
  | .fatom h d m ty op => some { op := 0x90#8, hdr := h.code, d := d.code, a := m.base.code, b := m.off.code, ty := ty.code, imm := op.code }
  | .abar h a ab => some { op := 0x91#8, hdr := h.code, a := a.code, imm := (0#4 ++ ab) }
  | .await h p ab => some { op := 0x92#8, hdr := h.code, d := predCode p, imm := (0#4 ++ ab) }
  | .etail h d a b => some { op := 0x94#8, hdr := h.code, d := d.code, a := a.code, b := b.code }
  | .etailRst h d a b => some { op := 0x94#8, hdr := h.code, d := d.code, a := a.code, b := b.code, imm := 1#8 }
  | .eseq h d a => some { op := 0x95#8, hdr := h.code, d := d.code, a := a.code }
  | .ewait h p a b => some { op := 0x96#8, hdr := h.code, d := predCode p, a := a.code, b := b.code }
  | .xld h d m ty => some { op := 0x98#8, hdr := h.code, d := d.code, a := m.base.code, b := m.off.code, ty := ty.code }
  | .xst h d m ty => some { op := 0x99#8, hdr := h.code, d := d.code, a := m.base.code, b := m.off.code, ty := ty.code }
  | .xatom h d m ty op => some { op := 0x9A#8, hdr := h.code, d := d.code, a := m.base.code, b := m.off.code, ty := ty.code, imm := op.code }
  | .xputq h m => some { op := 0x9B#8, hdr := h.code, a := m.base.code, b := m.off.code }
  | .sput h d m ty => some { op := 0x9C#8, hdr := h.code, d := d.code, a := m.base.code, b := m.off.code, ty := ty.code }
  | .swait h p a => some { op := 0x9D#8, hdr := h.code, d := predCode p, a := a.code }
  | .sstat h d a => some { op := 0x9E#8, hdr := h.code, d := d.code, a := a.code }
  | .ctile h n m k => some { op := 0x9F#8, hdr := h.code, d := bufCode n, a := m.base.code, b := m.off.code, imm := (0#5 ++ k.code) }
  | .fence h sc k => some { op := 0xA0#8, hdr := h.code, imm := (0#3 ++ k.code ++ sc.code) }
  | .acq h d m => some { op := 0xA1#8, hdr := h.code, d := d.code, a := m.base.code, b := m.off.code }
  | .rel h m => some { op := 0xA2#8, hdr := h.code, a := m.base.code, b := m.off.code }
  | .bind h d a b => some { op := 0xA3#8, hdr := h.code, d := d.code, a := a.code, b := b.code }
  | .unbind h d b => some { op := 0xA4#8, hdr := h.code, d := d.code, b := b.code }
  | .hintnext h n => some { op := 0xA8#8, hdr := h.code, a := immCode n }
  | .waitpred h => some { op := 0xA9#8, hdr := h.code }
  | .qpost h d a b => some { op := 0xAA#8, hdr := h.code, d := d.code, a := a.code, b := b.code }
  | .signal h d m add irq => some { op := 0xAB#8, hdr := h.code, d := d.code, a := m.base.code, b := m.off.code, imm := (0#6 ++ BitVec.ofBool irq ++ BitVec.ofBool add) }
  | .tfence h => some { op := 0xB0#8, hdr := h.code }
  | .trap h a => some { op := 0xB1#8, hdr := h.code, a := a.code }
  | .tret h => some { op := 0xB2#8, hdr := h.code }
  | .brk h a => some { op := 0xB4#8, hdr := h.code, a := a.code }
  | .flags h d a => some { op := 0xB5#8, hdr := h.code, d := d.code, a := a.code }
  | .sysr h d n => some { op := 0xB6#8, hdr := h.code, d := d.code, imm := (0#6 ++ n) }
  | .sysw h x a => some { op := 0xB7#8, hdr := h.code, d := x.code, a := a.code }
  | .xmov h (.fromIdx i d) => some { op := 0x12#8, sub := 2#6, hdr := h.code, d := d.code, imm := 1#6 ++ i }
  | .xmov h (.toIdx i a) => some { op := 0x12#8, sub := 2#6, hdr := h.code, a := a.code, imm := 0#6 ++ i }
  | .pmov h (.get d) => some { op := 0x1F#8, sub := 1#6, hdr := h.code, d := d.code }
  | .pmov h (.set a m) =>
    some { op := 0x1F#8, sub := 1#6, hdr := h.code, a := a.code, b := immCode (0#2 ++ m), imm := 1#8 }
  | .tmask h d (.full a) => some { op := 0xB3#8, hdr := h.code, d := d.code, a := a.code }
  | .tmask h d (.en a) => some { op := 0xB3#8, hdr := h.code, d := d.code, a := a.code, imm := 1#8 }
  | _ => none

/-! ### Format I (R27) -/

/-- BRA, CALL, JWAITT, MOVI, XSET and XADD (R54). -/
def parseI (op sub : Nat) (h : Hdr) (d a : BitVec 16) (imm : BitVec 40) : Option Instr :=
  match op, sub with
  | 0x02, 0 => do
    need (d == 0 && a == 0)
    some (.bra h imm)
  | 0x02, 2 => do
    need (a == 0)
    let d ← regOf d
    some (.call h d imm)
  | 0x03, 2 => do
    let p ← predOf d
    let m ← maskOf a
    need (imm.extractLsb' 16 24 == 0#24)
    some (.jwaitt h p m (imm.extractLsb' 0 16))
  | 0x11, 0 => do
    let d ← regOf d
    if a == 0 then some (.movi h d false imm)
    else if a == 0x8001#16 then some (.movi h d true imm)
    else none
  | 0x12, 0 => do
    need (d.extractLsb' 2 14 == 0#14 && a == 0)
    some (.xset h (d.extractLsb' 0 2) imm)
  | 0x12, 1 => do
    need (d.extractLsb' 2 14 == 0#14 && a == 0)
    some (.xadd h (d.extractLsb' 0 2) imm)
  | _, _ => none

def wordI (op : BitVec 8) (sub : BitVec 6) (h : Hdr) (d a : BitVec 16) (imm : BitVec 40) : IWord :=
  op ++ sub ++ h.code ++ d ++ a ++ imm

/-- The words of the Format I instructions. -/
def encodeI : Instr → Option IWord
  | .bra h imm => some (wordI 0x02#8 0#6 h 0#16 0#16 imm)
  | .call h d imm => some (wordI 0x02#8 2#6 h d.code 0#16 imm)
  | .jwaitt h p m b => some (wordI 0x03#8 2#6 h (predCode p) (maskCode m) (0#24 ++ b))
  | .movi h d wide imm => some (wordI 0x11#8 0#6 h d.code (if wide then 0x8001#16 else 0#16) imm)
  | .xset h i imm => some (wordI 0x12#8 0#6 h (0#14 ++ i) 0#16 imm)
  | .xadd h i imm => some (wordI 0x12#8 1#6 h (0#14 ++ i) 0#16 imm)
  | _ => none

/-! ### Format S (R28) -/

/-- The sweep an OP selects (R53). -/
def sweepInstr (op : Nat) (h : Hdr) (w : Sweep) : Option Instr :=
  match op with
  | 0x60 => some (.vadd h w)
  | 0x61 => some (.vsub h w)
  | 0x62 => some (.vmul h w)
  | 0x63 => some (.vfma h w)
  | 0x64 => some (.vmin h w)
  | 0x65 => some (.vmax h w)
  | 0x66 => some (.vabs h w)
  | 0x67 => some (.vexp2 h w)
  | 0x68 => some (.vrcp h w)
  | 0x69 => some (.vrsq h w)
  | 0x6A => some (.vtanh h w)
  | 0x6B => some (.vcvt h w)
  | 0x6C => some (.vcpy h w)
  | 0x6D => some (.vfill h w)
  | 0x6E => some (.vsumr h w)
  | 0x6F => some (.vmaxr h w)
  | 0x70 => some (.vscal h w)
  | 0x71 => some (.vselp h w)
  | _ => none

/-- The fields of a Format S word; bits 1:0 are zero. -/
def sweepOf (w : IWord) : Option Sweep := do
  let ty ← Ty.ofSweepCode (w.extractLsb' 2 4)
  need (w.extractLsb' 0 2 == 0#2)
  some { opt := w.extractLsb' 82 6, d := w.extractLsb' 62 10, a := w.extractLsb' 52 10, b := w.extractLsb' 42 10
         count := w.extractLsb' 30 12, dstep := w.extractLsb' 22 8, astep := w.extractLsb' 14 8
         bstep := w.extractLsb' 6 8, ty := ty }

def sweepWord (op : BitVec 8) (h : Hdr) (w : Sweep) : IWord :=
  op ++ w.opt ++ h.code ++ w.d ++ w.a ++ w.b ++ w.count ++ w.dstep ++ w.astep ++ w.bstep ++ w.ty.sweepCode ++ 0#2

/-- The words of the sweeps. -/
def encodeS : Instr → Option IWord
  | .vadd h w => some (sweepWord 0x60#8 h w)
  | .vsub h w => some (sweepWord 0x61#8 h w)
  | .vmul h w => some (sweepWord 0x62#8 h w)
  | .vfma h w => some (sweepWord 0x63#8 h w)
  | .vmin h w => some (sweepWord 0x64#8 h w)
  | .vmax h w => some (sweepWord 0x65#8 h w)
  | .vabs h w => some (sweepWord 0x66#8 h w)
  | .vexp2 h w => some (sweepWord 0x67#8 h w)
  | .vrcp h w => some (sweepWord 0x68#8 h w)
  | .vrsq h w => some (sweepWord 0x69#8 h w)
  | .vtanh h w => some (sweepWord 0x6A#8 h w)
  | .vcvt h w => some (sweepWord 0x6B#8 h w)
  | .vcpy h w => some (sweepWord 0x6C#8 h w)
  | .vfill h w => some (sweepWord 0x6D#8 h w)
  | .vsumr h w => some (sweepWord 0x6E#8 h w)
  | .vmaxr h w => some (sweepWord 0x6F#8 h w)
  | .vscal h w => some (sweepWord 0x70#8 h w)
  | .vselp h w => some (sweepWord 0x71#8 h w)
  | _ => none

/-! ### Words -/

/-- A clause header: OP 0xF0, bits 63:0 zero (R39, R40). -/
def clauseOf (w : IWord) : Option Instr := do
  need (w.extractLsb' 0 64 == 0#64)
  some (.clause { wait := w.extractLsb' 76 12, seta := w.extractLsb' 72 4, setb := w.extractLsb' 68 4
                  len := w.extractLsb' 65 3, yld := w.getLsbD 64 })

def Clause.word (c : Clause) : IWord :=
  0xF0#8 ++ c.wait ++ c.seta ++ c.setb ++ c.len ++ BitVec.ofBool c.yld ++ 0#64

/-- OP of a word: the byte 0xF0 marks a clause header (R23). -/
def isHeader (w : IWord) : Bool := w.extractLsb' 88 8 == 0xF0#8

/-- The instruction of a word by its format (R53, R54), before its static legality is judged. -/
def parseWord (w : IWord) : Option Instr := do
  let op := (w.extractLsb' 88 8).toNat
  if op == 0xF0 then clauseOf w
  else
    let h ← hdrOf (w.extractLsb' 72 10)
    if 0x60 ≤ op && op ≤ 0x71 then
      let s ← sweepOf w
      sweepInstr op h s
    else
      match parseI op (w.extractLsb' 82 6).toNat h (w.extractLsb' 56 16) (w.extractLsb' 40 16) (w.extractLsb' 0 40) with
      | some i => some i
      | none => parseR (RawR.ofWord w) h

/-- The instruction of a 96-bit word: nothing where the word raises ILLEGAL_INSTR under R56. -/
def decodeWord (w : IWord) : Option Instr := do
  let i ← parseWord w
  if i.wf then some i else none

/-- The word of an instruction, none for what has no word. -/
def encodeWord (i : Instr) : Option IWord :=
  match i with
  | .clause c => some c.word
  | _ =>
    match rawR i with
    | some r => some r.word
    | none =>
      match encodeI i with
      | some w => some w
      | none => encodeS i

/-! ### Command packets (R354) -/

def PCond.code : PCond → BitVec 3
  | .eq => 0 | .ne => 1 | .ltu => 2 | .geu => 3

def PCond.ofCode (c : BitVec 3) : Option PCond :=
  match c.toNat with
  | 0 => some .eq | 1 => some .ne | 2 => some .ltu | 3 => some .geu
  | _ => none

/-- The fields of a packet. -/
structure RawP where
  opc : BitVec 8
  flags : BitVec 8 := 0#8
  res : BitVec 16 := 0#16
  arg : BitVec 32 := 0#32
  p0 : Dword := 0#64
  p1 : Dword := 0#64
  p2 : Dword := 0#64
  deriving DecidableEq, Repr

/-- The fields of the 32 bytes, little-endian (R354). -/
def RawP.ofBits (w : BitVec 256) : RawP where
  opc := w.extractLsb' 0 8
  flags := w.extractLsb' 8 8
  res := w.extractLsb' 16 16
  arg := w.extractLsb' 32 32
  p0 := w.extractLsb' 64 64
  p1 := w.extractLsb' 128 64
  p2 := w.extractLsb' 192 64

def RawP.bits (p : RawP) : BitVec 256 := p.p2 ++ p.p1 ++ p.p0 ++ p.arg ++ p.res ++ p.flags ++ p.opc

/-- A packet by its OPC; unused fields must be zero (R354). -/
def parseP (p : RawP) : Option Instr :=
  match p.opc.toNat with
  | 0x00 => do
    need (p.flags == 0 && p.arg == 0 && p.p0 == 0 && p.p1 == 0 && p.p2 == 0)
    some .packetNop
  | 0x01 => do
    need (p.flags == 0 && p.arg == 0 && p.p1 == 0 && p.p2 == 0)
    some (.launch p.p0)
  | 0x02 => do
    need (p.flags == 0 && p.arg == 0 && p.p2 == 0)
    some (.launchi p.p0 p.p1)
  | 0x03 => do
    need (p.flags &&& 0xFE#8 == 0 && p.arg == 0 && p.p2 == 0)
    some (.waitseq (p.flags.getLsbD 0) p.p0 p.p1)
  | 0x04 => do
    need (p.flags &&& 0xFC#8 == 0 && p.arg == 0 && p.p2 == 0)
    some (.signalPacket (p.flags.getLsbD 0) (p.flags.getLsbD 1) p.p0 p.p1)
  | 0x05 => do
    need (p.flags == 0 && p.p0 == 0 && p.p1 == 0 && p.p2 == 0)
    some (.loop p.arg)
  | 0x06 => do
    need (p.flags &&& 0xF0#8 == 0 && p.arg == 0)
    let c ← PCond.ofCode (p.flags.extractLsb' 0 3)
    some (.endloop (p.flags.getLsbD 3) c p.p0 p.p1 p.p2)
  | 0x07 => do
    need (p.flags &&& 0xF8#8 == 0 && p.arg == 0)
    let c ← PCond.ofCode (p.flags.extractLsb' 0 3)
    some (.ifmem c p.p0 p.p1 p.p2)
  | 0x08 => do
    need (p.flags == 0 && p.arg == 0 && p.p0 == 0 && p.p1 == 0 && p.p2 == 0)
    some .elsePacket
  | 0x09 => do
    need (p.flags == 0 && p.arg == 0 && p.p0 == 0 && p.p1 == 0 && p.p2 == 0)
    some .endifPacket
  | 0x0A => do
    need (p.flags == 0 && p.arg == 0 && p.p0 == 0 && p.p1 == 0 && p.p2 == 0)
    some .qfence
  | 0x0B => do
    need (p.flags == 0 && p.arg.extractLsb' 12 20 == 0#20 && p.p1 == 0 && p.p2 == 0)
    some (.engcmd (p.arg.extractLsb' 0 12) p.p0)
  | 0x0C => do
    need (p.flags == 0 && p.arg == 0 && p.p1 == 0 && p.p2 == 0)
    some (.stepb p.p0)
  | 0x0D => do
    need (p.flags == 0 && p.arg == 0 && p.p0 == 0 && p.p1 == 0 && p.p2 == 0)
    some .halt
  | _ => none

/-- The packet of 32 bytes: nothing for what R354 calls a bad packet. -/
def decodePacket (w : BitVec 256) : Option Instr := do
  let p := RawP.ofBits w
  need (p.res == 0)
  parseP p

/-- The fields of a packet instruction. -/
def rawP : Instr → Option RawP
  | .packetNop => some { opc := 0x00#8 }
  | .launch r => some { opc := 0x01#8, p0 := r }
  | .launchi r g => some { opc := 0x02#8, p0 := r, p1 := g }
  | .waitseq c va v => some { opc := 0x03#8, flags := 0#7 ++ BitVec.ofBool c, p0 := va, p1 := v }
  | .signalPacket a i va v =>
    some { opc := 0x04#8, flags := 0#6 ++ BitVec.ofBool i ++ BitVec.ofBool a, p0 := va, p1 := v }
  | .loop n => some { opc := 0x05#8, arg := n }
  | .endloop on c va v m =>
    some { opc := 0x06#8, flags := 0#4 ++ BitVec.ofBool on ++ c.code, p0 := va, p1 := v, p2 := m }
  | .ifmem c va v m => some { opc := 0x07#8, flags := 0#5 ++ c.code, p0 := va, p1 := v, p2 := m }
  | .elsePacket => some { opc := 0x08#8 }
  | .endifPacket => some { opc := 0x09#8 }
  | .qfence => some { opc := 0x0A#8 }
  | .engcmd h n => some { opc := 0x0B#8, arg := 0#20 ++ h, p0 := n }
  | .stepb n => some { opc := 0x0C#8, p0 := n }
  | .halt => some { opc := 0x0D#8 }
  | _ => none

def encodePacket (i : Instr) : Option (BitVec 256) := (rawP i).map RawP.bits

/-! ### Chain entries (R283, R284) -/

/-- The fields of bytes 0 to 47 of an entry. -/
structure RawE where
  next : Dword := 0#64
  opc : BitVec 8
  af : Bool := false
  fa : BitVec 4 := 0#4
  bf : Bool := false
  fb : BitVec 4 := 0#4
  df : Bool := false
  fdn : BitVec 4 := 0#4
  fmt : BitVec 5 := 0#5
  mode : BitVec 4 := 0#4
  len : BitVec 32 := 0#32
  d : Dword := 0#64
  a : Dword := 0#64
  b : Dword := 0#64
  aux : Dword := 0#64
  deriving DecidableEq, Repr

def RawE.ofBits (w : BitVec 384) : RawE where
  next := w.extractLsb' 0 64
  opc := w.extractLsb' 120 8
  af := w.getLsbD 119
  fa := w.extractLsb' 115 4
  bf := w.getLsbD 114
  fb := w.extractLsb' 110 4
  df := w.getLsbD 109
  fdn := w.extractLsb' 105 4
  fmt := w.extractLsb' 100 5
  mode := w.extractLsb' 96 4
  len := w.extractLsb' 64 32
  d := w.extractLsb' 128 64
  a := w.extractLsb' 192 64
  b := w.extractLsb' 256 64
  aux := w.extractLsb' 320 64

def RawE.bits (e : RawE) : BitVec 384 :=
  e.aux ++ e.b ++ e.a ++ e.d ++ e.opc ++ BitVec.ofBool e.af ++ e.fa ++ BitVec.ofBool e.bf ++ e.fb ++
    BitVec.ofBool e.df ++ e.fdn ++ e.fmt ++ e.mode ++ e.len ++ e.next

/-- An operand that may be a FIFO: its address field is 0 then, and its FIFO field is 0 otherwise (R283). -/
def eopOf (isFifo : Bool) (n : BitVec 4) (va : Dword) : Option EOp :=
  if isFifo then (if va == 0#64 then some (.fifo n) else none)
  else if n == 0#4 && va.extractLsb' 56 8 == 0#8 then some (.mem (va.extractLsb' 0 56)) else none

def EOp.isFifo : EOp → Bool
  | .mem _ => false
  | .fifo _ => true

def EOp.num : EOp → BitVec 4
  | .mem _ => 0#4
  | .fifo n => n

def EOp.va : EOp → Dword
  | .mem va => 0#8 ++ va
  | .fifo _ => 0#64

def EMode.code : EMode → BitVec 4
  | .add => 0 | .min => 1 | .max => 2

def EMode.ofCode (c : BitVec 4) : Option EMode :=
  match c.toNat with
  | 0 => some .add | 1 => some .min | 2 => some .max
  | _ => none

/-- A pair of QFENCE: handle in bits 63:52, value in bits 51:0 (R284). -/
def pairOf (x : Dword) : BitVec 12 × BitVec 52 := (x.extractLsb' 52 12, x.extractLsb' 0 52)

def pairCode (p : BitVec 12 × BitVec 52) : Dword := p.1 ++ p.2

/-- An entry by its OPC. DESIGN CHOICE (assumption 46): bits 52:48 and 23:8 of a SLOTBIND's D, which R284 neither names nor
calls reserved, are not looked at, and neither are the bits of METAWR's AUX other than CE. -/
def parseE (e : RawE) : Option Instr :=
  let noA := !e.af && e.fa == 0
  let noB := !e.bf && e.fb == 0
  let noD := !e.df && e.fdn == 0
  match e.opc.toNat with
  | 0x00 => do
    need (noA && noB && noD && e.fmt == 0 && e.mode == 0 && e.len == 0 && e.d == 0 && e.a == 0 && e.b == 0 && e.aux == 0)
    some .engineNop
  | 0x01 => do
    need (noB && e.fmt == 0 && e.mode == 0 && e.b == 0 && e.aux == 0)
    let d ← eopOf e.df e.fdn e.d
    let a ← eopOf e.af e.fa e.a
    some (.copy d a e.len)
  | 0x02 => do
    need (e.aux == 0)
    let d ← eopOf e.df e.fdn e.d
    let a ← eopOf e.af e.fa e.a
    let b ← eopOf e.bf e.fb e.b
    let ty ← Ty.ofCode e.fmt
    let m ← EMode.ofCode e.mode
    some (.reduce d a b ty m e.len)
  | 0x03 => do
    need (noA && noB && e.fmt == 0 && e.mode == 0 && e.b == 0 && e.aux == 0)
    let d ← eopOf e.df e.fdn e.d
    some (.fill d e.a e.len)
  | 0x04 => do
    need (noA && noB && noD && e.fmt == 0 && e.mode == 0 && e.d == 0 && e.b == 0 && e.aux == 0 &&
      e.a.extractLsb' 56 8 == 0#8)
    some (.tload (e.a.extractLsb' 0 56) e.len)
  | 0x05 => do
    need (noB && e.fmt == 0 && e.mode.extractLsb' 1 3 == 0#3 && e.b == 0 && e.aux.extractLsb' 44 20 == 0#20)
    let d ← eopOf e.df e.fdn e.d
    let a ← eopOf e.af e.fa e.a
    let start := if e.mode.getLsbD 0 then some (e.aux.extractLsb' 32 12) else none
    some (.transduce d a start (e.aux.extractLsb' 0 32) e.len)
  | 0x06 => do
    need (noA && noB && noD && e.fmt == 0 && e.mode == 0)
    match e.len.toNat with
    | 1 => do
      need (e.a == 0 && e.b == 0 && e.aux == 0)
      some (.engineQfence [pairOf e.d])
    | 2 => do
      need (e.b == 0 && e.aux == 0)
      some (.engineQfence [pairOf e.d, pairOf e.a])
    | 3 => do
      need (e.aux == 0)
      some (.engineQfence [pairOf e.d, pairOf e.a, pairOf e.b])
    | 4 => some (.engineQfence [pairOf e.d, pairOf e.a, pairOf e.b, pairOf e.aux])
    | _ => none
  | 0x20 => do
    need (noA && noB && noD && e.fmt == 0 && e.mode == 0 && e.len == 0 && e.d == 0 && e.b == 0 && e.aux == 0 &&
      e.a.extractLsb' 56 8 == 0#8)
    some (.metard (e.a.extractLsb' 0 56))
  | 0x21 => do
    need (noA && noB && noD && e.fmt == 0 && e.mode == 0 && e.len == 0 && e.d == 0 && e.b == 0 &&
      e.a.extractLsb' 56 8 == 0#8)
    some (.metawr (e.a.extractLsb' 0 56) (e.aux.getLsbD 17))
  | 0x22 => do
    need (noA && noB && noD && e.fmt == 0 && e.mode == 0 && e.len == 0 && e.a == 0 && e.b == 0 && e.aux == 0)
    let o := if e.d.getLsbD 53 then none
      else some ⟨e.d.extractLsb' 54 10, e.d.extractLsb' 32 16, e.d.extractLsb' 24 8⟩
    some (.slotbind (e.d.extractLsb' 0 8) o)
  | _ => none

/-- The entry of bytes 0 to 47: nothing for what R284 calls a malformed entry. -/
def decodeEntry (w : BitVec 384) : Option Instr := do
  let e := RawE.ofBits w
  need (e.next.extractLsb' 56 8 == 0#8)
  let i ← parseE e
  if i.wf then some i else none

/-- The fields of an entry instruction, with NEXT 0. -/
def rawE : Instr → Option RawE
  | .engineNop => some { opc := 0x00#8 }
  | .copy d a n =>
    some { opc := 0x01#8, df := d.isFifo, fdn := d.num, d := d.va, af := a.isFifo, fa := a.num, a := a.va, len := n }
  | .reduce d a b ty m n =>
    some { opc := 0x02#8, df := d.isFifo, fdn := d.num, d := d.va, af := a.isFifo, fa := a.num, a := a.va
           bf := b.isFifo, fb := b.num, b := b.va, fmt := ty.code, mode := m.code, len := n }
  | .fill d p n => some { opc := 0x03#8, df := d.isFifo, fdn := d.num, d := d.va, a := p, len := n }
  | .tload a n => some { opc := 0x04#8, a := 0#8 ++ a, len := n }
  | .transduce d a st cap n =>
    some { opc := 0x05#8, df := d.isFifo, fdn := d.num, d := d.va, af := a.isFifo, fa := a.num, a := a.va, len := n
           mode := 0#3 ++ BitVec.ofBool st.isSome, aux := 0#20 ++ st.getD 0#12 ++ cap }
  | .engineQfence ps =>
    some { opc := 0x06#8, len := BitVec.ofNat 32 ps.length
           d := (ps[0]?).elim 0#64 pairCode, a := (ps[1]?).elim 0#64 pairCode
           b := (ps[2]?).elim 0#64 pairCode, aux := (ps[3]?).elim 0#64 pairCode }
  | .metard a => some { opc := 0x20#8, a := 0#8 ++ a }
  | .metawr a ce => some { opc := 0x21#8, a := 0#8 ++ a, aux := 0#46 ++ BitVec.ofBool ce ++ 0#17 }
  | .slotbind s o =>
    some { opc := 0x22#8, d := match o with
      | none => 0#10 ++ 1#1 ++ 0#45 ++ s
      | some ow => ow.peer ++ 0#1 ++ 0#5 ++ ow.asid ++ ow.gen ++ 0#16 ++ s }
  | _ => none

def encodeEntry (i : Instr) : Option (BitVec 384) := (rawE i).map RawE.bits

/-! ### Host register writes (R368, R369) -/

/-- The value of a write and the half it reaches: 8 bytes at a multiple of 8, 4 bytes at a multiple of 4. -/
def hvalOf (off size : Nat) (v : Dword) : Option HVal :=
  if size == 8 && off % 8 == 0 then some ⟨none, v⟩
  else if size == 4 && off % 4 == 0 then some ⟨some (off % 8 == 4), v &&& 0xFFFFFFFF#64⟩
  else none

/-- A command register acts on an 8-byte write only (R368). -/
def cmdOf (h : HVal) (off : Nat) (i : Instr) : Instr := if h.half == none then i else .registerWrite off h

/-- The registers of a queue block, at stride 64 (R369). -/
def queueWrite (q r off : Nat) (h : HVal) : Instr :=
  if r == 0x08 then .hqCtl q h
  else if r == 0x10 then .hqTail q h
  else if r == 0x20 then
    cmdOf h off (if h.v.getLsbD 1 then .clear q else if h.v.getLsbD 0 then .resume q else .registerWrite off h)
  else .registerWrite off h

/-- The single registers of BAR0 (R369). -/
def singleWrite (r : Nat) (h : HVal) : Instr :=
  let v := h.v
  match r with
  | 0x000008 => .peerId h
  | 0x000010 => .pwrCap h
  | 0x000038 => .sramPool h
  | 0x000040 => .sramIntake h
  | 0x000048 => .sramLcache h
  | 0x000058 => .peerTmo h
  | 0x000060 => cmdOf h r (.winReset (v.extractLsb' 0 16))
  | 0x000068 => cmdOf h r (.keyInval (v.extractLsb' 0 13))
  | 0x001008 => cmdOf h r (match (v.extractLsb' 0 2).toNat with
    | 0 => .tlbInvalRange (v.extractLsb' 32 32) (v.extractLsb' 16 16)
    | 1 => .tlbInvalAsid (v.extractLsb' 16 16)
    | 2 => .tlbInvalFull
    | _ => .registerWrite r h)
  | 0x001018 => cmdOf h r (match (v.extractLsb' 16 2).toNat with
    | 0 => .asidBind (v.extractLsb' 0 16)
    | 1 => .asidRelease (v.extractLsb' 0 16)
    | _ => .registerWrite r h)
  | 0x001020 => cmdOf h r (.pgResp (v.extractLsb' 56 2) (v.extractLsb' 16 40) (v.extractLsb' 0 16))
  | 0x002000 => .stepCtl h
  | 0x002008 => .stepSpill h
  | 0x002010 => .stepNum h
  | 0x003000 => .optRing h
  | 0x003028 => cmdOf h r (.oeReset (v.extractLsb' 0 5))
  | 0x003038 => cmdOf h r (match (v.extractLsb' 8 2).toNat with
    | 0 => .provision (v.extractLsb' 0 6)
    | 1 => .drain (v.extractLsb' 0 6)
    | 2 => .release (v.extractLsb' 0 6)
    | _ => .provIgnored (v.extractLsb' 0 6))
  | 0x003048 => cmdOf h r (.lsOff (v.extractLsb' 0 3))
  | 0x003050 => cmdOf h r (.lsOn (v.extractLsb' 0 3))
  | 0x004010 => cmdOf h r (match (v.extractLsb' 0 4).toNat with
    | 0 => .dbgStop
    | 1 => .dbgResume
    | 2 => .dbgStep
    | 3 => .dbgRead
    | 4 => .dbgWrite
    | 5 => .dbgDiscard
    | _ => .dbgBadOperation (v.extractLsb' 0 4))
  | _ => .registerWrite r h

/-- The instruction of a host write of `size` bytes at an offset of BAR0; a write that R368 lets reach no register is a
REGISTER_WRITE with no effect. -/
def decodeHostWrite (off size : Nat) (v : Dword) : Option Instr := do
  let h ← hvalOf off size v
  let r := off - off % 8
  if 0x400000 ≤ r && r < 0x800000 then
    if (r - 0x400000) % 0x1000 == 0 then some (.hqTail ((r - 0x400000) / 0x1000) h) else some (.registerWrite r h)
  else if 0x100000 ≤ r && r < 0x110000 then some (queueWrite ((r - 0x100000) / 64) (r % 64) r h)
  else if 0x002080 ≤ r && r < 0x002100 then some (.stepDom ((r - 0x2080) / 8) h)
  else if 0x020200 ≤ r && r < 0x020400 then some (cmdOf h r (.preemptCtl ((r - 0x20200) / 8) h.v))
  else some (singleWrite r h)

/-! ### The host's view of the opcode table -/

/-- The instruction of a table word: a 96-bit instruction word, a 32-byte packet, or bytes 0 to 47 of an entry. -/
def decodeTableWord (nbits w : Nat) : Option Instr :=
  if nbits ≤ 96 then decodeWord (BitVec.ofNat 96 w)
  else if nbits ≤ 256 then decodePacket (BitVec.ofNat 256 w)
  else decodeEntry (BitVec.ofNat 384 w)

end Sys2Proof
end

