-- ==== Sys2Proof/Machine/State.lean ====
section
/-! DEFINITION. The state of one package as plain data, and its value after reset: fibres (R95), groups (R97, R127),
cores, contexts, launches, queues, memories, the pod, module controllers and the host registers (R369). -/

namespace Sys2Proof.Machine

/-- Why the machine stops with a fault: for no reason. Whatever the spec lets go wrong is a trap, an error record, a
stopped queue or a halted core, each of them a next state, so the type has no value. -/
inductive Fault where
  deriving DecidableEq, Repr

/-- Why the machine has no meaning for an instruction. -/
inductive Refusal where
  /-- Raised by the dispatch for an instruction that has no meaning yet. Safe. -/
  | notModelled (mnemonic : String)
  deriving DecidableEq, Repr

/-! ### Traps and fibres -/

/-- The trap causes of R370. -/
inductive Cause where
  | illegalInstr | clauseForm | regRange | priv | claimInvalid | forkInCluster | clusterExit | noArray | bufState
  | scratchRange | clusterAddr | align | pageNotPresent | farAccess | permission | shapeInvalid | metadata | order
  | windowBounds | windowKey | peerTimeout | stepTorn | peerError | asyncFail | engineError | arith | software
  | brk | stepSingle | dataError
  deriving DecidableEq, Repr

/-- A fibre of a group, by the group's identity and the fibre number. -/
structure FRef where
  g : Nat
  f : Nat
  deriving DecidableEq, Repr

/-- A position in the instruction stream: the PC and the clause position of R39, R44. -/
structure Pos where
  pc : Dword := 0#64
  atHdr : Bool := true
  seta : BitVec 4 := 15#4
  setb : BitVec 4 := 15#4
  len : BitVec 3 := 0#3
  idx : BitVec 3 := 0#3
  deriving DecidableEq, Repr

/-- A report held in a report slot: its cause, its sys.TADDR value (R376), and the record that is posted instead where
its fibre or group ends before it is taken (R277). -/
structure Report where
  cause : Cause
  addr : Dword
  body : List Dword := []
  deriving DecidableEq, Repr

/-- The debug stop state (R375, R390, R391): the code of the cause, 0 where none was taken, the stop position Q, the
value, and the PC that resumption uses; the debugger may write all but Q. -/
structure Stop where
  cause : BitVec 8 := 0#8
  q : Pos
  value : Dword := 0#64
  pc : Dword
  deriving DecidableEq, Repr

/-- Why a fibre's word cannot issue yet (R96): it waits until the condition no longer holds, and then issues the word
(assumption 7). -/
inductive Hold where
  /-- a clause WAIT: these counters are not all 0 (R42) -/
  | ctrs (m : BitVec 12)
  /-- an outstanding write to one of these registers (R47) -/
  | regs (rs : List Nat)
  /-- its counter is full (R43) -/
  | room (k : BitVec 4)
  /-- the module that holds its code does not answer (assumption 13) -/
  | code (m : Nat)
  /-- the task queue is full (R123) -/
  | tasks
  /-- its own scratchpad accesses are outstanding (R121, R122) -/
  | scratch
  /-- it has taken part in the rendezvous of this mask that is still open (R113) -/
  | taken (mask : Option (BitVec 3))
  /-- its own accesses are outstanding; `pod` waits for its pod requests also (R340) -/
  | drain (pod : Bool)
  /-- the sequence of a chain (R291) -/
  | chain (hnd v : Nat)
  /-- a chain, at a slot, that is being forwarded or fails (R291) -/
  | chainBusy (hnd slot : Nat)
  /-- the predecessor of its launch (R364) -/
  | pred
  /-- the sequence of the sync object at this address (R341) -/
  | seq (va : Dword) (v : Nat)
  /-- its own outstanding store to a record it reads: a shared-SRAM offset and a length (R250, R255) -/
  | own (off n : Nat)
  deriving DecidableEq, Repr

/-- What a waiting fibre waits for (R96). -/
inductive Wait where
  /-- for a condition under which it issues its word afresh -/
  | hold (h : Hold)
  /-- at a rejoin mask; JWAITT names its predicate (R111, R112) -/
  | join (m : BitVec 3) (p : Option (BitVec 4))
  /-- at a rank exchange or at CLAIM or SURR, until every member is present (R113, R153) -/
  | rendezvous
  /-- for the current phase of group barrier n; `again` when it then issues afresh (R121) -/
  | bar (n : BitVec 4) (again : Bool)
  /-- at CBAR or CBARX (R122) -/
  | cbar
  /-- in the claim queue (R155) -/
  | claim
  /-- for a buffer transition it issued (R168) -/
  | buffer (op : Nat)
  /-- for a swap with sequence number s (R202) -/
  | swap (s : BitVec 16)
  /-- for its turn on an axis-M bank, to store a tile (R217) -/
  | turn (b : BitVec 3) (t : BitVec 4)
  /-- for a shared unit to accept its instruction (R103) -/
  | unit (u : UnitId)
  /-- for room in a port's replay buffer for the payload of a request it issued (R103, R326) -/
  | port (op : Nat)
  /-- at AWAIT, for an arrival barrier, and the predicate it writes (R271) -/
  | abar (n p : BitVec 4)
  /-- at SWAIT, for the boundary of a step, and the predicate it writes (R325) -/
  | step (n : Nat) (p : BitVec 4)
  /-- for a posted transfer to be accepted (R252) -/
  | post (op : Nat)
  /-- for the response to a request it sent to a peer (R248, R314) -/
  | peer (op : Nat)
  /-- suspended by FORK until its child launch has completed, and the register of its status (R125) -/
  | fork (child d : Nat)
  deriving DecidableEq, Repr

/-- The condition of a live fibre (R96); being stopped is held apart. -/
inductive FStat where
  | ready
  | wait (w : Wait)
  /-- parked in a subgroup on a missing page, by an access to `va` of the bits of R242 (R237) -/
  | parked (sub : Nat) (va : Dword) (page acc : Nat)
  deriving DecidableEq, Repr

/-- A debugger's step of one word (R391): asked for, or done, so that the next issue raises STEP_SINGLE. -/
inductive Stepping where
  | off | armed | issued
  deriving DecidableEq, Repr

/-- One fibre (R95, R372, R373). -/
structure Fibre where
  pos : Pos := {}
  preds : BitVec 12 := 0#12
  idxr : Tab (BitVec 16) := []
  regs : Tab Word := []
  ctrs : Tab (BitVec 6) := []
  flags : BitVec 7 := 0#7
  /-- flags of completed counting instructions, by counter, that no clause WAIT on the counter has observed (R152, R379) -/
  unseen : Tab (BitVec 7) := []
  tmask : Dword := 3#64
  tcause : BitVec 8 := 0#8
  tpc : Dword := 0#64
  taddr : Dword := 0#64
  /-- the TQ word and the PC of the position it holds (R373, R377) -/
  tq : Pos := { atHdr := false, seta := 0#4, setb := 0#4 }
  slot : Option Report := none
  budget : BitVec 16 := 0#16
  /-- pending arrivals: the phase, for group barriers 0 to 15 (R95, R121) -/
  bars : Tab (Option Nat) := []
  stat : FStat := .ready
  /-- its page was answered absent: it raises PAGE_NOT_PRESENT for this address at its next issue (R239) -/
  absent : Option Dword := none
  since : Nat := 0
  skip : Bool := false
  /-- the sheaf in which it issued the word it has completed last, where that word carried HINT.KEEP, and the same of the
  word it is about (R25) -/
  keep : Option Nat := none
  keeping : Option Nat := none
  stopped : Bool := false
  stop : Option Stop := none
  /-- the debugger lets it issue one word (R391) -/
  stepping : Stepping := .off
  wave : Bool := false
  /-- tells this fibre from an earlier one of its number (R118) -/
  inc : Nat := 0
  /-- the unit whose room this fibre was granted (R103) -/
  grant : Option UnitId := none
  deriving DecidableEq, Repr

/-! ### Groups -/

/-- The launch record (R358). -/
structure LaunchRec where
  entry : Dword := 0#64
  gx : Nat := 1
  gy : Nat := 1
  gz : Nat := 1
  /-- fibres per group -/
  nf : Nat := 1
  /-- cluster size -/
  cl : Nat := 1
  /-- registers per fibre -/
  regs : Nat := 16
  /-- scratchpad bytes -/
  scr : Nat := 0
  nb : Nat := 0
  na : Nat := 0
  nh : Nat := 0
  wa : Nat := 0
  mg : Bool := false
  t : Nat := 0
  sms : Bool := false
  pwait : Bool := false
  argp : Dword := 0#64
  csa : Dword := 0#64
  csv : Dword := 0#64
  /-- the declaration list (R359) -/
  decls : List Dword := []
  deriving DecidableEq, Repr

/-- The two-bit state of a buffer (R164). -/
inductive BufState where
  | empty | filling | full | draining
  deriving DecidableEq, Repr

/-- A buffer descriptor (R164). -/
structure Buf where
  status : BitVec 8 := 0#8
  abl : BitVec 6 := 0#6
  exp : BitVec 2 := 0#2
  fmt : BitVec 5 := 0#5
  held : Bool := false
  decl : Bool := false
  state : BufState := .empty
  /-- size in 128-byte units, minus 1 -/
  size : BitVec 13 := 0#13
  /-- base offset bits 19:7 -/
  base : BitVec 13 := 0#13
  deriving DecidableEq, Repr

/-- The transitions that instructions start (R167, R175). -/
inductive BufEvent where
  | decl (b : Buf)
  | undecl
  | seal
  | drain
  | done
  /-- FETCH or REDT, with the arrival barrier link -/
  | fetch (abl : BitVec 6)
  | put
  deriving DecidableEq, Repr

/-- A transition that has issued and not yet taken effect: who issued it, its identity in issue order (R168). -/
structure Trans where
  id : Nat
  fib : FRef
  buf : BitVec 6
  ev : BufEvent
  deriving DecidableEq, Repr

/-- One of the two planes of an array (R192 to R195): raw row bytes in the layout of the plane image. -/
structure Plane where
  fmt : BitVec 5 := 0#5
  sp : BitVec 2 := 0#2
  scl : Bool := false
  loaded : Bool := false
  mixed : Bool := false
  cells : Tab Byte := []
  /-- byte s × 64 + n / 2 of the metadata of R194 -/
  nibs : Tab Byte := []
  /-- byte 128 b + n of the scales of R194 -/
  scales : Tab Byte := []
  /-- rows that hold an uncorrectable error (R199) -/
  err : List Nat := []
  deriving DecidableEq, Repr

/-- A residue bank (R212). -/
structure Bank where
  fmt : BitVec 5 := 0#5
  decl : Bool := false
  axisM : Bool := false
  wrap : Bool := false
  mx : Bool := false
  len : BitVec 5 := 0#5
  rows : BitVec 5 := 0#5
  next : BitVec 5 := 0#5
  mpos : BitVec 5 := 0#5
  order : Dword := 0#64
  pos : Tab Byte := []
  ent : Tab Word := []
  /-- entries that hold an uncorrectable error (R211) -/
  err : List Nat := []
  deriving DecidableEq, Repr

/-- A posted task (R123, R124). -/
structure Task where
  entry : Dword
  mask : Dword
  arg : Dword
  tmask : Dword
  ready : Bool
  deriving DecidableEq, Repr

/-- What a member brings to a rank exchange or to CLAIM or SURR. -/
inductive Offer where
  | xchg (mode : XMode) (v : Dword) (k : Nat) (d : Nat) (wide : Bool)
  | vote (mode : VMode) (p : Bool) (d : Nat)
  | red (op : AtomOp) (ty : Ty) (v : Word) (d : Nat)
  | claim (c : Nat) (d : Nat)
  | surr (c : Nat) (d : Nat)
  deriving DecidableEq, Repr

/-- A fibre present at a rendezvous: what it offers, or nothing where its guard was false (R113, R153). -/
structure Member where
  lane : Nat
  inc : Nat
  offer : Option Offer
  deriving DecidableEq, Repr

/-- An open rendezvous of a rank at a PC, of a mask or of the whole rank (R113, R127, R153). -/
structure Rendezvous where
  rank : Nat
  pc : Dword
  mask : Option (BitVec 3)
  members : List Member
  /-- a SURR whose members were all present, held only by their outstanding writes (R154) -/
  full : Bool := false
  deriving DecidableEq, Repr

/-- A claim in the claim queue (R155): the rank, the blocks, and its contributing members with their D. -/
structure Claim where
  rank : Nat
  blocks : Nat
  members : List (Nat × Nat)
  deriving DecidableEq, Repr

/-- A barrier: phase number, fibres that joined during this phase, and fibres that have arrived (R120, R121). -/
structure Barrier where
  phase : Nat := 0
  joined : List Nat := []
  arrived : List Nat := []
  deriving DecidableEq, Repr

/-- The cluster barrier (R120, R122), kept by the cluster's member 0: arrivals by group identity and fibre. -/
structure ClusterBarrier where
  phase : Nat := 0
  joined : List (Nat × Nat) := []
  arrived : List (Nat × Nat) := []
  /-- whether this phase's instruction is CBARX, once a fibre has arrived -/
  exit_ : Option Bool := none
  exited : Bool := false
  deriving DecidableEq, Repr

/-- A parked subgroup: the pages still missing among its fibres (R237). -/
structure Subgroup where
  id : Nat
  pages : List Nat
  deriving DecidableEq, Repr

/-- An arrival barrier (R269). -/
structure ABar where
  count : BitVec 16 := 0#16
  fail : Bool := false
  deriving DecidableEq, Repr

/-- Where a group is. -/
inductive Loc where
  | resident (core : Nat)
  | saved
  | ended
  deriving DecidableEq, Repr

/-- One group (R97 to R100, R127). -/
structure Group where
  launch : Nat
  ctx : Nat
  /-- linear index in the launch grid (R362) -/
  lin : Nat
  lr : LaunchRec
  loc : Loc
  fibres : Tab Fibre := []
  /-- rejoin masks and arrival bits, entry 8 × rank + j (R110) -/
  masks : Tab (BitVec 32) := []
  arrived : Tab (BitVec 32) := []
  rvs : List Rendezvous := []
  bars : Tab Barrier := []
  cbar : ClusterBarrier := {}
  tasks : List Task := []
  /-- blocks a rank holds, less regs / 16, as an integer (R130) -/
  alloc : Tab Int := []
  pool : Nat := 0
  claims : List Claim := []
  scratch : List Host.Cell := []
  /-- offsets whose bytes hold an uncorrectable error (R161) -/
  scratchErr : List Nat := []
  bufs : Tab Buf := []
  trans : List Trans := []
  active : Plane := {}
  shadow : Plane := {}
  pseq : BitVec 16 := 0#16
  /-- element n of row l of tile t at 4096 t + 128 l + n (R190, R196) -/
  tiles : Tab Word := []
  /-- rows 32 t + l of tiles that hold an uncorrectable error (R199) -/
  tileErr : List Nat := []
  banks : Tab Bank := []
  wa : Nat := 0
  abars : Tab ABar := []
  hint : Option Nat := none
  subs : List Subgroup := []
  gslot : Option Report := none
  /-- save slot of the context's save area (R385) -/
  slot : Nat := 0
  /-- the core it was last placed on, where transfers and operations of an ended group still hold resources (R160) -/
  lastCore : Nat := 0
  /-- no fibre issues until the group has been saved (R125, R375, R384) -/
  stopping : Bool := false
  /-- the sheaf whose FORK suspends it: it resumes when its child launches have completed (R125) -/
  forked : Option Nat := none
  /-- it is saved because R126 switched it out: it is runnable when no page is missing -/
  swapped : Bool := false
  faulted : Bool := false
  /-- no fibre of it has issued since it was placed on its core (R22) -/
  fresh : Bool := false
  /-- left with posted tasks only, it has given up its fibre ranks (R99) -/
  released : Bool := false
  /-- a save or restore met a bad slot page (R385) -/
  stuck : Bool := false
  /-- debug settings taken at the launch's start (R390) -/
  dbg : Dword := 0#64
  /-- tells the placements of its windows in the register file apart (R131) -/
  wseed : Nat := 0
  deriving DecidableEq, Repr

/-- The two keys of a key slot (R399). -/
abbrev Keys := BitVec 256 × BitVec 256

/-! ### Operations that have issued and not yet completed (R43 to R48) -/

/-- A shape record (R255). -/
structure Shape where
  va : Dword
  base : Nat
  fmt : Ty
  exp : Nat
  /-- number of dimensions -/
  nd : Nat
  coll : Bool
  mx : Bool
  rop : Nat
  soff : Nat
  box : List Nat
  strides : List Nat
  grid : BitVec 30
  rmask : Dword
  deriving DecidableEq, Repr

/-- The transfers that hold a buffer (R262, R329). -/
inductive XferKind where
  | fetch
  | put
  | redt (srcs : List Nat)
  | ctile (k : CollKind)
  deriving DecidableEq, Repr

/-- A transfer (R252 to R266, R329): `accepted` once it holds an allowance, or the lark cores took it, `effective` once
its buffer transition took effect (R168), which was in cycle `began`; `miss` the pages it has found missing and not answered, `absent` a page that
was answered absent (R260); for a collective the group, participants and this package's index (R328). -/
structure Xfer where
  kind : XferKind
  buf : BitVec 6
  ab : Option (BitVec 4)
  shape : Shape
  accepted : Bool := false
  effective : Bool := false
  began : Nat := 0
  miss : List Nat := []
  absent : Option Dword := none
  /-- a lost link or a peer's error ends it with this status, at this address (R260, R394) -/
  kill : Option (BitVec 8 × Nat) := none
  /-- keys, and modules under drain, as they stood at its acceptance (R398, R399) -/
  keys : Tab (Option Keys) := []
  refused : List Nat := []
  /-- whether its requests to peers have been issued, and the bytes they have brought, by virtual address (R306) -/
  asked : Bool := false
  got : Tab Byte := []
  /-- a collective's result, until it has been written (R329) -/
  out : Option (List Byte) := none
  coll : Nat := 0
  peers : List Nat := []
  index : Nat := 0
  nth : Nat := 0
  wdog : Nat := 0
  /-- the participants whose offers have come (R330) -/
  came : List Nat := []
  deriving DecidableEq, Repr

/-- What a request to a peer does (R306). -/
inductive PeerKind where
  | read (ty : Ty) (d : Nat)
  | write (bytes : List Byte)
  /-- with the first register of the old value, none for RED -/
  | atomic (op : AtomOp) (ty : Ty) (x y : Dword) (d : Option Nat)
  | sput (n : Nat) (bytes : List Byte)
  /-- source address and length, the payload once it has been read, and the descriptor's shared-SRAM offset (R316) -/
  | xputq (qword src : Dword) (len : Nat) (bytes : List Byte) (desc : Nat)
  /-- one block of a transfer's bytes on PEER pages, read or written: the transfer and the bytes' virtual address -/
  | fill (xfer va n : Nat)
  | drain (xfer va : Nat) (bytes : List (Option Byte))
  deriving DecidableEq, Repr

/-- A request to a peer: its target, inbound address and header; the failed-handle key of a windowed request
(R309), the value sys.TADDR takes for a fault, and whether a BUSY answer waits to be sent again (R310). -/
structure PeerReq where
  peer : Nat
  addr : Nat
  hdr : Option PodHdr
  kind : PeerKind
  handle : Option Nat
  taddr : Dword
  busy : Bool := false
  /-- the port in whose replay buffer room has been taken for its payload, and whether the payload has been copied (R326) -/
  room : Option Nat := none
  sent : Bool := false
  /-- the port by which it left (R307), and whether the link has acknowledged it, so that its payload is kept no longer -/
  port : Option Nat := none
  acked : Bool := false
  deriving DecidableEq, Repr

/-- The sweeps of R180. -/
inductive SweepFn where
  | add | sub | mul | fma | min | max | abs | exp2 | rcp | rsq | tanh | cvt | cpy | fill | sumr | maxr | scal | selp
  deriving DecidableEq, Repr

/-- An accepted sweep (R178 to R184): base offsets (or values) as read at issue, and the iterations done. -/
structure SweepOp where
  fn : SweepFn
  w : Sweep
  d : Word
  a : Word
  b : Word
  /-- the predicate of VSELP, tested at issue -/
  sel : Bool := false
  done : Nat := 0
  /-- the running result of the group of iterations in progress: a .f32 code, or an exact integer (R181) -/
  acc : Int := 0
  flags : BitVec 7 := 0#7
  deriving DecidableEq, Repr

/-- What an operation does when it is performed or completes. -/
inductive OpKind where
  /-- NEAR accesses, at a shared-SRAM offset (R246) -/
  | ld (off : Nat) (ty : Ty) (d : Nat)
  | st (off : Nat) (bytes : List Byte)
  | atom (off : Nat) (op : AtomOp) (ty : Ty) (x y : Dword) (d : Option Nat)
  /-- a value fixed at issue that lands in registers (PROBE, ESEQ, ETAIL, QPOST) -/
  | land (d : Nat) (n : Nat) (v : Dword)
  /-- scratchpad accesses (R172 to R174) -/
  | ldp (off : Nat) (ty : Ty) (d : Nat)
  | stp (off : Nat) (bytes : List Byte)
  | atomp (off : Nat) (op : AtomOp) (ty : Ty) (x y : Dword) (d : Nat)
  | sweep (s : SweepOp)
  /-- matrix operations (R197 to R207); a load carries the image bytes it read: rows, nibbles, scales, and the first range of
  the image in which it met an uncorrectable error -/
  | wld (ty : Ty) (sp : BitVec 2) (scl : Bool) (rows nibs scales : List (Nat × Byte)) (bad : Option Nat)
  | mma (t : BitVec 4) (off : Nat) (ty : Ty) (kb : Nat) (q : Nat) (scale : Option (Dword × Nat))
  | azero (t : BitVec 4)
  | ald (t : BitVec 4) (off : Nat)
  | ast (t : BitVec 4) (off : Nat)
  | amov (t u : BitVec 4)
  /-- bank operations (R216 to R223) -/
  | qst (t : BitVec 4) (off : Nat) (ty : Ty) (rnd : Rnd) (sat : Bool) (bank : BitVec 3) (mx : Bool)
  | qstp (xs : List Word) (off : Nat) (ty : Ty) (rnd : Rnd) (sat : Bool) (bank : BitVec 3) (mx : Bool)
  | hdecl (bank : BitVec 3) (v : Bank)
  | hsave (bank : BitVec 3) (off : Nat)
  | hload (bank : BitVec 3) (v : Bank)
  | hclr (bank : BitVec 3)
  | xfer (x : Xfer)
  /-- FATOM at a shared-SRAM offset, or at a module address with its key (R267) -/
  | fatom (near : Bool) (addr : Nat) (key : BitVec 13) (va : Dword) (op : AtomOp) (ty : Ty) (x y : Dword) (d : Nat)
  /-- ETAIL in progress: chain handle, and the register pair of its result (R291) -/
  | etail (hnd : Nat) (d : Nat)
  | peer (r : PeerReq)
  | rel (off : Nat) (obj : Dword)
  | signal (off : Nat) (host : Bool) (v : Dword) (add irq : Bool)
  deriving DecidableEq, Repr

/-- An outstanding operation: its identity in issue order, the issuing fibre and its incarnation, the counter it
decrements, the address of the instruction, the core of issue, the registers it will write, and the scratchpad ranges
it reads and writes in the extent of group `sg` (R168). -/
structure Op where
  id : Nat
  fib : FRef
  inc : Nat
  ctr : Option (BitVec 4)
  pc : Dword
  core : Nat
  ctx : Nat
  dst : List Nat := []
  sg : Nat := 0
  rd : List (Nat × Nat) := []
  wr : List (Nat × Nat) := []
  /-- not a register-external access that FENCE drains (R340) -/
  nodrain : Bool := false
  /-- the pages of the entries that have translated it, as first 64 KiB page and count (R234) -/
  used : List (Nat × Nat) := []
  kind : OpKind
  deriving DecidableEq, Repr

/-! ### Cores and translation -/

/-- A line of a near data cache: the context's ASID, the line number, its bytes, which of them are dirty, which hold an
uncorrectable error, and the fibres that wrote it, with their incarnations (R243). -/
structure Line where
  asid : BitVec 16
  line : Nat
  bytes : List Byte
  dirty : List Bool
  err : List Nat := []
  writers : List (FRef × Nat) := []
  deriving DecidableEq, Repr

/-- One core (R22, R101, R233, R238, R243, R389). -/
structure Core where
  lines : List Line := []
  /-- fetched words: context, address and word (R22) -/
  fbuf : List (Nat × Nat × IWord) := []
  /-- open page requests: ASID and page (R238) -/
  reqs : List (BitVec 16 × Nat) := []
  /-- missing pages of its fibres that it has yet to ask for: context, page, address and ACCESS bits (R238) -/
  want : List (Nat × Nat × Dword × Nat) := []
  rr : Nat := 0
  missed : Nat := 0
  halted : Bool := false
  /-- VALID has been cleared: its number is not handed out before the next reset (R15) -/
  retired : Bool := false
  /-- the control sequencer image that the core runs on, until it holds no group, where that in force is newer (R401) -/
  oldSeq : Option (Nat × Nat) := none
  deriving DecidableEq, Repr

/-- A cached translation (R233): entries of core c are held at c, those of die d's walk cache at 320 + d. -/
structure TlbEnt where
  at_ : Nat
  asid : BitVec 16
  gen : BitVec 8
  sz : Nat
  vpn : Nat
  /-- the 64 KiB page whose walk found it -/
  page : Nat
  entry : BitVec 128
  /-- the entry's slot in the table, 8 × bucket + slot (R241) -/
  idx : Nat
  deriving DecidableEq, Repr

/-- An invalidate in progress (R234): its kind, ASID and range of 64 KiB units, whether it has dropped what it covers,
and what it then waits for: operations, engine entries by context, handle and number, and requests that this package has
forwarded. -/
structure Inval where
  full : Bool
  asid : Option (BitVec 16)
  lo : Nat := 0
  n : Nat := 2 ^ 40
  dropped : Bool := false
  waits : List Nat := []
  /-- step records that hold a translation, by step and ASID -/
  waitsR : List (Nat × BitVec 16) := []
  waitsE : List (Nat × Nat × Nat) := []
  waitsF : List Nat := []
  deriving DecidableEq, Repr

/-- The state of one ASID (R235, R236). -/
structure AsidState where
  gen : BitVec 8 := 0#8
  bound : Bool := false
  /-- a full invalidate completed since GEN became 255 -/
  flushed : Bool := false
  deriving DecidableEq, Repr

/-! ### Queues, launches, paddocks -/

inductive QState where
  | idle | running | halted | error
  deriving DecidableEq, Repr

/-- An open bracket of a queue (R357): LOOP with its counter, or IFMEM, and the index of its packet. -/
inductive Frame where
  | loop (pkt : BitVec 32) (left : BitVec 32)
  | ifm (pkt : BitVec 32)
  deriving DecidableEq, Repr

/-- A work queue (R352). `at_` is the packet it executes, at or past HEAD while a bracket is open (R353). -/
structure Queue where
  base : Dword := 0#64
  ctl : Dword := 0#64
  tail : BitVec 32 := 0#32
  head : BitVec 32 := 0#32
  at_ : BitVec 32 := 0#32
  state : QState := .idle
  reason : BitVec 6 := 0#6
  frames : List Frame := []
  /-- the launch made most recently (R361) -/
  pred : Option Nat := none
  /-- entries of an ENGCMD still to be forwarded (R356) -/
  engcmd : Option Nat := none
  deriving DecidableEq, Repr

/-- A launch (R356 to R363). -/
structure Launch where
  queue : Option Nat
  ctx : Nat
  pad : Nat
  prio : Nat
  lr : LaunchRec
  pred : Option Nat := none
  started : Bool := false
  startedAt : Nat := 0
  complete : Bool := false
  /-- groups placed so far, the linear index of the next one (R362) -/
  next : Nat := 0
  ended : Nat := 0
  /-- FORK's group and fibre (R125) -/
  parent : Option FRef := none
  /-- its record, which is judged when it starts; the grid word of LAUNCHI, as it was read, if it could be; the index of its
  packet; and the PC of FORK (R356, R360) -/
  recVa : Dword := 0#64
  grid : Option (Option Nat) := none
  pkt : BitVec 32 := 0#32
  pc : Dword := 0#64
  rejected : Bool := false
  /-- a group of it has been discarded: it never completes (R375) -/
  dead : Bool := false
  depth : Nat := 0
  dbg : Dword := 0#64
  deriving DecidableEq, Repr

/-- A paddock (R366, R367, R384): the context it serves, the cycle its quantum began, and a pre-emption in
progress. -/
structure Paddock where
  serving : Option Nat := none
  since : Nat := 0
  preempt : Option Nat := none
  deriving DecidableEq, Repr

/-- A binding of a context (R337): first 4 KiB unit, units, and the object. -/
structure Binding where
  ctx : Nat
  base : Nat
  units : Nat
  obj : Dword
  /-- its 16 bytes of the table at BOFF, and what the device wrote there -/
  place : Nat := 0
  image : List Byte := []
  deriving DecidableEq, Repr

/-! ### Module engines (R279 to R301) -/

/-- An entry of a chain table (R280). -/
structure ChainEnt where
  priv : Bool
  module : Nat
  unit : Nat
  slot : Nat
  head : Dword
  seqva : Dword
  deriving DecidableEq, Repr

/-- A request to forward entries of a chain: from an ETAIL operation, or, with none, from a queue's ENGCMD (R286), and
the chain's table entry as it was read. -/
structure Fwd where
  by_ : Option Op
  queue : Nat := 0
  left : Nat
  ent : ChainEnt
  /-- the last entry it has forwarded; before the first, SENT as it stood when it was accepted (R291) -/
  sent : Nat := 0
  deriving DecidableEq, Repr

/-- The state of a chain (R282, R292). -/
structure Chain where
  sent : Nat := 0
  done : Nat := 0
  failed : Bool := false
  lastva : Option Dword := none
  start : Option Dword := none
  fwd : List Fwd := []
  /-- pages its forwarding has found missing, with the ACCESS bits of their requests, or that were answered absent (R285) -/
  miss : List (Nat × Nat) := []
  absent : List Nat := []
  deriving DecidableEq, Repr

/-- The table of a transducer lane, at 16 × module + lane (R296); rows not listed hold 0xFFF0_0000. -/
structure Lane where
  start : Nat := 0
  nstates : Nat := 1
  rows : Tab Word := []
  deriving DecidableEq, Repr

/-- The translation of a page of an entry's operands: its first 64 KiB page and their count, the module address of its first
byte, and its key (R285). -/
structure EPage where
  vpn : Nat
  n : Nat
  addr : Nat
  key : BitVec 13
  deriving DecidableEq, Repr

/-- A forwarded entry of a slot: its chain, number and address, its bytes 0 to 47, who forwarded it, the translations
of its operand pages, and its progress. -/
structure FEntry where
  ctx : Nat
  hnd : Nat
  num : Nat
  va : Dword
  raw : BitVec 384
  priv : Bool
  owner : Owner
  by_ : Option Op
  pages : List EPage
  /-- keys, and modules under drain, as they stood at its forwarding (R398, R399) -/
  keys : Tab (Option Keys) := []
  seqva : Dword := 0#64
  /-- it stands for a link that could not be followed: no entry was read (R286) -/
  unread : Bool := false
  /-- it was forwarded to a module under drain (R398) -/
  late : Bool := false
  started : Bool := false
  inb : Nat := 0
  outb : Nat := 0
  /-- input that has been read and not dispatched, and output that is still to be written to D: of a 128-byte unit that is not
  full, of an entry that takes its input from a FIFO, or for want of room in one (R285, R294, R302) -/
  ibuf : List Byte := []
  obuf : List Byte := []
  /-- what an entry that names a FIFO read of its operands in memory as it started, at virtual addresses (R348) -/
  seen : List (Nat × List Byte) := []
  /-- the status with which it ends once its output has left for the FIFO (R294) -/
  after : Option (BitVec 8) := none
  st : Nat := 0
  eflags : BitVec 7 := 0#7
  /-- status once it has been performed or has failed -/
  result : Option (BitVec 8) := none
  /-- the metadata record METARD returns (R284), the table TLOAD loads (R296) -/
  meta_ : Option (BitVec 128) := none
  table : Option Lane := none
  deriving DecidableEq, Repr

/-- A chain slot, at 256 × module + 8 × unit + slot (R279, R281). -/
structure Slot where
  owner : Option Owner := none
  entries : List FEntry := []
  deriving DecidableEq, Repr

/-- A FIFO, at 16 × module + number (R294): undelivered bytes, the slots bound to its ends, and those that wait for them, in
the order in which their entries started. -/
structure Fifo where
  data : List Byte := []
  prod : Option Nat := none
  cons : Option Nat := none
  ended : Bool := false
  /-- an end has left its stream early: nothing binds until the FIFO is freed -/
  broken : Bool := false
  waitP : List Nat := []
  waitC : List Nat := []
  deriving DecidableEq, Repr

/-- The metadata record of a module page (R274). -/
structure Meta where
  /-- reserved bits 127:82 -/
  rsv : BitVec 46 := 0#46
  ce : Bool := false
  raw : Bool := true
  code : BitVec 80 := 0#80
  deriving DecidableEq, Repr

/-! ### Pod (chapter 12) -/

/-- An intake record (R321), in order of acceptance: source, step, window entry and its rule, owning ASID, VA and the
shared-SRAM offset it translated to, and whether it lies in the spill log. -/
structure StepRec where
  src : Nat
  n : Nat
  win : Nat
  rule : Nat
  asid : BitVec 16
  va : Dword
  sram : Nat
  /-- the offset of the first byte that lies in a second page -/
  next : Nat := 0
  bytes : List Byte
  spilled : Bool
  /-- where its 32 bytes lie in the shared SRAM, and what the device wrote there (R231); a spilled record has none -/
  place : Option Nat := none
  image : List Byte := []
  /-- the pages that translated it (R234) -/
  used : List (Nat × Nat) := []
  deriving DecidableEq, Repr

/-- The status of a step (R325). -/
structure StepStat where
  n : Nat
  tornIn : Bool := false
  tornOut : Bool := false
  spill : Bool := false
  firstTorn : Option Nat := none
  conflicts : Nat := 0
  bytes : Nat := 0
  deriving DecidableEq, Repr

/-- A boundary in progress (R322): its step, phase 2 to 5, and the cycle its wait began. -/
structure Boundary where
  n : Nat
  phase : Nat
  since : Nat
  reported : Nat := 0
  deriving DecidableEq, Repr

/-- What a direct request does (R306). -/
inductive Direct where
  | read (len : Nat)
  | write (bytes : List (Option Byte))
  | atomic (op : AtomOp) (ty : Ty) (x y : Dword)
  deriving DecidableEq, Repr

/-- A forwarded request that awaits its response (R327): its identity, the outgoing port and the peer, and the port, source
and tag of the request, or the operation of this package that asked; the context whose page forwards it. Where it is one part
of a request, `split` names it. -/
structure FwdReq where
  id : Nat
  out : Nat
  peer : Nat
  port : Nat
  src : Nat
  tag : Nat
  own : Option Nat
  writes : Bool
  ctx : Nat := 1024
  /-- the request's number among the things of this package, and the pages that translated it -/
  num : Nat := 0
  used : List (Nat × Nat) := []
  split : Option (Nat × Nat) := none
  deriving DecidableEq, Repr

/-- A request of which some part has been forwarded (R305): who asked, and of each part, in order, its status and bytes once
they have come. -/
structure Split where
  id : Nat
  port : Nat
  src : Nat
  tag : Nat
  own : Option Nat
  parts : List (Option (BitVec 8 × List Byte))
  deriving DecidableEq, Repr

/-- A held XPUTQ payload that waits for pages (R317): where a request of this package to itself, its operation. -/
structure XHeld where
  id : Nat
  req : InReq
  own : Option Nat
  qword : Dword
  bytes : List Byte
  ctx : Nat
  miss : List Nat
  absent : Bool := false
  deriving DecidableEq, Repr

/-- A message this package has sent (R306, R322), with the port it left by (R307): a request of an operation, a response,
READY or APPLIED. A forwarded request holds its port. -/
inductive Msg where
  | request (op port : Nat) (r : PeerReq)
  | response (peer port tag : Nat) (status : BitVec 8) (bytes : List Byte)
  | forward (id peer : Nat) (r : InReq) (what : Direct)
  | ready (peer port n : Nat)
  | applied (peer port n : Nat)
  | spdm (bytes : List Byte)
  deriving DecidableEq, Repr

/-! ### Optics (chapter 16) -/

/-- One direction of an optical engine (R393 to R396, R398): the spare that serves in the place of a wavelength that has
failed or been moved, wavelengths dropped, the module each wavelength is assigned to, failed retrainings in a row, and
whether it is down. -/
structure OptDir where
  remap : Tab Nat := []
  dropped : List Nat := []
  owner : Tab Nat := []
  fails : Nat := 0
  retraining : Bool := false
  down : Bool := false
  deriving DecidableEq, Repr

/-- A debugger access that waits for an outstanding write (R392): the fibre, the lane register or the predicate, and the
value of a write. -/
structure DbgWait where
  fib : FRef
  pred : Bool := false
  reg : Nat
  value : Option Dword
  deriving DecidableEq, Repr

/-- A module's provisioning (R397, R398): its address on the fabric, engines, wavelengths, and, where it is drained, the
operation that would have issued next when its drain began. -/
structure Prov where
  fab : BitVec 16 := 0#16
  engines : BitVec 24
  wlcnt : Nat
  drained : Option Nat := none
  deriving DecidableEq, Repr

/-! ### Host registers (R369) -/

/-- The registers of BAR0 that hold a value; the queue blocks stand in `State.queues`. -/
structure HostRegs where
  postStat : Dword := 0x8000000000000000#64
  peerId : Dword := 0#64
  pwrCap : Dword := 4600#64
  hbBase : Dword := 0#64
  ctxRoot : Dword := 0#64
  ptRoot : Dword := 0#64
  migBase : Dword := 0#64
  sramPool : Dword := 0#64
  sramIntake : Dword := 0#64
  sramLcache : Dword := 0#64
  inwinRoot : Dword := 0#64
  peerTmo : Dword := 200#64
  tlbInvalVa : Dword := 0#64
  tlbInvalDone : Dword := 0#64
  asidStatus : BitVec 8 := 0#8
  asidLast : BitVec 16 := 0#16
  stepCtl : Dword := 1#64
  stepSpill : Dword := 0#64
  stepNum : Dword := 0#64
  stepWdog : Dword := 0x80000000#64
  stepDom : Tab Dword := []
  /-- COLL_SEL[s], less its value at reset (R331), as an exclusive or -/
  collSel : Tab Dword := []
  optRing : Dword := 0x400000000#64
  optTail : BitVec 32 := 0#32
  optHead : BitVec 32 := 0#32
  optLost : BitVec 32 := 0#32
  optVec : Dword := 0#64
  provBase : Dword := 0#64
  provStat : Dword := 0#64
  dbgGrp : Dword := 0#64
  dbgSel : Dword := 0#64
  dbgStat : Dword := 0#64
  dbgData : Dword := 0#64
  corePad : Tab Dword := []
  padQuantum : Tab Dword := []
  preemptDone : Tab Dword := []
  dbgCtl : Tab Dword := []
  inQuota : Tab Dword := []
  deriving DecidableEq, Repr

/-- Which agent the next step gives a turn (assumption 4). -/
inductive Turn where
  | input
  | issue
  | queue
  | slot
  | unit
  deriving DecidableEq, Repr

/-- A fibre picked by the sheaf former, the cycle in which it issues, and the sheaf that carries it (R101). -/
structure Pick where
  cyc : Nat := 0
  sheaf : Nat
  core : Nat
  fib : FRef
  deriving DecidableEq, Repr

/-- The package. -/
structure State where
  -- the model's own fields (assumption 4)
  tick : Nat := 0
  turn : Turn := .unit
  inbox : List Instr := []
  issue : List Pick := []
  /-- the fibre that issues, and its sheaf -/
  cur : FRef := ⟨0, 0⟩
  sheaf : Nat := 0
  /-- the core whose issue of this cycle is under way -/
  burst : Option Nat := none
  /-- what a core's sheaves of this cycle have looked up, by sheaf and 64 KiB page (R233) -/
  looked : List ((Nat × Nat) × Option (BitVec 128 × Nat)) := []
  curQ : Nat := 0
  curSlot : Nat := 0
  /-- the slot that a unit's data path served last, at 32 × module + unit (R288) -/
  unitLast : Tab Nat := []
  nextId : Nat := 1
  -- time
  cycle : Nat := 0
  -- programs
  groups : Tab Group := []
  ops : List Op := []
  cores : Tab Core := []
  launches : Tab Launch := []
  queues : Tab Queue := []
  pads : Tab Paddock := []
  /-- the queue each command processor served last, at 8 × processor + PRIO (R353) -/
  qlast : Tab Nat := []
  -- memories
  sram : List Host.Cell := []
  /-- modules' storage, at 2^40 × fabric address + module byte address: what each sector decrypts to under the keys it was
  last written with; a block under compression is held as R273 lays it out -/
  far : List Host.Cell := []
  hostMem : List Host.Cell := []
  /-- bytes of the shared SRAM, and of modules, that hold an uncorrectable error (R243, R277) -/
  sramErr : List Nat := []
  farErr : List Nat := []
  meta_ : Tab Meta := []
  /-- the keys and the data unit a module sector was last written under, where it has been written (R399) -/
  sectorKey : Tab (Keys × Nat) := []
  -- translation
  tlb : List TlbEnt := []
  invals : List Inval := []
  asids : Tab AsidState := []
  binds : List Binding := []
  -- host
  regs : HostRegs := {}
  /-- SRAM_POOL, SRAM_INTAKE, SRAM_LCACHE have accepted a write since reset (R231) -/
  placed : Bool × Bool × Bool := (false, false, false)
  /-- interrupt vectors raised, newest first (R368) -/
  irqs : List Nat := []
  /-- the MSI-X table and the pending bits (R368); an entry at reset is masked -/
  msix : Tab (BitVec 128) := []
  pba : Tab Bool := []
  dbgWait : Option DbgWait := none
  /-- what the last host read of NEAR memory returned (R346) -/
  hostRead : List Byte := []
  -- module engines
  chains : Tab Chain := []
  slots : Tab Slot := []
  fifos : Tab Fifo := []
  lanes : Tab Lane := []
  -- pod
  failedWin : List (Nat × Nat) := []
  downPorts : List Nat := []
  outbox : List Msg := []
  /-- messages that wait for a port to leave by, with the peer they go to (R307) -/
  unsent : List (Nat × Msg) := []
  /-- requests held by source, until their responses are sent (R310) -/
  pendResp : List (Nat × Nat × BitVec 8 × List Byte) := []
  xheld : List XHeld := []
  fwds : List FwdReq := []
  splits : List Split := []
  /-- inbound requests that wait in ingress, for a forwarding slot or for earlier writes, in order of arrival (R311, R327,
  R345) -/
  ingress : List (Nat × InReq × Direct) := []
  intake : List StepRec := []
  /-- discarded sources by step (R324) -/
  torn : List (Nat × Nat) := []
  stats : List StepStat := []
  boundary : Option Boundary := none
  /-- READY and APPLIED messages received: step and peer (R322) -/
  readyFrom : List (Nat × Nat) := []
  appliedFrom : List (Nat × Nat) := []
  /-- boundaries below this number have completed or count as completed (R319, R320) -/
  doneBelow : Nat := 0
  /-- accepted collectives by 64 contexts × groups × RMASK (R330) -/
  collCount : Tab Nat := []
  -- optics, trust, power
  optDirs : Tab OptDir := []
  /-- sources that are dark, and sources that no engine draws from (R405) -/
  darkSources : List Nat := []
  offSources : List Nat := []
  provs : Tab (Option Prov) := []
  /-- the module that PROV_CMD drains or has drained last (R398) -/
  draining : Option Nat := none
  keys : Tab (Option Keys) := []
  /-- image and security version in force, by class (R400) -/
  images : Tab (Nat × Nat) := []
  nextMgmt : Option (Nat × Nat) := none
  /-- built cores that have failed their self-test, retired in the fuse map (R403) -/
  badCores : List Nat := []
  /-- the command processors, the lark cores and the management core restart with a new image (R401) -/
  cpDown : Bool := false
  larkDown : Bool := false
  mgmtDown : Bool := false
  /-- optical records that the management core has yet to post -/
  optHeld : List (List Dword) := []
  /-- an accepted image that waits until no collective is in progress -/
  larkNext : Option (Nat × Nat) := none
  clockMHz : Nat := 1900
  deriving DecidableEq, Repr

/-- The package right after reset (R403): self-test passed, every register at the value the spec states, and at the
value assumption 1 names where it states none; memory lists nothing (assumptions 2 and 3). -/
def State.reset : State := {}

end Sys2Proof.Machine
end

