-- ==== Sys2Proof/Machine/Xts.lean ====
section
/-! DEFINITION. AES-256-XTS of IEEE 1619 as R399 uses it: one 128-byte sector is one data unit, encrypted under the two
256-bit keys of a slot with a tweak of 128 bits. Byte 0 of a key or tweak is its least significant (assumption 55). -/

namespace Sys2Proof.Machine

/-! ### The field of AES -/

/-- Multiplication by x. -/
def xtime (a : Byte) : Byte := if a.msb then (a <<< 1) ^^^ 0x1B#8 else a <<< 1

/-- The product, over the low `n` bits of `b`. -/
def gmul (a b : Byte) : Nat → Byte
  | 0 => 0#8
  | n + 1 => (if b.getLsbD 0 then a else 0#8) ^^^ gmul (xtime a) (b >>> 1) n

/-- The inverse, as the power 254: from the power 2^k − 1 comes the power 2^(k+1) − 1. -/
def gpow (a : Byte) : Nat → Byte
  | 0 => 1#8
  | n + 1 => let p := gpow a n; gmul a (gmul p p 8) 8

def ginv (a : Byte) : Byte := let p := gpow a 7; gmul p p 8

def subByte (a : Byte) : Byte :=
  let b := ginv a
  b ^^^ b.rotateLeft 1 ^^^ b.rotateLeft 2 ^^^ b.rotateLeft 3 ^^^ b.rotateLeft 4 ^^^ 0x63#8

def invSubByte (a : Byte) : Byte := ginv (a.rotateLeft 1 ^^^ a.rotateLeft 3 ^^^ a.rotateLeft 6 ^^^ 0x05#8)

/-! ### AES-256 on 16 bytes, column by column -/

def xorBytes (a b : List Byte) : List Byte := (a.zip b).map fun p => p.1 ^^^ p.2

/-- The next word of the key schedule from the last eight, newest first; `i` is its number. -/
def keyWord (i : Nat) (ws : List (List Byte)) : List Byte :=
  let t := ws.headD []
  let u := if i % 8 = 0 then xorBytes ((t.drop 1 ++ t.take 1).map subByte) [1#8 <<< (i / 8 - 1), 0#8, 0#8, 0#8]
    else if i % 8 = 4 then t.map subByte else t
  xorBytes (ws.getD 7 []) u

/-- Words 8 to 59, after the key's own, newest first. -/
def keyWords : Nat → List (List Byte) → List (List Byte)
  | 0, ws => ws
  | n + 1, ws => keyWords n (keyWord (59 - n) ws :: ws)

/-- Byte `i` of a key, least significant first (assumption 55). -/
def keyByte (k : BitVec 256) (i : Nat) : Byte := k.extractLsb' (8 * i) 8

/-- The fifteen round keys. -/
def roundKeys (k : BitVec 256) : List (List Byte) :=
  let ws := (keyWords 52 (((List.range 8).map fun w => (List.range 4).map fun i => keyByte k (4 * w + i)).reverse)).reverse
  (List.range 15).map fun r => ((ws.drop (4 * r)).take 4).flatten

/-- Row r of the state moves by r columns, to the left or back. -/
def shiftRows (back : Bool) (s : List Byte) : List Byte :=
  (List.range 16).map fun i => s.getD (4 * ((i / 4 + (if back then 4 - i % 4 else i % 4)) % 4) + i % 4) 0#8

/-- Each column times the polynomial whose coefficients from row 0 are given. -/
def mixColumns (c : List Byte) (s : List Byte) : List Byte :=
  (List.range 16).map fun i => (List.range 4).foldl (fun t j =>
    t ^^^ gmul (s.getD (4 * (i / 4) + j) 0#8) (c.getD ((j + 4 - i % 4) % 4) 0#8) 8) 0#8

def mixFwd : List Byte → List Byte := mixColumns [2#8, 3#8, 1#8, 1#8]
def mixInv : List Byte → List Byte := mixColumns [14#8, 11#8, 13#8, 9#8]

def aesRounds : List (List Byte) → List Byte → List Byte
  | [], s => s
  | [k], s => xorBytes (shiftRows false (s.map subByte)) k
  | k :: ks, s => aesRounds ks (xorBytes (mixFwd (shiftRows false (s.map subByte))) k)

/-- Encryption of one block under round keys. -/
def aesEnc (ks : List (List Byte)) (b : List Byte) : List Byte := aesRounds (ks.drop 1) (xorBytes b (ks.headD []))

/-- The rounds back, under the round keys from the last. -/
def aesRoundsInv : List (List Byte) → List Byte → List Byte
  | [], s => s
  | [k], s => xorBytes ((shiftRows true s).map invSubByte) k
  | k :: ks, s => aesRoundsInv ks (mixInv (xorBytes ((shiftRows true s).map invSubByte) k))

/-- Decryption of one block. -/
def aesDec (ks : List (List Byte)) (b : List Byte) : List Byte :=
  let r := ks.reverse
  aesRoundsInv (r.drop 1) (xorBytes b (r.headD []))

/-! ### XTS -/

/-- The tweak of the next block: multiplication by α, least significant byte first. -/
def nextTweak (t : List Byte) : List Byte :=
  let carry := (t.getD 15 0#8).msb
  (List.range 16).map fun i =>
    let b := t.getD i 0#8 <<< 1 ||| (if i = 0 then 0#8 else if (t.getD (i - 1) 0#8).msb then 1#8 else 0#8)
    if i = 0 ∧ carry then b ^^^ 0x87#8 else b

/-- The blocks of a data unit under `f`, from the first tweak. -/
def xtsBlocks (f : List Byte → List Byte) : Nat → List Byte → List Byte → List Byte
  | 0, _, _ => []
  | n + 1, t, bs => xorBytes (f (xorBytes (bs.take 16) t)) t ++ xtsBlocks f n (nextTweak t) (bs.drop 16)

/-- The first tweak of unit `i`: `i` itself, least significant byte first, encrypted under the second key. -/
def firstTweak (k2 : BitVec 256) (i : Nat) : List Byte :=
  aesEnc (roundKeys k2) ((List.range 16).map fun b => BitVec.ofNat 8 (i / 256 ^ b))

/-- The stored form of sector `i`, and what it came from. -/
def xtsEnc (ks : BitVec 256 × BitVec 256) (i : Nat) (bs : List Byte) : List Byte :=
  xtsBlocks (aesEnc (roundKeys ks.1)) 8 (firstTweak ks.2 i) bs
def xtsDec (ks : BitVec 256 × BitVec 256) (i : Nat) (bs : List Byte) : List Byte :=
  xtsBlocks (aesDec (roundKeys ks.1)) 8 (firstTweak ks.2 i) bs

end Sys2Proof.Machine
end

