-- ==== Sys2Proof/Machine/Mem.lean ====
section
/-! DEFINITION. Memories and translation: byte memories in canonical form, the shared SRAM (R231), module storage under
its keys (R274, R275, R399), contexts (R350), the page table and its walk (R225 to R236), near data caches (R243), and
the fault queue (R351). -/

namespace Sys2Proof.Machine

/-! ### Bytes -/

/-- The number that bytes spell, least significant first (R21). -/
def leNat : List Byte → Nat
  | [] => 0
  | b :: t => b.toNat + 256 * leNat t

/-- The low `n` bytes of a number, least significant first. -/
def leBytes : Nat → Nat → List Byte
  | 0, _ => []
  | n + 1, v => BitVec.ofNat 8 v :: leBytes n (v / 256)

/-- A byte memory in canonical form: rising addresses and no byte equal to 0, which unlisted addresses read as
(assumptions 2 and 3). -/
def Memory.wf (m : List Host.Cell) : Bool := Tab.wf 0#8 m

/-- One byte of a memory. -/
def Memory.get (m : List Host.Cell) (a : Nat) : Byte := Tab.get 0#8 m a

/-- Write one byte. -/
def Memory.put (m : List Host.Cell) (a : Nat) (b : Byte) : List Host.Cell := Tab.set 0#8 a b m

/-- `n` bytes from address `a`. -/
def Memory.read (m : List Host.Cell) : Nat → Nat → List Byte
  | _, 0 => []
  | a, n + 1 => Memory.get m a :: Memory.read m (a + 1) n

/-- Replace the elements of a list from position `i` on. -/
def splice {α : Type} (xs : List α) (i : Nat) (ys : List α) : List α := xs.take i ++ ys ++ xs.drop (i + ys.length)

/-- Split a range at the multiples of `sz`; `k` bounds the parts. -/
def splitAt (sz va n : Nat) : Nat → List (Nat × Nat)
  | 0 => []
  | k + 1 =>
    if n = 0 then [] else
    let m := min n (sz - va % sz)
    (va, m) :: splitAt sz (va + m) (n - m) k

/-- The parts of `n` bytes from `a` between multiples of `sz`. -/
def chunks (sz a n : Nat) : List (Nat × Nat) := splitAt sz a n (n / sz + 2)

/-- Write bytes from address `a`. -/
def Memory.write (m : List Host.Cell) (a : Nat) : List Byte → List Host.Cell
  | [] => m
  | b :: t => Memory.write (Memory.put m a b) (a + 1) t

/-! ### Uncorrectable errors (R161, R199, R211, R243, assumption 37) -/

/-- Some of `n` places from `off` hold an error. -/
def errIn (e : List Nat) (off n : Nat) : Bool := e.any fun x => decide (off ≤ x) && decide (x < off + n)

/-- The first of `n` places from `off` that holds an error. -/
def firstErr (e : List Nat) (off n : Nat) : Option Nat :=
  (e.filter fun x => decide (off ≤ x) && decide (x < off + n)).foldl (fun a x => some (min x (a.getD x))) none

/-- The errors left once `n` places from `off` have been written. -/
def errClear (e : List Nat) (off n : Nat) : List Nat := e.filter fun x => decide (x < off) || decide (off + n ≤ x)

/-! ### Free choices -/

/-- A free choice of this step below `n` (assumption 4); `tag` tells the choices of one step apart. -/
def State.choose (s : State) (tag n : Nat) : Nat := if n ≤ 1 then 0 else Config.pick s.tick tag % n

/-! ### The shared SRAM (R231) -/

def sramSize : Nat := 0x30000000

/-- Device reads of the shared SRAM. Past its end no byte exists: such a byte of a misplaced table is a free value
(assumption 9). -/
def State.sramRead (s : State) : Nat → Nat → List Byte
  | _, 0 => []
  | a, n + 1 => (if a < sramSize then Memory.get s.sram a else Config.freeByte s.tick a) :: State.sramRead s (a + 1) n

/-- Device writes of the shared SRAM; past its end nothing is written (assumption 9). -/
def State.sramWrite (s : State) (a : Nat) (bs : List Byte) : State :=
  { s with sram := Memory.write s.sram a (bs.take (sramSize - a)), sramErr := errClear s.sramErr a bs.length }

/-- An aligned word of `n` bytes. -/
def State.sramWord (s : State) (a n : Nat) : Nat := leNat (s.sramRead a n)

/-! ### Contexts (R350) -/

/-- The fields of a context record. -/
structure Ctx where
  pad : Nat
  asid : BitVec 16
  pasid : Nat
  fqirq : Bool
  vec : Nat
  fqlog : Nat
  fqva : Dword
  chva : Dword
  owlen : Nat
  chlen : Nat
  owva : Dword
  cgva : Dword
  boff : Nat
  save : Dword
  deriving DecidableEq, Repr

def dw (n : Nat) : Dword := BitVec.ofNat 64 n

/-- Bits `hi` to `lo` of a number. -/
def bits (x hi lo : Nat) : Nat := x / 2 ^ lo % 2 ^ (hi - lo + 1)

/-- Quadword `i` of context record `c`. -/
def State.ctxQ (s : State) (c i : Nat) : Nat := s.sramWord (bits s.regs.ctxRoot.toNat 29 0 + 128 * c + 8 * i) 8

/-- The context table lies where R350 lets it. -/
def State.ctxRootOk (s : State) : Bool :=
  let r := bits s.regs.ctxRoot.toNat 29 0
  r % 0x20000 == 0 && decide (r + 0x20000 ≤ sramSize)

/-- Bit V of record `c`. -/
def State.ctxV (s : State) (c : Nat) : Bool := s.ctxRootOk && decide (c < 1024) && bits (s.ctxQ c 0) 63 63 == 1

/-- The fields of record `c`, as they stand. -/
def State.ctx (s : State) (c : Nat) : Ctx :=
  let q0 := s.ctxQ c 0
  let q1 := s.ctxQ c 1
  let q3 := s.ctxQ c 3
  { pad := bits q0 55 50, asid := BitVec.ofNat 16 (bits q0 49 34), pasid := bits q0 33 14, fqirq := bits q0 13 13 == 1
    vec := bits q0 11 0, fqlog := bits q1 63 60, fqva := dw (bits q1 55 0), chva := dw (bits (s.ctxQ c 2) 55 0)
    owlen := bits q3 63 48, chlen := bits q3 43 32, owva := dw (bits (s.ctxQ c 4) 55 0)
    cgva := dw (bits (s.ctxQ c 5) 55 0), boff := bits (s.ctxQ c 6) 29 0, save := dw (bits (s.ctxQ c 7) 55 0) }

/-- The record is valid: V is set, and it keeps the table of R350. -/
def State.ctxOk (s : State) (c : Nat) : Bool :=
  s.ctxV c && bits (s.ctxQ c 0) 62 56 == 0 && bits (s.ctxQ c 0) 12 12 == 0 && decide (4 ≤ bits (s.ctxQ c 1) 63 60) &&
  bits (s.ctxQ c 1) 59 56 == 0 && bits (s.ctxQ c 1) 5 0 == 0 && bits (s.ctxQ c 2) 63 56 == 0 &&
  bits (s.ctxQ c 3) 47 44 == 0 && bits (s.ctxQ c 3) 31 0 == 0 && bits (s.ctxQ c 4) 63 56 == 0 &&
  bits (s.ctxQ c 5) 63 56 == 0 && bits (s.ctxQ c 6) 63 30 == 0 && bits (s.ctxQ c 6) 15 0 == 0 &&
  bits (s.ctxQ c 7) 63 56 == 0 &&
  s.sramRead (bits s.regs.ctxRoot.toNat 29 0 + 128 * c + 64) 64 == List.replicate 64 0#8

def State.asid (s : State) (a : BitVec 16) : AsidState := Tab.get {} s.asids a.toNat
def State.genOf (s : State) (a : BitVec 16) : BitVec 8 := (s.asid a).gen

/-! ### Pages (R225 to R232) -/

inductive Tier where
  | near | far | peer | host
  deriving DecidableEq, Repr

/-- A page that a walk or a cached entry has found: its fields by R228 and R229. -/
structure Page where
  tier : Tier
  sz : Nat
  rp : Bool
  wp : Bool
  xp : Bool
  mig : Bool
  thr : Nat
  key : BitVec 13
  target : Nat
  /-- bits 62:52 of the entry, as PROBE returns them (R249) -/
  attr : Nat
  /-- slot of the table, 8 × bucket + slot (R241) -/
  idx : Nat
  deriving DecidableEq, Repr

/-- log2 of the 64 KiB units of a page, for SZ 0, 1 and 2. -/
def szShift (sz : Nat) : Nat := if sz = 0 then 0 else if sz = 1 then 5 else 14

/-- VA bits 55:16 with the bits below the page size cleared (R232). -/
def vpnOf (va : Dword) (sz : Nat) : Nat := bits va.toNat 55 16 / 2 ^ szShift sz * 2 ^ szShift sz

/-- The fields of an entry. -/
def Page.of (e : BitVec 128) (idx : Nat) : Page :=
  { tier := match (e.extractLsb' 59 2).toNat with | 0 => .near | 1 => .far | 2 => .peer | _ => .host
    sz := (e.extractLsb' 61 2).toNat, rp := e.getLsbD 58, wp := e.getLsbD 57, xp := e.getLsbD 56, mig := e.getLsbD 55
    thr := (e.extractLsb' 52 3).toNat, key := e.extractLsb' 39 13, target := (e.extractLsb' 0 39).toNat
    attr := (e.extractLsb' 52 11).toNat, idx := idx }

/-- V = 1 and every rule of R228 and R229 holds (R230), with the pool as SRAM_POOL gives it. -/
def entryOk (pool : Nat) (e : BitVec 128) : Bool :=
  let p := Page.of e 0
  let tag := (e.extractLsb' 64 40).toNat
  e.getLsbD 63 && decide (p.sz < 3) && tag % 2 ^ szShift p.sz == 0 && p.target % 2 ^ szShift p.sz == 0 &&
  (p.tier == .far || p.key == 0#13) &&
  match p.tier with
  | .near => p.sz != 2 && decide (p.target < 2 ^ 14) && decide (p.target + 2 ^ szShift p.sz ≤ pool)
  | .far => decide (p.target < 2 ^ 30)
  | .peer => true
  | .host => true

/-- POOL_PAGES and the pool's offset (R231). -/
def State.poolPages (s : State) : Nat := bits s.regs.sramPool.toNat 45 32
def State.poolBase (s : State) : Nat := bits s.regs.sramPool.toNat 29 16 * 65536

/-- log2 of the number of buckets, if PT_ROOT is usable (R227). -/
def State.ptLog (s : State) : Option Nat :=
  let r := s.regs.ptRoot.toNat
  let n := bits r 35 32 + 10
  let base := bits r 29 0
  if n ≤ 20 ∧ base % (128 * 2 ^ n) = 0 ∧ base + 128 * 2 ^ n ≤ sramSize then some n else none

/-- The first bucket of a key (R232). -/
def ptHash (n sz : Nat) (asid : BitVec 16) (vpn : Nat) : Nat :=
  (sz * 2 ^ 56 + asid.toNat * 2 ^ 40 + vpn) * 0xD6E8FEB86659FD93 % 2 ^ 64 / 2 ^ (64 - n)

def entryMatches (pool sz vpn : Nat) (asid : BitVec 16) (gen : BitVec 8) (e : BitVec 128) : Bool :=
  entryOk pool e && e.extractLsb' 104 16 == asid && e.extractLsb' 120 8 == gen &&
  (e.extractLsb' 61 2).toNat == sz && (e.extractLsb' 64 40).toNat == vpn

/-- Search of the slots `i`, `i + 1`, … of a size: `k` remain, counted over eight buckets of eight slots. -/
def State.walkSlots (s : State) (base n b0 sz vpn : Nat) (asid : BitVec 16) (gen : BitVec 8) :
    Nat → Option (BitVec 128 × Nat)
  | 0 => none
  | k + 1 =>
    let i := 63 - k
    let idx := (b0 + i / 8) % 2 ^ n * 8 + i % 8
    let e := BitVec.ofNat 128 (s.sramWord (base + 16 * idx) 16)
    if entryMatches s.poolPages sz vpn asid gen e then some (e, idx) else s.walkSlots base n b0 sz vpn asid gen k

/-- The walk of R232: the entry and its slot. -/
def State.walk (s : State) (asid : BitVec 16) (gen : BitVec 8) (va : Dword) : Option (BitVec 128 × Nat) :=
  match s.ptLog with
  | none => none
  | some n =>
    let base := bits s.regs.ptRoot.toNat 29 0
    let try_ (sz : Nat) := s.walkSlots base n (ptHash n sz asid (vpnOf va sz)) sz (vpnOf va sz) asid gen 64
    match try_ 0 with
    | some e => some e
    | none =>
      match try_ 1 with
      | some e => some e
      | none => try_ 2

/-- A cached entry of core `c` or of its die for the address (R233). One that was found for another 64 KiB page gives way
to a smaller page that the table now maps there, `w`: the first match of R232 is the one used. -/
def TlbEnt.hit (c : Nat) (asid : BitVec 16) (gen : BitVec 8) (va : Dword) (w : Option (BitVec 128 × Nat)) (t : TlbEnt) :
    Bool :=
  (t.at_ == c || t.at_ == 320 + Config.die c % 3) && t.asid == asid && t.gen == gen && t.vpn == vpnOf va t.sz &&
  (t.page == bits va.toNat 55 16 || match w with
    | some e => decide (t.sz ≤ (Page.of e.1 0).sz)
    | none => true)

/-- Keep an entry in the core's 256-entry TLB and, by free choice, in the die's walk cache. -/
def State.cacheEntry (s : State) (c : Nat) (asid : BitVec 16) (gen : BitVec 8) (va : Dword) (e : BitVec 128)
    (idx : Nat) : State :=
  let sz := (Page.of e idx).sz
  let page := bits va.toNat 55 16
  let t : TlbEnt := { at_ := c, asid, gen, sz, vpn := (e.extractLsb' 64 40).toNat, page, entry := e, idx }
  let old := s.tlb.filter fun x => !(x.at_ == c && x.asid == asid && x.gen == gen && x.page == page)
  let mine := (old.filter fun x => x.at_ == c).take 255
  let others := old.filter fun x => x.at_ != c
  let die := if s.choose 1 2 = 1 then [{ t with at_ := 320 + Config.die c % 3 }] else []
  { s with tlb := t :: mine ++ die ++ others }

/-- What core `c` finds for an address: a cached entry that hits, or the walk, by free choice where both stand (R233); the
entry found by a walk is kept. -/
def State.find (s : State) (c : Nat) (asid : BitVec 16) (gen : BitVec 8) (va : Dword) :
    Option (BitVec 128 × Nat) × State :=
  let w := s.walk asid gen va
  match s.tlb.find? (TlbEnt.hit c asid gen va w), s.choose 0 2, w with
  | some t, 0, _ => (some (t.entry, t.idx), s)
  | _, _, some e => (some e, s.cacheEntry c asid gen va e.1 e.2)
  | _, _, none => (none, s)

/-- Translate for core `c`. One issue looks each page up once, and its fibres share the outcome (R233). -/
def State.lookup (s : State) (c : Nat) (asid : BitVec 16) (gen : BitVec 8) (va : Dword) : Option Page × State :=
  let page := bits va.toNat 55 16
  match s.looked.find? fun p => p.1 == (s.sheaf, page) with
  | some p => (p.2.map fun e => Page.of e.1 e.2, s)
  | none =>
    let r := s.find c asid gen va
    (r.1.map fun e => Page.of e.1 e.2, { r.2 with looked := ((s.sheaf, page), r.1) :: s.looked })

/-- Translation by the device's own units: the walk (R233, R260). -/
def State.pageOf (s : State) (asid : BitVec 16) (va : Dword) : Option Page :=
  if va.toNat < 2 ^ 56 then (s.walk asid (s.genOf asid) va).map fun x => Page.of x.1 x.2 else none

/-- The 64 KiB pages of the page that holds an address, as first and count. -/
def Page.span (p : Page) (va : Dword) : Nat × Nat := (vpnOf va p.sz, 2 ^ szShift p.sz)

/-- The offset of an address within its page. -/
def Page.off (p : Page) (va : Dword) : Nat := va.toNat % (65536 * 2 ^ szShift p.sz)

/-- Shared-SRAM offset of an address of a NEAR page (R231). -/
def State.nearOff (s : State) (p : Page) (va : Dword) : Nat := s.poolBase + 65536 * p.target + p.off va

/-- Module and module byte address of a FAR page, as module × 2^40 + address (R399). -/
def farAddr (p : Page) (va : Dword) : Nat := p.target / 2 ^ 24 * 2 ^ 40 + p.target % 2 ^ 24 * 65536 + p.off va

/-- I/O virtual address of a HOST page, with the PASID above it (R229). -/
def hostAddr (pasid : Nat) (p : Page) (va : Dword) : Nat := pasid * 2 ^ 64 + p.target * 65536 + p.off va

/-- Peer number and address in the peer (R229). -/
def peerOf (p : Page) : Nat := p.target / 2 ^ 29
def peerAddr (p : Page) (va : Dword) : Nat := p.target % 2 ^ 29 * 65536 + p.off va

/-! ### Module storage -/

/-- The key pair in a slot (R399). -/
def State.keyOf (s : State) (k : BitVec 13) : Option Keys := Tab.get none s.keys k.toNat

/-- The engine is up: neither direction down, and not both laser sources dark (R395). -/
def State.engineUp (s : State) (e : Nat) : Bool :=
  !(Tab.get {} s.optDirs (2 * e)).down && !(Tab.get {} s.optDirs (2 * e + 1)).down &&
  !(s.darkSources.contains (e / 4) && s.darkSources.contains ((e / 4 + 1) % 6))

/-- The module is provisioned, and an engine that carries its traffic is up (R395, R398). -/
def State.linkUp (s : State) (m : Nat) : Bool :=
  match Tab.get none s.provs m with
  | none => false
  | some p => (List.range 24).any fun e => p.engines.getLsbD e && s.engineUp e

/-- Modules under drain (R398). -/
def State.drainedModules (s : State) : List Nat :=
  s.provs.filterMap fun p => match p.2 with
    | some v => if v.drained.isSome then some p.1 else none
    | none => none

/-- What is accepted now reaches the module. -/
def State.moduleUp (s : State) (m : Nat) : Bool := s.linkUp m && !s.drainedModules.contains m

/-! Modules hold bytes under the keys they were last written with, in sectors of 128 bytes (R399). Where compression is
enabled, a block of 4 KiB is held as R273 lays it out, and its sectors are those of the stored form. -/

/-- Where a module address is held: by the module's address on the fabric (R397). A module that is not provisioned has none,
and is never reached. -/
def State.fabAddr (s : State) (a : Nat) : Nat :=
  2 ^ 40 * (((Tab.get none s.provs (a / 2 ^ 40)).map fun p => p.fab.toNat).getD (2 ^ 16 + a / 2 ^ 40)) + a % 2 ^ 40

/-- A sector as key slot `k` decrypts it: what was written, where the keys and the data unit are those of the write. A
sector that nothing has written holds what assumption 3 gives it. -/
def State.sector (s : State) (k : BitVec 13) (sec : Nat) : List Byte :=
  let p := s.fabAddr (128 * sec) / 128
  let bs := Memory.read s.far (128 * p) 128
  match Tab.find s.sectorKey p, s.keyOf k with
  | some w, some v => if w = (v, sec) then bs else xtsDec v sec (xtsEnc w.1 w.2 bs)
  | _, _ => bs

/-- Write a sector under key slot `k`. -/
def State.putSector (s : State) (k : BitVec 13) (sec : Nat) (bs : List Byte) : State :=
  let p := s.fabAddr (128 * sec) / 128
  { s with
    far := Memory.write s.far (128 * p) bs
    sectorKey := match s.keyOf k with
      | some v => Tab.put p (v, sec) s.sectorKey
      | none => s.sectorKey }

/-- Stored bytes of a module. -/
def State.stored (s : State) (k : BitVec 13) (a n : Nat) : List Byte :=
  (chunks 128 a n).flatMap fun p => ((s.sector k (p.1 / 128)).drop (p.1 % 128)).take p.2

/-- Write stored bytes; a sector written in part keeps the rest as this key slot reads it. -/
def State.store (s : State) (k : BitVec 13) (a : Nat) (bs : List Byte) : State :=
  ((chunks 128 a bs.length).foldl (fun (t : State × List Byte) p =>
    let sec := p.1 / 128
    let u := t.1.putSector k sec (splice (t.1.sector k sec) (p.1 % 128) (t.2.take p.2))
    ({ u with farErr := errClear u.farErr (s.fabAddr p.1) p.2 }, t.2.drop p.2)) (s, bs)).1

/-! ### Compressed blocks (R273 to R275) -/

/-- The halfwords of a block, as pairs of bytes. -/
def halfwords : List Byte → List (Byte × Byte)
  | a :: b :: t => (a, b) :: halfwords t
  | _ => []

/-- The bitmap of a list of bits, least significant first. -/
def bitmapBytes (bs : List Bool) : List Byte :=
  (List.range (bs.length / 8)).map fun i => BitVec.ofNat 8 (((bs.drop (8 * i)).take 8).foldr (fun b t => b.toNat + 2 * t) 0)

/-- A block as it is stored: its code, and the bytes of its sectors. -/
def encodeBlock (bs : List Byte) : Nat × List Byte :=
  let hs := halfwords bs
  let used := fun h : Byte × Byte => h.1 != 0#8 || h.2 != 0#8
  let body := bitmapBytes (hs.map used) ++ (hs.filter used).flatMap fun h => [h.1, h.2]
  let c := (body.length + 127) / 128
  if c ≥ 32 then (0, bs) else (c, body ++ List.replicate (128 * c - body.length) 0#8)

/-- The bits of a bitmap. -/
def bitmapBits (bs : List Byte) : List Bool := bs.flatMap fun b => (List.range 8).map fun i => b.getLsbD i

/-- The halfwords that a bitmap spells, those present taken in turn. -/
def expandHalves : List Bool → List Byte → List Byte
  | [], _ => []
  | true :: t, bs => splice [0#8, 0#8] 0 (bs.take 2) ++ expandHalves t (bs.drop 2)
  | false :: t, bs => 0#8 :: 0#8 :: expandHalves t bs

/-- A block from the bytes of its sectors. -/
def expandBlock (img : List Byte) : List Byte := expandHalves (bitmapBits (img.take 256)) (img.drop 256)

/-- The bitmap's count and the padding agree with the code. -/
def blockAgrees (img : List Byte) (c : Nat) : Bool :=
  let n := 256 + 2 * ((bitmapBits (img.take 256)).filter id).length
  (n + 127) / 128 == c && (img.drop n).all fun b => b == 0#8

/-- The metadata record of the page that holds an address, and the code of a block; RAW needs no look-up (R274). -/
def State.metaOf (s : State) (a : Nat) : Meta := Tab.get {} s.meta_ (s.fabAddr a / 65536)
def State.setMeta (s : State) (a : Nat) (r : Meta) : State :=
  { s with meta_ := Tab.set {} (s.fabAddr a / 65536) r s.meta_ }
def Meta.codeOf (r : Meta) (k : Nat) : Nat := (r.code.extractLsb' (5 * k) 5).toNat
def State.blockCode (s : State) (blk : Nat) : Nat :=
  let r := s.metaOf (4096 * blk)
  if r.raw then 0 else r.codeOf (blk % 16)

/-- Record one block's code and recompute RAW (R275). -/
def Meta.setCode (r : Meta) (k c : Nat) : Meta :=
  let code := (r.code &&& ~~~(31#80 <<< (5 * k))) ||| (BitVec.ofNat 80 c <<< (5 * k))
  { r with code, raw := code == 0#80 }

/-- Bytes within one block, expanded. -/
def State.blockRead (s : State) (k : BitVec 13) (a n : Nat) : List Byte :=
  let c := s.blockCode (a / 4096)
  if c = 0 then s.stored k a n
  else ((expandBlock (s.stored k (a / 4096 * 4096) (128 * c))).drop (a % 4096)).take n

/-- Bytes of a module under key slot `k`. -/
def State.farRead (s : State) (k : BitVec 13) (a n : Nat) : List Byte :=
  (chunks 4096 a n).flatMap fun p => s.blockRead k p.1 p.2

/-- Write bytes within one block: stored raw, or the block is encoded afresh with its code (R275). -/
def State.blockWrite (s : State) (k : BitVec 13) (a : Nat) (bs : List Byte) : State :=
  let r := s.metaOf a
  if !r.ce then s.store k a bs else
  let base := a / 4096 * 4096
  let (c, img) := encodeBlock (splice (s.blockRead k base 4096) (a % 4096) bs)
  (s.store k base img).setMeta a (r.setCode (a / 4096 % 16) c)

/-- Write module bytes under key slot `k`. -/
def State.farWrite (s : State) (k : BitVec 13) (a : Nat) (bs : List Byte) : State :=
  ((chunks 4096 a bs.length).foldl (fun (t : State × List Byte) p =>
    (t.1.blockWrite k p.1 (t.2.take p.2), t.2.drop p.2)) (s, bs)).1

/-- Store every block of a page raw: compression is enabled no more (R301). -/
def State.storeRaw (s : State) (k : BitVec 13) (page : Nat) : State :=
  let bs := s.farRead k page 65536
  (s.store k page bs).setMeta page { s.metaOf page with ce := false, raw := true, code := 0#80 }

/-- A metadata error in the block that holds an address of a module, as key slot `k` reads it (R274). -/
def State.blockBad (s : State) (k : BitVec 13) (a : Nat) : Bool :=
  let r := s.metaOf a
  let c := s.blockCode (a / 4096)
  r.rsv != 0#46 || (r.raw && r.code != 0#80) || c == 1 ||
    (c != 0 && !blockAgrees (s.stored k (a / 4096 * 4096) (128 * c)) c)

/-- A metadata error in the blocks that a range of a module touches. -/
def State.metaBad (s : State) (k : BitVec 13) (a n : Nat) : Bool := (chunks 4096 a n).any fun p => s.blockBad k p.1

/-- The first byte of a range within one block, counted from its start, that a read of it needs and that holds an
uncorrectable error: of a compressed block every stored byte is needed (R277). -/
def State.blockErr (s : State) (a n : Nat) : Option Nat :=
  let c := s.blockCode (a / 4096)
  if c = 0 then (firstErr s.farErr (s.fabAddr a) n).map fun x => x - s.fabAddr a
  else if errIn s.farErr (s.fabAddr (a / 4096 * 4096)) (128 * c) then some 0 else none

/-- Some byte that a read of a range needs holds an uncorrectable error (R277). -/
def State.farBad (s : State) (a n : Nat) : Bool := (chunks 4096 a n).any fun p => (s.blockErr p.1 p.2).isSome

/-- A write to a block where compression is enabled, which expands the old block first, meets an uncorrectable error in what
is stored of it (R275). -/
def State.oldBad (s : State) (a : Nat) : Bool :=
  let c := s.blockCode (a / 4096)
  (s.metaOf a).ce && errIn s.farErr (s.fabAddr (a / 4096 * 4096)) (if c = 0 then 4096 else 128 * c)

/-- What stands against an access to a range of a module: METADATA or DATA_ERROR (R277), in the first of its blocks that has
one, and at which byte of the range; of the reads, and of the writes, that it makes. -/
def State.farFault (s : State) (k : BitVec 13) (rd wr : Bool) (a n : Nat) : Option (BitVec 8 × Nat) :=
  (chunks 4096 a n).findSome? fun p =>
    if s.blockBad k p.1 then some (0x03#8, p.1 - a)
    else ((if rd then s.blockErr p.1 p.2 else none).or (if wr && s.oldBad p.1 then some 0 else none)).map fun d =>
      (0x04#8, p.1 - a + d)

/-! ### Interrupts and the fault queue (R351, R368) -/

/-- Entry `v` of the MSI-X table: address, data and vector control, of which bit 0 masks it, as it does at reset (assumption
56). -/
def State.msixEntry (s : State) (v : Nat) : BitVec 128 := Tab.get (1#128 <<< 96) s.msix v
def State.masked (s : State) (v : Nat) : Bool := (s.msixEntry v).getLsbD 96

/-- Raise an MSI-X vector; one that is masked is pending, and 2,048 and above raise none. -/
def State.raise (s : State) (v : Nat) : State :=
  if v ≥ 2048 then s
  else if s.masked v then { s with pba := Tab.set false v true s.pba }
  else { s with irqs := v :: s.irqs }

/-- Write an entry of the MSI-X table; a vector that is pending is raised once it is masked no more. -/
def State.setMsix (s : State) (v : Nat) (e : BitVec 128) : State :=
  let t := { s with msix := Tab.set (1#128 <<< 96) v e s.msix }
  if Tab.get false t.pba v && !t.masked v then { t with pba := Tab.set false v false t.pba }.raise v else t

/-- Post a record to a context's fault queue: written before TAIL advances; a full ring counts it as LOST. A header or
record page that is not mapped NEAR receives nothing (assumption 10). -/
def State.postFault (s : State) (c : Nat) (rec : List Dword) : State :=
  let x := s.ctx c
  match s.pageOf x.asid x.fqva with
  | none => s
  | some hp =>
    if hp.tier != .near || !s.ctxV c then s else
    let h := s.nearOff hp x.fqva
    let head := s.sramWord h 8
    let tail := s.sramWord (h + 8) 8
    if (tail + 2 ^ 64 - head) % 2 ^ 64 = 2 ^ x.fqlog then
      s.sramWrite (h + 16) (leBytes 8 (s.sramWord (h + 16) 8 + 1))
    else
      let va := x.fqva + dw (64 + 32 * (tail % 2 ^ x.fqlog))
      match s.pageOf x.asid va with
      | none => s
      | some rp =>
        if rp.tier != .near then s else
        let s1 := s.sramWrite (s.nearOff rp va) ((rec.map fun q => leBytes 8 q.toNat).flatten)
        let s2 := s1.sramWrite (h + 8) (leBytes 8 (tail + 1))
        if x.fqirq then s2.raise x.vec else s2

/-- The record of R278, used by the KINDs that are laid out as in it. -/
def faultRec (kind status : BitVec 8) (asid : BitVec 16) (gen : BitVec 8) (core fibre : Nat) (pc va group : Dword) :
    List Dword :=
  [(0#5 ++ BitVec.ofNat 10 fibre ++ 0#1 ++ BitVec.ofNat 8 core ++ gen ++ asid ++ status ++ kind : BitVec 64)
    ||| (if core ≥ 256 then 1#64 <<< 48 else 0#64), pc, va, group]

/-- sys.TADDR of a deferred DATA_ERROR for which the spec names no offset: a free value (assumption 37). -/
def State.freeAddr (s : State) : Dword := dw (Config.pick s.tick 9)

/-- DATA_ERROR is held for the next TFENCE of a fibre that wrote a line, while its group is resident (R243, R376). -/
def State.tellWriter (s : State) (r : FRef) (inc : Nat) : State :=
  match Tab.find s.groups r.g with
  | none => s
  | some x =>
    match x.loc, Tab.find x.fibres r.f with
    | .resident core, some f =>
      let a := (s.ctx x.ctx).asid
      let rec_ := faultRec 0x52#8 0x60#8 a (s.genOf a) core r.f f.pos.pc s.freeAddr (dw x.lin)
      if f.inc ≠ inc then s
      else if f.slot.isSome then s.postFault x.ctx rec_
      else
        let told : Fibre := { f with slot := some { cause := .dataError, addr := s.freeAddr, body := rec_ } }
        { s with groups := Tab.put r.g { x with fibres := Tab.put r.f told x.fibres } s.groups }
    | _, _ => s

/-! ### Cores and near data caches (R243) -/

def State.core (s : State) (c : Nat) : Core := Tab.get {} s.cores c
def State.setCore (s : State) (c : Nat) (x : Core) : State := { s with cores := Tab.set {} c x s.cores }

/-- Write the dirty bytes of a line back to the shared SRAM. -/
def State.writeBytes (s : State) (l : Line) : State :=
  (List.range 128).foldl (fun t i =>
    if (l.dirty[i]?).getD false then t.sramWrite (128 * l.line + i) [(l.bytes[i]?).getD 0#8] else t) s

/-- The dirty bytes of a line that hold an uncorrectable error. -/
def Line.badDirty (l : Line) : List Nat := l.err.filter fun i => (l.dirty[i]?).getD false

/-- Write a line back. Where a dirty line holds an uncorrectable error, the fibres that wrote it are told (R243), and the bytes
of it that are written keep it in the shared SRAM. -/
def State.writeLine (s : State) (l : Line) : State :=
  if l.err = [] ∨ !l.dirty.any id then s.writeBytes l else
  let s1 := s.writeBytes l
  l.writers.foldl (fun t w => t.tellWriter w.1 w.2)
    { s1 with sramErr := l.badDirty.map (fun i => 128 * l.line + i) ++ s1.sramErr }

def Line.clean (l : Line) : Line := { l with dirty := [], writers := [] }

/-- Write back the dirty lines that `p` selects, and drop them or keep them clean. -/
def State.flushLines (s : State) (c : Nat) (drop : Bool) (p : Line → Bool) : State :=
  let co := s.core c
  let s1 := (co.lines.filter p).foldl State.writeLine s
  s1.setCore c { co with lines :=
    if drop then co.lines.filter fun l => !p l else co.lines.map fun l => if p l then l.clean else l }

/-- Write back every dirty line of a context, keeping the lines (R340). -/
def State.writeBack (s : State) (c : Nat) (asid : BitVec 16) : State := s.flushLines c false fun l => l.asid == asid

/-- Drop every line of a context, writing dirty ones back first (R340). -/
def State.dropLines (s : State) (c : Nat) (asid : BitVec 16) : State := s.flushLines c true fun l => l.asid == asid

/-- Write back and drop the copy of the line that holds a shared-SRAM offset (R243, R341). -/
def State.dropLine (s : State) (c : Nat) (asid : BitVec 16) (off : Nat) : State :=
  s.flushLines c true fun l => l.asid == asid && l.line == off / 128

/-- Drop the fetch buffer's words of a context (R22). -/
def State.dropFetched (s : State) (c ctx : Nat) : State :=
  let co := s.core c
  s.setCore c { co with fbuf := co.fbuf.filter fun w => w.1 != ctx }

/-- A cache may write back and drop a line of its own accord at any access: a free choice (R243, R349). -/
def State.evict (s : State) (c : Nat) : State :=
  let n := (s.core c).lines.length
  let k := s.choose 2 (2 * n + 1)
  match (s.core c).lines[k]? with
  | some v => s.flushLines c true fun l => l.asid == v.asid && l.line == v.line
  | none => s

/-- The line of an offset for a context's ASID, filled from the shared SRAM where the cache does not hold it; 512 lines at most.
DESIGN CHOICE (assumption 43): a line that two contexts map has a copy for each of their ASIDs. -/
def State.fillLine (s : State) (c : Nat) (asid : BitVec 16) (line : Nat) : Line × State :=
  match (s.core c).lines.find? fun l => l.asid == asid && l.line == line with
  | some l => (l, s)
  | none =>
    let s1 := if (s.core c).lines.length < 512 then s else
      match (s.core c).lines[s.choose 3 512]? with
      | some v => s.flushLines c true fun l => l.asid == v.asid && l.line == v.line
      | none => s
    let l : Line := { asid, line, bytes := s1.sramRead (128 * line) 128, dirty := []
                      err := (s1.sramErr.filter fun a => a / 128 == line).map fun a => a % 128 }
    (l, s1.setCore c { s1.core c with lines := l :: (s1.core c).lines })

/-- A load of `n` bytes at a shared-SRAM offset through the core's cache; it lies within one line. -/
def State.cacheRead (s : State) (c : Nat) (asid : BitVec 16) (off n : Nat) : List Byte × State :=
  let (l, s1) := (s.evict c).fillLine c asid (off / 128)
  ((l.bytes.drop (off % 128)).take n, s1)

/-- A store of a fibre through the core's cache. -/
def State.cacheWrite (s : State) (c : Nat) (asid : BitVec 16) (off : Nat) (bs : List Byte) (by_ : FRef × Nat) : State :=
  let (l, s1) := (s.evict c).fillLine c asid (off / 128)
  let d := if l.dirty.length = 128 then l.dirty else List.replicate 128 false
  let l' := { l with bytes := splice l.bytes (off % 128) bs, dirty := splice d (off % 128) (bs.map fun _ => true)
                     err := errClear l.err (off % 128) bs.length
                     writers := if l.writers.contains by_ then l.writers else l.writers ++ [by_] }
  s1.setCore c { s1.core c with lines := (s1.core c).lines.map fun x => if x.asid == asid && x.line == l.line then l' else x }

/-- A load of `n` bytes at a shared-SRAM offset would return an uncorrectable error (R243). -/
def State.nearBad (s : State) (c : Nat) (asid : BitVec 16) (off n : Nat) : Bool :=
  match (s.core c).lines.find? fun l => l.asid == asid && l.line == off / 128 with
  | some l => errIn l.err (off % 128) n
  | none => errIn s.sramErr off n

/-- Some copy of the bytes, in the shared SRAM or in a core's cache, holds an uncorrectable error. -/
def State.nearErr (s : State) (off n : Nat) : Bool :=
  errIn s.sramErr off n || s.cores.any fun p => p.2.lines.any fun l => l.line == off / 128 && errIn l.err (off % 128) n

end Sys2Proof.Machine
end

