-- ==== Sys2Proof/Machine/Ops.lean ====
section
/-! DEFINITION. The named operations of a fibre: its registers and position, traps and the return from one (R374 to
R377), reports (R376), parking (R237), outstanding operations and their completion (R43, R47), and the frame in which
every instruction word issues (R49). -/

namespace Sys2Proof.Machine

/-! ### Groups and fibres -/

def State.group? (s : State) (g : Nat) : Option Group := Tab.find s.groups g
def State.setGroup (s : State) (g : Nat) (x : Group) : State := { s with groups := Tab.put g x s.groups }

def State.updGroup (s : State) (g : Nat) (u : Group → Group) : State :=
  match s.group? g with
  | some x => s.setGroup g (u x)
  | none => s

def Group.fibre? (x : Group) (f : Nat) : Option Fibre := Tab.find x.fibres f
def Group.setFibre (x : Group) (f : Nat) (v : Fibre) : Group := { x with fibres := Tab.put f v x.fibres }
def Group.mapFibres (x : Group) (u : Nat → Fibre → Fibre) : Group :=
  { x with fibres := x.fibres.map fun p => (p.1, u p.1 p.2) }

def Group.updFibre (x : Group) (f : Nat) (u : Fibre → Fibre) : Group :=
  match x.fibre? f with
  | some v => x.setFibre f (u v)
  | none => x

def State.fibre? (s : State) (r : FRef) : Option Fibre := (s.group? r.g).bind fun x => x.fibre? r.f
def State.updFibre (s : State) (r : FRef) (u : Fibre → Fibre) : State := s.updGroup r.g fun x => x.updFibre r.f u

/-- Fibre ranks, task ranks (R98). -/
def Group.ranks (x : Group) : Nat := (x.lr.nf + 31) / 32
/-- Blocks a rank starts with (R130). -/
def Group.blocks0 (x : Group) : Nat := x.lr.regs / 16
/-- Blocks a rank holds (R130). -/
def Group.blocks (x : Group) (rank : Nat) : Nat := ((x.blocks0 : Int) + Tab.get 0 x.alloc rank).toNat
/-- Registers of every fibre of the rank that holds fibre `f`: the allocation of R34. -/
def Group.allocation (x : Group) (f : Nat) : Nat := 16 * x.blocks (f / 32)

/-- The core a group is resident on. -/
def Group.core? (x : Group) : Option Nat :=
  match x.loc with
  | .resident c => some c
  | _ => none
/-- The core whose sweep unit carries out a group's sweeps: once it has ended, the one it was last placed on (R118, R184). -/
def Group.sweepCore? (x : Group) : Option Nat := if x.loc = .ended then some x.lastCore else x.core?
def Group.coreOr0 (x : Group) : Nat := x.core?.getD 0

/-- The live gang fibres, by number. -/
def Group.gang (x : Group) : List Nat := (x.fibres.filter fun p => !p.2.wave).map (·.1)

/-- The groups of a cluster, this one among them (R100). -/
def State.clusterOf (s : State) (g : Nat) : List Nat :=
  match s.group? g with
  | none => []
  | some x => (s.groups.filter fun p => p.2.launch == x.launch && p.2.lin / x.lr.cl == x.lin / x.lr.cl).map (·.1)

/-- Member `k` of a group's cluster. -/
def State.member? (s : State) (x : Group) (k : Nat) : Option Nat :=
  (s.groups.find? fun p => p.2.launch == x.launch && p.2.lin / x.lr.cl == x.lin / x.lr.cl && p.2.lin % x.lr.cl == k).map (·.1)

/-! ### Registers -/

def Fibre.r (f : Fibre) (n : Nat) : Word := Tab.get 0#32 f.regs n
def Fibre.setR (f : Fibre) (n : Nat) (v : Word) : Fibre := { f with regs := Tab.set 0#32 n v f.regs }
def Fibre.setRs (f : Fibre) (n : Nat) : List Word → Fibre
  | [] => f
  | v :: t => (f.setR n v).setRs (n + 1) t

/-- The number in `k` registers from `n`, least significant word first (R35). -/
def Fibre.rN (f : Fibre) (n : Nat) : Nat → Nat
  | 0 => 0
  | k + 1 => (f.r n).toNat + 2 ^ 32 * f.rN (n + 1) k

/-- Write a number to `k` registers from `n`. -/
def Fibre.setN (f : Fibre) (n : Nat) : Nat → Nat → Fibre
  | 0, _ => f
  | k + 1, v => (f.setR n (BitVec.ofNat 32 v)).setN (n + 1) k (v / 2 ^ 32)

def Fibre.pair (f : Fibre) (n : Nat) : Dword := dw (f.rN n 2)
def Fibre.idx (f : Fibre) (i : BitVec 2) : BitVec 16 := Tab.get 0#16 f.idxr i.toNat
def Fibre.setIdx (f : Fibre) (i : BitVec 2) (v : BitVec 16) : Fibre := { f with idxr := Tab.set 0#16 i.toNat v f.idxr }
def Fibre.p (f : Fibre) (n : BitVec 4) : Bool := f.preds.getLsbD n.toNat
def Fibre.setP (f : Fibre) (n : BitVec 4) (b : Bool) : Fibre :=
  { f with preds := if b then f.preds ||| (1#12 <<< n.toNat) else f.preds &&& ~~~(1#12 <<< n.toNat) }
def Fibre.ctr (f : Fibre) (k : BitVec 4) : BitVec 6 := Tab.get 0#6 f.ctrs k.toNat
def Fibre.setCtr (f : Fibre) (k : BitVec 4) (v : BitVec 6) : Fibre := { f with ctrs := Tab.set 0#6 k.toNat v f.ctrs }

/-- The sticky flags gather new ones (R79). -/
def Fibre.addFlags (f : Fibre) (x : BitVec 7) : Fibre := { f with flags := f.flags ||| x }

/-- The flags of a counting instruction that has completed: part of what software reads once a clause WAIT has observed the
counter, or at once where it counted on none (R80, R152, R379, assumption 6). -/
def Fibre.lateFlags (f : Fibre) (k : Option (BitVec 4)) (x : BitVec 7) : Fibre :=
  match k with
  | none => f.addFlags x
  | some n => { f with unseen := Tab.set 0#7 n.toNat (Tab.get 0#7 f.unseen n.toNat ||| x) f.unseen }

/-- The flags of several counters. -/
def flagsOf (l : Tab (BitVec 7)) : BitVec 7 := l.foldl (fun a p => a ||| p.2) 0#7

/-- A clause WAIT has found these counters at zero. -/
def Fibre.observe (f : Fibre) (wait : BitVec 12) : Fibre :=
  { f.addFlags (flagsOf (f.unseen.filter fun p => wait.getLsbD p.1)) with unseen := f.unseen.filter fun p => !wait.getLsbD p.1 }

/-- sys.FLAGS with the flags of every instruction that has completed (R80), as FLAGS and a debugger read it (assumption 6). -/
def Fibre.allFlags (f : Fibre) : BitVec 7 := f.flags ||| flagsOf f.unseen

/-- Clear flags of sys.FLAGS, whatever counters they came by (R382). -/
def Fibre.clearFlags (f : Fibre) (m : BitVec 7) : Fibre :=
  { f with flags := f.flags &&& ~~~m
           unseen := (f.unseen.map fun p => (p.1, p.2 &&& ~~~m)).filter fun p => p.2 != 0#7 }

/-- TM, EN and HBASE of sys.TMASK (R372). -/
def Fibre.tm (f : Fibre) : Bool := f.tmask.getLsbD 7
def Fibre.en (f : Fibre) : BitVec 7 := f.tmask.extractLsb' 0 7
def Fibre.hbase (f : Fibre) : BitVec 48 := f.tmask.extractLsb' 8 48

/-- The guard of a word in a fibre (R24). -/
def Fibre.guard (f : Fibre) : Guard → Bool
  | .always => true
  | .p n neg => f.p n != neg

/-! ### Position (R41, R44) -/

/-- The position after a body word: the next word of the body, or the next header. -/
def Pos.next (p : Pos) : Pos :=
  if p.idx.toNat < p.len.toNat then { p with pc := p.pc + 12#64, idx := p.idx + 1#3 } else { pc := p.pc + 12#64 }

/-- The word of TQ (R373). -/
def Pos.tqWord (p : Pos) : Dword :=
  (0#47 ++ BitVec.ofBool p.atHdr ++ p.seta ++ p.setb ++ 0#1 ++ p.len ++ 0#1 ++ p.idx : BitVec 64)

/-- Where a return to address `p` resumes, given the position `q` that was saved (R377). A word at `p` that is no
clause header raises CLAUSE_FORM when the fibre reaches it there (assumption 11). -/
def Pos.resume (q : Pos) (p : Dword) : Pos :=
  if p = q.pc then q
  else if p = q.pc + 12#64 ∧ ¬ q.atHdr ∧ q.idx.toNat < q.len.toNat then { q with pc := p, idx := q.idx + 1#3 }
  else { pc := p }

/-- The fibre may issue again, its age counted from the next cycle (R102). -/
def Fibre.wake (f : Fibre) (cycle : Nat) : Fibre := { f with stat := .ready, since := cycle + 1 }

/-- A fibre that is stopped stops now at another position; a PC that the debugger has written stays (R391). -/
def Stop.at_ (t : Stop) (p : Pos) : Stop := { t with q := p, pc := if t.pc = t.q.pc then p.pc else t.pc }

/-- The fibre has finished its word and goes on at a position. -/
def Fibre.goTo (f : Fibre) (p : Pos) (cycle : Nat) : Fibre :=
  { f with pos := p, stat := .ready, since := cycle + 1, grant := none, keep := f.keeping, keeping := none
           stop := f.stop.map fun t => t.at_ p
           stepping := if f.stepping = .armed then .issued else f.stepping }

/-- The fibre has finished its word: the next one is due. -/
def Fibre.advance (f : Fibre) (cycle : Nat) : Fibre := f.goTo f.pos.next cycle

/-! ### Traps (R370 to R377) -/

/-- The codes of R370. -/
def Cause.code : Cause → BitVec 8
  | .illegalInstr => 0x01 | .clauseForm => 0x02 | .regRange => 0x03 | .priv => 0x04 | .claimInvalid => 0x05
  | .forkInCluster => 0x06 | .clusterExit => 0x07 | .noArray => 0x08 | .bufState => 0x10 | .scratchRange => 0x11
  | .clusterAddr => 0x12 | .align => 0x13 | .pageNotPresent => 0x20 | .farAccess => 0x21 | .permission => 0x22
  | .shapeInvalid => 0x23 | .metadata => 0x25 | .order => 0x26 | .windowBounds => 0x30 | .windowKey => 0x31
  | .peerTimeout => 0x32 | .stepTorn => 0x33 | .peerError => 0x34 | .asyncFail => 0x40 | .engineError => 0x41
  | .arith => 0x50 | .software => 0x51 | .brk => 0x52 | .stepSingle => 0x53 | .dataError => 0x60

/-- Post a record of R278 about a fibre of a group: of the core of issue where one is given, else of the group's core. -/
def State.postGroup (s : State) (x : Group) (fibre : Nat) (kind status : BitVec 8) (pc va : Dword)
    (core : Option Nat := none) : State :=
  let a := (s.ctx x.ctx).asid
  s.postFault x.ctx (faultRec kind status a (s.genOf a) (core.getD (x.core?.getD x.lastCore)) fibre pc va (dw x.lin))

/-- The debug settings a group took at its launch's start: EN and ALLTRAPS send this cause to the debugger (R390). -/
def Group.toDebugger (x : Group) (c : Cause) : Bool :=
  x.dbg.getLsbD 63 && (x.dbg.getLsbD 0 || c == .brk || c == .stepSingle)

/-- ALL_STOP: every other fibre of the group stops at its next issue. -/
def Group.stopAll (x : Group) : Group := x.mapFibres fun _ f => { f with stopped := true }

/-- A debug stop (R390). -/
def State.debugStop (s : State) (x : Group) (r : FRef) (f : Fibre) (c : Cause) (value : Dword)
    (core : Option Nat := none) : State :=
  let f' := { f with stopped := true, stat := .ready, stepping := .off, grant := none
                     stop := some { cause := c.code, q := f.pos, value, pc := f.pos.pc } }
  let x' := if x.dbg.getLsbD 1 then x else x.stopAll
  (s.setGroup r.g (x'.setFibre r.f f')).postGroup x r.f 0x53#8 c.code f.pos.pc value core

/-- An unhandled trap: the group's fibres stop, the group is saved and is faulted (R375), and with it its cluster is
saved (R100). -/
def State.unhandled (s : State) (x : Group) (r : FRef) (f : Fibre) (c : Cause) (value : Dword)
    (core : Option Nat := none) : State :=
  let f' := { f with stopped := true, stat := .ready, stepping := .off, grant := none
                     stop := some { cause := c.code, q := f.pos, value, pc := f.pos.pc } }
  let s1 := s.setGroup r.g { (x.stopAll.setFibre r.f f') with stopping := true, faulted := true }
  let s2 := (s.clusterOf r.g).foldl (fun t k => t.updGroup k fun y => { y with stopping := true }) s1
  s2.postGroup x r.f 0x50#8 c.code f.pos.pc value core

/-- Entry of the handler: the cause, its value, the position and TM are written, and control passes to HBASE × 256
(R374). -/
def Fibre.enter (f : Fibre) (c : Cause) (value : Dword) (cycle : Nat) : Fibre :=
  { f.goTo { pc := 0#8 ++ f.hbase ++ 0#8 } cycle with
    tcause := c.code, taddr := value, tpc := f.pos.pc, tq := f.pos, tmask := f.tmask ||| 0x80#64 }

/-- A trap of a fibre at its position: to the debugger (R390), unhandled (R375), or into the handler (R374). A record of it
names the core of issue, where that is given. -/
def State.takeTrap (s : State) (r : FRef) (c : Cause) (value : Dword) (core : Option Nat := none) : State :=
  match s.group? r.g with
  | none => s
  | some x =>
    match x.fibre? r.f with
    | none => s
    | some f =>
      if x.toDebugger c then s.debugStop x r f c value core
      else if f.tm || f.hbase == 0#48 then s.unhandled x r f c value core
      else s.setGroup r.g (x.setFibre r.f (f.enter c value s.cycle))

/-- The return from a trap: TM is cleared and the fibre resumes at sys.TPC by the cases of R377. -/
def Fibre.trapReturn (f : Fibre) (cycle : Nat) : Fibre :=
  { f.goTo (f.tq.resume f.tpc) cycle with tmask := f.tmask &&& ~~~0x80#64 }

/-! ### Reports of failures (R376, R277) -/

/-- Hold a report in a group's slot, or post its record where the slot is full or the group has ended. -/
def State.reportGroup (s : State) (g ctx : Nat) (v : Report) : State :=
  match s.group? g with
  | none => s.postFault ctx v.body
  | some x =>
    if x.loc = .ended ∨ x.gslot.isSome then s.postFault ctx v.body
    else s.setGroup g { x with gslot := some v }

/-- Hold a report in the fibre's slot, or, where the fibre has ended, the report `w` in the group's; else post the record. -/
def State.reportTo (s : State) (o : Op) (v w : Report) : State :=
  match s.fibre? o.fib with
  | some f =>
    if f.inc = o.inc then
      if f.slot.isSome then s.postFault o.ctx v.body else s.updFibre o.fib fun y => { y with slot := some v }
    else s.reportGroup o.fib.g o.ctx w
  | none => s.reportGroup o.fib.g o.ctx w

/-- A report of one cause wherever it is held. -/
def State.report (s : State) (o : Op) (c : Cause) (value : Dword) (rec : List Dword) : State :=
  s.reportTo o { cause := c, addr := value, body := rec } { cause := c, addr := value, body := rec }

/-- The record of R278 about an operation. -/
def State.opRec (s : State) (o : Op) (kind status : BitVec 8) (va : Dword) : List Dword :=
  let a := (s.ctx o.ctx).asid
  faultRec kind status a (s.genOf a) o.core o.fib.f o.pc va (((s.group? o.fib.g).map fun x => dw x.lin).getD 0#64)

/-- DATA_ERROR at the issuing fibre's next TFENCE, with its sys.TADDR value (R161, R199, R211). -/
def State.dataError (s : State) (o : Op) (addr : Dword) : State := s.report o .dataError addr (s.opRec o 0x52#8 0x60#8 addr)

/-- ASYNC_FAIL with a status and the first failing address (R277). -/
def State.asyncFail (s : State) (o : Op) (status : BitVec 8) (va : Dword) : State :=
  s.report o .asyncFail (status ++ va.extractLsb' 0 56) (s.opRec o 0x20#8 status va)

/-! ### Outstanding operations (R43, R47) -/

/-- The fibre that issued an operation, while it lives. -/
def State.issuer? (s : State) (o : Op) : Option Fibre :=
  match s.fibre? o.fib with
  | some f => if f.inc = o.inc then some f else none
  | none => none

/-- Registers that outstanding operations of a fibre will write. -/
def State.busyRegs (s : State) (r : FRef) (inc : Nat) : List Nat :=
  (s.ops.filter fun o => o.fib == r && o.inc == inc).flatMap (·.dst)

/-- The counter that HINT.SEL selects (R43). -/
def Fibre.counter (f : Fibre) (h : Hdr) : Option (BitVec 4) :=
  let k := if h.sel then f.pos.setb else f.pos.seta
  if k = 15#4 then none else some k

/-- The counter is at 63 (R43). -/
def Fibre.full (f : Fibre) (k : Option (BitVec 4)) : Bool := (k.map fun n => f.ctr n == 63#6).getD false

/-- Issue an operation of the fibre that issues: it takes its counter, and its identity in issue order. -/
def State.addOp (s : State) (g : Group) (f : Fibre) (k : Option (BitVec 4)) (kind : OpKind) (dst : List Nat := [])
    (sg : Nat := 0) (rd : List (Nat × Nat) := []) (wr : List (Nat × Nat) := []) (nodrain : Bool := false)
    (used : List (Nat × Nat) := []) : State :=
  let o : Op := { id := s.nextId, fib := s.cur, inc := f.inc, ctr := k, pc := f.pos.pc, core := g.coreOr0, ctx := g.ctx
                  dst, sg, rd, wr, nodrain, used, kind }
  let s1 := { s with ops := s.ops ++ [o], nextId := s.nextId + 1 }
  match k with
  | none => s1
  | some c => s1.updFibre s.cur fun v => v.setCtr c (v.ctr c + 1#6)

def State.op? (s : State) (id : Nat) : Option Op := s.ops.find? fun o => o.id == id
def State.setOp (s : State) (o : Op) : State := { s with ops := s.ops.map fun x => if x.id == o.id then o else x }
def State.dropOp (s : State) (id : Nat) : State := { s with ops := s.ops.filter fun o => o.id != id }

/-- Act on the fibre that issued an operation, if it still lives. -/
def State.onIssuer (s : State) (o : Op) (u : Fibre → Fibre) : State :=
  s.updFibre o.fib fun f => if f.inc = o.inc then u f else f

/-- The counter's decrement (R43). -/
def Fibre.uncount (f : Fibre) (k : Option (BitVec 4)) : Fibre :=
  match k with
  | none => f
  | some c => f.setCtr c (f.ctr c - 1#6)

/-- DBG_STAT: BUSY, DEFERRED and the result (R391). -/
def dbgStatus (busy deferred : Bool) (r : Nat) : Dword :=
  dw ((if busy then 2 ^ 63 else 0) + (if deferred then 4 else 0) + r)

def regRange (d n : Nat) : List Nat := (List.range n).map fun i => d + i

/-- The lane registers and predicates that an offer's result goes to. -/
def Offer.dst : Offer → List Nat × List Nat
  | .xchg _ _ _ d wide => (regRange d (if wide then 2 else 1), [])
  | .vote mode _ d => if mode == .ballot then ([d], []) else ([], [d])
  | .red _ _ _ d => ([d], [])
  | .claim _ d => ([d], [])
  | .surr _ d => ([d], [])

/-- What the wait of a fibre will write as it ends (R392). -/
def Group.pendingD (x : Group) (n : Nat) (f : Fibre) : List Nat × List Nat :=
  match f.stat with
  | .wait .rendezvous => ((x.rvs.findSome? fun v => if v.rank == n / 32 then
      (v.members.find? fun q => q.lane == n % 32 && q.inc == f.inc).bind (·.offer) else none).map Offer.dst).getD ([], [])
  | .wait .claim => (x.claims.flatMap fun c => if c.rank == n / 32 then
      (c.members.filter fun m => m.1 == n % 32).map (·.2) else [], [])
  | .wait (.join _ (some p)) => ([], [p.toNat])
  | .wait (.abar _ p) => ([], [p.toNat])
  | .wait (.step _ p) => ([], [p.toNat])
  | .wait (.fork _ d) => ([d], [])
  | _ => ([], [])

/-- A lane register or a predicate of a fibre has an outstanding write. -/
def State.dbgBusy (s : State) (r : FRef) (f : Fibre) (pred : Bool) (k : Nat) : Bool :=
  let p := ((s.group? r.g).map fun x => x.pendingD r.f f).getD ([], [])
  if pred then p.2.contains k else (s.busyRegs r f.inc).contains k || p.1.contains k

/-- A debugger access that waited for an outstanding write is performed once none is left (R392). -/
def State.settleDbg (s : State) : State :=
  match s.dbgWait with
  | none => s
  | some w =>
    match s.fibre? w.fib with
    | none => { s with dbgWait := none, regs := { s.regs with dbgStat := dbgStatus false false 2 } }
    | some f =>
      if s.dbgBusy w.fib f w.pred w.reg then s else
      match w.value with
      | none => { s with dbgWait := none, regs := { s.regs with
          dbgStat := dbgStatus false false 0
          dbgData := if w.pred then dw (f.p (BitVec.ofNat 4 w.reg)).toNat else 0#32 ++ f.r w.reg } }
      | some v =>
        let set (x : Fibre) : Fibre :=
          if w.pred then x.setP (BitVec.ofNat 4 w.reg) (v.getLsbD 0) else x.setR w.reg (v.setWidth 32)
        { s.updFibre w.fib set with dbgWait := none, regs := { s.regs with dbgStat := dbgStatus false true 0 } }

/-- Completion: the operation is outstanding no more, and its counter is decremented. -/
def State.finish (s : State) (o : Op) : State := (s.dropOp o.id).onIssuer o fun f => f.uncount o.ctr

/-- Completion with a register result and flags; a fibre that has ended discards them (R118). -/
def State.land (s : State) (o : Op) (d n v : Nat) (flags : BitVec 7) : State :=
  (s.onIssuer o fun f => (f.setN d n v).lateFlags o.ctr flags).finish o

/-- An earlier operation of the fibre, not among those that FENCE leaves out, is outstanding (R340 step 1). -/
def State.undrained (s : State) (r : FRef) (f : Fibre) : Bool :=
  s.ops.any (fun o => o.fib == r && o.inc == f.inc && !o.nodrain) ||
  ((s.group? r.g).map fun x => x.trans.any fun t => t.fib == r && match t.ev with
    | .fetch _ => false
    | .put => false
    | _ => true).getD false

/-! ### Parking (R237) -/

/-- The 64 KiB page of an address. -/
def pageNo (va : Dword) : Nat := bits va.toNat 55 16

/-- Park a fibre in the subgroup of its sheaf. -/
def State.park (s : State) (r : FRef) (va : Dword) (page acc : Nat) : State :=
  s.updGroup r.g fun x =>
    let x1 := x.updFibre r.f fun f => { f with stat := .parked s.sheaf va page acc }
    let add (t : Subgroup) := if t.pages.contains page then t else { t with pages := page :: t.pages }
    if x.subs.any fun t => t.id == s.sheaf then { x1 with subs := x.subs.map fun t => if t.id == s.sheaf then add t else t }
    else { x1 with subs := x.subs ++ [⟨s.sheaf, [page]⟩] }

/-- A core is to ask for a page that a fibre of it has found missing, where no request of its own covers it (R238). -/
def Core.wantPage (co : Core) (asid : BitVec 16) (ctx page : Nat) (va : Dword) (acc : Nat) : Core :=
  if co.reqs.contains (asid, page) || co.want.any fun w => w.1 == ctx && w.2.1 == page then co
  else { co with want := co.want ++ [(ctx, page, if pageNo va = page then va else dw (65536 * page), acc)] }

def State.wantPage (s : State) (g : Nat) (va : Dword) (page acc : Nat) : State :=
  match s.group? g with
  | none => s
  | some x => s.setCore x.coreOr0 ((s.core x.coreOr0).wantPage (s.ctx x.ctx).asid x.ctx page va acc)

/-- A fibre parks, and its core asks for the page. -/
def State.parkAsk (s : State) (r : FRef) (va : Dword) (page acc : Nat) : State :=
  (s.park r va page acc).wantPage r.g va page acc

/-! ### Issue of a word -/

/-- What an instruction does in the fibre that issues it. -/
inductive Res where
  /-- it has its effect, and the fibre goes on to the next word -/
  | ok (s : State)
  /-- it has its effect, which has set the fibre's position or its wait -/
  | keep (s : State)
  /-- it has no effect but a trap (R371) -/
  | trap (s : State) (c : Cause) (value : Dword)
  /-- it has no effect yet: the fibre waits, and issues it afresh once what holds it is over (R47, R96) -/
  | stall (s : State) (w : Hold)
  /-- it has no effect: the fibre parks on a missing page (R237) -/
  | park (s : State) (va : Dword) (page acc : Nat)

/-- An operand to be checked (R34, R35, R37), in the order A, B, D. -/
inductive Chk where
  /-- a lane register of `n` registers -/
  | lane (r : Reg) (n : Nat)
  /-- `n` registers from a multiple of `k` (R94) -/
  | span (r : Reg) (n k : Nat)
  /-- a base register of Format S -/
  | direct (n : Nat)
  /-- a tile, descriptor or bank: its operand field, its number, and the number granted -/
  | granted (field : BitVec 16) (num count : Nat)

/-- How a word is to be judged before its own operation. -/
structure WordSpec where
  counts : Bool := false
  /-- it must be the last word of its body (R50, R377) -/
  lastWord : Bool := false
  /-- ILLEGAL_INSTR in a wave fibre -/
  gangOnly : Bool := false
  /-- PRIV unless TM = 1 -/
  inHandler : Bool := false
  chks : List Chk := []
  unit : Option UnitId := none

/-- The effective number of a lane-register operand (R34). -/
def Fibre.eff (f : Fibre) : Reg → Int
  | .v n => n.toNat
  | .idx i b => b.toNat + (f.idx i).toInt

/-- REG_RANGE of one operand: the number for sys.TADDR. -/
def Chk.range (alloc : Nat) (f : Fibre) : Chk → Option Dword
  | .lane r n =>
    let e := f.eff r
    if e < 0 ∨ e ≥ alloc then some (BitVec.ofInt 64 e)
    else if e + n > alloc then some (dw alloc) else none
  | .span r n _ =>
    let e := f.eff r
    if e < 0 ∨ e ≥ alloc then some (BitVec.ofInt 64 e)
    else if e + n > alloc then some (dw alloc) else none
  | .direct n => if n ≥ alloc then some (dw n) else none
  | .granted field num count => if num ≥ count then some (0#48 ++ field) else none

/-- ALIGN of one operand: only an indexed number can be misaligned (R35). -/
def Chk.align (f : Fibre) : Chk → Option Dword
  | .lane r n => if f.eff r % n ≠ 0 then some (BitVec.ofInt 64 (f.eff r)) else none
  | .span r _ k => if f.eff r % k ≠ 0 then some (BitVec.ofInt 64 (f.eff r)) else none
  | _ => none

/-- The lane registers an operand touches. -/
def Chk.regs (f : Fibre) : Chk → List Nat
  | .lane r n => (List.range n).map fun i => (f.eff r).toNat + i
  | .span r n _ => (List.range n).map fun i => (f.eff r).toNat + i
  | .direct n => [n]
  | .granted _ _ _ => []

/-- The first operand fault of R49. -/
def operandFault (alloc : Nat) (f : Fibre) (cs : List Chk) : Option (Cause × Dword) :=
  match cs.findSome? (Chk.range alloc f) with
  | some v => some (.regRange, v)
  | none => (cs.findSome? (Chk.align f)).map fun v => (.align, v)

/-- Room in a shared unit of a core (R103): the places of FATOM (R267), of the sweep unit (R183), of the matrix
array (R197), of the quantising store (R216) and of the lark cores (R329); no other unit has a stated number. DESIGN CHOICE
(assumption 58): a waiting WSWAP takes none of the array's 64 places. -/
def State.unitRoom (s : State) (core : Nat) (u : UnitId) : Bool :=
  match u with
  | .sweep => decide ((s.ops.filter fun o => (match o.kind with | .sweep _ => true | _ => false) &&
      ((s.group? o.fib.g).bind Group.sweepCore?) == some core).length < 16)
  | .matrix => decide ((s.ops.filter fun o => o.core == core && (match o.kind with
      | .wld .. => true
      | .mma .. => true
      | .azero _ => true
      | .ald .. => true
      | .ast .. => true
      | .amov .. => true
      | _ => false)).length < 64)
  | .qstore => decide ((s.ops.filter fun o => o.core == core && (match o.kind with
      | .qst .. => true
      | .qstp .. => true
      | .hdecl .. => true
      | .hsave .. => true
      | .hload .. => true
      | .hclr _ => true
      | _ => false)).length < 64)
  | .lark => !s.larkDown && decide ((s.ops.filter fun o => o.core == core && match o.kind with
      | .xfer x => (match x.kind with
        | .ctile _ => true
        | _ => false)
      | _ => false).length < 8)
  | .fatom => decide ((s.ops.filter fun o => o.core == core && (match o.kind with | .fatom .. => true | _ => false)).length < 16)
  | _ => true

/-- The fibre waits for a shared unit. -/
def State.awaitUnit (s : State) (u : UnitId) : State :=
  s.updFibre s.cur fun v => { v with stat := .wait (.unit u), since := s.cycle }

/-- Some fibre of the core waits for the unit, or has been granted its room and not used it. -/
def State.unitWaited (s : State) (core : Nat) (u : UnitId) : Bool :=
  s.groups.any fun p => p.2.loc == .resident core &&
    p.2.fibres.any fun q => q.2.stat == .wait (.unit u) || q.2.grant == some u

/-- Bits 95:32 of a word, for ILLEGAL_INSTR (R49). -/
def wordTop (i : Instr) : Dword := ((encodeWord i).map fun w => w.extractLsb' 32 64).getD 0#64

/-- The outcome of an issue in the state. -/
def Res.commit (r : FRef) (cycle : Nat) : Res → State
  | .ok s => s.updFibre r fun f => f.advance cycle
  | .keep s => s.updFibre r fun f => { f with grant := none }
  | .trap s c v => s.takeTrap r c v
  | .stall s w => s.updFibre r fun f => { f with stat := .wait (.hold w), since := cycle }
  | .park s va page acc => s.parkAsk r va page acc

/-- The issue of a word in a fibre, in the order of R49: ILLEGAL_INSTR in a wave, CLAUSE_FORM, the guard, PRIV, the
operands, then the interlock (R47), the counter's room (R43), the shared unit (R103), and the operation itself. -/
def issueWord (i : Instr) (h : Hdr) (w : Group → Fibre → WordSpec) (onFalse : State → State)
    (body : Group → Fibre → State → Res) (s : State) (g : Group) (f : Fibre) : Res :=
  let w := w g f
  if w.gangOnly && f.wave then .trap s .illegalInstr (wordTop i)
  else if f.pos.atHdr || (w.lastWord && f.pos.idx != f.pos.len) then .trap s .clauseForm f.pos.pc
  else if !f.guard h.guard then .ok (onFalse s)
  else if w.inHandler && !f.tm then .trap s .priv 0#64
  else match operandFault (g.allocation s.cur.f) f w.chks with
    | some (c, v) => .trap s c v
    | none =>
      let rs := w.chks.flatMap (Chk.regs f)
      if rs.any (s.busyRegs s.cur f.inc).contains then .stall s (.regs rs)
      else if w.counts && f.full (f.counter h) then .stall s (.room ((f.counter h).getD 0#4))
      else match w.unit with
        | some u =>
          if f.grant == some u || (s.unitRoom g.coreOr0 u && !s.unitWaited g.coreOr0 u) then body g f s
          else .keep (s.awaitUnit u)
        | none => body g f s

/-- Issue in the fibre that issues, if the state holds it; otherwise nothing happens. -/
def runWord (i : Instr) (h : Hdr) (w : Group → Fibre → WordSpec) (body : Group → Fibre → State → Res)
    (s : State) (onFalse : State → State := id) : Host.Outcome State Fault Refusal :=
  match s.group? s.cur.g with
  | none => .next s
  | some g =>
    match g.fibre? s.cur.f with
    | none => .next s
    | some f => .next ((issueWord i h w onFalse body s g f).commit s.cur s.cycle)

end Sys2Proof.Machine
end

