-- ==== Sys2Proof/Machine/Flags.lean ====
section
/-! DEFINITION. The sticky flags of sys.FLAGS (R79), and the integer results that set them (R143, R144, R173). -/

namespace Sys2Proof.Machine

abbrev Flags := BitVec 7

def fIV : Flags := 0x01
def fDZ : Flags := 0x02
def fOF : Flags := 0x04
def fUF : Flags := 0x08
def fNX : Flags := 0x10
def fSAT : Flags := 0x20
def fIOV : Flags := 0x40

def flagIf (b : Bool) (f : Flags) : Flags := if b then f else 0#7

/-- The least and the greatest value of an integer type (R143). -/
def Ty.minI (t : Ty) : Int := if t.isSigned then -(2 ^ (t.width - 1) : Nat) else 0
def Ty.maxI (t : Ty) : Int := if t.isSigned then (2 ^ (t.width - 1) : Nat) - 1 else (2 ^ t.width : Nat) - 1

/-- The value of a code of an integer type. -/
def Ty.toI (t : Ty) (v : Nat) : Int :=
  let w := t.width
  let u := v % 2 ^ w
  if t.isSigned ∧ u ≥ 2 ^ (w - 1) then (u : Int) - (2 ^ w : Nat) else u

/-- The code of an integer, modulo 2^w. -/
def Ty.ofI (t : Ty) (r : Int) : Nat := (r % (2 ^ t.width : Nat)).toNat

/-- An exact result written in type `t`: within range as it is; out of range clamped with SAT, or wrapped with IOV
(R143). -/
def intResult (t : Ty) (sat : Bool) (r : Int) : Nat × Flags :=
  if Ty.minI t ≤ r ∧ r ≤ Ty.maxI t then (Ty.ofI t r, 0#7)
  else if sat then (Ty.ofI t (if r < Ty.minI t then Ty.minI t else Ty.maxI t), fSAT)
  else (Ty.ofI t r, fIOV)

/-- IDIV (R144): quotient towards zero, with its edge cases. -/
def idivResult (t : Ty) (sat : Bool) (a b : Int) : Nat × Flags :=
  if b = 0 then (2 ^ t.width - 1, fIV)
  else if t.isSigned ∧ a = Ty.minI t ∧ b = -1 then
    if sat then (Ty.ofI t (Ty.maxI t), fSAT) else (Ty.ofI t (Ty.minI t), fIOV)
  else (Ty.ofI t (a.tdiv b), 0#7)

/-- IREM (R144). -/
def iremResult (t : Ty) (a b : Int) : Nat × Flags :=
  if b = 0 then (Ty.ofI t a, fIV) else (Ty.ofI t (a - b * a.tdiv b), 0#7)

end Sys2Proof.Machine
end

