-- ==== Sys2Proof/Machine/Operands.lean ====
section
/-! DEFINITION. Operand forms (R33 to R37, R60): what an operand reads, the address a memory operand forms, the checks
an operand asks for, and the frames of the instructions that act on one fibre's registers alone. -/

namespace Sys2Proof.Machine

/-- The number of the first register a lane operand names, once it is known to lie in the allocation. -/
def Fibre.reg (f : Fibre) (r : Reg) : Nat := (f.eff r).toNat

/-- A lane operand of type `t`, as a code of that type (R35, R68). -/
def Fibre.rd (f : Fibre) (t : Ty) (r : Reg) : Nat := f.rN (f.reg r) t.regs % 2 ^ t.width

/-- A source of an integer or raw type: an immediate is sign-extended to its width (R36). -/
def Fibre.src (f : Fibre) (t : Ty) : Src → Nat
  | .reg r => f.rd t r
  | .imm k => (k.toInt % (2 ^ t.width : Nat)).toNat

/-- A source as an integer of type `t`. -/
def Fibre.rdI (f : Fibre) (t : Ty) (x : Src) : Int :=
  Ty.toI t (f.src t x)

/-- A lane operand as a 64-bit pair. -/
def Fibre.rdPair (f : Fibre) (r : Reg) : Dword := f.pair (f.reg r)

/-- The displacement of a memory operand: an immediate, or a register read as s32, sign-extended (R60, R245). -/
def Fibre.disp (f : Fibre) : Src → Dword
  | .reg r => (f.r (f.reg r)).signExtend 64
  | .imm k => k.signExtend 64

/-- The address a memory operand with a base pair forms (R245). -/
def Fibre.va (f : Fibre) (m : Mem) : Dword := f.rdPair m.base + f.disp m.off

/-- Write a result of `k` registers to operand D. -/
def Fibre.wr (f : Fibre) (r : Reg) (k v : Nat) : Fibre := f.setN (f.reg r) k v

/-- Checks of a lane operand of `n` registers, and of a source. -/
def Reg.chk (r : Reg) (n : Nat) : List Chk := [.lane r n]
def Src.chk (x : Src) (n : Nat) : List Chk :=
  match x with
  | .reg r => [.lane r n]
  | .imm _ => []

/-- Checks of a memory operand: a base pair (or a single base register), and the offset. -/
def Mem.chk (m : Mem) (n : Nat) : List Chk := Reg.chk m.base n ++ Src.chk m.off 1

/-- R37: a tile, descriptor or bank against the group's grant. -/
def tileChk (g : Group) (t : BitVec 4) : List Chk := [.granted (tileCode t) t.toNat g.lr.na]
def bufChk (g : Group) (n : BitVec 6) : List Chk := [.granted (bufCode n) n.toNat g.lr.nb]
def bankChk (g : Group) (b : BitVec 3) : List Chk := [.granted (bankCode b) b.toNat g.lr.nh]

/-- An instruction that acts on its own fibre's registers, from the values read at issue (R83, R139). -/
def laneWord (i : Instr) (h : Hdr) (chks : List Chk) (u : Fibre → Fibre) (s : State) :
    Host.Outcome State Fault Refusal :=
  runWord i h (fun _ _ => { chks }) (fun _ f s => .ok (s.updFibre s.cur fun _ => u f)) s

/-- A lane result with its flags. -/
def Fibre.result (f : Fibre) (d : Reg) (k : Nat) (x : Nat × BitVec 7) : Fibre := (f.wr d k x.1).addFlags x.2

/-- D := fn A B in type `t`. -/
def laneAB (i : Instr) (h : Hdr) (d : Reg) (a b : Src) (t : Ty) (fn : Fibre → Nat × BitVec 7) (s : State) :
    Host.Outcome State Fault Refusal :=
  laneWord i h (Src.chk a t.regs ++ Src.chk b t.regs ++ Reg.chk d t.regs) (fun f => f.result d t.regs (fn f)) s

/-- D := fn A in type `t`. -/
def laneA (i : Instr) (h : Hdr) (d : Reg) (a : Src) (t : Ty) (fn : Fibre → Nat × BitVec 7) (s : State) :
    Host.Outcome State Fault Refusal :=
  laneWord i h (Src.chk a t.regs ++ Reg.chk d t.regs) (fun f => f.result d t.regs (fn f)) s

end Sys2Proof.Machine
end

