-- ==== Sys2Proof/Machine/Integer.lean ====
section
/-! DEFINITION. Moves, index registers, integer arithmetic, logic, bit fields, addresses, compares and predicates
(R140 to R151). Every one acts on its own fibre's registers, from the values read at issue (R139). -/

namespace Sys2Proof.Machine

abbrev Out := Host.Outcome State Fault Refusal

/-! ### Moves and index registers (R140 to R142) -/

def execMov (h : Hdr) (d : Reg) (a : Src) (ty : Ty) (s : State) : Out :=
  laneA (.mov h d a ty) h d a ty (fun f => (f.src ty a, 0#7)) s

def execMovi (h : Hdr) (d : Reg) (wide : Bool) (imm : BitVec 40) (s : State) : Out :=
  let k := if wide then 2 else 1
  laneWord (.movi h d wide imm) h (Reg.chk d k) (fun f => f.wr d k (imm.signExtend 64).toNat) s

def execXset (h : Hdr) (i : BitVec 2) (imm : BitVec 40) (s : State) : Out :=
  laneWord (.xset h i imm) h [] (fun f => f.setIdx i (imm.extractLsb' 0 16)) s

/-- The sum modulo 2^16, with IOV where it leaves the range (R141). -/
def execXadd (h : Hdr) (i : BitVec 2) (imm : BitVec 40) (s : State) : Out :=
  laneWord (.xadd h i imm) h []
    (fun f =>
      let (v, fl) := intResult .s16 false ((f.idx i).toInt + imm.toInt)
      (f.setIdx i (BitVec.ofNat 16 v)).addFlags fl) s

def execXmov (h : Hdr) (x : XMov) (s : State) : Out :=
  match x with
  | .toIdx i a => laneWord (.xmov h x) h (Src.chk a 1) (fun f => f.setIdx i (BitVec.ofNat 16 (f.src .b32 a))) s
  | .fromIdx i d => laneWord (.xmov h x) h (Reg.chk d 1) (fun f => f.wr d 1 ((f.idx i).signExtend 32).toNat) s

/-- D is read at issue and keeps its value where the predicate does not select (R142). -/
def execSel (h : Hdr) (d : Reg) (a : Src) (p : BitVec 4) (ty : Ty) (inv : Bool) (s : State) : Out :=
  laneWord (.sel h d a p ty inv) h (Src.chk a ty.regs ++ Reg.chk d ty.regs)
    (fun f => if f.p p != inv then f.wr d ty.regs (f.src ty a) else f) s

/-! ### Integer arithmetic (R143, R144) -/

def execIadd (h : Hdr) (d : Reg) (a b : Src) (ty : Ty) (sat : Bool) (s : State) : Out :=
  laneAB (.iadd h d a b ty sat) h d a b ty (fun f => intResult ty sat (f.rdI ty a + f.rdI ty b)) s

def execIsub (h : Hdr) (d : Reg) (a b : Src) (ty : Ty) (sat : Bool) (s : State) : Out :=
  laneAB (.isub h d a b ty sat) h d a b ty (fun f => intResult ty sat (f.rdI ty a - f.rdI ty b)) s

def execImul (h : Hdr) (d : Reg) (a b : Src) (ty : Ty) (sat : Bool) (s : State) : Out :=
  laneAB (.imul h d a b ty sat) h d a b ty (fun f => intResult ty sat (f.rdI ty a * f.rdI ty b)) s

/-- Bits 2w − 1 to w of the exact product; no flag. -/
def execImulh (h : Hdr) (d : Reg) (a b : Src) (ty : Ty) (s : State) : Out :=
  laneAB (.imulh h d a b ty) h d a b ty
    (fun f => (Ty.ofI ty ((f.rdI ty a * f.rdI ty b).fdiv (2 ^ ty.width : Nat)), 0#7)) s

def execImad (h : Hdr) (d : Reg) (a b : Src) (ty : Ty) (sat : Bool) (s : State) : Out :=
  laneAB (.imad h d a b ty sat) h d a b ty
    (fun f => intResult ty sat (f.rdI ty a * f.rdI ty b + f.rdI ty (.reg d))) s

def execIdiv (h : Hdr) (d : Reg) (a b : Src) (ty : Ty) (sat : Bool) (s : State) : Out :=
  laneAB (.idiv h d a b ty sat) h d a b ty (fun f => idivResult ty sat (f.rdI ty a) (f.rdI ty b)) s

def execIrem (h : Hdr) (d : Reg) (a b : Src) (ty : Ty) (s : State) : Out :=
  laneAB (.irem h d a b ty) h d a b ty (fun f => iremResult ty (f.rdI ty a) (f.rdI ty b)) s

def execImin (h : Hdr) (d : Reg) (a b : Src) (ty : Ty) (s : State) : Out :=
  laneAB (.imin h d a b ty) h d a b ty (fun f => intResult ty false (min (f.rdI ty a) (f.rdI ty b))) s

def execImax (h : Hdr) (d : Reg) (a b : Src) (ty : Ty) (s : State) : Out :=
  laneAB (.imax h d a b ty) h d a b ty (fun f => intResult ty false (max (f.rdI ty a) (f.rdI ty b))) s

def execIabs (h : Hdr) (d : Reg) (a : Src) (ty : Ty) (sat : Bool) (s : State) : Out :=
  laneA (.iabs h d a ty sat) h d a ty (fun f => intResult ty sat ((f.rdI ty a).natAbs : Int)) s

def execIneg (h : Hdr) (d : Reg) (a : Src) (ty : Ty) (sat : Bool) (s : State) : Out :=
  laneA (.ineg h d a ty sat) h d a ty (fun f => intResult ty sat (-(f.rdI ty a))) s

/-! ### Logic, shifts, bit fields (R145 to R147) -/

def execAnd (h : Hdr) (d : Reg) (a b : Src) (ty : Ty) (s : State) : Out :=
  laneAB (.and h d a b ty) h d a b ty (fun f => (f.src ty a &&& f.src ty b, 0#7)) s

def execOr (h : Hdr) (d : Reg) (a b : Src) (ty : Ty) (s : State) : Out :=
  laneAB (.or h d a b ty) h d a b ty (fun f => (f.src ty a ||| f.src ty b, 0#7)) s

def execXor (h : Hdr) (d : Reg) (a b : Src) (ty : Ty) (s : State) : Out :=
  laneAB (.xor h d a b ty) h d a b ty (fun f => (f.src ty a ^^^ f.src ty b, 0#7)) s

/-- The complement of a code of `w` bits. -/
def complement (w v : Nat) : Nat := 2 ^ w - 1 - v % 2 ^ w

def execNot (h : Hdr) (d : Reg) (a : Src) (ty : Ty) (s : State) : Out :=
  laneA (.not h d a ty) h d a ty (fun f => (complement ty.width (f.src ty a), 0#7)) s

def execAndn (h : Hdr) (d : Reg) (a b : Src) (ty : Ty) (s : State) : Out :=
  laneAB (.andn h d a b ty) h d a b ty (fun f => (f.src ty a &&& complement ty.width (f.src ty b), 0#7)) s

/-- A shift: the count is B read as z32. -/
def shiftWord (i : Instr) (h : Hdr) (d : Reg) (a b : Src) (ty : Ty) (fn : Nat → Nat → Nat) (s : State) : Out :=
  laneWord i h (Src.chk a ty.regs ++ Src.chk b 1 ++ Reg.chk d ty.regs)
    (fun f => f.wr d ty.regs (fn (f.src ty a) (f.src .z32 b))) s

/-- a shifted left by n, in `w` bits. -/
def shlN (w a n : Nat) : Nat := if n ≥ w then 0 else a * 2 ^ n % 2 ^ w
def shrN (w a n : Nat) : Nat := if n ≥ w then 0 else a / 2 ^ n
/-- Shift right with copies of bit w − 1. -/
def sarN (t : Ty) (a n : Nat) : Nat :=
  Ty.ofI t ((Ty.toI (if t.width = 64 then .s64 else .s32) a).fdiv (2 ^ min n t.width : Nat))
def rotlN (w a n : Nat) : Nat := (a * 2 ^ (n % w) + a / 2 ^ (w - n % w)) % 2 ^ w

def execShl (h : Hdr) (d : Reg) (a b : Src) (ty : Ty) (s : State) : Out :=
  shiftWord (.shl h d a b ty) h d a b ty (shlN ty.width) s

def execShr (h : Hdr) (d : Reg) (a b : Src) (ty : Ty) (s : State) : Out :=
  shiftWord (.shr h d a b ty) h d a b ty (shrN ty.width) s

def execSar (h : Hdr) (d : Reg) (a b : Src) (ty : Ty) (s : State) : Out :=
  shiftWord (.sar h d a b ty) h d a b ty (sarN ty) s

def execRotl (h : Hdr) (d : Reg) (a b : Src) (ty : Ty) (s : State) : Out :=
  shiftWord (.rotl h d a b ty) h d a b ty (rotlN ty.width) s

/-- The number of 1 bits among the low `n`. -/
def popN (v : Nat) : Nat → Nat
  | 0 => 0
  | n + 1 => (if v.testBit n then 1 else 0) + popN v n

/-- The low `n` bits, reversed. -/
def revN (v : Nat) : Nat → Nat
  | 0 => 0
  | n + 1 => (if v.testBit 0 then 2 ^ n else 0) + revN (v / 2) n

/-- POPC and CLZ write one register (R146). -/
def execPopc (h : Hdr) (d a : Reg) (ty : Ty) (s : State) : Out :=
  laneWord (.popc h d a ty) h (Reg.chk a ty.regs ++ Reg.chk d 1) (fun f => f.wr d 1 (popN (f.rd ty a) ty.width)) s

def execClz (h : Hdr) (d a : Reg) (ty : Ty) (s : State) : Out :=
  laneWord (.clz h d a ty) h (Reg.chk a ty.regs ++ Reg.chk d 1)
    (fun f => f.wr d 1 (runLeadingZeros (f.rd ty a) ty.width)) s
where
  /-- Zeros above the highest 1 among the low `n` bits. -/
  runLeadingZeros (v : Nat) : Nat → Nat
    | 0 => 0
    | n + 1 => if v.testBit n then 0 else 1 + runLeadingZeros v n

def execBrev (h : Hdr) (d a : Reg) (ty : Ty) (s : State) : Out :=
  laneWord (.brev h d a ty) h (Reg.chk a ty.regs ++ Reg.chk d ty.regs)
    (fun f => f.wr d ty.regs (revN (f.rd ty a) ty.width)) s

/-- BFX: the field from bit `pos` up to `top`, extended by the type; 0 where it is empty (R147). -/
def bfxN (t : Ty) (a pos len : Nat) : Nat :=
  let w := t.width
  if pos ≥ w then 0 else
  let n := min (pos + len) w - pos
  let x := a / 2 ^ pos % 2 ^ n
  if t.isSigned ∧ x ≥ 2 ^ (n - 1) then x + (2 ^ w - 2 ^ n) else x

/-- BFI: the low bits of A in the field of D; D as it was where the field is empty. -/
def bfiN (w d a pos len : Nat) : Nat :=
  if pos ≥ w then d else
  let n := min (pos + len) w - pos
  d % 2 ^ pos + a % 2 ^ n * 2 ^ pos + d / 2 ^ (pos + n) * 2 ^ (pos + n)

def execBfx (h : Hdr) (d a : Reg) (b : Src) (ty : Ty) (len : BitVec 8) (s : State) : Out :=
  laneWord (.bfx h d a b ty len) h (Reg.chk a ty.regs ++ Src.chk b 1 ++ Reg.chk d ty.regs)
    (fun f => f.wr d ty.regs (bfxN ty (f.rd ty a) (f.src .z32 b) len.toNat)) s

def execBfi (h : Hdr) (d : Reg) (a b : Src) (ty : Ty) (len : BitVec 8) (s : State) : Out :=
  laneWord (.bfi h d a b ty len) h (Src.chk a ty.regs ++ Src.chk b 1 ++ Reg.chk d ty.regs)
    (fun f => f.wr d ty.regs (bfiN ty.width (f.rd ty d) (f.src ty a) (f.src .z32 b) len.toNat)) s

/-! ### Addresses (R148) -/

def execAadd (h : Hdr) (d a : Reg) (b : Src) (ty : Ty) (s : State) : Out :=
  laneWord (.aadd h d a b ty) h (Reg.chk a 2 ++ Src.chk b 1 ++ Reg.chk d 2)
    (fun f => f.wr d 2 (Ty.ofI .z64 ((f.rdPair a).toNat + f.rdI ty b))) s

def execAmad (h : Hdr) (d : Reg) (a b : Src) (ty : Ty) (s : State) : Out :=
  laneWord (.amad h d a b ty) h (Src.chk a 1 ++ Src.chk b 1 ++ Reg.chk d 2)
    (fun f => f.wr d 2 (Ty.ofI .z64 ((f.rdPair d).toNat + f.rdI ty a * f.rdI ty b))) s

/-! ### Compares and predicates (R149 to R151) -/

def icmp (c : Cond) (a b : Int) : Bool :=
  match c with
  | .eq => a == b
  | .ne => a != b
  | .lt => decide (a < b)
  | .le => decide (a ≤ b)
  | .gt => decide (b < a)
  | .ge => decide (b ≤ a)
  | _ => false

def execIcmp (h : Hdr) (d : BitVec 4) (a b : Src) (ty : Ty) (c : Cond) (s : State) : Out :=
  laneWord (.icmp h d a b ty c) h (Src.chk a ty.regs ++ Src.chk b ty.regs)
    (fun f => f.setP d (icmp c (f.rdI ty a) (f.rdI ty b))) s

/-- Bit 2 p[A] + p[B] of the table (R150). -/
def execPlop (h : Hdr) (d a b lut : BitVec 4) (s : State) : Out :=
  laneWord (.plop h d a b lut) h []
    (fun f => f.setP d (lut.getLsbD (2 * (f.p a).toNat + (f.p b).toNat))) s

def execPmov (h : Hdr) (x : PMov) (s : State) : Out :=
  match x with
  | .get d => laneWord (.pmov h x) h (Reg.chk d 1) (fun f => f.wr d 1 f.preds.toNat) s
  | .set a m => laneWord (.pmov h x) h (Reg.chk a 1)
      (fun f => { f with preds := (f.preds &&& ~~~m) ||| ((f.r (f.reg a)).extractLsb' 0 12 &&& m) }) s

end Sys2Proof.Machine
end

