-- ==== Sys2Proof/Machine/Issue.lean ====
section
/-! DEFINITION. Fetching the word of a fibre that the sheaf former has picked (R22, R23, R49, R101). -/

namespace Sys2Proof.Machine

/-- How a fetch ends. -/
inductive Fetched where
  | word (w : IWord)
  | trap (c : Cause) (value : Dword)
  /-- a page is missing: an address in it -/
  | miss (va : Dword)
  /-- the module does not answer (assumption 13) -/
  | wait (m : Nat)
  deriving DecidableEq, Repr

/-- `n` code bytes that lie in one page, read past the near data cache (R22). -/
def State.codeBytes (s : State) (core : Nat) (asid : BitVec 16) (pc va : Dword) (n : Nat) :
    (List Byte ⊕ Fetched) × State :=
  if va.toNat ≥ 2 ^ 56 then (.inr (.trap .pageNotPresent pc), s) else
  match s.lookup core asid (s.genOf asid) va with
  | (none, s1) => (.inr (.miss va), s1)
  | (some p, s1) =>
    match p.tier with
    | .near => if p.xp then (.inl (s1.sramRead (s1.nearOff p va) n), s1) else (.inr (.trap .permission pc), s1)
    | .far =>
      if ¬ p.xp ∨ s1.keyOf p.key = none then (.inr (.trap .permission pc), s1)
      else if s1.moduleUp (p.target / 2 ^ 24) then (.inl (s1.farRead p.key (farAddr p va) n), s1)
      else (.inr (.wait (p.target / 2 ^ 24)), s1)
    | _ => (.inr (.trap .permission pc), s1)

/-- The word at an address: the 12 bytes may lie in two pages. Where both are missing, the fibre parks for the first, and again
for the second (DESIGN CHOICE, assumption 42). -/
def State.readWord (s : State) (core : Nat) (asid : BitVec 16) (pc : Dword) : Fetched × State :=
  let n := min 12 (65536 - pc.toNat % 65536)
  match s.codeBytes core asid pc pc n with
  | (.inr r, s1) => (r, s1)
  | (.inl lo, s1) =>
    if n = 12 then (.word (BitVec.ofNat 96 (leNat lo)), s1) else
    match s1.codeBytes core asid pc (pc + dw n) (12 - n) with
    | (.inr r, s2) => (r, s2)
    | (.inl hi, s2) => (.word (BitVec.ofNat 96 (leNat (lo ++ hi))), s2)

/-- Fetch for a context on a core: a word of the fetch buffer, or the word in memory, which the buffer may then hold
(R22). -/
def State.fetch (s : State) (core ctx : Nat) (pc : Dword) : Fetched × State :=
  let held := (s.core core).fbuf.find? fun w => w.1 == ctx && w.2.1 == pc.toNat
  match held with
  | some w => if s.choose 4 2 = 0 then (.word w.2.2, s) else s.readWord core (s.ctx ctx).asid pc
  | none =>
    match s.readWord core (s.ctx ctx).asid pc with
    | (.word w, s1) =>
      let co := s1.core core
      let held : Core := { co with fbuf := (ctx, pc.toNat, w) :: co.fbuf }
      let cs : Tab Core := if s1.choose 5 2 = 0 then s1.cores else Tab.set {} core held s1.cores
      (.word w, { s1 with cores := cs })
    | r => r

/-- A fibre of a resident group that may issue now (R96). -/
def mayIssue (x : Group) (f : Fibre) : Bool :=
  x.core?.isSome && !x.stopping && !x.stuck && !f.stopped && f.stat == .ready

/-- A fibre that has issued the word of a debugger's step stops: with STEP_SINGLE, or, where debugging is not enabled,
without a cause (R390, R391). -/
def State.stepDone (s : State) (r : FRef) (x : Group) : State :=
  if x.dbg.getLsbD 63 then s.takeTrap r .stepSingle 0#64
  else s.updFibre r fun f => { f with stopped := true, stepping := .off }

/-- The sheaf of a word that carries HINT.KEEP (R23, R25). -/
def keepOf (w : IWord) (sheaf : Nat) : Option Nat := if !isHeader w && w.getLsbD 73 then some sheaf else none

/-- The first issue of a group on its core drops the context's fetched words (R22). -/
def State.firstIssue (s : State) (g : Nat) (x : Group) : State :=
  if x.fresh then (s.dropFetched x.coreOr0 x.ctx).updGroup g fun y => { y with fresh := false } else s

/-- The turn of one picked fibre: the instruction it issues, or none where it issues nothing or its fetch traps or
parks. A context whose record breaks the table of R350 runs nothing. -/
def State.issuePick (s : State) (p : Pick) : Option Instr × State :=
  let s := { s with cur := p.fib, sheaf := p.sheaf }
  match s.group? p.fib.g with
  | none => (none, s)
  | some x =>
    match x.fibre? p.fib.f with
    | none => (none, s)
    | some f =>
      if !mayIssue x f || !s.ctxOk x.ctx then (none, s) else
      let s := s.firstIssue p.fib.g x
      match f.absent with
      | some va => (none, (s.updFibre p.fib fun v => { v with absent := none }).takeTrap p.fib .pageNotPresent va)
      | none =>
        if f.stepping = .issued then (none, s.stepDone p.fib x)
        else if f.pos.pc.toNat % 12 ≠ 0 then (none, s.takeTrap p.fib .clauseForm f.pos.pc)
        else
          match s.fetch x.coreOr0 x.ctx f.pos.pc with
          | (.trap c v, s1) => (none, s1.takeTrap p.fib c v)
          | (.miss va, s1) => (none, s1.parkAsk p.fib f.pos.pc (pageNo va) 4)
          | (.wait m, s1) => (none, (Res.stall s1 (.code m)).commit p.fib s1.cycle)
          | (.word w, s1) =>
            match decodeWord w with
            | some i => (some i, s1.updFibre p.fib fun v => { v with keeping := keepOf w p.sheaf })
            | none => (none, s1.takeTrap p.fib .illegalInstr (w.extractLsb' 32 64))

/-- The first of a list of picks that are due in a cycle on a core, lower groups and fibre numbers first: what acts in
one cycle acts in the order of the fibres (R117, R123). -/
def firstPick (core cycle : Nat) (ps : List Pick) : Option Pick :=
  (ps.filter fun p => p.core == core && decide (p.cyc ≤ cycle)).foldl (fun b p => match b with
    | none => some p
    | some q => if p.fib.g < q.fib.g ∨ (p.fib.g = q.fib.g ∧ p.fib.f < q.fib.f) then some p else b) none

/-- One fibre issues: a core is chosen freely among those with fibres to issue in this cycle, and issues all of them before
another agent's turn (assumption 4). What one sheaf looks up it looks up once (R233). -/
def State.issueNext (s : State) : Option Instr × State :=
  let cores := ((s.issue.filter fun p => decide (p.cyc ≤ s.cycle)).map (·.core)).eraseDups
  let c := s.burst.getD ((cores[s.choose 6 cores.length]?).getD 0)
  match firstPick c s.cycle s.issue with
  | none => (none, { s with burst := none })
  | some p =>
    let left := s.issue.erase p
    ({ s with issue := left, burst := (firstPick c s.cycle left).map fun _ => c
              looked := if s.burst.isSome then s.looked else [] }).issuePick p

end Sys2Proof.Machine
end

