-- ==== Sys2Proof/Machine/Control.lean ====
section
/-! DEFINITION. Clause headers (R39 to R46), NOP and YIELD (R106), and control transfer (R109). -/

namespace Sys2Proof.Machine

/-! ### Clauses -/

/-- A clause header: it waits for the counters of WAIT, then its body begins (R42). In a body it raises CLAUSE_FORM
(R41). The fibre's age counts from the next cycle, as R105 says for YLD and R102 for every issue (DEDUCED, assumption 57). -/
def headerRes (c : Clause) (s : State) (f : Fibre) : Res :=
  if !f.pos.atHdr then .trap s .clauseForm f.pos.pc
  else if (List.range 12).any fun n => c.wait.getLsbD n && f.ctr (BitVec.ofNat 4 n) != 0#6 then .stall s (.ctrs c.wait)
  else .keep (s.updFibre s.cur fun v => (v.observe c.wait).goTo
    { pc := f.pos.pc + 12#64, atHdr := false, seta := c.seta, setb := c.setb, len := c.len, idx := 0#3 } s.cycle)

def execClause (c : Clause) (s : State) : Out :=
  match s.fibre? s.cur with
  | none => .next s
  | some f => .next ((headerRes c s f).commit s.cur s.cycle)

def execNop (h : Hdr) (s : State) : Out := laneWord (.nop h) h [] id s

/-- The fibre is left out of the round that follows (R106). -/
def execYield (h : Hdr) (s : State) : Out := laneWord (.yield h) h [] (fun f => { f with skip := true }) s

/-! ### Control transfer (R50, R51, R108, R109) -/

/-- Pass control to a target: its word is fetched as part of the transfer and must be a clause header. -/
def transfer (target : Dword) (u : Fibre → Fibre) (g : Group) (s : State) : Res :=
  if target.toNat % 12 ≠ 0 then .trap s .clauseForm target
  else match s.fetch g.coreOr0 g.ctx target with
    | (.word w, s1) =>
      if isHeader w then .keep (s1.updFibre s1.cur fun f => (u f).goTo { pc := target } s1.cycle)
      else .trap s1 .clauseForm target
    | (.trap c v, s1) => .trap s1 c v
    | (.miss va, s1) => .park s1 target (pageNo va) 4
    | (.wait m, s1) => .stall s1 (.code m)

/-- A target read from a pair must have bits 63:56 zero (R108). -/
def transferPair (target : Dword) (g : Group) (s : State) : Res :=
  if target.toNat ≥ 2 ^ 56 then .trap s .clauseForm target else transfer target id g s

/-- PC + 12 × IMM (R51). -/
def branchTarget (f : Fibre) (imm : BitVec 40) : Dword := f.pos.pc + 12#64 * imm.signExtend 64

def execBra (h : Hdr) (imm : BitVec 40) (s : State) : Out :=
  runWord (.bra h imm) h (fun _ _ => { lastWord := true }) (fun g f s => transfer (branchTarget f imm) id g s) s

def execBrx (h : Hdr) (a : Reg) (s : State) : Out :=
  runWord (.brx h a) h (fun _ _ => { lastWord := true, chks := Reg.chk a 2 })
    (fun g f s => transferPair (f.rdPair a) g s) s

/-- The return address is the word after the body; it is written only when the transfer takes place. -/
def execCall (h : Hdr) (d : Reg) (imm : BitVec 40) (s : State) : Out :=
  runWord (.call h d imm) h (fun _ _ => { lastWord := true, chks := Reg.chk d 2 })
    (fun g f s => transfer (branchTarget f imm) (fun v => v.wr d 2 (f.pos.pc + 12#64).toNat) g s) s

def execRet (h : Hdr) (a : Reg) (s : State) : Out :=
  runWord (.ret h a) h (fun _ _ => { lastWord := true, chks := Reg.chk a 2 })
    (fun g f s => transferPair (f.rdPair a) g s) s

/-! ### Helpers of the sheaf former -/

/-- Insert by a key, after equal keys. -/
def insertBy {α : Type} (lt : α → α → Bool) (x : α) : List α → List α
  | [] => [x]
  | y :: t => if lt x y then x :: y :: t else y :: insertBy lt x t

/-- A stable sort. -/
def sortBy {α : Type} (lt : α → α → Bool) : List α → List α
  | [] => []
  | x :: t => insertBy (fun a b => !lt b a) x (sortBy lt t)

/-- Groups resident on a core. -/
def State.residents (s : State) (c : Nat) : List (Nat × Group) := s.groups.filter fun p => p.2.loc == .resident c

/-- A JWAITT budget of a resident group has run out (R112). -/
def budgetOut (x : Group) (f : Fibre) : Bool :=
  x.core?.isSome && f.budget == 0#16 && match f.stat with | .wait (.join _ (some _)) => true | _ => false

end Sys2Proof.Machine
end

