-- ==== Sys2Proof/Machine/Numbers.lean ====
section
/-! DEFINITION. The number formats of R67 and their arithmetic: a finite value is an exact multiple of a power of two,
every operation is computed exactly, and one rounding narrows the result (R69, R72, R75 to R77). -/

namespace Sys2Proof.Machine

/-- A finite value, (−1)^neg × m × 2^e. -/
structure Dy where
  neg : Bool
  m : Nat
  e : Int
  deriving DecidableEq, Repr

/-- A value of a format. -/
inductive Val where
  | nan (signalling : Bool)
  | inf (neg : Bool)
  | fin (d : Dy)
  deriving DecidableEq, Repr

def Val.isNan : Val → Bool
  | .nan _ => true
  | _ => false
def Val.isSnan : Val → Bool
  | .nan b => b
  | _ => false
def Val.isZero : Val → Bool
  | .fin d => d.m == 0
  | _ => false

def Dy.zero (neg : Bool) : Dy := ⟨neg, 0, 0⟩

/-- The value as an integer multiple of 2^q, for `q` at most its exponent. -/
def Dy.scaled (d : Dy) (q : Int) : Int :=
  let k : Int := (d.m * 2 ^ (d.e - q).toNat : Nat)
  if d.neg then -k else k

def Dy.ofScaled (k q : Int) : Dy := ⟨decide (k < 0), k.natAbs, q⟩

/-- The exact sum; an exact zero is −0 only from two negative zeros (R84). -/
def Dy.add (a b : Dy) : Dy :=
  if a.m = 0 ∧ b.m = 0 then Dy.zero (a.neg && b.neg)
  else
    let q := min a.e b.e
    Dy.ofScaled (a.scaled q + b.scaled q) q

def Dy.mul (a b : Dy) : Dy := ⟨a.neg != b.neg, a.m * b.m, a.e + b.e⟩
def Dy.negate (a : Dy) : Dy := { a with neg := !a.neg }

/-- a < b, where −0 equals +0. -/
def Dy.lt (a b : Dy) : Bool :=
  let q := min a.e b.e
  decide (a.scaled q < b.scaled q)

/-- Magnitudes: |a| < |b|. -/
def Dy.ltMag (a b : Dy) : Bool := Dy.lt { a with neg := false } { b with neg := false }

/-- floor(log2 |x|) of a value that is not zero. -/
def Dy.log2 (d : Dy) : Int := (Nat.log2 d.m : Int) + d.e

/-- The value of an integer. -/
def Dy.ofInt (k : Int) : Dy := Dy.ofScaled k 0

/-! ### Formats (R67) -/

/-- Fraction bits of the formats with an exponent field. -/
def Ty.frac : Ty → Nat
  | .f32 => 23 | .f16 => 10 | .bf16 => 7 | .e4m3 => 3 | .e5m2 => 2 | .e2m1 => 1
  | _ => 0

/-- Exponent of the smallest normal value, 1 − bias. -/
def Ty.emin : Ty → Int
  | .f32 => -126 | .f16 => -14 | .bf16 => -126 | .e4m3 => -6 | .e5m2 => -14 | .e2m1 => 0
  | _ => 0

/-- Code of the largest finite magnitude. -/
def Ty.maxCode : Ty → Nat
  | .f32 => 0x7F7FFFFF | .f16 => 0x7BFF | .bf16 => 0x7F7F | .e4m3 => 0x7E | .e5m2 => 0x7B | .e2m1 => 0x7
  | .mxi8 => 127 | .ln8 => 0x7F
  | _ => 0

/-- Code of the canonical NaN. -/
def Ty.nanCode : Ty → Nat
  | .f32 => 0x7FC00000 | .f16 => 0x7E00 | .bf16 => 0x7FC0 | .e4m3 => 0x7F | .e5m2 => 0x7E | .ln8 => 0x80 | .sc => 0xFF
  | _ => 0

/-- The format has infinities; the infinity follows the largest code. -/
def Ty.hasInf : Ty → Bool
  | .f32 | .f16 | .bf16 | .e5m2 => true
  | _ => false

def Ty.signBit (t : Ty) : Nat := 2 ^ (t.width - 1)

/-- emax of R67, for scale derivation. -/
def Ty.emax : Ty → Int
  | .f32 | .bf16 => 127 | .f16 | .e5m2 => 15 | .e4m3 => 8 | .e2m1 => 2
  | _ => 0

/-! ### Ling8 (R70) -/

/-- Length of the run of bits `b` at the top of the `n` low bits of `x`. -/
def runLen (b : Bool) (x : Nat) : Nat → Nat
  | 0 => 0
  | n + 1 => if x.testBit n = b then 1 + runLen b x n else 0

/-- The magnitude of code `c`, 0 to 127, as m × 2^e. -/
def lnMag (c : Nat) : Nat × Int :=
  let body := c % 64
  let up := c.testBit 6
  let z := runLen up body 6
  if up ∧ z = 6 then (1, 11)
  else if ¬ up ∧ z = 6 then (0, 0)
  else if ¬ up ∧ z = 5 then (1, -11)
  else
    let n := 5 - z
    let eb : Nat := if n ≥ 1 ∧ body.testBit (n - 1) then 1 else 0
    let f := n - 1
    let fr := body % 2 ^ f
    let ex : Int := if up then 2 * z + eb else -2 - 2 * z + eb
    (2 ^ f + fr, ex - f)

def lnDy (c : Nat) : Dy := ⟨c ≥ 128, (lnMag (c % 128)).1, (lnMag (c % 128)).2⟩

/-- The largest code up to `n` whose magnitude is at most |d|. -/
def lnFloor (d : Dy) : Nat → Nat
  | 0 => 0
  | n + 1 => if Dy.ltMag d (lnDy (n + 1)) then lnFloor d n else n + 1

/-! ### Decoding -/

/-- The value of a code (R67, R70). -/
def decodeNum (t : Ty) (c : Nat) : Val :=
  let c := c % 2 ^ t.width
  match t with
  | .f32 | .f16 | .bf16 | .e5m2 | .e4m3 | .e2m1 =>
    let p := Ty.frac t
    let neg := decide (c ≥ Ty.signBit t)
    let mag := c % Ty.signBit t
    if mag > Ty.maxCode t then
      if Ty.hasInf t ∧ mag = Ty.maxCode t + 1 then .inf neg
      else .nan (Ty.hasInf t && !mag.testBit (p - 1))
    else
      let ex := mag / 2 ^ p
      if ex = 0 then .fin ⟨neg, mag, Ty.emin t - p⟩
      else .fin ⟨neg, 2 ^ p + mag % 2 ^ p, Ty.emin t - p + (ex - 1 : Nat)⟩
  | .mxi8 => .fin (Dy.ofScaled (Ty.toI .s8 c) (-6))
  | .ln8 => if c = 0x80 then .nan false else .fin (lnDy c)
  | .sc => if c = 0xFF then .nan false else .fin ⟨false, 1, (c : Int) - 127⟩
  | _ => .fin (Dy.ofInt (Ty.toI t c))

/-! ### Rounding (R75, R76) -/

/-- How one element rounds; hash-stochastic rounding has decided whether an inexact value steps away from zero. -/
inductive RM where
  | rne
  | rz
  | sr (step : Bool)
  deriving DecidableEq, Repr

/-- |d| as a multiple of 2^q, truncated, and what remains as (remainder, 2^shift). -/
def Dy.quot (d : Dy) (q : Int) : Nat × Nat × Nat :=
  if d.e ≥ q then (d.m * 2 ^ (d.e - q).toNat, 0, 1)
  else
    let h := 2 ^ (q - d.e).toNat
    (d.m / h, d.m % h, h)

/-- |d| rounded to a multiple of 2^q, and whether that is inexact. -/
def Dy.roundAt (d : Dy) (q : Int) (rm : RM) : Nat × Bool :=
  let (k, r, h) := d.quot q
  let up : Bool := match rm with
    | .rne => decide (2 * r > h) || (decide (2 * r = h) && k % 2 == 1)
    | .rz => false
    | .sr b => b
  (if r ≠ 0 ∧ up then k + 1 else k, decide (r ≠ 0))

/-- The place value of the last place of |d| in a format with an exponent field. -/
def Ty.lastPlace (t : Ty) (d : Dy) : Int := if d.m = 0 then Ty.emin t - Ty.frac t else max d.log2 (Ty.emin t) - Ty.frac t

/-- Below the threshold under which R75 calls a result tiny before rounding. -/
def Ty.tinyBefore (t : Ty) (d : Dy) : Bool :=
  d.m != 0 && match t with
    | .e4m3 => decide (d.log2 < -6)
    | .e5m2 => decide (d.log2 < -14)
    | .e2m1 => decide (d.log2 < 0)
    | .mxi8 => decide (d.log2 < -6)
    | .ln8 => decide (d.log2 < -11)
    | _ => false

/-- A result of one of the formats .f32, .f16 and .bf16 is tiny after rounding (R69). DESIGN CHOICE (assumption 48): under SR
the unbounded rounding takes the step that was decided at the real last place. -/
def Ty.tinyAfter (t : Ty) (d : Dy) (rm : RM) : Bool :=
  d.m != 0 && (let q := d.log2 - Ty.frac t
    let k := (d.roundAt q rm).1
    Dy.ltMag ⟨false, k, q⟩ ⟨false, 1, Ty.emin t⟩)

/-- Round a finite value to a format with an exponent field. -/
def roundExp (t : Ty) (rm : RM) (sat : Bool) (d : Dy) : Nat × Flags :=
  let p := Ty.frac t
  let q := Ty.lastPlace t d
  let (k, inexact) := d.roundAt q rm
  let mag := if k < 2 ^ p then k else (q + p - Ty.emin t + 1).toNat * 2 ^ p + (k - 2 ^ p)
  let s := if d.neg then Ty.signBit t else 0
  if mag > Ty.maxCode t then
    if ¬ Ty.hasInf t ∨ sat then (s + Ty.maxCode t, fSAT ||| fNX)
    else (s + (if rm = .rz then Ty.maxCode t else Ty.maxCode t + 1), fOF ||| fNX)
  else
    let tiny := if t.isFloat then Ty.tinyAfter t d rm else Ty.tinyBefore t d
    (s + mag, flagIf inexact fNX ||| flagIf (inexact && tiny) fUF)

/-- Round a finite value to .mxi8: the integer nearest 64 times the value (R75). -/
def roundMx (rm : RM) (d : Dy) : Nat × Flags :=
  let (k, inexact) := d.roundAt (-6) rm
  if k > 127 then (if d.neg then 256 - 127 else 127, fSAT ||| fNX)
  else (if d.neg ∧ k ≠ 0 then 256 - k else k, flagIf inexact fNX ||| flagIf (inexact && Ty.tinyBefore .mxi8 d) fUF)

/-- Round a finite value to Ling8 (R72). -/
def roundLn (rm : RM) (d : Dy) : Nat × Flags :=
  let big : Dy := ⟨false, 1, 11⟩
  if Dy.ltMag big d then (if d.neg then 0xFF else 0x7F, fSAT ||| fNX)
  else
    let c := lnFloor d 127
    let lo := lnDy c
    let exact := !Dy.ltMag lo d
    let up := lnDy (c + 1)
    let x : Dy := { d with neg := false }
    let small := !Dy.ltMag ⟨false, 1, -12⟩ d
    let r := if exact then c else if small then 0 else match rm with
      | .rz => c
      | .sr b => if b then c + 1 else c
      | .rne =>
        let below := x.add lo.negate
        let above := up.add x.negate
        if Dy.lt below above then c else if Dy.lt above below then c + 1 else if c % 2 = 0 then c else c + 1
    (if d.neg ∧ r ≠ 0 then 128 + r else r,
      flagIf (!exact) fNX ||| flagIf (!exact && Ty.tinyBefore .ln8 d) fUF)

/-- Round a value to a destination format (R72, R75): its code and its flags. -/
def roundTo (t : Ty) (rm : RM) (sat : Bool) (v : Val) : Nat × Flags :=
  match v with
  | .nan sig =>
    (Ty.nanCode t, flagIf (sig || t == .e2m1 || t == .mxi8) fIV)
  | .inf neg =>
    match t with
    | .mxi8 => (if neg then 256 - 127 else 127, fSAT)
    | .ln8 => (if neg then 0xFF else 0x7F, fSAT ||| fNX)
    | _ => if Ty.hasInf t then ((if neg then Ty.signBit t else 0) + Ty.maxCode t + 1, 0#7)
      else ((if neg then Ty.signBit t else 0) + Ty.maxCode t, fSAT)
  | .fin d =>
    match t with
    | .mxi8 => roundMx rm d
    | .ln8 => roundLn rm d
    | _ => roundExp t rm sat d

/-- d(k) of R76: the top 16 bits of what lies below the destination's last place. DESIGN CHOICE (assumption 48): a NaN or an
infinity, which has no such bits, has d(k) = 0. -/
def srBits (t : Ty) (v : Val) : Nat :=
  match v with
  | .fin d =>
    if d.m = 0 then 0 else
    match t with
    | .ln8 =>
      if ¬ Dy.ltMag d ⟨false, 1, 11⟩ then 0
      else
        let c := lnFloor d 127
        let gap := (lnDy (c + 1)).add (lnDy c).negate
        let r := ({ d with neg := false } : Dy).add (lnDy c).negate
        ((Dy.quot ⟨false, r.m, r.e + 16⟩ gap.log2).1) % 65536
    | .mxi8 => let (_, r, h) := d.quot (-6); r * 65536 / h
    | _ => let (_, r, h) := d.quot (Ty.lastPlace t d); r * 65536 / h
  | _ => 0

/-- Whether element i of a group steps away from zero, given its own bits and its neighbours' (R76). -/
def srStep (i prev own next : Nat) : Bool := decide ((prev * 0xA5B3 + next * 0x3C6F + i * 0x0107) % 65536 < own)

/-- The rounding of element i of a group `vs`, whose members are rounded to `t` (R76). -/
def groupRM (t : Ty) (rnd : Rnd) (vs : List Val) (i : Nat) : RM :=
  match rnd with
  | .rz => .rz
  | .sr =>
    let n := vs.length
    let d (k : Nat) := ((vs[k % n]?).map (srBits t)).getD 0
    .sr (srStep i (d (i + n - 1)) (d i) (d (i + 1)))
  | _ => .rne

/-- The rounding of a group of the one element `v` with number i (R90). -/
def soloRM (t : Ty) (rnd : Rnd) (i : Nat) (v : Val) : RM :=
  match rnd with
  | .rz => .rz
  | .sr => .sr (srStep i (srBits t v) (srBits t v) (srBits t v))
  | _ => .rne

def Rnd.plain : Rnd → RM
  | .rz => .rz
  | _ => .rne

/-! ### Arithmetic (R84 to R86) -/

/-- The exact sum, or NaN with IV for an invalid operation. -/
def Val.add (a b : Val) : Val × Flags :=
  let sig := flagIf (a.isSnan || b.isSnan) fIV
  match a, b with
  | .nan _, _ => (.nan false, sig)
  | _, .nan _ => (.nan false, sig)
  | .inf x, .inf y => if x = y then (.inf x, 0#7) else (.nan false, fIV)
  | .inf x, _ => (.inf x, 0#7)
  | _, .inf y => (.inf y, 0#7)
  | .fin x, .fin y => (.fin (x.add y), 0#7)

def Val.neg : Val → Val
  | .nan s => .nan s
  | .inf b => .inf (!b)
  | .fin d => .fin d.negate

/-- The sign of a value, + for a NaN. -/
def Val.sgn : Val → Bool
  | .nan _ => false
  | .inf b => b
  | .fin d => d.neg

/-- The exact product, or NaN with IV for an invalid operation. -/
def Val.mul (a b : Val) : Val × Flags :=
  let sig := flagIf (a.isSnan || b.isSnan) fIV
  match a, b with
  | .nan _, _ => (.nan false, sig)
  | _, .nan _ => (.nan false, sig)
  | .fin x, .fin y => (.fin (x.mul y), 0#7)
  | a, b => if a.isZero || b.isZero then (.nan false, fIV) else (.inf (a.sgn != b.sgn), 0#7)

/-- A × B + D, exactly: an invalid product sets IV even beside a NaN addend (R84). -/
def Val.fma (a b d : Val) : Val × Flags :=
  let (p, f1) := a.mul b
  let (r, f2) := p.add d
  (r, f1 ||| f2 ||| flagIf d.isSnan fIV)

/-- Round an exact result with its flags. -/
def finishNum (t : Ty) (rm : RM) (sat : Bool) (x : Val × Flags) : Nat × Flags :=
  let (c, f) := roundTo t rm sat x.1
  (c, f ||| x.2)

def fadd (t : Ty) (rnd : Rnd) (sat : Bool) (a b : Nat) : Nat × Flags :=
  finishNum t (Rnd.plain rnd) sat ((decodeNum t a).add (decodeNum t b))
def fsub (t : Ty) (rnd : Rnd) (sat : Bool) (a b : Nat) : Nat × Flags :=
  finishNum t (Rnd.plain rnd) sat ((decodeNum t a).add (decodeNum t b).neg)
def fmul (t : Ty) (rnd : Rnd) (sat : Bool) (a b : Nat) : Nat × Flags :=
  finishNum t (Rnd.plain rnd) sat ((decodeNum t a).mul (decodeNum t b))
def ffma (t : Ty) (rnd : Rnd) (sat : Bool) (a b d : Nat) : Nat × Flags :=
  finishNum t (Rnd.plain rnd) sat ((decodeNum t a).fma (decodeNum t b) (decodeNum t d))

/-- a < b among values that are no NaN, −0 equal to +0. -/
def Val.lt (a b : Val) : Bool :=
  match a, b with
  | .fin x, .fin y => x.lt y
  | .inf x, .inf y => x && !y
  | .inf x, .fin _ => x
  | .fin _, .inf y => !y
  | _, _ => false

/-- a < b where −0 is less than +0 (R85). -/
def Val.ltZ (a b : Val) : Bool :=
  a.lt b || (!b.lt a && a.isZero && b.isZero && a.sgn && !b.sgn)

/-- FMIN and FMAX (R85). -/
def fminmax (isMax : Bool) (t : Ty) (a b : Nat) : Nat × Flags :=
  let x := decodeNum t a
  let y := decodeNum t b
  let f := flagIf (x.isSnan || y.isSnan) fIV
  let w := 2 ^ t.width
  if x.isNan && y.isNan then (Ty.nanCode t, f)
  else if x.isNan then (b % w, f)
  else if y.isNan then (a % w, f)
  else if isMax then ((if x.ltZ y then b else a) % w, f) else ((if y.ltZ x then b else a) % w, f)

/-- FCMP (R86): the relation and the flags. -/
def fcmp (t : Ty) (c : Cond) (a b : Nat) : Bool × Flags :=
  let x := decodeNum t a
  let y := decodeNum t b
  let un := x.isNan || y.isNan
  let sig := flagIf (x.isSnan || y.isSnan) fIV
  let ord := flagIf un fIV
  match c with
  | .eq => (!un && !x.lt y && !y.lt x, sig)
  | .ne => (un || x.lt y || y.lt x, sig)
  | .lt => (!un && x.lt y, ord)
  | .le => (!un && !y.lt x, ord)
  | .gt => (!un && y.lt x, ord)
  | .ge => (!un && !x.lt y, ord)
  | .un => (un, sig)
  | .ord => (!un, sig)

/-! ### Conversions (R90 to R93) -/

/-- A float to .sc (R90). -/
def toScale (v : Val) : Nat × Flags :=
  match v with
  | .nan sig => (0xFF, flagIf sig fIV)
  | .inf _ => (0xFF, 0#7)
  | .fin d =>
    if d.m = 0 then (0, 0#7) else
    let x := max (-127) (min 127 d.log2)
    let one : Dy := ⟨false, 1, x⟩
    ((x + 127).toNat, flagIf (Dy.ltMag d one || Dy.ltMag one d) fNX)

/-- A float to an integer type (R90). -/
def toInteger (t : Ty) (rnd : Rnd) (v : Val) : Nat × Flags :=
  match v with
  | .nan _ => (0, fIV)
  | .inf neg => (Ty.ofI t (if neg then Ty.minI t else Ty.maxI t), fIV)
  | .fin d =>
    let (k, inexact) := d.roundAt 0 (Rnd.plain rnd)
    let r : Int := if d.neg then -k else k
    if r < Ty.minI t then (Ty.ofI t (Ty.minI t), fIV)
    else if r > Ty.maxI t then (Ty.ofI t (Ty.maxI t), fIV)
    else (Ty.ofI t r, flagIf inexact fNX)

/-- CVT from a source code: the code of the destination and the flags; `i` is the lane, for hash-stochastic rounding
(R90). -/
def convert (dst src : Ty) (rnd : Rnd) (sat : Bool) (i c : Nat) : Nat × Flags :=
  if src.isAnyInt && dst.isAnyInt then
    let r := Ty.toI src c
    if Ty.minI dst ≤ r ∧ r ≤ Ty.maxI dst then (Ty.ofI dst r, 0#7)
    else if sat then (Ty.ofI dst (if r < Ty.minI dst then Ty.minI dst else Ty.maxI dst), fSAT)
    else (Ty.ofI dst r, fIOV)
  else
    let v := decodeNum src c
    if dst == .sc then toScale v
    else if dst.isInt then toInteger dst rnd v
    else roundTo dst (soloRM dst rnd i v) sat v

/-- An immediate converted to a type, with the flags of its conversion (R36, R91). -/
def immConv (t : Ty) (k : Int) : Nat × Flags :=
  if t.isFloat || t.isScaled then roundTo t .rne (!t.isFloat) (.fin (Dy.ofInt k))
  else if t == .sc then toScale (.fin (Dy.ofInt k))
  else (Ty.ofI t k, 0#7)

/-- An immediate as a code of a type (R36). DESIGN CHOICE (assumption 48): as an operand of an arithmetic instruction, of
which R36 and R83 state no flags of this conversion, it sets none. -/
def immCodeOf (t : Ty) (k : Int) : Nat := (immConv t k).1

/-- The scaled value x × 2^−X. -/
def Val.shift (v : Val) (x : Int) : Val :=
  match v with
  | .fin d => .fin { d with e := d.e - x }
  | v => v

def mergeFlags (fs : List Flags) : Flags := fs.foldl (· ||| ·) 0#7

/-- X of R74, or none for the special blocks, with the block's scale code. -/
def blockScale (t : Ty) (vs : List Val) : Option Int × Nat :=
  if vs.any fun v => v.isNan || (match v with | .inf _ => true | _ => false) then (none, 0xFF)
  else
    let amax := vs.foldl (fun (a : Dy) v => match v with
      | .fin d => if Dy.ltMag a d then d else a
      | _ => a) (Dy.zero false)
    if amax.m = 0 then (none, 0x00)
    else
      let x := max (amax.log2 - Ty.emax t) (-127)
      (some x, (x + 127).toNat)

/-- The largest finite magnitude of an element format. -/
def Ty.largest (t : Ty) : Dy :=
  match decodeNum t (Ty.maxCode t) with
  | .fin d => d
  | _ => Dy.zero false

/-- Convert a scaled element: one above the largest value is clamped to it, with SAT and NX (R74). -/
def roundScaled (t : Ty) (rm : RM) (v : Val) : Nat × Flags :=
  let clamped (neg : Bool) := ((roundTo t .rz true (.fin { Ty.largest t with neg })).1, fSAT ||| fNX)
  match v with
  | .fin d => if Dy.ltMag (Ty.largest t) d then clamped d.neg else roundTo t rm true v
  | .inf neg => clamped neg
  | v => roundTo t rm true v

/-- Quantise a block of values (R74): element codes, scale code, flags. The clamp applies whatever MOD.SAT holds. -/
def quantBlock (t : Ty) (rnd : Rnd) (vs : List Val) : List Nat × Nat × Flags :=
  match blockScale t vs with
  | (none, c) => (vs.map fun _ => 0, c, if c = 0xFF then flagIf (vs.any Val.isSnan) fIV else 0#7)
  | (some x, c) =>
    let ws := vs.map fun v => v.shift x
    let qs := ws.zipIdx.map fun p => roundScaled t (groupRM t rnd ws p.2) p.1
    (qs.map (·.1), c, mergeFlags (qs.map (·.2)))

/-- Pack codes of `w` bits, the first lowest (R73, R92). -/
def packCodes (w : Nat) : List Nat → Nat
  | [] => 0
  | c :: t => c % 2 ^ w + 2 ^ w * packCodes w t

/-! ### Noise shaping (R77) -/

/-- u of R77 for a finite y: one unit in the last place of its binade. -/
def nsUnit (t : Ty) (y : Dy) : Dy :=
  match t with
  | .mxi8 => ⟨false, 1, -6⟩
  | .ln8 =>
    let c := lnFloor y 127
    if y.m = 0 then ⟨false, 1, -11⟩
    else if c = 127 then ⟨false, 1, 11⟩ else (lnDy (c + 1)).add (lnDy c).negate
  | _ => ⟨false, 1, Ty.lastPlace t y⟩

/-- One element under NS with the conversion `q`: its code, the flags of Q(t), and the carried error, a .f32 code. The
error after a y that is no finite number, or a t that a carried NaN has made a NaN, is a free value (assumption 12). -/
def nsStep (t : Ty) (q : Val → Nat × Flags) (x : Val) (e : Nat) : Nat × Flags × Nat :=
  match x with
  | .nan _ => let (c, f) := q x; (c, f, 0)
  | _ =>
    let tc := (roundTo .f32 .rne false (x.add (decodeNum .f32 e)).1).1
    let tv := decodeNum .f32 tc
    let (c, f) := q tv
    let free := (c, f, (Config.nsCarry (BitVec.ofNat 32 tc) c).toNat)
    if tv.isNan then free else
    match decodeNum t c with
    | .fin y =>
      let r := decodeNum .f32 (roundTo .f32 .rne false (tv.add (.fin y.negate)).1).1
      let u := nsUnit t y
      let lim : Val := if Val.lt (.fin u) r then .fin u else if Val.lt r (.fin u.negate) then .fin u.negate else r
      (c, f, (roundTo .f32 .rne false lim).1)
    | _ => free

end Sys2Proof.Machine
end

