-- ==== Sys2Proof/Machine/Approx.lean ====
section
/-! DEFINITION. The approximate functions (R88, R89): the special inputs of R89; elsewhere the implementation's own
function of the operand's bits, held to the bound of R88 by a fixed-point reference (assumption 8). -/

namespace Sys2Proof.Machine

/-- Fixed-point values count units of 2^-200. -/
def fxBits : Nat := 200
def fxOne : Nat := 2 ^ fxBits
def fxPi : Nat := 0x3243f6a8885a308d313198a2e03707344a4093822299f31d008
def fxLn2 : Nat := 0xb17217f7d1cf79abc9e3b39803f2f6af40f343267298b62d8a

def fxMul (a b : Nat) : Nat := a * b / fxOne

/-- The partial sums of the exponential series, from the term t^(n-1) / (n-1)!. -/
def expSeries (t : Nat) : Nat → Nat → Nat → Nat
  | 0, _, _ => 0
  | k + 1, n, term => term + expSeries t k (n + 1) (fxMul term t / n)

def fxExp (t : Nat) : Nat := expSeries t 130 1 fxOne

/-- The sum over odd powers of z, z + z^3 / 3 + z^5 / 5 + …. -/
def atanhSeries (zz : Nat) : Nat → Nat → Nat → Nat
  | 0, _, _ => 0
  | k + 1, n, term => term / n + atanhSeries zz k (n + 2) (fxMul term zz)

/-- The natural logarithm of a value from 1 to 2. -/
def fxLn (y : Nat) : Nat :=
  let z := (y - fxOne) * fxOne / (y + fxOne)
  2 * atanhSeries (fxMul z z) 80 1 z

/-- The alternating series of the sine and cosine, from a term of degree n - 1. -/
def sinSeries (tt : Nat) : Nat → Nat → Nat → Int
  | 0, _, _ => 0
  | k + 1, n, term => (term : Int) - sinSeries tt k (n + 2) (fxMul term tt / (n * (n + 1)))

/-- A fixed-point value of a finite one, truncated. -/
def Dy.fx (d : Dy) : Nat := (d.quot (-(fxBits : Int))).1

def Dy.ofFx (k : Int) : Dy := Dy.ofScaled k (-(fxBits : Int))

/-- The integer square root, bit by bit. -/
def isqrt (n : Nat) : Nat → Nat → Nat
  | 0, r => r
  | b + 1, r => isqrt n b (if (r + 2 ^ b) * (r + 2 ^ b) ≤ n then r + 2 ^ b else r)

/-! ### References: values within 2^-150 of the exact ones, relative or absolute as the bound is -/

def refRcp (d : Dy) : Dy := ⟨d.neg, 2 ^ (Nat.log2 d.m + 200) / d.m, -(Nat.log2 d.m : Int) - 200 - d.e⟩

def refRsq (d : Dy) : Dy :=
  let odd := d.e % 2 ≠ 0
  let m := if odd then 2 * d.m else d.m
  let e := if odd then d.e - 1 else d.e
  ⟨false, isqrt (2 ^ 460 / m) 230 0, -230 - e / 2⟩

def refExp2 (d : Dy) : Dy :=
  let k : Int := if d.neg then -(d.fx : Int) else d.fx
  let r := Dy.ofFx (fxExp (fxMul (k % fxOne).toNat fxLn2))
  { r with e := r.e + k / fxOne }

def refLog2 (d : Dy) : Dy :=
  let l := Nat.log2 d.m
  let y := d.m * fxOne / 2 ^ l
  Dy.ofFx (((l : Int) + d.e) * fxOne + (fxLn y * fxOne / fxLn2 : Nat))

def refTanh (d : Dy) : Dy :=
  let e := fxExp (2 * d.fx)
  { Dy.ofFx (((e - fxOne) * fxOne / (e + fxOne) : Nat)) with neg := d.neg }

def refSin (d : Dy) : Dy :=
  let t := d.fx % (2 * fxPi)
  let r := Dy.ofFx (sinSeries (fxMul t t) 70 2 t)
  if d.neg then r.negate else r

def refCos (d : Dy) : Dy :=
  let t := d.fx % (2 * fxPi)
  Dy.ofFx (sinSeries (fxMul t t) 70 1 fxOne)

/-- `n` units in the last place of the .f32 binade of a value. -/
def ulps (n : Nat) (r : Dy) : Dy := ⟨false, n, Ty.lastPlace .f32 r⟩

/-- The implementation's value where it lies within the bound of the reference, else the reference rounded. -/
def held (cand : Word) (ref bound : Dy) : Nat :=
  let fallback := (roundTo .f32 .rne true (.fin ref)).1
  match decodeNum .f32 cand.toNat with
  | .fin d =>
    let slack : Dy := if ref.m = 0 then ⟨false, 1, -180⟩ else ⟨false, 1, max (ref.log2 - 150) (-180)⟩
    if Dy.ltMag (bound.add slack) (d.add ref.negate) then fallback else cand.toNat
  | _ => fallback

/-- The seven functions. -/
inductive Fn where
  | rcp | rsq | exp2 | log2 | tanh | sin | cos
  deriving DecidableEq, Repr

def f32Inf (neg : Bool) : Nat := if neg then 0xFF800000 else 0x7F800000
def f32One (neg : Bool) : Nat := if neg then 0xBF800000 else 0x3F800000
def f32Zero (neg : Bool) : Nat := if neg then 0x80000000 else 0
def f32NaN : Nat := 0x7FC00000

/-- |d| compared with an integer. -/
def Dy.magGe (d : Dy) (k : Nat) : Bool := !Dy.ltMag d ⟨false, k, 0⟩

/-- A value that is an integer. -/
def Dy.isInt (d : Dy) : Bool := (d.quot 0).2.1 == 0

def Dy.toInt (d : Dy) : Int := if d.neg then -((d.quot 0).1 : Int) else (d.quot 0).1

/-- A function of a .f32 code: the result and the flags (R88, R89). -/
def approx (fn : Fn) (c : Nat) : Nat × Flags :=
  let w := BitVec.ofNat 32 c
  match decodeNum .f32 c with
  | .nan sig => (f32NaN, flagIf sig fIV)
  | .inf neg => match fn with
    | .rcp => (f32Zero neg, 0#7)
    | .rsq => if neg then (f32NaN, fIV) else (0, 0#7)
    | .exp2 => (if neg then 0 else f32Inf false, 0#7)
    | .log2 => if neg then (f32NaN, fIV) else (f32Inf false, 0#7)
    | .tanh => (f32One neg, 0#7)
    | .sin => (f32NaN, fIV)
    | .cos => (f32NaN, fIV)
  | .fin d =>
    if d.m = 0 then match fn with
      | .rcp => (f32Inf d.neg, fDZ)
      | .rsq => (f32Inf d.neg, fDZ)
      | .exp2 => (f32One false, 0#7)
      | .log2 => (f32Inf true, fDZ)
      | .tanh => (f32Zero d.neg, 0#7)
      | .sin => (f32Zero d.neg, 0#7)
      | .cos => (f32One false, 0#7)
    else match fn with
      | .rcp =>
        if d.log2 < -128 then (f32Inf d.neg, fOF)
        else (held (Config.frcp w) (refRcp d) (ulps 1 (refRcp d)), 0#7)
      | .rsq => if d.neg then (f32NaN, fIV) else (held (Config.frsq w) (refRsq d) (ulps 2 (refRsq d)), 0#7)
      | .exp2 =>
        if ¬ d.neg ∧ d.magGe 128 then (f32Inf false, fOF)
        else if d.neg ∧ d.magGe 150 then (0, fUF)
        else if d.isInt then ((roundTo .f32 .rne false (.fin ⟨false, 1, d.toInt⟩)).1, 0#7)
        else (held (Config.fexp2 w) (refExp2 d) (ulps 2 (refExp2 d)), 0#7)
      | .log2 =>
        if d.neg then (f32NaN, fIV)
        else if d.m = 2 ^ Nat.log2 d.m then ((roundTo .f32 .rne false (.fin (Dy.ofInt d.log2))).1, 0#7)
        else
          let r := refLog2 d
          (held (Config.flog2 w) r (if d.log2 = -1 ∨ d.log2 = 0 then ⟨false, 1, -22⟩ else ulps 2 r), 0#7)
      | .tanh =>
        if d.magGe 9 then (f32One d.neg, 0#7) else (held (Config.ftanh w) (refTanh d) ⟨false, 1, -21⟩, 0#7)
      | .sin =>
        if Dy.ltMag ⟨false, 65536, 0⟩ d then (f32NaN, fIV) else (held (Config.fsin w) (refSin d) ⟨false, 1, -21⟩, 0#7)
      | .cos =>
        if Dy.ltMag ⟨false, 65536, 0⟩ d then (f32NaN, fIV) else (held (Config.fcos w) (refCos d) ⟨false, 1, -21⟩, 0#7)

end Sys2Proof.Machine
end

