-- ==== Sys2Proof/Machine/Float.lean ====
section
/-! DEFINITION. Floating-point and conversion instructions (R83 to R94). Every one acts on its own fibre's registers,
from the values read at issue. -/

namespace Sys2Proof.Machine

/-- A source of a floating type: an immediate is converted with RNE (R36). -/
def Fibre.fsrc (f : Fibre) (t : Ty) : Src → Nat
  | .reg r => f.rd t r
  | .imm k => immCodeOf t k.toInt

def execFadd (h : Hdr) (d : Reg) (a b : Src) (ty : Ty) (rnd : Rnd) (sat : Bool) (s : State) : Out :=
  laneAB (.fadd h d a b ty rnd sat) h d a b ty (fun f => fadd ty rnd sat (f.fsrc ty a) (f.fsrc ty b)) s

def execFsub (h : Hdr) (d : Reg) (a b : Src) (ty : Ty) (rnd : Rnd) (sat : Bool) (s : State) : Out :=
  laneAB (.fsub h d a b ty rnd sat) h d a b ty (fun f => fsub ty rnd sat (f.fsrc ty a) (f.fsrc ty b)) s

def execFmul (h : Hdr) (d : Reg) (a b : Src) (ty : Ty) (rnd : Rnd) (sat : Bool) (s : State) : Out :=
  laneAB (.fmul h d a b ty rnd sat) h d a b ty (fun f => fmul ty rnd sat (f.fsrc ty a) (f.fsrc ty b)) s

def execFfma (h : Hdr) (d : Reg) (a b : Src) (ty : Ty) (rnd : Rnd) (sat : Bool) (s : State) : Out :=
  laneAB (.ffma h d a b ty rnd sat) h d a b ty
    (fun f => ffma ty rnd sat (f.fsrc ty a) (f.fsrc ty b) (f.rd ty d)) s

def execFmin (h : Hdr) (d : Reg) (a b : Src) (ty : Ty) (s : State) : Out :=
  laneAB (.fmin h d a b ty) h d a b ty (fun f => fminmax false ty (f.fsrc ty a) (f.fsrc ty b)) s

def execFmax (h : Hdr) (d : Reg) (a b : Src) (ty : Ty) (s : State) : Out :=
  laneAB (.fmax h d a b ty) h d a b ty (fun f => fminmax true ty (f.fsrc ty a) (f.fsrc ty b)) s

def execFcmp (h : Hdr) (d : BitVec 4) (a b : Src) (ty : Ty) (c : Cond) (s : State) : Out :=
  laneWord (.fcmp h d a b ty c) h (Src.chk a 1 ++ Src.chk b 1)
    (fun f => let (r, fl) := fcmp ty c (f.fsrc ty a) (f.fsrc ty b); (f.setP d r).addFlags fl) s

def execFrcp (h : Hdr) (d : Reg) (a : Src) (ty : Ty) (s : State) : Out :=
  laneA (.frcp h d a ty) h d a ty (fun f => approx .rcp (f.fsrc ty a)) s

def execFrsq (h : Hdr) (d : Reg) (a : Src) (ty : Ty) (s : State) : Out :=
  laneA (.frsq h d a ty) h d a ty (fun f => approx .rsq (f.fsrc ty a)) s

def execFexp2 (h : Hdr) (d : Reg) (a : Src) (ty : Ty) (s : State) : Out :=
  laneA (.fexp2 h d a ty) h d a ty (fun f => approx .exp2 (f.fsrc ty a)) s

def execFlog2 (h : Hdr) (d : Reg) (a : Src) (ty : Ty) (s : State) : Out :=
  laneA (.flog2 h d a ty) h d a ty (fun f => approx .log2 (f.fsrc ty a)) s

def execFtanh (h : Hdr) (d : Reg) (a : Src) (ty : Ty) (s : State) : Out :=
  laneA (.ftanh h d a ty) h d a ty (fun f => approx .tanh (f.fsrc ty a)) s

def execFsin (h : Hdr) (d : Reg) (a : Src) (ty : Ty) (s : State) : Out :=
  laneA (.fsin h d a ty) h d a ty (fun f => approx .sin (f.fsrc ty a)) s

def execFcos (h : Hdr) (d : Reg) (a : Src) (ty : Ty) (s : State) : Out :=
  laneA (.fcos h d a ty) h d a ty (fun f => approx .cos (f.fsrc ty a)) s

/-! ### Packed halves (R87) -/

/-- Half `j` of a packed source; an immediate stands in both halves. -/
def Fibre.half (f : Fibre) (t : Ty) (j : Nat) : Src → Nat
  | .reg r => (f.r (f.reg r)).toNat / 2 ^ (16 * j) % 2 ^ 16
  | .imm k => immCodeOf t k.toInt

/-- Both halves of a packed operation, with the flags of both. -/
def packed (fn : Nat → Nat × BitVec 7) : Nat × BitVec 7 :=
  let (lo, f0) := fn 0
  let (hi, f1) := fn 1
  (lo + 65536 * hi, f0 ||| f1)

def packedWord (i : Instr) (h : Hdr) (d : Reg) (a b : Src) (fn : Fibre → Nat → Nat × BitVec 7) (s : State) : Out :=
  laneWord i h (Src.chk a 1 ++ Src.chk b 1 ++ Reg.chk d 1) (fun f => f.result d 1 (packed (fn f))) s

def execHadd2 (h : Hdr) (d : Reg) (a b : Src) (ty : Ty) (rnd : Rnd) (sat : Bool) (s : State) : Out :=
  packedWord (.hadd2 h d a b ty rnd sat) h d a b (fun f j => fadd ty rnd sat (f.half ty j a) (f.half ty j b)) s

def execHmul2 (h : Hdr) (d : Reg) (a b : Src) (ty : Ty) (rnd : Rnd) (sat : Bool) (s : State) : Out :=
  packedWord (.hmul2 h d a b ty rnd sat) h d a b (fun f j => fmul ty rnd sat (f.half ty j a) (f.half ty j b)) s

def execHfma2 (h : Hdr) (d : Reg) (a b : Src) (ty : Ty) (rnd : Rnd) (sat : Bool) (s : State) : Out :=
  packedWord (.hfma2 h d a b ty rnd sat) h d a b
    (fun f j => ffma ty rnd sat (f.half ty j a) (f.half ty j b) (f.half ty j (.reg d))) s

/-! ### Conversions (R90 to R94) -/

/-- The source code of CVT: a register's code at the position BSEL and IMM8 name, or the immediate itself (R91). -/
def Fibre.cvtSrc (f : Fibre) (src : Ty) (bsel : BitVec 2) (hi : Bool) : Src → Nat
  | .imm k => immCodeOf src k.toInt
  | .reg r =>
    let v := f.rN (f.reg r) src.regs
    v / 2 ^ (8 * bsel.toNat + if hi then 4 else 0) % 2 ^ src.width

/-- The flags of the conversion of an immediate source (R75, R90, R91). -/
def cvtSrcFlags (src : Ty) : Src → Flags
  | .imm k => (immConv src k.toInt).2
  | .reg _ => 0#7

/-- The register image of a result of CVT: .s8 and .s16 are sign-extended to 32 bits (R68, R90). -/
def cvtImage (t : Ty) (c : Nat) : Nat :=
  if (t == .s8 || t == .s16) && decide (c ≥ 2 ^ (t.width - 1)) then c + (2 ^ 32 - 2 ^ t.width) else c

def execCvt (h : Hdr) (d : Reg) (a : Src) (ty ty2 : Ty) (rnd : Rnd) (sat : Bool) (bsel : BitVec 2) (hi : Bool)
    (s : State) : Out :=
  laneWord (.cvt h d a ty ty2 rnd sat bsel hi) h (Src.chk a ty2.regs ++ Reg.chk d ty.regs)
    (fun f =>
      let (c, fl) := convert ty ty2 rnd sat (s.cur.f % 32) (f.cvtSrc ty2 bsel hi a)
      f.result d ty.regs (cvtImage ty c, fl ||| cvtSrcFlags ty2 a)) s

/-- The .f32 values of `n` consecutive registers. -/
def Fibre.f32s (f : Fibre) (r n : Nat) : List Val := (List.range n).map fun j => decodeNum .f32 (f.r (r + j)).toNat

def execCvtp (h : Hdr) (d a : Reg) (ty : Ty) (rnd : Rnd) (sat : Bool) (s : State) : Out :=
  let n := ty.packN
  laneWord (.cvtp h d a ty rnd sat) h (Reg.chk a n ++ Reg.chk d 1)
    (fun f =>
      let vs := f.f32s (f.reg a) n
      let qs := vs.zipIdx.map fun p => roundTo ty (groupRM ty rnd vs p.2) sat p.1
      f.result d 1 (packCodes ty.width (qs.map (·.1)), mergeFlags (qs.map (·.2)))) s

/-- The registers that hold 32 element codes. -/
def blockRegs (t : Ty) : Nat := if t == .e2m1 then 4 else 8

/-- REG_RANGE over A, B, D from the lowest register upwards; an indexed A or D must be a multiple of 4 (R94). The scale
lands last. -/
def execCvtx (h : Hdr) (d a b : Reg) (ty : Ty) (rnd : Rnd) (s : State) : Out :=
  runWord (.cvtx h d a b ty rnd) h (fun _ _ => { chks := [.span a 32 4, .lane b 1, .span d (blockRegs ty) 4] })
    (fun _ f s =>
      let (qs, c, fl) := quantBlock ty rnd (f.f32s (f.reg a) 32)
      .ok (s.updFibre s.cur fun _ =>
        ((f.wr d (blockRegs ty) (packCodes ty.width qs)).wr b 1 c).addFlags fl)) s

end Sys2Proof.Machine
end

