-- ==== Sys2Proof/Machine/Rank.lean ====
section
/-! DEFINITION. What acts across the fibres of a rank: rejoin masks (R110 to R112), rank exchange (R113 to R116), and
claiming and surrendering register blocks (R153 to R156). -/

namespace Sys2Proof.Machine

/-! ### Rejoin masks -/

def Group.mask (x : Group) (rank : Nat) (m : BitVec 3) : BitVec 32 := Tab.get 0#32 x.masks (8 * rank + m.toNat)
def Group.arrivedAt (x : Group) (rank : Nat) (m : BitVec 3) : BitVec 32 := Tab.get 0#32 x.arrived (8 * rank + m.toNat)
def Group.setMask (x : Group) (rank : Nat) (m : BitVec 3) (v a : BitVec 32) : Group :=
  { x with masks := Tab.set 0#32 (8 * rank + m.toNat) v x.masks, arrived := Tab.set 0#32 (8 * rank + m.toNat) a x.arrived }

def laneBit (f : Nat) : BitVec 32 := 1#32 <<< (f % 32)

/-- Release of a fibre that waits on a mask: a JWAITT writes 1 to its predicate (R112). -/
def releaseJoin (cycle : Nat) (m : BitVec 3) (f : Fibre) : Fibre :=
  match f.stat with
  | .wait (.join k p) =>
    if k = m then
      match p with
      | none => f.advance cycle
      | some d => (f.advance cycle).setP d true
    else f
  | _ => f

/-- A mask all of whose members have arrived is released (R111). -/
def Group.settleMask (x : Group) (cycle rank : Nat) (m : BitVec 3) : Group :=
  let v := x.mask rank m
  if v != 0#32 && v &&& ~~~(x.arrivedAt rank m) == 0#32 then
    (x.setMask rank m 0#32 0#32).mapFibres fun n f => if n / 32 = rank then releaseJoin cycle m f else f
  else x

/-! ### Rendezvous (R113, R153) -/

/-- Every fibre that a rendezvous awaits is present, or all were (R154). -/
def Group.present (x : Group) (v : Rendezvous) : Bool :=
  v.full || x.fibres.all fun p =>
    p.1 / 32 != v.rank || (match v.mask with
      | some m => !(x.mask v.rank m).getLsbD (p.1 % 32)
      | none => p.2.wave) ||
    v.members.any fun q => q.lane == p.1 % 32 && q.inc == p.2.inc

/-- A value combined along the tree of R116; `none` is a lane that min and max skip. -/
def redCombine (op : AtomOp) (t : Ty) (a b : Option Nat) : Option Nat × Flags :=
  match a, b with
  | none, y => (y, 0#7)
  | x, none => (x, 0#7)
  | some x, some y =>
    match op with
    | .add => if t == .f32 then let (v, f) := fadd .f32 .rne false x y; (some v, f) else (some (x + y), 0#7)
    | .min => if t == .f32 then let (v, f) := fminmax false .f32 x y; (some v, f)
      else (some (if Ty.toI t y < Ty.toI t x then y else x), 0#7)
    | .max => if t == .f32 then let (v, f) := fminmax true .f32 x y; (some v, f)
      else (some (if Ty.toI t x < Ty.toI t y then y else x), 0#7)
    | .and => (some (x &&& y), 0#7)
    | .or => (some (x ||| y), 0#7)
    | .xor => (some (x ^^^ y), 0#7)
    | _ => (some y, 0#7)

/-- One level of the tree: neighbours combine. -/
def redLevel (op : AtomOp) (t : Ty) : List (Option Nat) → List (Option Nat) × Flags
  | a :: b :: r =>
    let (v, f) := redCombine op t a b
    let (vs, fs) := redLevel op t r
    (v :: vs, f ||| fs)
  | r => (r, 0#7)

/-- The tree over 32 lanes: five levels (R116). -/
def redTree (op : AtomOp) (t : Ty) : Nat → List (Option Nat) → List (Option Nat) × Flags
  | 0, xs => (xs, 0#7)
  | n + 1, xs =>
    let (ys, f) := redLevel op t xs
    let (zs, g) := redTree op t n ys
    (zs, f ||| g)

/-- The value an empty lane holds. -/
def redEmpty (op : AtomOp) : Option Nat :=
  match op with
  | .min => none
  | .max => none
  | .and => some 0xFFFFFFFF
  | _ => some 0

/-- RRED over the contributors' lanes and values: integer addition is exact, and wraps once at the end (R116). -/
def redResult (op : AtomOp) (t : Ty) (cs : List (Nat × Nat)) : Nat × Flags :=
  if op == .add && t != .f32 then intResult t false ((cs.map fun p => Ty.toI t p.2).foldl (· + ·) 0)
  else
    let (xs, f) := redTree op t 5 ((List.range 32).map fun l =>
      match cs.find? fun p => p.1 == l with
      | some p => some p.2
      | none => redEmpty op)
    (((xs.head?).bind id).getD 0, f)

/-- What each contributor of an exchange receives: its change, by lane (R114 to R116). -/
def exchange (cs : List (Nat × Offer)) : List (Nat × (Fibre → Fibre)) :=
  let n := cs.length
  cs.zipIdx.map fun p =>
    (p.1.1, match p.1.2 with
      | .xchg mode v k d wide =>
        let src : Option Nat := match mode with
          | .pos => if k < n then some k else none
          | .rot => some ((p.2 + k) % n)
          | .rev => some (n - 1 - p.2)
          | .last => some (n - 1)
        let got := match src.bind fun j => cs[j]? with
          | some (_, .xchg _ w _ _ _) => w
          | _ => v
        fun f => f.setN d (if wide then 2 else 1) got.toNat
      | .vote mode _ d =>
        let on := cs.filter fun q => match q.2 with | .vote _ b _ => b | _ => false
        match mode with
        | .ballot => fun f => f.setN d 1 ((on.map fun q => 2 ^ q.1).foldl (· + ·) 0)
        | .any => fun f => f.setP (BitVec.ofNat 4 d) (!on.isEmpty)
        | .all => fun f => f.setP (BitVec.ofNat 4 d) (on.length == n)
      | .red op t _ d =>
        let (v, fl) := redResult op t (cs.filterMap fun q => match q.2 with
          | .red _ _ w _ => some (q.1, w.toNat)
          | _ => none)
        fun f => (f.setN d 1 v).addFlags fl
      | _ => id)

/-- The contributors of a rendezvous in lane order. -/
def Rendezvous.contributors (v : Rendezvous) : List (Nat × Offer) :=
  sortBy (fun a b : Nat × Offer => decide (a.1 < b.1)) (v.members.filterMap fun q => q.offer.map fun o => (q.lane, o))

/-! ### Register blocks (R130, R154, R155) -/

/-- Amax of R154. -/
def Group.amax (x : Group) : Nat :=
  min 128 ((x.ranks + x.lr.t) * x.blocks0 - (x.ranks - 1) - x.lr.t * x.blocks0)

/-- No fibre of a rank is live, and none holds outstanding operations (R117, R124). -/
def State.rankFree (s : State) (g : Nat) (x : Group) (rank : Nat) : Bool :=
  !(x.fibres.any fun p => p.1 / 32 == rank) && !(s.ops.any fun o => o.fib.g == g && o.fib.f / 32 == rank)

/-- A fibre rank all of whose numbers are free returns the blocks it holds above its first ones (R133). -/
def State.reclaim (s : State) (g : Nat) : State :=
  match s.group? g with
  | none => s
  | some x => (List.range x.ranks).foldl (fun t r =>
      if s.rankFree g x r && decide (x.blocks r > x.blocks0) then
        t.updGroup g fun y => { y with pool := y.pool + (y.blocks r - y.blocks0), alloc := Tab.set 0 r 0 y.alloc }
      else t) s

def Group.setBlocks (x : Group) (rank n : Nat) : Group :=
  { x with alloc := Tab.set 0 rank ((n : Int) - x.blocks0) x.alloc, wseed := x.wseed + 1 }

/-- Grant claims from the head of the queue while the pool covers them. -/
def Group.grant (cycle : Nat) (x : Group) : List Claim → Group
  | [] => x
  | c :: t =>
    if x.pool ≥ c.blocks then
      let n := x.blocks c.rank + c.blocks
      let y := { (x.setBlocks c.rank n).mapFibres (fun k f =>
          if k / 32 = c.rank then { f with regs := f.regs.filter fun p => decide (p.1 < 16 * x.blocks c.rank) } else f) with
        pool := x.pool - c.blocks, claims := t }
      Group.grant cycle (c.members.foldl (fun z m => z.updFibre (32 * c.rank + m.1) fun f =>
        (f.setN m.2 1 (16 * n)).advance cycle) y) t
    else x

def State.grantClaims (s : State) (g : Nat) : State :=
  (s.reclaim g).updGroup g fun x => x.grant s.cycle x.claims

/-- Raise a trap in members of a rank, each with its value. -/
def State.trapMembers (s : State) (g rank : Nat) (c : Cause) (ms : List (Nat × Dword)) : State :=
  ms.foldl (fun t m => t.takeTrap ⟨g, 32 * rank + m.1⟩ c m.2) s

/-- Where every fibre rank that holds a live gang fibre has a claim in the queue, the last one is withdrawn (R155). -/
def State.checkStalled (s : State) (g : Nat) : State :=
  match s.group? g with
  | none => s
  | some x =>
    let live := (x.gang.map fun n => n / 32).eraseDups
    match x.claims.getLast? with
    | none => s
    | some c =>
      if live.all fun r => x.claims.any fun k => k.rank == r then
        (s.updGroup g fun y => { y with claims := y.claims.dropLast }).trapMembers g c.rank .claimInvalid
          (c.members.map fun m => (m.1, dw c.blocks))
      else s

/-- The members of a SURR or a CLAIM that contribute, and their D. -/
def claimants (v : Rendezvous) : List (Nat × Nat) :=
  v.contributors.filterMap fun p => match p.2 with
    | .claim _ d => some (p.1, d)
    | .surr _ d => some (p.1, d)
    | _ => none

/-- A member of the rendezvous has an outstanding write to a register at or above `r` (R154). -/
def State.memberWrites (s : State) (g : Nat) (v : Rendezvous) (r : Nat) : Bool :=
  s.ops.any fun o => o.fib.g == g && o.fib.f / 32 == v.rank &&
    (v.members.any fun q => q.lane == o.fib.f % 32 && q.inc == o.inc) && o.dst.any fun k => decide (k ≥ r)

/-- A complete SURR (R154); none while a member's outstanding write to a surrendered register has not landed. -/
def State.surrender (s : State) (g : Nat) (x : Group) (v : Rendezvous) (c : Nat) : Option State :=
  let ms := claimants v
  let a := x.blocks v.rank
  if ms.any fun m => decide ((m.2 : Int) ≥ 16 * ((a : Int) - c)) then
    some (s.trapMembers g v.rank .regRange (ms.map fun m => (m.1, dw m.2)))
  else if a < c + 1 then some (s.trapMembers g v.rank .claimInvalid (ms.map fun m => (m.1, dw c)))
  else if s.memberWrites g v (16 * (a - c)) then none
  else
    let y := (x.setBlocks v.rank (a - c)).mapFibres fun n f =>
      if n / 32 = v.rank then { f with regs := f.regs.filter fun p => decide (p.1 < 16 * (a - c)) } else f
    some (s.setGroup g (ms.foldl (fun z m => z.updFibre (32 * v.rank + m.1) fun f =>
      (f.setN m.2 1 (16 * (a - c))).advance s.cycle) { y with pool := y.pool + c }))

/-- A complete CLAIM (R154, R155): refused at once, or entered in the queue and granted if it can be. -/
def State.enterClaim (s : State) (g : Nat) (x : Group) (v : Rendezvous) (c : Nat) : State :=
  let ms := claimants v
  if x.blocks v.rank + c > x.amax then s.trapMembers g v.rank .claimInvalid (ms.map fun m => (m.1, dw c))
  else
    let y := { x with claims := x.claims ++ [⟨v.rank, c, ms⟩] }
    let z := ms.foldl (fun z m => z.updFibre (32 * v.rank + m.1) fun f => { f with stat := .wait .claim }) y
    ((s.setGroup g z).grantClaims g).checkStalled g

/-- Perform one rendezvous, if it is complete and can be. -/
def State.settleOne (s : State) (g : Nat) (v : Rendezvous) : State :=
  match s.group? g with
  | none => s
  | some x =>
    if !x.rvs.contains v || !x.present v then s else
    let x1 := { x with rvs := x.rvs.filter fun w => w != v }
    let s1 := s.setGroup g x1
    match v.contributors with
    | [] => s1
    | (_, .surr c _) :: _ => (s1.surrender g x1 v c).getD
        (s1.setGroup g { x1 with rvs := { v with full := true } :: x1.rvs })
    | (_, .claim c _) :: _ => s1.enterClaim g x1 v c
    | cs => s1.setGroup g ((exchange cs).foldl (fun z p =>
        z.updFibre (32 * v.rank + p.1) fun f => (p.2 f).advance s.cycle) x1)

/-- After a change to a rank's masks, arrivals or fibres: what is complete is released and performed. -/
def State.settleRank (s : State) (g rank : Nat) : State :=
  let s1 := s.updGroup g fun x =>
    (List.range 8).foldl (fun y j => y.settleMask s.cycle rank (BitVec.ofNat 3 j)) x
  match s1.group? g with
  | none => s1
  | some x => (x.rvs.filter fun v => v.rank == rank).foldl (fun t v => t.settleOne g v) s1

/-! ### JSET, JWAIT, JWAITT, JDROP (R111, R112) -/

def maskWord (i : Instr) (h : Hdr) (m : BitVec 3) (inSet : Bool) (s : State) : Out :=
  runWord i h (fun _ _ => {}) (fun _ _ s =>
    let rank := s.cur.f / 32
    let b := laneBit s.cur.f
    let s1 := s.updGroup s.cur.g fun x =>
      let v := if inSet then x.mask rank m ||| b else x.mask rank m &&& ~~~b
      x.setMask rank m v (x.arrivedAt rank m &&& ~~~b)
    .ok (s1.settleRank s.cur.g rank)) s

def execJset (h : Hdr) (m : BitVec 3) (s : State) : Out := maskWord (.jset h m) h m true s
def execJdrop (h : Hdr) (m : BitVec 3) (s : State) : Out := maskWord (.jdrop h m) h m false s

/-- Arrive at a mask and wait; a fibre that is no member goes on at once. -/
def joinWord (i : Instr) (h : Hdr) (m : BitVec 3) (timed : Option (BitVec 4 × BitVec 16)) (s : State) : Out :=
  runWord i h (fun _ _ => {}) (fun g _ s =>
    let rank := s.cur.f / 32
    let b := laneBit s.cur.f
    if g.mask rank m &&& b = 0#32 then
      .ok (s.updFibre s.cur fun f => match timed with
        | none => f
        | some (p, _) => f.setP p true)
    else
      let s1 := s.updGroup s.cur.g fun x =>
        (x.setMask rank m (x.mask rank m) (x.arrivedAt rank m ||| b)).updFibre s.cur.f fun f =>
          { f with stat := .wait (.join m (timed.map (·.1))), since := s.cycle, budget := (timed.map (·.2)).getD 0#16 }
      .keep (s1.settleRank s.cur.g rank)) s

def execJwait (h : Hdr) (m : BitVec 3) (s : State) : Out := joinWord (.jwait h m) h m none s

def execJwaitt (h : Hdr) (p : BitVec 4) (m : BitVec 3) (budget : BitVec 16) (s : State) : Out :=
  joinWord (.jwaitt h p m budget) h m (some (p, budget)) s

/-- A fibre of the group has yet to issue in this cycle. -/
def State.issuing (s : State) (g : Nat) : Bool := s.issue.any fun p => p.fib.g == g && decide (p.cyc ≤ s.cycle)

/-- The budget of a fibre at JWAITT has run out, and no release in this cycle can still come: it stays a member, but has
not arrived (R112). -/
def execJwaittBudgetExpiry (g f : Nat) (s : State) : Out :=
  .next (match s.group? g with
    | none => s
    | some x =>
      match x.fibre? f with
      | none => s
      | some v =>
        if !budgetOut x v || s.issuing g then s else
        match v.stat with
        | .wait (.join m (some p)) =>
          s.setGroup g ((x.setMask (f / 32) m (x.mask (f / 32) m)
            (x.arrivedAt (f / 32) m &&& ~~~(laneBit f))).setFibre f ((v.advance s.cycle).setP p false))
        | _ => s)

/-! ### RXCHG, RVOTE, RRED, CLAIM, SURR -/

/-- Join the rendezvous of the rank at the fibre's PC, offering a value or none. -/
def Group.join (x : Group) (f : Nat) (v : Fibre) (mask : Option (BitVec 3)) (o : Option Offer) : Group :=
  let here (r : Rendezvous) := r.rank == f / 32 && r.pc == v.pos.pc && r.mask == mask && !r.full
  let me : Member := ⟨f % 32, v.inc, o⟩
  if x.rvs.any here then { x with rvs := x.rvs.map fun r => if here r then { r with members := me :: r.members } else r }
  else { x with rvs := ⟨f / 32, v.pos.pc, mask, [me], false⟩ :: x.rvs }

/-- The fibre is already present at its rendezvous: with its guard false it has executed the word, and the rendezvous
is still open. DESIGN CHOICE (assumption 54): what such a member does there again before the rendezvous is performed is not
stated; with its guard false it goes on, and with its guard true it waits for the next one. -/
def Group.joined (x : Group) (f : Nat) (v : Fibre) (mask : Option (BitVec 3)) : Bool :=
  x.rvs.any fun r => r.rank == f / 32 && r.pc == v.pos.pc && r.mask == mask &&
    r.members.any fun q => q.lane == f % 32 && q.inc == v.inc

/-- A fibre with its guard false takes part without contributing, and goes on (R113). -/
def State.attend (s : State) (mask : Option (BitVec 3)) : State :=
  match s.group? s.cur.g with
  | none => s
  | some x =>
    match x.fibre? s.cur.f with
    | none => s
    | some v =>
      let member := match mask with
        | some m => (x.mask (s.cur.f / 32) m).getLsbD (s.cur.f % 32)
        | none => true
      if !member || x.joined s.cur.f v mask then s
      else (s.setGroup s.cur.g (x.join s.cur.f v mask none)).settleRank s.cur.g (s.cur.f / 32)

/-- Take part with an offer: a fibre that is no member of the mask is alone (R113). -/
def rendezvousWord (i : Instr) (h : Hdr) (chks : List Chk) (gangOnly : Bool) (mask : Option (BitVec 3))
    (offer : Fibre → Offer) (s : State) : Out :=
  runWord i h (fun _ _ => { chks, gangOnly }) (fun g f s =>
    let lone := match mask with
      | some m => !(g.mask (s.cur.f / 32) m).getLsbD (s.cur.f % 32)
      | none => false
    if lone then
      .ok (s.updFibre s.cur fun v => ((exchange [(s.cur.f % 32, offer f)]).map (·.2)).foldl (fun w u => u w) v)
    else if g.joined s.cur.f f mask then .stall s (.taken mask)
    else
      let s1 := s.setGroup s.cur.g ((g.join s.cur.f f mask (some (offer f))).updFibre s.cur.f fun v =>
        { v with stat := .wait .rendezvous })
      .keep (s1.settleRank s.cur.g (s.cur.f / 32)))
    s (fun t => t.attend mask)

def execRxchg (h : Hdr) (d a : Reg) (b : Src) (ty : Ty) (mode : XMode) (m : BitVec 3) (s : State) : Out :=
  rendezvousWord (.rxchg h d a b ty mode m) h (Reg.chk a ty.regs ++ Src.chk b 1 ++ Reg.chk d ty.regs) false (some m)
    (fun f => .xchg mode (dw (f.rd ty a)) (f.src .z32 b % 32) (f.reg d) (ty == .b64)) s

def execRvote (h : Hdr) (d : VoteDst) (a : BitVec 4) (mode : VMode) (m : BitVec 3) (s : State) : Out :=
  rendezvousWord (.rvote h d a mode m) h (match d with | .reg r => Reg.chk r 1 | .pred _ => []) false (some m)
    (fun f => .vote mode (f.p a) (match d with | .reg r => f.reg r | .pred p => p.toNat)) s

def execRred (h : Hdr) (d a : Reg) (ty : Ty) (op : AtomOp) (m : BitVec 3) (s : State) : Out :=
  rendezvousWord (.rred h d a ty op m) h (Reg.chk a 1 ++ Reg.chk d 1) false (some m)
    (fun f => .red op ty (f.r (f.reg a)) (f.reg d)) s

def execClaim (h : Hdr) (d : Reg) (c : BitVec 14) (s : State) : Out :=
  rendezvousWord (.claim h d c) h (Reg.chk d 1) true none (fun f => .claim c.toNat (f.reg d)) s

def execSurr (h : Hdr) (d : Reg) (c : BitVec 14) (s : State) : Out :=
  rendezvousWord (.surr h d c) h (Reg.chk d 1) true none (fun f => .surr c.toNat (f.reg d)) s

/-- Claims that the pool covers are granted in order, and a SURR that waited for outstanding writes is tried again
(R154, R155). -/
def State.settleClaims (s : State) (g : Nat) : State :=
  match s.group? g with
  | none => s
  | some x => ((x.rvs.filter fun v => v.mask.isNone).foldl (fun t v => t.settleOne g v) s).grantClaims g

def execClaimGrant (g : Nat) (s : State) : Out :=
  .next (match s.group? g with
    | none => s
    | some x => if x.core?.isNone then s else s.settleClaims g)

end Sys2Proof.Machine
end

