-- ==== Sys2Proof/Machine/Scratch.lean ====
section
/-! DEFINITION. The scratchpad (R157 to R163), declared buffers and their transitions (R164 to R168), scratchpad loads,
stores and atomics (R171 to R174), and the buffer instructions (R175 to R177). -/

namespace Sys2Proof.Machine

/-! ### Buffer states -/

def Group.buf (x : Group) (n : Nat) : Buf := Tab.get {} x.bufs n

def Buf.lo (b : Buf) : Nat := 128 * b.base.toNat
def Buf.hi (b : Buf) : Nat := b.lo + 128 * (b.size.toNat + 1)

/-- A descriptor after a transition (R167, R175, R259). -/
def BufEvent.apply (b : Buf) : BufEvent → Buf
  | .decl v => v
  | .undecl => {}
  | .seal => { b with state := .full }
  | .drain => { b with state := .draining }
  | .done => { b with state := .empty }
  | .fetch abl => { b with state := .filling, held := true, abl, status := 0#8 }
  | .put => { b with state := .draining, held := true, status := 0#8 }

/-- A descriptor after every transition that has issued (R168). -/
def Group.bufNow (x : Group) (n : Nat) : Buf :=
  x.trans.foldl (fun b t => if t.buf.toNat = n then t.ev.apply b else b) (x.buf n)

/-- The state admits a program read, a program write (R166). -/
def BufState.admits : BufState → Bool → Bool
  | .empty, write => write
  | .filling, _ => false
  | .full, write => !write
  | .draining, write => !write

/-- The bytes of [lo, hi) that a buffer covers: the lowest of them, if any. -/
def Buf.meets (b : Buf) (lo hi : Nat) : Option Nat :=
  if b.decl && decide (max lo b.lo < min hi b.hi) then some (max lo b.lo) else none

/-- BUF_STATE of a program access to [lo, hi): the lowest offending offset (R166, R168). -/
def Group.bufFault (x : Group) (lo hi : Nat) (write : Bool) : Option Nat :=
  (List.range x.lr.nb).foldl (fun r n =>
    let b := x.bufNow n
    match b.meets lo hi with
    | some o => if b.state.admits write then r else match r with
      | some p => some (min p o)
      | none => some o
    | none => r) none

/-- ALIGN, SCRATCH_RANGE and BUF_STATE of an access of `n` bytes aligned to `k` (R162, R171). -/
def Group.scratchFault (x : Group) (off n k : Nat) (write : Bool) : Option (Cause × Dword) :=
  if off % k ≠ 0 then some (.align, dw off)
  else if off + n > x.lr.scr then some (.scratchRange, dw off)
  else (x.bufFault off (off + n) write).map fun o => (.bufState, dw o)

/-- An uncorrectable error in bytes that are read (R161). -/
def Group.eccFault (x : Group) (off n : Nat) : Bool := errIn x.scratchErr off n

def Group.scratchWrite (x : Group) (off : Nat) (bs : List Byte) : Group :=
  { x with scratch := Memory.write x.scratch off bs
           scratchErr := errClear x.scratchErr off bs.length }

/-! ### Transitions -/

/-- Two ranges of bytes meet. -/
def rangesMeet (a b : Nat × Nat) : Bool := decide (max a.1 b.1 < min a.2 b.2)

/-- Some operation issued before the transition makes an access that the buffer's new state forbids (R168). -/
def State.forbidden (s : State) (g : Nat) (id : Nat) (range : Nat × Nat) (st : BufState) : Bool :=
  s.ops.any fun o => decide (o.id < id) && o.sg == g &&
    ((!st.admits false && o.rd.any fun r => rangesMeet r range) || (!st.admits true && o.wr.any fun r => rangesMeet r range))

/-- Another transition that was issued before this one holds it back: of the same descriptor, or, for BDECL, any (R168,
R175). -/
def Trans.after (t u : Trans) : Bool :=
  decide (u.id < t.id) && (u.buf == t.buf || match t.ev with
    | .decl _ => true
    | .undecl => true
    | _ => false)

/-- A transition of a group's list can take effect. -/
def State.transReady (s : State) (g : Nat) (x : Group) (t : Trans) : Bool :=
  let b := x.buf t.buf.toNat
  let b' := t.ev.apply b
  !x.trans.any t.after &&
  !s.forbidden g t.id (b.lo, if b.decl then b.hi else b.lo) b'.state &&
  !(b'.decl && s.forbidden g t.id (b'.lo, b'.hi) b'.state)

/-- A posted task whose buffers all read FULL is ready, and stays so (R124). -/
def Group.markTasks (x : Group) : Group :=
  { x with tasks := x.tasks.map fun t =>
      if t.ready then t else
      { t with ready := (List.range 64).all fun n => !t.mask.getLsbD n || (x.buf n).state == .full } }

/-- A transition takes effect: its fibre, if it waits for it, goes on, and a transfer that it belongs to may start. -/
def State.applyTrans (s : State) (g : Nat) (t : Trans) : State :=
  let s1 := s.updGroup g fun x =>
    ({ x with trans := x.trans.filter fun u => u.id != t.id
              bufs := Tab.set {} t.buf.toNat (t.ev.apply (x.buf t.buf.toNat)) x.bufs }).markTasks
  let s2 := s1.updFibre t.fib fun f => if f.stat = .wait (.buffer t.id) then f.advance s.cycle else f
  { s2 with ops := s2.ops.map fun o => match o.kind with
      | .xfer v => if o.id == t.id then { o with kind := .xfer { v with effective := true, began := s.cycle } } else o
      | _ => o }

/-- Every transition of a group that can take effect does. -/
def State.settleTrans (s : State) (g : Nat) : State :=
  match s.group? g with
  | none => s
  | some x => x.trans.foldl (fun t v =>
      match t.group? g with
      | none => t
      | some y => if t.transReady g y v then t.applyTrans g v else t) s

/-- BUFFER_TRANSITION_EFFECT. -/
def execBufferTransitionEffect (g : Nat) (s : State) : Out := .next (s.settleTrans g)

/-! ### Loads, stores, atomics -/

/-- The effective offset of R162: the base read as z32, an immediate sign-extended, a register as z32. -/
def Fibre.off (f : Fibre) (m : Mem) : Nat :=
  ((f.r (f.reg m.base)) + (match m.off with
    | .reg r => f.r (f.reg r)
    | .imm k => k.signExtend 32)).toNat

/-- Bytes of an access by type. -/
def Ty.bytes (t : Ty) : Nat := t.width / 8

/-- What a load leaves in its registers (R172). -/
def loadValue (t : Ty) (bs : List Byte) : Nat :=
  let v := leNat bs
  match t with
  | .s8 => if v ≥ 0x80 then v + 0xFFFFFF00 else v
  | .s16 => if v ≥ 0x8000 then v + 0xFFFF0000 else v
  | _ => v

/-- The value an atomic writes, and its flags (R173, R267): m the old value, x the operand or compare value, y the new
value of .cas. -/
def atomNew (op : AtomOp) (t : Ty) (m x y : Nat) : Nat × Flags :=
  match op with
  | .add => if t == .f32 then fadd .f32 .rne false m x else intResult t false (Ty.toI t m + Ty.toI t x)
  | .min => if t == .f32 then fminmax false .f32 m x else (if Ty.toI t x < Ty.toI t m then x else m, 0#7)
  | .max => if t == .f32 then fminmax true .f32 m x else (if Ty.toI t m < Ty.toI t x then x else m, 0#7)
  | .and => (m &&& x, 0#7)
  | .or => (m ||| x, 0#7)
  | .xor => (m ^^^ x, 0#7)
  | .exch => (x, 0#7)
  | .cas => (if m = x then y else m, 0#7)

/-- The operand of an atomic in D, and its second value for .cas (R173). -/
def Fibre.atomArgs (f : Fibre) (op : AtomOp) (t : Ty) (d : Reg) : Dword × Dword :=
  (dw (f.rN (f.reg d) t.regs), if op == .cas then dw (f.rN (f.reg d + t.regs) t.regs) else 0#64)

/-- The operation is one of those that one fibre's program order orders on a common byte (R170). -/
def OpKind.isScratch : OpKind → Bool
  | .ldp .. => true
  | .stp .. => true
  | .atomp .. => true
  | _ => false

/-- A scratchpad access of the fibre to some of these bytes of a group is outstanding (R170). -/
def State.ownScratch (s : State) (r : FRef) (inc sg off n : Nat) : Bool :=
  s.ops.any fun o => o.fib == r && o.inc == inc && o.sg == sg && o.kind.isScratch &&
    (o.rd ++ o.wr).any fun a => rangesMeet a (off, off + n)

/-- Issue a scratchpad access of a fibre, checked against the extent of group `sg` (R162, R171). An uncorrectable error in what
it reads is judged after the fibre's own earlier accesses to the bytes; none appears in them before it is performed (DESIGN
CHOICE, assumption 37). -/
def scratchIssue (g : Group) (f : Fibre) (h : Hdr) (s : State) (sg : Nat) (x : Group) (off n : Nat) (rd wr : Bool)
    (kind : OpKind) (dst : List Nat) (taddr : Nat) : Res :=
  match x.scratchFault off n n wr with
  | some (.scratchRange, v) => .trap s .scratchRange v
  | some (c, v) => .trap s c v
  | none =>
    if rd && x.eccFault off n then
      if s.ownScratch s.cur f.inc sg off n then .stall s .scratch else .trap s .dataError (dw taddr)
    else .ok (s.addOp g f (f.counter h) kind dst sg (if rd then [(off, off + n)] else []) (if wr then [(off, off + n)] else []))

def execLdp (h : Hdr) (d : Reg) (m : Mem) (ty : Ty) (s : State) : Out :=
  runWord (.ldp h d m ty) h (fun _ _ => { counts := true, chks := Mem.chk m 1 ++ Reg.chk d ty.regs })
    (fun g f s => scratchIssue g f h s s.cur.g g (f.off m) (Ty.bytes ty) true false (.ldp (f.off m) ty (f.reg d))
      (regRange (f.reg d) ty.regs) (f.off m)) s

def execStp (h : Hdr) (d : Reg) (m : Mem) (ty : Ty) (s : State) : Out :=
  runWord (.stp h d m ty) h (fun _ _ => { counts := true, chks := Mem.chk m 1 ++ Reg.chk d ty.regs })
    (fun g f s => scratchIssue g f h s s.cur.g g (f.off m) (Ty.bytes ty) false true
      (.stp (f.off m) (leBytes (Ty.bytes ty) (f.rN (f.reg d) ty.regs))) [] (f.off m)) s

def execAtomp (h : Hdr) (d : Reg) (m : Mem) (ty : Ty) (op : AtomOp) (s : State) : Out :=
  runWord (.atomp h d m ty op) h (fun _ _ => { counts := true, chks := Mem.chk m 1 ++ Reg.chk d (op.regs ty) })
    (fun g f s =>
      let (x, y) := f.atomArgs op ty d
      scratchIssue g f h s s.cur.g g (f.off m) (Ty.bytes ty) true true (.atomp (f.off m) op ty x y (f.reg d))
        (regRange (f.reg d) ty.regs) (f.off m)) s

/-- The member a cluster address names and the offset in it, or the trap (R163). DESIGN CHOICE (assumption 54): sys.TADDR of
ALIGN holds the whole 32-bit effective value, the member's bits with it. -/
def State.clusterAddr (s : State) (g : Group) (ea n : Nat) : (Nat × Group) ⊕ (Cause × Dword) :=
  let off := ea % 2 ^ 29
  if off % n ≠ 0 then .inr (.align, dw ea)
  else
    let k := ea / 2 ^ 29
    if k ≥ g.lr.cl then .inr (.clusterAddr, dw ea) else
    match s.member? g k with
    | none => .inr (.clusterAddr, dw ea)
    | some id =>
      match s.group? id with
      | none => .inr (.clusterAddr, dw ea)
      | some x => if x.loc == .ended || decide (off + n > x.lr.scr) then .inr (.clusterAddr, dw ea) else .inl (id, x)

/-- LDC and STC: as LDP and STP on the member that the cluster address names (R174). -/
def clusterWord (i : Instr) (h : Hdr) (d : Reg) (m : Mem) (ty : Ty) (store : Bool) (s : State) : Out :=
  runWord i h (fun _ _ => { counts := true, chks := Mem.chk m 1 ++ Reg.chk d ty.regs })
    (fun g f s =>
      let ea := f.off m
      let n := Ty.bytes ty
      match s.clusterAddr g ea n with
      | .inr (c, v) => .trap s c v
      | .inl (id, x) =>
        let off := ea % 2 ^ 29
        if store then scratchIssue g f h s id x off n false true
          (.stp off (leBytes n (f.rN (f.reg d) ty.regs))) [] off
        else scratchIssue g f h s id x off n true false (.ldp off ty (f.reg d)) (regRange (f.reg d) ty.regs) off) s

def execLdc (h : Hdr) (d : Reg) (m : Mem) (ty : Ty) (s : State) : Out := clusterWord (.ldc h d m ty) h d m ty false s
def execStc (h : Hdr) (d : Reg) (m : Mem) (ty : Ty) (s : State) : Out := clusterWord (.stc h d m ty) h d m ty true s

/-- An earlier scratchpad access of the same fibre to a common byte is still outstanding (R170). -/
def State.scratchHeld (s : State) (o : Op) : Bool :=
  s.ops.any fun p => decide (p.id < o.id) && p.fib == o.fib && p.inc == o.inc && p.kind.isScratch && p.sg == o.sg &&
    (p.rd ++ p.wr).any fun a => (o.rd ++ o.wr).any fun b => rangesMeet a b

/-- Perform a scratchpad access and complete it (R172, R173). One that is outstanding when its member
ends is performed on the extent as it was left (assumption 14). -/
def State.performScratch (s : State) (o : Op) : State :=
  match s.group? o.sg with
  | none => s.finish o
  | some x =>
    match o.kind with
    | .ldp off t d => s.land o d t.regs (loadValue t (Memory.read x.scratch off (Ty.bytes t))) 0#7
    | .stp off bs => (s.setGroup o.sg (x.scratchWrite off bs)).finish o
    | .atomp off op t a b d =>
      let m := leNat (Memory.read x.scratch off (Ty.bytes t))
      let (v, fl) := atomNew op t m a.toNat b.toNat
      (s.setGroup o.sg (x.scratchWrite off (leBytes (Ty.bytes t) v))).land o d t.regs m fl
    | _ => s

/-! ### Buffer instructions -/

/-- A buffer instruction issues its transition: the fibre waits until it takes effect (R168). -/
def State.transition (s : State) (n : BitVec 6) (ev : BufEvent) : Res :=
  let id := s.nextId
  let s1 := s.updGroup s.cur.g fun x =>
    ({ x with trans := x.trans ++ [(⟨id, s.cur, n, ev⟩ : Trans)] } : Group).updFibre s.cur.f fun f => { f with stat := .wait (.buffer id) }
  .keep (({ s1 with nextId := id + 1 }).settleTrans s.cur.g)

/-- The checks of BDECL for a size that is not 0 (R175). -/
def Group.declFault (x : Group) (n : BitVec 6) (base size : Nat) : Option (Cause × Dword) :=
  let b := x.bufNow n.toNat
  if base % 128 ≠ 0 then some (.align, dw base)
  else if size % 128 ≠ 0 then some (.align, dw size)
  else if base + size > x.lr.scr then some (.scratchRange, dw (base + size))
  else if b.decl && (b.held || b.state != .empty) then some (.bufState, dw n.toNat)
  else ((List.range x.lr.nb).find? fun k => k != n.toNat && ((x.bufNow k).meets base (base + size)).isSome).map fun k =>
    (.bufState, dw k)

/-- The descriptor BDECL declares. -/
def declBuf (base size : Nat) (ty : Ty) (exp : BitVec 2) : Buf :=
  { abl := 0x3F#6, exp, fmt := ty.code, decl := true, size := BitVec.ofNat 13 (size / 128 - 1)
    base := BitVec.ofNat 13 (base / 128) }

def execBdecl (h : Hdr) (n : BitVec 6) (a b : Src) (ty : Ty) (exp : BitVec 2) (s : State) : Out :=
  runWord (.bdecl h n a b ty exp) h (fun g _ => { chks := Src.chk a 1 ++ Src.chk b 1 ++ bufChk g n })
    (fun g f s =>
      let base := f.src .z32 a
      let size := f.src .z32 b
      let v := g.bufNow n.toNat
      if size = 0 then
        if v.held || v.state != .empty then .trap s .bufState (dw n.toNat) else s.transition n .undecl
      else match g.declFault n base size with
        | some (c, t) => .trap s c t
        | none => s.transition n (.decl (declBuf base size ty exp))) s

/-- BSEAL, BDRAIN, BDONE: a transition, no effect where the buffer already holds the state, or BUF_STATE (R167,
R176). DESIGN CHOICE (assumption 45): they are judged as R168 judges an access, on the state after every transition that has
issued. -/
def bufWord (i : Instr) (h : Hdr) (n : BitVec 6) (from_ to_ : BufState) (ev : BufEvent) (s : State) : Out :=
  runWord i h (fun g _ => { chks := bufChk g n }) (fun g _ s =>
    let b := g.bufNow n.toNat
    if !b.decl || b.held then .trap s .bufState (dw n.toNat)
    else if b.state == to_ then .ok s
    else if b.state == from_ then s.transition n ev
    else .trap s .bufState (dw n.toNat)) s

def execBseal (h : Hdr) (n : BitVec 6) (s : State) : Out := bufWord (.bseal h n) h n .empty .full .seal s
def execBdrain (h : Hdr) (n : BitVec 6) (s : State) : Out := bufWord (.bdrain h n) h n .full .draining .drain s
def execBdone (h : Hdr) (n : BitVec 6) (s : State) : Out := bufWord (.bdone h n) h n .draining .empty .done s

def BufState.code : BufState → BitVec 2
  | .empty => 0 | .filling => 1 | .full => 2 | .draining => 3

/-- The descriptor in the layout of R164. -/
def Buf.word (b : Buf) : Dword :=
  if !b.decl then 0#64 else
  (b.status ++ b.abl ++ b.exp ++ b.fmt ++ BitVec.ofBool b.held ++ BitVec.ofBool b.decl ++ 0#7 ++ b.state.code ++ b.size
    ++ b.base ++ 0#6 : BitVec 64)

/-- Transitions that have taken effect show; those still waiting do not (R177). -/
def execBstat (h : Hdr) (d : Reg) (n : BitVec 6) (s : State) : Out :=
  runWord (.bstat h d n) h (fun g _ => { chks := bufChk g n ++ Reg.chk d 2 })
    (fun g _ s => .ok (s.updFibre s.cur fun v => v.wr d 2 (g.buf n.toNat).word.toNat)) s

end Sys2Proof.Machine
end

