-- ==== Sys2Proof/Machine/Gang.lean ====
section
/-! DEFINITION. Starting and ending fibres (R117 to R119), barriers (R120 to R122), tasks (R123, R124), child launches
(R125) and switch-out (R126). -/

namespace Sys2Proof.Machine

/-! ### Group barriers (R120, R121) -/

def Group.bar (x : Group) (n : BitVec 4) : Barrier := Tab.get {} x.bars n.toNat
def Group.setBar (x : Group) (n : BitVec 4) (b : Barrier) : Group := { x with bars := Tab.set {} n.toNat b x.bars }

/-- The fibre's pending arrival at barrier `n`: its phase. -/
def Fibre.pending (f : Fibre) (n : BitVec 4) : Option Nat := Tab.get none f.bars n.toNat
def Fibre.setPending (f : Fibre) (n : BitVec 4) (p : Option Nat) : Fibre := { f with bars := Tab.set none n.toNat p f.bars }

/-- The expected set of a phase: the live gang fibres that did not join during it (R120). -/
def Group.expected (x : Group) (b : Barrier) : List Nat := x.gang.filter fun f => !b.joined.contains f

/-- Release of a fibre that waits for the phase of barrier `n`: its instruction is done, or, where it waited only to
arrive, issues again (R121). -/
def releaseBar (cycle : Nat) (n : BitVec 4) (f : Fibre) : Fibre :=
  if f.stat = .wait (.bar n true) then f.wake cycle
  else if f.stat = .wait (.bar n false) then (f.setPending n none).advance cycle
  else f

/-- A phase whose expected fibres have all arrived completes (R120). -/
def Group.settleBar (x : Group) (cycle : Nat) (n : BitVec 4) : Group :=
  let b := x.bar n
  if (x.expected b).all b.arrived.contains then
    (x.setBar n { phase := b.phase + 1 }).mapFibres fun _ f => releaseBar cycle n f
  else x

/-- A fibre has an outstanding instruction that accesses a scratchpad; a transfer's accesses are the window's, not the
fibre's (R121, R166). -/
def State.scratchBusy (s : State) (r : FRef) (inc : Nat) : Bool :=
  s.ops.any fun o => o.fib == r && o.inc == inc && !(o.rd.isEmpty && o.wr.isEmpty) &&
    match o.kind with
    | .xfer _ => false
    | _ => true

/-- The fibre arrives at barrier `n`, and waits where `wait` says so. -/
def Group.arrive (x : Group) (cycle f : Nat) (n : BitVec 4) (wait : Bool) : Group :=
  let b := x.bar n
  ((x.setBar n { b with arrived := f :: b.arrived }).updFibre f fun v =>
    let w := v.setPending n (some b.phase)
    if wait then { w with stat := .wait (.bar n false) } else w.advance cycle).settleBar cycle n

/-- BAR and BARA: wait out an earlier arrival in the current phase, wait for the fibre's scratchpad accesses, and
arrive. -/
def arriveWord (i : Instr) (h : Hdr) (n : BitVec 4) (wait : Bool) (s : State) : Out :=
  runWord i h (fun _ _ => { gangOnly := true }) (fun g f s =>
    if f.pending n = some (g.bar n).phase then .keep (s.updFibre s.cur fun v => { v with stat := .wait (.bar n true) })
    else if s.scratchBusy s.cur f.inc then .stall s .scratch
    else .keep (s.updGroup s.cur.g fun x => x.arrive s.cycle s.cur.f n wait)) s

def execBar (h : Hdr) (n : BitVec 4) (s : State) : Out := arriveWord (.bar h n) h n true s
def execBara (h : Hdr) (n : BitVec 4) (s : State) : Out := arriveWord (.bara h n) h n false s

/-- Wait for the phase of the pending arrival, if there is one, and clear the record. -/
def execBarw (h : Hdr) (n : BitVec 4) (s : State) : Out :=
  runWord (.barw h n) h (fun _ _ => { gangOnly := true }) (fun g f s =>
    if f.pending n = some (g.bar n).phase then .keep (s.updFibre s.cur fun v => { v with stat := .wait (.bar n false) })
    else .ok (s.updFibre s.cur fun v => v.setPending n none)) s

/-! ### The cluster barrier (R120, R122) -/

/-- The cluster's barrier, which its member 0 keeps. -/
def State.cbarOf (s : State) (x : Group) : ClusterBarrier :=
  (((s.member? x 0).bind s.group?).map (·.cbar)).getD {}

def State.updCbar (s : State) (x : Group) (u : ClusterBarrier → ClusterBarrier) : State :=
  match s.member? x 0 with
  | none => s
  | some m => s.updGroup m fun y => { y with cbar := u y.cbar }

/-- The expected set: the union of those of the members. -/
def State.clusterExpected (s : State) (g : Nat) (b : ClusterBarrier) : List (Nat × Nat) :=
  (s.clusterOf g).flatMap fun k => match s.group? k with
    | none => []
    | some y => (y.gang.map fun f => (k, f)).filter fun p => !b.joined.contains p

/-- A phase whose expected fibres have all arrived completes; one of CBARX marks every member exited. -/
def State.settleCbar (s : State) (g : Nat) : State :=
  match s.group? g with
  | none => s
  | some x =>
    let b := s.cbarOf x
    if (s.clusterExpected g b).all b.arrived.contains then
      (s.clusterOf g).foldl (fun t k => t.updGroup k fun y => y.mapFibres fun _ f =>
          if f.stat = .wait .cbar then f.advance s.cycle else f)
        (s.updCbar x fun _ => { phase := b.phase + 1, exited := b.exited || b.exit_ == some true })
    else s

def cbarWord (i : Instr) (h : Hdr) (exit : Bool) (s : State) : Out :=
  runWord i h (fun _ _ => { gangOnly := true }) (fun g f s =>
    let b := s.cbarOf g
    if b.exited || b.exit_ == some (!exit) then .trap s .clusterExit 0#64
    else if s.scratchBusy s.cur f.inc then .stall s .scratch
    else
      let s1 := (s.updCbar g fun c => { c with arrived := (s.cur.g, s.cur.f) :: c.arrived, exit_ := some exit }).updFibre
        s.cur fun v => { v with stat := .wait .cbar }
      .keep (s1.settleCbar s.cur.g)) s

def execCbar (h : Hdr) (s : State) : Out := cbarWord (.cbar h) h false s
def execCbarx (h : Hdr) (s : State) : Out := cbarWord (.cbarx h) h true s

/-! ### FNEW, FEND (R117 to R119) -/

/-- An entry address that breaks R39 or R108. -/
def badEntry (a : Dword) : Bool := a.toNat % 12 != 0 || decide (a.toNat ≥ 2 ^ 56)

/-- A rank runs a wave. -/
def Group.runsWave (x : Group) (rank : Nat) : Bool := x.fibres.any fun p => p.1 / 32 == rank && p.2.wave

/-- The lowest free fibre number in a group's fibre ranks (R117). -/
def State.freeFibre (s : State) (g : Nat) (x : Group) : Option Nat :=
  (List.range (32 * x.ranks)).find? fun n =>
    (x.fibre? n).isNone && !(s.ops.any fun o => o.fib == ⟨g, n⟩) && !x.runsWave (n / 32)

/-- A new gang fibre joins every barrier from its next phase (R117, R120). -/
def Group.joinBars (x : Group) (n : Nat) : Group :=
  (List.range 16).foldl (fun y k =>
    let b := y.bar (BitVec.ofNat 4 k)
    y.setBar (BitVec.ofNat 4 k) { b with joined := n :: b.joined }) x

/-- Start fibre `n`, created by `f`, at an entry with v0 as given. -/
def State.startFibre (s : State) (g n : Nat) (f : Fibre) (entry : Dword) (v0 : Word) : State :=
  let v : Fibre := { pos := { pc := entry }, tmask := f.tmask, since := s.cycle + 1, inc := s.nextId }
  let s1 := { s with nextId := s.nextId + 1 }.updGroup g fun x => (x.setFibre n (v.setR 0 v0)).joinBars n
  match s1.group? g with
  | none => s1
  | some x => s1.updCbar x fun b => { b with joined := (g, n) :: b.joined }

def execFnew (h : Hdr) (d a : Reg) (b : Src) (s : State) : Out :=
  runWord (.fnew h d a b) h (fun _ _ => { gangOnly := true, chks := Reg.chk a 2 ++ Src.chk b 1 ++ Reg.chk d 1 })
    (fun _ f s =>
      let entry := f.rdPair a
      if badEntry entry then .trap s .clauseForm entry else
      let s1 := s.reclaim s.cur.g
      match (s1.group? s.cur.g).bind fun x => s1.freeFibre s.cur.g x with
      | none => .ok (s1.updFibre s.cur fun v => v.wr d 1 0xFFFFFFFF)
      | some n =>
        .ok ((s1.startFibre s.cur.g n f entry (BitVec.ofNat 32 (f.src .b32 b))).updFibre s.cur fun v => v.wr d 1 n)) s

/-- A fibre leaves its group, every mask, barrier and rendezvous (R118). -/
def Group.removeFibre (x : Group) (f : Nat) : Group :=
  let rank := f / 32
  let keep := ~~~(laneBit f)
  let y := (List.range 8).foldl (fun z j =>
    let m := BitVec.ofNat 3 j
    z.setMask rank m (x.mask rank m &&& keep) (x.arrivedAt rank m &&& keep)) x
  { y with
    fibres := Tab.del f x.fibres
    bars := (x.bars.map fun p => (p.1, { p.2 with
      joined := p.2.joined.filter (· != f), arrived := p.2.arrived.filter (· != f) })).filter fun p => p.2 != {}
    rvs := x.rvs.map fun v => if v.rank = rank then { v with members := v.members.filter fun q => q.lane != f % 32 } else v }

/-- A group with no live fibre gives up its fibre ranks while tasks are posted (R99); with none it ends: its core's dirty
lines are written back (R340), a report that it still holds is posted (R277), and its launch counts it (R99). -/
def State.endIfDone (s : State) (g : Nat) : State :=
  match s.group? g with
  | none => s
  | some x =>
    if !x.fibres.isEmpty || x.loc == .ended then s
    else if !x.tasks.isEmpty then s.updGroup g fun y => { y with released := true }
    else
    let s1 := match x.core? with
      | some c => s.writeBack c (s.ctx x.ctx).asid
      | none => s
    let s2 := (match x.gslot with
      | some v => s1.postFault x.ctx v.body
      | none => s1).updGroup g fun y => { y with loc := .ended, gslot := none }
    match Tab.find s2.launches x.launch with
    | none => s2
    | some l => { s2 with launches := Tab.put x.launch { l with ended := l.ended + 1 } s2.launches }

/-- A fibre ends: a report it still holds passes to its group (R277), what its leaving completes is completed (R118), and a
rank that has lost its last live gang fibre is taken into account by the claim queue (R155). DESIGN CHOICE (assumption 54):
where one FEND both frees a whole rank and leaves every live rank with a claim, the spec orders neither first; the blocks
are returned and the head of the queue granted before the check. -/
def State.endFibre (s : State) (r : FRef) : State :=
  let held := (s.fibre? r).bind fun f => f.slot
  let s0 := s.updGroup r.g fun x =>
    (List.range 16).foldl (fun y n => y.settleBar s.cycle (BitVec.ofNat 4 n)) (x.removeFibre r.f)
  let s1 := match held, s0.group? r.g with
    | some v, some x => s0.reportGroup r.g x.ctx v
    | _, _ => s0
  match s1.group? r.g with
  | none => s1
  | some x =>
    let s2 := (s1.updCbar x fun b => { b with joined := b.joined.filter (· != (r.g, r.f)), arrived := b.arrived.filter (· != (r.g, r.f)) })
    let s3 := (s2.settleRank r.g (r.f / 32)).settleCbar r.g
    let s4 := if x.gang.any fun n => n / 32 == r.f / 32 then s3 else (s3.grantClaims r.g).checkStalled r.g
    s4.endIfDone r.g

/-- The last live gang fibre of a cluster member may not end before the cluster has exited (R119). -/
def State.mustExit (s : State) (g : Group) (f : Fibre) : Bool :=
  !f.wave && decide (g.lr.cl ≥ 2) && g.gang == [s.cur.f] && !(s.cbarOf g).exited

def execFend (h : Hdr) (s : State) : Out :=
  runWord (.fend h) h (fun _ _ => {}) (fun g f s =>
    if s.mustExit g f then .trap s .clusterExit 0#64 else .keep (s.endFibre s.cur)) s

/-! ### Tasks (R123, R124) -/

/-- The lowest bit of a buffer mask at or above the group's descriptor count. -/
def maskFault (g : Group) (mask : Dword) : Option Nat :=
  (List.range 64).find? fun n => mask.getLsbD n && decide (n ≥ g.lr.nb)

def execTask (h : Hdr) (d a b : Reg) (s : State) : Out :=
  runWord (.task h d a b) h (fun _ _ => { chks := Reg.chk a 2 ++ Reg.chk b 2 ++ Reg.chk d 2 })
    (fun g f s =>
      let entry := f.rdPair a
      if badEntry entry then .trap s .clauseForm entry else
      match maskFault g (f.rdPair d) with
      | some n => .trap s .regRange (dw n)
      | none =>
        if g.tasks.length ≥ 256 then .stall s .tasks
        else .ok (s.updGroup s.cur.g fun x =>
          ({ x with tasks := x.tasks ++ [({ entry, mask := f.rdPair d, arg := f.rdPair b, tmask := f.tmask &&& ~~~0x80#64
                                            ready := false } : Task)] } : Group).markTasks)) s

/-- A task rank is free when no fibre of it is live (R124). -/
def Group.idleRank (x : Group) (rank : Nat) : Bool := !x.fibres.any fun p => p.1 / 32 == rank

/-- Ranks that a resident group holds: all of them, or, once it was left with posted tasks only, its task ranks and the
fibre ranks in which waves run (R98, R99). -/
def Group.heldRanks (x : Group) : Nat :=
  if x.released then x.lr.t + ((List.range x.ranks).filter fun r => !x.idleRank r).length else x.ranks + x.lr.t

/-- A rank more fits on the core of a group that has given up its fibre ranks (R97, R99). DESIGN CHOICE (assumption 57): such a
group may run a wave in a fibre rank again where the core has room for one. -/
def State.rankRoom (s : State) (x : Group) : Bool :=
  !x.released || decide (((s.groups.filter fun p => p.2.loc == x.loc).map fun p => p.2.heldRanks).foldl (· + ·) 0 < 32)

/-- The lowest-numbered free rank, task ranks first; a fibre rank must hold its first blocks (R124, R133). -/
def State.waveRank (s : State) (g : Nat) (x : Group) : Option Nat :=
  (((List.range x.lr.t).map fun k => x.ranks + k).find? x.idleRank).or
    ((List.range x.ranks).find? fun r => s.rankFree g x r && x.blocks r == x.blocks0 && s.rankRoom x)

/-- The fibre that runs a task: its argument pointer in v0 and v1 (R132). -/
def waveFibre (s : State) (lane : Nat) (t : Task) : Fibre :=
  Fibre.setN { pos := { pc := t.entry }, tmask := t.tmask, wave := true, since := s.cycle + 1, inc := s.nextId + lane }
    0 2 t.arg.toNat

/-- Start a wave in rank `r`: the oldest ready task and up to 31 more with its entry, in posting order. -/
def State.startWave (s : State) (g : Nat) (x : Group) (r : Nat) (entry : Dword) : State :=
  let picked := (x.tasks.zipIdx.filter fun p => p.1.ready && p.1.entry == entry).take 32
  let left := (x.tasks.zipIdx.filter fun p => !(picked.map (·.2)).contains p.2).map (·.1)
  let y := (List.range 8).foldl (fun z j => z.setMask r (BitVec.ofNat 3 j) 0#32 0#32) { x with tasks := left }
  let z := picked.zipIdx.foldl (fun z p => z.setFibre (32 * r + p.2) (waveFibre s p.2 p.1.1)) y
  { s with nextId := s.nextId + 32 }.setGroup g z

def State.taskWave (s : State) (g : Nat) : State :=
  let s1 := s.reclaim g
  match s1.group? g with
  | none => s
  | some x =>
    if x.core?.isNone || x.stopping || x.forked.isSome then s else
    match s1.waveRank g x, x.tasks.find? (·.ready) with
    | some r, some t => s1.startWave g x r t.entry
    | _, _ => s

def execTaskWaveStart (g : Nat) (s : State) : Out := .next (s.taskWave g)

/-! ### FORK (R125) -/

/-- Post a child launch: the fibre is suspended until it has completed. -/
def State.postChild (s : State) (g : Group) (f : Fibre) (d : Nat) (va : Dword) : State :=
  let l := (Tab.find s.launches g.launch).getD { queue := none, ctx := g.ctx, pad := 0, prio := 0, lr := g.lr }
  let child : Launch := { queue := none, ctx := g.ctx, pad := l.pad, prio := l.prio, lr := {}, parent := some s.cur
                          recVa := va, pc := f.pos.pc, depth := l.depth + 1 }
  { s with launches := Tab.put s.nextId child s.launches, nextId := s.nextId + 1 }.updGroup s.cur.g fun x =>
    { x with forked := some s.sheaf }.updFibre s.cur.f fun v => { v with stat := .wait (.fork s.nextId d) }

def execFork (h : Hdr) (d a : Reg) (s : State) : Out :=
  runWord (.fork h d a) h (fun _ _ => { gangOnly := true, chks := Reg.chk a 2 ++ Reg.chk d 1 })
    (fun g f s =>
      let va := f.rdPair a
      if va.toNat % 64 ≠ 0 ∨ va.toNat ≥ 2 ^ 56 then .trap s .align va
      else if g.lr.cl ≥ 2 then .trap s .forkInCluster 0#64
      else if ((Tab.find s.launches g.launch).map (·.depth)).getD 0 ≥ 16 then .ok (s.updFibre s.cur fun v => v.wr d 1 2)
      else .keep (s.postChild g f (f.reg d) va)) s

/-! ### Switch-out (R126) -/

def Fibre.isParked (f : Fibre) : Bool := match f.stat with | .parked .. => true | _ => false

/-- A fibre waits on a parked fibre of its group, or for the cluster barrier of its cluster (R126). -/
def State.waitsOnParked (s : State) (g : Nat) (x : Group) (n : Nat) (f : Fibre) : Bool :=
  let parked := x.fibres.filter fun p => p.2.isParked
  match f.stat with
  | .wait (.join m _) => parked.any fun p =>
      p.1 / 32 == n / 32 && (x.mask (n / 32) m &&& ~~~(x.arrivedAt (n / 32) m)).getLsbD (p.1 % 32)
  | .wait .rendezvous => x.rvs.any fun v =>
      v.rank == n / 32 && v.members.any (fun q => q.lane == n % 32 && q.inc == f.inc) &&
      parked.any fun p => p.1 / 32 == v.rank && (match v.mask with
        | some m => (x.mask v.rank m).getLsbD (p.1 % 32)
        | none => !p.2.wave) && !v.members.any fun q => q.lane == p.1 % 32 && q.inc == p.2.inc
  | .wait (.bar k _) => parked.any fun p => (x.expected (x.bar k)).contains p.1 && !(x.bar k).arrived.contains p.1
  | .wait .cbar =>
    let b := s.cbarOf x
    (s.clusterExpected g b).any fun p => !b.arrived.contains p &&
      ((s.fibre? ⟨p.1, p.2⟩).map Fibre.isParked).getD false
  | _ => false

/-- The group has a parked fibre, and every live fibre is parked or waits on one; or it has ended. -/
def State.allParked (s : State) (g : Nat) : Bool :=
  match s.group? g with
  | none => false
  | some x => x.loc == .ended || (x.core?.isSome && (x.fibres.any fun p => p.2.isParked) &&
      x.fibres.all fun p => !p.2.stopped && (p.2.isParked || s.waitsOnParked g x p.1 p.2))

/-- The group, with its cluster, is to be saved. -/
def execGroupSwitchOut (g : Nat) (s : State) : Out :=
  .next (if (s.clusterOf g).all s.allParked then
    (s.clusterOf g).foldl (fun t k => t.updGroup k fun x => { x with stopping := true, swapped := true }) s else s)

end Sys2Proof.Machine
end

