-- ==== Sys2Proof/Machine/Sweep.lean ====
section
/-! DEFINITION. Sweeps (R178 to R186). -/

namespace Sys2Proof.Machine

/-- How a sweep uses its B field: as an operand, as a value, or not at all (R180). -/
inductive BUse where
  | operand | value | none
  deriving DecidableEq, Repr

def SweepFn.bUse : SweepFn → BUse
  | .add | .sub | .mul | .fma | .min | .max | .selp => .operand
  | .scal => .value
  | _ => .none

def SweepFn.isRed : SweepFn → Bool
  | .sumr | .maxr => true
  | _ => false

/-- The source type of VCVT; of any other sweep, the element type (R182). -/
def SweepOp.src (o : SweepOp) : Ty :=
  if o.fn = .cvt then (Ty.ofSweepCode (o.w.opt.extractLsb' 0 4)).getD o.w.ty else o.w.ty

/-- Elements of one iteration (R180, R182). -/
def SweepOp.elems (o : SweepOp) : Nat := 1024 / max o.src.width o.w.ty.width

/-- Bytes of one segment of A and of D. -/
def SweepOp.lenA (o : SweepOp) : Nat := o.elems * o.src.width / 8
def SweepOp.lenD (o : SweepOp) : Nat := o.elems * o.w.ty.width / 8

def SweepOp.segA (o : SweepOp) (n : Nat) : Nat := o.a.toNat + 16 * o.w.astep.toNat * n
def SweepOp.segB (o : SweepOp) (n : Nat) : Nat := o.b.toNat + 16 * o.w.bstep.toNat * n
def SweepOp.segD (o : SweepOp) (n : Nat) : Nat := o.d.toNat + 16 * o.w.dstep.toNat * n

/-- Iterations of a group of VSUMR and VMAXR (R181). -/
def SweepOp.gsize (o : SweepOp) : Nat := 2 ^ (o.w.opt.toNat % 8)
def SweepOp.accumulates (o : SweepOp) : Bool := o.w.opt.getLsbD 3

/-- The ranges an operand touches: A and B segments are read, D segments written; a reduction writes its results. -/
def SweepOp.ranges (o : SweepOp) (x : Nat → Nat) (len : Nat) : List (Nat × Nat) :=
  (List.range o.w.count.toNat).map fun n => (x n, x n + len)

def SweepOp.readsA (o : SweepOp) : List (Nat × Nat) := if o.fn = .fill then [] else o.ranges o.segA o.lenA
def SweepOp.readsB (o : SweepOp) : List (Nat × Nat) := if o.fn.bUse = .operand then o.ranges o.segB 128 else []
def SweepOp.writesD (o : SweepOp) : List (Nat × Nat) :=
  if o.fn.isRed then (List.range (o.w.count.toNat / o.gsize)).map fun m => (o.d.toNat + 4 * m, o.d.toNat + 4 * m + 4)
  else o.ranges o.segD o.lenD

/-- ALIGN, SCRATCH_RANGE, BUF_STATE of one operand (R179). -/
def Group.sweepFault (x : Group) (base : Nat) (rs : List (Nat × Nat)) (write : Bool) : Option (Cause × Dword) :=
  if rs.isEmpty then none
  else if base % 16 ≠ 0 then some (.align, dw base)
  else match rs.find? fun r => decide (r.2 > x.lr.scr) with
    | some r => some (.scratchRange, dw r.1)
    | none => (rs.findSome? fun r => x.bufFault r.1 r.2 write).map fun o => (.bufState, dw o)

/-- The checks of R179 after REG_RANGE, over A, B and D. -/
def SweepOp.fault (o : SweepOp) (x : Group) : Option (Cause × Dword) :=
  (x.sweepFault o.a.toNat o.readsA false).or
    ((x.sweepFault o.b.toNat o.readsB false).or (x.sweepFault o.d.toNat o.writesD true))

/-- A count of 0 does nothing (R28). DESIGN CHOICE (assumption 54): its base registers are then not checked either. -/
def sweepSpec (fn : SweepFn) (w : Sweep) : WordSpec :=
  if w.count = 0#12 then { counts := true } else
  { counts := true, unit := some .sweep
    chks := [.direct w.a.toNat] ++ (if fn.bUse = .none then [] else [.direct w.b.toNat]) ++ [.direct w.d.toNat] }

def sweepWord (i : Instr) (h : Hdr) (fn : SweepFn) (w : Sweep) (s : State) : Out :=
  runWord i h (fun _ _ => sweepSpec fn w) (fun g f s =>
    if w.count = 0#12 then .ok s else
    let o : SweepOp := { fn, w, d := f.r w.d.toNat, a := f.r w.a.toNat, b := f.r w.b.toNat
                         sel := f.p (w.opt.extractLsb' 0 4) != w.opt.getLsbD 4 }
    match o.fault g with
    | some (c, v) => .trap s c v
    | none => .ok (s.addOp g f (f.counter h) (.sweep o) [] s.cur.g (o.readsA ++ o.readsB) o.writesD)) s

def execVadd (h : Hdr) (w : Sweep) (s : State) : Out := sweepWord (.vadd h w) h .add w s
def execVsub (h : Hdr) (w : Sweep) (s : State) : Out := sweepWord (.vsub h w) h .sub w s
def execVmul (h : Hdr) (w : Sweep) (s : State) : Out := sweepWord (.vmul h w) h .mul w s
def execVfma (h : Hdr) (w : Sweep) (s : State) : Out := sweepWord (.vfma h w) h .fma w s
def execVmin (h : Hdr) (w : Sweep) (s : State) : Out := sweepWord (.vmin h w) h .min w s
def execVmax (h : Hdr) (w : Sweep) (s : State) : Out := sweepWord (.vmax h w) h .max w s
def execVabs (h : Hdr) (w : Sweep) (s : State) : Out := sweepWord (.vabs h w) h .abs w s
def execVexp2 (h : Hdr) (w : Sweep) (s : State) : Out := sweepWord (.vexp2 h w) h .exp2 w s
def execVrcp (h : Hdr) (w : Sweep) (s : State) : Out := sweepWord (.vrcp h w) h .rcp w s
def execVrsq (h : Hdr) (w : Sweep) (s : State) : Out := sweepWord (.vrsq h w) h .rsq w s
def execVtanh (h : Hdr) (w : Sweep) (s : State) : Out := sweepWord (.vtanh h w) h .tanh w s
def execVcvt (h : Hdr) (w : Sweep) (s : State) : Out := sweepWord (.vcvt h w) h .cvt w s
def execVcpy (h : Hdr) (w : Sweep) (s : State) : Out := sweepWord (.vcpy h w) h .cpy w s
def execVfill (h : Hdr) (w : Sweep) (s : State) : Out := sweepWord (.vfill h w) h .fill w s
def execVsumr (h : Hdr) (w : Sweep) (s : State) : Out := sweepWord (.vsumr h w) h .sumr w s
def execVmaxr (h : Hdr) (w : Sweep) (s : State) : Out := sweepWord (.vmaxr h w) h .maxr w s
def execVscal (h : Hdr) (w : Sweep) (s : State) : Out := sweepWord (.vscal h w) h .scal w s
def execVselp (h : Hdr) (w : Sweep) (s : State) : Out := sweepWord (.vselp h w) h .selp w s

/-! ### One iteration -/

/-- Element `j` of width `w` bits in bytes. -/
def elemAt (bs : List Byte) (w j : Nat) : Nat := leNat bs / 2 ^ (w * j) % 2 ^ w

/-- The absolute value of a float code: the sign cleared, a NaN made canonical (R180). -/
def floatAbs (t : Ty) (c : Nat) : Nat × Flags :=
  match decodeNum t c with
  | .nan sig => (Ty.nanCode t, flagIf sig fIV)
  | _ => (c % Ty.signBit t, 0#7)

/-- The result of one element from a, b and d (R180). -/
def SweepOp.elem (o : SweepOp) (a b d : Nat) : Nat × Flags :=
  let t := o.w.ty
  let rnd : Rnd := if o.w.opt.getLsbD 0 then .rz else .rne
  let sat := o.w.opt.getLsbD 1
  let int (f : Int → Int → Int) := intResult t sat (f (Ty.toI t a) (Ty.toI t b))
  match o.fn with
  | .add => if t.isFloat then fadd t rnd sat a b else int (· + ·)
  | .sub => if t.isFloat then fsub t rnd sat a b else int (· - ·)
  | .mul => if t.isFloat then fmul t rnd sat a b else int (· * ·)
  | .fma => if t.isFloat then ffma t rnd sat a b d else int fun x y => x * y + Ty.toI t d
  | .min => if t.isFloat then fminmax false t a b else int min
  | .max => if t.isFloat then fminmax true t a b else int max
  | .abs => if t.isFloat then floatAbs t a else intResult t sat (Ty.toI t a).natAbs
  | .exp2 => approx .exp2 a
  | .rcp => approx .rcp a
  | .rsq => approx .rsq a
  | .tanh => approx .tanh a
  | .scal => fmul t rnd sat a b
  | .fill => (o.a.toNat, 0#7)
  | .selp => (if o.sel then a else b, 0#7)
  | _ => (a, 0#7)

/-- The elements of one iteration of VCVT: under SR they are one group (R182). -/
def SweepOp.convertSeg (o : SweepOp) (codes : List Nat) : List (Nat × Flags) :=
  match o.w.cvtRnd with
  | some .sr =>
    let vs := codes.map (decodeNum o.src)
    vs.zipIdx.map fun p => roundTo o.w.ty (groupRM o.w.ty .sr vs p.2) false p.1
  | rnd => codes.map fun c => convert o.w.ty o.src (rnd.getD .rne) false 0 c

/-- Write one segment of a sweep that is no reduction: the new bytes and the flags. -/
def SweepOp.segment (o : SweepOp) (x : Group) (n : Nat) : List Byte × Flags :=
  let w := o.w.ty.width
  let as := Memory.read x.scratch (o.segA n) o.lenA
  let bs := Memory.read x.scratch (o.segB n) 128
  let ds := Memory.read x.scratch (o.segD n) o.lenD
  let js := List.range o.elems
  let rs := if o.fn = .cvt then o.convertSeg (js.map fun j => elemAt as o.src.width j)
    else js.map fun j => o.elem (elemAt as w j)
      (if o.fn = .scal then o.b.toNat % 2 ^ w else elemAt bs w j) (elemAt ds w j)
  (leBytes o.lenD (packCodes w (rs.map (·.1))), mergeFlags (rs.map (·.2)))

/-- One step of a reduction on two running results: a .f32 code, or an exact integer (R181). -/
def SweepOp.combine (o : SweepOp) (x y : Int) : Int × Flags :=
  if o.w.ty = .f32 then
    let (v, f) := if o.fn = .sumr then fadd .f32 .rne false x.toNat y.toNat else fminmax true .f32 x.toNat y.toNat
    (v, f)
  else (if o.fn = .sumr then x + y else max x y, 0#7)

/-- The tree over the 32 elements of a segment (R181). -/
def SweepOp.segTree (o : SweepOp) (codes : List Nat) : Int × Flags :=
  if o.w.ty = .f32 then
    let (xs, f) := redTree (if o.fn = .sumr then .add else .max) .f32 5 (codes.map some)
    (((xs.head?).bind id).getD 0, f)
  else
    let vs := codes.map (Ty.toI o.w.ty)
    (if o.fn = .sumr then vs.foldl (· + ·) 0 else vs.foldl max ((vs.head?).getD 0), 0#7)

/-- One iteration of a reduction; the last of a group writes its result. -/
def SweepOp.reduceStep (o : SweepOp) (x : Group) : SweepOp × Group :=
  let n := o.done
  let as := Memory.read x.scratch (o.segA n) 128
  let (v, f0) := o.segTree ((List.range 32).map fun j => elemAt as 32 j)
  let (r, f1) := if n % o.gsize = 0 then (v, 0#7) else o.combine o.acc v
  let o1 := { o with done := n + 1, acc := r, flags := o.flags ||| f0 ||| f1 }
  if (n + 1) % o.gsize ≠ 0 then (o1, x) else
  let off := o.d.toNat + 4 * (n / o.gsize)
  let old := leNat (Memory.read x.scratch off 4)
  let (q, f2) := if o.accumulates then o.combine (if o.w.ty = .f32 then old else Ty.toI o.w.ty old) r else (r, 0#7)
  let (c, f3) := if o.w.ty = .f32 then (q.toNat, 0#7) else intResult o.w.ty false q
  ({ o1 with flags := o1.flags ||| f2 ||| f3 }, x.scratchWrite off (leBytes 4 c))

/-- The ranges that the next iteration reads. -/
def SweepOp.nextReads (o : SweepOp) : List (Nat × Nat) :=
  let n := o.done
  (if o.fn = .fill then [] else [(o.segA n, o.lenA)]) ++ (if o.fn.bUse = .operand then [(o.segB n, 128)] else []) ++
  (if o.fn = .fma then [(o.segD n, 128)] else []) ++
  (if o.fn.isRed && o.accumulates && (n + 1) % o.gsize == 0 then [(o.d.toNat + 4 * (n / o.gsize), 4)] else [])

/-- The next iteration. -/
def SweepOp.iterate (o : SweepOp) (x : Group) : SweepOp × Group :=
  if o.fn.isRed then o.reduceStep x else
  let (bs, f) := o.segment x o.done
  ({ o with done := o.done + 1, flags := o.flags ||| f }, x.scratchWrite (o.segD o.done) bs)

/-- The first sweep accepted on a core: those of a group that resumed come first (R184), by their place among the
operations; those of a group that has ended continue (R118). -/
def State.firstSweep (s : State) (c : Nat) : Option (Op × SweepOp × Group) :=
  s.ops.findSome? fun o => match o.kind with
    | .sweep w => match s.group? o.fib.g with
      | some x => if x.sweepCore? = some c then some (o, w, x) else none
      | none => none
    | _ => none

/-- The core's sweep unit performs one iteration; the last one completes the sweep (R178, R183). An error in what it
reads ends it (R161); DESIGN CHOICE (assumption 37): sys.TADDR of its report is the start of the first range, of A, B and D, that
holds the error. -/
def State.sweepIterate (s : State) (c : Nat) : State :=
  match s.firstSweep c with
  | none => s
  | some (o, w, x) =>
    match w.nextReads.find? fun r => x.eccFault r.1 r.2 with
    | some r => (s.land o 0 0 0 w.flags).dataError o (dw r.1)
    | none =>
      let (w', x') := w.iterate x
      let s1 := s.setGroup o.fib.g x'
      if w'.done ≥ w.w.count.toNat then s1.land o 0 0 0 w'.flags else s1.setOp { o with kind := .sweep w' }

def execSweepComplete (c : Nat) (s : State) : Out := .next (s.sweepIterate c)

end Sys2Proof.Machine
end

