-- ==== Sys2Proof/Machine/Matrix.lean ====
section
/-! DEFINITION. The matrix array (R187 to R207): planes, swaps, multiplications and tile moves. -/

namespace Sys2Proof.Machine

/-! ### Planes and tiles (R192 to R196) -/

/-- Kmax, and the chunk of R81, by the width of an element (R193). -/
def kMax (t : Ty) : Nat := 1024 / t.width
def kChunk (t : Ty) : Nat := 256 / t.width

/-- Stored rows of a sparse group; 0 for a dense plane (R195). -/
def Plane.nsel (p : Plane) : Nat := if p.sp = 1#2 then 4 else if p.sp = 2#2 then 2 else 0

/-- The code in row `r`, column `n`. -/
def Plane.cell (p : Plane) (t : Ty) (r n : Nat) : Nat :=
  let bit := t.width * (128 * r + n)
  let byte (k : Nat) := (Tab.get 0#8 p.cells (bit / 8 + k)).toNat
  (byte 0 + 256 * byte 1) / 2 ^ (bit % 8) % 2 ^ t.width

/-- The metadata nibble of stored row `s`, column `n`. -/
def Plane.nib (p : Plane) (s n : Nat) : Nat := (Tab.get 0#8 p.nibs (64 * s + n / 2)).toNat / 16 ^ (n % 2) % 16

/-- The scale code of block `b`, column `n`. -/
def Plane.scale (p : Plane) (b n : Nat) : Nat := (Tab.get 0#8 p.scales (128 * b + n)).toNat

def Group.tile (x : Group) (t l n : Nat) : Word := Tab.get 0#32 x.tiles (4096 * t + 128 * l + n)

/-- Write a row of a tile, from element `n` on. -/
def Group.setRow (x : Group) (t l n : Nat) : List Word → Group
  | [] => x
  | v :: r => Group.setRow { x with tiles := Tab.set 0#32 (4096 * t + 128 * l + n) v x.tiles } t l (n + 1) r

/-- A row of a tile holds an uncorrectable error (R199). -/
def Group.rowBad (x : Group) (t l : Nat) : Bool := x.tileErr.contains (32 * t + l)

/-- What every element becomes that an operation writes which has read an uncorrectable error (R199). -/
def badRow : List Word := List.replicate 128 0x7FC00000#32

/-- Write a whole row of a tile. -/
def Group.putRow (x : Group) (t l : Nat) (row : List Word) : Group :=
  { x.setRow t l 0 row with tileErr := x.tileErr.filter fun k => k != 32 * t + l }

def Group.row (x : Group) (t l : Nat) : List Word := (List.range 128).map fun n => x.tile t l n

/-- The tiles an operation reads or writes (R197). -/
def OpKind.tiles : OpKind → List Nat
  | .mma t _ _ _ _ _ => [t.toNat]
  | .azero t => [t.toNat]
  | .ald t _ => [t.toNat]
  | .ast t _ => [t.toNat]
  | .amov t u => [t.toNat, u.toNat]
  | .qst t _ _ _ _ _ _ => [t.toNat]
  | _ => []

def OpKind.isWld : OpKind → Bool
  | .wld .. => true
  | _ => false

def OpKind.isMma : OpKind → Bool
  | .mma .. => true
  | _ => false

/-- The operation is one the array performs. -/
def OpKind.isMatrix : OpKind → Bool
  | .wld .. => true
  | .mma .. => true
  | .azero _ => true
  | .ald .. => true
  | .ast .. => true
  | .amov .. => true
  | _ => false

/-! ### WLD, WLDX (R201) -/

/-- Rows of the plane that a lane loads, and their bytes. -/
def laneRows (t : Ty) (lane : Nat) : List Nat := (List.range (kMax t / 32)).map fun i => lane + 32 * i
def rowBytes (t : Ty) : Nat := 16 * t.width

def imageSize (t : Ty) (sp : Sparsity) (scl : Bool) : Nat :=
  0x4000 + (if sp = .dense then 0 else 0x2000) + (if scl then kMax t * 4 else 0)

/-- The bytes of a plane image that a lane reads: offsets within the image, rows, then metadata, then scales. -/
def imageRanges (t : Ty) (sp : Sparsity) (scl : Bool) (lane : Nat) : List (Nat × Nat) :=
  ((laneRows t lane).map fun r => (rowBytes t * r, rowBytes t * r + rowBytes t)) ++
  (if sp = .dense then [] else (laneRows t lane).map fun r => (0x4000 + 64 * r, 0x4000 + 64 * r + 64)) ++
  (if scl ∧ lane < kMax t / 32 then [(0x4000 + 128 * lane, 0x4000 + 128 * lane + 128)] else [])

/-- A waiting WSWAP holds back loads and multiplies of its group while it is due (R198, R202). DESIGN CHOICE (assumption 58):
one that waits for a later sequence number is not yet accepted before them, and they pass it. -/
def Group.swapDue (x : Group) : Bool :=
  x.fibres.any fun p => match p.2.stat with
    | .wait (.swap v) => v == x.pseq
    | _ => false

/-- The image bytes of some ranges, each at its offset in the part that starts at `from_`. -/
def Group.imageBytes (x : Group) (p from_ : Nat) (rs : List (Nat × Nat)) : List (Nat × Byte) :=
  rs.flatMap fun r => ((Memory.read x.scratch (p + r.1) (r.2 - r.1)).zipIdx).map fun b => (r.1 - from_ + b.2, b.1)

/-- METADATA: the first byte of the metadata that holds a nibble of 12 or more. -/
def metaFault (p : Nat) (nibs : List (Nat × Byte)) : Option Dword :=
  (nibs.find? fun b => decide (b.2.toNat % 16 ≥ 12) || decide (b.2.toNat / 16 ≥ 12)).map fun b => dw (p + 0x4000 + b.1)

def wldWord (i : Instr) (h : Hdr) (m : Mem) (t : Ty) (sp : Sparsity) (scl : Bool) (s : State) : Out :=
  runWord i h (fun _ _ => { counts := true, chks := Mem.chk m 1, unit := some .matrix }) (fun g f s =>
    let p := f.off m
    let lane := s.cur.f % 32
    let rs := imageRanges t sp scl lane
    if !g.lr.mg then .trap s .noArray 0#64
    else if p % 128 ≠ 0 then .trap s .align (dw p)
    else if p + imageSize t sp scl > g.lr.scr then .trap s .scratchRange (dw (p + imageSize t sp scl))
    else match rs.findSome? fun r => g.bufFault (p + r.1) (p + r.2) false with
      | some o => .trap s .bufState (dw o)
      | none =>
        let rows := g.imageBytes p 0 (rs.filter fun r => decide (r.1 < 0x4000))
        let tail := g.imageBytes p 0x4000 (rs.filter fun r => decide (r.1 ≥ 0x4000))
        match if sp = .dense then none else metaFault p tail with
        | some v => .trap s .metadata v
        | none =>
          if g.swapDue then .keep (s.awaitUnit .matrix)
          else .ok (s.addOp g f (f.counter h) (.wld t sp.code scl rows (if scl then [] else tail) (if scl then tail else [])
              (rs.findSome? fun r => if g.eccFault (p + r.1) (r.2 - r.1) then some (p + r.1) else none))
            [] s.cur.g (rs.map fun r => (p + r.1, p + r.2)) [])) s

def execWld (h : Hdr) (m : Mem) (ty : Ty) (sp : Sparsity) (s : State) : Out := wldWord (.wld h m ty sp) h m ty sp false s
def execWldx (h : Hdr) (m : Mem) (ty : Ty) (s : State) : Out := wldWord (.wldx h m ty) h m ty .dense true s

def putBytes (t : Tab Byte) (bs : List (Nat × Byte)) : Tab Byte := bs.foldl (fun u b => Tab.set 0#8 b.1 b.2 u) t

/-- The shadow plane after a load. DESIGN CHOICE (assumption 58): a load of another element width leaves the bytes of the rows
that it does not load as they stand in the image, to be read in the plane's format. -/
def Plane.load (p : Plane) (t : Ty) (sp : BitVec 2) (scl : Bool) (rows nibs scales : List (Nat × Byte)) : Plane :=
  let q := if p.loaded then
      { p with mixed := p.mixed || p.fmt != t.code || p.sp != sp || p.scl != scl }
    else { p with fmt := t.code, sp, scl, loaded := true }
  let done := (rows.map fun b => b.1 / rowBytes t).eraseDups
  { q with cells := putBytes p.cells rows, nibs := putBytes p.nibs nibs, scales := putBytes p.scales scales
           err := p.err.filter fun r => !done.contains r }

/-! ### WSWAP (R202) -/

/-- A swap that has already been performed has no effect; any other waits for PLANE_SWAP. The array accepts it in its turn
(R103, R197). -/
def execWswap (h : Hdr) (a : Src) (s : State) : Out :=
  runWord (.wswap h a) h (fun _ _ => { chks := Src.chk a 1, unit := some .matrix }) (fun g f s =>
    let v := BitVec.ofNat 16 (f.src .z32 a)
    if !g.lr.mg then .trap s .noArray 0#64
    else if (v - g.pseq).toNat ≥ 0x8000 then .ok s
    else .keep (s.updFibre s.cur fun w => { w with stat := .wait (.swap v), since := s.cycle })) s

/-- Exchange the planes. -/
def Group.swap (x : Group) : Group :=
  { x with active := x.shadow, shadow := { x.active with loaded := false, mixed := false }, pseq := x.pseq + 1#16 }

/-- Fibres whose swap has been performed go on. -/
def Group.releaseSwaps (x : Group) (cycle : Nat) : Group :=
  x.mapFibres fun _ f => match f.stat with
    | .wait (.swap v) => if (v - x.pseq).toNat ≥ 0x8000 then f.advance cycle else f
    | _ => f

/-- PLANE_SWAP: once the loads and multiplies of the group have been performed, the oldest WSWAP that is due swaps, or
raises SHAPE_INVALID where the loads were mixed. -/
def State.planeSwap (s : State) (g : Nat) : State :=
  match s.group? g with
  | none => s
  | some x =>
    if x.core?.isNone || (s.ops.any fun o => o.fib.g == g && (o.kind.isWld || o.kind.isMma)) then s else
    let due := x.fibres.filter fun p => p.2.stat == .wait (.swap x.pseq)
    match sortBy (fun a b : Nat × Fibre => decide (a.2.since < b.2.since)) due with
    | [] => s
    | p :: _ =>
      if x.shadow.mixed then s.takeTrap ⟨g, p.1⟩ .shapeInvalid (x.pseq.setWidth 64)
      else s.setGroup g ((x.swap.updFibre p.1 fun f => f.advance s.cycle).releaseSwaps s.cycle)

def execPlaneSwap (g : Nat) (s : State) : Out := .next (s.planeSwap g)

/-! ### Multiplication (R203 to R205) -/

/-- K of R203: elements of the A row. -/
def mmaK (p : Plane) (t : Ty) (kb q : Nat) : Nat :=
  if q ≠ 0 then kMax t else if p.nsel = 0 then 32 * kb else 12 * 32 * kb / p.nsel

/-- Issue of a multiply: `q` is not 0 for MMAB, `scale` given for MMAX. -/
def mmaWord (i : Instr) (h : Hdr) (t : BitVec 4) (a : Reg) (ty : Ty) (kb q : Nat) (sc : Option (Reg × Nat))
    (s : State) : Out :=
  let srcs := match sc with
    | some (r, _) => Reg.chk r (if ty == .e2m1 then 2 else 1)
    | none => []
  runWord i h (fun g _ => { counts := true, chks := Reg.chk a 1 ++ srcs ++ tileChk g t, unit := some .matrix })
    (fun g f s =>
      let ac := g.active
      let off := (f.r (f.reg a)).toNat
      let n := mmaK ac ty kb q * ty.width / 8
      if !g.lr.mg then .trap s .noArray 0#64
      else if g.swapDue then .keep (s.awaitUnit .matrix)
      else if ac.fmt != ty.code || (sc.isSome && !ac.scl) || ((sc.isSome || q != 0) && ac.sp != 0#2) then
        .trap s .shapeInvalid (ac.fmt.setWidth 64)
      else match g.scratchFault off n 16 false with
        | some (c, v) => .trap s c v
        | none =>
          let scale := sc.map fun p => (if ty == .e2m1 then f.rdPair p.1 else (f.r (f.reg p.1)).setWidth 64, p.2)
          .ok (s.addOp g f (f.counter h) (.mma t off ty kb q scale) [] s.cur.g [(off, off + n)] [])) s

def execMma (h : Hdr) (t : BitVec 4) (a : Reg) (ty : Ty) (kb : BitVec 3) (s : State) : Out :=
  mmaWord (.mma h t a ty kb) h t a ty (kb.toNat + 1) 0 none s

def execMmab (h : Hdr) (t : BitVec 4) (a : Reg) (ty : Ty) (q : BitVec 2) (s : State) : Out :=
  mmaWord (.mmab h t a ty q) h t a ty 0 (2 ^ (q.toNat + 1)) none s

def execMmax (h : Hdr) (t : BitVec 4) (a b : Reg) (ty : Ty) (bsel : BitVec 2) (kb : BitVec 3) (s : State) : Out :=
  mmaWord (.mmax h t a b ty bsel kb) h t a ty (kb.toNat + 1) 0 (some (b, bsel.toNat)) s

/-- A term of R204: its position, its factors, and the sum of its scale exponents, none beside a scale of 0xFF. -/
structure Term where
  pos : Nat
  x : Val
  w : Val
  sc : Option Int

/-- The exact product of a term. -/
def Term.value (t : Term) : Val :=
  match t.sc with
  | none => .nan false
  | some k => ((t.x.mul t.w).1).shift (-k)

/-- The terms of column `n`, and the first and last position (R204). -/
def mmaTerms (p : Plane) (ty : Ty) (xs : Array Val) (kb q : Nat) (scale : Option (Dword × Nat)) (n : Nat) :
    List Term × Nat × Nat :=
  let x (k : Nat) := (xs[k]?).getD (.fin (Dy.zero false))
  let w (r : Nat) := decodeNum ty (p.cell ty r n)
  if q ≠ 0 then
    let len := kMax ty / q
    let lo := n / (128 / q) * len
    ((List.range len).map fun i => ⟨lo + i, x (lo + i), w (lo + i), some 0⟩, lo, lo + len)
  else if p.nsel ≠ 0 then
    ((List.range (32 * kb)).map fun r =>
      let k := 12 * (r / p.nsel) + p.nib r n
      ⟨k, x k, w r, some 0⟩, 0, mmaK p ty kb q)
  else
    ((List.range (32 * kb)).map fun k =>
      let sc := match scale with
        | none => some 0
        | some (v, bsel) =>
          let a := (v.extractLsb' (8 * (bsel + k / 32)) 8).toNat
          let b := p.scale (k / 32) n
          if a = 0xFF ∨ b = 0xFF then none else some ((a : Int) + b - 254)
      ⟨k, x k, w k, sc⟩, 0, 32 * kb)

/-- The exact sum of a chunk; positions that no term names count as zeros (R81). -/
def chunkSum (vs : List Val) (full : Bool) : Val :=
  let zero : Val := .fin (Dy.zero false)
  match (if full then vs else zero :: vs) with
  | [] => zero
  | v :: r => r.foldl (fun a b => (a.add b).1) v

/-- The accumulation of R81 over chunks 0 to k − 1 from an accumulator code. -/
def accumulate (ts : List Term) (lo hi ch : Nat) : Nat → Nat × Flags → Nat × Flags
  | 0, acc => acc
  | k + 1, acc =>
    let (a, f) := accumulate ts lo hi ch k acc
    let mine := ts.filter fun t => (t.pos - lo) / ch == k
    let full := decide (((mine.map (·.pos)).eraseDups).length ≥ min ch (hi - lo - k * ch))
    let (c, f1) := roundTo .f32 .rne false (chunkSum (mine.map Term.value) full)
    let (r, f2) := fadd .f32 .rne false a c
    (r, f ||| f1 ||| f2)

/-- One column: the new element, and its flags with IV as R205 has it. -/
def mmaColumn (p : Plane) (ty : Ty) (xs : Array Val) (kb q : Nat) (scale : Option (Dword × Nat)) (n acc : Nat) :
    Nat × Flags :=
  let (ts, lo, hi) := mmaTerms p ty xs kb q scale n
  let ch := kChunk ty
  let (r, f) := accumulate ts lo hi ch ((hi - lo + ch - 1) / ch) (acc, 0#7)
  let nanIn := (decodeNum .f32 acc).isNan || ts.any fun t => t.x.isNan || t.w.isNan || t.sc.isNone
  (r, (f &&& ~~~fIV) ||| flagIf (r == 0x7FC00000 && !nanIn) fIV)

/-- The row a multiply leaves, and the merged flags. -/
def mmaRow (x : Group) (t l off : Nat) (ty : Ty) (kb q : Nat) (scale : Option (Dword × Nat)) : List Word × Flags :=
  let k := mmaK x.active ty kb q
  let bs := leNat (Memory.read x.scratch off (k * ty.width / 8))
  let xs := ((List.range k).map fun j => decodeNum ty (bs / 2 ^ (ty.width * j) % 2 ^ ty.width)).toArray
  let rs := (List.range 128).map fun n => mmaColumn x.active ty xs kb q scale n (x.tile t l n).toNat
  (rs.map fun r => BitVec.ofNat 32 r.1, mergeFlags (rs.map (·.2)))

/-! ### Tile moves (R207) -/

def tileWord (i : Instr) (h : Hdr) (counts : Bool) (chks : Group → List Chk) (kind : OpKind) (s : State) : Out :=
  runWord i h (fun g _ => { counts, chks := chks g, unit := some .matrix })
    (fun g f s => .ok (s.addOp g f none kind [] s.cur.g)) s

def execAzero (h : Hdr) (t : BitVec 4) (s : State) : Out :=
  tileWord (.azero h t) h false (fun g => tileChk g t) (.azero t) s

def execAmov (h : Hdr) (t u : BitVec 4) (s : State) : Out :=
  tileWord (.amov h t u) h false (fun g => tileChk g u ++ tileChk g t) (.amov t u) s

/-- ALD and AST: the 512 bytes of a row. -/
def rowWord (i : Instr) (h : Hdr) (t : BitVec 4) (m : Mem) (store : Bool) (s : State) : Out :=
  runWord i h (fun g _ => { counts := true, chks := Mem.chk m 1 ++ tileChk g t, unit := some .matrix }) (fun g f s =>
    let off := f.off m
    match g.scratchFault off 512 16 store with
    | some (c, v) => .trap s c v
    | none =>
      let r := [(off, off + 512)]
      .ok (s.addOp g f (f.counter h) (if store then .ast t off else .ald t off) [] s.cur.g
        (if store then [] else r) (if store then r else []))) s

def execAld (h : Hdr) (t : BitVec 4) (m : Mem) (s : State) : Out := rowWord (.ald h t m) h t m false s
def execAst (h : Hdr) (t : BitVec 4) (m : Mem) (s : State) : Out := rowWord (.ast h t m) h t m true s

/-! ### Performing (R197) -/

/-- No earlier operation of the group acts on one of its tiles, and no earlier load is ahead of a load. -/
def State.matrixReady (s : State) (o : Op) : Bool :=
  !(s.ops.any fun p => decide (p.id < o.id) && p.fib.g == o.fib.g &&
    ((o.kind.isWld && p.kind.isWld) || p.kind.tiles.any fun t => o.kind.tiles.contains t))

/-- Rows of the active plane that a multiply reads (R203). -/
def rowsRead (ty : Ty) (kb q : Nat) : Nat := if q ≠ 0 then kMax ty else 32 * kb

/-- The operation reads a plane row or a tile row that holds an uncorrectable error (R199). DESIGN CHOICE (assumption 37):
one in the scratchpad bytes of a multiply or of ALD, of which no rule speaks, counts as well. -/
def Group.matrixBad (x : Group) (l : Nat) : OpKind → Bool
  | .mma t off ty kb q _ => x.rowBad t.toNat l || x.active.err.any (fun r => decide (r < rowsRead ty kb q)) ||
      x.eccFault off (mmaK x.active ty kb q * ty.width / 8)
  | .ald _ off => x.eccFault off 512
  | .ast t _ => x.rowBad t.toNat l
  | .amov _ u => x.rowBad u.toNat l
  | _ => false

/-- Perform one accepted operation. One that reads an uncorrectable error writes 0x7FC0_0000, and is reported (R199). DESIGN
CHOICE (assumption 58): a load that read one leaves the shadow plane as it was, and a multiply that did sets no flag. DESIGN CHOICE (assumption 37): sys.TADDR of a load's report is the start of the first range of the
image that held an error as it was read, at issue; that of the others, which have no offset of the error, is a free value.
DESIGN CHOICE (assumption 58): AMOV of a tile to itself reads its row, and so rewrites one that holds an error (R199, R207). -/
def State.performMatrix (s : State) (o : Op) : State :=
  match s.group? o.fib.g with
  | none => s.finish o
  | some x =>
    let l := o.fib.f % 32
    let bad := x.matrixBad l o.kind
    let told (t : State) : State := if bad then t.dataError o s.freeAddr else t
    match o.kind with
    | .wld t sp scl rows nibs scales err =>
      match err with
      | some r => (s.finish o).dataError o (dw r)
      | none => (s.setGroup o.fib.g { x with shadow := x.shadow.load t sp scl rows nibs scales }).finish o
    | .mma t off ty kb q scale =>
      let (row, f) := if bad then (badRow, 0#7) else mmaRow x t.toNat l off ty kb q scale
      told ((s.setGroup o.fib.g (x.putRow t.toNat l row)).land o 0 0 0 f)
    | .azero t => (s.setGroup o.fib.g (x.putRow t.toNat l (List.replicate 128 0#32))).finish o
    | .ald t off =>
      let bs := Memory.read x.scratch off 512
      told ((s.setGroup o.fib.g (x.putRow t.toNat l
        (if bad then badRow else (List.range 128).map fun n => BitVec.ofNat 32 (elemAt bs 32 n)))).finish o)
    | .ast t off =>
      told ((s.setGroup o.fib.g (x.scratchWrite off
        ((if bad then badRow else x.row t.toNat l).flatMap fun w => leBytes 4 w.toNat))).finish o)
    | .amov t u => told ((s.setGroup o.fib.g (x.putRow t.toNat l (if bad then badRow else x.row u.toNat l))).finish o)
    | _ => s

def execMatrixOpPerform (o : Nat) (s : State) : Out :=
  .next (match s.op? o with
    | some p => if p.kind.isMatrix && s.matrixReady p then s.performMatrix p else s
    | none => s)

end Sys2Proof.Machine
end

