-- ==== Sys2Proof/Machine/Banks.lean ====
section
/-! DEFINITION. Residue banks and the quantising store (R209 to R224). -/

namespace Sys2Proof.Machine

/-! ### Bank state (R212, R217, R218) -/

def Group.bank (x : Group) (b : BitVec 3) : Bank := Tab.get {} x.banks b.toNat
def Group.setBank (x : Group) (b : BitVec 3) (v : Bank) : Group := { x with banks := Tab.set {} b.toNat v x.banks }

/-- Lane `l`'s position on axis N. -/
def Bank.posOf (b : Bank) (l : Nat) : Nat := (Tab.get 0#8 b.pos l).toNat

/-- The tile that the order expects at position `p`, or none when it is exhausted (R217). -/
def Bank.expected (b : Bank) (p : Nat) : Option Nat :=
  if !b.wrap && p == b.len.toNat then none
  else some (b.order.toNat / 16 ^ (if b.wrap then p % b.len.toNat else p) % 16)

/-- How the turn rule judges a store. -/
inductive Verdict where
  | go
  | hold
  | order (taddr : Dword)
  deriving DecidableEq, Repr

/-- sys.TADDR of ORDER. -/
def orderAddr (t l next : Nat) (e : Option Nat) : Dword := dw (t + 256 * e.getD 0xFF + 65536 * l + 2 ^ 24 * next)

/-- R217 for lane `l` and tile `t`. -/
def Bank.judge (b : Bank) (l t : Nat) : Verdict :=
  if b.axisM then
    let e := b.expected b.mpos.toNat
    if e ≠ some t ∨ l > b.rows.toNat ∨ l < b.next.toNat then .order (orderAddr t l b.next.toNat e)
    else if l > b.next.toNat then .hold else .go
  else
    let e := b.expected (b.posOf l)
    if e ≠ some t then .order (orderAddr t l 0 e) else .go

/-- The position after `p`. -/
def Bank.stepPos (b : Bank) (p : Nat) : Nat := if b.wrap then (p + 1) % b.len.toNat else p + 1

/-- The bank advances past a store of lane `l` (R218). -/
def Bank.advanced (b : Bank) (l : Nat) : Bank :=
  if b.axisM then
    if l + 1 > b.rows.toNat then { b with next := 0#5, mpos := BitVec.ofNat 5 (b.stepPos b.mpos.toNat) }
    else { b with next := BitVec.ofNat 5 (l + 1) }
  else { b with pos := Tab.set 0#8 l (BitVec.ofNat 8 (b.stepPos (b.posOf l))) b.pos }

/-- HCLR (R223). -/
def Bank.cleared (b : Bank) : Bank := { b with ent := [], pos := [], next := 0#5, mpos := 0#5, err := [] }

/-- The bank an operation reads or writes. -/
def OpKind.bank? : OpKind → Option (BitVec 3)
  | .qst _ _ _ rnd _ b _ => if rnd = .ns then some b else none
  | .qstp _ _ _ rnd _ b _ => if rnd = .ns then some b else none
  | .hdecl b _ => some b
  | .hsave b _ => some b
  | .hload b _ => some b
  | .hclr b => some b
  | _ => none

/-- The operation is one the quantising store performs. -/
def OpKind.isBankOp : OpKind → Bool
  | .qst .. => true
  | .qstp .. => true
  | .hdecl .. => true
  | .hsave .. => true
  | .hload .. => true
  | .hclr _ => true
  | _ => false

/-- What an accepted operation of lane `l` makes of the state of bank `b`, its entries apart. -/
def OpKind.bankAfter (k : OpKind) (l : Nat) (b : Bank) : Bank :=
  match k with
  | .qst .. => b.advanced l
  | .hdecl _ v => v
  | .hload _ v => v
  | .hclr _ => b.cleared
  | _ => b

/-- The bank as it will stand after every accepted operation on it (R217). -/
def State.bankNow (s : State) (g : Nat) (x : Group) (b : BitVec 3) : Bank :=
  (s.ops.filter fun o => o.fib.g == g && o.kind.bank? == some b).foldl
    (fun v o => o.kind.bankAfter (o.fib.f % 32) v) (x.bank b)

/-! ### The image (R212, R222) -/

def Bank.image (b : Bank) : List Byte :=
  leBytes 8 (2 ^ 43 * b.fmt.toNat + (if b.decl then 2 ^ 42 else 0) + (if b.axisM then 2 ^ 41 else 0) +
      (if b.wrap then 2 ^ 40 else 0) + (if b.mx then 2 ^ 39 else 0) + 2 ^ 34 * b.len.toNat + 2 ^ 29 * b.rows.toNat +
      2 ^ 24 * b.next.toNat + 2 ^ 19 * b.mpos.toNat) ++
    leBytes 8 b.order.toNat ++ (List.range 32).map (fun l => Tab.get 0#8 b.pos l) ++ List.replicate 16 0#8 ++
    (List.range 128).flatMap fun j => leBytes 4 (Tab.get 0#32 b.ent j).toNat

/-- The bank an image describes. -/
def Bank.ofImage (bs : List Byte) : Bank :=
  let q := leNat (bs.take 8)
  { fmt := BitVec.ofNat 5 (bits q 47 43), decl := bits q 42 42 == 1, axisM := bits q 41 41 == 1, wrap := bits q 40 40 == 1
    mx := bits q 39 39 == 1, len := BitVec.ofNat 5 (bits q 38 34), rows := BitVec.ofNat 5 (bits q 33 29)
    next := BitVec.ofNat 5 (bits q 28 24), mpos := BitVec.ofNat 5 (bits q 23 19)
    order := dw (leNat ((bs.drop 8).take 8))
    pos := (List.range 32).foldl (fun t l => Tab.set 0#8 l (((bs.drop 16)[l]?).getD 0#8) t) []
    ent := (List.range 128).foldl (fun t j =>
      Tab.set 0#32 j (BitVec.ofNat 32 (leNat ((bs.drop (64 + 4 * j)).take 4))) t) [] }

/-- The fields of a declaration that HDECL would refuse, and those that must be zero (R213, R222). -/
def Bank.fieldsOk (b : Bank) (na : Nat) : Bool :=
  (match Ty.ofCode b.fmt with
    | some t => t.isPlane && !(b.mx && (t == .f16 || t == .bf16))
    | none => false) &&
  decide (b.len.toNat ≤ 16) && !(b.axisM && b.mx) && !(b.axisM && b.len == 0#5) && (b.axisM || b.rows == 0#5) &&
  decide (b.order.toNat < 16 ^ b.len.toNat) && (!b.axisM || b.pos.isEmpty) &&
  (b.axisM || (b.next == 0#5 && b.mpos == 0#5)) &&
  (b.pos.all fun p => decide (p.2.toNat ≤ b.len.toNat)) && decide (b.mpos.toNat ≤ b.len.toNat) &&
  !(b.wrap && ((List.range 32).any (fun l => b.posOf l == b.len.toNat) || b.mpos == b.len)) &&
  decide (b.next.toNat ≤ b.rows.toNat) &&
  (List.range b.len.toNat).all fun i => decide (b.order.toNat / 16 ^ i % 16 < na)

/-- HLOAD accepts the header of an image (R222). -/
def imageOk (bs : List Byte) (na : Nat) : Bool :=
  let q := leNat (bs.take 8)
  let b := Bank.ofImage bs
  bits q 63 48 == 0 && bits q 18 0 == 0 && (((bs.drop 48).take 16).all fun x => x == 0#8) &&
  if b.decl then b.fieldsOk na else (bs.take 64).all fun x => x == 0#8

/-! ### Issue -/

/-- Bytes a quantising store writes: the codes of `m` elements, and a scale byte for each 32 of them under MX. -/
def storeBytes (m : Nat) (t : Ty) (mx : Bool) : Nat := m * t.width / 8 + if mx then m / 32 else 0

/-- The faults of R219 under NS that come before the memory faults: sys.TADDR. -/
def Bank.shapeFault (b : Bank) (t : Ty) (mx register : Bool) : Option Dword :=
  if !b.decl || b.fmt != t.code || b.mx != mx || (b.len == 0#5) != register then some (b.fmt.setWidth 64) else none

/-- DESIGN CHOICE (assumption 54): the bank under NS, which stands in no operand field, is checked after A, B and D. -/
def execQst (h : Hdr) (t : BitVec 4) (m : Mem) (ty : Ty) (rnd : Rnd) (sat : Bool) (h3 : BitVec 3) (mx : Bool)
    (s : State) : Out :=
  runWord (.qst h t m ty rnd sat h3 mx) h
    (fun g _ => { counts := true, chks := Mem.chk m 1 ++ tileChk g t ++ (if rnd = .ns then bankChk g h3 else [])
                  unit := some .qstore })
    (fun g f s =>
      let off := f.off m
      let n := storeBytes 128 ty mx
      let b := s.bankNow s.cur.g g h3
      let go := Res.ok (s.addOp g f (f.counter h) (.qst t off ty rnd sat h3 mx) [] s.cur.g [] [(off, off + n)])
      match if rnd = .ns then b.shapeFault ty mx false else none with
      | some v => .trap s .shapeInvalid v
      | none =>
        match g.scratchFault off n 16 true with
        | some (c, v) => .trap s c v
        | none =>
          if rnd ≠ .ns then go else
          match b.judge (s.cur.f % 32) t.toNat with
          | .go => go
          | .order v => .trap s .order v
          | .hold => .keep (s.updFibre s.cur fun v => { v with stat := .wait (.turn h3 t) })) s

def execQstp (h : Hdr) (d : Reg) (m : Mem) (ty : Ty) (rnd : Rnd) (sat : Bool) (h3 : BitVec 3) (mx : Bool)
    (s : State) : Out :=
  runWord (.qstp h d m ty rnd sat h3 mx) h
    (fun g _ => { counts := true, chks := Mem.chk m 1 ++ [.span d 32 4] ++ (if rnd = .ns then bankChk g h3 else [])
                  unit := some .qstore })
    (fun g f s =>
      let off := f.off m
      let n := storeBytes 32 ty mx
      let xs := (List.range 32).map fun j => f.r (f.reg d + j)
      match if rnd = .ns then (s.bankNow s.cur.g g h3).shapeFault ty mx true else none with
      | some v => .trap s .shapeInvalid v
      | none =>
        match g.scratchFault off n 16 true with
        | some (c, v) => .trap s c v
        | none => .ok (s.addOp g f (f.counter h) (.qstp xs off ty rnd sat h3 mx) [] s.cur.g [] [(off, off + n)])) s

/-- The fibre whose turn has come, or whose store is to be refused, issues it afresh (R217). DESIGN CHOICE (assumption 58): while
it is held the turn alone is judged, so that a bank declared afresh with another format raises SHAPE_INVALID once the turn
has come. -/
def State.turnAccept (s : State) (g n : Nat) : State :=
  match s.group? g with
  | none => s
  | some x =>
    match x.fibre? n with
    | none => s
    | some f =>
      match f.stat with
      | .wait (.turn b t) =>
        let v := s.bankNow g x b
        if x.core?.isSome && !(v.axisM && v.judge (n % 32) t.toNat == .hold) then
          s.updFibre ⟨g, n⟩ fun w => w.wake s.cycle
        else s
      | _ => s

def execQstTurnAccept (g f : Nat) (s : State) : Out := .next (s.turnAccept g f)

/-- A tile that the group does not hold (R215): of several, that of the lowest position (DESIGN CHOICE, assumption 45). -/
def orderFault (order : Dword) (len na : Nat) : Option Nat :=
  ((List.range len).map fun i => order.toNat / 16 ^ i % 16).find? fun t => decide (t ≥ na)

def execHdecl (h : Hdr) (b : BitVec 3) (a : Reg) (len : BitVec 14) (ty : Ty) (axis wrap mx : Bool) (rows : BitVec 5)
    (s : State) : Out :=
  runWord (.hdecl h b a len ty axis wrap mx rows) h
    (fun g _ => { chks := Reg.chk a 2 ++ bankChk g b, unit := some .qstore })
    (fun g f s =>
      let order := f.rdPair a
      match orderFault order len.toNat g.lr.na with
      | some t => .trap s .regRange (dw (0xD800 + t))
      | none =>
        let v : Bank := { fmt := ty.code, decl := true, axisM := axis, wrap, mx, len := len.setWidth 5, rows
                          order := dw (order.toNat % 16 ^ len.toNat) }
        .ok (s.addOp g f none (.hdecl b v) [] s.cur.g)) s

def execHclr (h : Hdr) (b : BitVec 3) (s : State) : Out :=
  runWord (.hclr h b) h (fun g _ => { chks := bankChk g b, unit := some .qstore })
    (fun g f s => .ok (s.addOp g f none (.hclr b) [] s.cur.g)) s

def execHsave (h : Hdr) (b : BitVec 3) (m : Mem) (s : State) : Out :=
  runWord (.hsave h b m) h (fun g _ => { counts := true, chks := Mem.chk m 1 ++ bankChk g b, unit := some .qstore })
    (fun g f s =>
      let off := f.off m
      match g.scratchFault off 576 64 true with
      | some (c, v) => .trap s c v
      | none => .ok (s.addOp g f (f.counter h) (.hsave b off) [] s.cur.g [] [(off, off + 576)])) s

/-- DESIGN CHOICE (assumption 58): the image is read at issue. DESIGN CHOICE (assumption 37): an uncorrectable error in its
bytes, of which no rule speaks, is not reported. -/
def execHload (h : Hdr) (b : BitVec 3) (m : Mem) (s : State) : Out :=
  runWord (.hload h b m) h (fun g _ => { counts := true, chks := Mem.chk m 1 ++ bankChk g b, unit := some .qstore })
    (fun g f s =>
      let off := f.off m
      match g.scratchFault off 576 64 false with
      | some (c, v) => .trap s c v
      | none =>
        let bs := Memory.read g.scratch off 576
        if imageOk bs g.lr.na then
          .ok (s.addOp g f (f.counter h) (.hload b (Bank.ofImage bs)) [] s.cur.g [(off, off + 576)] [])
        else .trap s .shapeInvalid (dw off)) s

/-! ### Conversion (R219, R220) -/

/-- Elements under NS, in order, with the entries they use and leave: each comes with its number, and under MX with
its block's scale exponent and code. -/
def shape (t : Ty) (sat : Bool) (c : Nat → Nat) :
    List (Nat × Val × Option (Option Int × Nat)) → Tab Word → List Nat × Tab Word × Flags
  | [], ent => ([], ent, 0#7)
  | (i, x, sc) :: rest, ent =>
    let e := (Tab.get 0#32 ent (c i)).toNat
    let (code, fl, e') : Nat × Flags × Nat := match sc with
      | none => nsStep t (roundTo t .rne sat) x e
      | some (none, k) => (0, 0#7, if k = 0xFF then 0 else e)
      | some (some k, _) =>
        let es := (roundTo .f32 .rne false ((decodeNum .f32 e).shift k)).1
        let (code, fl, r) := nsStep t (roundScaled t .rne) (x.shift k) es
        (code, fl, (roundTo .f32 .rne false ((decodeNum .f32 r).shift (-k))).1)
    let (cs, ent', fs) := shape t sat c rest (Tab.set 0#32 (c i) (BitVec.ofNat 32 e') ent)
    (code :: cs, ent', fl ||| fs)

/-- The blocks of 32 of a list. -/
def blocks32 {α : Type} (xs : List α) : List (List α) :=
  (List.range (xs.length / 32)).map fun b => (xs.drop (32 * b)).take 32

/-- A quantising store of some .f32 words: the bytes, the entries left, and the flags. -/
def quantise (t : Ty) (rnd : Rnd) (sat mx : Bool) (c : Nat → Nat) (xs : List Word) (ent : Tab Word) :
    List Byte × Tab Word × Flags :=
  let vs := xs.map fun w => decodeNum .f32 w.toNat
  let blks := blocks32 vs
  let bytes (codes scales : List Nat) : List Byte :=
    leBytes (codes.length * t.width / 8) (packCodes t.width codes) ++ scales.map fun k => BitVec.ofNat 8 k
  if rnd = .ns then
    let scs := if mx then blks.map fun b => some (blockScale t b) else blks.map fun _ => none
    let (codes, ent', fl) := shape t sat c (vs.zipIdx.map fun p => (p.2, p.1, (scs[p.2 / 32]?).getD none)) ent
    let sig := if mx then vs.any Val.isSnan else false
    (bytes codes (scs.filterMap fun k => k.map (·.2)), ent', fl ||| flagIf sig fIV)
  else if mx then
    let qs := blks.map (quantBlock t rnd)
    (bytes (qs.flatMap (·.1)) (qs.map (·.2.1)), ent, mergeFlags (qs.map (·.2.2)))
  else
    let qs := blks.flatMap fun b => b.zipIdx.map fun p => roundTo t (groupRM t rnd b p.2) sat p.1
    (bytes (qs.map (·.1)) [], ent, mergeFlags (qs.map (·.2)))

/-- No earlier operation of the group acts on its bank or on its tile (R216). -/
def State.bankReady (s : State) (o : Op) : Bool :=
  !(s.ops.any fun p => decide (p.id < o.id) && p.fib.g == o.fib.g &&
    ((o.kind.bank?.isSome && p.kind.bank? == o.kind.bank?) || p.kind.tiles.any fun t => o.kind.tiles.contains t))

/-- The bank as an operation reads the entries `used`: one that holds an uncorrectable error reads as +0.0, and it is
written anew (R211, assumption 37). -/
def Bank.sound (b : Bank) (used : List Nat) : Bank :=
  { b with ent := (used.filter b.err.contains).foldl (fun t j => Tab.set 0#32 j 0#32 t) b.ent
           err := b.err.filter fun j => !used.contains j }

/-- The entries an operation of lane `l` reads (R212, R220, R222). -/
def Bank.reads (b : Bank) (l : Nat) : OpKind → List Nat
  | .qst _ _ _ rnd _ _ _ => if rnd = .ns then (if b.axisM then List.range 128 else [l]) else []
  | .qstp _ _ _ rnd _ _ _ => if rnd = .ns then [l] else []
  | .hsave _ _ => List.range 128
  | _ => []

/-- The row of a tile as QST reads it (R199, R211). -/
def Group.readRow (x : Group) (t l : Nat) : List Word := if x.rowBad t l then badRow else x.row t l

/-- Perform one accepted operation; an uncorrectable error in what it reads is reported (R199, R211). -/
def State.performBank (s : State) (o : Op) : State :=
  match s.group? o.fib.g with
  | none => s.finish o
  | some x =>
    let l := o.fib.f % 32
    let told (bad : Bool) (t : State) : State := if bad then t.dataError o s.freeAddr else t
    let old (b : BitVec 3) : Bank := x.bank b
    let used (b : BitVec 3) : List Nat := (old b).reads l o.kind
    let bad (b : BitVec 3) : Bool := (used b).any (old b).err.contains
    match o.kind with
    | .qst t off ty rnd sat b mx =>
      let v := (old b).sound (used b)
      let (bs, ent, fl) := quantise ty rnd sat mx (fun i => if v.axisM then i else l) (x.readRow t.toNat l) v.ent
      let y := x.scratchWrite off bs
      told (bad b || x.rowBad t.toNat l)
        ((s.setGroup o.fib.g (if rnd = .ns then y.setBank b ({ v with ent }.advanced l) else y)).land o 0 0 0 fl)
    | .qstp xs off ty rnd sat b mx =>
      let v := (old b).sound (used b)
      let (bs, ent, fl) := quantise ty rnd sat mx (fun _ => l) xs v.ent
      let y := x.scratchWrite off bs
      told (bad b) ((s.setGroup o.fib.g (if rnd = .ns then y.setBank b { v with ent } else y)).land o 0 0 0 fl)
    | .hdecl b v => (s.setGroup o.fib.g (x.setBank b v)).finish o
    | .hsave b off => told (bad b) ((s.setGroup o.fib.g (x.scratchWrite off ((old b).sound (used b)).image)).finish o)
    | .hload b v => (s.setGroup o.fib.g (x.setBank b v)).finish o
    | .hclr b => (s.setGroup o.fib.g (x.setBank b (old b).cleared)).finish o
    | _ => s

def execBankOpPerform (o : Nat) (s : State) : Out :=
  .next (match s.op? o with
    | some p => if p.kind.isBankOp && s.bankReady p then s.performBank p else s
    | none => s)

end Sys2Proof.Machine
end

