-- ==== Sys2Proof/Machine/Near.lean ====
section
/-! DEFINITION. Loads, stores and atomics by virtual address (R225, R226, R244 to R250): their checks, the near data
cache, requests to peers as they issue, and the posting of page requests (R238). -/

namespace Sys2Proof.Machine

/-! ### The checks of R245 -/

/-- The ACCESS bits of a page request (R242). -/
def accRead : Nat := 1
def accWrite : Nat := 2
def accExec : Nat := 4
def accAtomic : Nat := 11

/-- A fibre access of `n` bytes at `va`: ALIGN, PAGE_NOT_PRESENT, the page or a park, PERMISSION, FAR_ACCESS. -/
def State.access (s : State) (g : Group) (va : Dword) (n acc : Nat) (tiers : Tier → Bool) : Res ⊕ (Page × State) :=
  if n ≠ 0 ∧ va.toNat % n ≠ 0 then .inl (.trap s .align va)
  else if va.toNat ≥ 2 ^ 56 then .inl (.trap s .pageNotPresent va)
  else
    let a := (s.ctx g.ctx).asid
    match s.lookup g.coreOr0 a (s.genOf a) va with
    | (none, s1) => .inl (.park s1 va (pageNo va) acc)
    | (some p, s1) =>
      if (acc % 2 = 1 ∧ ¬ p.rp) ∨ (acc / 2 % 2 = 1 ∧ ¬ p.wp) then .inl (.trap s1 .permission va)
      else if tiers p.tier then .inr (p, s1)
      else .inl (.trap s1 .farAccess va)

def onlyNear (t : Tier) : Bool := t == .near
def nearOrPeer (t : Tier) : Bool := t == .near || t == .peer
def nearOrFar (t : Tier) : Bool := t == .near || t == .far

/-- The bytes of the shared SRAM that an operation touches as a fibre's NEAR access. -/
def OpKind.nearRange : OpKind → Option (Nat × Nat)
  | .ld off t _ => some (off, off + Ty.bytes t)
  | .st off bs => some (off, off + bs.length)
  | .atom off _ t _ _ _ => some (off, off + Ty.bytes t)
  | .fatom true off _ _ _ t _ _ _ => some (off, off + Ty.bytes t)
  | .rel off _ => some (off, off + 8)
  | _ => none

/-- A NEAR access of the fibre to these bytes is outstanding. -/
def State.ownPending (s : State) (r : FRef) (inc off n : Nat) : Bool :=
  s.ops.any fun o => o.fib == r && o.inc == inc && match o.kind.nearRange with
    | some a => rangesMeet a (off, off + n)
    | none => false

/-- Read `n` bytes of a NEAR page through the core's cache as a fibre read, in program order with the fibre's own accesses
to them (R250, R255). -/
def State.nearBytes (s : State) (g : Group) (p : Page) (va : Dword) (n : Nat) : Res ⊕ (List Byte × State) :=
  let off := s.nearOff p va
  if s.ownPending s.cur (((g.fibre? s.cur.f).map (·.inc)).getD 0) off n then .inl (.stall s (.own off n))
  else .inr (s.cacheRead g.coreOr0 (s.ctx g.ctx).asid off n)

/-- Read `n` bytes at `va`, wherever they stand, as a fibre read; faults name `at_`. `k` bounds the lines touched. -/
def State.fibreRead (s : State) (g : Group) (at_ va : Dword) (n : Nat) : Nat → List Byte → Res ⊕ (List Byte × State)
  | 0, acc => .inr (acc, s)
  | k + 1, acc =>
    if n = 0 then .inr (acc, s) else
    match s.access g va 0 accRead onlyNear with
    | .inl (.trap s1 c _) => .inl (.trap s1 c at_)
    | .inl (.park s1 _ page acc) => .inl (.park s1 at_ page acc)
    | .inl r => .inl r
    | .inr (p, s1) =>
      let m := min n (128 - va.toNat % 128)
      match s1.nearBytes g p va m with
      | .inl r => .inl r
      | .inr (bs, s2) => s2.fibreRead g at_ (va + dw m) (n - m) k (acc ++ bs)

/-! ### Requests to peers (R248, R306, R314) -/

/-- PEER_ID.VALID, and the package's own number (R308). -/
def State.peerValid (s : State) : Bool := s.regs.peerId.getLsbD 63
def State.ownPeer (s : State) : Nat := bits s.regs.peerId.toNat 9 0

/-! All traffic to a peer leaves by one port (R307): that of the peer's number, or the next that is up; while a request to
the peer is outstanding, by the port that it left by. -/

/-- The first port that is up, from that of the peer's number on. -/
def State.portTo (s : State) (p : Nat) : Option Nat :=
  ((List.range 8).map fun i => (p + i) % 8).find? fun q => !s.downPorts.contains q

/-- The port of an outstanding request to a peer. -/
def State.portInUse (s : State) (p : Nat) : Option Nat :=
  (s.ops.findSome? fun o => match o.kind with
    | .peer r => if r.peer == p then r.port else none
    | _ => none).or ((s.fwds.find? fun f => f.peer == p).map (·.out))

/-- The port that carries traffic to a peer now; none while it has to wait. -/
def State.portFor (s : State) (p : Nat) : Option Nat :=
  match s.portInUse p with
  | some q => if s.downPorts.contains q then none else some q
  | none => s.portTo p

/-- It completes when its payload has been copied (R247, R326). -/
def PeerKind.posted : PeerKind → Bool
  | .read .. => false
  | .atomic _ _ _ _ d => d.isNone
  | _ => true

/-- Bytes that a port's replay buffer keeps of a send (R326). -/
def PeerKind.payload : PeerKind → Nat
  | .write bs => bs.length
  | .atomic _ t _ _ _ => Ty.bytes t
  | .sput _ bs => bs.length
  | .xputq _ _ n _ _ => n
  | .drain _ _ bs => bs.length
  | _ => 0

/-- A request whose payload takes room in a replay buffer: it goes to another package, while the ports carry traffic. -/
def State.takesRoom (s : State) (r : PeerReq) : Bool := r.kind.payload != 0 && s.peerValid && r.peer != s.ownPeer

/-- The port whose replay buffer a send to a peer takes room in: the one that carries its traffic, or would if it were up. -/
def State.planPort (s : State) (p : Nat) : Nat := (s.portFor p).getD (p % 8)

/-- Bytes taken of a port's replay buffer of 2 MiB: by payloads that are to be copied, and by those that the link has not
acknowledged. -/
def State.replayUsed (s : State) (q : Nat) : Nat :=
  (s.ops.map fun o => match o.kind with
    | .peer r => if !r.acked && r.room == some q then r.kind.payload else 0
    | _ => 0).foldl (· + ·) 0

/-- A send waits for room at a port. -/
def State.awaitsRoom (s : State) (q : Nat) (o : Op) : Bool :=
  match o.kind with
  | .peer r => s.takesRoom r && !r.sent && r.room.isNone && s.planPort r.peer == q
  | _ => false

/-- The port that has room for a send, the `n`-th thing of this package; an earlier one that waits there goes first (R103). -/
def State.roomFor (s : State) (n : Nat) (r : PeerReq) : Option Nat :=
  let q := s.planPort r.peer
  if s.replayUsed q + r.kind.payload ≤ 2 ^ 21 ∧ ¬ s.ops.any (fun o => decide (o.id < n) && s.awaitsRoom q o) then some q
  else none

/-- A request as it issues, with room taken where there is some. -/
def State.withRoom (s : State) (n : Nat) (r : PeerReq) : PeerReq :=
  if s.takesRoom r then { r with room := s.roomFor n r } else r

/-- Issue a request to a peer, which the entry of the pages `used` has translated. Where `block` holds, the fibre waits for the response; else it goes on, or waits for room in the
port's replay buffer (R326). -/
def peerIssue (g : Group) (f : Fibre) (k : Option (BitVec 4)) (r : PeerReq) (dst : List Nat) (block : Bool)
    (s : State) (nodrain : Bool := false) (used : List (Nat × Nat) := []) : Res :=
  let v := s.withRoom s.nextId r
  let s1 := s.addOp g f k (.peer v) dst (nodrain := nodrain) (used := used)
  if block then .keep (s1.updFibre s.cur fun v => { v with stat := .wait (.peer s.nextId) })
  else if s.takesRoom v && v.room.isNone then .keep (s1.updFibre s.cur fun v => { v with stat := .wait (.port s.nextId) })
  else .ok s1

/-- A fibre that waited for room for its request goes on. -/
def State.passSend (s : State) (o : Op) : State :=
  s.onIssuer o fun f => if f.stat = .wait (.port o.id) then f.advance s.cycle else f

/-- The UALink path accepts a send of a core that has waited for room longest at its port and for which there is some. -/
def State.acceptSend (s : State) (c : Nat) : State :=
  let due := s.ops.filterMap fun o => match o.kind with
    | .peer r => if o.core == c && s.takesRoom r && !r.sent && r.room.isNone then (s.roomFor o.id r).map fun q => (o, { r with room := some q })
        else none
    | _ => none
  match due[s.choose 8 due.length]? with
  | none => s
  | some (o, r) => (s.setOp { o with kind := .peer r }).passSend o

/-! ### Messages (R307) -/

/-- A message as it leaves by a port. -/
def Msg.by_ (q : Nat) : Msg → Msg
  | .request o _ r => .request o q r
  | .response p _ t st bs => .response p q t st bs
  | .ready p _ n => .ready p q n
  | .applied p _ n => .applied p q n
  | m => m

/-- Send a message to a peer by the port that carries its traffic, after those that wait for one. -/
def State.postMsg (s : State) (p : Nat) (m : Msg) : State :=
  match if s.unsent.any fun v => v.1 == p then none else s.portFor p with
  | some q => { s with outbox := s.outbox ++ [m.by_ q] }
  | none => { s with unsent := s.unsent ++ [(p, m)] }

/-- Messages that waited for a port leave, where there is one now. -/
def State.sendUnsent (s : State) : State :=
  s.unsent.foldl (fun t v => t.postMsg v.1 v.2) { s with unsent := [] }

/-- A request to the package that a PEER page names. -/
def pageReq (p : Page) (va : Dword) (kind : PeerKind) : PeerReq :=
  { peer := peerOf p, addr := peerAddr p va, hdr := none, kind, handle := none, taddr := va }

/-! ### LD, ST, ATOM, RED (R246)

An uncorrectable error in what LD or ATOM returns raises DATA_ERROR precisely (R243), after the faults of R245. Where some copy
of the bytes holds one, the access is performed as it issues, once the fibre's own earlier accesses to them are; else it is an
operation, and none appears in its bytes before it is performed (DESIGN CHOICE, assumption 37). -/

/-- What an atomic at the shared SRAM would return holds an uncorrectable error, once the core's copy has been written back. -/
def State.sramBad (s : State) (c : Nat) (asid : BitVec 16) (off n : Nat) : Bool := errIn (s.dropLine c asid off).sramErr off n

/-- An atomic at the shared SRAM, once the core has written back and dropped its copy of the line (R243). -/
def State.sramAtomic (s : State) (c : Nat) (asid : BitVec 16) (off : Nat) (op : AtomOp) (t : Ty) (x y : Dword) :
    Nat × Flags × State :=
  let s1 := s.dropLine c asid off
  let m := leNat (s1.sramRead off (Ty.bytes t))
  let (v, fl) := atomNew op t m x.toNat y.toNat
  (m, fl, s1.sramWrite off (leBytes (Ty.bytes t) v))

/-- LD of bytes of which some copy holds an uncorrectable error: it lands, or raises DATA_ERROR. -/
def loadAtOnce (g : Group) (f : Fibre) (off : Nat) (va : Dword) (t : Ty) (d : Nat) (s : State) : Res :=
  let asid := (s.ctx g.ctx).asid
  if s.ownPending s.cur f.inc off (Ty.bytes t) then .stall s (.own off (Ty.bytes t)) else
  let (bs, s1) := s.cacheRead g.coreOr0 asid off (Ty.bytes t)
  if s1.nearBad g.coreOr0 asid off (Ty.bytes t) then .trap s1 .dataError va
  else .ok (s1.updFibre s.cur fun v => v.setN d t.regs (loadValue t bs))

/-- ATOM of such bytes. -/
def atomAtOnce (g : Group) (f : Fibre) (k : Option (BitVec 4)) (off : Nat) (va : Dword) (op : AtomOp) (t : Ty) (x y : Dword)
    (d : Nat) (s : State) : Res :=
  let asid := (s.ctx g.ctx).asid
  if s.ownPending s.cur f.inc off (Ty.bytes t) then .stall s (.own off (Ty.bytes t))
  else if s.sramBad g.coreOr0 asid off (Ty.bytes t) then .trap (s.dropLine g.coreOr0 asid off) .dataError va
  else
    let (m, fl, s1) := s.sramAtomic g.coreOr0 asid off op t x y
    .ok (s1.updFibre s.cur fun v => (v.setN d t.regs m).lateFlags k fl)

def execLd (h : Hdr) (d : Reg) (m : Mem) (ty : Ty) (s : State) : Out :=
  runWord (.ld h d m ty) h (fun _ _ => { counts := true, chks := Mem.chk m 2 ++ Reg.chk d ty.regs })
    (fun g f s =>
      let va := f.va m
      let dst := regRange (f.reg d) ty.regs
      match s.access g va (Ty.bytes ty) accRead nearOrPeer with
      | .inl r => r
      | .inr (p, s1) =>
        if p.tier = .near then
          let off := s1.nearOff p va
          if s1.nearErr off (Ty.bytes ty) then loadAtOnce g f off va ty (f.reg d) s1
          else .ok (s1.addOp g f (f.counter h) (.ld off ty (f.reg d)) dst (used := [p.span va]))
        else peerIssue g f (f.counter h) (pageReq p va (.read ty (f.reg d))) dst true s1 (used := [p.span va])) s

def execSt (h : Hdr) (d : Reg) (m : Mem) (ty : Ty) (s : State) : Out :=
  runWord (.st h d m ty) h (fun _ _ => { counts := true, chks := Mem.chk m 2 ++ Reg.chk d ty.regs })
    (fun g f s =>
      let va := f.va m
      let bs := leBytes (Ty.bytes ty) (f.rN (f.reg d) ty.regs)
      match s.access g va (Ty.bytes ty) accWrite nearOrPeer with
      | .inl r => r
      | .inr (p, s1) =>
        if p.tier = .near then .ok (s1.addOp g f (f.counter h) (.st (s1.nearOff p va) bs) (used := [p.span va]))
        else peerIssue g f (f.counter h) (pageReq p va (.write bs)) [] false s1 (used := [p.span va])) s

/-- ATOM and RED: `dst` is the register of the old value, if it is wanted. -/
def atomWord (i : Instr) (h : Hdr) (d : Reg) (m : Mem) (ty : Ty) (op : AtomOp) (ret : Bool) (s : State) : Out :=
  runWord i h (fun _ _ => { counts := true, chks := Mem.chk m 2 ++ Reg.chk d (op.regs ty) })
    (fun g f s =>
      let va := f.va m
      let (x, y) := f.atomArgs op ty d
      let dst := if ret then some (f.reg d) else none
      let busy := if ret then regRange (f.reg d) ty.regs else []
      match s.access g va (Ty.bytes ty) accAtomic nearOrPeer with
      | .inl r => r
      | .inr (p, s1) =>
        if p.tier = .near then
          let off := s1.nearOff p va
          if ret && s1.nearErr off (Ty.bytes ty) then atomAtOnce g f (f.counter h) off va op ty x y (f.reg d) s1
          else .ok (s1.addOp g f (f.counter h) (.atom off op ty x y dst) busy (used := [p.span va]))
        else if ty = .f32 then .trap s1 .permission va
        else peerIssue g f (f.counter h) (pageReq p va (.atomic op ty x y dst)) busy ret s1 (used := [p.span va])) s

def execAtom (h : Hdr) (d : Reg) (m : Mem) (ty : Ty) (op : AtomOp) (s : State) : Out :=
  atomWord (.atom h d m ty op) h d m ty op true s

def execRed (h : Hdr) (d : Reg) (m : Mem) (ty : Ty) (op : AtomOp) (s : State) : Out :=
  atomWord (.red h d m ty op) h d m ty op false s

/-- The word PROBE writes (R249). -/
def Page.probe (p : Page) : Dword :=
  dw (2 ^ 63 + 2 ^ 52 * p.attr + if p.tier = .peer then peerOf p else 0)

def execProbe (h : Hdr) (d : Reg) (m : Mem) (s : State) : Out :=
  runWord (.probe h d m) h (fun _ _ => { counts := true, chks := Mem.chk m 2 ++ Reg.chk d 2 })
    (fun g f s =>
      let va := f.va m
      let a := (s.ctx g.ctx).asid
      let (p, s1) := if va.toNat ≥ 2 ^ 56 then (none, s) else s.lookup g.coreOr0 a (s.genOf a) va
      .ok (s1.addOp g f (f.counter h) (.land (f.reg d) 2 ((p.map Page.probe).getD 0#64)) (regRange (f.reg d) 2))) s

/-- An earlier access of the same fibre to a common NEAR byte is outstanding (R250). -/
def State.nearHeld (s : State) (o : Op) : Bool :=
  s.ops.any fun p => decide (p.id < o.id) && p.fib == o.fib && p.inc == o.inc &&
    match p.kind.nearRange, o.kind.nearRange with
    | some a, some b => rangesMeet a b
    | _, _ => false

/-- Perform a NEAR access and complete it (R246, R247). -/
def State.performNear (s : State) (o : Op) : State :=
  match o.kind with
  | .ld off t d =>
    let (bs, s1) := s.cacheRead o.core (s.ctx o.ctx).asid off (Ty.bytes t)
    s1.land o d t.regs (loadValue t bs) 0#7
  | .st off bs => (s.cacheWrite o.core (s.ctx o.ctx).asid off bs (o.fib, o.inc)).finish o
  | .atom off op t x y d =>
    let (m, fl, s1) := s.sramAtomic o.core (s.ctx o.ctx).asid off op t x y
    match d with
    | some r => s1.land o r t.regs m fl
    | none => s1.land o 0 0 0 fl
  | .land d n v => s.land o d n v.toNat 0#7
  | _ => s

/-! ### Page requests (R238) -/

/-- A page that is missing: its context, page, an address in it, and the ACCESS bits. -/
structure Miss where
  ctx : Nat
  page : Nat
  va : Dword
  acc : Nat

/-- What the transfers of a core have found missing. -/
def Op.misses (o : Op) : List Miss :=
  match o.kind with
  | .xfer x => x.miss.map fun p =>
      ⟨o.ctx, p, dw (65536 * p), match x.kind with | .fetch => accRead | .redt _ => accRead | _ => accWrite⟩
  | _ => []

/-- What the transfers and forwarded chains of a core have found missing; a chain that a queue forwards stands at core 0. -/
def State.unitMisses (s : State) (c : Nat) : List Miss :=
  let xfers := (s.ops.filter fun o => o.core == c).flatMap Op.misses
  let chains := s.chains.flatMap fun p =>
    if ((p.2.fwd.head?.bind (·.by_)).map (·.core)).getD 0 = c then
      p.2.miss.map fun n => ⟨p.1 / 4096, n.1, dw (65536 * n.1), n.2⟩
    else []
  xfers ++ chains

/-- What a core has found missing: for its fibres, what it has noted as they parked. -/
def State.missesOf (s : State) (c : Nat) : List Miss :=
  (s.core c).want.map (fun w => ⟨w.1, w.2.1, w.2.2.1, w.2.2.2⟩) ++ s.unitMisses c

/-- The page is covered by an open request of this core. -/
def State.covered (s : State) (c : Nat) (m : Miss) : Bool := (s.core c).reqs.contains ((s.ctx m.ctx).asid, m.page)

/-- One page request of a core is posted to the context fault queue, while fewer than 64 are open. -/
def State.postPage (s : State) (c : Nat) : State :=
  if (s.core c).reqs.length ≥ 64 then s else
  match (s.missesOf c).find? fun m => !s.covered c m with
  | none => s
  | some m =>
    let a := (s.ctx m.ctx).asid
    let q := 0x10 + 2 ^ 8 * m.acc + 2 ^ 16 * a.toNat + 2 ^ 32 * (s.genOf a).toNat + 2 ^ 40 * c
    let co := s.core c
    (s.setCore c { co with reqs := co.reqs ++ [(a, m.page)]
                           want := co.want.filter fun w => w.1 != m.ctx || w.2.1 != m.page }).postFault m.ctx [dw q, m.va, 0#64, 0#64]

def execPageRequestPost (c : Nat) (s : State) : Out := .next (s.postPage c)

end Sys2Proof.Machine
end

