-- ==== Sys2Proof/Machine/Fetch.lean ====
section
/-! DEFINITION. Far transfers (R251 to R278): allowances, shape records, FETCH, PUT and REDT, far atomics, arrival
barriers, and migration counters (R241). -/

namespace Sys2Proof.Machine

/-! ### Allowances (R251 to R254) -/

/-- Allowances the group's accepted transfers hold. -/
def State.heldAllowances (s : State) (g : Nat) : Nat :=
  (s.ops.filter fun o => o.fib.g == g && match o.kind with
    | .xfer x => x.accepted && (match x.kind with
      | .ctile _ => false
      | _ => true)
    | _ => false).length

/-- Allowances free on a core: those of its resident groups are taken, and those that transfers of groups that have ended
there still hold (R253, R160). -/
def State.freeAllowances (s : State) (c : Nat) : Int :=
  let ended := s.groups.filter fun p => p.2.loc == .ended && p.2.lastCore == c
  32 - ((((s.residents c).map fun p => p.2.wa) ++ ended.map fun p => s.heldAllowances p.1).foldl (· + ·) 0 : Nat)

def execWinset (h : Hdr) (d : Reg) (a : Src) (s : State) : Out :=
  runWord (.winset h d a) h (fun _ _ => { chks := Src.chk a 1 ++ Reg.chk d 1 }) (fun g f s =>
    let n := f.src .z32 a
    if n < 1 ∨ n > 32 then .ok (s.updFibre s.cur fun v => v.wr d 1 2)
    else if (n : Int) - g.wa > s.freeAllowances g.coreOr0 then .ok (s.updFibre s.cur fun v => v.wr d 1 1)
    else .ok ((s.updGroup s.cur.g fun x => { x with wa := n }).updFibre s.cur fun v => v.wr d 1 0)) s

/-! ### Shape records (R255 to R257) -/

/-- Bytes per element, in half bytes; and the unit its addresses keep. -/
def Ty.halves (t : Ty) : Nat := t.width / 4
def Ty.unit (t : Ty) : Nat := max 1 (t.width / 8)

/-- Bytes of the elements of a row, and of its scales. -/
def Shape.rowBytes (x : Shape) : Nat := x.box.headD 1 * Ty.halves x.fmt / 2
def Shape.scaleBytes (x : Shape) : Nat := if x.mx then x.box.headD 1 / 32 else 0

/-- The offsets of the rows from BASE, in buffer order. -/
def Shape.rows (x : Shape) : List Nat :=
  let ext (d : Nat) := (x.box[d]?).getD 1
  let st (d : Nat) := (x.strides[d]?).getD 0
  (List.range (ext 3)).flatMap fun i3 => (List.range (ext 2)).flatMap fun i2 => (List.range (ext 1)).map fun i1 =>
    i1 * st 0 + i2 * st 1 + i3 * st 2

/-- The bytes a box occupies in its buffer. -/
def Shape.total (x : Shape) : Nat :=
  (x.rowBytes + x.scaleBytes) * (x.box.drop 1).foldl (· * ·) 1

/-- The byte ranges of the box from a base, in buffer order: a row's elements, then its scales. -/
def Shape.segs (x : Shape) (base : Nat) : List (Nat × Nat) :=
  x.rows.flatMap fun r =>
    (base + r, x.rowBytes) :: if x.mx then [(base + r + x.soff, x.scaleBytes)] else []

/-- The highest byte the box names, from a base. -/
def Shape.highest (x : Shape) (base : Nat) : Nat :=
  let top := base + (((x.box.drop 1).zip x.strides).map fun p => (p.1 - 1) * p.2).foldl (· + ·) 0
  max (top + x.rowBytes - 1) (if x.mx then top + x.soff + x.scaleBytes - 1 else 0)

/-- Read a 64-byte record. -/
def shapeOf (va : Dword) (bs : List Byte) : Shape :=
  let q (i : Nat) := leNat ((bs.drop (8 * i)).take 8)
  let nd := bits (q 1) 56 55 + 1
  { va, base := bits (q 0) 55 0, fmt := (Ty.ofCode (BitVec.ofNat 5 (bits (q 1) 63 59))).getD .b8
    exp := bits (q 1) 58 57, nd, coll := bits (q 1) 54 54 == 1, mx := bits (q 1) 53 53 == 1, rop := bits (q 1) 51 48
    soff := bits (q 1) 39 0
    box := (List.range nd).map fun d => bits (q 2) (16 * d + 15) (16 * d)
    strides := (List.range 3).map fun d => if d + 1 < nd then bits (q (3 + d)) 39 0 else 0
    grid := BitVec.ofNat 30 (bits (q 6) 29 0), rmask := dw (q 7) }

/-- A record keeps R257, its collective fields and the buffer apart. -/
def recordOk (bs : List Byte) (x : Shape) : Bool :=
  let q (i : Nat) := leNat ((bs.drop (8 * i)).take 8)
  bits (q 0) 63 56 == 0 && bits (q 1) 52 52 == 0 && bits (q 1) 47 40 == 0 && bits (q 3) 63 40 == 0 &&
  bits (q 4) 63 40 == 0 && bits (q 5) 63 40 == 0 && bits (q 6) 63 30 == 0 &&
  (Ty.ofCode (BitVec.ofNat 5 (bits (q 1) 63 59))).isSome &&
  (x.box.all fun n => n != 0) && ((List.range 4).all fun d => decide (d < x.nd) || bits (q 2) (16 * d + 15) (16 * d) == 0) &&
  ((List.range 3).all fun d => decide (d + 1 < x.nd) || bits (q (3 + d)) 39 0 == 0) &&
  x.base % Ty.unit x.fmt == 0 && (x.strides.all fun n => n % Ty.unit x.fmt == 0) &&
  (if x.mx then x.fmt.isScaled && x.box.headD 1 % 32 == 0 else x.soff == 0) &&
  !(x.fmt == .e2m1 && x.box.headD 1 % 2 == 1)

def Shape.noCollective (x : Shape) : Bool := !x.coll && x.rop == 0 && x.grid == 0#30 && x.rmask == 0#64

/-- The record fits the buffer (R257). -/
def Shape.fits (x : Shape) (b : Buf) : Bool :=
  decide (x.total ≤ 128 * (b.size.toNat + 1)) && (b.fmt == x.fmt.code || b.fmt == Ty.code .b8)

/-- The sources of a REDT record: entries up to the first marked last (R265). -/
def redtSources (bs : List Byte) : Option (List Nat) :=
  let es := (List.range 16).map fun i => leNat ((bs.drop (64 + 8 * i)).take 8)
  let n := (es.takeWhile fun e => bits e 63 63 == 0).length
  if n < 16 then some (es.take (n + 1)) else none

/-! ### FETCH, PUT, REDT (R259) -/

/-- Read a record of `n` 64-byte parts at `va` as a fibre read. -/
def State.readRecord (s : State) (g : Group) (va : Dword) : Nat → List Byte → Res ⊕ (List Byte × State)
  | 0, acc => .inr (acc, s)
  | n + 1, acc =>
    match s.access g va 64 accRead onlyNear with
    | .inl r => .inl r
    | .inr (p, s1) =>
      match s1.nearBytes g p va 64 with
      | .inl r => .inl r
      | .inr (bs, s2) => s2.readRecord g (va + 64#64) n (acc ++ bs)

/-- The checks of FETCH, PUT and REDT after the record is read: the transfer, or the trap. -/
def xferCheck (b : Buf) (n : BitVec 6) (want : BufState) (redt : Bool) (va : Dword) (bs : List Byte) :
    (Shape × List Nat) ⊕ (Cause × Dword) :=
  let x := shapeOf va bs
  if !b.decl || b.held || b.state != want then .inr (.bufState, dw n.toNat)
  else if !recordOk bs x || !x.noCollective || !x.fits b then .inr (.shapeInvalid, va)
  else if redt then
    let tys : List Ty := [.f32, .f16, .bf16, .s32, .z32]
    match redtSources bs with
    | none => .inr (.shapeInvalid, va)
    | some es =>
      let srcs := es.map fun e => bits e 55 0
      if x.base ≠ 0 ∨ x.mx ∨ ¬ tys.contains x.fmt ∨ (es.any fun e => bits e 62 56 != 0) ∨
          (srcs.any fun v => decide (x.highest v ≥ 2 ^ 56)) then .inr (.shapeInvalid, va)
      else .inl (x, srcs)
  else if x.highest x.base ≥ 2 ^ 56 then .inr (.shapeInvalid, va)
  else .inl (x, [])

/-- Issue a transfer: its operation, and its transition of the same identity; the fibre waits to be accepted. -/
def xferIssue (g : Group) (f : Fibre) (k : Option (BitVec 4)) (x : Xfer) (ev : BufEvent) (s : State) : Res :=
  let id := s.nextId
  let r := let b := g.bufNow x.buf.toNat; [(b.lo, b.hi)]
  let (rd, wr) := match x.kind with
    | .fetch => ([], r)
    | .redt _ => ([], r)
    | _ => (r, [])
  let s1 := (s.addOp g f k (.xfer x) [] s.cur.g rd wr true).updGroup s.cur.g fun y =>
    ({ y with trans := y.trans ++ [(⟨id, s.cur, x.buf, ev⟩ : Trans)] } : Group).updFibre s.cur.f fun v =>
      { v with stat := .wait (.post id) }
  .keep (s1.settleTrans s.cur.g)

def xferWord (i : Instr) (h : Hdr) (n : BitVec 6) (m : Mem) (ab : BitVec 4) (link redt : Bool)
    (want : BufState) (ev : BufEvent) (kind : List Nat → XferKind) (s : State) : Out :=
  runWord i h (fun g _ => { counts := true, chks := Mem.chk m 2 ++ bufChk g n }) (fun g f s =>
    let va := f.va m
    match s.readRecord g va (if redt then 3 else 1) [] with
    | .inl r => r
    | .inr (bs, s1) =>
      match xferCheck (g.bufNow n.toNat) n want redt va bs with
      | .inr (c, v) => .trap s1 c v
      | .inl (x, srcs) =>
        xferIssue g f (f.counter h)
          { kind := kind srcs, buf := n, ab := if link then some ab else none, shape := x } ev s1) s

/-- The barrier link of a descriptor (R164, R259). -/
def ablOf (ab : BitVec 4) (link : Bool) : BitVec 6 := if link then ab.setWidth 6 else 0x3F#6

def execFetch (h : Hdr) (n : BitVec 6) (m : Mem) (ab : BitVec 4) (link : Bool) (s : State) : Out :=
  xferWord (.fetch h n m ab link) h n m ab link false .empty (.fetch (ablOf ab link)) (fun _ => .fetch) s

def execPut (h : Hdr) (n : BitVec 6) (m : Mem) (ab : BitVec 4) (link : Bool) (s : State) : Out :=
  xferWord (.put h n m ab link) h n m ab link false .full .put (fun _ => .put) s

def execRedt (h : Hdr) (n : BitVec 6) (m : Mem) (ab : BitVec 4) (link : Bool) (s : State) : Out :=
  xferWord (.redt h n m ab link) h n m ab link true .empty (.fetch (ablOf ab link)) (fun srcs => .redt srcs) s

/-! ### Acceptance (R252) -/

def Op.xfer? (o : Op) : Option Xfer :=
  match o.kind with
  | .xfer x => some x
  | _ => none

/-- One post began to wait for an allowance before another: its transition took effect in an earlier cycle, or it issued first
(R103, R168). -/
def Op.before (a b : Op × Xfer) : Bool :=
  decide (a.2.began < b.2.began) || (a.2.began == b.2.began && decide (a.1.id < b.1.id))

/-- The post that has waited for an allowance longest among its group's, of those whose transition has taken effect, is
accepted while the group has one (R252). -/
def State.postAccept (s : State) (id : Nat) : State :=
  match s.op? id with
  | none => s
  | some o =>
    match o.xfer?, s.group? o.fib.g with
    | some x, some g =>
      let older := s.ops.any fun p => p.fib.g == o.fib.g && match p.xfer? with
        | some y => Op.before (p, y) (o, x) && y.effective && !y.accepted && (match y.kind with | .ctile _ => false | _ => true)
        | none => false
      let isColl := match x.kind with | .ctile _ => true | _ => false
      if x.accepted || isColl || !x.effective || older || g.core?.isNone ||
          decide (s.heldAllowances o.fib.g ≥ g.wa) then s
      else (s.setOp { o with kind := .xfer { x with accepted := true, keys := s.keys, refused := s.drainedModules } }).updFibre
        o.fib fun f => if f.stat = .wait (.post id) then f.advance s.cycle else f
    | _, _ => s

def execPostAccept (o : Nat) (s : State) : Out := .next (s.postAccept o)

/-! ### Moving the bytes (R260 to R264) -/

/-- The byte ranges that an entry reads, and those it writes, at virtual addresses. -/
def entryRanges (i : Instr) : List (Nat × Nat) × List (Nat × Nat) :=
  let mem (o : EOp) (n : Nat) : List (Nat × Nat) := match o with
    | .mem va => [(va.toNat, n)]
    | .fifo _ => []
  match i with
  | .copy d a n => (mem a n.toNat, mem d n.toNat)
  | .reduce d a b _ _ n => (mem a n.toNat ++ mem b n.toNat, mem d n.toNat)
  | .fill d _ n => ([], mem d n.toNat)
  | .tload a n => ([(a.toNat, n.toNat)], [])
  | .transduce d a _ _ n => (mem a n.toNat, mem d n.toNat)
  | .metard a => ([(a.toNat, 1)], [])
  | .metawr a _ => ([(a.toNat, 1)], [])
  | _ => ([], [])

/-- The page of an entry's operands that holds an address. -/
def FEntry.pageAt (e : FEntry) (va : Nat) : Option EPage :=
  e.pages.find? fun p => decide (p.vpn ≤ va / 65536) && decide (va / 65536 < p.vpn + p.n)

/-- Module address and key of a byte of an operand. -/
def FEntry.addr (e : FEntry) (va : Nat) : Nat × BitVec 13 :=
  match e.pageAt va with
  | some p => (p.addr + (va - 65536 * p.vpn), p.key)
  | none => (0, 0#13)

/-- The entry names no FIFO. -/
def FEntry.inPlace (e : FEntry) : Bool :=
  let named (o : EOp) : Bool := match o with
    | .mem _ => false
    | .fifo _ => true
  match decodeEntry e.raw with
  | some (.copy d a _) => !named d && !named a
  | some (.reduce d a b _ _ _) => !named d && !named a && !named b
  | some (.fill d _ _) => !named d
  | some (.transduce d a _ _ _) => !named d && !named a
  | _ => true

/-- The parts of a list of ranges, none across a 64 KiB boundary. -/
def parts (rs : List (Nat × Nat)) : List (Nat × Nat) := rs.flatMap fun r => chunks 65536 r.1 r.2

/-- A collective's result goes to its box. -/
def Xfer.isCtile (x : Xfer) : Bool :=
  match x.kind with
  | .ctile _ => true
  | _ => false

/-- An access to host memory fails, as a free choice of this step: PCIe and ATS lie outside the package (R260,
assumption 44). -/
def State.hostFails (s : State) (page : Nat) : Bool := s.choose (6000 + page) 2 == 1

/-- The status with which one part fails, if any, and its first failing byte (R260, R277): `write` asks for WP, a REDT source
must be FAR, and HOST pages admit FETCH and PUT alone (R226). -/
def Xfer.partFault (x : Xfer) (s : State) (p : Page) (part : Nat × Nat) (write redt : Bool) : Option (BitVec 8 × Nat) :=
  let va := dw part.1
  if (write && !p.wp) || (!write && !p.rp) then some (0x02#8, 0)
  else if redt && p.tier != .far then some (0x07#8, 0)
  else match p.tier with
    | .near => if write then none else (firstErr s.sramErr (s.nearOff p va) part.2).map fun e => (0x04#8, e - s.nearOff p va)
    | .far =>
      let m := p.target / 2 ^ 24
      if Tab.get none x.keys p.key.toNat = none then some (0x02#8, 0)
      else if !s.linkUp m || x.refused.contains m then some (0x05#8, 0)
      else ({ s with keys := x.keys } : State).farFault p.key (!write) write (farAddr p va) part.2
    | .host => if x.isCtile then some (0x08#8, 0) else if s.hostFails (part.1 / 65536) then some (0x06#8, 0) else none
    | .peer => none

/-- Bytes of one part. -/
def Xfer.readPart (x : Xfer) (s : State) (pasid : Nat) (p : Page) (part : Nat × Nat) : List Byte :=
  let va := dw part.1
  match p.tier with
  | .near => s.sramRead (s.nearOff p va) part.2
  | .far => ({ s with keys := x.keys } : State).farRead p.key (farAddr p va) part.2
  | .host => Memory.read s.hostMem (hostAddr pasid p va) part.2
  | .peer => (List.range part.2).map fun i => Tab.get 0#8 x.got (part.1 + i)

/-- Write one part; bytes on a PEER page have been sent. -/
def Xfer.writePart (x : Xfer) (s : State) (pasid : Nat) (p : Page) (part : Nat × Nat) (bs : List Byte) : State :=
  let va := dw part.1
  match p.tier with
  | .near => s.sramWrite (s.nearOff p va) bs
  | .far => { ({ s with keys := x.keys } : State).farWrite p.key (farAddr p va) bs with keys := s.keys }
  | .host => { s with hostMem := Memory.write s.hostMem (hostAddr pasid p va) bs }
  | .peer => s

/-- The ranges a transfer reads or writes outside its buffer. -/
def Xfer.ranges (x : Xfer) : List (Nat × Nat) :=
  match x.kind with
  | .redt srcs => srcs.flatMap x.shape.segs
  | _ => x.shape.segs x.shape.base

/-- What stands against a transfer before it moves its bytes. -/
inductive Ready where
  /-- pages are missing -/
  | miss (pages : List Nat)
  /-- it fails, with a status and the first failing address -/
  | fail (status : BitVec 8) (va : Nat)
  /-- every page is there -/
  | go (ps : List (Page × (Nat × Nat)))

/-- Translate every part of a transfer. -/
def Xfer.ready (x : Xfer) (s : State) (ctx : Nat) (write : Bool) : Ready :=
  let a := (s.ctx ctx).asid
  let ps := (parts x.ranges).map fun r => (s.pageOf a (dw r.1), r)
  let redt := match x.kind with | .redt _ => true | _ => false
  match x.absent, x.kill with
  | some va, _ => .fail 0x01#8 (((ps.find? fun p => p.2.1 / 65536 == va.toNat / 65536).map (·.2.1)).getD va.toNat)
  | none, some (st, va) => .fail st va
  | none, none =>
    let missing := (ps.filterMap fun p => if p.1.isNone then some (p.2.1 / 65536) else none).eraseDups
    if ¬ missing.isEmpty then .miss missing else
    let found := ps.filterMap fun p => p.1.map fun v => (v, p.2)
    match found.findSome? fun p => (x.partFault s p.1 p.2 write redt).map fun e => (e.1, p.2.1 + e.2) with
    | some (st, va) => .fail st va
    | none =>
      let modules := (found.map fun p => p.1.target / 2 ^ 24).eraseDups
      if redt ∧ modules.length > 1 then .fail 0x07#8 ((found.head?.map (·.2.1)).getD 0) else .go found

/-- The range from the first to the last byte that parts touch in a 256-byte block. -/
def spanOf (ps : List (Page × (Nat × Nat))) (blk : Nat) : Option (Page × (Nat × Nat)) :=
  match ps.filter fun p => p.2.1 / 256 == blk with
  | [] => none
  | p :: t =>
    let lo := t.foldl (fun a q => min a q.2.1) p.2.1
    some (p.1, (lo, t.foldl (fun a q => max a (q.2.1 + q.2.2)) (p.2.1 + p.2.2) - lo))

/-- The smallest naturally aligned range, of a power of two bytes, that holds a range within one 256-byte block: what a read
takes of it (R306). -/
def alignedSpan (a n : Nat) : Nat × Nat :=
  let k := (([1, 2, 4, 8, 16, 32, 64, 128] : List Nat).find? fun k => decide (a % k + n ≤ k)).getD 256
  (a / k * k, k)

/-- What a transfer asks of peers: of each 256-byte block that its parts touch on PEER pages, one range (R306). -/
def peerBlocks (ps : List (Page × (Nat × Nat))) : List (Page × (Nat × Nat)) :=
  let pieces := (ps.filter fun p => p.1.tier == .peer).flatMap fun p => (chunks 256 p.2.1 p.2.2).map fun r => (p.1, r)
  ((pieces.map fun p => p.2.1 / 256).eraseDups).filterMap (spanOf pieces)

/-- Issue the requests that carry a transfer's bytes on PEER pages. -/
def State.askPeers (s : State) (o : Op) (x : Xfer) (blocks : List (Page × (Nat × Nat)))
    (data : Nat × Nat → Option (List (Option Byte))) : State :=
  let s1 := s.setOp { o with kind := .xfer { x with asked := true }, used := blocks.map fun b => b.1.span (dw b.2.1) }
  blocks.foldl (fun t b =>
    let r := alignedSpan b.2.1 b.2.2
    let req := match data b.2 with
      | some bs => pageReq b.1 (dw b.2.1) (.drain o.id b.2.1 bs)
      | none => pageReq b.1 (dw r.1) (.fill o.id r.1 r.2)
    let r : Op := { o with id := t.nextId, ctr := none, dst := [], rd := [], wr := [], used := [b.1.span (dw b.2.1)]
                           kind := .peer (t.withRoom t.nextId req) }
    { t with ops := t.ops ++ [r], nextId := t.nextId + 1 }) s1

/-- Requests of a transfer are outstanding. -/
def State.peersPending (s : State) (id : Nat) : Bool :=
  s.ops.any fun o => match o.kind with
    | .peer r => (match r.kind with
      | .fill i _ _ => i == id
      | .drain i _ _ => i == id
      | _ => false)
    | _ => false

/-- The arrival barrier takes an arrival (R270). -/
def ABar.arrive (b : ABar) (failed : Bool) : ABar :=
  let c := if b.count = 0#16 then { b with fail := true } else { b with count := b.count - 1#16 }
  if failed then { c with fail := true } else c

def Group.abar (g : Group) (n : BitVec 4) : ABar := Tab.get {} g.abars n.toNat
def Group.setAbar (g : Group) (n : BitVec 4) (b : ABar) : Group := { g with abars := Tab.set {} n.toNat b g.abars }

/-- COUNT of a barrier has come to 0: the fibres at its AWAIT go on, each with NOT FAIL in its predicate (R271). -/
def Group.releaseAbar (g : Group) (n : BitVec 4) (cycle : Nat) : Group :=
  if (g.abar n).count = 0#16 then
    g.mapFibres fun _ f => match f.stat with
      | .wait (.abar k p) => if k = n then (f.advance cycle).setP p (!(g.abar n).fail) else f
      | _ => f
  else g

/-- Arrival, or the completion of a PUT, as one step (R262); a failure is reported (R277). -/
def State.xferDone (s : State) (o : Op) (x : Xfer) (st : BufState) (status : BitVec 8) (va : Nat) (fl : Flags) : State :=
  let s1 := s.updGroup o.fib.g fun g =>
    let b := g.buf x.buf.toNat
    let g1 := { g with bufs := Tab.set {} x.buf.toNat { b with state := st, held := false, status } g.bufs }
    let g2 := match x.ab with
      | some n => (g1.setAbar n ((g1.abar n).arrive (status != 0#8))).releaseAbar n s.cycle
      | none => g1
    g2.markTasks
  let s2 := (s1.land o 0 0 0 fl).settleTrans o.fib.g
  if status = 0#8 then s2 else s2.asyncFail o status (dw va)

/-- Write the box into its buffer. -/
def State.fillBuf (s : State) (o : Op) (x : Xfer) (bs : List Byte) : State :=
  s.updGroup o.fib.g fun g => g.scratchWrite (g.buf x.buf.toNat).lo bs

/-! ### Migration counters (R241) -/

/-- One touch of a FAR page by a FETCH. A MIG_BASE that is not a multiple of 32 × 2^n counts nothing (DESIGN CHOICE,
assumption 45). -/
def State.migrate (s : State) (o : Op) (p : Page) (va : Nat) : State :=
  match s.ptLog with
  | none => s
  | some n =>
    let base := bits s.regs.migBase.toNat 29 0
    if !p.mig || p.tier != .far || base % (32 * 2 ^ n) != 0 then s else
    let a := base + 4 * p.idx
    let c := min 0xFFFFFFFF (s.sramWord a 4 + 1)
    let s1 := s.sramWrite a (leBytes 4 c)
    if c = 2 ^ (4 + 2 * p.thr) ∧ s.sramWord a 4 ≠ c then
      let as := (s.ctx o.ctx).asid
      let q := 0x11 + 2 ^ 16 * as.toNat + 2 ^ 32 * (s.genOf as).toNat + 2 ^ 40 * o.core
      s1.postFault o.ctx [dw q, dw (va - p.off (dw va)), dw c, 0#64]
    else s1

/-- Each FAR page counts once. -/
def State.migrateAll (s : State) (o : Op) (ps : List (Page × (Nat × Nat))) : State :=
  (ps.foldl (fun (t : State × List Nat) p =>
    if t.2.contains p.1.idx then t else (t.1.migrate o p.1 p.2.1, p.1.idx :: t.2)) (s, [])).1

/-! ### REDT (R266) -/

/-- The sum of one element over the sources, with its flags. -/
def redtElem (t : Ty) (cs : List Nat) : Nat × Flags :=
  if t.isFloat then
    let ws := cs.map fun c => if t = .f32 then (c, 0#7) else roundTo .f32 .rne false (decodeNum t c)
    let wide := ws.map (·.1)
    let (acc, fl) := (wide.drop 1).foldl (fun (a : Nat × Flags) c =>
      let (v, f) := fadd .f32 .rne false a.1 c
      (v, a.2 ||| f)) (wide.headD 0, mergeFlags (ws.map (·.2)))
    if t = .f32 then (acc, fl)
    else
      let (v, f) := roundTo t .rne false (decodeNum .f32 acc)
      (v, fl ||| f)
  else intResult t false ((cs.map (Ty.toI t)).foldl (· + ·) 0)

/-- The box that a REDT returns. -/
def redtBox (x : Shape) (boxes : List (List Byte)) : List Byte × Flags :=
  let w := x.fmt.width
  let n := x.total * 8 / w
  let ns := boxes.map leNat
  let rs := (List.range n).map fun j => redtElem x.fmt (ns.map fun v => v / 2 ^ (w * j) % 2 ^ w)
  (leBytes x.total (packCodes w (rs.map (·.1))), mergeFlags (rs.map (·.2)))

/-- Bytes of the parts, each under the page that translates it. -/
def Xfer.gather (x : Xfer) (s : State) (pasid : Nat) (ps : List (Page × (Nat × Nat))) : List Byte :=
  ps.flatMap fun p => x.readPart s pasid p.1 p.2

/-- Record what a transfer has found missing; it waits for the answers (R260). -/
def State.xferMiss (s : State) (o : Op) (x : Xfer) (pages : List Nat) : State :=
  s.setOp { o with kind := .xfer { x with miss := pages } }

/-- A failed transfer may have moved a part that its page lets it use. -/
def Xfer.partOpen (x : Xfer) (s : State) (ctx : Nat) (write : Bool) (r : Nat × Nat) : Option Page :=
  match s.pageOf (s.ctx ctx).asid (dw r.1) with
  | none => none
  | some p => if x.shape.mx || p.tier == .peer || (x.partFault s p r write false).isSome then none else some p

/-- What a failed transfer of plain elements has moved: each aligned 128-byte unit, all or nothing, as a free choice, where
every part of the box that lies in the unit may be moved (R263, R264, assumption 44). -/
def Xfer.moved (x : Xfer) (s : State) (ctx : Nat) (write : Bool) : List (Option Page × (Nat × Nat)) :=
  let us := (parts x.ranges).flatMap fun r => chunks 128 r.1 r.2
  let closed := us.filter fun u => (x.partOpen s ctx write u).isNone
  us.map fun u =>
    (if s.choose (4000 + u.1 / 128) 2 = 1 ∧ ¬ closed.any fun v => v.1 / 128 == u.1 / 128 then x.partOpen s ctx write u
      else none, u)

/-- The shared-SRAM ranges of the parts that lie on NEAR pages. -/
def State.nearParts (s : State) (ps : List (Page × (Nat × Nat))) : List (Nat × Nat) :=
  (ps.filter fun p => p.1.tier == .near).map fun p => (s.nearOff p.1 (dw p.2.1), p.2.2)

/-- A transfer's NEAR accesses are its fibre's own (R333): the lines that its core's cache holds of them are written back and
dropped first, so that the fibre reads no older write afterwards (R334). -/
def State.syncNear (s : State) (o : Op) (ps : List (Page × (Nat × Nat))) : State :=
  let a := (s.ctx o.ctx).asid
  let c := ((s.group? o.fib.g).bind Group.core?).getD o.core
  (s.nearParts ps).foldl (fun t r => t.flushLines c true fun l =>
    l.asid == a && rangesMeet (128 * l.line, 128 * l.line + 128) (r.1, r.1 + r.2)) s

/-- The parts of a transfer that translate. -/
def Xfer.found (x : Xfer) (s : State) (ctx : Nat) : List (Page × (Nat × Nat)) :=
  (parts x.ranges).filterMap fun r => (s.pageOf (s.ctx ctx).asid (dw r.1)).map fun p => (p, r)

/-- The first address whose byte in the buffer holds an uncorrectable error (R161, R277); `off` is where the parts begin. -/
def badSource (errs : List Nat) : Nat → List (Page × (Nat × Nat)) → Option Nat
  | _, [] => none
  | off, p :: t => match firstErr errs off p.2.2 with
    | some e => some (p.2.1 + (e - off))
    | none => badSource errs (off + p.2.2) t

/-! An MX block of a transfer moves as one with its scale (R348). An engine entry that names no FIFO moves its bytes in steps of
128, the last of them as it completes, so a transfer of blocks waits while such an entry that has started and not left its slot
reads or writes some of its bytes. One that names a FIFO reads memory in the step in which it starts, and writes it in that in
which it completes (assumption 46). -/

/-- Module ranges of an entry's operands. -/
def FEntry.places (e : FEntry) (rs : List (Nat × Nat)) : List (Nat × Nat) :=
  (parts rs).map fun r => ((e.addr r.1).1, (e.addr r.1).1 + r.2)

/-- The module ranges that an entry reads, and those it writes. -/
def FEntry.extents (e : FEntry) : List (Nat × Nat) × List (Nat × Nat) :=
  match decodeEntry e.raw with
  | some i => (e.places (entryRanges i).1, e.places (entryRanges i).2)
  | none => ([], [])

/-- The module ranges that an entry is moving step by step. -/
def FEntry.moving (e : FEntry) : List (Nat × Nat) := if e.started && e.inPlace then e.extents.1 ++ e.extents.2 else []

/-- The transfer waits for an engine entry under way. -/
def State.mxWaits (s : State) (x : Xfer) (ps : List (Page × (Nat × Nat))) : Bool :=
  x.shape.mx && s.slots.any fun v => v.2.entries.any fun e => e.moving.any fun m =>
    ps.any fun p => p.1.tier == .far && rangesMeet m (farAddr p.1 (dw p.2.1), farAddr p.1 (dw p.2.1) + p.2.2)

/-- TRANSFER_ARRIVAL: a FETCH or REDT whose pages are all there brings its box (R262, R263, R266). -/
def State.arrival (s0 : State) (o : Op) (x : Xfer) : State :=
  let pasid := (s0.ctx o.ctx).pasid
  match x.ready s0 o.ctx false with
  | .miss pages => s0.xferMiss o x pages
  | .fail st va =>
    let s := s0.syncNear o (x.found s0 o.ctx)
    let bs := (x.moved s o.ctx false).flatMap fun p => match p.1 with
      | some v => x.readPart s pasid v p.2
      | none => List.replicate p.2.2 0#8
    (match x.kind with
      | .fetch => (s.fillBuf o x bs).migrateAll o (x.found s o.ctx)
      | _ => s.fillBuf o x (List.replicate x.shape.total 0#8)).xferDone o x .full st va 0#7
  | .go ps =>
    let blocks := peerBlocks ps
    if !blocks.isEmpty && !x.asked then s0.askPeers o x blocks fun _ => none
    else if s0.mxWaits x ps then s0
    else
    let s := s0.syncNear o ps
    match x.kind with
      | .redt srcs =>
        let boxes := srcs.map fun b => x.gather s pasid
          ((parts (x.shape.segs b)).filterMap fun r =>
            (s.pageOf (s.ctx o.ctx).asid (dw r.1)).map fun p => (p, r))
        let (bs, fl) := redtBox x.shape boxes
        (s.fillBuf o x bs).xferDone o x .full 0#8 0 fl
      | _ => ((s.fillBuf o x (x.gather s pasid ps)).migrateAll o ps).xferDone o x .full 0#8 0 0#7

/-- The bytes of the buffer that each part takes. -/
def withBytes (ps : List (Page × (Nat × Nat))) (bs : List Byte) : List ((Page × (Nat × Nat)) × List Byte) :=
  match ps with
  | [] => []
  | p :: t => (p, bs.take p.2.2) :: withBytes t (bs.drop p.2.2)

/-- Write a box, part by part. -/
def Xfer.scatter (x : Xfer) (s : State) (pasid : Nat) (ps : List (Page × (Nat × Nat))) (bs : List Byte) : State :=
  (withBytes ps bs).foldl (fun t p => x.writePart t pasid p.1.1 p.1.2 p.2) s

/-- The bytes of a box that one of its blocks takes, under byte enables. -/
def boxBytes (ps : List (Page × (Nat × Nat))) (bs : List Byte) (r : Nat × Nat) : Option (List (Option Byte)) :=
  let all := ((withBytes ps bs).flatMap fun p => p.2.zipIdx.map fun b => (p.1.2.1 + b.2, b.1)).reverse
  some ((List.range r.2).map fun i => (all.find? fun b => b.1 == r.1 + i).map (·.2))

/-- PUT_COMPLETION: a PUT whose pages are all there writes its box (R262, R264). -/
def State.putDone (s : State) (o : Op) (x : Xfer) : State :=
  let pasid := (s.ctx o.ctx).pasid
  let lo := match s.group? o.fib.g with
    | some g => (g.buf x.buf.toNat).lo
    | none => 0
  let bs := match s.group? o.fib.g with
    | some g => Memory.read g.scratch lo x.shape.total
    | none => []
  let stop (st : BitVec 8) (va : Nat) : State :=
    let s1 := ((x.moved s o.ctx true).foldl (fun (t : State × List Byte) p =>
      (match p.1 with
        | some v => x.writePart t.1 pasid v p.2 (t.2.take p.2.2)
        | none => t.1, t.2.drop p.2.2)) (s.syncNear o (x.found s o.ctx), bs)).1
    s1.xferDone o x .empty st va 0#7
  match x.ready s o.ctx true with
  | .miss pages => s.xferMiss o x pages
  | .fail st va => stop st va
  | .go ps =>
    match badSource (((s.group? o.fib.g).map (·.scratchErr)).getD []) lo ps with
    | some va => stop 0x04#8 va
    | none =>
    let blocks := peerBlocks ps
    if !blocks.isEmpty && !x.asked then s.askPeers o x blocks (boxBytes ps bs)
    else if s.mxWaits x ps then s
    else (x.scatter (s.syncNear o ps) pasid ps bs).xferDone o x .empty 0#8 0 0#7

/-- The transfer an event names may go on: accepted, and waiting for no page or peer. -/
def State.xferDue (s : State) (id : Nat) : Option (Op × Xfer) :=
  match s.op? id with
  | none => none
  | some o => match o.xfer? with
    | some x => if x.accepted && (x.miss.isEmpty || x.kill.isSome || x.absent.isSome) && !s.peersPending id then some (o, x) else none
    | none => none

def execTransferArrival (o : Nat) (s : State) : Out :=
  .next (match s.xferDue o with
    | some (p, x) => (match x.kind with
      | .fetch => s.arrival p x
      | .redt _ => s.arrival p x
      | _ => s)
    | none => s)

def execPutCompletion (o : Nat) (s : State) : Out :=
  .next (match s.xferDue o with
    | some (p, x) => (match x.kind with
      | .put => s.putDone p x
      | _ => s)
    | none => s)

/-! ### FATOM, ABAR, AWAIT (R267 to R271) -/

def execFatom (h : Hdr) (d : Reg) (m : Mem) (ty : Ty) (op : AtomOp) (s : State) : Out :=
  runWord (.fatom h d m ty op) h
    (fun _ _ => { counts := true, chks := Mem.chk m 2 ++ Reg.chk d (op.regs ty), unit := some .fatom })
    (fun g f s =>
      let va := f.va m
      let (x, y) := f.atomArgs op ty d
      match s.access g va (Ty.bytes ty) accAtomic nearOrFar with
      | .inl r => r
      | .inr (p, s1) =>
        let near := p.tier == .near
        .ok (s1.addOp g f (f.counter h)
          (.fatom near (if near then s1.nearOff p va else farAddr p va) p.key va op ty x y (f.reg d))
          (regRange (f.reg d) ty.regs) (used := [p.span va]))) s

/-- A FATOM reaches its module: the module is up, or is drained by a later command (R398). -/
def State.fatomUp (s : State) (o : Op) (m : Nat) : Bool :=
  s.linkUp m && (((Tab.get none s.provs m).bind (·.drained)).map fun n => decide (o.id < n)).getD true

/-- Perform a FATOM; one that fails leaves 0 and is reported. -/
def State.performFatom (s : State) (o : Op) (near : Bool) (a : Nat) (key : BitVec 13) (va : Dword) (op : AtomOp) (t : Ty)
    (x y : Dword) (d : Nat) : State :=
  if near then
    if s.sramBad o.core (s.ctx o.ctx).asid a (Ty.bytes t) then (s.land o d t.regs 0 0#7).asyncFail o 0x04#8 va else
    let (m, fl, s1) := s.sramAtomic o.core (s.ctx o.ctx).asid a op t x y
    s1.land o d t.regs m fl
  else
    let status : BitVec 8 := if s.keyOf key = none then 0x02#8 else if !s.fatomUp o (a / 2 ^ 40) then 0x05#8
      else ((s.farFault key true true a (Ty.bytes t)).map (·.1)).getD 0#8
    if status ≠ 0#8 then (s.land o d t.regs 0 0#7).asyncFail o status va
    else
      let m := leNat (s.farRead key a (Ty.bytes t))
      let (v, fl) := atomNew op t m x.toNat y.toNat
      (s.farWrite key a (leBytes (Ty.bytes t) v)).land o d t.regs m fl

def execAbar (h : Hdr) (a : Src) (ab : BitVec 4) (s : State) : Out :=
  runWord (.abar h a ab) h (fun _ _ => { chks := Src.chk a 1 }) (fun _ f s =>
    .ok (s.updGroup s.cur.g fun x =>
      (x.setAbar ab { count := BitVec.ofNat 16 (f.src .z32 a) }).releaseAbar ab s.cycle)) s

/-- The fibre waits until COUNT reads 0. -/
def execAwait (h : Hdr) (p ab : BitVec 4) (s : State) : Out :=
  runWord (.await h p ab) h (fun _ _ => {}) (fun g _ s =>
    let b := g.abar ab
    if b.count = 0#16 then .ok (s.updFibre s.cur fun v => v.setP p (!b.fail))
    else .keep (s.updFibre s.cur fun v => { v with stat := .wait (.abar ab p) })) s

end Sys2Proof.Machine
end

