-- ==== Sys2Proof/Machine/Engines.lean ====
section
/-! DEFINITION. Module engines (R279 to R302): chain handles, ETAIL, ESEQ and EWAIT, forwarding, the entries that a slot
performs, and how they complete or fail. -/

namespace Sys2Proof.Machine

/-! ### Chains and their table (R280 to R282) -/

/-- Status codes of R299. -/
def stBadEntry : BitVec 8 := 0x10
def stNotBound : BitVec 8 := 0x11
def stFenceFail : BitVec 8 := 0x12
def stFifoStall : BitVec 8 := 0x13
def stOverflow : BitVec 8 := 0x14
def stTable : BitVec 8 := 0x15
def stTableError : BitVec 8 := 0x16
def stPriv : BitVec 8 := 0x17

def chainKey (ctx hnd : Nat) : Nat := 4096 * ctx + hnd
def State.chain (s : State) (ctx hnd : Nat) : Chain := Tab.get {} s.chains (chainKey ctx hnd)
def State.setChain (s : State) (ctx hnd : Nat) (c : Chain) : State :=
  { s with chains := Tab.set {} (chainKey ctx hnd) c s.chains }

/-- The slot exists (R279). -/
def slotExists (unit slot : Nat) : Bool :=
  (decide (unit ≤ 2) && decide (slot < 8)) || (decide (16 ≤ unit) && decide (unit < 32) && slot == 0)

/-- A table entry, if it is valid (R280). -/
def chainEnt (bs : List Byte) : Option ChainEnt :=
  let q (i : Nat) := leNat ((bs.drop (8 * i)).take 8)
  let e : ChainEnt := { priv := bits (q 0) 62 62 == 1, module := bits (q 0) 55 50, unit := bits (q 0) 49 45
                        slot := bits (q 0) 44 42, head := dw (bits (q 1) 55 0), seqva := dw (bits (q 2) 55 0) }
  if bits (q 0) 63 63 = 1 ∧ bits (q 0) 61 56 = 0 ∧ bits (q 0) 41 0 = 0 ∧ bits (q 1) 63 56 = 0 ∧ bits (q 2) 63 56 = 0 ∧
      q 3 = 0 ∧ slotExists e.unit e.slot ∧ (e.priv ∨ ¬ (e.unit = 0 ∧ e.slot = 7)) then some e else none

/-- Key of a slot among the slots. -/
def ChainEnt.key (e : ChainEnt) : Nat := 256 * e.module + 8 * e.unit + e.slot
def State.slot (s : State) (k : Nat) : Slot := Tab.get {} s.slots k
def State.setSlot (s : State) (k : Nat) (v : Slot) : State := { s with slots := Tab.set {} k v s.slots }

/-- A table entry read by the device itself. -/
def State.chainEntry (s : State) (ctx hnd : Nat) : Option ChainEnt :=
  let x := s.ctx ctx
  if hnd > x.chlen then none else
  let va := x.chva + dw (32 * hnd)
  match s.pageOf x.asid va with
  | some p => if p.tier = .near then chainEnt (s.sramRead (s.nearOff p va) 32) else none
  | none => none

/-- The sequence word: DONE and FAILED. -/
def Chain.word (c : Chain) : Dword := BitVec.ofBool c.failed ++ BitVec.ofNat 63 c.done

/-- Write 8 bytes of a NEAR page as the device. -/
def State.deviceWord (s : State) (ctx : Nat) (va : Dword) (v : Dword) : State :=
  match s.pageOf (s.ctx ctx).asid va with
  | some p => if p.tier = .near then s.sramWrite (s.nearOff p va) (leBytes 8 v.toNat) else s
  | none => s

/-! ### ETAIL, ESEQ, EWAIT (R290 to R292) -/

/-- Acquire at cluster scope or wider: the core drops the context's lines and fetched words (R340 step 3). -/
def State.acquire (s : State) (g : Group) : State :=
  (s.dropLines g.coreOr0 (s.ctx g.ctx).asid).dropFetched g.coreOr0 g.ctx

/-- Check a handle as a fibre: its table entry, or the trap. -/
def State.handle (s : State) (g : Group) (hnd : Nat) : Res ⊕ (ChainEnt × State) :=
  let x := s.ctx g.ctx
  if hnd > x.chlen then .inl (.trap s .engineError (dw hnd)) else
  let va := x.chva + dw (32 * hnd)
  match s.fibreRead g va va 32 4 [] with
  | .inl r => .inl r
  | .inr (bs, s1) =>
    match chainEnt bs with
    | some e => .inr (e, s1)
    | none => .inl (.trap s1 .engineError (dw hnd))

def execEtail (h : Hdr) (d : Reg) (a b : Src) (s : State) : Out :=
  runWord (.etail h d a b) h
    (fun _ _ => { counts := true, chks := Src.chk a 1 ++ Src.chk b 1 ++ Reg.chk d 2, unit := some .engine })
    (fun g f s =>
      let hnd := f.src .z32 a
      let n := f.src .z32 b
      match s.handle g hnd with
      | .inl r => r
      | .inr (e, s1) =>
        let c := s1.chain g.ctx hnd
        if n > 64 then .trap s1 .engineError (dw n)
        else if c.failed then .trap s1 .engineError (dw (0xFF * 2 ^ 56 + hnd))
        else if n = 0 then
          .ok (s1.addOp g f (f.counter h) (.land (f.reg d) 2 (dw c.sent)) (regRange (f.reg d) 2) (nodrain := true))
        else
          let s2 := s1.addOp g f (f.counter h) (.etail hnd (f.reg d)) (regRange (f.reg d) 2) (nodrain := true)
          .ok (s2.setChain g.ctx hnd { c with fwd := c.fwd ++ [{ by_ := s2.op? s1.nextId, left := n, ent := e, sent := c.sent }] })) s

/-- A failure of the chain's forwarding, which is no entry that SENT counts, waits in its slot. -/
def State.failing (s : State) (k ctx hnd : Nat) : Bool :=
  (s.slot k).entries.any fun e => e.ctx == ctx && e.hnd == hnd && decide (e.num > (s.chain ctx hnd).sent)

def execEtailRst (h : Hdr) (d : Reg) (a : Src) (b : Reg) (s : State) : Out :=
  runWord (.etailRst h d a b) h
    (fun _ _ => { counts := true, chks := Src.chk a 1 ++ Reg.chk b 2 ++ Reg.chk d 2, unit := some .engine })
    (fun g f s =>
      let hnd := f.src .z32 a
      match s.handle g hnd with
      | .inl r => r
      | .inr (e, s1) =>
        let c := s1.chain g.ctx hnd
        if !c.fwd.isEmpty || s1.failing e.key g.ctx hnd then .stall s1 (.chainBusy hnd e.key)
        else if c.sent > c.done ∧ ¬ c.failed then .trap s1 .engineError (dw (0xFE * 2 ^ 56 + hnd))
        else
          let c' := { c with failed := false, sent := c.done, lastva := none, start := some (f.rdPair b) }
          let s2 := (s1.setChain g.ctx hnd c').deviceWord g.ctx e.seqva c'.word
          .ok (s2.addOp g f (f.counter h) (.land (f.reg d) 2 (dw c.done)) (regRange (f.reg d) 2) (nodrain := true))) s

/-- The value is the sequence word now; R335 makes its DONE an acquire (R302). -/
def execEseq (h : Hdr) (d : Reg) (a : Src) (s : State) : Out :=
  runWord (.eseq h d a) h (fun _ _ => { counts := true, chks := Src.chk a 1 ++ Reg.chk d 2, unit := some .engine })
    (fun g f s =>
      let hnd := f.src .z32 a
      match s.handle g hnd with
      | .inl r => r
      | .inr (_, s1) =>
        let v := (s1.chain g.ctx hnd).word
        .ok ((s1.acquire g).addOp g f (f.counter h) (.land (f.reg d) 2 v) (regRange (f.reg d) 2))) s

/-- A 64-bit value from a pair or an immediate. -/
def Fibre.wideSrc (f : Fibre) : Src → Nat
  | .reg r => (f.rdPair r).toNat
  | .imm k => (k.signExtend 64).toNat

/-- The fibre issues it afresh until DONE reaches the value or the chain has failed. -/
def execEwait (h : Hdr) (p : BitVec 4) (a b : Src) (s : State) : Out :=
  runWord (.ewait h p a b) h (fun _ _ => { chks := Src.chk a 1 ++ Src.chk b 2 }) (fun g f s =>
    let hnd := f.src .z32 a
    let v := f.wideSrc b
    match s.handle g hnd with
    | .inl r => r
    | .inr (_, s1) =>
      let c := s1.chain g.ctx hnd
      if c.done ≥ v then .ok ((s1.acquire g).updFibre s1.cur fun w => w.setP p true)
      else if c.failed then .ok (s1.updFibre s1.cur fun w => w.setP p false) else .stall s1 (.chain hnd v)) s

/-! ### Forwarding (R285, R286) -/

/-- Privileged opcodes (R284). -/
def isPrivEntry : Instr → Bool
  | .metard _ => true
  | .metawr _ _ => true
  | .slotbind _ _ => true
  | _ => false

/-- The unit and slot accept the opcode (R279). -/
def unitAccepts (unit slot : Nat) (i : Instr) : Bool :=
  match i with
  | .engineNop => true
  | .engineQfence _ => true
  | .copy .. => unit == 0
  | .reduce .. => unit == 1
  | .fill .. => unit == 2
  | .tload .. => decide (unit ≥ 16)
  | .transduce .. => decide (unit ≥ 16)
  | _ => unit == 0 && slot == 7

/-- The FIFOs an entry names: as consumer, as producer. -/
def entryFifos (i : Instr) : List Nat × List Nat :=
  let ff (o : EOp) : List Nat := match o with
    | .mem _ => []
    | .fifo n => [n.toNat]
  match i with
  | .copy d a _ => (ff a, ff d)
  | .reduce d a b _ _ _ => (ff a ++ ff b, ff d)
  | .fill d _ _ => ([], ff d)
  | .transduce d a _ _ _ => (ff a, ff d)
  | _ => ([], [])

/-- What translation of an entry's operands gives (R285). -/
inductive Operands where
  | miss (pages : List (Nat × Nat))
  | fail (status : BitVec 8)
  | pages (ps : List EPage)

/-- Translate every page of an entry's operands. -/
def State.entryPages (s : State) (ctx : Nat) (c : Chain) (e : ChainEnt) (i : Instr) : Operands :=
  let a := (s.ctx ctx).asid
  let (rd, wr) := entryRanges i
  let ps := ((parts rd).map fun r => (r, false)) ++ ((parts wr).map fun r => (r, true))
  let found := ps.map fun r => (s.pageOf a (dw r.1.1), r)
  let missing := (found.filterMap fun p => if p.1.isNone then
    some (p.2.1.1 / 65536, if p.2.2 then accWrite else accRead) else none).eraseDups
  if missing.any fun p => c.absent.contains p.1 then .fail 0x01#8
  else if ¬ missing.isEmpty then .miss missing
  else match found.findSome? fun p => match p.1 with
      | none => none
      | some v =>
        if v.tier ≠ .far ∨ v.target / 2 ^ 24 ≠ e.module then some 0x08#8
        else if (p.2.2 ∧ ¬ v.wp) ∨ (¬ p.2.2 ∧ ¬ v.rp) ∨ s.keyOf v.key = none then some 0x02#8 else none with
    | some st => .fail st
    | none => .pages (found.filterMap fun p => p.1.map fun v =>
        let u := v.span (dw p.2.1.1)
        ({ vpn := u.1, n := u.2, addr := farAddr v (dw (65536 * u.1)), key := v.key } : EPage)).eraseDups

/-- The entry the forwarding has come to: no valid link, a page still to be answered, a failure before it was read, or
its address, its bytes and the state after the read. -/
inductive Link where
  | bad (va : Dword)
  | wait
  | miss (page : Nat)
  | fail (va : Dword) (status : BitVec 8)
  | entry (va : Dword) (raw : BitVec 384) (s : State)

/-- A NEAR page of a chain, as forwarding reads it. -/
def State.chainPage (s : State) (ctx : Nat) (c : Chain) (va : Dword) : Page ⊕ Link :=
  match s.pageOf (s.ctx ctx).asid va with
  | none => if c.absent.contains (pageNo va) then .inr (.fail va 0x01#8) else .inr (.miss (pageNo va))
  | some p => if !p.rp then .inr (.fail va 0x02#8) else if p.tier != .near then .inr (.fail va 0x08#8) else .inl p

/-- Read bytes of a chain as its forwarder would: an ETAIL through its core, after its fibre's earlier stores; a queue
at the shared SRAM. -/
def State.chainRead (s : State) (f : Fwd) (ctx off n : Nat) : Option (List Byte × State) :=
  match f.by_ with
  | none => some (s.sramRead off n, s)
  | some o =>
    if s.ops.any fun p => decide (p.id < o.id) && p.fib == o.fib && p.inc == o.inc &&
        match p.kind.nearRange with
        | some r => rangesMeet r (off, off + n)
        | none => false then none
    else some (s.cacheRead o.core (s.ctx ctx).asid off n)

/-- The next entry of a chain. -/
def State.nextLink (s : State) (ctx : Nat) (c : Chain) (f : Fwd) : Link :=
  let first : (Dword × State) ⊕ Link := match c.lastva with
    | none => .inl (c.start.getD f.ent.head, s)
    | some l => match s.chainPage ctx c l with
      | .inr k => .inr k
      | .inl p => match s.chainRead f ctx (s.nearOff p l) 8 with
        | none => .inr .wait
        | some (bs, s1) => .inl (dw (leNat bs), s1)
  match first with
  | .inr k => k
  | .inl (va, s1) =>
    if va = 0#64 ∨ va.toNat % 64 ≠ 0 ∨ va.toNat ≥ 2 ^ 56 then .bad va else
    match s1.chainPage ctx c va with
    | .inr k => k
    | .inl p => match s1.chainRead f ctx (s1.nearOff p va) 48 with
      | none => .wait
      | some (bs, s2) => .entry va (BitVec.ofNat 384 (leNat bs)) s2

/-- This package and the context, as the owner of slots (R281). -/
def State.ownerOf (s : State) (ctx : Nat) : Owner :=
  let a := (s.ctx ctx).asid
  ⟨BitVec.ofNat 10 (bits s.regs.peerId.toNat 9 0), a, s.genOf a⟩

/-- Put an entry at the end of its slot. -/
def State.enqueue (s : State) (k : Nat) (e : FEntry) : State :=
  let v := s.slot k
  s.setSlot k { v with entries := v.entries ++ [e] }

/-- The forwarding request at the head of a chain has ended: ETAIL receives SENT. -/
def State.fwdDone (s : State) (ctx hnd : Nat) : State :=
  let c := s.chain ctx hnd
  match c.fwd with
  | [] => s
  | f :: rest =>
    let s1 := s.setChain ctx hnd { c with fwd := rest, miss := [], absent := [] }
    match f.by_ with
    | none => s1
    | some o => match o.kind with
      | .etail _ d => s1.land o d 2 (dw f.sent).toNat 0#7
      | _ => s1

/-- ENGINE_ENTRY_FORWARD: one entry of the oldest request of a chain goes to its slot, once the pages that its forwarding has
found missing are answered. A failure of the forwarding waits in the slot for its place in number order; an entry that breaks
R281 or R284 is forwarded, and fails there. Every entry for a module under drain ends with TRANSPORT (R398). -/
def State.forward (s : State) (ctx hnd : Nat) : State :=
  let c := s.chain ctx hnd
  match c.fwd with
  | [] => s
  | f :: rest =>
    let k := f.ent.key
    if f.left = 0 ∨ c.failed ∨ s.failing k ctx hnd then s.fwdDone ctx hnd
    else if ¬ c.miss.isEmpty ∨ (s.slot k).entries.length ≥ 256 then s
    else
      let drained := s.drainedModules.contains f.ent.module
      let blank : FEntry := { ctx, hnd, num := c.sent + 1, va := 0#64, raw := 0, priv := f.ent.priv, owner := s.ownerOf ctx
                              by_ := f.by_, pages := [], keys := s.keys, seqva := f.ent.seqva, late := drained }
      let stop (t : State) (e : FEntry) : State := (t.enqueue k e).fwdDone ctx hnd
      match s.nextLink ctx c f with
      | .wait => s
      | .miss p => s.setChain ctx hnd { c with miss := [(p, accRead)] }
      | .bad va => stop s { blank with va, unread := true, result := some stBadEntry }
      | .fail va st => stop s { blank with va, unread := true, result := some st }
      | .entry va raw s1 =>
        let e := { blank with va, raw }
        if drained then stop s1 { e with result := some 0x05#8 } else
        let send (t : State) (x : FEntry) : State :=
          let c' := { c with sent := c.sent + 1, lastva := some va, miss := []
                             fwd := { f with left := f.left - 1, sent := c.sent + 1 } :: rest }
          let t1 := (t.enqueue k x).setChain ctx hnd c'
          if f.left = 1 then t1.fwdDone ctx hnd else t1
        let bad := match decodeEntry raw with
          | none => some stBadEntry
          | some i =>
            let (cs, ps) := entryFifos i
            if isPrivEntry i && !f.ent.priv then some stPriv
            else if !unitAccepts f.ent.unit f.ent.slot i || !(cs ++ ps).Nodup then some stBadEntry else none
        match bad with
        | some st => send s1 { e with result := some st }
        | none =>
          match s1.entryPages ctx c f.ent ((decodeEntry raw).getD .engineNop) with
          | .miss ps => s1.setChain ctx hnd { c with miss := ps }
          | .fail st => stop s1 { e with result := some st }
          | .pages ps =>
            if !s1.linkUp f.ent.module then stop s1 { e with result := some 0x05#8 } else
            let r := if (s1.slot k).owner = some (s1.ownerOf ctx) then none else some stNotBound
            send s1 { e with pages := ps, result := r }

def execEngineEntryForward (ctx hnd : Nat) (s : State) : Out := .next (s.forward ctx hnd)

/-! ### Performing (R287 to R298) -/

/-- The entry a slot performs now. -/
def State.headEntry (s : State) (k : Nat) : Option FEntry :=
  match (s.slot k).entries with
  | e :: _ => if e.result.isNone then some e else none
  | [] => none

def State.setHead (s : State) (k : Nat) (e : FEntry) : State :=
  let v := s.slot k
  s.setSlot k { v with entries := e :: v.entries.drop 1 }

/-- An entry's step as the slot's turn: nothing where the slot performs none. -/
def slotStep (u : Nat → FEntry → State → State) (s : State) : Out :=
  .next (match s.headEntry s.curSlot with
    | some e => u s.curSlot e s
    | none => s)

/-- The entry ends with a status; completion or failure follows as a step of its own. -/
def State.endEntry (s : State) (k : Nat) (e : FEntry) (st : BitVec 8) : State := s.setHead k { e with result := some st }

/-- Read bytes of an operand in memory: those read as the entry started, if it names a FIFO. -/
def FEntry.read (e : FEntry) (s : State) (va n : Nat) : List Byte :=
  match e.seen.find? fun v => decide (v.1 ≤ va) && decide (va + n ≤ v.1 + v.2.length) with
  | some v => (v.2.drop (va - v.1)).take n
  | none => (parts [(va, n)]).flatMap fun p => let (a, key) := e.addr p.1; ({ s with keys := e.keys } : State).farRead key a p.2

/-- An entry that names a FIFO starts: it reads its sources in memory whole (R348, assumption 46). -/
def FEntry.begun (e : FEntry) (s : State) (srcs : List EOp) (len : Nat) : FEntry :=
  { e with started := true, seen := srcs.filterMap fun o => match o with
      | .mem va => some (va.toNat, e.read s va.toNat len)
      | .fifo _ => none }

/-- Write bytes of an operand in memory. -/
def FEntry.write (e : FEntry) (s : State) (va : Nat) (bs : List Byte) : State :=
  ((parts [(va, bs.length)]).foldl (fun (t : State × List Byte) p =>
    let (a, key) := e.addr p.1
    ({ ({ t.1 with keys := e.keys } : State).farWrite key a (t.2.take p.2) with keys := s.keys }, t.2.drop p.2)) (s, bs)).1

/-- What stands against reading or writing a range of an operand in memory: a metadata error, or one of the data (R299). -/
def FEntry.fault (e : FEntry) (s : State) (rd wr : Bool) (va n : Nat) : Option (BitVec 8) :=
  ((parts [(va, n)]).findSome? fun p =>
    ({ s with keys := e.keys } : State).farFault (e.addr p.1).2 rd wr (e.addr p.1).1 p.2).map (·.1)

/-- The same of an operand, from a stream position: a FIFO has none. -/
def FEntry.opFault (e : FEntry) (s : State) (rd wr : Bool) (pos n : Nat) : EOp → Option (BitVec 8)
  | .mem va => e.fault s rd wr (va.toNat + pos) n
  | .fifo _ => none

def State.fifo (s : State) (n : Nat) : Fifo := Tab.get {} s.fifos n
def State.setFifo (s : State) (n : Nat) (v : Fifo) : State := { s with fifos := Tab.set {} n v s.fifos }

/-- FIFO `n` of the module of slot `k`. -/
def fifoOf (k n : Nat) : Nat := 16 * (k / 256) + n

/-- Bind an end of a FIFO to slot `k`, whose entry has started: the first that waits takes a free end, and the two ends lie
in different slots (R294). The answer says whether it is bound. -/
def State.bindFifo (s : State) (k n : Nat) (prod : Bool) : Bool × State :=
  let v := s.fifo (fifoOf k n)
  if prod then
    if v.prod = some k ∧ ¬ v.ended then (true, s) else
    let w := if v.waitP.contains k then v.waitP else v.waitP ++ [k]
    if v.prod.isNone && !v.broken && v.cons != some k && w.head? == some k then
      (true, s.setFifo (fifoOf k n) { v with prod := some k, waitP := w.drop 1 })
    else (false, s.setFifo (fifoOf k n) { v with waitP := w })
  else
    if v.cons = some k then (true, s) else
    let w := if v.waitC.contains k then v.waitC else v.waitC ++ [k]
    if v.cons.isNone && !v.broken && v.prod != some k && w.head? == some k then
      (true, s.setFifo (fifoOf k n) { v with cons := some k, waitC := w.drop 1 })
    else (false, s.setFifo (fifoOf k n) { v with waitC := w })

/-- Bind the FIFOs an entry names: whether all of them are bound. -/
def State.bindFifos (s : State) (k : Nat) (i : Instr) : Bool × State :=
  let (cs, ps) := entryFifos i
  ((cs.map fun n => (n, false)) ++ ps.map fun n => (n, true)).foldl (fun (t : Bool × State) x =>
    let r := t.2.bindFifo k x.1 x.2
    (t.1 && r.1, r.2)) (true, s)

/-- Bytes an operand can give, up to `n`, and whether it will give no more than that: memory gives them all. -/
def State.avail (s : State) (k : Nat) (o : EOp) (n : Nat) : Nat × Bool :=
  match o with
  | .mem _ => (n, false)
  | .fifo m => let v := s.fifo (fifoOf k m.toNat); (min n v.data.length, v.ended && decide (v.data.length ≤ n))

/-- Bytes a destination can take now. -/
def State.room (s : State) (k : Nat) (o : EOp) (n : Nat) : Nat :=
  match o with
  | .mem _ => n
  | .fifo m => min n (65536 - (s.fifo (fifoOf k m.toNat)).data.length)

/-- Output that is still in the entry's buffer, over what memory holds: a later step reads what an earlier one wrote
(R285). -/
def FEntry.pending (e : FEntry) (d : EOp) (va : Nat) (bs : List Byte) : List Byte :=
  match d with
  | .fifo _ => bs
  | .mem dva =>
    if e.obuf.isEmpty then bs else
    let start := dva.toNat + e.outb - e.obuf.length
    bs.zipIdx.map fun b =>
      match e.obuf.zipIdx.find? fun x => (e.addr (start + x.2)).1 == (e.addr (va + b.2)).1 with
      | some x => x.1
      | none => b.1

/-- Take `n` bytes of an operand at stream position `pos`. -/
def State.take (s : State) (k : Nat) (e : FEntry) (d o : EOp) (pos n : Nat) : List Byte × State :=
  match o with
  | .mem va => (e.pending d (va.toNat + pos) (e.read s (va.toNat + pos) n), s)
  | .fifo m =>
    let v := s.fifo (fifoOf k m.toNat)
    (v.data.take n, s.setFifo (fifoOf k m.toNat) { v with data := v.data.drop n })

/-- Give output bytes to a destination: to a FIFO, as far as it has room, or to memory as its aligned units of 128 bytes fill,
so that each is written as one (R302); an entry that names a FIFO writes memory as it completes (R348). -/
def State.give (s : State) (k : Nat) (e : FEntry) (o : EOp) (bs : List Byte) : FEntry × State :=
  let e1 := { e with outb := e.outb + bs.length }
  match o with
  | .mem va =>
    let all := e.obuf ++ bs
    let stop := va.toNat + e1.outb
    let n := if !e.inPlace || decide (all.length ≤ stop % 128) then 0 else all.length - stop % 128
    ({ e1 with obuf := all.drop n }, if n = 0 then s else e.write s (stop - all.length) (all.take n))
  | .fifo m =>
    let v := s.fifo (fifoOf k m.toNat)
    let all := e.obuf ++ bs
    let n := 65536 - v.data.length
    ({ e1 with obuf := all.drop n }, s.setFifo (fifoOf k m.toNat) { v with data := v.data ++ all.take n })

/-- Output waits for room in the FIFO that is its destination (R294). -/
def FEntry.held (e : FEntry) : EOp → Bool
  | .mem _ => false
  | .fifo _ => !e.obuf.isEmpty

/-- Output that waits for room goes to its FIFO; the entry ends where that was the last of it. -/
def State.drain (s : State) (k : Nat) (e : FEntry) (d : EOp) : State :=
  let (e1, s1) := s.give k e d []
  match if e1.held d then none else e1.after with
  | some st => s1.endEntry k e1 st
  | none => s1.setHead k e1

/-- The entry ends with a status, once its output has left. -/
def State.endAfter (s : State) (k : Nat) (e : FEntry) (d : EOp) (st : BitVec 8) : State :=
  if e.held d then s.setHead k { e with after := some st } else s.endEntry k e st

/-- D of an entry. -/
def FEntry.dest (e : FEntry) : Option EOp :=
  match decodeEntry e.raw with
  | some (.copy d _ _) => some d
  | some (.reduce d _ _ _ _ _) => some d
  | some (.fill d _ _) => some d
  | some (.transduce d _ _ _ _) => some d
  | _ => none

/-- Bytes that have left for D, or are to be written there. -/
def FEntry.written (e : FEntry) : Nat := if e.dest.any e.held then e.outb - e.obuf.length else e.outb

/-- Write the output that memory has still to receive. -/
def State.flushOut (s : State) (e : FEntry) : State :=
  match e.dest with
  | some (.mem va) => if e.obuf.isEmpty then s else e.write s (va.toNat + e.outb - e.obuf.length) e.obuf
  | _ => s

/-- A stream that an operand reads still holds bytes. -/
def State.streamOn (s : State) (k : Nat) (o : EOp) : Bool :=
  match o with
  | .mem _ => false
  | .fifo m => !(s.fifo (fifoOf k m.toNat)).data.isEmpty

/-- The operand's stream has ended, and every byte of it has been read. -/
def State.streamOver (s : State) (k : Nat) (o : EOp) : Bool :=
  match o with
  | .mem _ => false
  | .fifo m => let v := s.fifo (fifoOf k m.toNat); v.ended && v.data.isEmpty

/-- An operand that is a FIFO whose stream goes on: the entry may neither complete nor fail yet. -/
def State.streamOpen (s : State) (k : Nat) (o : EOp) : Bool :=
  match o with
  | .mem _ => false
  | .fifo m => !(s.fifo (fifoOf k m.toNat)).ended

/-- The operand is in memory. -/
def inMemory : EOp → Bool
  | .mem _ => true
  | .fifo _ => false

/-- The entry at the head of a slot fails, unless it has failed before. -/
def State.failHead (s : State) (k : Nat) (st : BitVec 8) : State :=
  match (s.slot k).entries with
  | [] => s
  | e :: _ => if e.result.getD 0#8 = 0#8 then s.endEntry k e st else s

/-- The producer of a stream that has not ended fails with its consumer (R294). -/
def State.failProducer (s : State) (k : Nat) : EOp → State
  | .mem _ => s
  | .fifo m =>
    let v := s.fifo (fifoOf k m.toNat)
    match if v.ended then none else v.prod with
    | none => s
    | some j => s.failHead j stOverflow

/-- OVERFLOW of a consumer, and of the producers of the streams it reads that go on. -/
def State.overflow (s : State) (k : Nat) (e : FEntry) (srcs : List EOp) : State :=
  (srcs.filter (s.streamOn k)).foldl (fun t o => t.failProducer k o) (s.endEntry k e stOverflow)

/-- The end of a data entry at its LEN: OVERFLOW where a stream it reads still gives bytes, a wait where it may; with an
operand in memory beside a stream, the shorter of the two ends it (R294). -/
def State.atEnd (s : State) (k : Nat) (e : FEntry) (srcs : List EOp) : State :=
  if srcs.any inMemory then s.endEntry k e 0#8
  else if srcs.any (s.streamOn k) then s.overflow k e srcs
  else if srcs.any (s.streamOpen k) then s else s.endEntry k e 0#8

/-- The module ranges of two entries meet, one of which writes them. -/
def FEntry.collides (e f : FEntry) : Bool :=
  let meet (xs ys : List (Nat × Nat)) : Bool := xs.any fun x => ys.any (rangesMeet x)
  meet e.extents.2 (f.extents.1 ++ f.extents.2) || meet f.extents.2 e.extents.1

/-- An entry that names no FIFO is under way in another slot on bytes that this one shares. -/
def State.meetsMoving (s : State) (k : Nat) (e : FEntry) : Bool :=
  s.slots.any fun p => p.1 != k && p.2.entries.any fun f => f.started && f.inPlace && e.collides f

/-- An entry that has not started waits for such a one, so that neither meets the other's blocks half done (R348). -/
def State.entryWaits (s : State) (k : Nat) (e : FEntry) : Bool := !e.started && s.meetsMoving k e

/-- So does the output of an entry that names a FIFO, which goes to memory as the entry leaves its slot (assumption 46). -/
def State.flushWaits (s : State) (k : Nat) (e : FEntry) : Bool := !e.inPlace && !e.obuf.isEmpty && s.meetsMoving k e

/-- One 128-byte step of an entry that makes D from its sources: `fn` makes the output of `n` bytes from theirs (R293), unless
what it would read or write holds an error (R275, R299). A
source that is a FIFO gives what it holds, an element at least, unless its stream ends before; one that is the destination must
not be full, and what it has no room for waits (R294). -/
def dataStep (i : Instr) (d : EOp) (srcs : List EOp) (len unit : Nat) (fn : Nat → List (List Byte) → List Byte × Flags)
    (k : Nat) (e : FEntry) (s0 : State) : State :=
  match s0.bindFifos k i with
  | (false, s) => s
  | (true, s) =>
    if s.entryWaits k e then s
    else if !e.started && !e.inPlace then s.setHead k (e.begun s srcs len)
    else if e.held d then s.drain k e d
    else if e.outb ≥ len then s.atEnd k e srcs else
    let n0 := min 128 (len - e.outb)
    if srcs.any fun o => decide ((s.avail k o n0).1 < min unit n0) && !(s.avail k o n0).2 then s else
    let n := (srcs.foldl (fun n o => min n (s.avail k o n0).1) n0) / unit * unit
    if n = 0 then s.endEntry k e 0#8
    else if s.room k d 1 = 0 then s
    else match (srcs.findSome? (e.opFault s true false e.outb n)).or (e.opFault s false true e.outb n d) with
    | some st => s.endEntry k e st
    | none =>
      let (bs, s1) := srcs.foldl (fun (t : List (List Byte) × State) o =>
        let (b, u) := t.2.take k e d o e.outb n
        (t.1 ++ [b], u)) ([], s)
      let (out, fl) := fn e.outb bs
      let (e1, s2) := s1.give k e d out
      s2.setHead k { e1 with started := true, inb := e.inb + n * srcs.length, eflags := e.eflags ||| fl }

def execEngineNop (s : State) : Out := slotStep (fun k e t => t.endEntry k e 0#8) s

def execCopy (d a : EOp) (len : BitVec 32) (s : State) : Out :=
  slotStep (dataStep (.copy d a len) d [a] len.toNat 1 (fun _ bs => (bs.headD [], 0#7))) s

/-- Byte `i` of the 8-byte pattern. -/
def patByte (pat : Dword) (i : Nat) : Byte := pat.extractLsb' (8 * (i % 8)) 8

def execFill (d : EOp) (pat : Dword) (len : BitVec 32) (s : State) : Out :=
  slotStep (dataStep (.fill d pat len) d [] len.toNat 1 (fun at_ _ =>
    ((List.range (min 128 (len.toNat - at_))).map fun i => patByte pat (at_ + i), 0#7))) s

/-- One element of REDUCE (R293). -/
def reduceElem (t : Ty) (m : EMode) (a b : Nat) : Nat × Flags :=
  match m with
  | .add => redtElem t [a, b]
  | .min => if t.isFloat then fminmax false t a b else (Ty.ofI t (min (Ty.toI t a) (Ty.toI t b)), 0#7)
  | .max => if t.isFloat then fminmax true t a b else (Ty.ofI t (max (Ty.toI t a) (Ty.toI t b)), 0#7)

def execReduce (d a b : EOp) (ty : Ty) (mode : EMode) (len : BitVec 32) (s : State) : Out :=
  slotStep (dataStep (.reduce d a b ty mode len) d [a, b] len.toNat (ty.width / 8) (fun _ bs =>
    let x := bs.headD []
    let y := (bs.drop 1).headD []
    let rs := (List.range (x.length * 8 / ty.width)).map fun j =>
      reduceElem ty mode (elemAt x ty.width j) (elemAt y ty.width j)
    (leBytes x.length (packCodes ty.width (rs.map (·.1))), mergeFlags (rs.map (·.2))))) s

/-- The lane of a transducer slot (R279, R296). -/
def laneOf (k : Nat) : Nat := 16 * (k / 256) + (k % 256 / 8 - 16)
def State.lane (s : State) (n : Nat) : Lane := Tab.get {} s.lanes n

/-- A table image that R296 accepts. -/
def laneImage (bs : List Byte) (len : Nat) : Option Lane :=
  let q := leNat (bs.take 8)
  let n := bits q 11 0
  let st := bits q 27 16
  if bits q 63 28 = 0 ∧ bits q 15 12 = 0 ∧ ((bs.drop 8).take 56).all (· == 0#8) ∧ 1 ≤ n ∧ st < n ∧ len = 64 + 1024 * n then
    let rows := (List.range (256 * n)).foldl (fun (t : Tab Word × List Byte) i =>
      (Tab.set 0xFFF00000#32 i (BitVec.ofNat 32 (leNat (t.2.take 4))) t.1, t.2.drop 4)) (([] : Tab Word), bs.drop 64)
    some { start := st, nstates := n, rows := rows.1 }
  else none

/-- The header is read and judged, then the rest of the image; the lane's table is replaced as the entry completes (R296). -/
def execTload (a : BitVec 56) (len : BitVec 32) (s : State) : Out :=
  slotStep (fun k e t =>
    let n := len.toNat
    let hd := e.read t a.toNat (min 64 n)
    let bs := if n = 64 + 1024 * (bits (leNat (hd.take 8)) 11 0) then e.read t a.toNat n else hd
    match e.fault t true false a.toNat (min 64 n), laneImage bs n with
    | some st, _ => t.endEntry k e st
    | none, none => t.endEntry k e stTable
    | none, some l => match e.fault t true false a.toNat n with
      | some st => t.endEntry k e st
      | none => t.endEntry k { e with inb := n, table := some l } 0#8) s

/-- What the dispatch of one input byte comes to (R298): the bytes emitted, the state, and a status where it fails. -/
structure Dispatch where
  out : List Byte
  st : Nat
  fail : Option (BitVec 8) := none
  stop : Bool := false

def Lane.entry (l : Lane) (st c : Nat) : Word := Tab.get 0xFFF00000#32 l.rows (256 * st + c)

/-- The bytes a table entry emits at input offset `o` (R297). -/
def emitted (w : Word) (o : Nat) : List Byte :=
  match (w.extractLsb' 18 2).toNat with
  | 0 => []
  | 1 => [w.extractLsb' 0 8]
  | 2 => [w.extractLsb' 0 8, w.extractLsb' 8 8]
  | _ => leBytes 4 ((w.extractLsb' 0 16).toNat + 65536 * ((o + 1) % 65536))

/-- Dispatch of byte `c` at offset `o`, with `out` bytes written so far; at most eight holds. -/
def dispatchByte (l : Lane) (c o cap : Nat) : Nat → Nat → Nat → Dispatch
  | 0, st, _ => { out := [], st, fail := some stTable }
  | k + 1, st, out =>
    let w := l.entry st c
    let bs := emitted w o
    let ns := (w.extractLsb' 20 12).toNat
    if out + bs.length > cap then { out := [], st, fail := some stOverflow }
    else if ns = 0xFFF then { out := bs, st, fail := some stTableError }
    else if ns ≥ l.nstates then { out := bs, st, fail := some stTable }
    else if w.getLsbD 17 && !w.getLsbD 16 then
      let r := dispatchByte l c o cap k ns (out + bs.length)
      { r with out := bs ++ r.out }
    else { out := bs, st := ns, stop := w.getLsbD 16 }

/-- The output that D has room for: at most AUX[31:0], and no byte past the pages that its LEN bytes were translated for
(R285, assumption 46). -/
def FEntry.outCap (e : FEntry) (d : EOp) (cap len : Nat) : Nat :=
  match d with
  | .mem va => match e.pageAt (va.toNat + len - 1) with
    | some p => min cap (65536 * (p.vpn + p.n) - va.toNat)
    | none => min cap len
  | .fifo _ => cap

/-- The next input of TRANSDUCE, 128 bytes at a time from memory (R285). -/
def State.transIn (s : State) (k : Nat) (e : FEntry) (d a : EOp) (len : Nat) : FEntry × State :=
  if !e.ibuf.isEmpty then (e, s) else
  let n := if inMemory a then min 128 (len - e.inb) else 1
  let (bs, t) := s.take k e d a e.inb n
  ({ e with ibuf := bs }, t)

/-- One input byte of TRANSDUCE. -/
def execTransduce (d a : EOp) (start : Option (BitVec 12)) (cap len : BitVec 32) (s : State) : Out :=
  slotStep (fun k e0 t0 =>
    match t0.bindFifos k (.transduce d a start cap len) with
    | (false, t) => t
    | (true, t) =>
      let l := t.lane (laneOf k)
      let e := if e0.started then e0 else
        { (if e0.inPlace then { e0 with started := true } else e0.begun t [a] len.toNat) with st := match start with
          | some v => v.toNat
          | none => l.start }
      if t.entryWaits k e0 then t
      else if ¬ e0.started ∧ e.st ≥ l.nstates then t.endEntry k e stTable
      else if e.held d then t.drain k e d
      else if e.inb ≥ len.toNat then (t.setHead k e).atEnd k e (if inMemory a then [] else [a])
      else if t.streamOver k a then t.endEntry k e 0#8
      else if (t.avail k a 1).1 = 0 ∨ t.room k d 1 = 0 then t.setHead k e
      else match if e.ibuf.isEmpty then e.opFault t true false e.inb (min 128 (len.toNat - e.inb)) a else none with
      | some st => t.endEntry k e st
      | none =>
        let (e1, t1) := t.transIn k e d a len.toNat
        let r := dispatchByte l (leNat (e1.ibuf.take 1)) e1.inb (e1.outCap d cap.toNat len.toNat) 8 e1.st e1.outb
        match if r.out.isEmpty then none else e1.opFault t1 false true e1.outb r.out.length d with
        | some st => t1.endEntry k e1 st
        | none =>
          let (e2, t2) := t1.give k { e1 with st := r.st } d r.out
          match r.fail with
          | some st => t2.endAfter k e2 d st
          | none =>
            let e3 := { e2 with inb := e2.inb + 1, ibuf := e2.ibuf.drop 1 }
            if r.stop then t2.endAfter k e3 d 0#8 else t2.setHead k e3) s

/-- How one pair of a QFENCE stands: met, to be waited for, or a failure (R289). -/
def State.fencePair (s : State) (k : Nat) (e : FEntry) (p : BitVec 12 × BitVec 52) : Option (BitVec 8) :=
  let hnd := p.1.toNat
  let v := p.2.toNat
  match s.chainEntry e.ctx hnd with
  | none => some stBadEntry
  | some c =>
    if c.module ≠ k / 256 ∨ (hnd = e.hnd ∧ v ≥ e.num) then some stBadEntry
    else if (s.chain e.ctx hnd).failed ∧ (s.chain e.ctx hnd).done < v then some stFenceFail else none

def execEngineQfence (pairs : List (BitVec 12 × BitVec 52)) (s : State) : Out :=
  slotStep (fun k e t =>
    match pairs.findSome? (t.fencePair k e) with
    | some st => t.endEntry k e st
    | none => if pairs.all fun p => decide ((t.chain e.ctx p.1.toNat).done ≥ p.2.toNat) then t.endEntry k e 0#8 else t) s

/-- The 16-byte metadata record (R274). -/
def Meta.word (r : Meta) : BitVec 128 := r.rsv ++ BitVec.ofBool r.ce ++ BitVec.ofBool r.raw ++ r.code

def execMetard (va : BitVec 56) (s : State) : Out :=
  slotStep (fun k e t =>
    let r : Meta := t.metaOf (e.addr va.toNat).1
    t.endEntry k { e with meta_ := some r.word } 0#8) s

/-- CE from 1 to 0 stores every block raw, unless one of them meets an error; from 0 to 1 it changes no block (R301). -/
def execMetawr (va : BitVec 56) (ce : Bool) (s : State) : Out :=
  slotStep (fun k e t =>
    let (a, key) := e.addr va.toNat
    let page := a / 65536 * 65536
    if ce || !(t.metaOf a).ce then (t.setMeta a { t.metaOf a with ce }).endEntry k e 0#8
    else match ({ t with keys := e.keys } : State).farFault key true true page 65536 with
      | some st => t.endEntry k e st.1
      | none => ({ ({ t with keys := e.keys } : State).storeRaw key page with keys := t.keys }).endEntry k e 0#8) s

def execSlotbind (slot : BitVec 8) (owner : Option Owner) (s : State) : Out :=
  slotStep (fun k e t =>
    let n := slot.toNat
    if n = 7 ∨ ¬ slotExists (n / 8) (n % 8) then t.endEntry k e stBadEntry
    else
      let j := 256 * (k / 256) + n
      (t.setSlot j { t.slot j with owner }).endEntry k e 0#8) s

/-! ### Completion and failure (R287, R295, R300) -/

/-- The last of an entry's output, bytes 48 to 63 of the entry, and bytes 32 to 47 for METARD. A count of consumed bytes that
its 32 bits cannot hold (the two inputs of a REDUCE together) is a free value. -/
def State.writeBackEntry (s0 : State) (e : FEntry) (st : BitVec 8) : State :=
  let s := s0.flushOut e
  match s.pageOf (s.ctx e.ctx).asid e.va with
  | none => s
  | some p =>
    if p.tier ≠ .near ∨ e.unread then s else
    let off := s.nearOff p e.va
    let isT := match decodeEntry e.raw with
      | some (.transduce ..) => true
      | _ => false
    let inb := if e.inb < 2 ^ 32 then e.inb else s.choose 32 (2 ^ 32)
    let w := leBytes 8 (e.written % 2 ^ 32 + 2 ^ 32 * (inb % 2 ^ 32)) ++
      leBytes 8 (st.toNat + 2 ^ 8 * e.eflags.toNat + if isT then 2 ^ 16 * (e.st % 4096) else 0)
    let s1 := s.sramWrite (off + 48) w
    match e.meta_ with
    | some r => s1.sramWrite (off + 32) (leBytes 16 r.toNat)
    | none => s1

/-- Free a FIFO; what waits for its ends goes on waiting. -/
def Fifo.freed (v : Fifo) : Fifo := { waitP := v.waitP, waitC := v.waitC }

/-- The FIFO once slot `k` has left it; `done` where its entry completed. A consumer that leaves before the stream ends, or a
producer that fails, leaves it bound at one end. -/
def Fifo.leave (v0 : Fifo) (k : Nat) (done : Bool) : Fifo :=
  let v := { v0 with waitP := v0.waitP.erase k, waitC := v0.waitC.erase k }
  if v.cons = some k then
    if v.ended || v.prod.isNone then v.freed else { v with cons := none, broken := true, data := [] }
  else if v.prod = some k ∧ ¬ v.ended then
    if done then (if v.broken then v.freed else { v with ended := true })
    else if v.cons.isNone then v.freed else { v with prod := none, broken := true }
  else v

/-- Slot `k` leaves the FIFOs it is bound to or waits for. -/
def State.leaveFifos (s : State) (k : Nat) (done : Bool) : State :=
  s.fifos.foldl (fun t p => t.setFifo p.1 (p.2.leave k done)) s

/-- The table that TLOAD has read replaces that of its lane (R296). -/
def State.loadTable (s : State) (k : Nat) (e : FEntry) : State :=
  match e.table with
  | some l => { s with lanes := Tab.set {} (laneOf k) l s.lanes }
  | none => s

/-- ENGINE_ENTRY_COMPLETE: the head entry of a slot completes as one step. -/
def State.entryComplete (s : State) (k : Nat) : State :=
  match (s.slot k).entries with
  | [] => s
  | e :: rest =>
    if e.result ≠ some 0#8 ∨ s.flushWaits k e then s
    else if !s.linkUp (k / 256) then s.setHead k { e with result := some 0x05#8 } else
    let c := { s.chain e.ctx e.hnd with done := e.num }
    let s1 := ((s.writeBackEntry e 0#8).loadTable k e).setSlot k { s.slot k with entries := rest }
    ((s1.setChain e.ctx e.hnd c).deviceWord e.ctx e.seqva c.word).leaveFifos k true

def execEngineEntryComplete (slot : Nat) (s : State) : Out := .next (s.entryComplete slot)

/-- Report the failure of an entry (R300). -/
def State.reportEntry (s : State) (e : FEntry) (st : BitVec 8) : State :=
  let value := st ++ e.va.extractLsb' 0 56
  match e.by_ with
  | some o => s.report o .engineError value (s.opRec o 0x21#8 st e.va)
  | none =>
    let a := (s.ctx e.ctx).asid
    s.postFault e.ctx (faultRec 0x21#8 st a (s.genOf a) 0 0 0#64 e.va 0#64)

/-- ENGINE_CHAIN_FAIL: the head entry of a slot has failed, and its chain with it. -/
def State.chainFail (s : State) (k : Nat) : State :=
  match (s.slot k).entries with
  | [] => s
  | e :: rest =>
    match e.result with
    | none => s
    | some st =>
      if st = 0#8 ∨ s.flushWaits k e then s else
      let c := { s.chain e.ctx e.hnd with failed := true }
      let s1 := (s.writeBackEntry e st).setSlot k
        { s.slot k with entries := rest.filter fun x => !(x.ctx == e.ctx && x.hnd == e.hnd) }
      (((s1.setChain e.ctx e.hnd c).deviceWord e.ctx e.seqva c.word).leaveFifos k false).reportEntry e st

def execEngineChainFail (slot : Nat) (s : State) : Out := .next (s.chainFail slot)

/-- FIFO_STALL: the entries bound to a FIFO fail, and it is freed (R295). The millisecond is not measured (assumption
4). -/
def execFifoStall (fifo : Nat) (s : State) : Out :=
  .next (
    let v := s.fifo fifo
    if v.prod.isNone && v.cons.isNone then s else
    let stop (t : State) (k : Option Nat) : State := match k with
      | none => t
      | some j => t.failHead j stFifoStall
    (stop (if v.ended then s else stop s v.prod) v.cons).setFifo fifo v.freed)

/-- The instruction that a slot performs in its turn. -/
def State.slotInstr (s : State) (k : Nat) : Option Instr := (s.headEntry k).bind fun e => decodeEntry e.raw

end Sys2Proof.Machine
end

