-- ==== Sys2Proof/Machine/Window.lean ====
section
/-! DEFINITION. Pod windows (R303 to R317, R326, R327): window entries, direct access and write-with-enqueue, requests
as they are sent, served, answered, forwarded and timed out, and the intake of step records (R321, R324). -/

namespace Sys2Proof.Machine

/-! ### Window entries -/

/-- Statuses of R315. -/
def stTranslation : BitVec 8 := 0x30
def stKey : BitVec 8 := 0x31
def stBounds : BitVec 8 := 0x32
def stTimeout : BitVec 8 := 0x33
def stQueueFull : BitVec 8 := 0x34
def stBusy : BitVec 8 := 0x35
def stTorn : BitVec 8 := 0x36
def stRemote : BitVec 8 := 0x37
def stMismatch : BitVec 8 := 0x38

/-- Quadword `i` of bytes. -/
def quad (bs : List Byte) (i : Nat) : Nat := leNat ((bs.drop (8 * i)).take 8)

/-- An outbound window (R303). -/
structure OutWin where
  step : Bool
  rule : BitVec 3
  peer : Nat
  iwin : Nat
  base : Nat
  limit : Nat
  key : BitVec 32
  deriving DecidableEq, Repr

/-- An outbound entry, if it is valid (R303, R323). -/
def outWin (bs : List Byte) : Option OutWin :=
  let q := quad bs
  let w : OutWin := { step := bits (q 0) 62 62 == 1, rule := BitVec.ofNat 3 (bits (q 0) 61 59), peer := bits (q 0) 53 44
                      iwin := bits (q 0) 43 31, base := bits (q 1) 31 0, limit := bits (q 2) 32 0
                      key := BitVec.ofNat 32 (bits (q 3) 31 0) }
  if bits (q 0) 63 63 = 1 ∧ bits (q 0) 58 54 = 0 ∧ bits (q 0) 30 0 = 0 ∧ q 1 < 2 ^ 32 ∧ q 2 < 2 ^ 33 ∧ q 3 < 2 ^ 32 ∧
      1 ≤ w.limit ∧ w.limit ≤ 2 ^ 32 ∧ w.rule ≠ 7#3 ∧ (w.step ∨ w.rule = 0#3) then some w else none

/-- The entry of a handle, as a fibre read (R303). -/
def State.window (s : State) (g : Group) (h : Nat) : Res ⊕ (Option OutWin × State) :=
  let c := s.ctx g.ctx
  if h > c.owlen then .inr (none, s) else
  let va := c.owva + dw (32 * h)
  match s.fibreRead g va va 32 2 [] with
  | .inl r => .inl r
  | .inr (bs, s1) => .inr (outWin bs, s1)

/-- STEP_CTL.EN. -/
def State.stepOn (s : State) : Bool := s.regs.stepCtl.getLsbD 63

/-- The checks of R313 for `n` bytes at an offset that is a multiple of `al`. -/
def State.winCheck (s : State) (g : Group) (h off n al : Nat) (step : Bool) : Res ⊕ (OutWin × State) :=
  let wa := dw (h * 2 ^ 48 + off)
  match s.window g h with
  | .inl r => .inl r
  | .inr (w, s1) =>
    if off % al ≠ 0 then .inl (.trap s1 .align wa) else
    match w with
    | none => .inl (.trap s1 .windowBounds wa)
    | some w =>
      if s1.failedWin.contains (g.ctx, h) then .inl (.trap s1 .peerTimeout wa)
      else if (w.step != step) || decide (off + n > w.limit) || (step && !s1.stepOn) then .inl (.trap s1 .windowBounds wa)
      else .inr (w, s1)

/-- Handle and offset of a window address (R313). -/
def Fibre.winAddr (f : Fibre) (m : Mem) : Nat × Nat :=
  (bits (f.rdPair m.base).toNat 63 48, (f.rdPair m.base + f.disp m.off).toNat % 2 ^ 48)

/-- The request through a window. -/
def OutWin.req (w : OutWin) (ctx h off : Nat) (kind : PeerKind) : PeerReq :=
  { peer := w.peer, addr := (w.iwin * 2 ^ 32 + w.base + off) % 2 ^ 45, hdr := some ⟨w.step, w.rule, w.key⟩, kind
    handle := some (65536 * ctx + h), taddr := dw (h * 2 ^ 48 + off) }

/-! ### XLD, XST, XATOM, XPUTQ, SPUT at issue (R314, R316, R321) -/

def execXld (h : Hdr) (d : Reg) (m : Mem) (ty : Ty) (s : State) : Out :=
  runWord (.xld h d m ty) h (fun _ _ => { counts := true, chks := Mem.chk m 2 ++ Reg.chk d ty.regs }) (fun g f s =>
    let (hn, off) := f.winAddr m
    match s.winCheck g hn off (Ty.bytes ty) (Ty.bytes ty) false with
    | .inl r => r
    | .inr (w, s1) => peerIssue g f (f.counter h) (w.req g.ctx hn off (.read ty (f.reg d))) (regRange (f.reg d) ty.regs)
        true s1) s

def execXst (h : Hdr) (d : Reg) (m : Mem) (ty : Ty) (s : State) : Out :=
  runWord (.xst h d m ty) h (fun _ _ => { counts := true, chks := Mem.chk m 2 ++ Reg.chk d ty.regs }) (fun g f s =>
    let (hn, off) := f.winAddr m
    match s.winCheck g hn off (Ty.bytes ty) (Ty.bytes ty) false with
    | .inl r => r
    | .inr (w, s1) => peerIssue g f (f.counter h)
        (w.req g.ctx hn off (.write (leBytes (Ty.bytes ty) (f.rN (f.reg d) ty.regs)))) [] false s1) s

def execXatom (h : Hdr) (d : Reg) (m : Mem) (ty : Ty) (op : AtomOp) (s : State) : Out :=
  runWord (.xatom h d m ty op) h (fun _ _ => { counts := true, chks := Mem.chk m 2 ++ Reg.chk d (op.regs ty) })
    (fun g f s =>
      let (hn, off) := f.winAddr m
      let (x, y) := f.atomArgs op ty d
      match s.winCheck g hn off (Ty.bytes ty) (Ty.bytes ty) false with
      | .inl r => r
      | .inr (w, s1) => peerIssue g f (f.counter h) (w.req g.ctx hn off (.atomic op ty x y (some (f.reg d))))
          (regRange (f.reg d) ty.regs) true s1) s

/-- SPUT carries W as it stands at issue (R319). -/
def execSput (h : Hdr) (d : Reg) (m : Mem) (ty : Ty) (s : State) : Out :=
  runWord (.sput h d m ty) h (fun _ _ => { counts := true, chks := Mem.chk m 2 ++ Reg.chk d ty.regs }) (fun g f s =>
    let (hn, off) := f.winAddr m
    match s.winCheck g hn off (Ty.bytes ty) (Ty.bytes ty) true with
    | .inl r => r
    | .inr (w, s1) =>
      peerIssue g f (f.counter h)
        (w.req g.ctx hn off (.sput s1.regs.stepNum.toNat (leBytes (Ty.bytes ty) (f.rN (f.reg d) ty.regs)))) [] false s1 true) s

/-- XPUTQ: the descriptor is read and checked, and its STATUS becomes 0xFF (R316). -/
def execXputq (h : Hdr) (m : Mem) (s : State) : Out :=
  runWord (.xputq h m) h (fun _ _ => { counts := true, chks := Mem.chk m 2 }) (fun g f s =>
    let va := f.va m
    match s.access g va 64 accRead onlyNear with
    | .inl r => r
    | .inr (p, s1) =>
      match s1.nearBytes g p va 64 with
      | .inl r => r
      | .inr (bs, s2) =>
      let q := quad bs
      let hn := bits (q 0) 63 48
      let off := bits (q 0) 47 0
      let len := bits (q 2) 16 0
      match s2.winCheck g hn off len 1 false with
      | .inl r => r
      | .inr (w, s3) =>
        if bits (q 1) 63 56 ≠ 0 ∨ bits (q 2) 63 17 ≠ 0 ∨ q 5 ≠ 0 ∨ q 6 ≠ 0 ∨ q 7 ≠ 0 ∨ len < 1 ∨ len > 65536 then
          .trap s3 .windowBounds (dw (q 0))
        else
          let o := s3.nearOff p va
          let s4 := (s3.dropLine g.coreOr0 (s3.ctx g.ctx).asid o).sramWrite (o + 32) (leBytes 8 0xFF)
          peerIssue g f (f.counter h) (w.req g.ctx hn off (.xputq (dw (q 3)) (dw (bits (q 1) 55 0)) len [] o)) [] false s4 true
            [p.span va]) s

/-! ### The target (R304, R305, R311) -/

/-- An inbound window (R304). -/
structure InWin where
  step : Bool
  rule : BitVec 3
  keychk : Bool
  foreign : Bool
  sync : Bool
  va : Dword
  asid : BitVec 16
  size : Nat
  key : BitVec 32
  qlog : Nat
  qva : Dword
  deriving DecidableEq, Repr

/-- An inbound entry, if it is valid. -/
def inWin (bs : List Byte) : Option InWin :=
  let q := quad bs
  let b (n : Nat) := bits (q 0) n n == 1
  let w : InWin := { step := b 62, rule := BitVec.ofNat 3 (bits (q 0) 61 59), keychk := b 58, foreign := b 57, sync := b 56
                     va := dw (bits (q 0) 55 0), asid := BitVec.ofNat 16 (bits (q 1) 63 48), size := bits (q 1) 32 0
                     key := BitVec.ofNat 32 (bits (q 2) 31 0), qlog := bits (q 3) 59 56, qva := dw (bits (q 3) 55 0) }
  if b 63 ∧ bits (q 1) 47 33 = 0 ∧ q 2 < 2 ^ 32 ∧ bits (q 3) 63 60 = 0 ∧ 1 ≤ w.size ∧ w.size ≤ 2 ^ 32 ∧ w.rule ≠ 7#3 ∧
      (w.step ∨ w.rule = 0#3) ∧ (w.qlog = 0 ∨ 4 ≤ w.qlog) ∧ w.qva.toNat % 64 = 0 then some w else none

/-- Entry `n` of the inbound window table. -/
def State.inWin? (s : State) (n : Nat) : Option InWin :=
  let root := bits s.regs.inwinRoot.toNat 29 0
  if root % 2 ^ 18 = 0 ∧ root + 2 ^ 18 ≤ sramSize then inWin (s.sramRead (root + 32 * n) 32) else none

/-- Peer `p` is a member of the step domain (R318). -/
def State.isMember (s : State) (p : Nat) : Bool := (Tab.get 0#64 s.regs.stepDom (p / 64)).getLsbD (p % 64)

/-- The judgement of R305 and R311 on `len` bytes at an inbound address: the first failing status, or the window and
the offset. `whole` tells an 8-byte write at a multiple of 8. -/
def State.judge (s : State) (src : Nat) (hdr : Option PodHdr) (addr len : Nat) (write whole : Bool) :
    BitVec 8 ⊕ (InWin × Nat) :=
  let off := addr % 2 ^ 32
  match s.inWin? (addr / 2 ^ 32 % 8192) with
  | none => .inl stBounds
  | some w =>
    let keyOk := match hdr with
      | some h => h.step == w.step && h.rule == w.rule && (!w.keychk || h.key == w.key)
      | none => !w.step && !w.keychk
    if off + len > w.size || (w.sync && write && !whole) then .inl stBounds
    else if !keyOk || !(s.isMember src || w.foreign) || (w.step && !s.stepOn) then .inl stKey
    else .inr (w, off)

/-- The context that an ASID belongs to; 1,024 for none. -/
def State.ctxOf (s : State) (a : BitVec 16) : Nat :=
  ((List.range 1024).find? fun c => s.ctxV c && (s.ctx c).asid == a).getD 1024

/-- The parts of a range in the owning context, with their pages. -/
def State.winParts (s : State) (a : BitVec 16) (va len : Nat) : List (Option Page × (Nat × Nat)) :=
  (chunks 65536 va len).map fun r => (s.pageOf a (dw r.1), r)

/-- The page request of a miss that an inbound request met (R305), among those of a core, as a free choice: it is posted, or
waits until the core has fewer than 64 open (R238). -/
def State.requestPage (s : State) (ctx va acc : Nat) : State :=
  let a := (s.ctx ctx).asid
  let c := s.choose 9000 320
  let co := s.core c
  if !s.ctxV ctx || decide (va ≥ 2 ^ 56) || s.cores.any (fun p => p.2.reqs.contains (a, va / 65536)) then s
  else if co.reqs.length ≥ 64 then s.setCore c (co.wantPage a ctx (va / 65536) (dw va) acc)
  else (s.setCore c { co with reqs := co.reqs ++ [(a, va / 65536)] }).postFault ctx
    [dw (0x10 + 2 ^ 8 * acc + 2 ^ 16 * a.toNat + 2 ^ 32 * (s.genOf a).toNat + 2 ^ 40 * c), dw va, 0#64, 0#64]

/-- Request every page that the parts lack. -/
def State.requestPages (s : State) (ctx acc : Nat) (ps : List (Option Page × (Nat × Nat))) : State :=
  ps.foldl (fun t p => if p.1.isNone then t.requestPage ctx p.2.1 acc else t) s

/-- Bytes of a page as the device reads and writes them. -/
def State.devRead (s : State) (ctx : Nat) (p : Page) (va n : Nat) : List Byte :=
  match p.tier with
  | .near => s.sramRead (s.nearOff p (dw va)) n
  | .far => s.farRead p.key (farAddr p (dw va)) n
  | .host => Memory.read s.hostMem (hostAddr (s.ctx ctx).pasid p (dw va)) n
  | .peer => List.replicate n 0#8

def State.devWrite (s : State) (ctx : Nat) (p : Page) (va : Nat) (bs : List Byte) : State :=
  match p.tier with
  | .near => s.sramWrite (s.nearOff p (dw va)) bs
  | .far => s.farWrite p.key (farAddr p (dw va)) bs
  | .host => { s with hostMem := Memory.write s.hostMem (hostAddr (s.ctx ctx).pasid p (dw va)) bs }
  | .peer => s

/-- What refuses an access to a part: a permission, or a failure of its tier. -/
def State.partRefusal (s : State) (ctx : Nat) (rd wr : Bool) (p : Page × (Nat × Nat)) : Option (BitVec 8) :=
  if (rd && !p.1.rp) || (wr && !p.1.wp) then some stTranslation else
  match p.1.tier with
  | .far =>
    if s.keyOf p.1.key = none then some stTranslation
    else if !s.moduleUp (p.1.target / 2 ^ 24) || s.metaBad p.1.key (farAddr p.1 (dw p.2.1)) p.2.2 then some stRemote else none
  | .host => if ctx ≥ 1024 then some stTranslation else none
  | _ => none

def Direct.len : Direct → Nat
  | .read n => n
  | .write bs => bs.length
  | .atomic _ t _ _ => Ty.bytes t

def Direct.isWrite : Direct → Bool
  | .write _ => true
  | _ => false

def Direct.reads : Direct → Bool
  | .write _ => false
  | _ => true

def Direct.writes : Direct → Bool
  | .read _ => false
  | _ => true

/-- An 8-byte write to an offset that is a multiple of 8 (R311). -/
def Direct.whole (addr : Nat) : Direct → Bool
  | .write bs => bs.length == 8 && bs.all Option.isSome && addr % 8 == 0
  | _ => false

/-- Bytes with some replaced. -/
def mergeBytes (old : List Byte) (new : List (Option Byte)) : List Byte :=
  (old.zip new).map fun p => p.2.getD p.1

/-- Perform a direct request on pages that permit it: the bytes of the answer. -/
def State.performDirect (s : State) (ctx : Nat) (ps : List (Page × (Nat × Nat))) (q : Direct) : List Byte × State :=
  let old := ps.flatMap fun p => s.devRead ctx p.1 p.2.1 p.2.2
  let put (bs : List Byte) : State :=
    (ps.foldl (fun (t : State × List Byte) p => (t.1.devWrite ctx p.1 p.2.1 (t.2.take p.2.2), t.2.drop p.2.2)) (s, bs)).1
  match q with
  | .read _ => (old, s)
  | .write bs => ([], put (mergeBytes old bs))
  | .atomic op t x y => (old, put (leBytes (Ty.bytes t) (atomNew op t (leNat old) x.toNat y.toNat).1))

/-- A write of a source by a port that came before number `n` waits in ingress (R345). -/
def State.earlierIngress (s : State) (src port n : Nat) : Bool :=
  s.ingress.any fun p => decide (p.1 < n) && p.2.1.src == src && p.2.1.port == port && p.2.2.writes

/-- An earlier write of a source by a port has not been performed (R311); one that is forwarded counts by its own number. -/
def State.earlierWrites (s : State) (src port n : Nat) : Bool :=
  s.earlierIngress src port n ||
    s.xheld.any (fun h => decide (h.id < n) && h.req.src == src && h.req.port == port) ||
    s.fwds.any fun f => decide (f.num < n) && f.src == src && f.port == port && f.writes

/-- A transaction of R306: within one 256-byte block, an atomic aligned to its size, and a read aligned to its size where that
is a power of two (assumption 30). -/
def Direct.legal (q : Direct) (addr : Nat) : Bool :=
  decide (1 ≤ q.len) && decide (addr % 256 + q.len ≤ 256) && match q with
    | .read n => !(([2, 4, 8, 16, 32, 64, 128, 256] : List Nat).contains n) || addr % n == 0
    | .write _ => true
    | .atomic _ t _ _ => (Ty.bytes t == 4 || Ty.bytes t == 8) && addr % Ty.bytes t == 0 && t != .f32

/-- A request on each of its parts; an atomic has one. -/
def Direct.split : Direct → List (Page × (Nat × Nat)) → List ((Page × (Nat × Nat)) × Direct)
  | _, [] => []
  | .read _, ps => ps.map fun p => (p, .read p.2.2)
  | .write bs, p :: t => (p, .write (bs.take p.2.2)) :: Direct.split (.write (bs.drop p.2.2)) t
  | q, p :: _ => [(p, q)]

/-- How a target serves a direct request: answered, its parts performed in the owning context or forwarded to peers, or
waiting. -/
inductive Served where
  | done (st : BitVec 8) (bytes : List Byte) (s : State)
  | forward (ctx : Nat) (parts : List ((Page × (Nat × Nat)) × Direct))
  | hold

/-- Serve a direct request (R305), the `n`-th thing of this package. -/
def State.serve (s : State) (n : Nat) (r : InReq) (q : Direct) : Served :=
  let addr := r.addr.toNat
  if !q.legal addr then .done stRemote [] s else
  match s.judge r.src r.hdr addr q.len q.isWrite (q.whole addr) with
  | .inl st => .done st [] s
  | .inr (w, off) =>
    if q.writes && (s.earlierIngress r.src r.port n || (w.sync && s.earlierWrites r.src r.port n)) then .hold else
    let ctx := s.ctxOf w.asid
    let ps := s.winParts w.asid (w.va.toNat + off) q.len
    let found := ps.filterMap fun p => p.1.map fun v => (v, p.2)
    if ps.any fun p => p.1.isNone then
      .done stTranslation [] (s.requestPages ctx (if q.writes then (if q.reads then accAtomic else accWrite) else accRead) ps)
    else if w.step && found.any fun p => p.1.tier != .near then .done stTranslation [] s
    else match found.findSome? (s.partRefusal ctx q.reads q.writes) with
      | some st => .done st [] s
      | none =>
        if found.all fun p => p.1.tier != .peer then let (bs, s1) := s.performDirect ctx found q; .done 0#8 bs s1
        else if r.fwd || (decide (found.length > 1) && q.reads && q.writes) then .done stRemote [] s
        else .forward ctx (q.split found)

/-! ### Step intake (R321, R324) -/

def State.stepStat (s : State) (n : Nat) : StepStat := (s.stats.find? fun x => x.n == n).getD { n }

def State.setStepStat (s : State) (x : StepStat) : State := { s with stats := x :: s.stats.filter fun y => y.n != x.n }

def State.updStepStat (s : State) (n : Nat) (u : StepStat → StepStat) : State := s.setStepStat (u (s.stepStat n))

/-- Discard every record of a source for a step (R324). -/
def State.tear (s : State) (n src : Nat) : State :=
  let gone := (s.intake.filter fun r => r.n == n && r.src == src).length
  { s with intake := s.intake.filter fun r => !(r.n == n && r.src == src), torn := (n, src) :: s.torn }.updStepStat n fun x =>
    { x with tornIn := true, firstTorn := some (x.firstTorn.getD src), bytes := x.bytes - 32 * gone }

/-- Space of a step's bank, and of its spill log. -/
def State.bankBytes (s : State) : Nat := 2 ^ 20 * bits s.regs.stepCtl.toNat 7 0
def State.spillBytes (s : State) : Nat := 2 ^ 30 * bits s.regs.stepSpill.toNat 63 59

/-- Records of a step in its bank, or in its spill log, in bytes. -/
def State.intakeUsed (s : State) (n : Nat) (spilled : Bool) : Nat :=
  32 * (s.intake.filter fun r => r.n == n && r.spilled == spilled).length

/-- Where the records of step `n` lie in the shared SRAM: the bank of even steps first (R231). -/
def State.bankBase (s : State) (n : Nat) : Nat := bits s.regs.sramIntake.toNat 29 20 * 2 ^ 20 + n % 2 * s.bankBytes

/-- The lowest place of a bank that no record holds. -/
def State.freePlace (s : State) (n : Nat) : Nat :=
  let base := s.bankBase n
  (((List.range (s.intake.length + 1)).map fun i => base + 32 * i).find? fun a => !s.intake.any fun r => r.place == some a).getD base

/-- Bytes that the device writes for itself. -/
def State.ownBytes (s : State) (a n : Nat) : List Byte := (List.range n).map fun i => Config.freeByte s.tick (a + i)

/-- Take a step record that R305 has let in: 32 bytes of its bank, laid out as the device likes, or of the spill log. -/
def State.takeRecord (s : State) (src n : Nat) (r : StepRec) : BitVec 8 × State :=
  if s.torn.contains (n, src) then (stTorn, s) else
  let put (t : State) (v : StepRec) : State :=
    { t with intake := t.intake ++ [v] }.updStepStat n fun x =>
      { x with spill := x.spill || v.spilled, bytes := x.bytes + 32 }
  if s.intakeUsed n false + 32 ≤ s.bankBytes then
    let a := s.freePlace n
    let bs := s.ownBytes a 32
    (0#8, put (s.sramWrite a bs) { r with spilled := false, place := some a, image := bs })
  else if s.intakeUsed n true + 32 ≤ s.spillBytes then (0#8, put s { r with spilled := true, place := none, image := [] })
  else (stTorn, s.tear n src)

/-- Judge and take a step record. A record of a step whose apply has begun cannot arrive by R322; it is refused. -/
def State.stepRecord (s : State) (src : Nat) (hdr : Option PodHdr) (addr n : Nat) (bytes : List Byte) : BitVec 8 × State :=
  match s.judge src hdr addr bytes.length true (bytes.length == 8 && addr % 8 == 0) with
  | .inl st => (st, s)
  | .inr (w, off) =>
    let va := w.va.toNat + off
    let ps := s.winParts w.asid va bytes.length
    if ps.any fun p => p.1.isNone then (stTranslation, s.requestPages (s.ctxOf w.asid) accWrite ps)
    else
      let found := ps.filterMap fun p => p.1.map fun v => (v, p.2)
      let offs := found.map fun p => s.nearOff p.1 (dw p.2.1)
      if found.any fun p => p.1.tier != .near || !p.1.wp then (stTranslation, s)
      else if !w.step || decide (n < s.doneBelow) || ((s.boundary.map fun b => b.n == n && decide (b.phase ≥ 4)).getD false)
      then (stRemote, s)
      else s.takeRecord src n { src, n, win := addr / 2 ^ 32 % 8192, rule := w.rule.toNat, asid := w.asid, va := dw va
                                sram := offs.headD 0, next := (offs[1]?).getD 0, bytes, spilled := false
                                used := found.map fun p => p.1.span (dw p.2.1) }

/-! ### Responses (R309, R310, R314, R317, R321) -/

/-- The responses that are sent now: of each peer's, which queue apart, as many of the first as a free choice says (R310). -/
def State.sendable (s : State) : List Bool :=
  s.pendResp.zipIdx.map fun p =>
    let mine (l : List (Nat × Nat × BitVec 8 × List Byte)) := (l.filter fun r => r.1 == p.1.1).length
    (s.portFor p.1.1).isSome &&
      decide (mine (s.pendResp.take p.2) < s.choose (2000 + p.1.1) (mine s.pendResp + 1))

/-- Responses to peers that can be sent are sent, those to one peer in order (R310). -/
def State.sendResponses (s : State) : State :=
  let ps := s.pendResp.zip s.sendable
  let send (p : Nat × Nat × BitVec 8 × List Byte) : Option Msg :=
    (s.portFor p.1).map fun q => .response p.1 q p.2.1 p.2.2.1 p.2.2.2
  { s with outbox := s.outbox ++ (ps.filter (·.2)).filterMap (fun p => send p.1)
           pendResp := (ps.filter fun p => !p.2).map (·.1) }

/-- A response to a peer: queued, and sent at once by free choice (R310). -/
def State.respond (s : State) (src tag : Nat) (st : BitVec 8) (bytes : List Byte) : State :=
  { s with pendResp := s.pendResp ++ [(src, tag, st, bytes)] }.sendResponses

/-- The cause that an error status raises, by R314 for a window and by R248 for a PEER page. -/
def peerCause (windowed : Bool) (st : BitVec 8) : Cause :=
  if st = stTimeout then .peerTimeout
  else if windowed && st == stKey then .windowKey
  else if windowed && st == stBounds then .windowBounds
  else .peerError

/-- A fibre that waits for a response takes its error as a precise trap. -/
def State.peerTrap (s : State) (o : Op) (c : Cause) (value : Dword) : State :=
  let s1 := s.finish o
  match s1.issuer? o with
  | some f =>
    if f.stat = .wait (.peer o.id) then (s1.updFibre o.fib fun v => { v with stat := .ready }).takeTrap o.fib c value (some o.core)
    else s1
  | none => s1

/-- A response lands in registers, and the fibre that waits for it goes on. -/
def State.peerLand (s : State) (o : Op) (d n v : Nat) (fl : Flags) : State :=
  (s.land o d n v fl).onIssuer o fun f => if f.stat = .wait (.peer o.id) then f.advance s.cycle else f

/-- Report the error of a posted request (R248, R314, R321). Where its fibre has ended, that of an access to a PEER page is the
failure of a transfer whose issuer has retired (R277). -/
def State.peerReport (s : State) (o : Op) (r : PeerReq) (c : Cause) (value : Dword) (st : BitVec 8) : State :=
  let rec_ := s.opRec o (if r.handle.isSome then 0x22#8 else 0x20#8) st r.taddr
  let v : Report := { cause := c, addr := value, body := rec_ }
  (s.finish o).reportTo o v (if r.handle.isSome then v
    else { cause := .asyncFail, addr := st ++ r.taddr.extractLsb' 0 56, body := rec_ })

/-- Change a transfer that a request belongs to. -/
def State.updXfer (s : State) (id : Nat) (u : Xfer → Xfer) : State :=
  match s.op? id with
  | none => s
  | some p => match p.kind with
    | .xfer x => s.setOp { p with kind := .xfer (u x) }
    | _ => s

/-- The first address that a transfer names within `n` bytes from `va`. -/
def Xfer.firstIn (x : Xfer) (va n : Nat) : Nat :=
  (((parts x.ranges).filter fun r => rangesMeet (va, va + n) (r.1, r.1 + r.2)).foldl (fun a r =>
    some (min (max r.1 va) (a.getD (max r.1 va)))) none).getD va

/-- A request of a transfer has failed, over `n` bytes from `va`: it ends with TRANSPORT at the first failing address (R277; which
status, and that the lowest address is the first, are a DESIGN CHOICE, assumption 44). -/
def Xfer.peerFail (x : Xfer) (va n : Nat) : Xfer :=
  let a := x.firstIn va n
  { x with kill := some (match x.kill with
      | some (st, v) => (st, min v a)
      | none => (0x05#8, a)) }

/-- The response to a request of this package; a fibre that still waits for room to send it goes on. -/
def State.peerRespond (s0 : State) (o : Op) (r : PeerReq) (st : BitVec 8) (bytes : List Byte) : State :=
  let s := s0.passSend o
  let c := peerCause r.handle.isSome st
  if st = stBusy then s.setOp { o with kind := .peer { r with busy := true } } else
  match r.kind with
  | .read t d => if st = 0#8 then s.peerLand o d t.regs (loadValue t bytes) 0#7 else s.peerTrap o c r.taddr
  | .write _ => if st = 0#8 then s.finish o else s.peerReport o r c r.taddr st
  | .atomic op t x y d =>
    let m := leNat bytes
    match d with
    | some n => if st = 0#8 then s.peerLand o n t.regs m (atomNew op t m x.toNat y.toNat).2 else s.peerTrap o c r.taddr
    | none => if st = 0#8 then s.finish o else s.peerReport o r c r.taddr st
  | .sput n _ =>
    if st = 0#8 then s.finish o
    else if st = stTorn then
      let s1 := s.peerReport o r .stepTorn (dw (r.peer * 2 ^ 54 + n % 2 ^ 54)) st
      if n < s.doneBelow then s1 else s1.updStepStat n fun x => { x with tornOut := true }
    else s.peerReport o r c r.taddr st
  | .xputq _ _ _ _ desc =>
    let s1 := (s.finish o).sramWrite (desc + 32) (leBytes 8 st.toNat)
    if st = 0#8 then s1 else s1.asyncFail o st r.taddr
  | .fill id va n =>
    let s1 := s.dropOp o.id
    if st = 0#8 then s1.updXfer id fun x => { x with got := (bytes.zipIdx.foldl (fun t b => Tab.set 0#8 (va + b.2) b.1 t) x.got) }
    else s1.updXfer id fun x => x.peerFail va n
  | .drain id va bs =>
    let s1 := s.dropOp o.id
    if st = 0#8 then s1 else s1.updXfer id fun x => x.peerFail va bs.length

/-- Answer whoever asked: an operation of this package, or a peer. -/
def State.answer (s : State) (own : Option Nat) (src tag : Nat) (st : BitVec 8) (bytes : List Byte) : State :=
  match own with
  | none => s.respond src tag st bytes
  | some id => match s.op? id with
    | some o => match o.kind with
      | .peer r => s.peerRespond o r st bytes
      | _ => s
    | none => s

/-! ### XPUTQ at the target (R317) -/

/-- Write the payload and the slot, and advance TAIL, if nothing stands against it: the status. -/
def State.enqueueXputq (s : State) (w : InWin) (ctx off src : Nat) (ps : List (Page × (Nat × Nat))) (qword : Dword)
    (bytes : List Byte) : BitVec 8 × State :=
  let at_ (va : Dword) (n : Nat) : Option (Page × (Nat × Nat)) := (s.pageOf w.asid va).bind fun p =>
    if s.partRefusal ctx true true (p, (va.toNat, n)) = none ∧ p.tier ≠ .peer then some (p, (va.toNat, n)) else none
  if w.qlog = 0 then (stQueueFull, s) else
  match at_ w.qva 16 with
  | none => (stTranslation, s)
  | some (hp, _) =>
    let head := leNat (s.devRead ctx hp w.qva.toNat 8)
    let tail := leNat (s.devRead ctx hp (w.qva.toNat + 8) 8)
    if (tail + 2 ^ 64 - head) % 2 ^ 64 = 2 ^ w.qlog then (stQueueFull, s) else
    let sv := w.qva + dw (64 + 32 * (tail % 2 ^ w.qlog))
    match at_ sv 32 with
    | none => (stTranslation, s)
    | some (sp, _) =>
      let (_, s1) := s.performDirect ctx ps (.write (bytes.map some))
      let slot := leBytes 8 qword.toNat ++ leBytes 8 (bytes.length * 2 ^ 32 + src % 1024) ++ leBytes 8 off ++ leBytes 8 0
      (0#8, (s1.devWrite ctx sp sv.toNat slot).devWrite ctx hp (w.qva.toNat + 8) (leBytes 8 (tail + 1)))

/-- Try an XPUTQ, the `n`-th thing of this package: its status, or the pages it waits for. It waits for the source's direct
writes that came before it by its port and wait in ingress (R345), and in a SYNC window for every earlier write (R311). -/
def State.tryXputq (s : State) (n : Nat) (r : InReq) (qword : Dword) (bytes : List Byte) :
    (BitVec 8 × State) ⊕ (Nat × List (Option Page × (Nat × Nat))) :=
  match s.judge r.src r.hdr r.addr.toNat bytes.length true (bytes.length == 8 && r.addr.toNat % 8 == 0) with
  | .inl st => .inl (st, s)
  | .inr (w, off) =>
    let ctx := s.ctxOf w.asid
    let ps := s.winParts w.asid (w.va.toNat + off) bytes.length
    let found := ps.filterMap fun p => p.1.map fun v => (v, p.2)
    if ps.any fun p => p.1.isNone && decide (p.2.1 ≥ 2 ^ 56) then .inl (stTranslation, s)
    else if ps.any fun p => p.1.isNone then .inr (ctx, ps)
    else if found.any fun p => p.1.tier == .peer then .inl (stRemote, s)
    else match found.findSome? (s.partRefusal ctx false true) with
      | some st => .inl (st, s)
      | none =>
        if s.earlierIngress r.src r.port n || (w.sync && s.earlierWrites r.src r.port n) then .inr (ctx, [])
        else .inl (s.enqueueXputq w ctx off r.src found qword bytes)

/-- Missing pages of parts. -/
def missingOf (ps : List (Option Page × (Nat × Nat))) : List Nat :=
  (ps.filterMap fun p => if p.1.isNone then some (p.2.1 / 65536) else none).eraseDups

/-- An XPUTQ arrives: judged at once, or held for its pages. -/
def State.arriveXputq (s : State) (r : InReq) (own : Option Nat) (qword : Dword) (bytes : List Byte) : State :=
  if s.xheld.length ≥ 64 then s.answer own r.src r.tag stBusy [] else
  match s.tryXputq s.nextId r qword bytes with
  | .inl (st, s1) => s1.answer own r.src r.tag st []
  | .inr (ctx, ps) =>
    let h : XHeld := { id := s.nextId, req := r, own, qword, bytes, ctx, miss := missingOf ps }
    { s with xheld := s.xheld ++ [h], nextId := s.nextId + 1 }.requestPages ctx accWrite ps

/-- A held XPUTQ ends with a status. -/
def State.endHeld (s : State) (h : XHeld) (st : BitVec 8) : State :=
  let left := s.xheld.filter fun x => x.id != h.id
  { s with xheld := left }.answer h.own h.req.src h.req.tag st []

/-- A held XPUTQ whose pages have all been answered is tried again. -/
def State.retryHeld (s : State) (h : XHeld) : State :=
  if h.absent then s.endHeld h stTranslation
  else if !h.miss.isEmpty then s
  else match s.tryXputq h.id h.req h.qword h.bytes with
    | .inl (st, s1) => s1.endHeld h st
    | .inr (ctx, ps) =>
      let kept := s.xheld.map fun x : XHeld => if x.id == h.id then { x with miss := missingOf ps } else x
      { s with xheld := kept }.requestPages ctx accWrite ps

/-! ### Sending (R306 to R309, R326) -/

/-- The direct request that a kind stands for. -/
def PeerKind.direct : PeerKind → Option Direct
  | .read t _ => some (.read (Ty.bytes t))
  | .write bs => some (.write (bs.map some))
  | .atomic op t x y _ => some (.atomic op t x y)
  | .fill _ _ n => some (.read n)
  | .drain _ _ bs => some (.write bs)
  | _ => none

/-- Kinds that the target takes in issue order for one fibre (R307, R323). -/
def PeerKind.ordered : PeerKind → Bool
  | .xputq .. => false
  | .fill .. => false
  | .drain .. => false
  | _ => true

/-- An earlier request of the fibre to the same peer awaits its response. -/
def State.peerHeld (s : State) (o : Op) (r : PeerReq) : Bool :=
  r.kind.ordered && s.ops.any fun p => decide (p.id < o.id) && p.fib == o.fib && p.inc == o.inc && match p.kind with
    | .peer q => q.kind.ordered && q.peer == r.peer
    | _ => false

/-- A request can leave now: it is for this package, or no port carries traffic, or room has been taken for it at its port,
or, where its traffic has moved from the port at which it had room, there is room at the new one (assumption 30). -/
def State.mayLeave (s : State) (r : PeerReq) : Bool :=
  !s.peerValid || r.peer == s.ownPeer || (s.portFor r.peer).any fun q =>
    r.kind.payload == 0 || r.room == some q || (r.room.isSome && decide (s.replayUsed q + r.kind.payload ≤ 2 ^ 21))

/-- Forward a request to a peer, while the outgoing port has one of its 64 slots free (R327). -/
def State.sendForward (s : State) (n ctx : Nat) (used : List (Nat × Nat)) (peer addr : Nat) (v : InReq) (own : Option Nat) (split : Option (Nat × Nat))
    (q : Direct) : Option State :=
  match s.portFor peer with
  | none => none
  | some out =>
    if (s.fwds.filter fun f => f.out == out).length ≥ 64 then none else
    let r : InReq := { src := s.ownPeer, port := out, tag := s.nextId, fwd := true, hdr := none, addr := BitVec.ofNat 45 addr }
    some { s with fwds := s.fwds ++ [{ id := s.nextId, out, peer, port := v.port, src := v.src, tag := v.tag, own
                                       writes := q.writes, ctx, split, num := n, used }]
                  nextId := s.nextId + 1, outbox := s.outbox ++ [.forward s.nextId peer r q] }

/-- One part of request `n`: performed here, or forwarded once; what comes of it where that is known at once, or none while it
has to wait. -/
def State.sendPart (s : State) (n : Nat) (r : InReq) (own : Option Nat) (split : Option (Nat × Nat)) (ctx : Nat)
    (p : (Page × (Nat × Nat)) × Direct) : Option (Option (BitVec 8 × List Byte) × State) :=
  let (page, va, _) := p.1
  if page.tier ≠ .peer then let (bs, t) := s.performDirect ctx [p.1] p.2; some (some (0#8, bs), t)
  else if peerOf page = s.ownPeer then
    match s.serve s.nextId { r with src := s.ownPeer, port := 8, fwd := true, hdr := none
                                    addr := BitVec.ofNat 45 (peerAddr page (dw va)) } p.2 with
    | .done st bs t => some (some (st, bs), t)
    | _ => none
  else (s.sendForward n ctx [page.span (dw va)] (peerOf page) (peerAddr page (dw va)) r own split p.2).map fun t => (none, t)

/-- The parts of a request, one after another. -/
def State.sendParts (s : State) (n : Nat) (r : InReq) (own : Option Nat) (k ctx i : Nat) :
    List ((Page × (Nat × Nat)) × Direct) → Option (List (Option (BitVec 8 × List Byte)) × State)
  | [] => some ([], s)
  | p :: t => match s.sendPart n r own (some (k, i)) ctx p with
    | none => none
    | some (x, s1) => match s1.sendParts n r own k ctx (i + 1) t with
      | none => none
      | some (xs, s2) => some (x :: xs, s2)

/-- A request whose parts have all come is answered, with the first status that is not 0. -/
def State.joinSplit (s : State) (k : Nat) : State :=
  match s.splits.find? fun x => x.id == k with
  | none => s
  | some x =>
    if x.parts.any Option.isNone then s else
    let ps : List (BitVec 8 × List Byte) := x.parts.filterMap id
    let st := ((ps.map (·.1)).find? fun v => v != 0#8).getD 0#8
    { s with splits := s.splits.filter fun y => y.id != k }.answer x.own x.src x.tag st
      (if st = 0#8 then ps.flatMap (fun (p : BitVec 8 × List Byte) => p.2) else [])

/-- Serve a request and forward, once, what of it lies in a peer; none while it has to wait. `n` is its number. -/
def State.serveOrForward (s : State) (n : Nat) (r : InReq) (own : Option Nat) (q : Direct) : Option State :=
  match s.serve n r q with
  | .done st bs s1 => some (s1.answer own r.src r.tag st bs)
  | .hold => none
  | .forward ctx [p] => match s.sendPart n r own none ctx p with
    | none => none
    | some (some (st, bs), t) => some (t.answer own r.src r.tag st bs)
    | some (none, t) => some t
  | .forward ctx ps =>
    match ({ s with nextId := s.nextId + 1 } : State).sendParts n r own s.nextId ctx 0 ps with
    | none => none
    | some (xs, t) =>
      let v : Split := { id := s.nextId, port := r.port, src := r.src, tag := r.tag, own, parts := xs }
      some ({ t with splits := t.splits ++ [v] }.joinSplit s.nextId)

/-- The response to a forwarded request. -/
def State.endForward (s : State) (f : FwdReq) (st : BitVec 8) (bytes : List Byte) : State :=
  let s1 := { s with fwds := s.fwds.filter fun x => x.id != f.id }
  match f.split with
  | none => s1.answer f.own f.src f.tag st bytes
  | some (k, i) =>
    let put (x : Split) : Split := if x.id == k then { x with parts := x.parts.set i (some (st, bytes)) } else x
    { s1 with splits := s1.splits.map put }.joinSplit k

/-- Requests that wait in ingress are looked at again, in order (R327). -/
def State.retryIngress (s : State) : State :=
  s.ingress.foldl (fun (t : State) p => match t.serveOrForward p.1 p.2.1 none p.2.2 with
    | some u => u
    | none => { t with ingress := t.ingress ++ [p] }) { s with ingress := [] }

/-- Held requests of peers are tried again. -/
def State.retryPeers (s : State) : State :=
  ((s.xheld.map (·.id)).foldl (fun t k => match t.xheld.find? fun h => h.id == k with
    | some h => t.retryHeld h
    | none => t) s).retryIngress

/-- XPUTQ_PAGE_WAIT_EXPIRY: 100 µs have passed for a held XPUTQ. -/
def execXputqPageWaitExpiry (o : Nat) (s : State) : Out :=
  .next (match s.xheld.find? fun h => h.id == o with
    | some h => if h.miss.isEmpty then s else (s.endHeld h stTranslation).retryIngress
    | none => s)

/-- The payload of an XPUTQ, read from NEAR pages with RP, whose lines the core writes back and drops (R334): the bytes, a status and address, or none while an earlier
store of the fibre has to be performed first. -/
def State.readPayload (s : State) (o : Op) (src : Dword) (len : Nat) :
    Option ((List Byte × State) ⊕ (BitVec 8 × Nat)) :=
  let x := s.ctx o.ctx
  let ps := s.winParts x.asid src.toNat len
  match ps.findSome? fun p => match p.1 with
      | none => some (0x01#8, p.2.1)
      | some v => if !v.rp then some (0x02#8, p.2.1) else if v.tier != .near then some (0x08#8, p.2.1) else none with
  | some e => some (.inr e)
  | none =>
    let rs := ps.filterMap fun p => p.1.map fun v => (s.nearOff v (dw p.2.1), p.2.2)
    if s.ops.any fun p => decide (p.id < o.id) && p.fib == o.fib && p.inc == o.inc && match p.kind.nearRange with
        | some a => rs.any fun r => rangesMeet a (r.1, r.1 + r.2)
        | none => false then none
    else
      let s1 := (rs.flatMap fun r => (List.range ((r.1 + r.2 - 1) / 128 - r.1 / 128 + 1)).map fun i => r.1 / 128 + i).foldl
        (fun t l => t.flushLines o.core true fun c => c.asid == x.asid && c.line == l) s
      some (.inl (rs.flatMap fun r => s1.sramRead r.1 r.2, s1))

/-- The port that a request which leaves now takes. -/
def State.leavesBy (s : State) (r : PeerReq) : Option Nat :=
  if s.peerValid && r.peer != s.ownPeer then s.portFor r.peer else none

/-- The flags of a posted atomic at local completion, before its old value is known: whether an addition overflows is a free
choice where the operand is not 0 (DESIGN CHOICE, assumption 30). -/
def State.postedFlags (s : State) (o : Op) : PeerKind → Flags
  | .atomic .add t x _ none => if Ty.toI t x.toNat ≠ 0 ∧ s.choose (8200 + o.id) 2 = 1 then fIOV else 0#7
  | _ => 0#7

/-- The payload has been copied into the replay buffer: a posted request completes locally (R247, R326). -/
def State.localDone (s : State) (o : Op) (r : PeerReq) : State :=
  let o1 := { o with kind := .peer { r with sent := true, busy := false } }
  if r.kind.posted then
    (s.setOp { o1 with ctr := none, nodrain := true }).onIssuer o fun f =>
      (f.lateFlags o.ctr (s.postedFlags o r.kind)).uncount o.ctr
  else s.setOp o1

/-- Give a request that has been copied to its target: over its port, or, where this package is the target, directly. -/
def State.deliver (s : State) (o : Op) (r : PeerReq) : State :=
  if !s.peerValid then s
  else if r.peer != s.ownPeer then
    match r.port with
    | some q => { s with outbox := s.outbox ++ [.request o.id q r] }
    | none => s
  else
    let q : InReq := { src := r.peer, port := 8, tag := 0, fwd := false, hdr := r.hdr, addr := BitVec.ofNat 45 r.addr }
    match r.kind with
    | .sput n bs => let (st, s1) := s.stepRecord r.peer r.hdr r.addr n bs; s1.answer (some o.id) 0 0 st []
    | .xputq qw _ _ bs _ => s.arriveXputq q (some o.id) qw bs
    | k => match k.direct with
      | some d => (s.serveOrForward s.nextId q (some o.id) d).getD (s.answer (some o.id) 0 0 stBusy [])
      | none => s

/-- Send a request that has issued. -/
def State.peerSend (s : State) (o : Op) (r : PeerReq) : State :=
  if r.sent || s.peerHeld o r || !s.mayLeave r then s else
  let go (t : State) (v : PeerReq) : State :=
    let u := { v with port := t.leavesBy v, room := if r.room.isSome then t.leavesBy v else none }
    ((t.localDone o u).deliver o u).passSend o
  match r.kind with
  | .xputq qw src len _ desc =>
    match s.readPayload o src len with
    | none => s
    | some (.inr (st, va)) =>
      ((s.finish o).sramWrite (desc + 32) (leBytes 8 st.toNat)).asyncFail o st (dw va)
    | some (.inl (bs, s1)) => go s1 { r with kind := .xputq qw src len bs desc }
  | _ => go s r

/-- BUSY_RETRY: a request that was answered BUSY is sent again (R310), by its port. -/
def execBusyRetry (o : Nat) (s : State) : Out :=
  .next (match s.op? o with
    | some p => match p.kind with
      | .peer r =>
        if r.busy && r.port.all fun q => !s.downPorts.contains q then
          (s.setOp { p with kind := .peer { r with busy := false } }).deliver p { r with busy := false }
        else s
      | _ => s
    | none => s)

/-- PEER_RESPONSE: the response to a request, or to a request forwarded for another. -/
def execPeerResponse (o : Nat) (status : BitVec 8) (bytes : List Byte) (s : State) : Out :=
  .next (match s.fwds.find? fun f => f.id == o with
    | some f => (s.endForward f status bytes).retryIngress
    | none => match s.op? o with
      | some p => match p.kind with
        | .peer r => if r.sent then s.peerRespond p r status bytes else s
        | _ => s
      | none => s)

/-- REQUEST_TIMEOUT: PEER_TMO has passed; a windowed request marks its handle failed (R309). -/
def execRequestTimeout (o : Nat) (s : State) : Out :=
  .next (match s.fwds.find? fun f => f.id == o with
    | some f => (s.endForward f stRemote []).retryIngress
    | none => match s.op? o with
      | some p => match p.kind with
        | .peer r =>
          let s1 := match r.handle with
            | some h => { s with failedWin := (h / 65536, h % 65536) :: s.failedWin }
            | none => s
          s1.peerRespond p r stTimeout []
        | _ => s
      | none => s)

/-- RESPONSE_DISCARD: a response that its peer did not take within PEER_TMO (R310). -/
def execResponseDiscard (p tag : Nat) (s : State) : Out :=
  .next { s with pendResp := s.pendResp.filter fun r => !(r.1 == p && r.2.1 == tag) }

/-! ### Inbound requests (R305, R308, R310) -/

/-- Requests of a source that this package holds. -/
def State.heldFrom (s : State) (src : Nat) : Nat :=
  let waiting := s.ingress.filter fun p => p.2.1.src == src
  (s.pendResp.filter fun r => r.1 == src).length + (s.xheld.filter fun h => h.own.isNone && h.req.src == src).length +
    (s.fwds.filter fun f => f.own.isNone && f.split.isNone && f.src == src).length +
    (s.splits.filter fun f => f.own.isNone && f.src == src).length + waiting.length

/-- IN_QUOTA of a source. -/
def State.quota (s : State) (src : Nat) : Nat := bits (Tab.get 64#64 s.regs.inQuota src).toNat 10 0

/-- A request from a peer: refused while PEER_ID is not valid, BUSY beyond the quota, otherwise taken. -/
def State.permit (s : State) (r : InReq) (u : State → State) : State :=
  if !s.peerValid then s.respond r.src r.tag stRemote []
  else if s.heldFrom r.src ≥ s.quota r.src then s.postMsg r.src (.response r.src 0 r.tag stBusy [])
  else u s

/-- A direct request, which waits in ingress where it has to. -/
def State.inboundDirect (s : State) (r : InReq) (q : Direct) : State :=
  s.permit r fun s => (s.serveOrForward s.nextId r none q).getD
    { s with ingress := s.ingress ++ [(s.nextId, r, q)], nextId := s.nextId + 1 }

def execInboundRead (r : InReq) (len : Nat) (s : State) : Out := .next (s.inboundDirect r (.read len))

def execInboundWrite (r : InReq) (bytes : List (Option Byte)) (s : State) : Out :=
  .next (s.inboundDirect r (.write bytes))

def execInboundAtomic (r : InReq) (op : AtomOp) (ty : Ty) (x y : Dword) (s : State) : Out :=
  .next (s.inboundDirect r (.atomic op ty x y))

/-- Any other transaction is answered with an unsupported-request error, which stands as REMOTE_ERROR (R306, R315). -/
def execInboundUnsupported (r : InReq) (s : State) : Out := .next (s.respond r.src r.tag stRemote [])

def execXputqInbound (r : InReq) (qword : Dword) (bytes : List Byte) (s : State) : Out :=
  .next (s.permit r fun s => s.arriveXputq r none qword bytes)

def execStepRecordInbound (r : InReq) (n : Nat) (bytes : List Byte) (s : State) : Out :=
  .next (s.permit r fun s => let (st, s1) := s.stepRecord r.src r.hdr r.addr.toNat n bytes; s1.respond r.src r.tag st [])

/-- What a port's replay buffer still holds may be lost beyond replay as it fails, as free choices: such a request ends with
TRANSPORT (R326, assumption 30). -/
def State.loseReplay (s : State) (p : Nat) : State :=
  s.ops.foldl (fun t o => match o.kind with
    | .peer r => if r.sent && !r.acked && r.port == some p && s.choose (8000 + o.id) 2 == 1 then t.peerRespond o r 0x05#8 [] else t
    | _ => t) s

def execPortDown (p : Nat) (s : State) : Out :=
  .next ({ s with downPorts := if s.downPorts.contains p then s.downPorts else p :: s.downPorts }.loseReplay p)

/-- The links acknowledge what has been sent, as free choices, and its payload is kept no longer (R326). -/
def State.linkAcks (s : State) : State :=
  { s with ops := s.ops.map fun o => match o.kind with
      | .peer r => if r.sent && !r.acked && s.choose (8000 + o.id) 2 == 1 then { o with kind := .peer { r with acked := true } } else o
      | _ => o }

def execPortUp (p : Nat) (s : State) : Out := .next { s with downPorts := s.downPorts.filter fun q => q != p }

end Sys2Proof.Machine
end

