-- ==== Sys2Proof/Machine/Registers.lean ====
section
/-! DEFINITION. Host register writes that have no action of their own (R10, R368, R369), the placement of the shared SRAM
(R231), and the pod's registers (R308, R309). -/

namespace Sys2Proof.Machine

/-- The value of a register after a write of all of it or of one half (R368). -/
def regTo (h : HVal) (old : Dword) : Dword :=
  match h.half with
  | none => h.v
  | some false => old.extractLsb' 32 32 ++ h.v.extractLsb' 0 32
  | some true => h.v.extractLsb' 0 32 ++ old.extractLsb' 0 32

/-- The bits of a register that are not reserved. -/
def mask (hi lo : Nat) : Dword := dw (2 ^ (hi + 1) - 2 ^ lo)

/-! ### Placement of the shared SRAM (R231) -/

/-- Base and size of the pool, the intake and the line cache, from their registers. -/
def poolRange (v : Dword) : Nat × Nat := (bits v.toNat 29 16 * 65536, bits v.toNat 45 32 * 65536)
def intakeRange (v : Dword) (bank : Nat) : Nat × Nat := (bits v.toNat 29 20 * 2 ^ 20, 2 * bank * 2 ^ 20)
def lcacheRange (v : Dword) : Nat × Nat := (bits v.toNat 29 20 * 2 ^ 20, bits v.toNat 41 32 * 2 ^ 20)

/-- Every range lies in the shared SRAM, and no two meet. -/
def rangesOk (rs : List (Nat × Nat)) : Bool :=
  (rs.all fun r => decide (r.1 + r.2 ≤ sramSize)) &&
  (rs.zipIdx.all fun a => rs.zipIdx.all fun b => a.2 == b.2 || !rangesMeet (a.1.1, a.1.1 + a.1.2) (b.1.1, b.1.1 + b.1.2))

/-- The ranges that have been placed, with the three registers and the bank size as given. -/
def placedRanges (placed : Bool × Bool × Bool) (pool intake lcache : Dword) (bank : Nat) : List (Nat × Nat) :=
  (if placed.1 then [poolRange pool] else []) ++ (if placed.2.1 then [intakeRange intake bank] else []) ++
    (if placed.2.2 then [lcacheRange lcache] else [])

/-- STEP_CTL.BANK. -/
def State.bankMiB (s : State) : Nat := bits s.regs.stepCtl.toNat 7 0

/-- Bit 63, ERR. -/
def errBit : Dword := 0x8000000000000000#64

def execSramPool (v : HVal) (s : State) : Out :=
  .next (
    let w := regTo v s.regs.sramPool &&& (mask 45 32 ||| mask 29 16)
    if (List.range 1024).any s.ctxV then s
    else if rangesOk (placedRanges (true, s.placed.2) w s.regs.sramIntake s.regs.sramLcache s.bankMiB) then
      { s with regs := { s.regs with sramPool := w }, placed := (true, s.placed.2) }
    else { s with regs := { s.regs with sramPool := s.regs.sramPool ||| errBit } })

def execSramIntake (v : HVal) (s : State) : Out :=
  .next (
    let w := regTo v s.regs.sramIntake &&& mask 29 20
    if s.stepOn then s
    else if rangesOk (placedRanges (s.placed.1, true, s.placed.2.2) s.regs.sramPool w s.regs.sramLcache s.bankMiB) then
      { s with regs := { s.regs with sramIntake := w }, placed := (s.placed.1, true, s.placed.2.2) }
    else { s with regs := { s.regs with sramIntake := s.regs.sramIntake ||| errBit } })

/-- LC_MIB lies from 8 to 256. -/
def lcacheTaken (w : Dword) : Dword :=
  (w &&& mask 29 20) ||| dw (2 ^ 32 * min 256 (max 8 (bits w.toNat 41 32)))

def execSramLcache (v : HVal) (s : State) : Out :=
  .next (
    let w := lcacheTaken (regTo v s.regs.sramLcache)
    if s.peerValid || s.queues.any fun q => q.2.ctl.getLsbD 63 then s
    else if rangesOk (placedRanges (s.placed.1, s.placed.2.1, true) s.regs.sramPool s.regs.sramIntake w s.bankMiB) then
      { s with regs := { s.regs with sramLcache := w }, placed := (s.placed.1, s.placed.2.1, true) }
    else { s with regs := { s.regs with sramLcache := s.regs.sramLcache ||| errBit } })

/-! ### Peers (R308, R309) -/

/-- PEER_ID is taken until a write with VALID = 1 has been taken. -/
def execPeerId (v : HVal) (s : State) : Out :=
  .next (if s.peerValid then s else { s with regs := { s.regs with peerId := regTo v s.regs.peerId &&& (errBit ||| mask 9 0) } })

def execPeerTmo (v : HVal) (s : State) : Out :=
  .next { s with regs := { s.regs with peerTmo := dw (max 50 (bits (regTo v s.regs.peerTmo).toNat 15 0)) } }

/-- The register names a handle alone: it is failed no more in any context. -/
def execWinReset (hnd : BitVec 16) (s : State) : Out :=
  .next { s with failedWin := s.failedWin.filter fun h => h.2 != hnd.toNat }

/-! ### Other registers (R369) -/

/-- COLL_SEL[i] at reset (R331). -/
def collReset (i : Nat) : Dword := if i ≤ 2 then 0xFFFF#64 else if i ≤ 4 then 0xAAAB#64 else 3#64

/-- COLL_SEL[i]. -/
def State.collSel (s : State) (i : Nat) : Dword := Tab.get 0#64 s.regs.collSel i ^^^ collReset i

/-- CORE_PAD of a core, PAD_QUANTUM of a paddock. -/
def State.corePad (s : State) (c : Nat) : Dword := Tab.get 0#64 s.regs.corePad c
def State.padQuantum (s : State) (p : Nat) : Dword := Tab.get 3800000#64 s.regs.padQuantum p

/-- Write CORE_PAD[c]. Clearing VALID retires the core: its number is not handed out again before the next reset (R15). -/
def State.setCorePad (s : State) (c : Nat) (w : Dword) : State :=
  let out := (s.core c).retired || ((s.corePad c).getLsbD 7 && !w.getLsbD 7)
  { s.setCore c { s.core c with retired := out } with
    regs := { s.regs with corePad := Tab.set 0#64 c (if out then w &&& ~~~0x80#64 else w) s.regs.corePad } }

/-- The core holds a group. -/
def State.coreBusy (s : State) (c : Nat) : Bool := s.groups.any fun p => p.2.loc == .resident c

/-- Cores that hold a resident group. -/
def State.busyCores (s : State) : List Nat := (s.groups.filterMap fun p => p.2.core?).eraseDups

/-- A register that R318 or R366 lets software write only at times, written at another: taken or not, as a free choice. -/
def State.lenient (s : State) (ok : Bool) (tag : Nat) (t : State) : State :=
  if ok || s.choose tag 2 == 0 then t else s

/-- The table that holds register `i` of an array whose unlisted registers hold `d`. -/
def setReg (d : Dword) (i : Nat) (w : Dword) (t : Tab Dword) : Tab Dword := Tab.set d i w t

/-- The queue block of queue `q`. -/
def State.queue (s : State) (q : Nat) : Queue := Tab.get {} s.queues q
def State.setQueue (s : State) (q : Nat) (v : Queue) : State := { s with queues := Tab.set {} q v s.queues }

/-- Fields of HQ_CTL. -/
def Queue.en (v : Queue) : Bool := v.ctl.getLsbD 63
def Queue.dev (v : Queue) : Bool := v.ctl.getLsbD 62
def Queue.ctx (v : Queue) : Nat := bits v.ctl.toNat 41 32
def Queue.log (v : Queue) : Nat := bits v.ctl.toNat 11 8
def Queue.prio (v : Queue) : Nat := bits v.ctl.toNat 2 0

/-- A queue whose base and control may be changed (R352). -/
def Queue.still (v : Queue) : Bool :=
  (v.state == .idle || v.state == .error) && !v.ctl.getLsbD 63 && v.engcmd.isNone

/-- The register array at `lo`, of `n` registers. -/
def inArray (off lo n : Nat) : Bool := decide (lo ≤ off) && decide (off < lo + 8 * n)

/-- Context records whose bit V has come to 1: their chains and bindings start afresh (R282, R337). -/
def State.freshContexts (s t : State) : State :=
  let new := (List.range 1024).filter fun c => t.ctxV c && !s.ctxV c
  if new.isEmpty then t else
  { t with chains := t.chains.filter fun p => !new.contains (p.1 / 4096), binds := t.binds.filter fun b => !new.contains b.ctx
           failedWin := t.failedWin.filter fun p => !new.contains p.1 }

/-- Offsets of BAR2 follow those of BAR0 (assumption 56): the MSI-X table, of which half an entry is 8 bytes, and the
pending bits. -/
def bar2 : Nat := 0x800000

/-- Half an entry of the MSI-X table. -/
def msixHalf (e : BitVec 128) (hi : Bool) : Dword := if hi then e.extractLsb' 64 64 else e.extractLsb' 0 64

/-- An entry with one half written; only bit 0 of vector control is not reserved. -/
def msixWrite (e : BitVec 128) (hi : Bool) (h : HVal) : BitVec 128 :=
  if hi then (regTo h (msixHalf e true) &&& 0x1FFFFFFFF#64) ++ msixHalf e false
  else msixHalf e true ++ regTo h (msixHalf e false)

/-- A host write of BAR2: the pending bits are read only. -/
def State.bar2Write (s : State) (o : Nat) (v : HVal) : State :=
  if o < 0x8000 then s.setMsix (o / 16) (msixWrite (s.msixEntry (o / 16)) (o / 8 % 2 == 1) v) else s

/-- What the 8 bytes at an offset of BAR2 read as. -/
def State.bar2Reg (s : State) (o : Nat) : Dword :=
  if o < 0x8000 then msixHalf (s.msixEntry (o / 16)) (o / 8 % 2 == 1)
  else if o < 0x8100 then
    dw ((List.range 64).foldl (fun n i => n + 2 ^ i * (Tab.get false s.pba (8 * (o - 0x8000) + i)).toNat) 0)
  else 0#64

/-- A host write of a register that starts no action. -/
def State.regWrite (s : State) (off : Nat) (v : HVal) : State :=
  let r := s.regs
  let set (x : HostRegs) : State := { s with regs := x }
  if off = 0x18 then set { r with hbBase := regTo v r.hbBase &&& mask 29 0 }
  else if off = 0x20 then s.freshContexts (set { r with ctxRoot := regTo v r.ctxRoot &&& mask 29 0 })
  else if off = 0x28 then set { r with ptRoot := regTo v r.ptRoot &&& (mask 35 32 ||| mask 29 0) }
  else if off = 0x30 then set { r with migBase := regTo v r.migBase &&& mask 29 0 }
  else if off = 0x50 then set { r with inwinRoot := regTo v r.inwinRoot &&& mask 29 0 }
  else if off = 0x1000 then set { r with tlbInvalVa := regTo v r.tlbInvalVa }
  else if off = 0x2018 then s.lenient s.boundary.isNone 30 (set { r with stepWdog := regTo v r.stepWdog })
  else if inArray off 0x2100 8 then
    let i := (off - 0x2100) / 8
    set { r with collSel := setReg 0#64 i ((regTo v (s.collSel i) &&& mask 15 0) ^^^ collReset i) r.collSel }
  else if off = 0x3010 then set { r with optHead := (regTo v (0#32 ++ r.optHead)).extractLsb' 0 32 }
  else if off = 0x3020 then set { r with optVec := regTo v r.optVec &&& mask 11 0 }
  else if off = 0x3030 then set { r with provBase := regTo v r.provBase &&& mask 29 0 }
  else if off = 0x4000 then set { r with dbgGrp := regTo v r.dbgGrp }
  else if off = 0x4008 then set { r with dbgSel := regTo v r.dbgSel &&& (mask 41 32 ||| mask 27 12 ||| mask 9 0) }
  else if off = 0x4020 then set { r with dbgData := regTo v r.dbgData }
  else if inArray off 0x10000 320 then
    let i := (off - 0x10000) / 8
    s.lenient (!s.coreBusy i) 31 (s.setCorePad i (regTo v (s.corePad i) &&& (mask 7 7 ||| mask 5 0)))
  else if inArray off 0x20000 64 then
    let i := (off - 0x20000) / 8
    set { r with padQuantum := setReg 3800000#64 i (regTo v (s.padQuantum i) &&& mask 31 0) r.padQuantum }
  else if inArray off 0x30000 1024 then
    let i := (off - 0x30000) / 8
    set { r with dbgCtl := setReg 0#64 i (regTo v (Tab.get 0#64 r.dbgCtl i) &&& (errBit ||| 3#64)) r.dbgCtl }
  else if inArray off 0x40000 1024 then
    let i := (off - 0x40000) / 8
    set { r with inQuota := setReg 64#64 i (regTo v (Tab.get 64#64 r.inQuota i) &&& mask 10 0) r.inQuota }
  else if inArray off 0x100000 8192 ∧ off % 64 = 0 then
    let q := (off - 0x100000) / 64
    let w := s.queue q
    if w.still then s.setQueue q { w with base := regTo v w.base &&& mask 55 0 } else s
  else if bar2 ≤ off then s.bar2Write (off - bar2) v
  else s

end Sys2Proof.Machine
end

