-- ==== Sys2Proof/Machine/Superstep.lean ====
section
/-! DEFINITION. The superstep (R318 to R325): its registers, boundaries and their messages, apply, and SWAIT and
SSTAT. -/

namespace Sys2Proof.Machine

/-! ### Boundaries (R319, R322) -/

/-- The other members of the step domain. -/
def State.others (s : State) : List Nat := (List.range 1024).filter fun p => s.isMember p && p != s.ownPeer

/-- The current write step W. -/
def State.writeStep (s : State) : Nat := s.regs.stepNum.toNat

/-- The context of the step domain. -/
def State.stepCtx (s : State) : Nat := s.ctxOf (s.regs.stepCtl.extractLsb' 32 16)

/-- A boundary that waits for READY from no one goes on to phase 4. -/
def State.readySettle (s : State) : State :=
  match s.boundary with
  | some b =>
    if b.phase = 3 ∧ s.others.all fun p => s.readyFrom.contains (b.n, p) then
      { s with boundary := some { b with phase := 4, since := s.cycle, reported := 0 } }
    else s
  | none => s

/-- Send a message to every other member, each by its port, while the ports carry traffic (R307, R308). -/
def State.broadcast (s : State) (m : Nat → Msg) : State :=
  if s.peerValid then s.others.foldl (fun t p => t.postMsg p (m p)) s else s

/-- A step write of this package for step `n` has not been acknowledged. -/
def State.sputPending (s : State) (n : Nat) : Bool :=
  s.ops.any fun o => match o.kind with
    | .peer r => (match r.kind with
      | .sput k _ => k == n
      | _ => false)
    | _ => false

def execBoundaryDrained (s : State) : Out :=
  .next (match s.boundary with
    | some b =>
      if b.phase = 2 ∧ ¬ s.sputPending b.n then
        ({ s with boundary := some { b with phase := 3, since := s.cycle } }.broadcast fun p => .ready p 0 b.n).readySettle
      else s
    | none => s)

/-- A message of a step whose boundary has completed says nothing new. -/
def execReadyMsg (p n : Nat) (s : State) : Out :=
  .next (if !s.peerValid || decide (n < s.doneBelow) then s else
    { s with readyFrom := (n, p) :: s.readyFrom.filter fun x => x != (n, p) }.readySettle)

def execAppliedMsg (p n : Nat) (s : State) : Out :=
  .next (if !s.peerValid || decide (n < s.doneBelow) then s else
    { s with appliedFrom := (n, p) :: s.appliedFrom.filter fun x => x != (n, p) })

/-! ### Apply (R323) -/

/-- What a record writes to one aligned word. -/
structure Piece where
  win : Nat
  rule : Nat
  asid : BitVec 16
  /-- VA and shared-SRAM offset of the word -/
  va : Nat
  sram : Nat
  src : Nat
  bytes : List (Option Byte)

def StepRec.pieces (r : StepRec) : List Piece :=
  let a := r.va.toNat
  (List.range ((a + r.bytes.length - 1) / 4 - a / 4 + 1)).map fun i =>
    let w := (a / 4 + i) * 4
    { win := r.win, rule := r.rule, asid := r.asid, va := w, src := r.src
      sram := if w / 65536 = a / 65536 then r.sram + w - a else r.next + w % 65536
      bytes := (List.range 4).map fun j => if w + j < a then none else r.bytes[w + j - a]? }

/-- The pieces cover the whole word. -/
def Piece.full (p : Piece) : Bool := p.bytes.all Option.isSome
def Piece.word (p : Piece) : Nat := leNat (p.bytes.map fun b => b.getD 0#8)

/-- The pieces of one source, laid over each other in order. -/
def overlay (old : List Byte) (ps : List Piece) : List Byte := ps.foldl (fun w p => mergeBytes w p.bytes) old

/-- The new bytes of a word, from its pieces in increasing source, then record order; and the conflicts counted. -/
def applyWord (old : List Byte) (ps : List Piece) : List Byte × Nat :=
  let rule := (ps.head?.map (·.rule)).getD 0
  let srcs := (ps.map (·.src)).eraseDups
  if rule = 0 then (overlay old ps, 0)
  else if rule = 1 then (overlay old (srcs.reverse.flatMap fun k => ps.filter fun p => p.src == k), 0)
  else if rule = 6 then if srcs.length > 1 then (old, 1) else (overlay old ps, 0)
  else
    let whole := ps.filter Piece.full
    let step (m : Nat) (p : Piece) : Nat :=
      if rule = 2 then (fadd .f32 .rne false m p.word).1
      else if rule = 3 then (m + p.word) % 2 ^ 32
      else (fminmax (rule == 4) .f32 m p.word).1
    (leBytes 4 (whole.foldl step (leNat old)), ps.length - whole.length)

/-- Count a conflict; the first 64 of a step post a record. -/
def State.conflict (s : State) (n : Nat) (p : Piece) : State :=
  let s1 := if (s.stepStat n).conflicts < 64 then
      s.postFault (s.ctxOf p.asid) (faultRec 0x30#8 0#8 p.asid (s.genOf p.asid) 0 0 0#64 (dw p.va) 0#64)
    else s
  s1.updStepStat n fun x => { x with conflicts := x.conflicts + 1 }

/-- Merge the records of one word. -/
def State.applyPieces (s : State) (n : Nat) (ps : List Piece) : State :=
  match ps with
  | [] => s
  | p :: _ =>
    let (bs, k) := applyWord (s.sramRead p.sram 4) ps
    (List.range k).foldl (fun t _ => t.conflict n p) (s.sramWrite p.sram bs)

/-- A record as it stands in its bank: where something has overwritten what the device wrote there (R231), its bytes are
free values (assumption 29). -/
def State.recordNow (s : State) (r : StepRec) : StepRec :=
  match r.place with
  | some a => if s.sramRead a 32 = r.image then r else { r with bytes := s.ownBytes a r.bytes.length }
  | none => r

/-- Apply the records of step `n` by window and word; then its bank and spill log are free. -/
def State.applyStep (s : State) (n : Nat) : State :=
  let rs := sortBy (fun a b : StepRec => decide (a.src < b.src)) ((s.intake.filter fun r => r.n == n).map s.recordNow)
  let ps := rs.flatMap StepRec.pieces
  let words := (ps.map fun p => (p.win, p.va)).eraseDups
  let s1 := words.foldl (fun t w => t.applyPieces n (ps.filter fun p => p.win == w.1 && p.va == w.2)) s
  { s1 with intake := s1.intake.filter fun r => r.n != n, torn := s1.torn.filter fun x => x.1 != n }

def execStepApply (s : State) : Out :=
  .next (match s.boundary with
    | some b =>
      if b.phase = 4 then
        let s1 := s.applyStep b.n
        { s1 with boundary := some { b with phase := 5, since := s.cycle } }.broadcast fun p => .applied p 0 b.n
      else s
    | none => s)

/-- The status of step `n` is kept. -/
def State.stepKept (s : State) (n : Nat) : Bool := decide (n < s.doneBelow) && s.stats.any fun x => x.n == n

/-- What SWAIT writes once boundary `n` has completed (R325). -/
def State.stepWhole (s : State) (n : Nat) : Bool := s.stepKept n && !(s.stepStat n).tornIn && !(s.stepStat n).tornOut

/-- The step that a fibre at SWAIT waits for has completed. -/
def State.stepOver (s : State) (f : Fibre) : Bool :=
  match f.stat with
  | .wait (.step n _) => decide (n < s.doneBelow)
  | _ => false

/-- Fibres whose SWAIT is over go on, each with the result in its predicate; the release is an acquire (R325). -/
def State.releaseSteps (s : State) : State :=
  s.groups.foldl (fun t p =>
    if p.2.fibres.any fun q => s.stepOver q.2 then
      (if p.2.core?.isSome then t.acquire p.2 else t).updGroup p.1 fun y => y.mapFibres fun _ f => match f.stat with
        | .wait (.step n d) => if n < s.doneBelow then (f.advance s.cycle).setP d (s.stepWhole n) else f
        | _ => f
    else t) s

/-- Boundary n is complete; the status of the last four is kept (R325). -/
def execBoundaryComplete (s : State) : Out :=
  .next (match s.boundary with
    | some b =>
      if b.phase = 5 ∧ s.others.all fun p => s.appliedFrom.contains (b.n, p) then
        let s1 := s.setStepStat (s.stepStat b.n)
        { s1 with boundary := none, doneBelow := b.n + 1
                  stats := s1.stats.filter fun x => decide (x.n + 4 > b.n)
                  readyFrom := s1.readyFrom.filter fun x => decide (x.1 > b.n)
                  appliedFrom := s1.appliedFrom.filter fun x => decide (x.1 > b.n) }.releaseSteps
      else s
    | none => s)

/-- The lowest member whose message a boundary lacks, if any. -/
def State.missingMember (s : State) (b : Boundary) : Option Nat :=
  s.others.find? fun p => if b.phase = 3 then !s.readyFrom.contains (b.n, p) else !s.appliedFrom.contains (b.n, p)

/-- Every STEP_WDOG cycles that phase 3 or 5 waits for a member post a KIND 0x31 record (R324). -/
def execStepWatchdog (s : State) : Out :=
  .next (match s.boundary with
    | some b =>
      if (b.phase = 3 ∨ b.phase = 5) ∧ s.regs.stepWdog ≠ 0#64 ∧
          s.cycle ≥ b.since + s.regs.stepWdog.toNat * (b.reported + 1) then
        match s.missingMember b with
        | none => s
        | some p =>
          let a := s.regs.stepCtl.extractLsb' 32 16
          { s with boundary := some { b with reported := b.reported + 1 } }.postFault s.stepCtx
            (faultRec 0x31#8 0#8 a (s.genOf a) 0 0 0#64 (dw p) (dw b.n))
      else s
    | none => s)

/-- STEPB of step `n` is accepted: W passes it, and its boundary begins (R319). -/
def State.acceptStepb (s : State) (n : Nat) : State :=
  { s with regs := { s.regs with stepNum := dw (n + 1) }, boundary := some { n, phase := 2, since := s.cycle } }

/-! ### Registers (R318, R320, R324) -/

/-- STEP_CTL with BANK in its range. -/
def stepCtlTaken (w : Dword) : Dword :=
  (w &&& (errBit ||| mask 47 32)) ||| dw (min 128 (max 1 (bits w.toNat 7 0)))

/-- A BANK that would break an intake already placed refuses the whole write (R231). -/
def execStepCtl (v : HVal) (s : State) : Out :=
  .next (
    let w := stepCtlTaken (regTo v s.regs.stepCtl)
    let ok := !s.placed.2.1 ||
      rangesOk (placedRanges s.placed s.regs.sramPool s.regs.sramIntake s.regs.sramLcache (bits w.toNat 7 0))
    s.lenient s.boundary.isNone 30 (
      if ok then { s with regs := { s.regs with stepCtl := w } }
      else { s with regs := { s.regs with sramIntake := s.regs.sramIntake ||| errBit } }))

/-- GIB above 4 is taken as 4. -/
def execStepSpill (v : HVal) (s : State) : Out :=
  .next (
    let w := regTo v s.regs.stepSpill
    s.lenient s.boundary.isNone 30
      { s with regs := { s.regs with stepSpill := (w &&& mask 55 0) ||| dw (2 ^ 59 * min 4 (bits w.toNat 63 59)) } })

/-- STEP_NUM, while EN = 0: every boundary below it counts as completed, and the intake is emptied (R320). -/
def execStepNum (v : HVal) (s : State) : Out :=
  .next (
    let w := regTo v s.regs.stepNum
    if s.stepOn then s else
    { s with regs := { s.regs with stepNum := w }, doneBelow := w.toNat, stats := [], intake := [], torn := []
             boundary := none, readyFrom := [], appliedFrom := [] }.releaseSteps)

/-- A boundary awaits a member's message. -/
def State.awaits (s : State) (b : Boundary) (p : Nat) : Bool :=
  if b.phase ≤ 3 then !s.readyFrom.contains (b.n, p) else b.phase == 5 && !s.appliedFrom.contains (b.n, p)

/-- A member cleared while a boundary awaits it is awaited no more, and its records are discarded (R324). -/
def State.dropMember (s : State) (b : Boundary) (p : Nat) : State :=
  let s1 := s.tear b.n p
  { s1 with torn := s.torn }

def execStepDom (w : Nat) (v : HVal) (s : State) : Out :=
  .next (
    let old := Tab.get 0#64 s.regs.stepDom w
    let new := regTo v old
    let gone := ((List.range 64).filter fun k => old.getLsbD k && !new.getLsbD k).map fun k => 64 * w + k
    let s1 := { s with regs := { s.regs with stepDom := Tab.set 0#64 w new s.regs.stepDom } }
    match s.boundary with
    | none => s1
    | some b => ((gone.filter fun p => p != s.ownPeer && s.awaits b p).foldl (fun t p => t.dropMember b p) s1).readySettle)

/-! ### SWAIT, SSTAT (R325) -/

/-- The step a word names: a pair, or the low 13 bits of an immediate below W[63:13]. -/
def State.stepArg (s : State) (f : Fibre) : Src → Nat
  | .reg r => (f.rdPair r).toNat
  | .imm k => s.writeStep / 8192 * 8192 + k.toNat % 8192

/-- The step is named as the word issues, and the fibre waits until its boundary has completed; its release is an acquire. -/
def execSwait (h : Hdr) (p : BitVec 4) (a : Src) (s : State) : Out :=
  runWord (.swait h p a) h (fun _ _ => { chks := Src.chk a 2 }) (fun g f s =>
    let n := s.stepArg f a
    if n < s.doneBelow then .ok ((s.acquire g).updFibre s.cur fun v => v.setP p (s.stepWhole n))
    else .keep (s.updFibre s.cur fun v => { v with stat := .wait (.step n p) })) s

/-- PHASE of R325. -/
def State.stepPhase (s : State) (n : Nat) : Nat :=
  if s.stepKept n then 6
  else if n < s.doneBelow then 7
  else match s.boundary with
    | some b => if b.n = n then b.phase else if n < s.writeStep then 2 else if n = s.writeStep then 1 else 0
    | none => if n < s.writeStep then 2 else if n = s.writeStep then 1 else 0

/-- The word of SSTAT; what is not kept reads as no source and no record. -/
def State.stepWord (s : State) (n : Nat) : Dword :=
  let x := if s.stepPhase n = 7 then { n } else s.stepStat n
  dw (s.stepPhase n * 2 ^ 60 + x.tornIn.toNat * 2 ^ 59 + x.tornOut.toNat * 2 ^ 58 + x.spill.toNat * 2 ^ 57 +
    (x.firstTorn.getD 0x3FF) * 2 ^ 47 + min 0x7FFF x.conflicts * 2 ^ 32 + min (2 ^ 32 - 1) (x.bytes / 1024))

def execSstat (h : Hdr) (d : Reg) (a : Src) (s : State) : Out :=
  runWord (.sstat h d a) h (fun _ _ => { chks := Src.chk a 2 ++ Reg.chk d 2 }) (fun _ f s =>
    .ok (s.updFibre s.cur fun v => v.wr d 2 (s.stepWord (s.stepArg f a)).toNat)) s

end Sys2Proof.Machine
end

