-- ==== Sys2Proof/Machine/Coll.lean ====
section
/-! DEFINITION. Collectives (R328 to R331): the collective-group table, CTILE, its completion and its watchdog. -/

namespace Sys2Proof.Machine

/-! ### Groups of packages (R328) -/

/-- A collective group: extents, and the peer numbers in coordinate order with the bytes that hold them. -/
structure CollGroup where
  x : Nat
  y : Nat
  z : Nat
  /-- VA of the array -/
  pva : Nat

/-- Bytes of NEAR pages with RP, read at package scope; none where a page is not such. -/
def State.nearScope (s : State) (a : BitVec 16) (va n : Nat) : Option (List Byte) :=
  let ps := s.winParts a va n
  if ps.all fun p => match p.1 with
      | some v => v.rp && v.tier == .near
      | none => false then
    some (ps.flatMap fun p => match p.1 with
      | some v => s.sramRead (s.nearOff v (dw p.2.1)) p.2.2
      | none => [])
  else none

/-- Entry `c` of a context's table, if it is valid. -/
def State.collGroup (s : State) (ctx c : Nat) : Option CollGroup :=
  let x := s.ctx ctx
  match s.nearScope x.asid (x.cgva.toNat + 16 * c) 16 with
  | none => none
  | some bs =>
    let q := quad bs
    let g : CollGroup := { x := bits (q 0) 23 16 + 1, y := bits (q 0) 15 8 + 1, z := bits (q 0) 7 0 + 1, pva := bits (q 1) 55 0 }
    let ps := s.winParts x.asid g.pva (2 * (g.x * g.y * g.z))
    if x.cgva.toNat % 16 = 0 ∧ bits (q 0) 63 63 = 1 ∧ bits (q 0) 62 24 = 0 ∧ bits (q 1) 63 56 = 0 ∧ g.pva % 2 = 0 ∧
        ps.all (fun p => match p.1 with
          | some v => v.rp && v.tier == .near
          | none => false) then some g else none

/-- The peer number at a coordinate. -/
def State.collPeer (s : State) (ctx : Nat) (g : CollGroup) (x y z : Nat) : Nat :=
  leNat ((s.nearScope (s.ctx ctx).asid (g.pva + 2 * (x + g.x * (y + g.y * z))) 2).getD [])

/-- The participants' coordinates, with x fastest: every coordinate of a spanned dimension, this package's own of the
others. -/
def CollGroup.span (g : CollGroup) (m x y z : Nat) : List (Nat × Nat × Nat) :=
  let along (bit n own : Nat) : List Nat := if bits m bit bit = 1 then List.range n else [own]
  (along 2 g.z z).flatMap fun k => (along 1 g.y y).flatMap fun j => (along 0 g.x x).map fun i => (i, j, k)

/-! ### CTILE (R329) -/

/-- FMT suits ROP. -/
def ropOk (rop : Nat) (t : Ty) : Bool :=
  if rop = 0 then true else if rop = 2 then t == .bf16 else if rop = 5 then t == .s32 else rop ≤ 5 && t == .f32

/-- The box that receives the result: for reduce-scatter, dimensions 0 to 2 alone. -/
def Shape.outBox (x : Shape) (k : CollKind) : Shape := if k == .redsc then { x with box := x.box.take 3 } else x

/-- The checks of CTILE after its record is read: the transfer, or the trap. -/
def State.ctileCheck (s : State) (g : Group) (b : Buf) (n : BitVec 6) (k : CollKind) (va : Dword) (bs : List Byte) :
    Xfer ⊕ (Cause × Dword) :=
  let x := shapeOf va bs
  let bad : Xfer ⊕ (Cause × Dword) := .inr (.shapeInvalid, va)
  if !b.decl || b.held || b.state != .full then .inr (.bufState, dw n.toNat)
  else if !recordOk bs x || !x.coll || !x.fits b || decide (x.highest x.base ≥ 2 ^ 56) then bad
  else
    let c := bits x.grid.toNat 29 24
    let px := bits x.grid.toNat 23 16
    let py := bits x.grid.toNat 15 8
    let pz := bits x.grid.toNat 7 0
    let m := x.rmask.toNat
    if m = 0 ∨ m > 7 ∨ x.rop > 5 ∨ ¬ ropOk x.rop x.fmt ∨ (x.rop = 0 ∧ (k = .allred ∨ k = .redsc)) then bad else
    match s.collGroup g.ctx c with
    | none => bad
    | some cg =>
      if px ≥ cg.x ∨ py ≥ cg.y ∨ pz ≥ cg.z ∨ s.collPeer g.ctx cg px py pz ≠ s.ownPeer then bad else
      let span := cg.span m px py pz
      if (k = .redsc ∨ k = .allgat) ∧ (x.box[3]?).getD 0 ≠ span.length then bad else
      let key := 512 * g.ctx + 8 * c + m
      .inl { kind := .ctile k, buf := n, ab := none, shape := x.outBox k, accepted := true, keys := s.keys
             refused := s.drainedModules, coll := c, peers := span.map fun p => s.collPeer g.ctx cg p.1 p.2.1 p.2.2
             index := span.idxOf (px, py, pz), nth := Tab.get 0 s.collCount key }

/-- Issue a collective, which the lark cores accept: its transition, and its count among those of its group and RMASK
(R330). -/
def ctileIssue (g : Group) (f : Fibre) (k : Option (BitVec 4)) (x : Xfer) (s : State) : Res :=
  let b := g.bufNow x.buf.toNat
  let key := 512 * g.ctx + 8 * x.coll + x.shape.rmask.toNat
  let id := s.nextId
  let s1 := (s.addOp g f k (.xfer { x with wdog := s.cycle }) [] s.cur.g [(b.lo, b.hi)] [] true).updGroup s.cur.g fun y =>
    { y with trans := y.trans ++ [(⟨id, s.cur, x.buf, .put⟩ : Trans)] }
  .ok ({ s1 with collCount := Tab.set 0 key (x.nth + 1) s1.collCount }.settleTrans s.cur.g)

def execCtile (h : Hdr) (n : BitVec 6) (m : Mem) (k : CollKind) (s : State) : Out :=
  runWord (.ctile h n m k) h (fun g _ => { counts := true, chks := Mem.chk m 2 ++ bufChk g n, unit := some .lark }) (fun g f s =>
    let va := f.va m
    match s.readRecord g va 1 [] with
    | .inl r => r
    | .inr (bs, s1) =>
      match s1.ctileCheck g (g.bufNow n.toNat) n k va bs with
      | .inr (c, v) => .trap s1 c v
      | .inl x => ctileIssue g f (f.counter h) x s1) s

/-! ### Completion -/

/-- Combine a list in an order that is not specified (R82): two of its members, freely chosen, at a time. -/
def State.foldAny (s : State) (f : Nat → Nat → Nat) : Nat → Nat → List Nat → Nat
  | 0, _, vs => vs.headD 0
  | k + 1, tag, vs =>
    if vs.length ≤ 1 then vs.headD 0 else
    let i := s.choose tag vs.length
    let a := (vs[i]?).getD 0
    let rest := vs.eraseIdx i
    let j := s.choose (tag + 1) rest.length
    s.foldAny f k (tag + 2) (f a ((rest[j]?).getD 0) :: rest.eraseIdx j)

/-- One element of a reduction over the participants (R328). -/
def State.ropElem (s : State) (rop tag : Nat) (cs : List Nat) : Nat :=
  let add (a b : Nat) := (fadd .f32 .rne false a b).1
  if rop = 1 then s.foldAny add cs.length tag cs
  else if rop = 2 then
    (roundTo .bf16 .rne false (decodeNum .f32 (s.foldAny add cs.length tag
      (cs.map fun c => (roundTo .f32 .rne false (decodeNum .bf16 c)).1)))).1
  else if rop = 3 then s.foldAny (fun a b => (fminmax true .f32 a b).1) cs.length tag cs
  else if rop = 4 then s.foldAny (fun a b => (fminmax false .f32 a b).1) cs.length tag cs
  else cs.foldl (· + ·) 0 % 2 ^ 32

/-- The algorithm that COLL_SEL gives a box of `t` bytes over `p` participants: of its size class, that of the group class
(R331). -/
def State.collAlg (s : State) (t p : Nat) : Nat :=
  let size := ((List.range 8).find? fun k => decide (t ≤ 2 ^ (12 + 2 * k))).getD 7
  let group := ((List.range 8).find? fun k => decide (p ≤ 2 ^ (k + 1))).getD 7
  bits (s.collSel size).toNat (2 * group + 1) (2 * group)

/-- ROP over the participants' tiles, in an order that the algorithm settles. -/
def State.ropTiles (s : State) (x : Shape) (n : Nat) (tiles : List (List Byte)) : List Byte :=
  let w := x.fmt.width
  let ns := tiles.map leNat
  let tag := 1000 + 2 ^ 40 * s.collAlg n tiles.length
  leBytes n (packCodes w ((List.range (n * 8 / w)).map fun j =>
    s.ropElem x.rop (tag + 2 * tiles.length * j) (ns.map fun v => v / 2 ^ (w * j) % 2 ^ w)))

/-- What a buffer holds for a collective, and its participants' tiles, this package's own among them. -/
def collTiles (x : Xfer) (own : List Byte) (tiles : List (List Byte)) : List (List Byte) :=
  (List.range x.peers.length).map fun i =>
    if i = x.index then own else ((tiles[i]?).getD [] ++ List.replicate own.length 0#8).take own.length

/-- The bytes of the result's box (R329). -/
def State.collResult (s : State) (x : Xfer) (k : CollKind) (own : List Byte) (tiles : List (List Byte)) : List Byte :=
  let ts := collTiles x own tiles
  let n := x.shape.total
  match k with
  | .allred => s.ropTiles x.shape n ts
  | .redsc => s.ropTiles x.shape n (ts.map fun t => (t.drop (n * x.index)).take n)
  | .allgat => ts.flatten.take n
  | .bcast => (ts.headD []).take n

/-- Bytes of the buffer that a collective takes part with. -/
def collOwn (x : Xfer) (k : CollKind) : Nat :=
  match k with
  | .allgat => x.shape.total / max 1 x.peers.length
  | .redsc => x.shape.total * x.peers.length
  | _ => x.shape.total

/-- Write a result to the box, once its pages are there. -/
def State.collWrite (s : State) (o : Op) (x : Xfer) (bs : List Byte) : State :=
  let pasid := (s.ctx o.ctx).pasid
  let o1 := { o with kind := .xfer { x with out := some bs } }
  let s1 := s.setOp o1
  match x.ready s1 o.ctx true with
  | .miss pages => s1.xferMiss o1 { x with out := some bs } pages
  | .fail st va => s1.xferDone o1 x .empty st va 0#7
  | .go ps =>
    let blocks := peerBlocks ps
    if !blocks.isEmpty && !x.asked then s1.askPeers o1 { x with out := some bs } blocks (boxBytes ps bs)
    else if s1.mxWaits x ps then s1
    else (x.scatter (s1.syncNear o1 ps) pasid ps bs).xferDone o1 x .empty 0#8 0 0#7

/-- COLL_SEL as participants compare it. -/
def State.collTable (s : State) : List Dword := (List.range 8).map s.collSel

/-- A participant's collective agrees with this package's: the fields of R330, and the table of R331. -/
def State.collAgrees (s : State) (x : Xfer) (k : CollKind) (p : CollPart) : Bool :=
  p.kind == k && p.rop == x.shape.rop && p.fmt == x.shape.fmt && p.mx == x.shape.mx && p.rmask == x.shape.rmask &&
    (if k == .redsc then p.box.take 3 else p.box) == x.shape.box && p.sel == s.collTable

/-- What the other participants bring. -/
def otherParts (x : Xfer) (parts : List CollPart) : List CollPart := (parts.zipIdx.filter fun p => p.2 != x.index).map (·.1)

/-- CTILE_COMPLETE: the lark cores end a collective, with a failure, or once every participant has brought its k-th on this
group and RMASK. While PEER_ID is not valid it ends as a timeout (R308). -/
def execCtileComplete (o : Nat) (status : BitVec 8) (parts : List CollPart) (s : State) : Out :=
  .next (match s.xferDue o with
    | some (p, x) => (match x.kind with
      | .ctile k =>
        let stop (st : BitVec 8) : State := s.xferDone p x .empty st x.shape.base 0#7
        if !x.effective || x.out.isSome then s
        else if !s.peerValid then stop stTimeout
        else if status ≠ 0#8 then stop status
        else if parts.length ≠ x.peers.length ∨ (otherParts x parts).any fun v => v.nth != x.nth then s
        else if (otherParts x parts).any fun v => !s.collAgrees x k v then stop stMismatch
        else
          let own := match s.group? p.fib.g with
            | some g => Memory.read g.scratch (g.buf x.buf.toNat).lo (collOwn x k)
            | none => []
          let bad := match s.group? p.fib.g with
            | some g => errIn g.scratchErr (g.buf x.buf.toNat).lo (collOwn x k)
            | none => false
          if bad then stop 0x04#8 else s.collWrite p x (s.collResult x k own (parts.map (·.tile)))
      | _ => s)
    | none => s)

/-- The participants whose offers have come: those known before, and any others, as a free choice of this step. -/
def State.comeNow (s : State) (x : Xfer) : List Nat :=
  x.came ++ x.peers.filter fun p => !x.came.contains p && s.choose (7000 + p) 2 == 1

/-- The lowest participant, other than this package, that has not come. -/
def State.lowestMissing (s : State) (x : Xfer) (came : List Nat) : Option Nat :=
  (x.peers.filter fun p => p != s.ownPeer && !came.contains p).foldl (fun a p => some (min p (a.getD p))) none

/-- Every STEP_WDOG cycles of a collective that waits for participants post a KIND 0x32 record, which names the lowest
missing one (R330): the event of that one alone has an effect. -/
def execCollWatchdog (o p : Nat) (s : State) : Out :=
  .next (match s.op? o with
    | some q => (match q.kind with
      | .xfer x => (match x.kind with
        | .ctile _ =>
          let came := s.comeNow x
          if x.out.isSome || s.lowestMissing x came != some p || s.regs.stepWdog == 0#64 ||
              decide (s.cycle < x.wdog + s.regs.stepWdog.toNat) then s
          else
            let a := (s.ctx q.ctx).asid
            (s.setOp { q with kind := .xfer { x with wdog := x.wdog + s.regs.stepWdog.toNat, came } }).postFault q.ctx
              (faultRec 0x32#8 0#8 a (s.genOf a) q.core q.fib.f q.pc (dw p) (dw x.coll))
        | _ => s)
      | _ => s)
    | none => s)

end Sys2Proof.Machine
end

