-- ==== Sys2Proof/Machine/Sync.lean ====
section
/-! DEFINITION. Sync objects, bindings and visibility (R332 to R349): FENCE, ACQ, REL, BIND and UNBIND, and host access
to NEAR memory. -/

namespace Sys2Proof.Machine

/-! ### FENCE (R340) -/

/-- An earlier XST, XATOM, or ST or RED on a PEER page has not been performed at its target. -/
def State.podPending (s : State) (r : FRef) (f : Fibre) : Bool :=
  s.ops.any fun o => o.fib == r && o.inc == f.inc && match o.kind with
    | .peer q => (match q.kind with
      | .write _ => true
      | .atomic .. => true
      | _ => false)
    | _ => false

/-- The core writes back the context's dirty lines (R340 step 2). -/
def State.release (s : State) (g : Group) : State := s.writeBack g.coreOr0 (s.ctx g.ctx).asid

/-- The fibre issues it afresh until the drain, and the pod-scope release, have finished. -/
def execFence (h : Hdr) (sc : Scope) (k : FenceKind) (s : State) : Out :=
  runWord (.fence h sc k) h (fun _ _ => {}) (fun g f s =>
    let wide := match sc with
      | .fibre => false
      | .group => false
      | _ => true
    if s.undrained s.cur f || (sc == .pod && k != .acq && s.podPending s.cur f) then .stall s (.drain (sc == .pod && k != .acq))
    else
      let s1 := if wide && k != .acq then s.release g else s
      .ok (if wide && k != .rel then s1.acquire g else s1)) s

/-! ### ACQ, REL (R336, R337, R341) -/

/-- REL and ACQ find a binding: it stands as the device wrote it, or, where something else has written there, by free choice
(R231, R337, assumption 29). -/
def State.bindingStands (s : State) (b : Binding) : Bool :=
  decide (s.sramRead b.place b.image.length = b.image) || s.choose (10000 + b.place) 2 == 1

/-- Shared-SRAM offsets, in 4 KiB units, of the NEAR pages of an object's bound regions. -/
def State.boundUnits (s : State) (ctx : Nat) (obj : Dword) : List Nat :=
  (s.binds.filter fun b => b.ctx == ctx && b.obj == obj && s.bindingStands b).flatMap fun b =>
    (List.range b.units).filterMap fun i =>
      let va := dw (4096 * (b.base + i))
      match s.pageOf (s.ctx ctx).asid va with
      | some p => if p.tier = .near then some (s.nearOff p va / 4096) else none
      | none => none

/-- Sequence value `a` is at or after `v`, cyclically (R336). -/
def seqReached (a v : Nat) : Bool := decide ((a + 2 ^ 32 - v) % 2 ^ 32 < 2 ^ 31)

/-- The fibre issues it afresh until the object's sequence has come to v; then its core drops the lines of the object
and of its bound regions, and the context's fetched words (R22). -/
def execAcq (h : Hdr) (d : Reg) (m : Mem) (s : State) : Out :=
  runWord (.acq h d m) h (fun _ _ => { chks := Mem.chk m 2 ++ Reg.chk d 1 }) (fun g f s =>
    let va := f.va m
    match s.access g va 8 accRead onlyNear with
    | .inl r => r
    | .inr (p, s1) =>
      let off := s1.nearOff p va
      let seq := s1.sramWord off 8 / 2 ^ 32
      if seqReached seq (f.r (f.reg d)).toNat then
        let a := (s1.ctx g.ctx).asid
        let us := s1.boundUnits g.ctx va
        .ok ((s1.flushLines g.coreOr0 true fun l =>
          l.asid == a && (us.contains (l.line / 32) || l.line == off / 128)).dropFetched g.coreOr0 g.ctx)
      else .stall s1 (.seq va (f.r (f.reg d)).toNat)) s

/-- REL: the drain, the write-back of the bound lines and of the object's own, and the addition as its operation. -/
def execRel (h : Hdr) (m : Mem) (s : State) : Out :=
  runWord (.rel h m) h (fun _ _ => { counts := true, chks := Mem.chk m 2 }) (fun g f s =>
    let va := f.va m
    match s.access g va 8 (accRead + accWrite) onlyNear with
    | .inl r => r
    | .inr (p, s1) =>
      if s1.undrained s1.cur f then .stall s1 (.drain false)
      else
        let off := s1.nearOff p va
        let a := (s1.ctx g.ctx).asid
        let us := s1.boundUnits g.ctx va
        let s2 := s1.flushLines g.coreOr0 false fun l => l.asid == a && us.contains (l.line / 32)
        .ok ((s2.dropLine g.coreOr0 a off).addOp g f (f.counter h) (.rel off va) (used := [p.span va]))) s

/-- The object's sequence advances by 1 at the shared SRAM. -/
def State.performRel (s : State) (o : Op) (off : Nat) : State :=
  let s1 := s.dropLine o.core (s.ctx o.ctx).asid off
  (s1.sramWrite off (leBytes 8 (s1.sramWord off 8 + 2 ^ 32))).finish o

/-! ### BIND, UNBIND (R338, R342) -/

/-- Base unit and units of a region word; none where bits 63:56 are not 0. -/
def regionOf (w : Dword) : Option (Nat × Nat) :=
  if bits w.toNat 63 56 ≠ 0 then none else some (bits w.toNat 55 12, bits w.toNat 11 0 + 1)

/-- The status of a BIND, and the binding that it adds to a table. -/
def bindTable (ctx : Nat) (obj w : Dword) (bs : List Binding) : Nat × Option Binding :=
  match regionOf w with
  | none => (3, none)
  | some (b, n) =>
    let mine := bs.filter fun x => x.ctx == ctx
    if b * 4096 + n * 4096 > 2 ^ 56 then (3, none)
    else if mine.any fun x => x.base == b && x.units == n && x.obj == obj then (0, none)
    else if mine.any fun x => rangesMeet (x.base, x.base + x.units) (b, b + n) then (2, none)
    else if mine.length ≥ 4096 then (1, none)
    else (0, some { ctx, base := b, units := n, obj })

/-- The status of an UNBIND, and the bindings that it takes from a table. -/
def unbindTable (ctx : Nat) (w : Dword) (bs : List Binding) : Nat × List Binding :=
  match regionOf w with
  | none => (3, [])
  | some (b, n) =>
    let gone := bs.filter fun x => x.ctx == ctx && x.base == b && x.units == n
    (if gone.isEmpty then 1 else 0, gone)

/-- The lowest place of 16 bytes in a context's table that no binding holds. -/
def State.bindPlace (s : State) (ctx : Nat) : Nat :=
  let base := (s.ctx ctx).boff
  (((List.range 4096).map fun i => base + 16 * i).find? fun a => !s.binds.any fun b => b.ctx == ctx && b.place == a).getD base

/-- A binding joins its context's table, laid out in memory as the device likes (R337). -/
def State.addBinding (s : State) (b : Binding) : State :=
  let a := s.bindPlace b.ctx
  let im := s.ownBytes a 16
  { s.sramWrite a im with binds := s.binds ++ [{ b with place := a, image := im }] }

/-- A binding leaves its context's table, and the device clears its bytes. -/
def State.dropBinding (s : State) (b : Binding) : State :=
  { s.sramWrite b.place (List.replicate b.image.length 0#8) with binds := s.binds.filter fun x => x != b }

def execBind (h : Hdr) (d a b : Reg) (s : State) : Out :=
  runWord (.bind h d a b) h (fun _ _ => { chks := Reg.chk a 2 ++ Reg.chk b 2 ++ Reg.chk d 1 }) (fun g f s =>
    match s.access g (f.rdPair a) 8 (accRead + accWrite) onlyNear with
    | .inl r => r
    | .inr (_, s1) =>
      let (st, b?) := bindTable g.ctx (f.rdPair a) (f.rdPair b) s1.binds
      .ok ((b?.elim s1 s1.addBinding).updFibre s.cur fun v => v.wr d 1 st)) s

def execUnbind (h : Hdr) (d b : Reg) (s : State) : Out :=
  runWord (.unbind h d b) h (fun _ _ => { chks := Reg.chk b 2 ++ Reg.chk d 1 }) (fun g f s =>
    let (st, bs) := unbindTable g.ctx (f.rdPair b) s.binds
    .ok ((bs.foldl State.dropBinding s).updFibre s.cur fun v => v.wr d 1 st)) s

/-! ### Host access (R346, R350) -/

/-- A host read or write of shared-SRAM bytes, performed at the shared SRAM. -/
def execHostMemoryAccess (write : Bool) (off : Nat) (bytes : List Byte) (s : State) : Out :=
  .next (if write then s.freshContexts (s.sramWrite off bytes)
    else { s with hostRead := s.sramRead off bytes.length })

end Sys2Proof.Machine
end

