-- ==== Sys2Proof/Machine/Traps.lean ====
section
/-! DEFINITION. The trap and system instructions (R137, R152, R377 to R383). -/

namespace Sys2Proof.Machine

/-! ### TFENCE, TRAP, BRK, TRET -/

/-- The report a TFENCE takes: the fibre's, or the group's; and the state with its slot cleared (R376). -/
def State.takeReport (s : State) (g : Group) (f : Fibre) : Option (Report × State) :=
  match f.slot with
  | some r => some (r, s.updFibre s.cur fun v => { v with slot := none })
  | none => g.gslot.map fun r => (r, s.updGroup s.cur.g fun x => { x with gslot := none })

/-- A non-counting instruction has no result outstanding here: it lands as it issues (assumption 6). -/
def execTfence (h : Hdr) (s : State) : Out :=
  runWord (.tfence h) h (fun _ _ => {}) (fun g f s =>
    if f.tm then .ok s
    else match s.takeReport g f with
      | some (r, s1) => .trap s1 r.cause r.addr
      | none => if f.flags &&& f.en = 0#7 then .ok s else .trap s .arith (0#57 ++ (f.flags &&& f.en))) s

def execTrap (h : Hdr) (a : Src) (s : State) : Out :=
  runWord (.trap h a) h (fun _ _ => { chks := Src.chk a 1 }) (fun _ f s => .trap s .software (dw (f.src .z32 a))) s

def execBrk (h : Hdr) (a : Src) (s : State) : Out :=
  runWord (.brk h a) h (fun _ _ => { chks := Src.chk a 1 }) (fun _ f s => .trap s .brk (dw (f.src .z32 a))) s

def execTret (h : Hdr) (s : State) : Out :=
  runWord (.tret h) h (fun _ _ => { lastWord := true, inHandler := true }) (fun _ _ s =>
    .keep (s.updFibre s.cur fun v => v.trapReturn s.cycle)) s

/-! ### TMASK, FLAGS (R372, R381, R382) -/

/-- A value that TMASK refuses: bits 63:56, or a handler address that is no multiple of 12. -/
def badTmask (v : Dword) : Bool := bits v.toNat 63 56 != 0 || bits v.toNat 55 8 * 256 % 12 != 0

/-- HBASE and EN of a value, with TM as it stands. -/
def newTmask (old v : Dword) : Dword := (v &&& 0x00FFFFFFFFFFFF7F#64) ||| (old &&& 0x80#64)

def execTmask (h : Hdr) (d : Reg) (x : TMaskArg) (s : State) : Out :=
  runWord (.tmask h d x) h
    (fun _ _ => { chks := (match x with
      | .full a => Reg.chk a 2
      | .en a => Src.chk a 1) ++ Reg.chk d 2 })
    (fun _ f s =>
      match x with
      | .full a =>
        let v := f.rdPair a
        if badTmask v then .trap s .clauseForm v
        else .ok (s.updFibre s.cur fun w => { w.wr d 2 f.tmask.toNat with tmask := newTmask f.tmask v })
      | .en a =>
        let v := (f.tmask &&& ~~~0x7F#64) ||| (dw (f.src .z32 a) &&& 0x7F#64)
        .ok (s.updFibre s.cur fun w => { w.wr d 2 f.tmask.toNat with tmask := v })) s

def execFlags (h : Hdr) (d : Reg) (a : Src) (s : State) : Out :=
  runWord (.flags h d a) h (fun _ _ => { chks := Src.chk a 1 ++ Reg.chk d 1 }) (fun _ f s =>
    .ok (s.updFibre s.cur fun w =>
      (w.wr d 1 f.allFlags.toNat).clearFlags (BitVec.ofNat 7 (f.src .z32 a)))) s

/-! ### SYSR, SYSW, SREAD (R137, R373, R383) -/

/-- The trap-state words of R373. -/
def Fibre.trapWord (f : Fibre) (n : Nat) : Dword :=
  if n = 0 then f.tq.tqWord
  else match f.slot with
    | none => 0#64
    | some r => if n = 1 then 0x8000000000000000#64 ||| (0#56 ++ r.cause.code) else r.addr

def execSysr (h : Hdr) (d : Reg) (n : BitVec 2) (s : State) : Out :=
  laneWord (.sysr h d n) h (Reg.chk d 2) (fun f => f.wr d 2 (f.trapWord n.toNat).toNat) s

def execSysw (h : Hdr) (x : SysReg) (a : Reg) (s : State) : Out :=
  runWord (.sysw h x a) h (fun _ _ => { inHandler := true, chks := Reg.chk a (match x with
      | .tcause => 1
      | _ => 2) })
    (fun _ f s => .ok (s.updFibre s.cur fun w => match x with
      | .tcause => { w with tcause := (f.r (f.reg a)).extractLsb' 0 8 }
      | .tpc => { w with tpc := f.rdPair a }
      | .taddr => { w with taddr := f.rdPair a }
      | _ => w)) s

/-- The value of a system register in a fibre (R137). -/
def State.sysValue (s : State) (g : Group) (f : Fibre) (x : SysReg) : Nat :=
  match x with
  | .fibre => s.cur.f
  | .lane => s.cur.f % 32
  | .rank => s.cur.f / 32
  | .group => g.lin
  | .cluster => g.lin % g.lr.cl
  | .core => g.coreOr0
  | .die => Config.die g.coreOr0 % 3
  | .peer => s.ownPeer
  | .cycle => s.cycle
  | .wbase => Config.wbase g.wseed s.cur.g s.cur.f % 131072
  | .wsize => g.allocation s.cur.f
  | .flags => f.flags.toNat
  | .tmask => f.tmask.toNat
  | .tcause => f.tcause.toNat
  | .tpc => f.tpc.toNat
  | .taddr => f.taddr.toNat
  | .step => s.writeStep
  | .argp => g.lr.argp.toNat

def execSread (h : Hdr) (d : Reg) (x : SysReg) (s : State) : Out :=
  runWord (.sread h d x) h (fun _ _ => { chks := Reg.chk d x.regs }) (fun g f s =>
    .ok (s.updFibre s.cur fun v => v.wr d x.regs (s.sysValue g f x))) s

end Sys2Proof.Machine
end

