-- ==== Sys2Proof/Machine/Launch.lean ====
section
/-! DEFINITION. Launches and paddocks: launch records and how they are judged (R358 to R360), starting and completing
launches (R361, R363), placing groups on cores and saving them (R98, R126, R362, R366, R367, R384, R385), HINTNEXT and
WAITPRED (R364). -/

namespace Sys2Proof.Machine

/-! ### Paddocks and cores (R366) -/

/-- The core is in service in paddock `p`. -/
def State.validCore (s : State) (p c : Nat) : Bool :=
  (s.corePad c).getLsbD 7 && bits (s.corePad c).toNat 5 0 == p && !(s.core c).halted

def State.padCores (s : State) (p : Nat) : List Nat := (List.range 320).filter (s.validCore p)

/-- The paddock holds at least 4 valid cores. -/
def State.padAlive (s : State) (p : Nat) : Bool := decide (4 ≤ (s.padCores p).length)

/-- The die of a core (R14). -/
def dieOf (c : Nat) : Nat := Config.die c % 3

/-! ### What a group takes of a core -/

/-- Register words, ranks, scratchpad bytes, descriptors, tiles, banks, allowances and the array (R97, R129, R157, R187,
R188, R209, R251). -/
def LaunchRec.needs (r : LaunchRec) (wa : Nat) : List Nat :=
  let ranks := (r.nf + 31) / 32 + r.t
  [ranks * 32 * r.regs, ranks, r.scr, r.nb, r.na, r.nh, wa, r.mg.toNat]

/-- What a core has of each. -/
def coreCaps : List Nat := [131072, 32, 1048576, 64, 16, 8, 32, 1]

/-- What a group takes: of ranks, those it holds (R99). -/
def Group.needs (x : Group) : List Nat := (x.lr.needs x.wa).set 1 x.heldRanks

def addNeeds (a b : List Nat) : List Nat := List.zipWith (· + ·) a b
def fitsIn (need used : List Nat) : Bool := (List.zipWith (fun x c => decide (x ≤ c)) (addNeeds need used) coreCaps).all id

/-- What an ended group still holds: the bytes and descriptors of the buffers that transfers hold, the tiles, the array and
the banks until their operations have been performed, and the allowances of its transfers (R160, R191, R210, R253). -/
def State.endedNeeds (s : State) (g : Nat) (x : Group) : List Nat :=
  let ops := s.ops.filter fun o => o.fib.g == g
  let held := x.bufs.filter fun b => b.2.held
  let arr := ops.any fun o => o.kind.isMatrix || !o.kind.tiles.isEmpty
  let bank := ops.any fun o => o.kind.isBankOp
  [0, 0, (held.map fun b => b.2.hi - b.2.lo).foldl (· + ·) 0, held.length, if arr then x.lr.na else 0,
    if bank then x.lr.nh else 0, s.heldAllowances g, if arr then x.lr.mg.toNat else 0]

/-- What is taken of core `c`. -/
def State.used (s : State) (c : Nat) : List Nat :=
  (s.groups.map fun p => if p.2.loc = .resident c then p.2.needs
    else if p.2.loc = .ended ∧ p.2.lastCore = c then s.endedNeeds p.1 p.2
    else List.replicate 8 0).foldl addNeeds (List.replicate 8 0)

/-- Groups of one record that fit on an empty core, at most 32. -/
def LaunchRec.perCore (r : LaunchRec) : Nat :=
  ((List.range 33).filter fun n => fitsIn ((r.needs r.wa).map (n * ·)) (List.replicate 8 0)).length - 1

/-- A cluster could be resident at once on one die's valid cores of the paddock (R360). -/
def State.clusterFits (s : State) (p : Nat) (r : LaunchRec) : Bool :=
  (List.range 3).any fun d => decide (((s.padCores p).filter fun c => dieOf c == d).length * r.perCore ≥ r.cl)

/-! ### The launch record (R358 to R360) -/

/-- Read bytes of NEAR pages with RP as the command processor, from an address aligned to `al`. -/
def State.nearRead (s : State) (ctx : Nat) (va : Dword) (n al : Nat) : Option (List Byte) :=
  let ps := s.winParts (s.ctx ctx).asid va.toNat n
  if va.toNat % al ≠ 0 ∨ va.toNat + n > 2 ^ 56 then none
  else if ps.all fun p => (p.1.map fun v => v.rp && v.tier == .near).getD false then
    some (ps.flatMap fun p => match p.1 with
      | some v => s.devRead ctx v p.2.1 p.2.2
      | none => [])
  else none

/-- The fields of a record's bytes, without the declaration list. -/
def recordOf (bs : List Byte) : LaunchRec :=
  let q := quad bs
  { entry := dw (bits (q 0) 55 0), gx := bits (q 1) 63 48, gy := bits (q 1) 47 32, gz := bits (q 1) 31 16
    nf := bits (q 1) 15 6 + 1, cl := bits (q 1) 5 3 + 1, regs := 16 * (bits (q 2) 63 57 + 1)
    scr := 4096 * bits (q 2) 56 48, nb := bits (q 2) 47 41, na := bits (q 2) 40 36, nh := bits (q 2) 35 32
    wa := bits (q 2) 31 26, mg := bits (q 2) 25 25 == 1, t := bits (q 2) 24 20, sms := bits (q 2) 19 19 == 1
    pwait := bits (q 2) 18 18 == 1, argp := dw (bits (q 3) 55 0), csa := dw (bits (q 4) 55 0), csv := dw (q 5) }

/-- The bits of a record that no row of R358 names are 0. -/
def recordReserved (bs : List Byte) : Bool :=
  let q := quad bs
  bits (q 0) 63 56 == 0 && bits (q 1) 2 0 == 0 && bits (q 2) 17 0 == 0 && bits (q 3) 63 56 == 0 &&
  bits (q 4) 63 56 == 0 && bits (q 6) 56 56 == 0 && q 7 == 0

/-- CSA is 0, or an aligned word of a NEAR page with WP. -/
def State.csaOk (s : State) (ctx : Nat) (csa : Dword) : Bool :=
  csa == 0#64 || (csa.toNat % 8 == 0 && match s.pageOf (s.ctx ctx).asid csa with
    | some p => p.wp && p.tier == .near
    | none => false)

/-- A declaration entry: its number, format, base offset and size (R359). -/
def declFields (d : Dword) : BitVec 6 × BitVec 5 × Nat × Nat :=
  (d.extractLsb' 58 6, d.extractLsb' 53 5, 128 * bits d.toNat 52 40, 128 * (bits d.toNat 39 27 + 1))

/-- Declare one entry in a group's descriptors as BDECL would (R165, R175); none where it faults or is malformed. -/
def declare (x : Group) (d : Dword) : Option Group :=
  let (n, fmt, base, size) := declFields d
  if bits d.toNat 26 0 ≠ 0 ∨ fmt = 0#5 ∨ fmt.toNat > 0x15 ∨ n.toNat ≥ x.lr.nb ∨ (x.declFault n base size).isSome then none
  else
    let b : Buf := { abl := 0x3F#6, fmt, decl := true, size := BitVec.ofNat 13 (size / 128 - 1)
                     base := BitVec.ofNat 13 (base / 128) }
    some { x with bufs := Tab.set {} n.toNat b x.bufs }

/-- Declare a list of entries in order. -/
def declareAll (x : Group) : List Dword → Option Group
  | [] => some x
  | d :: t => match declare x d with
    | some y => declareAll y t
    | none => none

/-- A record that has been read, with what LAUNCHI's grid word puts in its place. -/
structure ReadRec where
  bytes : List Byte
  grid : Option Nat
  decls : List Dword

/-- Read a record and its declaration list, beside LAUNCHI's grid word as it was read; none under code 0x01. -/
def State.readLaunch (s : State) (ctx : Nat) (va : Dword) (grid : Option (Option Nat)) : Option ReadRec :=
  match s.nearRead ctx va 64 64, grid with
  | none, _ => none
  | _, some none => none
  | some bs, _ =>
    let n := bits (quad bs 6) 63 57
    (if n = 0 then some [] else s.nearRead ctx (dw (bits (quad bs 6) 55 0)) (8 * n) 8).map fun ds =>
      { bytes := bs, grid := grid.join, decls := (List.range n).map fun i => dw (quad ds i) }

/-- The record at an address, where it can be read, has PWAIT = 1. -/
def State.asksWait (s : State) (ctx : Nat) (va : Dword) : Bool :=
  ((s.nearRead ctx va 64 64).map fun bs => (recordOf bs).pwait).getD false

/-- The record with the grid word's sizes. -/
def ReadRec.record (r : ReadRec) : LaunchRec :=
  let x := { recordOf r.bytes with decls := r.decls }
  match r.grid with
  | none => x
  | some w => { x with gx := bits w 15 0, gy := bits w 31 16, gz := bits w 47 32 }

/-- Groups of a launch. -/
def LaunchRec.total (r : LaunchRec) : Nat := r.gx * r.gy * r.gz

/-- Judge a record for paddock `p` (R360): its code, or the record. -/
def State.judgeRecord (s : State) (ctx p : Nat) (va : Dword) (grid : Option (Option Nat)) : Nat ⊕ LaunchRec :=
  match s.readLaunch ctx va grid with
  | none => .inl 0x01
  | some rr =>
    let r := rr.record
    let ranks := (r.nf + 31) / 32 + r.t
    if !recordReserved rr.bytes || decide (rr.grid.getD 0 ≥ 2 ^ 48) || !s.csaOk ctx r.csa || r.entry.toNat % 12 != 0 then
      .inl 0x02
    else if ranks > 32 then .inl 0x03
    else if r.scr > 1048576 ∨ r.nb > 64 ∨ r.na > 16 ∨ r.nh > 8 ∨ r.wa > 32 ∨ rr.decls.length > 64 then .inl 0x04
    else if ranks * 32 * r.regs > 131072 then .inl 0x05
    else if r.total % r.cl ≠ 0 then .inl 0x06
    else if !s.clusterFits p r then .inl 0x07
    else if (declareAll { launch := 0, ctx, lin := 0, lr := r, loc := .ended } rr.decls).isNone then .inl 0x08
    else .inr r

/-- The record of R365. -/
def State.queueRecord (s : State) (ctx reason reject queue : Nat) (forked : Bool) (va wh : Dword) : List Dword :=
  let a := (s.ctx ctx).asid
  [dw (0x40 + 2 ^ 8 * reason + 2 ^ 16 * a.toNat + 2 ^ 32 * (s.genOf a).toNat + 2 ^ 40 * queue + 2 ^ 50 * forked.toNat +
    2 ^ 51 * reject), va, wh, 0#64]

/-- A queue error (R365): the queue stops at the failing packet, and a record is posted. -/
def State.queueError (s : State) (q reason reject : Nat) (va : Dword) : State :=
  let v := s.queue q
  (s.setQueue q { v with state := .error, reason := BitVec.ofNat 6 reason, head := v.at_, engcmd := none }).postFault v.ctx
    (s.queueRecord v.ctx reason reject q false va (0#32 ++ v.at_))

/-! ### Launches (R361, R363) -/

def State.setLaunch (s : State) (l : Nat) (x : Launch) : State := { s with launches := Tab.put l x s.launches }

/-- Launches of a queue that have started and not completed. -/
def State.runningOf (s : State) (q : Nat) : Nat :=
  (s.launches.filter fun p => p.2.queue == some q && p.2.started && !p.2.complete).length

/-- The groups of a launch. -/
def State.groupsOf (s : State) (l : Nat) : List (Nat × Group) := s.groups.filter fun p => p.2.launch == l

/-- Every child launch that a group has posted has completed (R125). -/
def State.childrenDone (s : State) (g : Nat) : Bool :=
  s.launches.all fun p => p.2.complete || (p.2.parent.map (·.g)) != some g

/-- An operation that writes memory of the package, and has not (R363). -/
def Op.writesMemory (o : Op) : Bool :=
  match o.kind with
  | .st .. => true
  | .atom .. => true
  | .fatom .. => true
  | .rel .. => true
  | .signal .. => true
  | .xfer x => (match x.kind with
    | .put => true
    | .ctile _ => true
    | _ => false)
  | _ => false

/-- Every group of a started launch has been placed, and has ended with its child launches, and all that the groups have
written has been performed. -/
def State.launchDone (s : State) (l : Nat) (x : Launch) : Bool :=
  x.started && !x.complete && x.next == x.lr.total && x.ended == x.lr.total &&
    ((s.groupsOf l).all fun p => s.childrenDone p.1 && !s.ops.any fun o => o.fib.g == p.1 && o.writesMemory)

/-- What a launch's groups have written in a core's cache reaches the shared SRAM, also where it was performed after a group
had ended (R118, R363). -/
def State.releaseLaunch (s : State) (l : Nat) (x : Launch) : State :=
  (((s.groupsOf l).map fun p => p.2.lastCore).eraseDups).foldl (fun t c => t.writeBack c (t.ctx x.ctx).asid) s

/-- Completion: a release of every write of the launch's groups; CSV is written to CSA, and the launch counts as complete
(R363). -/
def State.completeLaunch (s : State) (l : Nat) : State :=
  match Tab.find s.launches l with
  | none => s
  | some x =>
    if !s.launchDone l x then s else
    let s0 := s.releaseLaunch l x
    let s1 := if x.lr.csa = 0#64 then s0 else s0.deviceWord x.ctx x.lr.csa x.lr.csv
    s1.setLaunch l { x with complete := true }

def execLaunchComplete (l : Nat) (s : State) : Out := .next (s.completeLaunch l)

/-- Every group of a predecessor with SMS = 1 has been placed and is hinted (R364). -/
def State.hinted (s : State) (l : Nat) (x : Launch) : Bool :=
  x.started && x.lr.sms && x.next == x.lr.total && (s.groupsOf l).all fun p => p.2.hint.isSome || p.2.loc == .ended

/-- The predecessor condition of R361. -/
def State.mayStart (s : State) (x : Launch) : Bool :=
  !x.lr.pwait || match x.pred.bind fun p => (Tab.find s.launches p).map fun v => (p, v) with
    | none => true
    | some (p, v) => v.complete || s.hinted p v

/-- The launch starts; one with no group completes at once. -/
def State.startLaunch (s : State) (l : Nat) (x : Launch) : State :=
  let y := { x with started := true, startedAt := s.nextId, dbg := Tab.get 0#64 s.regs.dbgCtl x.ctx }
  ({ s with nextId := s.nextId + 1 }.setLaunch l y).completeLaunch l

/-- A child launch: its record is judged as it starts, with PWAIT and SMS ignored; a rejected one is posted (R125). -/
def State.startChild (s : State) (l : Nat) (x : Launch) : State :=
  match s.judgeRecord x.ctx x.pad x.recVa none with
  | .inr r => s.startLaunch l { x with lr := { r with pwait := false, sms := false } }
  | .inl code =>
    (s.setLaunch l { x with complete := true, rejected := true }).postFault x.ctx
      (s.queueRecord x.ctx 0x03 code 0 true x.recVa x.pc)

/-- A launch whose record is rejected as it starts is no launch, and no predecessor; its queue stops, and the record that is
posted names its packet (assumption 16). -/
def State.rejectLate (s : State) (l : Nat) (x : Launch) (code : Nat) : State :=
  let skip (k : Option Nat) : Option Nat := if k = some l then x.pred else k
  let s1 := { s with launches := (Tab.del l s.launches).map fun p => (p.1, { p.2 with pred := skip p.2.pred })
                     queues := s.queues.map fun p => (p.1, { p.2 with pred := skip p.2.pred }) }
  match x.queue with
  | none => s1
  | some q =>
    let v := s1.queue q
    (s1.setQueue q { v with state := .error, reason := 0x03#6, head := v.at_, engcmd := none }).postFault x.ctx
      (s1.queueRecord x.ctx 0x03 code q false x.recVa (0#32 ++ x.pkt))

/-- LAUNCH_START: a launch that waited has its record read and judged, and starts (R360, R361). -/
def State.launchStart (s : State) (l : Nat) : State :=
  match Tab.find s.launches l with
  | none => s
  | some x =>
    if x.started || x.complete || !s.padAlive x.pad || !s.ctxOk x.ctx then s
    else if x.parent.isSome then s.startChild l x
    else if !s.mayStart x || decide ((x.queue.map s.runningOf).getD 0 ≥ 16) then s
    else match s.judgeRecord x.ctx x.pad x.recVa x.grid with
      | .inl code => s.rejectLate l x code
      | .inr r => s.startLaunch l { x with lr := r }

def execLaunchStart (l : Nat) (s : State) : Out := .next (s.launchStart l)

/-! ### Which group comes next (R362, R367) -/

/-- A saved group may resume: not faulted, its children complete, and its cluster, where it was switched out, missing no
page (R125, R126, R239). -/
def State.mayResume (s : State) (x : Group) (g : Nat) : Bool :=
  x.loc == .saved && !x.faulted && s.childrenDone g

/-- The members of a group's cluster that have not ended. -/
def State.liveCluster (s : State) (g : Nat) : List Nat :=
  (s.clusterOf g).filter fun k => ((s.group? k).map fun x => x.loc != .ended).getD false

/-- A saved cluster is runnable. -/
def State.clusterRunnable (s : State) (g : Nat) : Bool :=
  let xs := (s.liveCluster g).filterMap fun k => (s.group? k).map fun x => (k, x)
  xs.all (fun p => s.mayResume p.2 p.1) && (!xs.any (fun p => p.2.swapped) || xs.all fun p => p.2.subs.isEmpty)

/-- A placement that is due: a launch, and the saved cluster that resumes, or none for the launch's next cluster. -/
structure Due where
  launch : Nat
  groups : List Nat

/-- The placements due in one launch: saved clusters that are runnable, then the next cluster. -/
def State.dueOf (s : State) (l : Nat) (x : Launch) : List Due :=
  let saved := (sortBy (fun a b : Nat × Group => decide (a.2.lin < b.2.lin))
    ((s.groupsOf l).filter fun p => p.2.loc == .saved)).map (·.1)
  let firsts := saved.filter fun g => (s.liveCluster g).head? == some g && s.clusterRunnable g
  (firsts.map fun g => ⟨l, s.liveCluster g⟩) ++ if x.next < x.lr.total then [⟨l, []⟩] else []

/-- The started launches of a context on a paddock, in the order of R362. -/
def State.launchOrder (s : State) (p c : Nat) : List (Nat × Launch) :=
  sortBy (fun a b : Nat × Launch => decide (a.2.prio > b.2.prio) || (a.2.prio == b.2.prio && decide (a.2.startedAt < b.2.startedAt)))
    (s.launches.filter fun q => q.2.started && q.2.ctx == c && q.2.pad == p)

/-- The placements due, in order. -/
def State.due (s : State) (p c : Nat) : List Due := (s.launchOrder p c).flatMap fun q => s.dueOf q.1 q.2

/-- The paddock's groups of a context that are resident. -/
def State.residentOn (s : State) (p c : Nat) : List Nat :=
  (s.groups.filter fun q => q.2.ctx == c && match q.2.loc with
    | .resident k => bits (s.corePad k).toNat 5 0 == p
    | _ => false).map (·.1)

/-- The context is runnable on the paddock (R350, R366, R367). -/
def State.runnable (s : State) (p c : Nat) : Bool :=
  s.ctxOk c && (s.ctx c).pad == p && s.padAlive p && (!(s.residentOn p c).isEmpty || !(s.due p c).isEmpty)

/-- The runnable contexts of a paddock, in increasing number. -/
def State.runnables (s : State) (p : Nat) : List Nat :=
  let cs := s.launches.map (·.2.ctx)
  (List.range 1024).filter fun c => cs.contains c && s.runnable p c

/-- The context after `c` in the round of a paddock, or the first. -/
def State.nextContext (s : State) (p : Nat) (c : Option Nat) : Option Nat :=
  let cs := s.runnables p
  match c with
  | none => cs.head?
  | some k => (cs.find? fun n => decide (n > k)).or cs.head?

def State.pad (s : State) (p : Nat) : Paddock := Tab.get {} s.pads p
def State.setPad (s : State) (p : Nat) (v : Paddock) : State := { s with pads := Tab.set {} p v s.pads }

/-- The context that a paddock serves now: the one that holds it, while it is runnable, or the next in the round. -/
def State.serve? (s : State) (p : Nat) : Option Nat :=
  match (s.pad p).serving with
  | some c => if s.runnable p c then some c else s.nextContext p (some c)
  | none => s.nextContext p none

/-- The serving context is settled, and its quantum begins where it changes. -/
def State.settleServing (s : State) (p : Nat) : State :=
  let c := s.serve? p
  if (s.pad p).serving = c then s else s.setPad p { s.pad p with serving := c, since := s.cycle }

/-- A context that is runnable no more gives up its paddock at once (R367). -/
def State.yieldPads (s : State) : State :=
  (s.pads.filter fun p => p.2.serving.any fun c => !s.runnable p.1 c).foldl (fun t p => t.settleServing p.1) s

/-! ### Pre-emption (R367, R384) -/

/-- A pre-emption whose groups are all off the paddock's cores is done: PREEMPT_DONE rises, and where it took the paddock
from the context that it serves, the next one in the round follows. -/
def State.settlePreempt (s : State) (p : Nat) : State :=
  match (s.pad p).preempt with
  | none => s
  | some c =>
    if !(s.residentOn p c).isEmpty then s else
    let n := Tab.get 0#64 s.regs.preemptDone p + 1#64
    let s1 := { s with regs := { s.regs with preemptDone := Tab.set 0#64 p n s.regs.preemptDone } }
    let v : Paddock := { s.pad p with preempt := none }
    if v.serving = some c then s1.setPad p { v with serving := s1.nextContext p (some c), since := s.cycle } else s1.setPad p v

def State.settlePreempts (s : State) : State := (s.pads.map (·.1)).foldl State.settlePreempt s

/-- A paddock that falls below 4 valid cores is to hold no group: those on its cores stop, to be saved (R366). -/
def State.emptyPads (s : State) : State :=
  { s with groups := s.groups.map fun p => (p.1, match p.2.core? with
      | some c => if s.padAlive (bits (s.corePad c).toNat 5 0) then p.2 else { p.2 with stopping := true }
      | none => p.2) }

/-- REGISTER_WRITE; a write of CORE_PAD may leave a paddock with too few cores. -/
def execRegisterWrite (off : Nat) (v : HVal) (s : State) : Out :=
  .next (if inArray off 0x10000 320 then (s.regWrite off v).emptyPads else s.regWrite off v)

/-- Every group of a context on a paddock stops, to be saved. -/
def State.preempt (s : State) (p c : Nat) : State :=
  ((s.residentOn p c).foldl (fun t g => t.updGroup g fun x => { x with stopping := true })
    (s.setPad p { s.pad p with preempt := some c })).settlePreempt p

/-- A write with GO = 1, while no pre-emption of the paddock is in progress. -/
def execPreemptCtl (pad : Nat) (v : Dword) (s : State) : Out :=
  .next (if !v.getLsbD 63 || (s.pad pad).preempt.isSome then s else s.preempt pad (bits v.toNat 9 0))

/-- The quantum of the serving context has run out while another context is runnable. -/
def State.quantumOut (s : State) (p : Nat) : Bool :=
  (s.pad p).preempt.isNone && decide ((s.runnables p).length ≥ 2) &&
    decide (s.cycle ≥ (s.pad p).since + bits (s.padQuantum p).toNat 31 0)

def execQuantumExpiry (pad : Nat) (s : State) : Out :=
  .next (match (s.pad pad).serving with
    | some c => if s.quantumOut pad && s.runnable pad c then s.preempt pad c else s
    | none => s)

/-! ### The save area (R385) -/

/-- NSLOT of a context's save area; 0 where its page cannot be read. -/
def State.nslot (s : State) (c : Nat) : Nat :=
  let va := (s.ctx c).save
  match s.pageOf (s.ctx c).asid va with
  | some p => if (p.tier = .near ∨ p.tier = .far) ∧ s.partRefusal c true false (p, (va.toNat, 8)) = none then
      leNat (s.devRead c p va.toNat 8) else 0
  | none => 0

/-- The address of slot `k`. -/
def State.slotVa (s : State) (c k : Nat) : Nat := (s.ctx c).save.toNat + 2 ^ 21 * (k + 1)

/-- Slots below NSLOT that no group of the context holds, lowest first: as many as asked for. -/
def State.freeSlots (s : State) (c n : Nat) : List Nat :=
  let held := (s.groups.filter fun p => p.2.ctx == c && p.2.loc != .ended).map (·.2.slot)
  ((List.range (held.length + n)).filter fun k => decide (k < s.nslot c) && !held.contains k).take n

/-- The pages of a slot, where each is mapped on NEAR or FAR with RP and WP, and its module and key serve it (R398, R399). -/
def State.slotPages (s : State) (c k : Nat) : Option (List (Page × (Nat × Nat))) :=
  let ps := s.winParts (s.ctx c).asid (s.slotVa c k) (2 ^ 21)
  if ps.all fun p => (p.1.map fun v => (v.tier == .near || v.tier == .far) && (s.partRefusal c true true (v, p.2)).isNone).getD false then
    some (ps.filterMap fun p => p.1.map fun v => (v, p.2))
  else none

/-- A save or restore met a bad slot page: the group stays stopped on its core. -/
def State.slotFault (s : State) (g : Nat) (x : Group) : State :=
  (s.setGroup g { x with stuck := true }).postGroup x 0 0x50#8 0x20#8 0#64 (dw (s.slotVa x.ctx x.slot))

/-- The device's private image in a slot: bytes that no rule states. -/
def State.writeSlot (s : State) (c : Nat) (ps : List (Page × (Nat × Nat))) : State :=
  ps.foldl (fun t p => t.devWrite c p.1 p.2.1 ((List.range p.2.2).map fun i => Config.freeByte s.tick (p.2.1 + i))) s

/-! ### Saving a group (R98, R127, R384) -/

/-- An operation that is performed before its group's image is taken (R159, R191, R210, R343). -/
def Op.beforeSave (o : Op) : Bool :=
  o.kind.nearRange.isSome || o.kind.isMatrix || o.kind.isBankOp || match o.kind with
    | .ldp .. => true
    | .stp .. => true
    | .atomp .. => true
    | _ => false

/-- A group that has stopped for its save, with no such operation left. -/
def State.saveDue (s : State) (g : Nat) : Bool :=
  match s.group? g with
  | none => false
  | some x => x.loc == .ended || (x.core?.isSome && x.stopping && !x.stuck && !s.ops.any fun o => o.fib.g == g && o.beforeSave)

/-- A fibre that is ready as its group resumes becomes ready then (R101, R102). -/
def Fibre.resumed (f : Fibre) (cycle : Nat) : Fibre := if f.stat = .ready then f.wake cycle else f

/-- A fibre in the saved image: one that waited for a unit has not issued (R191). -/
def Fibre.saved (f : Fibre) : Fibre :=
  let st := match f.stat with
    | .wait (.unit _) => .ready
    | x => x
  { f with stat := st, grant := none }

/-- Save one group: none of its fibres is left to issue, its core writes back the context's dirty lines, and its image goes
to its slot. -/
def State.saveGroup (s : State) (g : Nat) : State :=
  match s.group? g with
  | none => s
  | some x =>
    match x.core?, s.slotPages x.ctx x.slot with
    | some c, some ps =>
      ({ s with issue := s.issue.filter fun p => p.fib.g != g }.writeBack c (s.ctx x.ctx).asid).writeSlot x.ctx ps |>.updGroup g
        fun y => { y.mapFibres (fun _ f => f.saved) with loc := .saved, stopping := false }
    | _, _ => s

/-- A member of a cluster whose slot cannot take its image. -/
def State.badSlot (s : State) (g : Nat) : Option Group :=
  (s.group? g).bind fun x => if x.core?.isSome && (s.slotPages x.ctx x.slot).isNone then some x else none

/-- GROUP_SAVE: a group is saved with its cluster (R100), or stays on its core where a slot page is bad. -/
def State.groupSave (s : State) (g : Nat) : State :=
  let ms := s.clusterOf g
  if ms.isEmpty || !ms.all s.saveDue then s
  else if ms.any fun k => (s.badSlot k).isSome then
    ms.foldl (fun t k => match t.badSlot k with
      | some x => t.slotFault k x
      | none => t) s
  else (ms.foldl State.saveGroup s).settlePreempts

def execGroupSave (g : Nat) (s : State) : Out := .next (s.groupSave g)

/-! ### Placing a group (R362, R364, R385) -/

/-- Choose a core for each of a list of needs among `cores`, as free choices: `taken` are those chosen so far. -/
def State.assign (s : State) (cores : List Nat) (permit : Nat → Nat → Bool) : List (List Nat) → List (Nat × List Nat) →
    Option (List Nat)
  | [], taken => some (taken.reverse.map (·.1))
  | need :: rest, taken =>
    let mine (c : Nat) := taken.filter fun t => t.1 == c
    let ok := cores.filter fun c =>
      fitsIn need (((mine c).map (·.2)).foldl addNeeds (s.used c)) && permit c (mine c).length
    match ok[s.choose (40 + taken.length) ok.length]? with
    | none => none
    | some c => s.assign cores permit rest ((c, need) :: taken)

/-- The share rule of an early successor on a core, with `more` of its groups about to join (R364). -/
def State.admits (s : State) (l : Nat) (x : Launch) (c more : Nat) : Bool :=
  match x.pred.bind fun p => (Tab.find s.launches p).map fun v => (p, v) with
  | none => true
  | some (p, v) =>
    if !x.lr.pwait || v.complete then true else
    let on (k : Nat) := (s.groupsOf k).filter fun q => q.2.loc == .resident c
    (on p).isEmpty || decide ((on l).length + more < ((on p).map fun q => q.2.hint.getD 0).foldl (· + ·) 0)

/-- Cores for a cluster: all of one die, chosen freely (R100). -/
def State.findCores (s : State) (l : Nat) (x : Launch) (needs : List (List Nat)) : Option (List Nat) :=
  let k := s.choose 48 3
  ((List.range 3).map fun d => (d + k) % 3).findSome? fun d =>
    s.assign ((s.padCores x.pad).filter fun c => dieOf c == d) (s.admits l x) needs []

/-- The first fibres of a group: at the entry PC, as R95 and R132 start them. -/
def startFibres (entry : Dword) (n cycle id : Nat) : Tab Fibre :=
  (List.range n).map fun f => (f, { pos := { pc := entry }, since := cycle + 1, inc := id + f })

/-- A group at its first placement. -/
def newGroup (l : Nat) (x : Launch) (lin slot core cycle id : Nat) : Group :=
  let g : Group := { launch := l, ctx := x.ctx, lin, lr := x.lr, loc := .resident core, lastCore := core, slot
                     fibres := startFibres x.lr.entry x.lr.nf cycle id, wa := x.lr.wa, dbg := x.dbg, fresh := true }
  (declareAll g x.lr.decls).getD g

/-- Place the next group of a launch. -/
def State.placeNew (s : State) (l : Nat) (slot core : Nat) : State :=
  match Tab.find s.launches l with
  | none => s
  | some x =>
    ({ s with nextId := s.nextId + 1 + x.lr.nf }.setGroup s.nextId
      (newGroup l x x.next slot core s.cycle (s.nextId + 1))).setLaunch l { x with next := x.next + 1 }

/-- A fibre that FORK suspended finds the status of its child (R125). -/
def State.unfork (s : State) (f : Fibre) : Fibre :=
  match f.stat with
  | .wait (.fork child d) =>
    let r := ((Tab.find s.launches child).map (·.rejected)).getD false
    (f.setR d (if r then 1#32 else 0#32)).advance s.cycle
  | _ => f

/-- A saved group resumes on a core: the core drops the context's lines (R343), its sweeps continue first (R184), its tasks
are tested for readiness (R159), and what its claims and rendezvous were due is done before any fibre issues (R156). DESIGN
CHOICE (assumption 54): its sweeps take their places whether or not the unit then holds more than 16 (R183). -/
def State.resumeGroup (s : State) (g core : Nat) : State :=
  match s.group? g with
  | none => s
  | some x =>
    let s1 := s.dropLines core (s.ctx x.ctx).asid
    let mine (o : Op) : Bool := o.fib.g == g && match o.kind with | .sweep _ => true | _ => false
    let back (y : Group) : Group := { (y.mapFibres fun _ f => (s.unfork f).resumed s.cycle).markTasks with
      loc := .resident core, lastCore := core, stopping := false, swapped := false, forked := none, wseed := y.wseed + 1
      fresh := true }
    let s2 := ({ s1 with ops := s1.ops.filter mine ++ s1.ops.filter fun o => !mine o }.updGroup g back).settleClaims g
    if (s.slotPages x.ctx x.slot).isSome then s2 else (s2.group? g).elim s2 (s2.slotFault g)

/-- A core that held no group when a group comes runs on the control sequencer image in force (R401). -/
def State.renewSeq (s : State) (c : Nat) : State :=
  if s.coreBusy c then s else s.setCore c { s.core c with oldSeq := none }

/-- Carry out a placement. -/
def State.place (s : State) (d : Due) (x : Launch) : State :=
  match d.groups with
  | [] =>
    let slots := s.freeSlots x.ctx x.lr.cl
    if slots.length < x.lr.cl then s else
    match s.findCores d.launch x (List.replicate x.lr.cl (x.lr.needs x.lr.wa)) with
    | none => s
    | some cs => (slots.zip cs).foldl (fun t p => (t.renewSeq p.2).placeNew d.launch p.1 p.2) s
  | gs =>
    match s.findCores d.launch x (gs.filterMap fun g => (s.group? g).map Group.needs) with
    | none => s
    | some cs => (gs.zip cs).foldl (fun t p => (t.renewSeq p.2).resumeGroup p.1 p.2) s

/-- GROUP_PLACE: the first group in the order of R362 is placed on its paddock, if it finds room. -/
def State.groupPlace (s : State) (p : Nat) : State :=
  if (s.pad p).preempt.isSome then s else
  let s1 := s.settleServing p
  match (s1.pad p).serving with
  | none => s1
  | some c =>
    match s1.due p c with
    | [] => s1
    | d :: _ => match Tab.find s1.launches d.launch with
      | some x => s1.place d x
      | none => s1

def execGroupPlace (pad : Nat) (s : State) : Out := .next (s.groupPlace pad)

/-! ### HINTNEXT, WAITPRED (R364) -/

/-- The first HINTNEXT of a group marks it. -/
def execHintnext (h : Hdr) (n : BitVec 14) (s : State) : Out :=
  runWord (.hintnext h n) h (fun _ _ => {}) (fun g _ s =>
    .ok (if g.hint.isSome then s else s.updGroup s.cur.g fun x => { x with hint := some n.toNat })) s

/-- The predecessor that a group's launch waits for: none with PWAIT = 0, in a child launch, or without one. -/
def State.waitedPred (s : State) (g : Group) : Option Launch :=
  match Tab.find s.launches g.launch with
  | none => none
  | some l => if l.lr.pwait && l.parent.isNone then l.pred.bind fun p => Tab.find s.launches p else none

def execWaitpred (h : Hdr) (s : State) : Out :=
  runWord (.waitpred h) h (fun _ _ => {}) (fun g _ s =>
    match s.waitedPred g with
    | none => .ok s
    | some v => if v.complete then .ok (s.acquire g) else .stall s .pred) s

end Sys2Proof.Machine
end

