-- ==== Sys2Proof/Machine/Queues.lean ====
section
/-! DEFINITION. Work queues (R352, R353), their packets (R354 to R357), their errors (R365), the registers that control
them, and QPOST and SIGNAL (R364). -/

namespace Sys2Proof.Machine

/-! ### Queues -/

/-- Packets posted and not freed. -/
def Queue.fill (v : Queue) : Nat := (v.tail - v.head).toNat

/-- The package is in the safe state (R404). -/
def State.isSafe (s : State) : Bool := s.regs.postStat.getLsbD 62

/-- The command processor has a packet of the queue to execute, or one whose execution goes on (R352). -/
def State.served (s : State) (q : Nat) : Bool :=
  let v := s.queue q
  v.state == .idle && !s.isSafe && ((v.en && v.at_ != v.tail) || v.engcmd.isSome)

/-- STATE as HQ_STAT reads it. -/
def State.queueState (s : State) (q : Nat) : QState := if s.served q then .running else (s.queue q).state

/-- The queue goes on at packet `i` with these brackets open; HEAD has passed the outermost opener, and stays before its body
(R353). -/
def Queue.goTo (v : Queue) (i : BitVec 32) (fs : List Frame) : Queue :=
  { v with at_ := i, frames := fs, engcmd := none, head := match fs.getLast? with
    | none => i
    | some (.loop p _) => p + 1#32
    | some (.ifm p) => p + 1#32 }

/-- The queue goes on to its next packet. -/
def Queue.advance (v : Queue) : Queue := v.goTo (v.at_ + 1#32) v.frames

/-- An error that names neither a record nor a word: its VA field is a free value. -/
def State.queueErr (s : State) (q reason : Nat) : State := s.queueError q reason 0 (dw (s.choose 50 (2 ^ 64)))

/-- The page of a ring slot. -/
def State.ringPage (s : State) (v : Queue) (i : BitVec 32) : Option (Page × Nat) :=
  let va := v.base.toNat + 32 * (i.toNat % 2 ^ v.log)
  if v.log < 4 ∨ v.base.toNat % 4096 ≠ 0 ∨ va ≥ 2 ^ 56 then none else
  match s.pageOf (s.ctx v.ctx).asid (dw va) with
  | some p => if p.tier = .near ∨ p.tier = .host then some (p, va) else none
  | none => none

/-- The 32 bytes of packet `i`. -/
def State.packetBits (s : State) (v : Queue) (i : BitVec 32) : Option (BitVec 256) :=
  (s.ringPage v i).map fun p => BitVec.ofNat 256 (leNat (s.devRead v.ctx p.1 p.2 32))

/-- The next packet of a queue, or the reason of the error it raises. -/
def State.queuePacket (s : State) (q : Nat) : Nat ⊕ Instr :=
  let v := s.queue q
  if !s.ctxOk v.ctx then .inl 0x09 else
  match s.packetBits v v.at_ with
  | none => .inl 0x04
  | some w => match decodePacket w with
    | some i => .inr i
    | none => .inl 0x01

/-! ### Words in memory (R355) -/

/-- The page of a word that a packet names. -/
def State.wordPage (s : State) (ctx : Nat) (va : Dword) (write : Bool) : Option Page :=
  if va.toNat % 8 ≠ 0 then none else
  match s.pageOf (s.ctx ctx).asid va with
  | some p => if (p.tier = .near ∨ p.tier = .host) ∧ p.rp ∧ (p.wp ∨ ¬ write) then some p else none
  | none => none

def condHolds (c : PCond) (w v : Nat) : Bool :=
  match c with
  | .eq => w == v
  | .ne => w != v
  | .ltu => decide (w < v)
  | .geu => decide (w ≥ v)

/-- Evaluate a condition on a word; none for a word fault. -/
def State.wordCond (s : State) (ctx : Nat) (c : PCond) (va value mask : Dword) : Option Bool :=
  (s.wordPage ctx va false).map fun p =>
    condHolds c (BitVec.ofNat 64 (leNat (s.devRead ctx p va.toNat 8)) &&& mask).toNat value.toNat

/-! ### Brackets (R357) -/

/-- The match of a LOOP or IFMEM: it is not yet below TAIL, the brackets before it do not nest, the ring faults, or the
packet of its ELSE, if any, and that of its end. -/
inductive Match where
  | wait
  | bad
  | fault
  | found (mid : Option (BitVec 32)) (end_ : BitVec 32)
  deriving DecidableEq, Repr

/-- Scan from packet `i` for the end of the brackets `stack`, innermost first: whether each is a LOOP, and whether its
ELSE has been passed; `outer` brackets enclose them. -/
def State.scan (s : State) (v : Queue) (outer : Nat) : Nat → BitVec 32 → List (Bool × Bool) → Option (BitVec 32) → Match
  | 0, _, _, _ => .wait
  | k + 1, i, stack, mid =>
    if i = v.tail then .wait else
    match s.packetBits v i with
    | none => .fault
    | some w =>
      match (w.extractLsb' 0 8).toNat, stack with
      | 0x05, _ => if outer + stack.length ≥ 8 then .bad else s.scan v outer k (i + 1#32) ((true, false) :: stack) mid
      | 0x07, _ => if outer + stack.length ≥ 8 then .bad else s.scan v outer k (i + 1#32) ((false, false) :: stack) mid
      | 0x06, (true, _) :: rest => if rest.isEmpty then .found mid i else s.scan v outer k (i + 1#32) rest mid
      | 0x06, _ => .bad
      | 0x08, (false, false) :: rest =>
        s.scan v outer k (i + 1#32) ((false, true) :: rest) (if rest.isEmpty then some i else mid)
      | 0x08, _ => .bad
      | 0x09, (false, _) :: rest => if rest.isEmpty then .found mid i else s.scan v outer k (i + 1#32) rest mid
      | 0x09, _ => .bad
      | _, _ => s.scan v outer k (i + 1#32) stack mid

/-- The end of a bracket of a kind, from packet `i` on: the first that closes as many as `depth` of that kind. -/
def State.endOf (s : State) (v : Queue) (loop : Bool) : Nat → BitVec 32 → Nat → Match
  | 0, _, _ => .wait
  | k + 1, i, depth =>
    if i = v.tail then .wait else
    match s.packetBits v i with
    | none => .fault
    | some w =>
      let opc := (w.extractLsb' 0 8).toNat
      if opc = (if loop then 0x05 else 0x07) then s.endOf v loop k (i + 1#32) (depth + 1)
      else if opc = (if loop then 0x06 else 0x09) then
        if depth ≤ 1 then .found none i else s.endOf v loop k (i + 1#32) (depth - 1)
      else s.endOf v loop k (i + 1#32) depth

/-- The match of the bracket that the queue executes, of the kind and progress given. It waits until its end lies below TAIL;
then the packets up to it must nest, with no ninth level. -/
def State.matchOf (s : State) (v : Queue) (top : Bool × Bool) (outer : Nat) : Match :=
  let n := (v.tail - v.at_).toNat + 1
  match s.endOf v top.1 n (v.at_ + 1#32) 1 with
  | .found _ _ => if outer ≥ 8 then .bad else s.scan v outer n (v.at_ + 1#32) [top] none
  | m => m

/-! ### The packets (R356, R357) -/

/-- Execute a packet of the queue that has its turn; none while it waits. -/
def onQueue (s : State) (body : Nat → Queue → Option State) : Option State :=
  if s.served s.curQ then body s.curQ (s.queue s.curQ) else none

/-- The queue's state after a packet. -/
def State.put (s : State) (q : Nat) (v : Queue) : Option State := some (s.setQueue q v)

def tryNop (s : State) : Option State := onQueue s fun q v => s.put q v.advance

/-- LAUNCH and LAUNCHI: wait for the paddock and for one of 16 places, then make the launch. One that starts at once has its
record judged; one that waits for its predecessor has it judged as it starts (R360). The grid word is read now (R356). -/
def tryLaunch (record : Dword) (grid : Option Dword) (s : State) : Option State :=
  onQueue s fun q v =>
    let p := (s.ctx v.ctx).pad
    if !s.padAlive p || decide (s.runningOf q ≥ 16) then none else
    let word := grid.map fun w => (s.nearRead v.ctx w 8 8).map leNat
    let x : Launch := { queue := some q, ctx := v.ctx, pad := p, prio := v.prio, pred := v.pred, recVa := record, grid := word
                        pkt := v.at_, lr := { pwait := s.asksWait v.ctx record } }
    let add (y : Launch) : State :=
      ({ s with nextId := s.nextId + 1 }.setQueue q { v.advance with pred := some s.nextId }).setLaunch s.nextId y
    if !s.mayStart x then some (add x) else
    match s.judgeRecord v.ctx p record word with
    | .inl code => some (s.queueError q 0x03 code record)
    | .inr r => some ((add { x with lr := r }).startLaunch s.nextId { x with lr := r })

/-- Every earlier launch of the queue has completed (R356). -/
def State.queueDrained (s : State) (q : Nat) : Bool := s.launches.all fun p => p.2.queue != some q || p.2.complete

/-- Acquire at package scope for every core: later launches may run on any (R340, R356). -/
def State.acquireAll (s : State) (ctx : Nat) : State :=
  (s.cores.map (·.1)).foldl (fun t c => (t.dropLines c (t.ctx ctx).asid).dropFetched c ctx) s

def tryWaitseq (cyc : Bool) (va value : Dword) (s : State) : Option State :=
  onQueue s fun q v =>
    match s.wordPage v.ctx va false with
    | none => some (s.queueError q 0x07 0 va)
    | some p =>
      let w := leNat (s.devRead v.ctx p va.toNat 8)
      let met := if cyc then seqReached (w / 2 ^ 32) (value.toNat % 2 ^ 32) else decide (w ≥ value.toNat)
      if met then (s.acquireAll v.ctx).put q v.advance else none

def tryQfence (s : State) : Option State :=
  onQueue s fun q v => if s.queueDrained q then s.put q v.advance else none

def trySignal (add irq : Bool) (va value : Dword) (s : State) : Option State :=
  onQueue s fun q v =>
    if !s.queueDrained q then none else
    match s.wordPage v.ctx va true with
    | none => some (s.queueError q 0x07 0 va)
    | some p =>
      if add ∧ p.tier = .host then some (s.queueError q 0x07 0 va) else
      let old := if add then leNat (s.devRead v.ctx p va.toNat 8) else 0
      let s1 := s.devWrite v.ctx p va.toNat (leBytes 8 (old + value.toNat))
      (if irq then s1.raise (s.ctx v.ctx).vec else s1).put q v.advance

def tryLoop (count : BitVec 32) (s : State) : Option State :=
  onQueue s fun q v =>
    match s.matchOf v (true, false) v.frames.length with
    | .wait => none
    | .bad => some (s.queueErr q 0x02)
    | .fault => some (s.queueErr q 0x04)
    | .found _ e =>
      if count = 0#32 then s.put q (v.goTo (e + 1#32) v.frames)
      else s.put q (v.goTo (v.at_ + 1#32) (.loop v.at_ count :: v.frames))

def tryEndloop (on : Bool) (c : PCond) (va value mask : Dword) (s : State) : Option State :=
  onQueue s fun q v =>
    match v.frames with
    | .loop pkt left :: rest =>
      let again := fun b : Bool =>
        if left - 1#32 ≠ 0#32 ∧ b then s.put q (v.goTo (pkt + 1#32) (.loop pkt (left - 1#32) :: rest))
        else s.put q (v.goTo (v.at_ + 1#32) rest)
      if on then match s.wordCond v.ctx c va value mask with
        | none => some (s.queueError q 0x07 0 va)
        | some b => again b
      else again true
    | _ => some (s.queueErr q 0x02)

def tryIfmem (c : PCond) (va value mask : Dword) (s : State) : Option State :=
  onQueue s fun q v =>
    match s.matchOf v (false, false) v.frames.length with
    | .wait => none
    | .bad => some (s.queueErr q 0x02)
    | .fault => some (s.queueErr q 0x04)
    | .found mid e =>
      match s.wordCond v.ctx c va value mask with
      | none => some (s.queueError q 0x07 0 va)
      | some true => s.put q (v.goTo (v.at_ + 1#32) (.ifm v.at_ :: v.frames))
      | some false => match mid with
        | some m => s.put q (v.goTo (m + 1#32) (.ifm v.at_ :: v.frames))
        | none => s.put q (v.goTo (e + 1#32) v.frames)

/-- ELSE is reached at the end of a body that was taken: the queue goes on after ENDIF. -/
def tryElse (s : State) : Option State :=
  onQueue s fun q v =>
    match v.frames with
    | .ifm _ :: rest => match s.matchOf v (false, true) rest.length with
      | .wait => none
      | .bad => some (s.queueErr q 0x02)
      | .fault => some (s.queueErr q 0x04)
      | .found _ e => s.put q (v.goTo (e + 1#32) rest)
    | _ => some (s.queueErr q 0x02)

def tryEndif (s : State) : Option State :=
  onQueue s fun q v =>
    match v.frames with
    | .ifm _ :: rest => s.put q (v.goTo (v.at_ + 1#32) rest)
    | _ => some (s.queueErr q 0x02)

/-- The forwarding that a queue's ENGCMD asked for goes on. -/
def State.engcmdPending (s : State) (q ctx hnd : Nat) : Bool :=
  (s.chain ctx hnd).fwd.any fun f => f.by_.isNone && f.queue == q

def tryEngcmd (hnd : BitVec 12) (n : Dword) (s : State) : Option State :=
  onQueue s fun q v =>
    match v.engcmd with
    | some k => if s.engcmdPending q v.ctx k then none else s.put q v.advance
    | none =>
      match s.chainEntry v.ctx hnd.toNat with
      | none => some (s.queueErr q 0x06)
      | some e =>
        if n.toNat > 64 then some (s.queueErr q 0x06)
        else if n = 0#64 then s.put q v.advance
        else
          let c := s.chain v.ctx hnd.toNat
          (s.setChain v.ctx hnd.toNat { c with fwd := c.fwd ++ [{ by_ := none, queue := q, left := n.toNat, ent := e }] }).put q
            { v with engcmd := some hnd.toNat }

def tryStepb (n : Dword) (s : State) : Option State :=
  onQueue s fun q v =>
    if !s.stepOn || n.toNat != s.writeStep || (s.ctx v.ctx).asid != s.regs.stepCtl.extractLsb' 32 16 then
      some (s.queueErr q 0x05)
    else if s.boundary.isSome || decide (s.doneBelow < n.toNat) then none
    else (s.acceptStepb n.toNat).put q v.advance

def tryHalt (s : State) : Option State :=
  onQueue s fun q v => if s.queueDrained q then s.put q { v.advance with state := .halted } else none

def execPacketNop (s : State) : Out := .next ((tryNop s).getD s)
def execLaunch (record : Dword) (s : State) : Out := .next ((tryLaunch record none s).getD s)
def execLaunchi (record grid : Dword) (s : State) : Out := .next ((tryLaunch record (some grid) s).getD s)
def execWaitseq (cyc : Bool) (va value : Dword) (s : State) : Out := .next ((tryWaitseq cyc va value s).getD s)
def execSignalPacket (add irq : Bool) (va value : Dword) (s : State) : Out := .next ((trySignal add irq va value s).getD s)
def execLoop (count : BitVec 32) (s : State) : Out := .next ((tryLoop count s).getD s)
def execEndloop (on : Bool) (c : PCond) (va value mask : Dword) (s : State) : Out :=
  .next ((tryEndloop on c va value mask s).getD s)
def execIfmem (c : PCond) (va value mask : Dword) (s : State) : Out := .next ((tryIfmem c va value mask s).getD s)
def execElsePacket (s : State) : Out := .next ((tryElse s).getD s)
def execEndifPacket (s : State) : Out := .next ((tryEndif s).getD s)
def execQfence (s : State) : Out := .next ((tryQfence s).getD s)
def execEngcmd (hnd : BitVec 12) (n : Dword) (s : State) : Out := .next ((tryEngcmd hnd n s).getD s)
def execStepb (n : Dword) (s : State) : Out := .next ((tryStepb n s).getD s)
def execHalt (s : State) : Out := .next ((tryHalt s).getD s)

/-! ### The turn of a command processor (R353) -/

/-- The queue's next packet can execute now, or raises an error. -/
def State.packetReady (s : State) (q : Nat) : Bool :=
  let t := { s with curQ := q }
  s.served q && match s.queuePacket q with
    | .inl _ => true
    | .inr i => match i with
      | .launch r => (tryLaunch r none t).isSome
      | .launchi r w => (tryLaunch r (some w) t).isSome
      | .waitseq c a v => (tryWaitseq c a v t).isSome
      | .signalPacket a i va v => (trySignal a i va v t).isSome
      | .loop n => (tryLoop n t).isSome
      | .ifmem c va v m => (tryIfmem c va v m t).isSome
      | .elsePacket => (tryElse t).isSome
      | .qfence => (tryQfence t).isSome
      | .engcmd h n => (tryEngcmd h n t).isSome
      | .stepb n => (tryStepb n t).isSome
      | .halt => (tryHalt t).isSome
      | _ => true

/-- The queue that command processor `d` takes next: of the highest PRIO among those ready, the next in the round. -/
def State.pickQueue (s : State) (d : Nat) : Option Nat :=
  let ready := (s.queues.map (·.1)).filter fun q => q % 3 == d && s.packetReady q
  let top := ready.foldl (fun m q => max m (s.queue q).prio) 0
  let best := ready.filter fun q => (s.queue q).prio == top
  let last := Tab.find s.qlast (8 * d + top)
  (best.find? fun q => (last.map fun l => decide (q > l)).getD true).or best.head?

/-- One turn of a command processor, chosen freely among those with a ready queue: the packet it executes, or none where
the queue fails or nothing is ready, or while the command processors restart (R401). -/
def State.queueNext (s : State) : Option Instr × State :=
  let ready := if s.cpDown then [] else (List.range 3).filterMap s.pickQueue
  match ready[s.choose 60 ready.length]? with
  | none => (none, s)
  | some q =>
    let s1 := { s with curQ := q, qlast := Tab.put (8 * (q % 3) + (s.queue q).prio) q s.qlast }
    match s1.queuePacket q with
    | .inl r => (none, s1.queueErr q r)
    | .inr i => (some i, s1)

/-! ### Registers (R352) -/

/-- A new value of TAIL, with `error` where it is refused. -/
def State.writeTail (s : State) (q : Nat) (t : BitVec 32) : State :=
  let v := s.queue q
  if t = v.tail then s
  else if (t - v.head).toNat > 2 ^ v.log ∨ (t - v.head).toNat < v.fill then s.queueErr q 0x08
  else s.setQueue q { v with tail := t }

def execHqTail (q : Nat) (v : HVal) (s : State) : Out :=
  .next (
    let w := s.queue q
    if w.dev then s else s.writeTail q ((regTo v (0#32 ++ w.tail)).extractLsb' 0 32))

def execHqCtl (q : Nat) (v : HVal) (s : State) : Out :=
  .next (
    let w := s.queue q
    let n := regTo v w.ctl &&& (mask 63 62 ||| mask 41 32 ||| mask 11 8 ||| mask 2 0)
    let c := if w.still then n else (n &&& errBit) ||| (w.ctl &&& ~~~errBit)
    s.setQueue q { w with ctl := c })

/-- What waits for a launch of the queue that never completes waits for it no more (R375). -/
def State.releaseDead (s : State) (q : Nat) : State :=
  let gone (k : Nat) : Bool := (Tab.find s.launches k).any fun x => x.dead && x.queue == some q
  { s with launches := s.launches.map fun p =>
      (p.1, { p.2 with pred := p.2.pred.filter fun k => !gone k, queue := if gone p.1 then none else p.2.queue }) }

/-- HEAD := TAIL, every nest is discarded, and the queue is idle. -/
def execClear (q : Nat) (s : State) : Out :=
  .next (
    let w := s.queue q
    (s.releaseDead q).setQueue q { w.goTo w.tail [] with state := .idle, pred := none })

/-- A halted queue runs on. -/
def execResume (q : Nat) (s : State) : Out :=
  .next (
    let w := s.queue q
    if w.state = .halted then s.setQueue q { w with state := .idle } else s)

/-! ### QPOST, SIGNAL (R364) -/

/-- Post a packet to a queue: its status, and the state. -/
def State.qpost (s : State) (ctx q : Nat) (bs : List Byte) : Nat × State :=
  let v := s.queue q
  if q > 1023 ∨ ¬ v.en ∨ ¬ v.dev ∨ v.ctx ≠ ctx then (2, s)
  else if v.fill ≥ 2 ^ v.log then (1, s)
  else match s.ringPage v v.tail with
    | none => (2, s.queueErr q 0x04)
    | some (p, va) =>
      if !p.wp then (2, s.queueErr q 0x04)
      else (0, (s.devWrite ctx p va bs).setQueue q { v with tail := v.tail + 1#32 })

/-- It reaches the command processor as it issues, from the shared SRAM, and the core drops its copy of the packet's line (R334);
its status lands later. -/
def execQpost (h : Hdr) (d a b : Reg) (s : State) : Out :=
  runWord (.qpost h d a b) h (fun _ _ => { counts := true, chks := Reg.chk a 2 ++ Reg.chk b 1 ++ Reg.chk d 1 }) (fun g f s =>
    let va := f.rdPair a
    match s.access g va 32 accRead onlyNear with
    | .inl r => r
    | .inr (p, s1) =>
      if s1.undrained s1.cur f then .stall s1 (.drain false)
      else
        let s2 := (s1.release g).dropLine g.coreOr0 (s1.ctx g.ctx).asid (s1.nearOff p va)
        let (st, s3) := s2.qpost g.ctx (f.r (f.reg b)).toNat (s2.sramRead (s2.nearOff p va) 32)
        .ok (s3.addOp g f (f.counter h) (.land (f.reg d) 1 (dw st)) [f.reg d] (nodrain := true))) s

/-- SIGNAL: the checks, the drain and the release; the write is its operation. -/
def execSignal (h : Hdr) (d : Reg) (m : Mem) (add irq : Bool) (s : State) : Out :=
  runWord (.signal h d m add irq) h (fun _ _ => { counts := true, chks := Mem.chk m 2 ++ Reg.chk d 2 }) (fun g f s =>
    let va := f.va m
    match s.access g va 8 (if add then accAtomic else accWrite) fun t => t == .near || (t == .host && !add) with
    | .inl r => r
    | .inr (p, s1) =>
      if s1.undrained s1.cur f then .stall s1 (.drain false)
      else
        let host := p.tier == .host
        let off := if host then hostAddr (s1.ctx g.ctx).pasid p va else s1.nearOff p va
        .ok ((s1.release g).addOp g f (f.counter h) (.signal off host (f.rdPair d) add irq) [] (nodrain := true)
          (used := [p.span va]))) s

/-- The word is written, or added to as one atomic operation; then the context's vector is raised. -/
def State.performSignal (s : State) (o : Op) (off : Nat) (host : Bool) (v : Dword) (add irq : Bool) : State :=
  let s1 := if host then { s with hostMem := Memory.write s.hostMem off (leBytes 8 v.toNat) }
    else
      let t := s.dropLine o.core (s.ctx o.ctx).asid off
      let old := if add then t.sramWord off 8 else 0
      t.sramWrite off (leBytes 8 (old + v.toNat))
  (if irq then s1.raise (s.ctx o.ctx).vec else s1).finish o

end Sys2Proof.Machine
end

