-- ==== Sys2Proof/Machine/Host.lean ====
section
/-! DEFINITION. What system software does through its command registers: page answers (R239), invalidates (R234), ASIDs
(R236), key slots (R399), debugging (R390 to R392), and heartbeats (R389). -/

namespace Sys2Proof.Machine

/-! ### Page answers (R239, R260, R285, R317) -/

/-- The answer as a group's fibres and subgroups take it. DESIGN CHOICE (assumption 42): a page answered absent stays so for the
fibre, though its subgroup waits on for others. -/
def Group.answerPage (x : Group) (cycle page : Nat) (absent : Bool) : Group :=
  let subs := x.subs.map fun t => { t with pages := t.pages.erase page }
  let y := x.mapFibres fun _ f => match f.stat with
    | .parked sub va p _ =>
      let g := if absent && p == page then { f with absent := some va } else f
      if subs.any fun t => t.id == sub && t.pages.isEmpty then g.wake cycle else g
    | _ => f
  { y with subs := subs.filter fun t => !t.pages.isEmpty }

/-- The answer as an operation takes it. -/
def Op.answerPage (o : Op) (page : Nat) (absent : Bool) : Op :=
  match o.kind with
  | .xfer x =>
    if x.miss.contains page then
      { o with kind := .xfer { x with miss := x.miss.erase page
                                      absent := if absent then x.absent.or (some (dw (65536 * page))) else x.absent } }
    else o
  | _ => o

/-- The answer as a chain takes it. -/
def Chain.answerPage (c : Chain) (page : Nat) (absent : Bool) : Chain :=
  if c.miss.any fun m => m.1 == page then
    { c with miss := c.miss.filter fun m => m.1 != page, absent := if absent then page :: c.absent else c.absent }
  else c

/-- A page of an ASID has been answered. -/
def State.answerPage (s : State) (asid : BitVec 16) (page : Nat) (absent : Bool) : State :=
  let mine (c : Nat) : Bool := (s.ctx c).asid == asid
  { s with
    groups := s.groups.map fun p => (p.1, if mine p.2.ctx then p.2.answerPage s.cycle page absent else p.2)
    cores := s.cores.map fun p => (p.1, { p.2 with reqs := p.2.reqs.filter (fun r => r != (asid, page))
                                                   want := p.2.want.filter fun w => !(mine w.1 && w.2.1 == page) })
    ops := s.ops.map fun o => if mine o.ctx then o.answerPage page absent else o
    chains := s.chains.map fun p => (p.1, if mine (p.1 / 4096) then p.2.answerPage page absent else p.2)
    xheld := s.xheld.map fun h => if mine h.ctx && h.miss.contains page then
      { h with miss := h.miss.erase page, absent := h.absent || absent } else h }

def execPgResp (status : BitVec 2) (page : BitVec 40) (asid : BitVec 16) (s : State) : Out :=
  .next (if status.toNat ≥ 2 then s else (s.answerPage asid page.toNat (status == 1#2)).retryPeers)

/-! ### Invalidates (R234) -/

def State.startInval (s : State) (v : Inval) : State := { s with invals := s.invals ++ [v] }

def execTlbInvalRange (count : BitVec 32) (asid : BitVec 16) (s : State) : Out :=
  .next (s.startInval { full := false, asid := some asid, lo := pageNo s.regs.tlbInvalVa, n := max 1 count.toNat })

def execTlbInvalAsid (asid : BitVec 16) (s : State) : Out := .next (s.startInval { full := false, asid := some asid })

def execTlbInvalFull (s : State) : Out := .next (s.startInval { full := true, asid := none })

/-- The invalidate covers a cached entry: of its ASID, with a page that overlaps its range. -/
def Inval.covers (v : Inval) (t : TlbEnt) : Bool :=
  match v.asid with
  | none => true
  | some a => a == t.asid && rangesMeet (v.lo, v.lo + v.n) (t.vpn, t.vpn + 2 ^ szShift t.sz)

/-- The invalidate covers an entry that an access has used: one of its ASID, with a page that overlaps its range. -/
def Inval.coversUse (v : Inval) (asid : BitVec 16) (used : List (Nat × Nat)) : Bool :=
  (v.asid.isNone || v.asid == some asid) && used.any fun u => rangesMeet (v.lo, v.lo + v.n) (u.1, u.1 + u.2)

/-- Every core writes back and drops its lines: what it holds of the tables that a full invalidate brings up to date (R280,
R303) goes with them. -/
def State.dropAllLines (s : State) : State := (s.cores.map (·.1)).foldl (fun t c => t.flushLines c true fun _ => true) s

def State.dropTlb (s : State) (v : Inval) : State := { s with tlb := s.tlb.filter fun t => !v.covers t }

/-- Drop the entries an invalidate covers, and note the accesses it then waits for. -/
def State.dropEntries (s : State) (v : Inval) : Inval × State :=
  ({ v with dropped := true
            waits := (s.ops.filter fun o => v.coversUse (s.ctx o.ctx).asid o.used).map (·.id)
            waitsR := ((s.intake.filter fun r => v.coversUse r.asid r.used).map fun r => (r.n, r.asid)).eraseDups
            waitsF := (s.fwds.filter fun r => v.coversUse (s.ctx r.ctx).asid r.used).map (·.id)
            waitsE := s.slots.flatMap fun p => (p.2.entries.filter fun e =>
              v.coversUse (s.ctx e.ctx).asid (e.pages.map fun u => (u.vpn, u.n))).map fun e => (e.ctx, e.hnd, e.num) },
    if v.full then s.dropAllLines.dropTlb v else s.dropTlb v)

/-- The accesses that an invalidate waits for are complete. -/
def State.invalDone (s : State) (v : Inval) : Bool :=
  v.dropped && !s.ops.any (fun o => v.waits.contains o.id) && !s.fwds.any (fun r => v.waitsF.contains r.id) && !s.intake.any (fun r => v.waitsR.contains (r.n, r.asid)) &&
    !s.slots.any fun p => p.2.entries.any fun e => v.waitsE.contains (e.ctx, e.hnd, e.num)

/-- TLB_INVAL_COMPLETE: the oldest invalidate drops what it covers, or, once that and its accesses are done, completes. -/
def execTlbInvalComplete (s : State) : Out :=
  .next (match s.invals with
    | [] => s
    | v :: rest =>
      if !v.dropped then
        let (w, s1) := s.dropEntries v
        { s1 with invals := w :: rest }
      else if s.invalDone v then
        { s with
          invals := rest
          regs := { s.regs with tlbInvalDone := s.regs.tlbInvalDone + 1#64 }
          asids := if v.full then s.asids.map fun p => (p.1, if p.2.gen = 255#8 then { p.2 with flushed := true } else p.2)
            else s.asids }
      else s)

/-! ### ASIDs, keys (R235, R236, R399) -/

def State.asidResult (s : State) (a : BitVec 16) (st : BitVec 8) : State :=
  { s with regs := { s.regs with asidStatus := st, asidLast := a } }

def execAsidBind (asid : BitVec 16) (s : State) : Out :=
  .next (
    let x := s.asid asid
    if x.gen = 255#8 ∧ ¬ x.flushed then s.asidResult asid 0x01#8
    else if x.bound then s.asidResult asid 0x02#8
    else { s with asids := Tab.set {} asid.toNat { gen := x.gen + 1#8, bound := true } s.asids }.asidResult asid 0x00#8)

def execAsidRelease (asid : BitVec 16) (s : State) : Out :=
  .next (
    let x := s.asid asid
    if ¬ x.bound ∨ s.ctxOf asid < 1024 then s.asidResult asid 0x03#8
    else { s with asids := Tab.set {} asid.toNat { x with bound := false } s.asids }.asidResult asid 0x00#8)

def execKeyInval (slot : BitVec 13) (s : State) : Out := .next { s with keys := Tab.del slot.toNat s.keys }

/-! ### Debugging (R390 to R392) -/

/-- The outcome of a debug operation; while an access is BUSY, DBG_STAT speaks of that. -/
def State.dbgResult (s : State) (r : Nat) : State :=
  if s.dbgWait.isSome then s else { s with regs := { s.regs with dbgStat := dbgStatus false false r } }

def State.dbgCtx (s : State) : Nat := bits s.regs.dbgSel.toNat 41 32

/-- The group that DBG_GRP and DBG_SEL name; where several launches of the context have one of that index, any. -/
def State.dbgGroup (s : State) : Option (Nat × Group) :=
  let gs := s.groups.filter fun p => p.2.ctx == s.dbgCtx && p.2.lin == s.regs.dbgGrp.toNat && p.2.loc != .ended
  gs[s.choose 62 gs.length]?

/-- Act on the selected group. -/
def State.onDbgGroup (s : State) (u : Nat → Group → State) : State :=
  match s.dbgGroup with
  | none => s.dbgResult 2
  | some (g, x) => u g x

/-- Act on the selected fibre, which must be stopped. -/
def State.onDbgFibre (s : State) (u : Nat → Group → Nat → Fibre → State) : State :=
  s.onDbgGroup fun g x =>
    let n := bits s.regs.dbgSel.toNat 9 0
    match x.fibre? n with
    | none => s.dbgResult 2
    | some f => if f.stopped then u g x n f else s.dbgResult 1

def execDbgStop (s : State) : Out := .next (s.onDbgGroup fun g x => (s.setGroup g x.stopAll).dbgResult 0)

/-- The debugger has written another PC than the one at which the fibre stopped. -/
def Fibre.moved (f : Fibre) : Bool := f.stop.any fun t => t.pc != t.q.pc

/-- A stopped fibre runs on, from the PC that the debugger left (R377, R391); one that stopped in a wait goes on waiting,
and keeps its place and the start of its budget (R103, R112), unless it has been sent elsewhere: PAGE_NOT_PRESENT of an absent
page is raised at the word that parked (R239). -/
def Fibre.resume (f : Fibre) (cycle : Nat) (step : Stepping) : Fibre :=
  { f with stopped := false, stepping := step, stop := none
           since := if f.moved || f.stat == .ready then cycle + 1 else f.since
           stat := if f.moved then .ready else f.stat
           grant := if f.moved then none else f.grant
           absent := if f.moved then none else f.absent
           pos := match f.stop with
             | some st => st.q.resume st.pc
             | none => f.pos }

/-- A fibre that leaves its wait has not arrived at its mask, and takes no part in its rendezvous or its rank's claim. -/
def Group.leave (x : Group) (n : Nat) (f : Fibre) : Group :=
  match f.stat with
  | .wait (.join m _) =>
    x.setMask (n / 32) m (x.mask (n / 32) m) (x.arrivedAt (n / 32) m &&& ~~~(laneBit n))
  | .wait .rendezvous => { x with rvs := x.rvs.map fun v =>
      if v.rank == n / 32 then { v with members := v.members.filter fun q => q.lane != n % 32 } else v }
  | .wait .claim => { x with claims := x.claims.map fun c =>
      if c.rank == n / 32 then { c with members := c.members.filter fun m => m.1 != n % 32 } else c }
  | _ => x

/-- A stopped fibre of a group resumes. -/
def Group.resumeFibre (x : Group) (n : Nat) (f : Fibre) (cycle : Nat) (step : Stepping) : Group :=
  (if f.moved then x.leave n f else x).setFibre n (f.resume cycle step)

/-- Every stopped fibre of a group resumes. -/
def Group.resumeAll (x : Group) (cycle : Nat) : Group :=
  x.fibres.foldl (fun y p => if p.2.stopped then y.resumeFibre p.1 p.2 cycle .off else y) x

/-- A faulted group that is resumed runs again. -/
def execDbgResume (s : State) : Out :=
  .next (s.onDbgGroup fun g x => (s.setGroup g { x.resumeAll s.cycle with faulted := false }).dbgResult 0)

def execDbgStep (s : State) : Out :=
  .next (s.onDbgFibre fun g x n f => (s.setGroup g (x.resumeFibre n f s.cycle .armed)).dbgResult 0)

/-- The registers a debugger names (R391). -/
inductive DbgReg where
  | lane (n : Nat)
  | pred (n : BitVec 4)
  | mask (j : BitVec 3)
  | ctr (k : BitVec 4)
  | sys (x : SysReg)
  | pc
  | cause
  | value
  | idx (i : BitVec 2)
  deriving DecidableEq, Repr

/-- Decode the register field. -/
def dbgReg (f : BitVec 16) : Option DbgReg :=
  if f.extractLsb' 14 2 = 0#2 then match regOf f with
    | some (.v n) => some (.lane n.toNat)
    | _ => none
  else match predOf f, maskOf f, classOf 2#3 4 f, sysOf f, classOf 7#3 3 f with
    | some n, _, _, _, _ => if n.toNat < 12 then some (.pred n) else none
    | _, some j, _, _, _ => some (.mask j)
    | _, _, some k, _, _ => if k.toNat < 12 then some (.ctr k) else none
    | _, _, _, some x, _ => some (.sys x)
    | _, _, _, _, some n => match n.toNat with
      | 0 => some .pc
      | 1 => some .cause
      | 2 => some .value
      | 3 => none
      | k => some (.idx (BitVec.ofNat 2 (k - 4)))
    | _, _, _, _, _ => none

/-- The register field of DBG_SEL, for a fibre of a group: no lane register past its allocation. -/
def State.dbgReg? (s : State) (x : Group) (n : Nat) : Option DbgReg :=
  match dbgReg (s.regs.dbgSel.extractLsb' 12 16) with
  | some (.lane k) => if k < x.allocation n then some (.lane k) else none
  | r => r

/-- The debug stop state of a stopped fibre. -/
def Fibre.stopNow (f : Fibre) : Stop := f.stop.getD { q := f.pos, pc := f.pos.pc }

/-- The value of a register; the bits above an index register are a free choice of zeros or its sign. -/
def State.dbgValue (s : State) (x : Group) (r : FRef) (f : Fibre) : DbgReg → Dword
  | .lane k => 0#32 ++ f.r k
  | .pred n => dw (f.p n).toNat
  | .mask j => 0#32 ++ x.mask (r.f / 32) j
  | .ctr k => 0#58 ++ f.ctr k
  | .sys y => dw (({ s with cur := r } : State).sysValue x { f with flags := f.allFlags } y)
  | .pc => f.stopNow.pc
  | .cause => 0#56 ++ f.stopNow.cause
  | .value => f.stopNow.value
  | .idx i => if s.choose 61 2 = 0 then 0#48 ++ f.idx i else (f.idx i).signExtend 64

/-- Leave the access waiting for an outstanding write (R392). -/
def State.dbgHold (s : State) (w : DbgWait) : State :=
  { s with dbgWait := some w, regs := { s.regs with dbgStat := dbgStatus true false 0 } }

/-- Read or write a register of the selected fibre, once no write of it is outstanding; `u` acts where none is. While an
access waits, no other begins. -/
def State.dbgAccess (s : State) (value : Option Dword) (u : Group → FRef → Fibre → DbgReg → State) : State :=
  if s.dbgWait.isSome then s else s.onDbgFibre fun g x n f =>
    let r : FRef := ⟨g, n⟩
    match s.dbgReg? x n with
    | none => s.dbgResult 2
    | some k => match k with
      | .lane j => if s.dbgBusy r f false j then s.dbgHold { fib := r, reg := j, value } else u x r f k
      | .pred j => if s.dbgBusy r f true j.toNat then s.dbgHold { fib := r, pred := true, reg := j.toNat, value } else u x r f k
      | _ => u x r f k

def execDbgRead (s : State) : Out :=
  .next (s.dbgAccess none fun x r f k => { s with regs := { s.regs with dbgData := s.dbgValue x r f k } }.dbgResult 0)

/-- Write a register of a stopped fibre; none for one that is read only. -/
def State.dbgSet (s : State) (x : Group) (r : FRef) (v : Dword) : DbgReg → Option State
  | .lane k => some (s.updFibre r fun f => f.setR k (v.setWidth 32))
  | .pred n => some (s.updFibre r fun f => f.setP n (v.getLsbD 0))
  | .mask j => some ((s.setGroup r.g (x.setMask (r.f / 32) j (v.setWidth 32) (x.arrivedAt (r.f / 32) j))).settleRank r.g (r.f / 32))
  | .ctr _ => none
  | .sys _ => none
  | .pc => some (s.updFibre r fun f => { f with stop := some { f.stopNow with pc := v } })
  | .cause => some (s.updFibre r fun f => { f with stop := some { f.stopNow with cause := v.setWidth 8 } })
  | .value => some (s.updFibre r fun f => { f with stop := some { f.stopNow with value := v } })
  | .idx i => some (s.updFibre r fun f => f.setIdx i (v.setWidth 16))

def execDbgWrite (s : State) : Out :=
  .next (s.dbgAccess (some s.regs.dbgData) fun x r _ k => match s.dbgSet x r s.regs.dbgData k with
    | some t => t.dbgResult 0
    | none => s.dbgResult 3)

/-- Discard a group: it is gone, and its launch never counts it (R375). -/
def State.discard (s : State) (g : Nat) : State :=
  match s.group? g with
  | none => s
  | some x =>
    let s1 := match x.core? with
      | some c => s.writeBack c (s.ctx x.ctx).asid
      | none => s
    let y := (s1.group? g).getD x
    let s2 := match y.gslot with
      | some v => s1.postFault x.ctx v.body
      | none => s1
    let s3 := match Tab.find s2.launches x.launch with
      | some l => s2.setLaunch x.launch { l with dead := true }
      | none => s2
    (s3.setGroup g { y with loc := .ended, fibres := [], tasks := [], gslot := none, faulted := false, stuck := false }).settlePreempts

def execDbgDiscard (s : State) : Out :=
  .next (s.onDbgGroup fun g x => if x.faulted || x.stuck then (s.discard g).dbgResult 0 else s.dbgResult 2)

/-- Codes 6 to 15. -/
def execDbgBadOperation (_code : BitVec 4) (s : State) : Out :=
  .next (s.dbgResult 3)

/-! ### Heartbeats (R389) -/

def execHeartbeat (c : Nat) (s : State) : Out := .next (s.setCore c { s.core c with missed := 0 })

/-- Lines of a core are lost, or written back. -/
def State.dropCore (s : State) (c : Nat) (lost : Bool) : State :=
  if lost then s else (s.core c).lines.foldl State.writeLine s

/-- The capture of a core: sys.CYCLE, and bytes that no rule states. -/
def State.capture (s : State) (c : Nat) : State :=
  let a := bits s.regs.hbBase.toNat 29 0 + 65536 * c
  s.sramWrite a (leBytes 8 s.cycle ++ (List.range 65528).map fun i => Config.freeByte s.tick (a + 8 + i))

/-- Halt a core (R389): its capture, its place in a paddock, a record for each context that had a group on it, and its
groups; a paddock left with too few cores holds no group (R366). -/
def State.haltCore (s : State) (c : Nat) (lost : Bool) : State :=
  let gs := s.residents c
  let gone := lost && (s.core c).lines.any fun l => l.dirty.any id
  let s1 := (s.dropCore c lost).capture c
  let s2 : State := { s1.setCore c { s1.core c with halted := true, retired := true, lines := [], fbuf := [], missed := 0 } with
    regs := { s1.regs with corePad := Tab.set 0#64 c (s1.corePad c &&& ~~~0x80#64) s1.regs.corePad }
    ops := s1.ops.filter fun o => !(gs.any (fun p => p.1 == o.fib.g) && (o.beforeSave || match o.kind with
      | .sweep _ => true
      | _ => false)) }
  let s3 := ((gs.map (·.2.ctx)).eraseDups).foldl (fun t k =>
    let a := (t.ctx k).asid
    t.postFault k (faultRec 0x51#8 0#8 a (t.genOf a) c 0 0#64 0#64 (dw gone.toNat))) s2
  ((gs.map (·.1)).foldl State.discard s3).emptyPads

/-- The second missed beat in a row halts the core. -/
def execHeartbeatMiss (c : Nat) (lost : Bool) (s : State) : Out :=
  .next (
    let k := s.core c
    if k.halted || s.mgmtDown || decide (c ≥ 320) then s
    else if k.missed + 1 ≥ 2 then s.haltCore c lost
    else s.setCore c { k with missed := k.missed + 1 })

end Sys2Proof.Machine
end

