-- ==== Sys2Proof/Machine/Optics.lean ====
section
/-! DEFINITION. Optical events (R393 to R396), provisioning (R397, R398), key loading (R399), firmware and attestation
(R400 to R402), reset and the safe state (R403, R404), laser sources and power (R405, R406), and host reads (R369). -/

namespace Sys2Proof.Machine

/-! ### The optical event ring (R393) -/

/-- A LOG below 4 is taken as 4, and one above 12 as 12. -/
def optRingTaken (w : Dword) : Dword := (w &&& mask 29 0) ||| dw (2 ^ 32 * min 12 (max 4 (bits w.toNat 35 32)))

def execOptRing (v : HVal) (s : State) : Out :=
  .next { s with regs := { s.regs with optRing := optRingTaken (regTo v s.regs.optRing) } }

/-- Put a record into the ring; a full ring counts it as lost. -/
def State.pushOptical (s : State) (rec : List Dword) : State :=
  let r := s.regs
  let log := bits r.optRing.toNat 35 32
  if (r.optTail - r.optHead).toNat = 2 ^ log then { s with regs := { r with optLost := r.optLost + 1#32 } }
  else
    let a := bits r.optRing.toNat 29 0 + 32 * (r.optTail.toNat % 2 ^ log)
    let s1 := s.sramWrite a ((rec.map fun q => leBytes 8 q.toNat).flatten)
    ({ s1 with regs := { s1.regs with optTail := r.optTail + 1#32 } }).raise (bits r.optVec.toNat 11 0)

/-- Post a record of an event that is detected now; while the management core restarts it is held (R401). -/
def State.postOptical (s : State) (code target spares wl : Nat) (ingress : Bool) (e : Nat) (delay : Dword) : State :=
  let q := code + 2 ^ 8 * e + 2 ^ 13 * ingress.toNat + 2 ^ 16 * wl + 2 ^ 24 * spares + 2 ^ 32 * target
  let rec_ : List Dword := [dw q, dw s.cycle, delay, 0#64]
  if s.mgmtDown then { s with optHeld := s.optHeld ++ [rec_] } else s.pushOptical rec_

/-! ### Engines and their links (R394 to R396) -/

def optKey (e : Nat) (ingress : Bool) : Nat := 2 * e + ingress.toNat
def State.optDir (s : State) (e : Nat) (ingress : Bool) : OptDir := Tab.get {} s.optDirs (optKey e ingress)
def State.setOptDir (s : State) (e : Nat) (ingress : Bool) (d : OptDir) : State :=
  { s with optDirs := Tab.set {} (optKey e ingress) d s.optDirs }

/-- An event names an engine, a wavelength and a module of the package. -/
def optNames (e wl m : Nat) : Bool := decide (e < 24) && decide (wl < 68) && decide (m < 64)

/-- The first byte of a transfer in a module that engine `e` carries traffic of. -/
def State.usesEngine (s : State) (o : Op) (x : Xfer) (e : Nat) : Option Nat :=
  ((parts x.ranges).find? fun r => match s.pageOf (s.ctx o.ctx).asid (dw r.1) with
    | some p => p.tier == .far && ((Tab.get none s.provs (p.target / 2 ^ 24)).map fun v => v.engines.getLsbD e).getD false
    | none => false).map (·.1)

/-- Wavelengths that carry traffic, and spares left (R396). -/
def OptDir.active (d : OptDir) : Nat := 64 - d.dropped.length
def OptDir.spares (d : OptDir) : Nat := 4 - d.remap.length

/-- A wavelength that carries traffic: one of the first 64, or a spare in the place of another; spares are taken from the
lowest. -/
def OptDir.inUse (d : OptDir) (wl : Nat) : Bool :=
  decide (wl < 64 + d.remap.length) && (Tab.find d.remap wl).isNone && !d.dropped.contains wl

/-- The lowest free spare takes the place of a wavelength, and serves the module it served (R394, R398). -/
def OptDir.toSpare (d : OptDir) (wl : Nat) : OptDir :=
  let n := 64 + d.remap.length
  { d with remap := Tab.put wl n d.remap
           owner := match Tab.find d.owner wl with
             | some m => Tab.put n m (Tab.del wl d.owner)
             | none => d.owner }

/-- A wavelength is dropped. -/
def OptDir.drop (d : OptDir) (wl : Nat) : OptDir := { d with dropped := wl :: d.dropped, owner := Tab.del wl d.owner }

/-- Engines that are up among those that carry a module's traffic. -/
def State.upEngines (s : State) (m : Nat) : List Nat :=
  match Tab.get none s.provs m with
  | none => []
  | some p => (List.range 24).filter fun e => p.engines.getLsbD e && s.engineUp e

/-- Every transfer and engine entry in flight on an engine and direction ends with TRANSPORT (R394). A module's traffic is
spread over its engines that are up, and a transfer crosses both directions, with its requests and with its bytes: where no
other engine of the module is up, its transfers and entries are in flight on this one for certain; where another is, each of
them is, as a free choice (assumption 25). -/
def State.failInFlight (s : State) (e : Nat) (t : State) : State :=
  let only (m : Nat) : Bool := ((s.upEngines m).filter fun k => k != e).isEmpty
  let modOf (va ctx : Nat) : Nat := ((s.pageOf (s.ctx ctx).asid (dw va)).map fun p => p.target / 2 ^ 24).getD 64
  { t with
    ops := t.ops.map fun o => match o.kind with
      | .xfer x => match s.usesEngine o x e with
        | some va =>
          if x.accepted && x.kill.isNone && (only (modOf va o.ctx) || s.choose (1000 + o.id) 2 == 0) then
            { o with kind := .xfer { x with kill := some (0x05#8, va) } } else o
        | none => o
      | _ => o
    slots := t.slots.map fun p =>
      if ((Tab.get none s.provs (p.1 / 256)).map fun v => v.engines.getLsbD e).getD false then
        (p.1, { p.2 with entries := p.2.entries.map fun x =>
          if x.result.isNone && (only (p.1 / 256) || s.choose (2000 + 4096 * x.hnd + x.num) 2 == 0) then
            { x with result := some 0x05#8 } else x })
      else p }

/-- An engine and direction carries nothing any more, and what is in flight on it ends. -/
def State.dirDark (s : State) (e : Nat) (ingress : Bool) : State :=
  s.failInFlight e (s.setOptDir e ingress { s.optDir e ingress with down := true, retraining := false })

/-- An engine and direction goes down: what is in flight on it ends, and the event is reported (R394, R395). -/
def State.dirDown (s : State) (e : Nat) (ingress : Bool) (m : Nat) : State :=
  (s.dirDark e ingress).postOptical 0x07 m (s.optDir e ingress).spares 0 ingress e 0#64

/-- A direction in which an event may fall: in service, or retraining after OE_RESET. -/
def OptDir.live (d : OptDir) : Bool := !d.down || d.retraining

/-- What an event adds to a transfer in flight, in ns, within its bound (R19, R394). -/
def delayIn (bound : Nat) (delay : Dword) : Dword := dw (min bound delay.toNat)

/-- WL_FAIL: a wavelength is remapped to a spare. -/
def execWlFail (e : Nat) (ingress : Bool) (wl m : Nat) (delay : Dword) (s : State) : Out :=
  .next (
    let d := s.optDir e ingress
    if !optNames e wl m || d.spares == 0 || !d.live || !d.inUse wl then s
    else (s.setOptDir e ingress (d.toSpare wl)).postOptical 0x01 m (d.spares - 1) wl ingress e (delayIn 15000 delay))

/-- WL_DROP: with no spare free, a wavelength is dropped; with fewer than 16 left the link is down. -/
def execWlDrop (e : Nat) (ingress : Bool) (wl m : Nat) (delay : Dword) (s : State) : Out :=
  .next (
    let d := s.optDir e ingress
    if !optNames e wl m || d.spares != 0 || !d.live || !d.inUse wl then s
    else
      let s1 := (s.setOptDir e ingress (d.drop wl)).postOptical 0x02 m 0 wl ingress e (delayIn 15000 delay)
      if d.active - 1 < 16 && !d.down then s1.dirDown e ingress m else s1)

/-- LASER_AGE: a report only. The fields that name an engine read 0. -/
def execLaserAge (src : Nat) (s : State) : Out :=
  .next (if src < 6 then s.postOptical 0x03 src 0 0 false 0 0#64 else s)

/-- RETRAIN: loss of lock; an interrupted retraining begins afresh. -/
def State.retrainDir (s : State) (e : Nat) (ingress : Bool) (m : Nat) (delay : Dword) : State :=
  let d := s.optDir e ingress
  if !d.live then s else (s.setOptDir e ingress { d with retraining := true }).postOptical 0x04 m d.spares 0 ingress e (delayIn 80000 delay)

def execRetrain (e : Nat) (ingress : Bool) (m : Nat) (delay : Dword) (s : State) : Out :=
  .next (if optNames e 0 m then s.retrainDir e ingress m delay else s)

/-- LANE_SPARE: a planned move to a spare. -/
def execLaneSpare (e : Nat) (ingress : Bool) (wl m : Nat) (s : State) : Out :=
  .next (
    let d := s.optDir e ingress
    if !optNames e wl m || d.spares == 0 || !d.live || !d.inUse wl then s
    else (s.setOptDir e ingress (d.toSpare wl)).postOptical 0x05 m (d.spares - 1) wl ingress e 0#64)

/-- The engines that a source feeds. -/
def fedBy (src : Nat) : List Nat := (List.range 24).filter fun e => e / 4 == src || (e / 4 + 1) % 6 == src

/-- Both laser sources of an engine are dark. -/
def State.bothDark (s : State) (e : Nat) : Bool := s.darkSources.contains (e / 4) && s.darkSources.contains ((e / 4 + 1) % 6)

/-- A module that an engine carries traffic of, for the record of an event that concerns the whole engine: any. -/
def State.moduleOf (s : State) (e : Nat) : Nat :=
  let ms := (s.provs.filter fun p => (p.2.map fun v => v.engines.getLsbD e).getD false).map (·.1)
  (ms[s.choose (70 + e) ms.length]?).getD 0

/-- An engine retrains in both directions, as one event whose record names either. -/
def State.retrainEngine (s : State) (e : Nat) (delay : Dword) : State :=
  let i := s.choose (100 + e) 2 == 1
  let d := s.optDir e !i
  let s1 := if d.live then s.setOptDir e (!i) { d with retraining := true } else s
  if (s1.optDir e i).live then s1.retrainDir e i (s.moduleOf e) delay
  else if d.live then s1.postOptical 0x04 (s.moduleOf e) d.spares 0 (!i) e (delayIn 80000 delay) else s1

/-- Both directions of an engine go down, where they are not. -/
def State.engineDown (s : State) (e : Nat) : State :=
  [false, true].foldl (fun (t : State) i => if (t.optDir e i).down then t else t.dirDown e i (s.moduleOf e)) s

/-- An engine loses a source: it retrains on its partner, or is down where that is dark too (R394, R395). -/
def State.loseSource (s : State) (e : Nat) (delay : Dword) : State :=
  if s.bothDark e then s.engineDown e else s.retrainEngine e delay

/-- SOURCE_LOST: the source goes dark. -/
def execSourceLost (src : Nat) (delay : Dword) (s : State) : Out :=
  .next (if src ≥ 6 || s.darkSources.contains src then s else
    let s1 := { s with darkSources := src :: s.darkSources }.postOptical 0x06 src 0 0 false 0 (delayIn 80000 delay)
    ((fedBy src).filter fun _ => !s.offSources.contains src).foldl (fun t e => t.loseSource e delay) s1)

def execLinkDown (e : Nat) (ingress : Bool) (m : Nat) (s : State) : Out :=
  .next (if optNames e 0 m && !(s.optDir e ingress).down then s.dirDown e ingress m else s)

/-- RETRAINING_COMPLETE: in service again, unless fewer than 16 wavelengths remain or no source is lit, or a failed
retraining, of which three in a row take the link down (R395). -/
def execRetrainingComplete (e : Nat) (ingress ok : Bool) (s : State) : Out :=
  .next (
    let d := s.optDir e ingress
    if !d.retraining then s
    else if ok then s.setOptDir e ingress
      { d with retraining := false, fails := 0, down := decide (d.active < 16) || s.bothDark e }
    else if d.fails + 1 ≥ 3 then
      if d.down then s.setOptDir e ingress { d with retraining := false, fails := d.fails + 1 }
      else (s.setOptDir e ingress { d with fails := d.fails + 1 }).dirDown e ingress (s.moduleOf e)
    else s.setOptDir e ingress { d with fails := d.fails + 1 })

/-- OE_RESET: a down engine retrains; it carries no traffic until that ends well (R395). -/
def execOeReset (e : BitVec 5) (s : State) : Out :=
  .next ([false, true].foldl (fun (t : State) i =>
    let d := t.optDir e.toNat i
    if e.toNat < 24 ∧ d.down then t.setOptDir e.toNat i { d with retraining := true, fails := 0 } else t) s)

/-! ### Laser sources (R405) -/

/-- LS_OFF: the engines the source feeds move to their partners with a RETRAIN each; then nothing draws from it, and it
may be removed. -/
def execLsOff (src : BitVec 3) (s : State) : Out :=
  .next (
    let n := src.toNat
    if n ≥ 6 || s.offSources.contains n then s else
    let s1 : State := { s with offSources := n :: s.offSources, darkSources := n :: s.darkSources.erase n }
    if s.darkSources.contains n then s1
    else (fedBy n).foldl (fun t e => t.loseSource e (dw (s.choose (80 + e) 80001))) s1)

/-- LS_ON: a new source is lit, and its engines draw from it again, with no event; in the safe state lasers stay dark
(R404). -/
def execLsOn (src : BitVec 3) (s : State) : Out :=
  .next (if src.toNat ≥ 6 || s.isSafe then s else
    { s with darkSources := s.darkSources.erase src.toNat, offSources := s.offSources.erase src.toNat })

/-! ### Provisioning (R397, R398) -/

/-- A transfer, FATOM or engine entry to module `m` that was accepted before its drain is not complete. -/
def State.inFlight (s : State) (m : Nat) : Bool :=
  let since := ((Tab.get none s.provs m).bind (·.drained)).getD s.nextId
  (s.ops.any fun o => match o.kind with
    | .xfer x => x.accepted && !x.refused.contains m && (parts x.ranges).any fun r =>
        match s.pageOf (s.ctx o.ctx).asid (dw r.1) with
        | some p => p.tier == .far && p.target / 2 ^ 24 == m
        | none => false
    | .fatom near a _ _ _ _ _ _ _ => !near && a / 2 ^ 40 == m && decide (o.id < since)
    | _ => false) ||
  s.slots.any fun p => p.1 / 256 == m && p.2.entries.any fun e => !e.late

/-- PROV_STAT.BUSY: a drain waits for earlier traffic. -/
def State.provBusy (s : State) : Bool :=
  match s.draining with
  | some m => s.inFlight m
  | none => false

def State.provResult (s : State) (r : Nat) : State := { s with regs := { s.regs with provStat := dw r } }

/-- Act on a command written while BUSY = 0. -/
def State.onProv (s : State) (u : State → State) : State := if s.provBusy then s else u { s with draining := none }

/-- Entry `m` of the table, if it keeps R397. -/
def State.provEntry (s : State) (m : Nat) : Option (Prov × BitVec 16 × BitVec 8) :=
  let base := bits s.regs.provBase.toNat 29 0
  let q := s.sramWord (base + 16 * m) 16
  let wl := bits q 63 57
  if base % 1024 ≠ 0 ∨ wl < 1 ∨ wl > 64 ∨ bits q 56 0 ≠ 0 then none
  else some ({ fab := BitVec.ofNat 16 (bits q 127 112), engines := BitVec.ofNat 24 (bits q 87 64), wlcnt := wl },
    BitVec.ofNat 16 (bits q 111 96), BitVec.ofNat 8 (bits q 95 88))

/-- Wavelengths of a direction that carry traffic and that no module but `m` holds. -/
def OptDir.freeFor (d : OptDir) (m : Nat) : List Nat :=
  (List.range 68).filter fun wl => d.inUse wl && (Tab.find d.owner wl == none || Tab.find d.owner wl == some m)

/-- A module holds no wavelength of a direction any more. -/
def OptDir.release (d : OptDir) (m : Nat) : OptDir := { d with owner := d.owner.filter fun p => p.2 != m }

/-- Give a module `n` wavelengths of a direction: the lowest (assumption 26). -/
def OptDir.assign (d : OptDir) (m n : Nat) : OptDir :=
  { d with owner := ((d.freeFor m).take n).foldl (fun t wl => Tab.put wl m t) (d.release m).owner }

/-- Change both directions of a list of engines. -/
def State.onDirs (s : State) (es : List Nat) (u : OptDir → OptDir) : State :=
  es.foldl (fun t e => [false, true].foldl (fun (t : State) i => t.setOptDir e i (u (t.optDir e i))) t) s

/-- The engines of an entry. -/
def Prov.engineList (v : Prov) : List Nat := (List.range 24).filter fun e => v.engines.getLsbD e

/-- Every engine of the entry has the wavelengths in both directions. -/
def State.wlFree (s : State) (m : Nat) (v : Prov) : Bool :=
  v.engineList.all fun e => [false, true].all fun i => decide (v.wlcnt ≤ ((s.optDir e i).freeFor m).length)

/-- Another module is found at a fabric address that none is provisioned at: it was exchanged (R405). Its storage reads as
assumption 3 has it. -/
def State.newModule (s : State) (fab : Nat) : State :=
  { s with far := s.far.filter fun c => c.1 / 2 ^ 40 != fab
           sectorKey := s.sectorKey.filter fun c => c.1 / 2 ^ 33 != fab
           meta_ := s.meta_.filter fun c => c.1 / 2 ^ 24 != fab
           farErr := s.farErr.filter fun a => a / 2 ^ 40 != fab }

/-- A module's transducer lanes at provisioning: one row of 0xFFF0_0000 each (R296). -/
def State.resetLanes (s : State) (m : Nat) : State := { s with lanes := s.lanes.filter fun p => p.1 / 16 != m }

/-- Set a module up: its table entry, its lanes, its wavelengths and the owner of copy slot 7. -/
def State.attach (s : State) (m : Nat) (v : Prov) (own : Owner) : State :=
  let used := s.provs.any fun p => (p.2.map (·.fab)) == some v.fab
  let s1 := if !used && s.choose 71 2 == 1 then s.newModule v.fab.toNat else s
  let s2 : State := { (s1.resetLanes m).onDirs (List.range 24) (·.release m) with provs := Tab.set none m (some v) s.provs }
  let j := 256 * m + 7
  (s2.onDirs v.engineList (·.assign m v.wlcnt)).setSlot j { s.slot j with owner := some own }

/-- Provision: the result of attestation and link set-up is the module's (R398, R402). -/
def execProvision (m : BitVec 6) (s : State) : Out :=
  .next (s.onProv fun s =>
    let k := m.toNat
    match s.provEntry k with
    | none => s.provResult 0x03
    | some (v, a, g) =>
      let r := (Config.attest s.tick k).toNat
      if r = 1 ∨ r = 3 ∨ r = 5 then s.provResult r
      else if !s.wlFree k v then s.provResult 0x02
      else
        (s.attach k v ⟨BitVec.ofNat 10 s.ownPeer, a, g⟩).provResult 0)

/-- Drain: BUSY stays set until every earlier transfer and entry has completed. -/
def execDrain (m : BitVec 6) (s : State) : Out :=
  .next (s.onProv fun s =>
    match Tab.get none s.provs m.toNat with
    | none => s.provResult 0
    | some v => ({ s with provs := Tab.set none m.toNat (some { v with drained := some (v.drained.getD s.nextId) }) s.provs
                          draining := some m.toNat }).provResult 0)

/-- Release: a drained module's wavelengths and slot owners are freed. -/
def execRelease (m : BitVec 6) (s : State) : Out :=
  .next (s.onProv fun s =>
    match Tab.get none s.provs m.toNat with
    | none => s.provResult 0x04
    | some v =>
      if v.drained.isNone then s.provResult 0x04
      else
        let slots := s.slots.foldl (fun t p =>
          if p.1 / 256 = m.toNat then Tab.set {} p.1 { p.2 with owner := none } t else t) s.slots
        ({ s with provs := Tab.set none m.toNat none s.provs, slots }.onDirs (List.range 24) (·.release m.toNat)).provResult 0)

/-- Operation 3. -/
def execProvIgnored (_m : BitVec 6) (s : State) : Out := .next s

/-! ### Keys, firmware, attestation (R399 to R402) -/

/-- No key is loaded in the safe state (R404). -/
def execKeyLoad (slot : BitVec 13) (k1 k2 : BitVec 256) (s : State) : Out :=
  .next (if s.isSafe then s else { s with keys := Tab.put slot.toNat (some (k1, k2)) s.keys })

def ImageClass.num : ImageClass → Nat
  | .commandProcessor => 0 | .larkCore => 1 | .managementCore => 2 | .controlSequencer => 3

/-- An accepted image comes into force. -/
def State.setImage (s : State) (n : Nat) (v : Nat × Nat) : State := { s with images := Tab.put n v s.images }

/-- Cores that hold a group keep their control sequencer's image until they hold none (R401). -/
def State.keepSequencers (s : State) : State :=
  { s with cores := s.busyCores.foldl (fun t c =>
      let k : Core := Tab.get {} t c
      Tab.set {} c { k with oldSeq := k.oldSeq.or (some (Tab.get (0, 0) s.images 3)) } t) s.cores }

/-- An accepted image, by class (R400, R401): the command processors stop between packets and restart, the lark cores once no
collective is in progress; each core's control sequencer is replaced when it holds no group; the management core restarts and
counts every heartbeat afresh, and in the safe state its image takes effect at the next reset (R404). -/
def execFirmwareImage (cls : ImageClass) (image version : Nat) (s : State) : Out :=
  .next (
    let n := ImageClass.num cls
    let v := (image, version)
    if !Config.signed n image || decide (version < Config.fusedMin n) then s
    else match cls with
      | .commandProcessor => { s.setImage n v with cpDown := true }
      | .larkCore => { s with larkNext := some v }
      | .controlSequencer => s.keepSequencers.setImage n v
      | .managementCore =>
        if s.isSafe then { s with nextMgmt := some v }
        else { s.setImage n v with mgmtDown := true, cores := s.cores.map fun p => (p.1, { p.2 with missed := 0 }) })

/-- The answer about one measurement block (R402): the boot ROM and the fuse map, the four images in force, and POST_STAT. -/
def State.measurement (s : State) (index : Nat) : Option (List Byte) :=
  let image (n : Nat) : List Byte := let v := Tab.get (0, 0) s.images n; Config.measure n v.1 v.2
  match index with
  | 1 => some (Config.measureRom s.badCores)
  | 2 => some (image 2)
  | 3 => some (image 0)
  | 4 => some (image 1)
  | 5 => some (image 3)
  | 6 => some (leBytes 8 s.regs.postStat.toNat)
  | _ => none

def execSpdmRequest (index : Nat) (s : State) : Out :=
  .next (match s.measurement index with
    | some bs => { s with outbox := s.outbox ++ [.spdm bs] }
    | none => s)

/-! ### Power and the safe state (R404, R406) -/

/-- A value outside 1,500 to 4,600 is taken as 4,600. -/
def pwrCapTaken (w : Dword) : Dword :=
  let n := bits w.toNat 12 0
  if 1500 ≤ n ∧ n ≤ 4600 then dw n else 4600#64

def execPwrCap (v : HVal) (s : State) : Out :=
  .next { s with regs := { s.regs with pwrCap := pwrCapTaken (regTo v s.regs.pwrCap) } }

/-- POWER_CAP_CROSSING: above the cap the clock falls by steps of 50 MHz, as many as it takes; how many, and its recovery
below the cap, are free. It never leaves 800 to 1,900 MHz. -/
def execPowerCapCrossing (watts : Nat) (s : State) : Out :=
  .next (
    let k := s.choose 63 23
    if watts > s.regs.pwrCap.toNat then { s with clockMHz := max 800 (s.clockMHz - 50 * (k + 1)) }
    else { s with clockMHz := min 1900 (s.clockMHz + 50 * k) })

/-- The safe state: POST_STAT holds the code, every laser is dark, so that every link is down (R404, R395), and what was in
flight ends. -/
def State.enterSafe (s : State) (unit code : Nat) : State :=
  let s1 := (List.range 24).foldl (fun (t : State) e => (t.dirDark e false).dirDark e true) s
  { s1 with regs := { s1.regs with postStat := dw (2 ^ 63 + 2 ^ 62 + 2 ^ 8 * unit + code) }, darkSources := List.range 6 }

/-- THERMAL_TRIP, at the lowest clock: every core is halted as under R389, and the package enters the safe state. The
unit that POST_STAT names, and whether a core's lines can be read, are free. -/
def execThermalTrip (s : State) : Out :=
  .next (if s.clockMHz != 800 || s.isSafe then s else
    let halted := ((List.range 320).filter fun c => !(s.core c).halted).foldl (fun t c => t.haltCore c (t.choose (3000 + c) 2 == 1)) s
    halted.enterSafe (s.choose 64 256) 0x07)

/-! ### Reset (R403) -/

/-- The unit that a failing test names (R403): an image's class, a die, a link of the three between the dies, an engine, or a
sensor. -/
def State.testUnit (s : State) (code : Nat) : Nat :=
  match code with
  | 1 => 0
  | 2 => 2 * s.choose 67 2
  | 3 => s.choose 67 3
  | 4 => s.choose 67 3
  | 5 => s.choose 67 3
  | 6 => s.choose 67 24
  | _ => s.choose 67 256

/-- Built cores that fail their test in this self-test, as free choices, beside those retired before (R403). -/
def State.failingCores (s : State) : List Nat :=
  s.badCores ++ (List.range 324).filter fun c => !s.badCores.contains c && s.choose (7000 + c) 2 == 1

/-- A test fails: that of the cores where fewer than 320 of the 324 built ones pass, any other as a free choice. -/
def State.testFails (s : State) (k : Nat) : Bool :=
  if k = 5 then decide (324 - s.failingCores.length < 320) else s.choose (65 + 1000 * k) 2 == 1

/-- The self-test comes to the test of the cores: the four before it pass. -/
def State.coresTested (s : State) : Bool := !(List.range 5).any fun k => k != 0 && s.testFails k

/-- The self-test's outcome: all passed, or the first failing test and its unit (assumption 27). -/
def State.selfTest (s : State) : Option (Nat × Nat) :=
  ((List.range 8).find? fun k => k != 0 && s.testFails k).map fun k => (k, s.testUnit k)

/-- What a reset leaves in place: the host's and the modules' memory, what reaches the package from outside, the images and
the fuse map, in which the cores are retired that fail where they are tested, and the model's own counters. DESIGN CHOICE
(assumption 27): system software rebuilds the map at every reset, so that a number retired before may be handed out again (R15). -/
def State.kept (s : State) : State :=
  let lark := match s.larkNext with
    | some v => Tab.put 1 v s.images
    | none => s.images
  let images := match s.nextMgmt with
    | some v => Tab.put 2 v lark
    | none => lark
  { State.reset with
    tick := s.tick, inbox := s.inbox, nextId := s.nextId, far := s.far, hostMem := s.hostMem, meta_ := s.meta_
    sectorKey := s.sectorKey, farErr := s.farErr, images, badCores := if s.coresTested then s.failingCores else s.badCores }

/-- RESET: the package as after reset, with the result of its self-test; on a failure it is in the safe state, its cores
off and its lasers dark (R404). -/
def execReset (s : State) : Out :=
  .next (match s.selfTest with
    | none => s.kept
    | some (code, unit) =>
      let t := s.kept.enterSafe unit code
      { t with cores := (List.range 320).map fun c => (c, { halted := true }) })

/-! ### Host reads (R368, R369) -/

/-- OE_STAT of an engine (R396). -/
def State.oeStat (s : State) (e : Nat) : Dword :=
  let i := s.optDir e true
  let o := s.optDir e false
  dw ((s.engineUp e).toNat * 2 ^ 63 + i.active * 2 ^ 48 + o.active * 2 ^ 40 + i.spares * 2 ^ 32 + o.spares * 2 ^ 26 +
    e / 4 * 8 + (e / 4 + 1) % 6)

/-- LS_STAT of a source (R405). -/
def State.lsStat (s : State) (k : Nat) : Dword :=
  dw ((!s.darkSources.contains k).toNat + 2 * (!s.darkSources.contains k && !s.offSources.contains k).toNat)

/-- HQ_STAT of a queue (R352). -/
def State.hqStat (s : State) (q : Nat) : Dword :=
  dw ((match s.queueState q with
    | .idle => 0
    | .running => 1
    | .halted => 2
    | .error => 3) * 2 ^ 62 + (s.queue q).reason.toNat * 2 ^ 56)

/-- A register of the queue blocks. -/
def State.queueReg (s : State) (q r : Nat) : Dword :=
  let v := s.queue q
  if r = 0x00 then v.base else if r = 0x08 then v.ctl else if r = 0x10 then 0#32 ++ v.tail
  else if r = 0x18 then 0#32 ++ v.head else if r = 0x20 then s.hqStat q else 0#64

/-- What a host read of the 8-byte register at an offset of BAR0 returns; a register that starts an action reads 0 where
no rule says more, as an offset with no register does. -/
def State.hostReg (s : State) (off : Nat) : Dword :=
  let r := s.regs
  let arr (lo n : Nat) : Option Nat := if inArray off lo n then some ((off - lo) / 8) else none
  match off with
  | 0x00 => r.postStat
  | 0x08 => r.peerId
  | 0x10 => r.pwrCap
  | 0x18 => r.hbBase
  | 0x20 => r.ctxRoot
  | 0x28 => r.ptRoot
  | 0x30 => r.migBase
  | 0x38 => r.sramPool
  | 0x40 => r.sramIntake
  | 0x48 => r.sramLcache
  | 0x50 => r.inwinRoot
  | 0x58 => r.peerTmo
  | 0x1000 => r.tlbInvalVa
  | 0x1010 => r.tlbInvalDone
  | 0x1018 => 0#40 ++ s.genOf r.asidLast ++ 0#8 ++ r.asidStatus
  | 0x2000 => r.stepCtl
  | 0x2008 => r.stepSpill
  | 0x2010 => r.stepNum
  | 0x2018 => r.stepWdog
  | 0x3000 => r.optRing
  | 0x3008 => 0#32 ++ r.optTail
  | 0x3010 => 0#32 ++ r.optHead
  | 0x3018 => 0#32 ++ r.optLost
  | 0x3020 => r.optVec
  | 0x3030 => r.provBase
  | 0x3040 => r.provStat ||| (if s.provBusy then errBit else 0#64)
  | 0x4000 => r.dbgGrp
  | 0x4008 => r.dbgSel
  | 0x4018 => r.dbgStat
  | 0x4020 => r.dbgData
  | _ =>
    match arr 0x2080 16, arr 0x2100 8, arr 0x3080 6, arr 0x3100 24, arr 0x10000 320, arr 0x20000 64, arr 0x20400 64,
      arr 0x30000 1024, arr 0x40000 1024 with
    | some i, _, _, _, _, _, _, _, _ => Tab.get 0#64 r.stepDom i
    | _, some i, _, _, _, _, _, _, _ => s.collSel i
    | _, _, some i, _, _, _, _, _, _ => s.lsStat i
    | _, _, _, some i, _, _, _, _, _ => s.oeStat i
    | _, _, _, _, some i, _, _, _, _ => s.corePad i
    | _, _, _, _, _, some i, _, _, _ => s.padQuantum i
    | _, _, _, _, _, _, some i, _, _ => Tab.get 0#64 r.preemptDone i
    | _, _, _, _, _, _, _, some i, _ => Tab.get 0#64 r.dbgCtl i
    | _, _, _, _, _, _, _, _, some i => Tab.get 64#64 r.inQuota i
    | _, _, _, _, _, _, _, _, _ =>
      if 0x100000 ≤ off ∧ off < 0x110000 then s.queueReg ((off - 0x100000) / 64) (off % 64)
      else if 0x400000 ≤ off ∧ off < 0x800000 ∧ (off - 0x400000) % 4096 = 0 then
        0#32 ++ (s.queue ((off - 0x400000) / 4096)).tail
      else if bar2 ≤ off then s.bar2Reg (off - bar2)
      else 0#64

/-- What a host read of `size` bytes returns: a whole register, or either half of one; any other access reads 0 (R368). -/
def State.barRead (s : State) (off size : Nat) : Dword :=
  let v := s.hostReg (off / 8 * 8)
  if size = 8 ∧ off % 8 = 0 then v
  else if size = 4 ∧ off % 4 = 0 then v >>> (8 * (off % 8)) &&& 0xFFFFFFFF#64
  else 0#64

end Sys2Proof.Machine
end

