-- ==== Sys2Proof/Machine/Complete.lean ====
section
/-! DEFINITION. COUNTED_COMPLETION (R43, R47): the operations of one fibre that are outstanding are performed, each once
its order allows, and complete. -/

namespace Sys2Proof.Machine

/-- Perform an outstanding operation that no other event performs, if it may be performed now; a collective's result that
waits to be written is written. -/
def State.complete (s : State) (o : Op) : State :=
  match o.kind with
  | .ld .. => if s.nearHeld o then s else s.performNear o
  | .st .. => if s.nearHeld o then s else s.performNear o
  | .atom .. => if s.nearHeld o then s else s.performNear o
  | .land .. => s.performNear o
  | .ldp .. => if s.scratchHeld o then s else s.performScratch o
  | .stp .. => if s.scratchHeld o then s else s.performScratch o
  | .atomp .. => if s.scratchHeld o then s else s.performScratch o
  | .fatom near a key va op t x y d => if s.nearHeld o then s else s.performFatom o near a key va op t x y d
  | .rel off _ => if s.nearHeld o then s else s.performRel o off
  | .signal off host v add irq => s.performSignal o off host v add irq
  | .peer r => s.peerSend o r
  | .xfer _ => match s.xferDue o.id with
    | some (p, x) => match x.out with
      | some bs => s.collWrite p x bs
      | none => s
    | none => s
  | _ => s

def execCountedCompletion (o : Nat) (s : State) : Out :=
  .next (match s.op? o with
    | some p => s.complete p
    | none => s)

end Sys2Proof.Machine
end

