-- ==== Sys2Proof/Machine/Sheaf.lean ====
section
/-! DEFINITION. The clock and the sheaf former (R101 to R106, R112): the cycles of residency, the waits that end, the
sheaves of a round, and acceptance by a shared unit. -/

namespace Sys2Proof.Machine

/-! ### Waits that end (R96) -/

/-- The sequence of the object at an address has come to v, or its page is no longer one that ACQ may read: it takes its
checks afresh. The page is looked up as the test is made. -/
def State.seqOver (s : State) (asid : BitVec 16) (va : Dword) (v : Nat) : Bool :=
  match s.pageOf asid va with
  | some p => p.tier != .near || !p.rp || seqReached (s.sramWord (s.nearOff p va) 8 / 2 ^ 32) v
  | none => true

/-- What held a fibre's word holds it no longer. -/
def State.holdOver (s : State) (r : FRef) (x : Group) (f : Fibre) : Hold → Bool
  | .ctrs m => (List.range 12).all fun n => !m.getLsbD n || f.ctr (BitVec.ofNat 4 n) == 0#6
  | .regs rs => !rs.any (s.busyRegs r f.inc).contains
  | .room k => f.ctr k != 63#6
  | .code m => s.moduleUp m
  | .tasks => decide (x.tasks.length < 256)
  | .scratch => !s.scratchBusy r f.inc
  | .taken mask => !x.joined r.f f mask
  | .drain pod => !(s.undrained r f || (pod && s.podPending r f))
  | .chain hnd v => decide ((s.chain x.ctx hnd).done ≥ v) || (s.chain x.ctx hnd).failed
  | .chainBusy hnd k => (s.chain x.ctx hnd).fwd.isEmpty && !s.failing k x.ctx hnd
  | .pred => ((s.waitedPred x).map (·.complete)).getD true
  | .seq va v => s.seqOver (s.ctx x.ctx).asid va v
  | .own off n => !s.ownPending r f.inc off n

/-- A fibre whose wait has ended is ready, its age counted from the next cycle (R101). -/
def State.unhold (s : State) (r : FRef) (x : Group) (f : Fibre) : Fibre :=
  match f.stat with
  | .wait (.hold h) => if s.holdOver r x f h then f.wake s.cycle else f
  | _ => f

/-- Every fibre of a resident group whose wait has ended is ready. -/
def State.unholdAll (s : State) : State :=
  { s with groups := s.groups.map fun p =>
      (p.1, if p.2.core?.isSome then p.2.mapFibres fun n f => s.unhold ⟨p.1, n⟩ p.2 f else p.2) }

/-! ### Sheaves (R25, R101) -/

/-- The units of a (group, PC) pair packed into sheaves of up to 32 fibres, each kept together where it fits. -/
def packSheaves : List (List Nat) → List Nat → List (List Nat)
  | [], cur => if cur.isEmpty then [] else [cur]
  | r :: t, cur => if cur.length + r.length ≤ 32 then packSheaves t (cur ++ r) else cur :: packSheaves t r

/-- A ready (group, PC) pair: its group, its turn among equal ages, its age, and its fibres. -/
structure ReadyPair where
  g : Nat
  turn : Nat
  age : Nat
  fibres : List Nat

/-- The ready pairs of one group, in the order of their lowest fibres. -/
def readyPairs (g turn : Nat) (x : Group) : List ReadyPair :=
  let fs := x.fibres.filter fun p => mayIssue x p.2 && !p.2.skip
  ((fs.map fun p => p.2.pos.pc).eraseDups).map fun pc =>
    let here := fs.filter fun p => p.2.pos.pc == pc
    { g, turn, age := here.foldl (fun a p => min a p.2.since) ((here.head?.map (·.2.since)).getD 0)
      fibres := here.map (·.1) }

/-- The fibres that issued a word with HINT.KEEP in one sheaf, all of them ready at this PC: they ask to stay together. -/
def Group.kept (x : Group) (here : List Nat) (f : Nat) : List Nat :=
  match (x.fibre? f).bind (·.keep) with
  | none => []
  | some k =>
    let all := (x.fibres.filter fun p => p.2.keep == some k).map (·.1)
    if all.all here.contains then all else []

/-- Join the units that some ranks stand in, where one sheaf holds what they join. -/
def joinRanks (here : List Nat) (units : List (List Nat)) (rs : List Nat) : List (List Nat) :=
  let hit := units.filter fun u => u.any rs.contains
  let j := hit.flatten
  if (here.filter fun f => j.contains (f / 32)).length ≤ 32 then j :: units.filter fun u => !u.any rs.contains else units

/-- The ranks at one PC, and those that HINT.KEEP joins: fibres that ask to stay together do so with the rest of their ranks
there, which R101 keeps together, and stand where the lowest of their ranks does (DESIGN CHOICE, assumption 57). -/
def Group.packUnits (x : Group) (here : List Nat) : List (List Nat) :=
  let units := ((here.map (x.kept here)).eraseDups.map fun k => (k.map (· / 32)).eraseDups).foldl (joinRanks here)
    ((here.map (· / 32)).eraseDups.map fun r => [r])
  (List.range 32).flatMap fun r =>
    (units.filter fun u => u.contains r && u.all fun q => decide (r ≤ q)).map fun u => here.filter fun f => u.contains (f / 32)

/-- The sheaves of one core's round, at most 16, oldest pair first; among equal ages the groups take turns, from one group
later in each round, and a group whose context's record breaks R350 runs nothing; among pairs of one group and age, that of the lower fibre number goes first (DESIGN CHOICE,
assumption 57). -/
def State.coreSheaves (s : State) (c : Nat) : List (Nat × List Nat) :=
  let gs := (s.residents c).filter fun p => s.ctxOk p.2.ctx
  let n := gs.length
  let pairs := gs.zipIdx.flatMap fun p => readyPairs p.1.1 ((p.2 + n - (s.core c).rr % n) % n) p.1.2
  let sorted := sortBy (fun a b : ReadyPair => decide (a.age < b.age) || (a.age == b.age && decide (a.turn < b.turn))) pairs
  (sorted.flatMap fun p => match s.group? p.g with
    | none => []
    | some x => (packSheaves (x.packUnits p.fibres) []).map fun sh => (p.g, sh)).take 16

/-- The picks of one core's round: the sheaves issue over four cycles, four in each. -/
def State.corePicks (s : State) (c base : Nat) : List Pick :=
  (s.coreSheaves c).zipIdx.flatMap fun p => p.1.2.map fun f =>
    { cyc := s.cycle + p.2 / 4, sheaf := base + p.2, core := c, fib := ⟨p.1.1, f⟩ }

/-- The sheaf former's round, in every fourth cycle. -/
def State.formSheaves (s : State) : State :=
  let cores := s.busyCores
  let s1 := { s with
    issue := cores.zipIdx.flatMap fun p => s.corePicks p.1 (s.nextId + 16 * p.2)
    nextId := s.nextId + 16 * cores.length
    groups := s.groups.map fun p => (p.1, p.2.mapFibres fun _ f => { f with skip := false }) }
  cores.foldl (fun t c => t.setCore c { t.core c with rr := (t.core c).rr + 1 }) s1

/-! ### Uncorrectable errors (assumption 37) -/

/-- One of a list, as a free choice. -/
def State.oneOf {α : Type} (s : State) (tag : Nat) (xs : List α) : Option α := xs[s.choose tag xs.length]?

/-- Byte `k` of a group's scratchpad is one that an outstanding LDP, LDC or ATOMP reads. -/
def State.scratchDue (s : State) (g k : Nat) : Bool :=
  s.ops.any fun o => o.sg == g && (match o.kind with
    | .ldp .. => true
    | .atomp .. => true
    | _ => false) && o.rd.any fun r => rangesMeet r (k, k + 1)

/-- Byte `a` of the shared SRAM is one that an outstanding LD or ATOM returns. -/
def State.nearDue (s : State) (a : Nat) : Bool :=
  s.ops.any fun o => (match o.kind with
    | .ld .. => true
    | .atom _ _ _ _ _ d => d.isSome
    | _ => false) && o.kind.nearRange.any fun r => rangesMeet r (a, a + 1)

/-- An uncorrectable soft error may appear at any time, in any of the places that an error-correcting code protects, but for
the bytes that an outstanding LD, ATOM, LDP, LDC or ATOMP is to return, whose fibre has gone on (assumption 37). -/
def State.softError (s : State) : State :=
  let k := Config.pick s.tick 11
  match Config.pick s.tick 10 % 10 with
  | 1 => if s.nearDue (k % sramSize) then s else { s with sramErr := k % sramSize :: s.sramErr }
  | 2 => { s with farErr := k :: s.farErr }
  | 3 => match s.oneOf 12 s.cores with
    | none => s
    | some p =>
      let i := Config.pick s.tick 13 % 128
      s.setCore p.1 { p.2 with lines := p.2.lines.zipIdx.map fun l =>
        if l.2 = k % p.2.lines.length ∧ ¬ s.nearDue (128 * l.1.line + i) then { l.1 with err := i :: l.1.err } else l.1 }
  | n => match s.oneOf 12 s.groups with
    | none => s
    | some p =>
      let x := p.2
      match n with
      | 4 => if s.scratchDue p.1 k then s else s.setGroup p.1 { x with scratchErr := k :: x.scratchErr }
      | 5 => s.setGroup p.1 { x with tileErr := k % 512 :: x.tileErr }
      | 6 => s.setGroup p.1 { x with active := { x.active with err := k % 256 :: x.active.err } }
      | 7 => s.setGroup p.1 { x with shadow := { x.shadow with err := k % 256 :: x.shadow.err } }
      | 8 =>
        let b := x.bank (BitVec.ofNat 3 k)
        s.setGroup p.1 (x.setBank (BitVec.ofNat 3 k) { b with err := Config.pick s.tick 13 % 128 :: b.err })
      | _ => s

/-! ### The clock -/

/-- A cycle passes for a resident group: JWAITT budgets run, from the cycle after the arrival, and a group that FORK suspends
stops (R112, R125). -/
def Group.tick (x : Group) (cycle : Nat) : Group :=
  if x.core?.isNone then x else
  { x.mapFibres fun _ f => match f.stat with
      | .wait (.join _ (some _)) => if f.since < cycle then { f with budget := f.budget - 1#16 } else f
      | _ => f with stopping := x.stopping || x.forked.isSome }

/-- This cycle is over: what was picked for it has issued, and no budget that ended in it is left (R112). -/
def State.cycleOver (s : State) : Bool :=
  !(s.issue.any fun p => decide (p.cyc ≤ s.cycle)) && !s.groups.any fun p => p.2.fibres.any fun q => budgetOut p.2 q.2

/-- A collective is in progress. -/
def State.collecting (s : State) : Bool :=
  s.ops.any fun o => match o.kind with
    | .xfer x => (match x.kind with
      | .ctile _ => true
      | _ => false)
    | _ => false

/-- A fibre holds a place of the lark cores that it has not used. -/
def State.larkGranted (s : State) : Bool := s.groups.any fun p => p.2.fibres.any fun q => q.2.grant == some .lark

/-- What restarts with a new image comes back, each by free choice: the command processors, the lark cores, and the
management core, which then posts what it has held and counts every heartbeat afresh. An image of the lark cores comes into
force once no collective is in progress and no CTILE has been given a place, one of a control sequencer on each core that holds no group (R401). -/
def State.restarts (s : State) : State :=
  let back (tag : Nat) : Bool := s.choose tag 2 == 1
  let s1 := if s.mgmtDown && back 81 then
      s.optHeld.foldl State.pushOptical { s with
        mgmtDown := false, optHeld := [], cores := s.cores.map fun p => (p.1, { p.2 with missed := 0 }) }
    else s
  let s2 : State := { s1 with
    cpDown := s1.cpDown && !back 82, larkDown := s1.larkDown && !back 83
    cores := s1.cores.map fun p => (p.1, if s1.coreBusy p.1 then p.2 else { p.2 with oldSeq := none }) }
  match s2.larkNext with
  | some v => if s2.collecting || s2.larkGranted then s2 else { s2.setImage 1 v with larkNext := none, larkDown := true }
  | none => s2

/-- What else goes on in a cycle: links acknowledge, messages and responses are sent, held requests of peers are tried again, what
restarts comes back, and an uncorrectable error may appear. -/
def State.background (s : State) : State := s.linkAcks.sendUnsent.sendResponses.retryPeers.restarts.softError

/-- The next cycle begins. -/
def State.nextCycle (s : State) : State :=
  let b := s.background
  { b with cycle := s.cycle + 1, groups := b.groups.map fun p => (p.1, p.2.tick s.cycle) }

/-- The next cycle begins; every fourth has a round. -/
def State.sheafRound (s : State) : State :=
  if !s.cycleOver then s else
  let t := s.nextCycle
  if t.cycle % 4 = 0 then t.formSheaves else t

def execSheafRound (s : State) : Out := .next s.sheafRound

/-! ### Shared units (R103) -/

/-- The fibres of a core that wait for a unit, with the cycle in which each began. -/
def State.unitWaiters (s : State) (c : Nat) (u : UnitId) : List (Nat × FRef) :=
  (s.residents c).flatMap fun p => (p.2.fibres.filter fun q => q.2.stat == .wait (.unit u)).map fun q =>
    (q.2.since, (⟨p.1, q.1⟩ : FRef))

/-- A fibre of the core holds room of the unit that it has not used. -/
def State.unitGranted (s : State) (c : Nat) (u : UnitId) : Bool :=
  (s.residents c).any fun p => p.2.fibres.any fun q => q.2.grant == some u

/-- A shared unit with room accepts a waiting instruction, one that began to wait no later than any other: its fibre issues
it again, and that room is kept for it. While a swap of its group is due, a load or multiply waits for the array with it
(R198, R202). -/
def State.unitAccept (s : State) (c : Nat) (u : UnitId) : State :=
  if !s.unitRoom c u || s.unitGranted c u then s else
  let ws := s.unitWaiters c u
  let first := ws.filter fun w => ws.all fun v => decide (w.1 ≤ v.1)
  match first[s.choose 8 first.length]? with
  | none => s
  | some w =>
    if u = .matrix ∧ ((s.group? w.2.g).map Group.swapDue).getD false then s
    else s.updFibre w.2 fun f => { f.wake s.cycle with grant := some u }

/-- At the UALink path a fibre waits for its request's payload to have room (R326). -/
def execSharedUnitAccept (c : Nat) (u : UnitId) (s : State) : Out :=
  .next (if u = .ualink ∧ s.unitWaiters c u = [] then s.acceptSend c else s.unitAccept c u)

end Sys2Proof.Machine
end

