-- ==== Sys2Proof/Machine/Dispatch.lean ====
section
/-! DEFINITION. The dispatch: one arm per instruction, a direct call of its meaning. -/

namespace Sys2Proof.Machine

def exec (i : Instr) (s : State) : Host.Outcome State Fault Refusal :=
  match i with
  | .clause c => Sys2Proof.Machine.execClause c s
  | .nop h => Sys2Proof.Machine.execNop h s
  | .yield h => Sys2Proof.Machine.execYield h s
  | .bra h imm => Sys2Proof.Machine.execBra h imm s
  | .brx h a => Sys2Proof.Machine.execBrx h a s
  | .call h d imm => Sys2Proof.Machine.execCall h d imm s
  | .ret h a => Sys2Proof.Machine.execRet h a s
  | .jset h m => Sys2Proof.Machine.execJset h m s
  | .jwait h m => Sys2Proof.Machine.execJwait h m s
  | .jwaitt h p m budget => Sys2Proof.Machine.execJwaitt h p m budget s
  | .jdrop h m => Sys2Proof.Machine.execJdrop h m s
  | .jwaittBudgetExpiry g f => Sys2Proof.Machine.execJwaittBudgetExpiry g f s
  | .fnew h d a b => Sys2Proof.Machine.execFnew h d a b s
  | .fend h => Sys2Proof.Machine.execFend h s
  | .bar h n => Sys2Proof.Machine.execBar h n s
  | .bara h n => Sys2Proof.Machine.execBara h n s
  | .barw h n => Sys2Proof.Machine.execBarw h n s
  | .cbar h => Sys2Proof.Machine.execCbar h s
  | .cbarx h => Sys2Proof.Machine.execCbarx h s
  | .task h d a b => Sys2Proof.Machine.execTask h d a b s
  | .taskWaveStart g => Sys2Proof.Machine.execTaskWaveStart g s
  | .fork h d a => Sys2Proof.Machine.execFork h d a s
  | .rxchg h d a b ty mode m => Sys2Proof.Machine.execRxchg h d a b ty mode m s
  | .rvote h d a mode m => Sys2Proof.Machine.execRvote h d a mode m s
  | .rred h d a ty op m => Sys2Proof.Machine.execRred h d a ty op m s
  | .sheafRound => Sys2Proof.Machine.execSheafRound s
  | .sharedUnitAccept c u => Sys2Proof.Machine.execSharedUnitAccept c u s
  | .groupSwitchOut g => Sys2Proof.Machine.execGroupSwitchOut g s
  | .mov h d a ty => Sys2Proof.Machine.execMov h d a ty s
  | .movi h d wide imm => Sys2Proof.Machine.execMovi h d wide imm s
  | .xset h j imm => Sys2Proof.Machine.execXset h j imm s
  | .xadd h j imm => Sys2Proof.Machine.execXadd h j imm s
  | .xmov h x => Sys2Proof.Machine.execXmov h x s
  | .sel h d a p ty inv => Sys2Proof.Machine.execSel h d a p ty inv s
  | .iadd h d a b ty sat => Sys2Proof.Machine.execIadd h d a b ty sat s
  | .isub h d a b ty sat => Sys2Proof.Machine.execIsub h d a b ty sat s
  | .imul h d a b ty sat => Sys2Proof.Machine.execImul h d a b ty sat s
  | .imulh h d a b ty => Sys2Proof.Machine.execImulh h d a b ty s
  | .imad h d a b ty sat => Sys2Proof.Machine.execImad h d a b ty sat s
  | .idiv h d a b ty sat => Sys2Proof.Machine.execIdiv h d a b ty sat s
  | .irem h d a b ty => Sys2Proof.Machine.execIrem h d a b ty s
  | .imin h d a b ty => Sys2Proof.Machine.execImin h d a b ty s
  | .imax h d a b ty => Sys2Proof.Machine.execImax h d a b ty s
  | .iabs h d a ty sat => Sys2Proof.Machine.execIabs h d a ty sat s
  | .ineg h d a ty sat => Sys2Proof.Machine.execIneg h d a ty sat s
  | .and h d a b ty => Sys2Proof.Machine.execAnd h d a b ty s
  | .or h d a b ty => Sys2Proof.Machine.execOr h d a b ty s
  | .xor h d a b ty => Sys2Proof.Machine.execXor h d a b ty s
  | .not h d a ty => Sys2Proof.Machine.execNot h d a ty s
  | .andn h d a b ty => Sys2Proof.Machine.execAndn h d a b ty s
  | .shl h d a b ty => Sys2Proof.Machine.execShl h d a b ty s
  | .shr h d a b ty => Sys2Proof.Machine.execShr h d a b ty s
  | .sar h d a b ty => Sys2Proof.Machine.execSar h d a b ty s
  | .rotl h d a b ty => Sys2Proof.Machine.execRotl h d a b ty s
  | .popc h d a ty => Sys2Proof.Machine.execPopc h d a ty s
  | .clz h d a ty => Sys2Proof.Machine.execClz h d a ty s
  | .brev h d a ty => Sys2Proof.Machine.execBrev h d a ty s
  | .bfx h d a b ty len => Sys2Proof.Machine.execBfx h d a b ty len s
  | .bfi h d a b ty len => Sys2Proof.Machine.execBfi h d a b ty len s
  | .aadd h d a b ty => Sys2Proof.Machine.execAadd h d a b ty s
  | .amad h d a b ty => Sys2Proof.Machine.execAmad h d a b ty s
  | .icmp h d a b ty c => Sys2Proof.Machine.execIcmp h d a b ty c s
  | .plop h d a b lut => Sys2Proof.Machine.execPlop h d a b lut s
  | .pmov h x => Sys2Proof.Machine.execPmov h x s
  | .sread h d x => Sys2Proof.Machine.execSread h d x s
  | .claim h d c => Sys2Proof.Machine.execClaim h d c s
  | .surr h d c => Sys2Proof.Machine.execSurr h d c s
  | .claimGrant g => Sys2Proof.Machine.execClaimGrant g s
  | .fadd h d a b ty rnd sat => Sys2Proof.Machine.execFadd h d a b ty rnd sat s
  | .fsub h d a b ty rnd sat => Sys2Proof.Machine.execFsub h d a b ty rnd sat s
  | .fmul h d a b ty rnd sat => Sys2Proof.Machine.execFmul h d a b ty rnd sat s
  | .ffma h d a b ty rnd sat => Sys2Proof.Machine.execFfma h d a b ty rnd sat s
  | .fmin h d a b ty => Sys2Proof.Machine.execFmin h d a b ty s
  | .fmax h d a b ty => Sys2Proof.Machine.execFmax h d a b ty s
  | .fcmp h d a b ty c => Sys2Proof.Machine.execFcmp h d a b ty c s
  | .frcp h d a ty => Sys2Proof.Machine.execFrcp h d a ty s
  | .frsq h d a ty => Sys2Proof.Machine.execFrsq h d a ty s
  | .fexp2 h d a ty => Sys2Proof.Machine.execFexp2 h d a ty s
  | .flog2 h d a ty => Sys2Proof.Machine.execFlog2 h d a ty s
  | .ftanh h d a ty => Sys2Proof.Machine.execFtanh h d a ty s
  | .fsin h d a ty => Sys2Proof.Machine.execFsin h d a ty s
  | .fcos h d a ty => Sys2Proof.Machine.execFcos h d a ty s
  | .hadd2 h d a b ty rnd sat => Sys2Proof.Machine.execHadd2 h d a b ty rnd sat s
  | .hmul2 h d a b ty rnd sat => Sys2Proof.Machine.execHmul2 h d a b ty rnd sat s
  | .hfma2 h d a b ty rnd sat => Sys2Proof.Machine.execHfma2 h d a b ty rnd sat s
  | .cvt h d a ty ty2 rnd sat bsel hi => Sys2Proof.Machine.execCvt h d a ty ty2 rnd sat bsel hi s
  | .cvtp h d a ty rnd sat => Sys2Proof.Machine.execCvtp h d a ty rnd sat s
  | .cvtx h d a b ty rnd => Sys2Proof.Machine.execCvtx h d a b ty rnd s
  | .ld h d m ty => Sys2Proof.Machine.execLd h d m ty s
  | .st h d m ty => Sys2Proof.Machine.execSt h d m ty s
  | .atom h d m ty op => Sys2Proof.Machine.execAtom h d m ty op s
  | .red h d m ty op => Sys2Proof.Machine.execRed h d m ty op s
  | .probe h d m => Sys2Proof.Machine.execProbe h d m s
  | .pageRequestPost c => Sys2Proof.Machine.execPageRequestPost c s
  | .countedCompletion o => Sys2Proof.Machine.execCountedCompletion o s
  | .ldp h d m ty => Sys2Proof.Machine.execLdp h d m ty s
  | .stp h d m ty => Sys2Proof.Machine.execStp h d m ty s
  | .atomp h d m ty op => Sys2Proof.Machine.execAtomp h d m ty op s
  | .ldc h d m ty => Sys2Proof.Machine.execLdc h d m ty s
  | .stc h d m ty => Sys2Proof.Machine.execStc h d m ty s
  | .bdecl h n a b ty exp => Sys2Proof.Machine.execBdecl h n a b ty exp s
  | .bseal h n => Sys2Proof.Machine.execBseal h n s
  | .bdrain h n => Sys2Proof.Machine.execBdrain h n s
  | .bdone h n => Sys2Proof.Machine.execBdone h n s
  | .bufferTransitionEffect g => Sys2Proof.Machine.execBufferTransitionEffect g s
  | .bstat h d n => Sys2Proof.Machine.execBstat h d n s
  | .vadd h w => Sys2Proof.Machine.execVadd h w s
  | .vsub h w => Sys2Proof.Machine.execVsub h w s
  | .vmul h w => Sys2Proof.Machine.execVmul h w s
  | .vfma h w => Sys2Proof.Machine.execVfma h w s
  | .vmin h w => Sys2Proof.Machine.execVmin h w s
  | .vmax h w => Sys2Proof.Machine.execVmax h w s
  | .vabs h w => Sys2Proof.Machine.execVabs h w s
  | .vexp2 h w => Sys2Proof.Machine.execVexp2 h w s
  | .vrcp h w => Sys2Proof.Machine.execVrcp h w s
  | .vrsq h w => Sys2Proof.Machine.execVrsq h w s
  | .vtanh h w => Sys2Proof.Machine.execVtanh h w s
  | .vcvt h w => Sys2Proof.Machine.execVcvt h w s
  | .vcpy h w => Sys2Proof.Machine.execVcpy h w s
  | .vfill h w => Sys2Proof.Machine.execVfill h w s
  | .vsumr h w => Sys2Proof.Machine.execVsumr h w s
  | .vmaxr h w => Sys2Proof.Machine.execVmaxr h w s
  | .vscal h w => Sys2Proof.Machine.execVscal h w s
  | .vselp h w => Sys2Proof.Machine.execVselp h w s
  | .sweepComplete c => Sys2Proof.Machine.execSweepComplete c s
  | .wld h m ty sp => Sys2Proof.Machine.execWld h m ty sp s
  | .wldx h m ty => Sys2Proof.Machine.execWldx h m ty s
  | .wswap h a => Sys2Proof.Machine.execWswap h a s
  | .planeSwap g => Sys2Proof.Machine.execPlaneSwap g s
  | .mma h t a ty kb => Sys2Proof.Machine.execMma h t a ty kb s
  | .mmab h t a ty q => Sys2Proof.Machine.execMmab h t a ty q s
  | .mmax h t a u ty bsel kb => Sys2Proof.Machine.execMmax h t a u ty bsel kb s
  | .azero h t => Sys2Proof.Machine.execAzero h t s
  | .ald h t m => Sys2Proof.Machine.execAld h t m s
  | .ast h t m => Sys2Proof.Machine.execAst h t m s
  | .amov h t u => Sys2Proof.Machine.execAmov h t u s
  | .matrixOpPerform o => Sys2Proof.Machine.execMatrixOpPerform o s
  | .qst h t m ty rnd sat h3 mx => Sys2Proof.Machine.execQst h t m ty rnd sat h3 mx s
  | .qstp h d m ty rnd sat h3 mx => Sys2Proof.Machine.execQstp h d m ty rnd sat h3 mx s
  | .qstTurnAccept g f => Sys2Proof.Machine.execQstTurnAccept g f s
  | .hdecl h b a len ty axis wrap mx rows => Sys2Proof.Machine.execHdecl h b a len ty axis wrap mx rows s
  | .hsave h b m => Sys2Proof.Machine.execHsave h b m s
  | .hload h b m => Sys2Proof.Machine.execHload h b m s
  | .hclr h b => Sys2Proof.Machine.execHclr h b s
  | .bankOpPerform o => Sys2Proof.Machine.execBankOpPerform o s
  | .winset h d a => Sys2Proof.Machine.execWinset h d a s
  | .fetch h n m ab link => Sys2Proof.Machine.execFetch h n m ab link s
  | .put h n m ab link => Sys2Proof.Machine.execPut h n m ab link s
  | .redt h n m ab link => Sys2Proof.Machine.execRedt h n m ab link s
  | .postAccept o => Sys2Proof.Machine.execPostAccept o s
  | .transferArrival o => Sys2Proof.Machine.execTransferArrival o s
  | .putCompletion o => Sys2Proof.Machine.execPutCompletion o s
  | .fatom h d m ty op => Sys2Proof.Machine.execFatom h d m ty op s
  | .abar h a ab => Sys2Proof.Machine.execAbar h a ab s
  | .await h p ab => Sys2Proof.Machine.execAwait h p ab s
  | .etail h d a b => Sys2Proof.Machine.execEtail h d a b s
  | .etailRst h d a b => Sys2Proof.Machine.execEtailRst h d a b s
  | .eseq h d a => Sys2Proof.Machine.execEseq h d a s
  | .ewait h p a b => Sys2Proof.Machine.execEwait h p a b s
  | .engineEntryForward ctx hnd => Sys2Proof.Machine.execEngineEntryForward ctx hnd s
  | .engineEntryComplete slot => Sys2Proof.Machine.execEngineEntryComplete slot s
  | .engineChainFail slot => Sys2Proof.Machine.execEngineChainFail slot s
  | .engineNop => Sys2Proof.Machine.execEngineNop s
  | .copy d a len => Sys2Proof.Machine.execCopy d a len s
  | .reduce d a b ty mode len => Sys2Proof.Machine.execReduce d a b ty mode len s
  | .fill d pat len => Sys2Proof.Machine.execFill d pat len s
  | .tload a len => Sys2Proof.Machine.execTload a len s
  | .transduce d a start cap len => Sys2Proof.Machine.execTransduce d a start cap len s
  | .engineQfence pairs => Sys2Proof.Machine.execEngineQfence pairs s
  | .metard va => Sys2Proof.Machine.execMetard va s
  | .metawr va ce => Sys2Proof.Machine.execMetawr va ce s
  | .slotbind slot owner => Sys2Proof.Machine.execSlotbind slot owner s
  | .fifoStall fifo => Sys2Proof.Machine.execFifoStall fifo s
  | .xld h d m ty => Sys2Proof.Machine.execXld h d m ty s
  | .xst h d m ty => Sys2Proof.Machine.execXst h d m ty s
  | .xatom h d m ty op => Sys2Proof.Machine.execXatom h d m ty op s
  | .xputq h m => Sys2Proof.Machine.execXputq h m s
  | .sput h d m ty => Sys2Proof.Machine.execSput h d m ty s
  | .swait h p a => Sys2Proof.Machine.execSwait h p a s
  | .sstat h d a => Sys2Proof.Machine.execSstat h d a s
  | .ctile h n m k => Sys2Proof.Machine.execCtile h n m k s
  | .ctileComplete o status parts => Sys2Proof.Machine.execCtileComplete o status parts s
  | .inboundRead r len => Sys2Proof.Machine.execInboundRead r len s
  | .inboundWrite r bytes => Sys2Proof.Machine.execInboundWrite r bytes s
  | .inboundAtomic r op ty x y => Sys2Proof.Machine.execInboundAtomic r op ty x y s
  | .inboundUnsupported r => Sys2Proof.Machine.execInboundUnsupported r s
  | .xputqInbound r qword bytes => Sys2Proof.Machine.execXputqInbound r qword bytes s
  | .stepRecordInbound r n bytes => Sys2Proof.Machine.execStepRecordInbound r n bytes s
  | .peerResponse o status bytes => Sys2Proof.Machine.execPeerResponse o status bytes s
  | .busyRetry o => Sys2Proof.Machine.execBusyRetry o s
  | .requestTimeout o => Sys2Proof.Machine.execRequestTimeout o s
  | .responseDiscard p tag => Sys2Proof.Machine.execResponseDiscard p tag s
  | .boundaryDrained => Sys2Proof.Machine.execBoundaryDrained s
  | .readyMsg p n => Sys2Proof.Machine.execReadyMsg p n s
  | .stepApply => Sys2Proof.Machine.execStepApply s
  | .appliedMsg p n => Sys2Proof.Machine.execAppliedMsg p n s
  | .boundaryComplete => Sys2Proof.Machine.execBoundaryComplete s
  | .stepWatchdog => Sys2Proof.Machine.execStepWatchdog s
  | .collWatchdog o p => Sys2Proof.Machine.execCollWatchdog o p s
  | .fence h sc k => Sys2Proof.Machine.execFence h sc k s
  | .acq h d m => Sys2Proof.Machine.execAcq h d m s
  | .rel h m => Sys2Proof.Machine.execRel h m s
  | .bind h d a b => Sys2Proof.Machine.execBind h d a b s
  | .unbind h d b => Sys2Proof.Machine.execUnbind h d b s
  | .hintnext h n => Sys2Proof.Machine.execHintnext h n s
  | .waitpred h => Sys2Proof.Machine.execWaitpred h s
  | .qpost h d a b => Sys2Proof.Machine.execQpost h d a b s
  | .signal h d m add irq => Sys2Proof.Machine.execSignal h d m add irq s
  | .tfence h => Sys2Proof.Machine.execTfence h s
  | .trap h a => Sys2Proof.Machine.execTrap h a s
  | .brk h a => Sys2Proof.Machine.execBrk h a s
  | .tret h => Sys2Proof.Machine.execTret h s
  | .tmask h d x => Sys2Proof.Machine.execTmask h d x s
  | .flags h d a => Sys2Proof.Machine.execFlags h d a s
  | .sysr h d n => Sys2Proof.Machine.execSysr h d n s
  | .sysw h x a => Sys2Proof.Machine.execSysw h x a s
  | .groupSave g => Sys2Proof.Machine.execGroupSave g s
  | .groupPlace pad => Sys2Proof.Machine.execGroupPlace pad s
  | .launchStart l => Sys2Proof.Machine.execLaunchStart l s
  | .launchComplete l => Sys2Proof.Machine.execLaunchComplete l s
  | .quantumExpiry pad => Sys2Proof.Machine.execQuantumExpiry pad s
  | .packetNop => Sys2Proof.Machine.execPacketNop s
  | .launch record => Sys2Proof.Machine.execLaunch record s
  | .launchi record grid => Sys2Proof.Machine.execLaunchi record grid s
  | .waitseq cyc va value => Sys2Proof.Machine.execWaitseq cyc va value s
  | .signalPacket add irq va value => Sys2Proof.Machine.execSignalPacket add irq va value s
  | .loop count => Sys2Proof.Machine.execLoop count s
  | .endloop on c va value mask => Sys2Proof.Machine.execEndloop on c va value mask s
  | .ifmem c va value mask => Sys2Proof.Machine.execIfmem c va value mask s
  | .elsePacket => Sys2Proof.Machine.execElsePacket s
  | .endifPacket => Sys2Proof.Machine.execEndifPacket s
  | .qfence => Sys2Proof.Machine.execQfence s
  | .engcmd hnd n => Sys2Proof.Machine.execEngcmd hnd n s
  | .stepb n => Sys2Proof.Machine.execStepb n s
  | .halt => Sys2Proof.Machine.execHalt s
  | .hqTail q v => Sys2Proof.Machine.execHqTail q v s
  | .hqCtl q v => Sys2Proof.Machine.execHqCtl q v s
  | .clear q => Sys2Proof.Machine.execClear q s
  | .resume q => Sys2Proof.Machine.execResume q s
  | .pgResp status page asid => Sys2Proof.Machine.execPgResp status page asid s
  | .tlbInvalRange count asid => Sys2Proof.Machine.execTlbInvalRange count asid s
  | .tlbInvalAsid asid => Sys2Proof.Machine.execTlbInvalAsid asid s
  | .tlbInvalFull => Sys2Proof.Machine.execTlbInvalFull s
  | .tlbInvalComplete => Sys2Proof.Machine.execTlbInvalComplete s
  | .asidBind asid => Sys2Proof.Machine.execAsidBind asid s
  | .asidRelease asid => Sys2Proof.Machine.execAsidRelease asid s
  | .peerId v => Sys2Proof.Machine.execPeerId v s
  | .peerTmo v => Sys2Proof.Machine.execPeerTmo v s
  | .winReset hnd => Sys2Proof.Machine.execWinReset hnd s
  | .keyInval slot => Sys2Proof.Machine.execKeyInval slot s
  | .sramPool v => Sys2Proof.Machine.execSramPool v s
  | .sramIntake v => Sys2Proof.Machine.execSramIntake v s
  | .sramLcache v => Sys2Proof.Machine.execSramLcache v s
  | .stepCtl v => Sys2Proof.Machine.execStepCtl v s
  | .stepNum v => Sys2Proof.Machine.execStepNum v s
  | .stepDom w v => Sys2Proof.Machine.execStepDom w v s
  | .stepSpill v => Sys2Proof.Machine.execStepSpill v s
  | .optRing v => Sys2Proof.Machine.execOptRing v s
  | .oeReset e => Sys2Proof.Machine.execOeReset e s
  | .provision m => Sys2Proof.Machine.execProvision m s
  | .drain m => Sys2Proof.Machine.execDrain m s
  | .release m => Sys2Proof.Machine.execRelease m s
  | .provIgnored m => Sys2Proof.Machine.execProvIgnored m s
  | .lsOff u => Sys2Proof.Machine.execLsOff u s
  | .lsOn u => Sys2Proof.Machine.execLsOn u s
  | .preemptCtl pad v => Sys2Proof.Machine.execPreemptCtl pad v s
  | .dbgStop => Sys2Proof.Machine.execDbgStop s
  | .dbgResume => Sys2Proof.Machine.execDbgResume s
  | .dbgStep => Sys2Proof.Machine.execDbgStep s
  | .dbgRead => Sys2Proof.Machine.execDbgRead s
  | .dbgWrite => Sys2Proof.Machine.execDbgWrite s
  | .dbgDiscard => Sys2Proof.Machine.execDbgDiscard s
  | .dbgBadOperation code => Sys2Proof.Machine.execDbgBadOperation code s
  | .pwrCap v => Sys2Proof.Machine.execPwrCap v s
  | .registerWrite off v => Sys2Proof.Machine.execRegisterWrite off v s
  | .hostMemoryAccess write off bytes => Sys2Proof.Machine.execHostMemoryAccess write off bytes s
  | .heartbeat c => Sys2Proof.Machine.execHeartbeat c s
  | .heartbeatMiss c lost => Sys2Proof.Machine.execHeartbeatMiss c lost s
  | .wlFail e ingress wl m delay => Sys2Proof.Machine.execWlFail e ingress wl m delay s
  | .wlDrop e ingress wl m delay => Sys2Proof.Machine.execWlDrop e ingress wl m delay s
  | .laserAge u => Sys2Proof.Machine.execLaserAge u s
  | .retrain e ingress m delay => Sys2Proof.Machine.execRetrain e ingress m delay s
  | .laneSpare e ingress wl m => Sys2Proof.Machine.execLaneSpare e ingress wl m s
  | .sourceLost u delay => Sys2Proof.Machine.execSourceLost u delay s
  | .linkDown e ingress m => Sys2Proof.Machine.execLinkDown e ingress m s
  | .reset => Sys2Proof.Machine.execReset s
  | .firmwareImage cls image version => Sys2Proof.Machine.execFirmwareImage cls image version s
  | .spdmRequest index => Sys2Proof.Machine.execSpdmRequest index s
  | .keyLoad slot k1 k2 => Sys2Proof.Machine.execKeyLoad slot k1 k2 s
  | .powerCapCrossing watts => Sys2Proof.Machine.execPowerCapCrossing watts s
  | .thermalTrip => Sys2Proof.Machine.execThermalTrip s
  | .retrainingComplete e ingress ok => Sys2Proof.Machine.execRetrainingComplete e ingress ok s
  | .portDown p => Sys2Proof.Machine.execPortDown p s
  | .portUp p => Sys2Proof.Machine.execPortUp p s
  | .xputqPageWaitExpiry o => Sys2Proof.Machine.execXputqPageWaitExpiry o s

end Sys2Proof.Machine
end

