-- ==== Sys2Proof/Machine/Sched.lean ====
section
/-! DEFINITION. What the package does of its own accord: the events that its state may hold, which take their turn one at
a time as free choices (assumption 4). An event that is not due changes nothing. -/

namespace Sys2Proof.Machine

/-- Events about one outstanding operation. -/
def opEvents (o : Op) : List Instr :=
  match o.kind with
  | .wld .. => [.matrixOpPerform o.id]
  | .mma .. => [.matrixOpPerform o.id]
  | .azero _ => [.matrixOpPerform o.id]
  | .ald .. => [.matrixOpPerform o.id]
  | .ast .. => [.matrixOpPerform o.id]
  | .amov .. => [.matrixOpPerform o.id]
  | .qst .. => [.bankOpPerform o.id]
  | .qstp .. => [.bankOpPerform o.id]
  | .hdecl .. => [.bankOpPerform o.id]
  | .hsave .. => [.bankOpPerform o.id]
  | .hload .. => [.bankOpPerform o.id]
  | .hclr _ => [.bankOpPerform o.id]
  | .sweep _ => []
  | .etail .. => []
  | .peer r => [.countedCompletion o.id] ++ if r.busy then [.busyRetry o.id] else []
  | .xfer x =>
    if !x.accepted then [.postAccept o.id] else match x.kind with
      | .put => [.putCompletion o.id]
      | .ctile _ => [.countedCompletion o.id] ++ x.peers.map fun p => .collWatchdog o.id p
      | _ => [.transferArrival o.id]
  | _ => [.countedCompletion o.id]

def allUnits : List UnitId := [.sweep, .matrix, .qstore, .window, .fatom, .engine, .ualink, .lark]

/-- Events about one core. -/
def coreEvents (c : Nat) : List Instr :=
  [.sweepComplete c, .pageRequestPost c] ++ allUnits.map fun u => .sharedUnitAccept c u

/-- Events about one group. -/
def groupEvents (g : Nat) (x : Group) : List Instr :=
  (x.fibres.flatMap fun p => match p.2.stat with
    | .wait (.join _ (some _)) => [.jwaittBudgetExpiry g p.1]
    | .wait (.turn _ _) => [.qstTurnAccept g p.1]
    | _ => []) ++
  [.taskWaveStart g, .groupSwitchOut g, .claimGrant g, .bufferTransitionEffect g, .planeSwap g, .groupSave g]

/-- Every event that may be due. -/
def State.enabled (s : State) : List Instr :=
  [.sheafRound, .boundaryDrained, .stepApply, .boundaryComplete, .stepWatchdog, .tlbInvalComplete] ++
  s.ops.flatMap opEvents ++ (List.range 320).flatMap coreEvents ++
  ((s.groups.filter fun p => p.2.loc != .ended).flatMap fun p => groupEvents p.1 p.2) ++
  ((List.range 64).flatMap fun p => [.groupPlace p, .quantumExpiry p]) ++
  ((s.launches.filter fun p => !p.2.complete).flatMap fun p => [.launchStart p.1, .launchComplete p.1]) ++
  ((s.chains.filter fun p => !p.2.fwd.isEmpty).map fun p => .engineEntryForward (p.1 / 4096) (p.1 % 4096)) ++
  (s.slots.flatMap fun p => [.engineEntryComplete p.1, .engineChainFail p.1]) ++ s.fifos.map fun p => .fifoStall p.1

/-- The event that takes its turn. -/
def State.eventNext (s : State) : Option Instr :=
  let es := s.enabled
  es[s.choose 90 es.length]?

/-- The slot whose turn it is on its unit's data path: the next in the round of those with an entry in progress (R288). -/
def State.unitSlot (s : State) (u : Nat) : Option Nat :=
  let ks := (s.slots.map (·.1)).filter fun k => (s.headEntry k).isSome && k / 8 == u
  (ks.find? fun k => (Tab.find s.unitLast u).any fun l => decide (k > l)).or ks.head?

/-- The slot that performs an entry in its turn, and the instruction: of any unit. -/
def State.slotNext (s : State) : Option Instr × State :=
  let us := (((s.slots.map (·.1)).filter fun k => (s.headEntry k).isSome).map fun k => k / 8).eraseDups
  match (us[s.choose 91 us.length]?).bind s.unitSlot with
  | none => (none, s)
  | some k => (s.slotInstr k, { s with curSlot := k, unitLast := Tab.put (k / 8) k s.unitLast })

/-- What reaches the package from outside, in order. -/
def State.inputNext (s : State) : Option Instr × State :=
  match s.inbox with
  | [] => (none, s)
  | i :: rest => (some i, { s with inbox := rest })

/-- The agent whose turn follows, as a free choice. -/
def nextTurn (tick : Nat) : Turn :=
  match Config.pick tick 92 % 5 with
  | 0 => .input
  | 1 => .issue
  | 2 => .queue
  | 3 => .slot
  | _ => .unit

/-- The end of a turn: a debugger's access that waited is performed, and what is not runnable any more gives up its paddock.
A core's issue of one cycle is not broken off. -/
def State.endTurn (s : State) : State :=
  { s.settleDbg.yieldPads with tick := s.tick + 1, turn := if s.burst.isSome then .issue else nextTurn (s.tick + 1) }

/-! ### Placing one instruction where the next step finds it (assumption 5) -/

/-- A translation of VA 0 of ASID 0 to the first page of the pool, readable, writable and executable (R228). -/
def fetchPage : Nat := 2 ^ 63 + 2 ^ 58 + 2 ^ 57 + 2 ^ 56

/-- One NEAR page of 64 KiB at VA 0 of context 0: the context table at offset 0, the page table at 128 KiB, the pool at
256 KiB. -/
def State.withPage (s : State) : State :=
  let t := { s with
    regs := { s.regs with ctxRoot := 0#64, ptRoot := 0x20000#64, sramPool := 0x100040000#64 }
    tlb := [], cores := [] }
  (t.sramWrite 0 (leBytes 8 (2 ^ 63) ++ leBytes 8 (4 * 2 ^ 60) ++ List.replicate 112 0#8)).sramWrite 0x20000
    (leBytes 16 (fetchPage + 2 ^ 120 * (s.genOf 0#16).toNat))

/-- A gang fibre of a group of one, at VA 0, which the sheaf former has picked. -/
def State.withWord (s : State) (w : IWord) : State :=
  let f : Fibre := { pos := { pc := 0#64, atHdr := isHeader w } }
  let g : Group := { launch := 0, ctx := 0, lin := 0, lr := { nb := 64, na := 16, nh := 8, mg := true, scr := 4096 }
                     loc := .resident 0, fibres := [(0, f)] }
  ({ s.withPage with groups := [(0, g)], ops := [], turn := .issue, cur := ⟨0, 0⟩, sheaf := 0, burst := none, looked := []
                     issue := [{ cyc := s.cycle, sheaf := 0, core := 0, fib := ⟨0, 0⟩ }] } : State).sramWrite 0x40000 (leBytes 12 w.toNat)

/-- A packet at index 0 of queue 0, in a ring at VA 0; a LOOP or IFMEM with its end after it. Paddock 0 has 4 cores. -/
def State.withPacket (s : State) (w : BitVec 256) : State :=
  let opc := (w.extractLsb' 0 8).toNat
  let close : Nat := if opc = 5 then 6 else if opc = 7 then 9 else 0
  let pads := (List.range 4).map fun c => (c, 0x80#64)
  let t := s.withPage
  let v : Queue := { ctl := dw (2 ^ 63 + 4 * 2 ^ 8), tail := if close = 0 then 1#32 else 2#32 }
  ({ t with regs := { t.regs with corePad := pads }, queues := [(0, v)], launches := [], qlast := [], turn := .queue
            curQ := 0 } : State).sramWrite 0x40000 (leBytes 32 w.toNat ++ leBytes 32 close)

/-- The unit and slot of module 0 that perform an entry. -/
def entrySlot (i : Instr) : Nat :=
  match i with
  | .reduce .. => 8
  | .fill .. => 16
  | .tload .. => 128
  | .transduce .. => 128
  | .copy .. => 0
  | _ => 7

/-- An entry at the head of a slot. -/
def State.withEntry (s : State) (raw : BitVec 384) : State :=
  let k := ((decodeEntry raw).map entrySlot).getD 0
  let e : FEntry := { ctx := 0, hnd := 0, num := 1, va := 0#64, raw, priv := true, owner := s.ownerOf 0, by_ := none, pages := [] }
  { s with slots := [(k, { owner := some (s.ownerOf 0), entries := [e] })], turn := .slot, curSlot := k }

end Sys2Proof.Machine
end

