-- ==== Sys2Proof/Machine/Ready.lean ====
section
/-! DEFINITION. Which fibres are ready (R96, R101): at the end of each cycle the waits that are over end, and a fibre whose
next word cannot issue waits from then on, before any sheaf takes it; and the instruction of each turn. -/

namespace Sys2Proof.Machine

/-- What an issue leaves its fibre waiting for, where it could not issue at all. -/
def FStat.held : FStat → Option Wait
  | .wait (.hold h) => some (.hold h)
  | .wait (.unit u) => some (.unit u)
  | _ => none

/-- What holds the next word of a ready fibre, where something does: its issue is tried, and nothing else that the trial
does is kept. A word that would trap or park can issue. -/
def State.heldNext (s : State) (r : FRef) (x : Group) (f : Fibre) : Option Wait :=
  if !mayIssue x f || !s.ctxOk x.ctx || f.absent.isSome || f.stepping == .issued || f.pos.pc.toNat % 12 != 0 then none else
  let t := { s with cur := r, looked := [] }
  match (t.fetch x.coreOr0 x.ctx f.pos.pc).1 with
  | .wait m => some (.hold (.code m))
  | .word w => match (decodeWord w).map fun i => exec i t with
    | some (.next t1) => (t1.fibre? r).bind fun v => v.stat.held
    | _ => none
  | _ => none

/-- At the end of a cycle, what holds a fibre's next word has been found out, and what holds it no longer lets it go (R96). -/
def State.settleReady (s : State) : State :=
  let t := s.unholdAll
  { t with groups := t.groups.map fun p => (p.1, p.2.mapFibres fun n f =>
      match t.heldNext ⟨p.1, n⟩ p.2 f with
      | some w => { f with stat := .wait w, since := s.cycle + 1 }
      | none => f) }

/-- The instruction of this turn, and the state in which it runs. -/
def State.turnNext (s : State) : Option Instr × State :=
  match s.turn with
  | .input => s.inputNext
  | .issue => s.issueNext
  | .queue => s.queueNext
  | .slot => s.slotNext
  | .unit => (s.eventNext, if s.eventNext = some .sheafRound ∧ s.cycleOver then s.settleReady else s)

end Sys2Proof.Machine
end

