-- ==== Sys2Proof/Machine/Step.lean ====
section
/-! DEFINITION. One step of the package: the agent whose turn it is finds its instruction, which runs as the dispatch
says; then the turn ends (assumption 4). -/

namespace Sys2Proof.Machine

/-- End the turn after an outcome. -/
def endOutcome (r : Host.Outcome State Fault Refusal) : Host.Outcome State Fault Refusal :=
  match r with
  | .next s => .next s.endTurn
  | .fault e => .fault e
  | .refused e => .refused e

/-- One step. -/
def step (s : State) : Host.Outcome State Fault Refusal :=
  match s.turnNext with
  | (some i, t) => endOutcome (exec i t)
  | (none, t) => .next t.endTurn

/-- The instruction of a table word placed where the next step finds and runs it (assumption 5): an instruction word under
a picked fibre, a packet in a queue, an entry in a chain slot. -/
def State.withFetchWord (s : State) (nbits w : Nat) : State :=
  if nbits ≤ 96 then s.withWord (BitVec.ofNat 96 w)
  else if nbits ≤ 256 then s.withPacket (BitVec.ofNat 256 w)
  else s.withEntry (BitVec.ofNat 384 w)

end Sys2Proof.Machine
end

