-- ==== Sys2Proof/Safety.lean ====
section
/-! DEFINITION. What statements about runs are said in: what an instruction does when it has a next state, when a word
issues in a fibre with its own effect, what every step keeps, and the canonical form of the memories. -/

namespace Sys2Proof.Safety

open Sys2Proof.Machine

/-- Instruction `i` takes state `s` to state `t`. -/
def Runs (i : Instr) (s t : State) : Prop := exec i s = .next t

/-- Fibre `f` of group `g` is the one that issues, and a word with header `h` and demands `w` has its own effect in it:
the word stands in a body (R41), as its last word where it must (R50); its guard is true (R24); it is allowed in the
fibre and its mode (R49); its operands lie in their allocations and are aligned (R34, R35, R37); no outstanding
operation writes one of its registers (R47); its counter is below 63 (R43); its shared unit has room for it (R103). -/
structure Issues (s : State) (g : Group) (f : Fibre) (h : Hdr) (w : WordSpec) : Prop where
  group : s.group? s.cur.g = some g
  fibre : g.fibre? s.cur.f = some f
  gang : (w.gangOnly && f.wave) = false
  body : (f.pos.atHdr || (w.lastWord && f.pos.idx != f.pos.len)) = false
  guard : f.guard h.guard = true
  mode : (w.inHandler && !f.tm) = false
  operands : operandFault (g.allocation s.cur.f) f w.chks = none
  interlock : (w.chks.flatMap (Chk.regs f)).any (s.busyRegs s.cur f.inc).contains = false
  counter : (w.counts && f.full (f.counter h)) = false
  room : ∀ u ∈ w.unit, f.grant == some u || (s.unitRoom g.coreOr0 u && !s.unitWaited g.coreOr0 u)

/-- The state after the issuing fibre has taken the value `v` and gone on to its next word: nothing else changes. -/
def after (s : State) (v : Fibre) : State := s.updFibre s.cur fun _ => v.advance s.cycle

/-- The state after a word has done `t` and its fibre goes on to the next word. -/
def went (s t : State) : State := t.updFibre s.cur fun f => f.advance s.cycle

/-- The state after a word has done `t`, which has set its fibre's position or its wait. -/
def kept (s t : State) : State := t.updFibre s.cur fun f => { f with grant := none }

/-- Every step keeps `P`, from every state. -/
def Kept (P : State → Prop) : Prop := ∀ s t, P s → step s = .next t → P t

/-- Every memory of the package is in canonical form: the shared SRAM, the modules, host memory, and the scratchpad of every
group, placed or saved. -/
def MemoryOk (s : State) : Prop :=
  Memory.wf s.sram = true ∧ Memory.wf s.far = true ∧ Memory.wf s.hostMem = true ∧ ∀ p ∈ s.groups, Memory.wf p.2.scratch = true

end Sys2Proof.Safety
end

