-- ==== Sys2Proof/Certificates/Slice0/Obligations.lean ====
section
/-! DEFINITION. The statements about the model. Where one says that a word completes, its hypotheses are that the word
issues in its fibre (Safety.Issues) and what the rules ask of its operands. -/

open Sys2Proof Sys2Proof.Machine Sys2Proof.Safety

/-! ### Words on one fibre's registers -/

/-- Demands of a word on its operands alone. -/
abbrev operandsOf (cs : List Chk) : WordSpec := { chks := cs }

/-- Demands of D := fn A B in one type, and of D := fn A. -/
abbrev needsAB (d : Reg) (a b : Src) (t : Ty) : WordSpec :=
  operandsOf (Src.chk a t.regs ++ Src.chk b t.regs ++ Reg.chk d t.regs)
abbrev needsA (d : Reg) (a : Src) (t : Ty) : WordSpec := operandsOf (Src.chk a t.regs ++ Reg.chk d t.regs)

/-- Integer arithmetic (R143, R144): the exact result of the operands read as integers of the type, narrowed to it; the
fibre goes on and nothing else changes. IMULH takes the upper half of the product and sets no flag. -/
def Obligations.IntegerArithmetic : Prop :=
  ∀ (s : State) (g : Group) (f : Fibre) (h : Hdr) (d : Reg) (a b : Src) (t : Ty) (sat : Bool),
    Issues s g f h (needsAB d a b t) →
    let x := f.rdI t a
    let y := f.rdI t b
    let res (r : Nat × BitVec 7) : State := after s (f.result d t.regs r)
    Runs (.iadd h d a b t sat) s (res (intResult t sat (x + y))) ∧
    Runs (.isub h d a b t sat) s (res (intResult t sat (x - y))) ∧
    Runs (.imul h d a b t sat) s (res (intResult t sat (x * y))) ∧
    Runs (.imulh h d a b t) s (res (Ty.ofI t ((x * y).fdiv (2 ^ t.width : Nat)), 0#7)) ∧
    Runs (.imad h d a b t sat) s (res (intResult t sat (x * y + f.rdI t (.reg d)))) ∧
    Runs (.idiv h d a b t sat) s (res (idivResult t sat x y)) ∧
    Runs (.irem h d a b t) s (res (iremResult t x y)) ∧
    Runs (.imin h d a b t) s (res (intResult t false (min x y))) ∧
    Runs (.imax h d a b t) s (res (intResult t false (max x y)))

/-- IABS, INEG, NOT (R143, R145) and the approximate functions (R88): D := fn A. What the rules leave open is as the
model chose it: assumption 8. -/
def Obligations.UnaryResults : Prop :=
  ∀ (s : State) (g : Group) (f : Fibre) (h : Hdr) (d : Reg) (a : Src) (t : Ty) (sat : Bool),
    Issues s g f h (needsA d a t) →
    let res (r : Nat × BitVec 7) : State := after s (f.result d t.regs r)
    Runs (.iabs h d a t sat) s (res (intResult t sat (f.rdI t a).natAbs)) ∧
    Runs (.ineg h d a t sat) s (res (intResult t sat (-(f.rdI t a)))) ∧
    Runs (.not h d a t) s (res (2 ^ t.width - 1 - f.src t a % 2 ^ t.width, 0#7)) ∧
    Runs (.mov h d a t) s (res (f.src t a, 0#7)) ∧
    Runs (.frcp h d a t) s (res (approx .rcp (f.fsrc t a))) ∧
    Runs (.frsq h d a t) s (res (approx .rsq (f.fsrc t a))) ∧
    Runs (.fexp2 h d a t) s (res (approx .exp2 (f.fsrc t a))) ∧
    Runs (.flog2 h d a t) s (res (approx .log2 (f.fsrc t a))) ∧
    Runs (.ftanh h d a t) s (res (approx .tanh (f.fsrc t a))) ∧
    Runs (.fsin h d a t) s (res (approx .sin (f.fsrc t a))) ∧
    Runs (.fcos h d a t) s (res (approx .cos (f.fsrc t a)))

/-- The narrowing of R143: an exact result in range is written as it is and sets no flag; out of range it is clamped
with SAT and sets SAT, or wraps modulo 2^w and sets IOV. -/
def narrowingPart : Prop :=
  ∀ (t : Ty) (r : Int), t.isFloat = false → 8 ≤ t.width →
    (∀ sat, Ty.minI t ≤ r → r ≤ Ty.maxI t → Ty.toI t (intResult t sat r).1 = r ∧ (intResult t sat r).2 = 0#7) ∧
    (r < Ty.minI t → Ty.toI t (intResult t true r).1 = Ty.minI t ∧ (intResult t true r).2 = fSAT) ∧
    (Ty.maxI t < r → Ty.toI t (intResult t true r).1 = Ty.maxI t ∧ (intResult t true r).2 = fSAT) ∧
    (r < Ty.minI t ∨ Ty.maxI t < r →
      ((intResult t false r).1 : Int) = r % 2 ^ t.width ∧ (intResult t false r).2 = fIOV)

/-- Division (R144), for operands of the type: by zero, IDIV writes all ones and IREM the dividend, with IV; the most
negative number by −1 is the largest one with SAT, or itself with IOV, and leaves no remainder; else the quotient goes
towards zero and the remainder makes up the dividend. -/
def divisionPart : Prop :=
  ∀ (t : Ty) (a b : Int) (sat : Bool), t.isFloat = false → 8 ≤ t.width → Ty.minI t ≤ a → a ≤ Ty.maxI t → Ty.minI t ≤ b →
    b ≤ Ty.maxI t →
    (b = 0 → idivResult t sat a b = (2 ^ t.width - 1, fIV) ∧ Ty.toI t (iremResult t a b).1 = a ∧ (iremResult t a b).2 = fIV) ∧
    (Ty.minI t < 0 → a = Ty.minI t → b = -1 →
      Ty.toI t (idivResult t sat a b).1 = (if sat then Ty.maxI t else Ty.minI t) ∧
      (idivResult t sat a b).2 = (if sat then fSAT else fIOV) ∧ iremResult t a b = (0, 0#7)) ∧
    (b ≠ 0 → ¬ (a = Ty.minI t ∧ b = -1) →
      Ty.toI t (idivResult t sat a b).1 = a.tdiv b ∧ (idivResult t sat a b).2 = 0#7 ∧
      Ty.toI t (iremResult t a b).1 = a - b * a.tdiv b ∧ (iremResult t a b).2 = 0#7)

/-- Rounding to .f32, .f16 and .bf16 (R69, R75): a finite result that does not overflow lies within half a unit in the
last place of the exact value under RNE, and within one unit, no further from zero, under RZ; it sets NX exactly where it
differs from it. Sums and products are rounded from the exact value, which is scaled here to a common power of two. -/
def roundingPart : Prop :=
  ∀ (t : Ty) (sat : Bool) (rnd : Rnd) (d r x y : Dy) (a b : Nat), t = .f32 ∨ t = .f16 ∨ t = .bf16 →
    (let c := roundTo t (Rnd.plain rnd) sat (.fin d)
     decodeNum t c.1 = .fin r → c.2 &&& (fOF ||| fSAT) = 0#7 →
      let e := min (min d.e r.e) (Ty.lastPlace t d)
      let ulp : Int := 2 ^ (Ty.lastPlace t d - e).toNat
      ((Rnd.plain rnd) = .rne → 2 * (d.scaled e - r.scaled e).natAbs ≤ ulp.natAbs) ∧
      ((Rnd.plain rnd) = .rz → (d.scaled e - r.scaled e).natAbs < ulp.natAbs ∧ (r.scaled e).natAbs ≤ (d.scaled e).natAbs) ∧
      (c.2 &&& fNX = 0#7 ↔ d.scaled e = r.scaled e)) ∧
    (decodeNum t a = .fin x → decodeNum t b = .fin y →
      (∃ z, fadd t rnd sat a b = roundTo t (Rnd.plain rnd) sat (.fin z) ∧
        ∀ e, e ≤ min x.e y.e → z.scaled e = x.scaled e + y.scaled e) ∧
      (∃ z, fmul t rnd sat a b = roundTo t (Rnd.plain rnd) sat (.fin z) ∧ z.neg = (x.neg != y.neg) ∧ z.m = x.m * y.m ∧
        z.e = x.e + y.e))

/-- The narrowing of an exact integer result, division at its edges, and the rounding of an exact floating-point one
(R69, R75, R143, R144). -/
def Obligations.IntegerNarrowing : Prop := narrowingPart ∧ divisionPart ∧ roundingPart

/-- Logic on codes (R145) and the operations of floating point with two sources (R83 to R86). An immediate that is rounded to
.f16 or .bf16 sets no flag of that conversion: the model's choice, assumption 48. -/
def Obligations.LogicAndFloat : Prop :=
  ∀ (s : State) (g : Group) (f : Fibre) (h : Hdr) (d : Reg) (a b : Src) (t : Ty) (rnd : Rnd) (sat : Bool),
    Issues s g f h (needsAB d a b t) →
    let res (r : Nat × BitVec 7) : State := after s (f.result d t.regs r)
    let x := f.src t a
    let y := f.src t b
    let u := f.fsrc t a
    let v := f.fsrc t b
    Runs (.and h d a b t) s (res (x &&& y, 0#7)) ∧
    Runs (.or h d a b t) s (res (x ||| y, 0#7)) ∧
    Runs (.xor h d a b t) s (res (x ^^^ y, 0#7)) ∧
    Runs (.andn h d a b t) s (res (x &&& (2 ^ t.width - 1 - y % 2 ^ t.width), 0#7)) ∧
    Runs (.fadd h d a b t rnd sat) s (res (fadd t rnd sat u v)) ∧
    Runs (.fsub h d a b t rnd sat) s (res (fsub t rnd sat u v)) ∧
    Runs (.fmul h d a b t rnd sat) s (res (fmul t rnd sat u v)) ∧
    Runs (.ffma h d a b t rnd sat) s (res (ffma t rnd sat u v (f.rd t d))) ∧
    Runs (.fmin h d a b t) s (res (fminmax false t u v)) ∧
    Runs (.fmax h d a b t) s (res (fminmax true t u v))

/-- Shifts (R145): the count is B read as z32; a count of the width or more leaves nothing, or copies of the sign; ROTL takes
it modulo the width. -/
def Obligations.Shifts : Prop :=
  ∀ (s : State) (g : Group) (f : Fibre) (h : Hdr) (d : Reg) (a b : Src) (t : Ty), 0 < t.width →
    Issues s g f h (operandsOf (Src.chk a t.regs ++ Src.chk b 1 ++ Reg.chk d t.regs)) →
    let res (v : Nat) : State := after s (f.wr d t.regs v)
    let x := f.src t a
    let n := f.src .z32 b
    Runs (.shl h d a b t) s (res (if n ≥ t.width then 0 else x * 2 ^ n % 2 ^ t.width)) ∧
    Runs (.shr h d a b t) s (res (if n ≥ t.width then 0 else x / 2 ^ n)) ∧
    Runs (.sar h d a b t) s (res (sarN t x n)) ∧
    Runs (.rotl h d a b t) s
      (res ((x * 2 ^ (n % t.width) + x / 2 ^ (t.width - n % t.width)) % 2 ^ t.width))

/-- Counts and bit fields (R146, R147). POPC and CLZ write one register; an empty field leaves BFX 0 and BFI D. -/
def Obligations.BitFields : Prop :=
  ∀ (s : State) (g : Group) (f : Fibre) (h : Hdr) (d a : Reg) (b c : Src) (t : Ty) (len : BitVec 8),
    (Issues s g f h (operandsOf (Reg.chk a t.regs ++ Reg.chk d 1)) →
      Runs (.popc h d a t) s (after s (f.wr d 1 ((List.range t.width).countP (f.rd t a).testBit))) ∧
      Runs (.clz h d a t) s (after s (f.wr d 1 (t.width - (Nat.log2 (2 * f.rd t a + 1)))))) ∧
    (∀ x k, k < t.width → (revN x t.width).testBit k = x.testBit (t.width - 1 - k)) ∧
    (Issues s g f h (operandsOf (Reg.chk a t.regs ++ Reg.chk d t.regs)) →
      Runs (.brev h d a t) s (after s (f.wr d t.regs (revN (f.rd t a) t.width)))) ∧
    (Issues s g f h (operandsOf (Reg.chk a t.regs ++ Src.chk b 1 ++ Reg.chk d t.regs)) →
      Runs (.bfx h d a b t len) s (after s (f.wr d t.regs (bfxN t (f.rd t a) (f.src .z32 b) len.toNat)))) ∧
    (Issues s g f h (operandsOf (Src.chk c t.regs ++ Src.chk b 1 ++ Reg.chk d t.regs)) →
      Runs (.bfi h d c b t len) s
        (after s (f.wr d t.regs (bfiN t.width (f.rd t d) (f.src t c) (f.src .z32 b) len.toNat))))

/-- Moves of immediates, index registers, addresses, and packed predicates (R140, R141, R148, R151). -/
def Obligations.Moves : Prop :=
  ∀ (s : State) (g : Group) (f : Fibre) (h : Hdr) (d a : Reg) (x y : Src) (i : BitVec 2) (imm : BitVec 40) (t : Ty)
    (m : BitVec 12),
    (∀ wide, Issues s g f h (operandsOf (Reg.chk d (if wide then 2 else 1))) →
      Runs (.movi h d wide imm) s (after s (f.wr d (if wide then 2 else 1) (imm.signExtend 64).toNat))) ∧
    (Issues s g f h (operandsOf []) →
      Runs (.xset h i imm) s (after s (f.setIdx i (imm.extractLsb' 0 16))) ∧
      Runs (.xadd h i imm) s (after s ((f.setIdx i (BitVec.ofInt 16 ((f.idx i).toInt + imm.toInt))).addFlags
        (if -32768 ≤ (f.idx i).toInt + imm.toInt ∧ (f.idx i).toInt + imm.toInt ≤ 32767 then 0#7 else fIOV)))) ∧
    (Issues s g f h (operandsOf (Src.chk x 1)) →
      Runs (.xmov h (.toIdx i x)) s (after s (f.setIdx i (BitVec.ofNat 16 (f.src .b32 x))))) ∧
    (Issues s g f h (operandsOf (Reg.chk d 1)) →
      Runs (.xmov h (.fromIdx i d)) s (after s (f.wr d 1 ((f.idx i).signExtend 32).toNat)) ∧
      Runs (.pmov h (.get d)) s (after s (f.wr d 1 f.preds.toNat))) ∧
    (Issues s g f h (operandsOf (Reg.chk a 1)) →
      Runs (.pmov h (.set a m)) s
        (after s { f with preds := (f.preds &&& ~~~m) ||| ((f.r (f.reg a)).extractLsb' 0 12 &&& m) })) ∧
    (Issues s g f h (operandsOf (Reg.chk a 2 ++ Src.chk y 1 ++ Reg.chk d 2)) →
      Runs (.aadd h d a y t) s (after s (f.wr d 2 (Ty.ofI .z64 ((f.rdPair a).toNat + f.rdI t y))))) ∧
    (Issues s g f h (operandsOf (Src.chk x 1 ++ Src.chk y 1 ++ Reg.chk d 2)) →
      Runs (.amad h d x y t) s
        (after s (f.wr d 2 (Ty.ofI .z64 ((f.rdPair d).toNat + f.rdI t x * f.rdI t y)))))

/-- SEL (R142): A where p[B] differs from the inversion bit, and D as it was where it does not; no flag. -/
def Obligations.Select : Prop :=
  ∀ (s : State) (g : Group) (f : Fibre) (h : Hdr) (d : Reg) (a : Src) (p : BitVec 4) (t : Ty) (inv : Bool),
    Issues s g f h (operandsOf (Src.chk a t.regs ++ Reg.chk d t.regs)) →
    (f.p p ≠ inv → Runs (.sel h d a p t inv) s (after s (f.wr d t.regs (f.src t a)))) ∧
    (f.p p = inv → Runs (.sel h d a p t inv) s (after s f))

/-- Compares and predicates (R86, R149, R150): the predicate named by D takes the outcome; FCMP gathers its flags. An immediate
that is rounded to .f16 or .bf16 sets no flag of that conversion: the model's choice, assumption 48. -/
def Obligations.Compares : Prop :=
  ∀ (s : State) (g : Group) (f : Fibre) (h : Hdr) (p q r lut : BitVec 4) (a b : Src) (t : Ty) (c : Cond),
    (Issues s g f h (operandsOf (Src.chk a t.regs ++ Src.chk b t.regs)) →
      let x := f.rdI t a
      let y := f.rdI t b
      let res (v : Bool) : State := after s (f.setP p v)
      Runs (.icmp h p a b t .eq) s (res (decide (x = y))) ∧ Runs (.icmp h p a b t .ne) s (res (decide (x ≠ y))) ∧
      Runs (.icmp h p a b t .lt) s (res (decide (x < y))) ∧ Runs (.icmp h p a b t .le) s (res (decide (x ≤ y))) ∧
      Runs (.icmp h p a b t .gt) s (res (decide (x > y))) ∧ Runs (.icmp h p a b t .ge) s (res (decide (x ≥ y)))) ∧
    (Issues s g f h (operandsOf (Src.chk a 1 ++ Src.chk b 1)) →
      Runs (.fcmp h p a b t c) s (after s ((f.setP p (fcmp t c (f.fsrc t a) (f.fsrc t b)).1).addFlags
        (fcmp t c (f.fsrc t a) (f.fsrc t b)).2))) ∧
    (Issues s g f h (operandsOf []) →
      Runs (.plop h p q r lut) s (after s (f.setP p (lut.getLsbD (2 * (f.p q).toNat + (f.p r).toNat)))))

/-- Packed halves and conversions (R87, R90 to R94). That an immediate of HADD2, HMUL2 and HFMA2 sets no flag of its
conversion, and the flags of CVT under SR, are as the model chose them: assumption 48. -/
def Obligations.PackedAndConversions : Prop :=
  ∀ (s : State) (g : Group) (f : Fibre) (h : Hdr) (d a b : Reg) (x y : Src) (t t2 : Ty) (rnd : Rnd) (sat hi : Bool)
    (bsel : BitVec 2),
    (Issues s g f h (operandsOf (Src.chk x 1 ++ Src.chk y 1 ++ Reg.chk d 1)) →
      let res (fn : Nat → Nat × BitVec 7) : State :=
        after s (f.result d 1 ((fn 0).1 + 65536 * (fn 1).1, (fn 0).2 ||| (fn 1).2))
      Runs (.hadd2 h d x y t rnd sat) s (res fun j => fadd t rnd sat (f.half t j x) (f.half t j y)) ∧
      Runs (.hmul2 h d x y t rnd sat) s (res fun j => fmul t rnd sat (f.half t j x) (f.half t j y)) ∧
      Runs (.hfma2 h d x y t rnd sat) s
        (res fun j => ffma t rnd sat (f.half t j x) (f.half t j y) (f.half t j (.reg d)))) ∧
    (Issues s g f h (operandsOf (Src.chk x t2.regs ++ Reg.chk d t.regs)) →
      let r := convert t t2 rnd sat (s.cur.f % 32) (f.cvtSrc t2 bsel hi x)
      Runs (.cvt h d x t t2 rnd sat bsel hi) s (after s (f.result d t.regs (cvtImage t r.1, r.2 ||| cvtSrcFlags t2 x)))) ∧
    (Issues s g f h (operandsOf (Reg.chk a t.packN ++ Reg.chk d 1)) →
      let vs := f.f32s (f.reg a) t.packN
      let qs := vs.zipIdx.map fun p => roundTo t (groupRM t rnd vs p.2) sat p.1
      Runs (.cvtp h d a t rnd sat) s
        (after s (f.result d 1 (packCodes t.width (qs.map (·.1)), mergeFlags (qs.map (·.2)))))) ∧
    (Issues s g f h (operandsOf [.span a 32 4, .lane b 1, .span d (blockRegs t) 4]) →
      let r := quantBlock t rnd (f.f32s (f.reg a) 32)
      Runs (.cvtx h d a b t rnd) s
        (after s (((f.wr d (blockRegs t) (packCodes t.width r.1)).wr b 1 r.2.1).addFlags r.2.2)))

/-! ### Clauses, transfers, and the fibres of a rank and a group -/

/-- A clause header whose WAIT counters are all zero starts its body at the next word, with the SET choices of the
header, and the flags that came with those counters are read from then on (R39 to R42, R44, R152); NOP and YIELD only go
on, YIELD out of the next round (R106). The fibre's age is counted afresh from the cycle after the header, with YLD (R102,
R105) or without it: that a header without YLD counts as an issue of R102 is read by inference, the model's own reading
(assumption 57). -/
def Obligations.Clauses : Prop :=
  ∀ (s : State) (g : Group) (f : Fibre) (h : Hdr) (c : Clause),
    (s.group? s.cur.g = some g → g.fibre? s.cur.f = some f → f.pos.atHdr = true →
      (∀ n, n < 12 → c.wait.getLsbD n = true → f.ctr (BitVec.ofNat 4 n) = 0#6) →
      Runs (.clause c) s (s.updFibre s.cur fun _ => (f.observe c.wait).goTo
        { pc := f.pos.pc + 12#64, atHdr := false, seta := c.seta, setb := c.setb, len := c.len, idx := 0#3 } s.cycle)) ∧
    (Issues s g f h (operandsOf []) →
      Runs (.nop h) s (after s f) ∧ Runs (.yield h) s (after s { f with skip := true }))

/-- BRA, CALL, BRX and RET (R50, R51, R108, R109): control passes to the clause header at PC + 12 × IMM, or at the
address in a pair; CALL writes the address of the word after it. -/
def Obligations.Transfers : Prop :=
  ∀ (s s1 : State) (g : Group) (f : Fibre) (h : Hdr) (d a : Reg) (imm : BitVec 40) (w : IWord),
    (let to_ := f.pos.pc + 12#64 * imm.signExtend 64
     to_.toNat % 12 = 0 → s.fetch g.coreOr0 g.ctx to_ = (.word w, s1) → isHeader w = true →
      (Issues s g f h { lastWord := true } →
        Runs (.bra h imm) s (s1.updFibre s.cur fun _ => f.goTo { pc := to_ } s.cycle)) ∧
      (Issues s g f h { lastWord := true, chks := Reg.chk d 2 } →
        Runs (.call h d imm) s
          (s1.updFibre s.cur fun _ => (f.wr d 2 (f.pos.pc + 12#64).toNat).goTo { pc := to_ } s.cycle))) ∧
    (let to_ := f.rdPair a
     to_.toNat % 12 = 0 → to_.toNat < 2 ^ 56 → s.fetch g.coreOr0 g.ctx to_ = (.word w, s1) → isHeader w = true →
      Issues s g f h { lastWord := true, chks := Reg.chk a 2 } →
        Runs (.brx h a) s (s1.updFibre s.cur fun _ => f.goTo { pc := to_ } s.cycle) ∧
        Runs (.ret h a) s (s1.updFibre s.cur fun _ => f.goTo { pc := to_ } s.cycle))

/-- JSET and JDROP change the fibre's membership of a mask, JWAIT and JWAITT arrive at it and wait; one that is no
member goes on, JWAITT with 1 in its predicate (R111, R112). -/
def rejoinMasksPart : Prop :=
  ∀ (s : State) (g : Group) (f : Fibre) (h : Hdr) (m : BitVec 3) (p : BitVec 4) (budget : BitVec 16),
    Issues s g f h (operandsOf []) →
    let rank := s.cur.f / 32
    let me : BitVec 32 := 1#32 <<< (s.cur.f % 32)
    let member (on : Bool) : State := (s.updGroup s.cur.g fun x => x.setMask rank m
      (if on then x.mask rank m ||| me else x.mask rank m &&& ~~~me) (x.arrivedAt rank m &&& ~~~me)).settleRank s.cur.g rank
    let arrive (q : Option (BitVec 4)) (n : BitVec 16) : State := (s.updGroup s.cur.g fun x =>
      (x.setMask rank m (x.mask rank m) (x.arrivedAt rank m ||| me)).updFibre s.cur.f fun v =>
        { v with stat := .wait (.join m q), since := s.cycle, budget := n }).settleRank s.cur.g rank
    Runs (.jset h m) s (went s (member true)) ∧ Runs (.jdrop h m) s (went s (member false)) ∧
    (g.mask rank m &&& me = 0#32 →
      Runs (.jwait h m) s (after s f) ∧ Runs (.jwaitt h p m budget) s (after s (f.setP p true))) ∧
    (g.mask rank m &&& me ≠ 0#32 →
      Runs (.jwait h m) s (kept s (arrive none 0#16)) ∧ Runs (.jwaitt h p m budget) s (kept s (arrive (some p) budget)))

/-- A fibre that is no member of the mask takes part alone: RXCHG gives it its own A, a vote its own predicate (R113 to
R115), RRED the reduction of its own value (R116). -/
def loneExchangePart : Prop :=
  ∀ (s : State) (g : Group) (f : Fibre) (h : Hdr) (d a : Reg) (b : Src) (t : Ty) (mode : XMode) (m : BitVec 3)
    (p q : BitVec 4) (op : AtomOp),
    (g.mask (s.cur.f / 32) m).getLsbD (s.cur.f % 32) = false →
    (Issues s g f h (operandsOf (Reg.chk a t.regs ++ Src.chk b 1 ++ Reg.chk d t.regs)) →
      Runs (.rxchg h d a b t mode m) s (after s (f.wr d (if t = .b64 then 2 else 1) (dw (f.rd t a)).toNat))) ∧
    (Issues s g f h (operandsOf (Reg.chk d 1)) →
      Runs (.rvote h (.reg d) p .ballot m) s (after s (f.wr d 1 (if f.p p then 2 ^ (s.cur.f % 32) else 0)))) ∧
    (Issues s g f h (operandsOf []) →
      Runs (.rvote h (.pred q) p .any m) s (after s (f.setP q (f.p p))) ∧
      Runs (.rvote h (.pred q) p .all m) s (after s (f.setP q (f.p p)))) ∧
    (Issues s g f h (operandsOf (Reg.chk a 1 ++ Reg.chk d 1)) →
      Runs (.rred h d a t op m) s (after s (f.result d 1 (redResult op t [(s.cur.f % 32, (f.r (f.reg a)).toNat)]))))

/-- The last member of a mask to arrive at it releases them all: the mask and its arrivals are cleared, and every fibre
of the rank that waits there goes on, JWAITT with 1 in its predicate (R111, R112). -/
def releasePart : Prop :=
  ∀ (s : State) (g : Group) (f : Fibre) (h : Hdr) (m : BitVec 3) (p : BitVec 4) (budget : BitVec 16),
    Issues s g f h (operandsOf []) → Tab.wf 0#32 g.masks = true → Tab.wf 0#32 g.arrived = true → g.rvs = [] →
    let rank := s.cur.f / 32
    let me : BitVec 32 := 1#32 <<< (s.cur.f % 32)
    g.mask rank m &&& me ≠ 0#32 → g.mask rank m &&& ~~~(g.arrivedAt rank m ||| me) = 0#32 →
    (∀ k, k ≠ m → g.mask rank k = 0#32 ∨ g.mask rank k &&& ~~~(g.arrivedAt rank k) ≠ 0#32) →
    let released (i : Instr) (v : Fibre) : Prop := ∃ t x, Runs i s t ∧ t.group? s.cur.g = some x ∧ x.mask rank m = 0#32 ∧
      x.arrivedAt rank m = 0#32 ∧ x.fibre? s.cur.f = some v ∧
      ∀ n w, n ≠ s.cur.f → n / 32 = rank → g.fibre? n = some w → (w.stat = .wait (.join m none) →
        x.fibre? n = some (w.advance s.cycle)) ∧ (∀ q, w.stat = .wait (.join m (some q)) →
        x.fibre? n = some ((w.advance s.cycle).setP q true))
    released (.jwait h m) { f.advance s.cycle with budget := 0#16 } ∧
    released (.jwaitt h p m budget) { (f.advance s.cycle).setP p true with budget }

/-- The last member to come to an exchange performs it: every other member of the mask in the rank is present, and each
contributor takes its result and goes on, in one step (R113). -/
def performedPart : Prop :=
  ∀ (s : State) (g : Group) (f : Fibre) (h : Hdr) (d a : Reg) (b : Src) (t : Ty) (mode : XMode) (m : BitVec 3)
    (p q : BitVec 4) (op : AtomOp) (ms : List Member),
    let rank := s.cur.f / 32
    (g.mask rank m).getLsbD (s.cur.f % 32) = true → g.rvs = [⟨rank, f.pos.pc, some m, ms, false⟩] →
    (∀ k ∈ ms, k.lane ≠ s.cur.f % 32 ∧ ∀ c n, k.offer ≠ some (.claim c n) ∧ k.offer ≠ some (.surr c n)) →
    (∀ w ∈ g.fibres, w.1 / 32 = rank → (g.mask rank m).getLsbD (w.1 % 32) = true →
      (w.1 = s.cur.f ∧ w.2 = f) ∨ ∃ k ∈ ms, k.lane = w.1 % 32 ∧ k.inc = w.2.inc) →
    (∀ k, g.mask rank k = 0#32 ∨ g.mask rank k &&& ~~~(g.arrivedAt rank k) ≠ 0#32) →
    let done (i : Instr) (o : Offer) : Prop :=
      let cs := (⟨rank, f.pos.pc, some m, ⟨s.cur.f % 32, f.inc, some o⟩ :: ms, false⟩ : Rendezvous).contributors
      let x := ({ g with rvs := [] } : Group).updFibre s.cur.f fun v => { v with stat := .wait .rendezvous }
      Runs i s (kept s (s.setGroup s.cur.g ((exchange cs).foldl (fun z u =>
        z.updFibre (32 * rank + u.1) fun v => (u.2 v).advance s.cycle) x)))
    (Issues s g f h (operandsOf (Reg.chk a t.regs ++ Src.chk b 1 ++ Reg.chk d t.regs)) →
      done (.rxchg h d a b t mode m) (.xchg mode (dw (f.rd t a)) (f.src .z32 b % 32) (f.reg d) (t == .b64))) ∧
    (Issues s g f h (operandsOf (Reg.chk d 1)) →
      done (.rvote h (.reg d) p .ballot m) (.vote .ballot (f.p p) (f.reg d))) ∧
    (Issues s g f h (operandsOf []) →
      done (.rvote h (.pred q) p .any m) (.vote .any (f.p p) q.toNat) ∧
      done (.rvote h (.pred q) p .all m) (.vote .all (f.p p) q.toNat)) ∧
    (Issues s g f h (operandsOf (Reg.chk a 1 ++ Reg.chk d 1)) →
      done (.rred h d a t op m) (.red op t (f.r (f.reg a)) (f.reg d)))

/-- What a contributor takes from an exchange among `cs`, in lane order (R114 to R116): RXCHG the value of the contributor
that its mode names, or its own where there is none; RVOTE the lanes, the disjunction or the conjunction of the predicates;
RRED the sum of integers, narrowed, or what the fixed tree of lanes gives. -/
def receivedPart : Prop :=
  ∀ (cs : List (Nat × Offer)) (i l d : Nat) (f : Fibre),
    let n := cs.length
    let takes (u : Fibre) : Prop := ((exchange cs)[i]?).map (fun c => (c.1, c.2 f)) = some (l, u)
    (∀ mode w k wide, cs[i]? = some (l, .xchg mode w k d wide) →
      let got (j : Nat) : Prop := ∀ l' mode' w' k' d' wide', cs[j]? = some (l', .xchg mode' w' k' d' wide') →
        takes (f.setN d (if wide then 2 else 1) w'.toNat)
      (mode = .pos → k < n → got k) ∧ (mode = .pos → n ≤ k → takes (f.setN d (if wide then 2 else 1) w.toNat)) ∧
      (mode = .rot → got ((i + k) % n)) ∧ (mode = .rev → got (n - 1 - i)) ∧ (mode = .last → got (n - 1))) ∧
    (∀ mode b, cs[i]? = some (l, .vote mode b d) →
      let yes (c : Nat × Offer) : Bool := match c.2 with
        | .vote _ v _ => v
        | _ => false
      (mode = .any → takes (f.setP (BitVec.ofNat 4 d) (cs.any yes))) ∧
      (mode = .all → takes (f.setP (BitVec.ofNat 4 d) (cs.all yes))) ∧
      (mode = .ballot → takes (f.setN d 1 ((cs.filter yes).map fun c => 2 ^ c.1).sum))) ∧
    (∀ op t w, cs[i]? = some (l, .red op t w d) →
      let vs := cs.filterMap fun c => match c.2 with
        | .red _ _ v _ => some (c.1, v.toNat)
        | _ => none
      takes ((f.setN d 1 (redResult op t vs).1).addFlags (redResult op t vs).2) ∧
      (op = .add → t ≠ .f32 → redResult op t vs = intResult t false ((vs.map fun v => Ty.toI t v.2).sum)))

/-- The rejoin masks of a rank; exchanges among the members of a mask, and of a fibre that is no member of it. -/
def Obligations.RanksAndExchange : Prop :=
  rejoinMasksPart ∧ releasePart ∧ loneExchangePart ∧ performedPart ∧ receivedPart

/-- The rendezvous of a rank at a CLAIM or SURR of c (R153 to R155), at which the members `ms` are present. While some live gang
fibre of the rank is absent, a fibre that comes waits there. The last to come completes it: a claim that the pool covers and
Amax allows gives the rank c blocks, a surrender takes c from it, and D of every member that contributes holds the new number
of registers; a surrender stays open while a member has an outstanding write to a register that goes. -/
def Obligations.ClaimAndSurrender : Prop :=
  ∀ (s : State) (g : Group) (f : Fibre) (h : Hdr) (d : Reg) (c : BitVec 14) (ms : List Member) (claim : Bool),
    let rank := s.cur.f / 32
    let lane := s.cur.f % 32
    let a := g.blocks rank
    let word : Instr := if claim then .claim h d c else .surr h d c
    let offer (k : Nat) : Offer := if claim then .claim c.toNat k else .surr c.toNat k
    let at_ (l : List Member) (full : Bool) : Rendezvous := ⟨rank, f.pos.pc, none, l, full⟩
    let all := (⟨lane, f.inc, some (offer (f.reg d))⟩ : Member) :: ms
    let here (n : Nat) (w : Fibre) : Prop := n = s.cur.f ∨ ∃ k ∈ ms, k.lane = n % 32 ∧ k.inc = w.inc
    let writes (k : Member) (o : Op) : Prop := o.fib = ⟨s.cur.g, 32 * rank + k.lane⟩ ∧ o.inc = k.inc ∧
      ∃ r ∈ o.dst, 16 * (a - c.toNat) ≤ r
    Issues s g f h { gangOnly := true, chks := Reg.chk d 1 } →
    g.rvs = (if ms = [] then [] else [at_ ms false]) → g.claims = [] → 0 < c.toNat → Tab.wf 0 g.alloc = true → a ≤ 128 →
    (g.fibres.map (·.1)).Pairwise (· < ·) → (all.map (·.lane)).Nodup → (∀ k ∈ ms, k.lane < 32) →
    (∀ j, g.mask rank j = 0#32 ∨ g.mask rank j &&& ~~~(g.arrivedAt rank j) ≠ 0#32) →
    (∀ k ∈ all, ∀ x, k.offer = some x → ∃ r w, x = offer r ∧ g.fibre? (32 * rank + k.lane) = some w ∧
      Tab.wf 0#32 w.regs = true ∧ (claim = false → r < 16 * (a - c.toNat))) →
    let done (n : Nat) : Prop := ∃ t x, Runs word s t ∧ t.group? s.cur.g = some x ∧ x.blocks rank = n ∧ x.rvs = [] ∧
      ∀ k ∈ all, ∀ r w, k.offer = some (offer r) → g.fibre? (32 * rank + k.lane) = some w →
        ∃ v, x.fibre? (32 * rank + k.lane) = some v ∧ (v.r r).toNat = 16 * n ∧ v.pos = w.pos.next ∧ v.stat = .ready
    ((∃ p ∈ g.fibres, p.1 / 32 = rank ∧ p.2.wave = false ∧ ¬ here p.1 p.2) →
      Runs word s (kept s (s.setGroup s.cur.g (({ g with rvs := [at_ all false] } : Group).updFibre s.cur.f fun v =>
        { v with stat := .wait .rendezvous })))) ∧
    ((∀ p ∈ g.fibres, p.1 / 32 = rank → p.2.wave = false → here p.1 p.2) →
      (claim = true → a + c.toNat ≤ g.amax → c.toNat ≤ g.pool → done (a + c.toNat)) ∧
      (claim = false → c.toNat < a → (∀ k ∈ all, ∀ o ∈ s.ops, ¬ writes k o) → done (a - c.toNat)) ∧
      (claim = false → c.toNat < a → (∃ k ∈ all, ∃ o ∈ s.ops, writes k o) → ∃ t x v, Runs word s t ∧
        t.group? s.cur.g = some x ∧ x.rvs = [at_ all true] ∧ x.blocks rank = a ∧ x.fibre? s.cur.f = some v ∧
        v.stat = .wait .rendezvous ∧ v.pos = f.pos))

/-- FNEW starts the lowest free fibre at an entry that is a multiple of 12 below 2^56, with v0 from B, and D names it or
holds all ones where none is free (R117); FEND ends its fibre, but the last of a cluster member that has not exited raises
CLUSTER_EXIT (R118, R119). -/
def startAndEndPart : Prop :=
  ∀ (s : State) (g : Group) (f : Fibre) (h : Hdr) (d a : Reg) (b : Src),
    (Issues s g f h { gangOnly := true, chks := Reg.chk a 2 ++ Src.chk b 1 ++ Reg.chk d 1 } →
      let entry := f.rdPair a
      let s1 := s.reclaim s.cur.g
      entry.toNat % 12 = 0 → entry.toNat < 2 ^ 56 →
      ((∀ x, s1.group? s.cur.g = some x → s1.freeFibre s.cur.g x = none) →
        Runs (.fnew h d a b) s (went s (s1.updFibre s.cur fun v => v.wr d 1 0xFFFFFFFF))) ∧
      (∀ x n, s1.group? s.cur.g = some x → s1.freeFibre s.cur.g x = some n →
        Runs (.fnew h d a b) s (went s ((s1.startFibre s.cur.g n f entry (BitVec.ofNat 32 (f.src .b32 b))).updFibre s.cur
          fun v => v.wr d 1 n)))) ∧
    (Issues s g f h (operandsOf []) →
      let last : Prop := f.wave = false ∧ 2 ≤ g.lr.cl ∧ g.gang = [s.cur.f] ∧ (s.cbarOf g).exited = false
      (¬ last → Runs (.fend h) s (kept s (s.endFibre s.cur))) ∧
      (last → Runs (.fend h) s (s.takeTrap s.cur .clusterExit 0#64)))

/-- FEND takes its fibre out of its group, of every rejoin mask, every barrier and every rendezvous; a mask, a barrier phase and
an exchange that its leaving completes are completed then, and the fibres that waited go on (R118, R120). A fibre of its rank
goes on living here. -/
def leavingPart : Prop :=
  ∀ (s : State) (g : Group) (f : Fibre) (h : Hdr) (r : Rendezvous),
    let rank := s.cur.f / 32
    let lane := s.cur.f % 32
    let left (m : BitVec 3) : BitVec 32 := g.mask rank m &&& ~~~(1#32 <<< lane)
    let due (m : BitVec 3) : Prop := left m ≠ 0#32 ∧ left m &&& ~~~(g.arrivedAt rank m) = 0#32
    let stays (l : Member) : Bool := l.lane != lane
    Issues s g f h (operandsOf []) → f.slot = none → g.claims = [] →
    (g.fibres.map (·.1)).Pairwise (· < ·) → Tab.wf 0#32 g.masks = true → Tab.wf 0#32 g.arrived = true →
    Tab.wf {} g.bars = true → (∃ p ∈ g.fibres, p.1 ≠ s.cur.f ∧ p.1 / 32 = rank ∧ p.2.wave = false) →
    (g.rvs = [] → ∃ t x, Runs (.fend h) s t ∧ t.group? s.cur.g = some x ∧ x.fibre? s.cur.f = none ∧
      (∀ m, (x.mask rank m).getLsbD lane = false ∧ (x.arrivedAt rank m).getLsbD lane = false) ∧
      (∀ n, s.cur.f ∉ (x.bar n).arrived ∧ s.cur.f ∉ (x.bar n).joined) ∧
      (∀ m, due m → x.mask rank m = 0#32 ∧ ∀ k w, k ≠ s.cur.f → k / 32 = rank → g.fibre? k = some w →
        w.stat = .wait (.join m none) → x.fibre? k = some (w.advance s.cycle)) ∧
      (∀ n, (∀ k ∈ g.expected (g.bar n), k = s.cur.f ∨ k ∈ (g.bar n).arrived) →
        (x.bar n).phase = (g.bar n).phase + 1 ∧ ∀ k w, k ≠ s.cur.f → g.fibre? k = some w → w.stat = .wait (.bar n false) →
          x.fibre? k = some ((w.setPending n none).advance s.cycle))) ∧
    (g.rvs = [r] → r.rank = rank → r.full = false → (∀ m, ¬ due m) → ∀ m, r.mask = some m →
      (∀ l ∈ r.members, l.lane < 32 ∧ ∀ c n, l.offer ≠ some (.claim c n) ∧ l.offer ≠ some (.surr c n)) →
      (r.members.map (·.lane)).Nodup →
      let absent : Prop := ∃ p ∈ g.fibres, p.1 ≠ s.cur.f ∧ p.1 / 32 = rank ∧ (g.mask rank m).getLsbD (p.1 % 32) = true ∧
        ¬ ∃ l ∈ r.members, l.lane = p.1 % 32 ∧ l.inc = p.2.inc
      ∃ t x, Runs (.fend h) s t ∧ t.group? s.cur.g = some x ∧
        (absent → x.rvs = [{ r with members := r.members.filter stays }]) ∧
        (¬ absent → x.rvs = [] ∧ ∀ u ∈ exchange ({ r with members := r.members.filter stays } : Rendezvous).contributors,
          ∀ w, g.fibre? (32 * rank + u.1) = some w → w.stat = .wait .rendezvous →
            x.fibre? (32 * rank + u.1) = some ((u.2 w).advance s.cycle)))

/-- BAR and BARA arrive at the current phase of a barrier. The arrival of the last fibre that the phase expects completes it: the
next phase begins, with no arrival, every fibre that waits for the phase goes on, and one that waited only to arrive issues
again; else BAR waits. A fibre whose arrival is pending in the current phase first waits for its completion. BARW waits for an arrival that is pending in the current phase and else clears its record (R120, R121). -/
def barriersPart : Prop :=
  ∀ (s : State) (g : Group) (f : Fibre) (h : Hdr) (n : BitVec 4), Issues s g f h { gangOnly := true } →
    let b := g.bar n
    let awaited : Prop := ∃ k ∈ g.expected b, k ≠ s.cur.f ∧ k ∉ b.arrived
    (f.pending n ≠ some b.phase → s.scratchBusy s.cur f.inc = false → Tab.wf {} g.bars = true → Tab.wf none f.bars = true →
      (awaited →
        let arrived (u : Fibre) : State := s.setGroup s.cur.g ((g.setBar n { b with arrived := s.cur.f :: b.arrived }).setFibre
          s.cur.f u)
        let p := f.setPending n (some b.phase)
        Runs (.bar h n) s (kept s (arrived { p with stat := .wait (.bar n false) })) ∧
        Runs (.bara h n) s (kept s (arrived (p.advance s.cycle)))) ∧
      (¬ awaited → ∀ i ∈ [Instr.bar h n, .bara h n], ∃ t x v, Runs i s t ∧ t.group? s.cur.g = some x ∧
        x.bar n = { phase := b.phase + 1 } ∧ x.fibre? s.cur.f = some v ∧ v.pos = f.pos.next ∧ v.stat = .ready ∧
        v.pending n = (if i = .bar h n then none else some b.phase) ∧
        ∀ k w, k ≠ s.cur.f → g.fibre? k = some w →
          (w.stat = .wait (.bar n false) → x.fibre? k = some ((w.setPending n none).advance s.cycle)) ∧
          (w.stat = .wait (.bar n true) → x.fibre? k = some (w.wake s.cycle)) ∧
          ((∀ e, w.stat ≠ .wait (.bar n e)) → x.fibre? k = some w))) ∧
    (f.pending n ≠ some b.phase → Runs (.barw h n) s (after s (f.setPending n none))) ∧
    (f.pending n = some b.phase →
      let waits (again : Bool) : State := s.updFibre s.cur fun _ => { f with stat := .wait (.bar n again), grant := none }
      Runs (.barw h n) s (waits false) ∧ Runs (.bar h n) s (waits true) ∧ Runs (.bara h n) s (waits true))

/-- CBAR and CBARX do the same for a cluster, whose barrier its member 0 keeps; the phase of a CBARX, as it completes, marks
every member exited. Once they have, either raises CLUSTER_EXIT, and so does one at which the other's waiters stand (R120,
R122). -/
def clusterBarrierPart : Prop :=
  ∀ (s : State) (g y : Group) (f w : Fibre) (h : Hdr) (exit : Bool) (m j k : Nat), Issues s g f h { gangOnly := true } →
    (s.groups.map (·.1)).Pairwise (· < ·) →
    let b := s.cbarOf g
    let word : Instr := if exit then .cbarx h else .cbar h
    let awaited : Prop := ∃ p ∈ s.clusterExpected s.cur.g b, p ≠ (s.cur.g, s.cur.f) ∧ p ∉ b.arrived
    (b.exited = true ∨ b.exit_ = some (!exit) → Runs word s (s.takeTrap s.cur .clusterExit 0#64)) ∧
    (b.exited = false → b.exit_ ≠ some (!exit) → s.scratchBusy s.cur f.inc = false →
      (awaited → Runs word s (kept s ((s.updCbar g fun c =>
        { c with arrived := (s.cur.g, s.cur.f) :: c.arrived, exit_ := some exit }).updFibre s.cur fun v =>
          { v with stat := .wait .cbar }))) ∧
      (¬ awaited → s.member? g 0 = some m →
        ∃ t x z v, Runs word s t ∧ t.group? m = some z ∧ z.cbar = { phase := b.phase + 1, exited := exit } ∧
          t.group? s.cur.g = some x ∧ x.fibre? s.cur.f = some v ∧ v.pos = f.pos.next ∧ v.stat = .ready ∧
          (j ∈ s.clusterOf s.cur.g → s.group? j = some y → y.fibre? k = some w → w.stat = .wait .cbar →
            (j, k) ≠ (s.cur.g, s.cur.f) → ∃ q, t.group? j = some q ∧ q.fibre? k = some (w.advance s.cycle))))

/-- Starting and ending fibres, and the barriers of a group and a cluster. What the rules leave open is as the model
chose it: assumptions 7 and 41. -/
def Obligations.StartEndAndBarriers : Prop := startAndEndPart ∧ leavingPart ∧ barriersPart ∧ clusterBarrierPart

/-- TASK posts a task with the entry, the buffer mask and the argument it names (R123); FORK posts a child launch and
suspends its fibre, or answers 2 at the depth limit (R125). -/
def Obligations.TasksAndForks : Prop :=
  ∀ (s : State) (g : Group) (f : Fibre) (h : Hdr) (d a b : Reg),
    (Issues s g f h (operandsOf (Reg.chk a 2 ++ Reg.chk b 2 ++ Reg.chk d 2)) →
      (f.rdPair a).toNat % 12 = 0 → (f.rdPair a).toNat < 2 ^ 56 →
      (∀ n, n < 64 → (f.rdPair d).getLsbD n = true → n < g.lr.nb) → g.tasks.length < 256 →
      let t : Task := { entry := f.rdPair a, mask := f.rdPair d, arg := f.rdPair b, tmask := f.tmask &&& ~~~0x80#64
                        ready := false }
      Runs (.task h d a b) s (went s (s.updGroup s.cur.g fun x =>
        ({ x with tasks := x.tasks ++ [t] } : Group).markTasks))) ∧
    (Issues s g f h { gangOnly := true, chks := Reg.chk a 2 ++ Reg.chk d 1 } → g.lr.cl < 2 →
      (f.rdPair a).toNat % 64 = 0 → (f.rdPair a).toNat < 2 ^ 56 →
      let depth := ((Tab.find s.launches g.launch).map (·.depth)).getD 0
      (depth < 16 → Runs (.fork h d a) s (kept s (s.postChild g f (f.reg d) (f.rdPair a)))) ∧
      (16 ≤ depth → Runs (.fork h d a) s (after s (f.wr d 1 2))))

/-- What the package does for fibres and groups when it is due. Once the cycle is over the next one begins, and every fourth
has a round of the sheaf former: its picks are the sheaves of the busy cores (R101, R112). A unit with room accepts a fibre
that began to wait no later than any other waiter of the unit on the core (R103), the array none while a swap of its group
is due (R198). A JWAITT budget that no release in its cycle can still beat runs out (R112), a wave of tasks starts (R124),
claims are granted (R155), and a group is switched out with its cluster once every fibre of each of them that has not ended
is parked or waits on a parked one (R126). That the package's units act one at a time, and in which order, is as the model
chose it, and so is the order among a round's sheaves where R101 leaves it open: assumptions 4, 15 and 57. -/
def Obligations.GroupEvents : Prop :=
  ∀ (s : State) (g c n : Nat) (x y : Group) (f : Fibre) (u : UnitId) (m : BitVec 3) (p : BitVec 4),
    (s.cycleOver = true →
      ∃ t, Runs .sheafRound s t ∧ t.cycle = s.cycle + 1 ∧ ((s.cycle + 1) % 4 ≠ 0 → t = s.nextCycle) ∧
        ((s.cycle + 1) % 4 = 0 → t.issue.map (fun k => (k.core, k.fib)) =
          s.nextCycle.busyCores.flatMap fun k => (s.nextCycle.coreSheaves k).flatMap fun sh => sh.2.map fun l => (k, ⟨sh.1, l⟩))) ∧
    (s.unitRoom c u = true → s.unitGranted c u = false → s.unitWaiters c u ≠ [] →
      (u = .matrix → ∀ w ∈ s.unitWaiters c u, ∀ z, s.group? w.2.g = some z → z.swapDue = false) →
      ∃ w ∈ s.unitWaiters c u, (∀ v ∈ s.unitWaiters c u, w.1 ≤ v.1) ∧
        Runs (.sharedUnitAccept c u) s (s.updFibre w.2 fun v => { v.wake s.cycle with grant := some u })) ∧
    (s.group? g = some x → x.fibre? n = some f → x.core? = some c → f.budget = 0#16 →
      f.stat = .wait (.join m (some p)) → s.issuing g = false →
      Runs (.jwaittBudgetExpiry g n) s (s.setGroup g ((x.setMask (n / 32) m (x.mask (n / 32) m)
        (x.arrivedAt (n / 32) m &&& ~~~(laneBit n))).setFibre n ((f.advance s.cycle).setP p false)))) ∧
    ((s.reclaim g).group? g = some y → y.core? = some c → y.stopping = false → y.forked = none →
      ∀ r k, (s.reclaim g).waveRank g y = some r → y.tasks.find? (·.ready) = some k →
        Runs (.taskWaveStart g) s ((s.reclaim g).startWave g y r k.entry)) ∧
    (s.group? g = some x → x.core? = some c → (∀ v ∈ x.rvs, v.mask ≠ none) →
      Runs (.claimGrant g) s ((s.reclaim g).updGroup g fun z => z.grant s.cycle z.claims)) ∧
    (g ∈ s.clusterOf g → (∀ k ∈ s.clusterOf g, ∃ z, s.group? k = some z ∧ (z.loc = .ended ∨ (z.core?.isSome = true ∧
        (∃ v ∈ z.fibres, v.2.isParked = true) ∧ ∀ v ∈ z.fibres, v.2.stopped = false ∧
          (v.2.isParked = true ∨ s.waitsOnParked k z v.1 v.2 = true)))) →
      Runs (.groupSwitchOut g) s ((s.clusterOf g).foldl
        (fun t k => t.updGroup k fun z => { z with stopping := true, swapped := true }) s))

/-! ### Memory -/

/-- A fibre access of `n` bytes at `va` finds its page: aligned, below 2^56, mapped, and with the rights it asks for
(R245). `s1` is the state after the translation. -/
structure Found (s : State) (g : Group) (va : Dword) (n : Nat) (rd wr : Bool) (p : Page) (s1 : State) : Prop where
  aligned : va.toNat % n = 0
  below : va.toNat < 2 ^ 56
  mapped : s.lookup g.coreOr0 (s.ctx g.ctx).asid (s.genOf (s.ctx g.ctx).asid) va = (some p, s1)
  readable : rd = true → p.rp = true
  writable : wr = true → p.wp = true

/-- The state after a word has issued from `t` a request to a peer whose response its fibre waits for (R248, R314). -/
def asked (s t : State) (g : Group) (f : Fibre) (h : Hdr) (r : PeerReq) (dst : List Nat) (used : List (Nat × Nat) := []) :
    State :=
  kept s ((t.addOp g f (f.counter h) (.peer (t.withRoom t.nextId r)) dst (used := used)).updFibre t.cur fun v =>
    { v with stat := .wait (.peer t.nextId) })

/-- A word issues from `t` a posted request to a peer, and its fibre goes on where the replay buffer of the port has room for
the payload; else it waits for room there (R103, R247, R326). -/
def Sends (i : Instr) (s t : State) (g : Group) (f : Fibre) (h : Hdr) (r : PeerReq) (nodrain : Bool)
    (used : List (Nat × Nat) := []) : Prop :=
  let put (room : Option Nat) : State :=
    t.addOp g f (f.counter h) (.peer { r with room }) [] (nodrain := nodrain) (used := used)
  (t.takesRoom r = false → Runs i s (went s (put none))) ∧
  (∀ q, t.takesRoom r = true → t.roomFor t.nextId r = some q → Runs i s (went s (put (some q)))) ∧
  (t.takesRoom r = true → t.roomFor t.nextId r = none → Runs i s (kept s ((put none).updFibre t.cur fun v =>
    { v with stat := .wait (.port t.nextId) })))

/-- LD, ST, ATOM and RED on a NEAR page issue their operation, which holds the bytes' place in the shared SRAM and what it
will write (R245, R246). Where some copy of the bytes that LD or ATOM returns holds an uncorrectable error, it is performed as
it issues, once no earlier access of its fibre to them is outstanding: it raises DATA_ERROR with its address, or lands
(R243). -/
def nearIssuePart : Prop :=
  ∀ (s s1 : State) (g : Group) (f : Fibre) (h : Hdr) (d : Reg) (m : Mem) (t : Ty) (op : AtomOp) (p : Page),
    let va := f.va m
    let n := t.width / 8
    let off := s1.nearOff p va
    let asid := (s1.ctx g.ctx).asid
    let op_ (k : OpKind) (dst : List Nat) : State := went s (s1.addOp g f (f.counter h) k dst (used := [p.span va]))
    0 < n → p.tier = .near →
    (Issues s g f h { counts := true, chks := Mem.chk m 2 ++ Reg.chk d t.regs } →
      (Found s g va n true false p s1 →
        (s1.nearErr off n = false → Runs (.ld h d m t) s (op_ (.ld off t (f.reg d)) (regRange (f.reg d) t.regs))) ∧
        (s1.nearErr off n = true → s1.ownPending s1.cur f.inc off n = false →
          let r := s1.cacheRead g.coreOr0 asid off n
          (r.2.nearBad g.coreOr0 asid off n = true → Runs (.ld h d m t) s (r.2.takeTrap s.cur .dataError va)) ∧
          (r.2.nearBad g.coreOr0 asid off n = false → Runs (.ld h d m t) s
            (went s (r.2.updFibre s1.cur fun v => v.setN (f.reg d) t.regs (loadValue t r.1)))))) ∧
      (Found s g va n false true p s1 →
        Runs (.st h d m t) s (op_ (.st off (leBytes n (f.rN (f.reg d) t.regs))) []))) ∧
    (Issues s g f h { counts := true, chks := Mem.chk m 2 ++ Reg.chk d (op.regs t) } → Found s g va n true true p s1 →
      let x := (f.atomArgs op t d).1
      let y := (f.atomArgs op t d).2
      (s1.nearErr off n = false →
        Runs (.atom h d m t op) s (op_ (.atom off op t x y (some (f.reg d))) (regRange (f.reg d) t.regs))) ∧
      (s1.nearErr off n = true → s1.ownPending s1.cur f.inc off n = false →
        let s2 := s1.dropLine g.coreOr0 asid off
        let old := leNat (s2.sramRead off n)
        let new := atomNew op t old x.toNat y.toNat
        (errIn s2.sramErr off n = true → Runs (.atom h d m t op) s (s2.takeTrap s.cur .dataError va)) ∧
        (errIn s2.sramErr off n = false → Runs (.atom h d m t op) s
          (went s ((s2.sramWrite off (leBytes n new.1)).updFibre s1.cur fun v =>
            (v.setN (f.reg d) t.regs old).lateFlags (f.counter h) new.2)))) ∧
      Runs (.red h d m t op) s (op_ (.atom off op t x y none) []))

/-- On a PEER page LD and ATOM send a request to the package that the page names and wait for the response, ST and RED send
theirs and go on, where the buffer of the port has room; an atomic of type .f32 raises PERMISSION (R247, R248). PROBE issues
the word it will land: the page's attributes and the peer of a PEER page, or 0 where there is no match or the address is at or
above 2^56 (R245, R249). -/
def peerPagesPart : Prop :=
  ∀ (s s1 : State) (g : Group) (f : Fibre) (h : Hdr) (d : Reg) (m : Mem) (t : Ty) (op : AtomOp) (p : Page),
    let va := f.va m
    let n := t.width / 8
    let req (k : PeerKind) : PeerReq :=
      { peer := peerOf p, addr := peerAddr p va, hdr := none, kind := k, handle := none, taddr := va }
    let dst := regRange (f.reg d) t.regs
    (0 < n → p.tier = .peer →
      (Issues s g f h { counts := true, chks := Mem.chk m 2 ++ Reg.chk d t.regs } →
        (Found s g va n true false p s1 →
          Runs (.ld h d m t) s (asked s s1 g f h (req (.read t (f.reg d))) dst [p.span va])) ∧
        (Found s g va n false true p s1 →
          Sends (.st h d m t) s s1 g f h (req (.write (leBytes n (f.rN (f.reg d) t.regs)))) false [p.span va])) ∧
      (Issues s g f h { counts := true, chks := Mem.chk m 2 ++ Reg.chk d (op.regs t) } → Found s g va n true true p s1 →
        let x := (f.atomArgs op t d).1
        let y := (f.atomArgs op t d).2
        (t ≠ .f32 →
          Runs (.atom h d m t op) s (asked s s1 g f h (req (.atomic op t x y (some (f.reg d)))) dst [p.span va]) ∧
          Sends (.red h d m t op) s s1 g f h (req (.atomic op t x y none)) false [p.span va]) ∧
        (t = .f32 → Runs (.atom h d m t op) s (s1.takeTrap s.cur .permission va) ∧
          Runs (.red h d m t op) s (s1.takeTrap s.cur .permission va)))) ∧
    (Issues s g f h { counts := true, chks := Mem.chk m 2 ++ Reg.chk d 2 } →
      let probed (z : State) (w : Dword) : State :=
        went s (z.addOp g f (f.counter h) (.land (f.reg d) 2 w) (regRange (f.reg d) 2))
      (∀ q s2, va.toNat < 2 ^ 56 → s.lookup g.coreOr0 (s.ctx g.ctx).asid (s.genOf (s.ctx g.ctx).asid) va = (q, s2) →
        Runs (.probe h d m) s (probed s2 (match q with
          | some z => dw (2 ^ 63 + 2 ^ 52 * z.attr + if z.tier = .peer then peerOf z else 0)
          | none => 0#64))) ∧
      (2 ^ 56 ≤ va.toNat → Runs (.probe h d m) s (probed s 0#64)))

/-- LD, ST, ATOM and RED as they issue on NEAR and PEER pages, and PROBE on any address. What the rules leave open is as the
model chose it: assumptions 30 (which port's buffer, and the order of the sends at it) and 37 (where an uncorrectable error is
judged as LD and ATOM issue, and that none appears in their bytes after that). -/
def Obligations.NearAccessesIssue : Prop := nearIssuePart ∧ peerPagesPart

/-- An outstanding NEAR access of no earlier access of its fibre to a common byte is performed and completes: a load
lands the bytes its core reads, extended by type; a store goes through its core's cache; an atomic is one
read-modify-write at the shared SRAM, after its core has written back and dropped the line (R47, R243, R246, R250).
What the rules leave open is as the model chose it: assumptions 4, 9 and 37 (no uncorrectable error appears in the bytes of
LD or ATOM after the issue). -/
def Obligations.NearAccessesPerform : Prop :=
  ∀ (s : State) (o : Op) (off d n : Nat) (t : Ty) (op : AtomOp) (x y v : Dword) (r : Option Nat) (bs : List Byte),
    s.op? o.id = some o → s.nearHeld o = false →
    let asid := (s.ctx o.ctx).asid
    (o.kind = .ld off t d →
      let c := s.cacheRead o.core asid off (Ty.bytes t)
      Runs (.countedCompletion o.id) s (c.2.land o d t.regs (loadValue t c.1) 0#7)) ∧
    (o.kind = .st off bs → Runs (.countedCompletion o.id) s ((s.cacheWrite o.core asid off bs (o.fib, o.inc)).finish o)) ∧
    (o.kind = .land d n v → Runs (.countedCompletion o.id) s (s.land o d n v.toNat 0#7)) ∧
    (o.kind = .atom off op t x y r →
      let s1 := s.dropLine o.core asid off
      let old := leNat (s1.sramRead off (Ty.bytes t))
      let new := atomNew op t old x.toNat y.toNat
      let s2 := s1.sramWrite off (leBytes (Ty.bytes t) new.1)
      Runs (.countedCompletion o.id) s (match r with
        | some k => s2.land o k t.regs old new.2
        | none => s2.land o 0 0 0 new.2))

/-- The byte of the shared SRAM that a load of core `c` under an ASID would read: from its cache's line, or from the
SRAM. -/
def coreByte (s : State) (c : Nat) (asid : BitVec 16) (a : Nat) : Byte :=
  match (s.core c).lines.find? fun l => l.asid == asid && l.line == a / 128 with
  | some l => (l.bytes[a % 128]?).getD 0#8
  | none => Memory.get s.sram a

/-- Frame of a store through an empty cache: its core then reads the bytes stored, and every other byte of the shared
SRAM as before; no byte of any memory has changed yet (R243, R246). -/
def Obligations.NearStoreFrame : Prop :=
  ∀ (s t : State) (c off : Nat) (asid : BitVec 16) (bs : List Byte) (w : FRef × Nat),
    (s.core c).lines = [] → off % 128 + bs.length ≤ 128 → off / 128 * 128 + 128 ≤ sramSize →
    t = s.cacheWrite c asid off bs w →
    t.sram = s.sram ∧ t.far = s.far ∧ t.hostMem = s.hostMem ∧
    (∀ i (hi : i < bs.length), coreByte t c asid (off + i) = bs[i]) ∧
    (∀ a, a < sramSize → a < off ∨ off + bs.length ≤ a → coreByte t c asid a = Memory.get s.sram a)

/-- Scratchpad accesses issue where the offset is aligned, in the extent, and in buffers whose state admits them; LDC and
STC name a member of the cluster (R162, R163, R166, R171, R174). -/
def Obligations.ScratchAccessesIssue : Prop :=
  ∀ (s : State) (g x : Group) (f : Fibre) (h : Hdr) (d : Reg) (m : Mem) (t : Ty) (op : AtomOp) (id : Nat),
    let off := f.off m
    let n := t.width / 8
    let o := off % 2 ^ 29
    let bytes := leBytes n (f.rN (f.reg d) t.regs)
    let dst := regRange (f.reg d) t.regs
    0 < n →
    (Issues s g f h { counts := true, chks := Mem.chk m 1 ++ Reg.chk d t.regs } →
      (g.scratchFault off n n false = none → g.eccFault off n = false →
        Runs (.ldp h d m t) s (went s (s.addOp g f (f.counter h) (.ldp off t (f.reg d)) dst s.cur.g [(off, off + n)] []))) ∧
      (g.scratchFault off n n true = none →
        Runs (.stp h d m t) s (went s (s.addOp g f (f.counter h) (.stp off bytes) [] s.cur.g [] [(off, off + n)]))) ∧
      (s.clusterAddr g off n = .inl (id, x) → x.scratchFault o n n false = none → x.eccFault o n = false →
        Runs (.ldc h d m t) s (went s (s.addOp g f (f.counter h) (.ldp o t (f.reg d)) dst id [(o, o + n)] []))) ∧
      (s.clusterAddr g off n = .inl (id, x) → x.scratchFault o n n true = none →
        Runs (.stc h d m t) s (went s (s.addOp g f (f.counter h) (.stp o bytes) [] id [] [(o, o + n)])))) ∧
    (Issues s g f h { counts := true, chks := Mem.chk m 1 ++ Reg.chk d (op.regs t) } →
      g.scratchFault off n n true = none → g.eccFault off n = false →
      Runs (.atomp h d m t op) s (went s (s.addOp g f (f.counter h)
        (.atomp off op t (f.atomArgs op t d).1 (f.atomArgs op t d).2 (f.reg d)) dst s.cur.g [(off, off + n)] [(off, off + n)])))

/-- Frame of a scratchpad store as it is performed: the bytes of the group's scratchpad that it names are those stored
and every other byte is as before, and all else that the group has; of the issuing fibre's own group, which a store to another
member leaves as it is, only that fibre's counter changes; no other group and no memory changes (R162, R172). -/
def scratchStoreFramePart : Prop :=
  ∀ (s : State) (o : Op) (x : Group) (off : Nat) (bs : List Byte),
    s.op? o.id = some o → o.kind = .stp off bs → s.scratchHeld o = false → s.group? o.sg = some x →
    Memory.wf x.scratch = true →
    ∃ t y, Runs (.countedCompletion o.id) s t ∧ t.group? o.sg = some y ∧
      (∀ i (hi : i < bs.length), Memory.get y.scratch (off + i) = bs[i]) ∧
      (∀ a, a < off ∨ off + bs.length ≤ a → Memory.get y.scratch a = Memory.get x.scratch a) ∧
      (let counted (z : Group) : Group := z.updFibre o.fib.f fun w => if w.inc = o.inc then w.uncount o.ctr else w
       y = { x with scratch := y.scratch, scratchErr := y.scratchErr
                    fibres := (if o.fib.g = o.sg then counted x else x).fibres } ∧
       (o.fib.g ≠ o.sg → t.group? o.fib.g = (s.group? o.fib.g).map counted)) ∧
      (∀ k, k ≠ o.sg → k ≠ o.fib.g → t.group? k = s.group? k) ∧
      t.sram = s.sram ∧ t.far = s.far ∧ t.hostMem = s.hostMem

/-- A scratchpad load lands the bytes it names, extended by type (R172). -/
def scratchLoadPart : Prop :=
  ∀ (s : State) (o : Op) (x : Group) (off d : Nat) (t : Ty),
    s.op? o.id = some o → o.kind = .ldp off t d → s.scratchHeld o = false → s.group? o.sg = some x →
    Runs (.countedCompletion o.id) s (s.land o d t.regs (loadValue t (Memory.read x.scratch off (t.width / 8))) 0#7)

/-- Scratchpad stores and loads as they are performed: the bytes they change and leave, and the value they land. What
the rules leave open is as the model chose it: assumption 14. -/
def Obligations.ScratchPerform : Prop := scratchStoreFramePart ∧ scratchLoadPart

/-- The buffer instructions issue the transition of their row of R167, or have no effect where the buffer already holds
the state; BSTAT writes the descriptor (R164, R167, R175 to R177). -/
def buffersPart : Prop :=
  ∀ (s : State) (g : Group) (f : Fibre) (h : Hdr) (n : BitVec 6) (a b : Src) (d : Reg) (t : Ty) (exp : BitVec 2),
    let now := g.bufNow n.toNat
    let issue (ev : BufEvent) : State := ({ (s.updGroup s.cur.g fun x =>
      ({ x with trans := x.trans ++ [(⟨s.nextId, s.cur, n, ev⟩ : Trans)] } : Group).updFibre s.cur.f fun v =>
        { v with stat := .wait (.buffer s.nextId) }) with nextId := s.nextId + 1 } : State).settleTrans s.cur.g
    (Issues s g f h (operandsOf (Src.chk a 1 ++ Src.chk b 1 ++ bufChk g n)) →
      (f.src .z32 b ≠ 0 → g.declFault n (f.src .z32 a) (f.src .z32 b) = none →
        Runs (.bdecl h n a b t exp) s (kept s (issue (.decl (declBuf (f.src .z32 a) (f.src .z32 b) t exp))))) ∧
      (f.src .z32 b = 0 → now.held = false → now.state = .empty →
        Runs (.bdecl h n a b t exp) s (kept s (issue .undecl)))) ∧
    (Issues s g f h (operandsOf (bufChk g n)) → now.decl = true → now.held = false →
      (now.state = .empty → Runs (.bseal h n) s (kept s (issue .seal)) ∧ Runs (.bdone h n) s (after s f)) ∧
      (now.state = .full → Runs (.bdrain h n) s (kept s (issue .drain)) ∧ Runs (.bseal h n) s (after s f)) ∧
      (now.state = .draining → Runs (.bdone h n) s (kept s (issue .done)) ∧ Runs (.bdrain h n) s (after s f))) ∧
    (Issues s g f h (operandsOf (bufChk g n ++ Reg.chk d 2)) →
      Runs (.bstat h d n) s (after s (f.wr d 2 (g.buf n.toNat).word.toNat)))

/-- A transition with nothing before it takes effect: the descriptor changes, and the fibre that waits for it goes on
(R168). A page that a core has found missing is requested once, while fewer than 64 requests are open (R238). -/
def memoryEventsPart : Prop :=
  ∀ (s : State) (g c : Nat) (x : Group) (t : Trans) (m : Miss),
    (s.group? g = some x → x.trans = [t] → s.transReady g x t = true →
      Runs (.bufferTransitionEffect g) s (s.applyTrans g t)) ∧
    ((s.core c).reqs.length < 64 → (s.missesOf c).find? (fun v => !s.covered c v) = some m →
      let a := (s.ctx m.ctx).asid
      let k := s.core c
      let k' : Core := { k with reqs := k.reqs ++ [(a, m.page)], want := k.want.filter fun w => w.1 != m.ctx || w.2.1 != m.page }
      Runs (.pageRequestPost c) s ((s.setCore c k').postFault m.ctx
        [dw (0x10 + 2 ^ 8 * m.acc + 2 ^ 16 * a.toNat + 2 ^ 32 * (s.genOf a).toNat + 2 ^ 40 * c), m.va, 0#64, 0#64]))

/-- The buffer instructions, and the effect of a transition and of a missing page. -/
def Obligations.BuffersAndMemoryEvents : Prop := buffersPart ∧ memoryEventsPart

/-! ### Sweeps, the matrix array, residue banks -/

/-- The sweep instructions and what each computes (R180). -/
def sweeps (h : Hdr) (w : Sweep) : List (Instr × SweepFn) :=
  [(.vadd h w, .add), (.vsub h w, .sub), (.vmul h w, .mul), (.vfma h w, .fma), (.vmin h w, .min), (.vmax h w, .max),
   (.vabs h w, .abs), (.vexp2 h w, .exp2), (.vrcp h w, .rcp), (.vrsq h w, .rsq), (.vtanh h w, .tanh), (.vcvt h w, .cvt),
   (.vcpy h w, .cpy), (.vfill h w, .fill), (.vsumr h w, .sumr), (.vmaxr h w, .maxr), (.vscal h w, .scal),
   (.vselp h w, .selp)]

/-- Every sweep is accepted with its operands as they stand at issue, where R179 finds no fault in them; a count of 0
does nothing (R28, R178 to R180). -/
def sweepsIssuePart : Prop :=
  ∀ (s : State) (g : Group) (f : Fibre) (h : Hdr) (w : Sweep), ∀ p ∈ sweeps h w,
    let o : SweepOp := { fn := p.2, w, d := f.r w.d.toNat, a := f.r w.a.toNat, b := f.r w.b.toNat
                         sel := f.p (w.opt.extractLsb' 0 4) != w.opt.getLsbD 4 }
    (w.count = 0#12 → Issues s g f h { counts := true } → Runs p.1 s (after s f)) ∧
    (w.count ≠ 0#12 → o.fault g = none →
      Issues s g f h { counts := true, unit := some .sweep
                       chks := [.direct w.a.toNat] ++ (if p.2.bUse = .none then [] else [.direct w.b.toNat]) ++ [.direct w.d.toNat] } →
      Runs p.1 s (went s (s.addOp g f (f.counter h) (.sweep o) [] s.cur.g (o.readsA ++ o.readsB) o.writesD)))

/-- The sweep unit performs one iteration of the first sweep accepted on its core: it writes segment n of D, each element
as R180 has it, and after the last iteration the sweep completes with its flags (R178, R180, R183, R184). -/
def sweepIterationPart : Prop :=
  ∀ (s : State) (c : Nat) (o : Op) (w : SweepOp) (x : Group),
    s.firstSweep c = some (o, w, x) → w.fn.isRed = false → (∀ r ∈ w.nextReads, x.eccFault r.1 r.2 = false) →
    let r := w.segment x w.done
    let s1 := s.setGroup o.fib.g (x.scratchWrite (w.segD w.done) r.1)
    (w.w.count.toNat ≤ w.done + 1 → Runs (.sweepComplete c) s (s1.land o 0 0 0 (w.flags ||| r.2))) ∧
    (w.done + 1 < w.w.count.toNat → Runs (.sweepComplete c) s
      (s1.setOp { o with kind := .sweep { w with done := w.done + 1, flags := w.flags ||| r.2 } }))

/-- An iteration of VSUMR or VMAXR combines its segment along the tree of lanes and adds the outcome to the running result
of its group, which the first segment starts. The last of a group writes the result to word m of D, or combines it with
what stood there, and every flag is gathered. A sum of integers is exact until it is written (R180, R181). -/
def reductionPart : Prop :=
  ∀ (s : State) (c : Nat) (o : Op) (w : SweepOp) (x : Group),
    s.firstSweep c = some (o, w, x) → w.fn.isRed = true → (∀ r ∈ w.nextReads, x.eccFault r.1 r.2 = false) →
    let n := w.done
    let codes := (List.range 32).map fun j => elemAt (Memory.read x.scratch (w.segA n) 128) 32 j
    let v := w.segTree codes
    let r := if n % w.gsize = 0 then (v.1, 0#7) else w.combine w.acc v.1
    let flags := w.flags ||| v.2 ||| r.2
    let off := w.d.toNat + 4 * (n / w.gsize)
    let old := leNat (Memory.read x.scratch off 4)
    let q := if w.accumulates then w.combine (if w.w.ty = .f32 then old else Ty.toI w.w.ty old) r.1 else (r.1, 0#7)
    let z := if w.w.ty = .f32 then (q.1.toNat, 0#7) else intResult w.w.ty false q.1
    let s1 := s.setGroup o.fib.g (x.scratchWrite off (leBytes 4 z.1))
    (w.w.ty ≠ .f32 → w.fn = .sumr → v = ((codes.map (Ty.toI w.w.ty)).sum, 0#7)) ∧
    ((n + 1) % w.gsize ≠ 0 → n + 1 < w.w.count.toNat → Runs (.sweepComplete c) s
      ((s.setGroup o.fib.g x).setOp { o with kind := .sweep { w with done := n + 1, acc := r.1, flags } })) ∧
    ((n + 1) % w.gsize = 0 → n + 1 < w.w.count.toNat → Runs (.sweepComplete c) s
      (s1.setOp { o with kind := .sweep { w with done := n + 1, acc := r.1, flags := flags ||| q.2 ||| z.2 } })) ∧
    ((n + 1) % w.gsize = 0 → w.w.count.toNat ≤ n + 1 → Runs (.sweepComplete c) s
      (s1.land o 0 0 0 (flags ||| q.2 ||| z.2)))

/-- Sweeps as they are accepted, and each iteration as it is performed. What the rules leave open is as the model chose it:
assumption 54. -/
def Obligations.Sweeps : Prop := sweepsIssuePart ∧ sweepIterationPart ∧ reductionPart

/-- The matrix instructions are accepted where the group may use the array, no swap is due, the plane suits the multiply
and the scratchpad ranges keep their rules (R37, R197 to R207); a load takes the bytes of its image then, with the first
of its ranges that holds an uncorrectable error (R170, R199). What the rules leave open is as the model chose it:
assumptions 37 (which error of an image is reported) and 58. -/
def Obligations.MatrixIssue : Prop :=
  ∀ (s : State) (g : Group) (f : Fibre) (h : Hdr) (m : Mem) (t u : BitVec 4) (a b : Reg) (ty : Ty) (sp : Sparsity)
    (kb : BitVec 3) (q bsel : BitVec 2),
    let lane := s.cur.f % 32
    let load (i : Instr) (sp : Sparsity) (scl : Bool) : Prop :=
      let p := f.off m
      let rs := imageRanges ty sp scl lane
      let rows := g.imageBytes p 0 (rs.filter fun r => decide (r.1 < 0x4000))
      let tail := g.imageBytes p 0x4000 (rs.filter fun r => decide (r.1 ≥ 0x4000))
      Issues s g f h { counts := true, chks := Mem.chk m 1, unit := some .matrix } → g.lr.mg = true → g.swapDue = false →
      p % 128 = 0 → p + imageSize ty sp scl ≤ g.lr.scr → (∀ r ∈ rs, g.bufFault (p + r.1) (p + r.2) false = none) →
      (sp = .dense ∨ metaFault p tail = none) →
      Runs i s (went s (s.addOp g f (f.counter h)
        (.wld ty sp.code scl rows (if scl then [] else tail) (if scl then tail else [])
          (rs.findSome? fun r => if g.eccFault (p + r.1) (r.2 - r.1) then some (p + r.1) else none)) [] s.cur.g
        (rs.map fun r => (p + r.1, p + r.2)) []))
    let multiply (i : Instr) (k q : Nat) (sc : Option (Dword × Nat)) (cs : List Chk) : Prop :=
      let off := (f.r (f.reg a)).toNat
      let n := mmaK g.active ty k q * ty.width / 8
      Issues s g f h { counts := true, chks := Reg.chk a 1 ++ cs ++ tileChk g t, unit := some .matrix } →
      g.lr.mg = true → g.swapDue = false → g.active.fmt = ty.code → (sc.isSome = true → g.active.scl = true) →
      (sc.isSome = true ∨ q ≠ 0 → g.active.sp = 0#2) → g.scratchFault off n 16 false = none →
      Runs i s (went s (s.addOp g f (f.counter h) (.mma t off ty k q sc) [] s.cur.g [(off, off + n)] []))
    load (.wld h m ty sp) sp false ∧ load (.wldx h m ty) .dense true ∧
    multiply (.mma h t a ty kb) (kb.toNat + 1) 0 none [] ∧ multiply (.mmab h t a ty q) 0 (2 ^ (q.toNat + 1)) none [] ∧
    multiply (.mmax h t a b ty bsel kb) (kb.toNat + 1) 0
      (some (if ty == .e2m1 then f.rdPair b else (f.r (f.reg b)).setWidth 64, bsel.toNat))
      (Reg.chk b (if ty == .e2m1 then 2 else 1)) ∧
    (Issues s g f h { chks := tileChk g t, unit := some .matrix } →
      Runs (.azero h t) s (went s (s.addOp g f none (.azero t) [] s.cur.g))) ∧
    (Issues s g f h { chks := tileChk g u ++ tileChk g t, unit := some .matrix } →
      Runs (.amov h t u) s (went s (s.addOp g f none (.amov t u) [] s.cur.g))) ∧
    (Issues s g f h { counts := true, chks := Mem.chk m 1 ++ tileChk g t, unit := some .matrix } →
      (g.scratchFault (f.off m) 512 16 false = none → Runs (.ald h t m) s (went s (s.addOp g f (f.counter h)
        (.ald t (f.off m)) [] s.cur.g [(f.off m, f.off m + 512)] []))) ∧
      (g.scratchFault (f.off m) 512 16 true = none → Runs (.ast h t m) s (went s (s.addOp g f (f.counter h)
        (.ast t (f.off m)) [] s.cur.g [] [(f.off m, f.off m + 512)]))))

/-- WSWAP, which the array accepts in its turn, waits for its swap, or goes on where the swap has been performed;
PLANE_SWAP, once no load or multiply of the group is left, exchanges the planes, and the new shadow plane may be loaded
afresh (R197, R202). -/
def planeSwapsPart : Prop :=
  ∀ (s : State) (g : Group) (f : Fibre) (h : Hdr) (a : Src) (k n : Nat) (x : Group) (v : Fibre),
    (Issues s g f h { chks := Src.chk a 1, unit := some .matrix } → g.lr.mg = true →
      let w := BitVec.ofNat 16 (f.src .z32 a)
      (0x8000 ≤ (w - g.pseq).toNat → Runs (.wswap h a) s (after s f)) ∧
      ((w - g.pseq).toNat < 0x8000 → Runs (.wswap h a) s
        (s.updFibre s.cur fun _ => { f with stat := .wait (.swap w), since := s.cycle, grant := none }))) ∧
    (s.group? k = some x → x.core?.isSome = true → (∀ o ∈ s.ops, o.fib.g ≠ k) → x.shadow.mixed = false →
      x.fibres = [(n, v)] → v.stat = .wait (.swap x.pseq) →
      ∃ t y, Runs (.planeSwap k) s t ∧ t.group? k = some y ∧ y.active = x.shadow ∧ y.pseq = x.pseq + 1#16 ∧
        y.shadow = { x.active with loaded := false, mixed := false } ∧ y.fibre? n = some (v.advance s.cycle))

/-- A matrix operation that no earlier one of its group holds back is performed: a multiply leaves the row of R203 to R205
with its flags, AZERO a row of zeros, ALD, AST and AMOV move a row, a load fills its lane's part of the shadow plane (R197,
R201, R203, R207). Where it reads an uncorrectable error, every element it writes is 0x7FC0_0000, a load fills nothing, and
DATA_ERROR is held for the issuer's next TFENCE (R199). -/
def matrixPerformPart : Prop :=
  ∀ (s : State) (o : Op) (x : Group) (t u : BitVec 4) (off kb q : Nat) (ty : Ty) (sc : Option (Dword × Nat))
    (sp : BitVec 2) (scl : Bool) (rows nibs scales : List (Nat × Byte)) (err : Option Nat),
    s.op? o.id = some o → s.matrixReady o = true → s.group? o.fib.g = some x →
    let l := o.fib.f % 32
    let row (w : List Word) : State := s.setGroup o.fib.g (x.putRow t.toNat l w)
    let nan := List.replicate 128 0x7FC00000#32
    let stored (w : List Word) : State := s.setGroup o.fib.g (x.scratchWrite off (w.flatMap fun v => leBytes 4 v.toNat))
    let runs (k : OpKind) (good : State) (bad : State) : Prop := o.kind = k →
      (x.matrixBad l k = false → Runs (.matrixOpPerform o.id) s good) ∧
      (x.matrixBad l k = true → Runs (.matrixOpPerform o.id) s (bad.dataError o s.freeAddr))
    runs (.mma t off ty kb q sc) ((row (mmaRow x t.toNat l off ty kb q sc).1).land o 0 0 0 (mmaRow x t.toNat l off ty kb q sc).2)
      ((row nan).land o 0 0 0 0#7) ∧
    (o.kind = .azero t → Runs (.matrixOpPerform o.id) s ((row (List.replicate 128 0#32)).finish o)) ∧
    runs (.ald t off) ((row ((List.range 128).map fun n => BitVec.ofNat 32 (elemAt (Memory.read x.scratch off 512) 32 n))).finish o)
      ((row nan).finish o) ∧
    runs (.ast t off) ((stored (x.row t.toNat l)).finish o) ((stored nan).finish o) ∧
    runs (.amov t u) ((row (x.row u.toNat l)).finish o) ((row nan).finish o) ∧
    (o.kind = .wld ty sp scl rows nibs scales err →
      (err = none → Runs (.matrixOpPerform o.id) s ((s.setGroup o.fib.g
        { x with shadow := x.shadow.load ty sp scl rows nibs scales }).finish o)) ∧
      (∀ a, err = some a → Runs (.matrixOpPerform o.id) s ((s.finish o).dataError o (dw a))))

/-- The swap of the planes, and the matrix operations as they are performed. What the rules leave open is as the model chose
it: assumptions 37 and 58. -/
def Obligations.MatrixPerform : Prop := planeSwapsPart ∧ matrixPerformPart

/-- The quantising stores and the bank instructions are accepted where their bank suits them and their scratchpad range
keeps its rules; under NS a store takes its turn in the bank's order (R213 to R222). What the rules leave open is as the
model chose it: assumptions 37 (HLOAD is accepted whatever errors the bytes of its image hold), 54 and 58 (it takes them as it
issues). -/
def Obligations.BanksIssue : Prop :=
  ∀ (s : State) (g : Group) (f : Fibre) (h : Hdr) (t : BitVec 4) (m : Mem) (d a : Reg) (ty : Ty) (rnd : Rnd)
    (sat mx axis wrap : Bool) (b : BitVec 3) (len : BitVec 14) (rows : BitVec 5),
    let off := f.off m
    let now := s.bankNow s.cur.g g b
    let bank := if rnd = .ns then bankChk g b else []
    (Issues s g f h { counts := true, chks := Mem.chk m 1 ++ tileChk g t ++ bank, unit := some .qstore } →
      let n := storeBytes 128 ty mx
      (rnd = .ns → now.shapeFault ty mx false = none ∧ now.judge (s.cur.f % 32) t.toNat = .go) →
      g.scratchFault off n 16 true = none →
      Runs (.qst h t m ty rnd sat b mx) s (went s (s.addOp g f (f.counter h) (.qst t off ty rnd sat b mx) [] s.cur.g []
        [(off, off + n)]))) ∧
    (Issues s g f h { counts := true, chks := Mem.chk m 1 ++ [.span d 32 4] ++ bank, unit := some .qstore } →
      let n := storeBytes 32 ty mx
      (rnd = .ns → now.shapeFault ty mx true = none) → g.scratchFault off n 16 true = none →
      Runs (.qstp h d m ty rnd sat b mx) s (went s (s.addOp g f (f.counter h)
        (.qstp ((List.range 32).map fun j => f.r (f.reg d + j)) off ty rnd sat b mx) [] s.cur.g [] [(off, off + n)]))) ∧
    (Issues s g f h { chks := Reg.chk a 2 ++ bankChk g b, unit := some .qstore } →
      orderFault (f.rdPair a) len.toNat g.lr.na = none →
      Runs (.hdecl h b a len ty axis wrap mx rows) s (went s (s.addOp g f none (.hdecl b
        { fmt := ty.code, decl := true, axisM := axis, wrap, mx, len := len.setWidth 5, rows
          order := dw ((f.rdPair a).toNat % 16 ^ len.toNat) }) [] s.cur.g))) ∧
    (Issues s g f h { chks := bankChk g b, unit := some .qstore } →
      Runs (.hclr h b) s (went s (s.addOp g f none (.hclr b) [] s.cur.g))) ∧
    (Issues s g f h { counts := true, chks := Mem.chk m 1 ++ bankChk g b, unit := some .qstore } →
      (g.scratchFault off 576 64 true = none → Runs (.hsave h b m) s (went s (s.addOp g f (f.counter h) (.hsave b off) []
        s.cur.g [] [(off, off + 576)]))) ∧
      (g.scratchFault off 576 64 false = none → imageOk (Memory.read g.scratch off 576) g.lr.na = true →
        Runs (.hload h b m) s (went s (s.addOp g f (f.counter h) (.hload b (Bank.ofImage (Memory.read g.scratch off 576)))
          [] s.cur.g [(off, off + 576)] []))))

/-- The quantising store performs its operations in order: the bytes of R219 and R220 are stored, and under NS the bank
keeps the carried errors and moves to the next position; HDECL, HLOAD and HCLR set the bank, HSAVE stores its image
(R216 to R222). An entry that holds an uncorrectable error reads as +0.0, a row that does reads as 0x7FC0_0000, and
DATA_ERROR is held for the issuer's next TFENCE (R199, R211). A fibre whose turn on its bank has come issues again (R217).
What the rules leave open is as the model chose it: assumptions 12, 37 and 58 (a store that is held is judged by its turn
alone). -/
def Obligations.BanksPerform : Prop :=
  ∀ (s : State) (o : Op) (x : Group) (t : BitVec 4) (off : Nat) (ty : Ty) (rnd : Rnd) (sat mx : Bool) (b : BitVec 3)
    (v : Bank) (xs : List Word) (k n : Nat) (f : Fibre),
    (s.op? o.id = some o → s.bankReady o = true → s.group? o.fib.g = some x →
      let l := o.fib.f % 32
      let used := (x.bank b).reads l o.kind
      let now := (x.bank b).sound used
      let told (e : Bool) (t : State) : State := if e then t.dataError o s.freeAddr else t
      let lost := used.any (x.bank b).err.contains
      (Tab.wf 0#32 (x.bank b).ent = true → ∀ j ∈ used, j ∈ (x.bank b).err → Tab.get 0#32 now.ent j = 0#32 ∧ j ∉ now.err) ∧
      (o.kind = .qst t off ty rnd sat b mx →
        let row := if x.rowBad t.toNat l then List.replicate 128 0x7FC00000#32 else x.row t.toNat l
        let r := quantise ty rnd sat mx (fun i => if now.axisM then i else l) row now.ent
        let y := x.scratchWrite off r.1
        Runs (.bankOpPerform o.id) s (told (lost || x.rowBad t.toNat l) ((s.setGroup o.fib.g (if rnd = .ns then
          y.setBank b (Bank.advanced { now with ent := r.2.1 } l) else y)).land o 0 0 0 r.2.2))) ∧
      (o.kind = .qstp xs off ty rnd sat b mx →
        let r := quantise ty rnd sat mx (fun _ => l) xs now.ent
        let y := x.scratchWrite off r.1
        Runs (.bankOpPerform o.id) s (told lost ((s.setGroup o.fib.g (if rnd = .ns then y.setBank b { now with ent := r.2.1 }
          else y)).land o 0 0 0 r.2.2))) ∧
      (o.kind = .hdecl b v ∨ o.kind = .hload b v →
        Runs (.bankOpPerform o.id) s ((s.setGroup o.fib.g (x.setBank b v)).finish o)) ∧
      (o.kind = .hclr b → Runs (.bankOpPerform o.id) s ((s.setGroup o.fib.g (x.setBank b (x.bank b).cleared)).finish o)) ∧
      (o.kind = .hsave b off →
        Runs (.bankOpPerform o.id) s (told lost ((s.setGroup o.fib.g (x.scratchWrite off now.image)).finish o)))) ∧
    (s.group? k = some x → x.core?.isSome = true → x.fibre? n = some f → f.stat = .wait (.turn b t) →
      (s.bankNow k x b).judge (n % 32) t.toNat = .go →
      Runs (.qstTurnAccept k n) s (s.updFibre ⟨k, n⟩ fun w => w.wake s.cycle))

/-! ### Far transfers and module engines -/

/-- FETCH, PUT and REDT, once their record has been read and their buffer and record keep R257, R259 and R266, issue the
transition of their buffer and post their transfer, which waits for an allowance (R252, R259). `s1` is the state
after the record has been read. What the rules leave open is as the model chose it: assumption 7. -/
def Obligations.FarTransfersIssue : Prop :=
  ∀ (s s1 : State) (g : Group) (f : Fibre) (h : Hdr) (n : BitVec 6) (m : Mem) (ab : BitVec 4) (link : Bool)
    (bs : List Byte) (x : Shape) (srcs : List Nat),
    Issues s g f h { counts := true, chks := Mem.chk m 2 ++ bufChk g n } →
    let va := f.va m
    let b := g.bufNow n.toNat
    let r := [(b.lo, b.hi)]
    let posted (k : XferKind) (ev : BufEvent) (rd wr : List (Nat × Nat)) : State :=
      let q : Xfer := { kind := k, buf := n, ab := if link then some ab else none, shape := x }
      kept s (((s1.addOp g f (f.counter h) (.xfer q) [] s1.cur.g rd wr true).updGroup s1.cur.g fun y =>
        ({ y with trans := y.trans ++ [(⟨s1.nextId, s1.cur, n, ev⟩ : Trans)] } : Group).updFibre s1.cur.f fun v =>
          { v with stat := .wait (.post s1.nextId) }).settleTrans s1.cur.g)
    (s.readRecord g va 1 [] = .inr (bs, s1) → xferCheck b n .empty false va bs = .inl (x, srcs) →
      Runs (.fetch h n m ab link) s (posted .fetch (.fetch (ablOf ab link)) [] r)) ∧
    (s.readRecord g va 1 [] = .inr (bs, s1) → xferCheck b n .full false va bs = .inl (x, srcs) →
      Runs (.put h n m ab link) s (posted .put .put r [])) ∧
    (s.readRecord g va 3 [] = .inr (bs, s1) → xferCheck b n .empty true va bs = .inl (x, srcs) →
      Runs (.redt h n m ab link) s (posted (.redt srcs) (.fetch (ablOf ab link)) [] r))

/-- WINSET answers 2 out of range, 1 where the core has too few allowances left, and else 0 with the new grant (R254);
FATOM issues on NEAR and FAR pages (R267); ABAR sets a barrier, and AWAIT goes on where its count is 0 and else waits;
as the count comes to 0, every fibre that waits for it goes on, with NOT FAIL in its predicate (R270, R271). What the rules
leave open is as the model chose it: assumption 45. -/
def Obligations.AllowancesAndBarriers : Prop :=
  ∀ (s s1 : State) (g : Group) (f v : Fibre) (h : Hdr) (d : Reg) (a : Src) (ab p : BitVec 4) (m : Mem) (t : Ty)
    (op : AtomOp) (pg : Page) (k cycle : Nat),
    (Issues s g f h (operandsOf (Src.chk a 1 ++ Reg.chk d 1)) →
      let n := f.src .z32 a
      (n < 1 ∨ 32 < n → Runs (.winset h d a) s (after s (f.wr d 1 2))) ∧
      (1 ≤ n → n ≤ 32 → s.freeAllowances g.coreOr0 < (n : Int) - g.wa → Runs (.winset h d a) s (after s (f.wr d 1 1))) ∧
      (1 ≤ n → n ≤ 32 → (n : Int) - g.wa ≤ s.freeAllowances g.coreOr0 →
        Runs (.winset h d a) s (went s ((s.updGroup s.cur.g fun x => { x with wa := n }).updFibre s.cur fun v => v.wr d 1 0)))) ∧
    (Issues s g f h { counts := true, chks := Mem.chk m 2 ++ Reg.chk d (op.regs t), unit := some .fatom } →
      let va := f.va m
      0 < Ty.bytes t → Found s g va (Ty.bytes t) true true pg s1 →
      let x := (f.atomArgs op t d).1
      let y := (f.atomArgs op t d).2
      (pg.tier = .near → Runs (.fatom h d m t op) s (went s (s1.addOp g f (f.counter h)
        (.fatom true (s1.nearOff pg va) pg.key va op t x y (f.reg d)) (regRange (f.reg d) t.regs) (used := [pg.span va])))) ∧
      (pg.tier = .far → Runs (.fatom h d m t op) s (went s (s1.addOp g f (f.counter h)
        (.fatom false (farAddr pg va) pg.key va op t x y (f.reg d)) (regRange (f.reg d) t.regs) (used := [pg.span va]))))) ∧
    (Issues s g f h (operandsOf (Src.chk a 1)) → Runs (.abar h a ab) s (went s (s.updGroup s.cur.g fun x =>
      (x.setAbar ab { count := BitVec.ofNat 16 (f.src .z32 a) }).releaseAbar ab s.cycle))) ∧
    (Issues s g f h (operandsOf []) →
      ((g.abar ab).count = 0#16 → Runs (.await h p ab) s (after s (f.setP p (!(g.abar ab).fail)))) ∧
      ((g.abar ab).count ≠ 0#16 →
        Runs (.await h p ab) s (kept s (s.updFibre s.cur fun w => { w with stat := .wait (.abar ab p) })))) ∧
    (g.fibre? k = some v → v.stat = .wait (.abar ab p) →
      (g.releaseAbar ab cycle).fibre? k =
        some (if (g.abar ab).count = 0#16 then (v.advance cycle).setP p (!(g.abar ab).fail) else v))

/-- A posted transfer whose transition has taken effect is accepted while none of its group has waited longer, and the group's
accepted transfers are fewer than its allowances (R103, R168, R252). Once every page of its box is there, on no PEER page, a FETCH fills its buffer and a PUT writes
its box, as one step with the arrival, in program order with the fibre's own accesses to NEAR pages (R262 to R264, R333).
What the rules leave open is as the model chose it: assumptions 44 and 46. -/
def Obligations.FarTransferEvents : Prop :=
  ∀ (s : State) (o : Op) (x : Xfer) (g : Group) (ps : List (Page × (Nat × Nat))),
    s.op? o.id = some o → o.kind = .xfer x → s.group? o.fib.g = some g →
    let pasid := (s.ctx o.ctx).pasid
    (x.accepted = false → x.effective = true → x.isCtile = false → g.core?.isSome = true →
      (∀ p ∈ s.ops, p.fib.g = o.fib.g → ∀ y, p.kind = .xfer y → y.began < x.began ∨ (y.began = x.began ∧ p.id < o.id) →
        y.accepted = true ∨ y.effective = false ∨ y.isCtile = true) →
      (s.ops.filter fun p => p.fib.g == o.fib.g && match p.kind with
        | .xfer y => y.accepted && !y.isCtile
        | _ => false).length < g.wa →
      Runs (.postAccept o.id) s ((s.setOp { o with kind := .xfer { x with
        accepted := true, keys := s.keys, refused := s.drainedModules } }).updFibre o.fib fun f =>
          if f.stat = .wait (.post o.id) then f.advance s.cycle else f)) ∧
    (x.accepted = true → x.miss = [] → s.peersPending o.id = false → (∀ p ∈ ps, p.1.tier ≠ .peer) → s.mxWaits x ps = false →
      (x.kind = .fetch → x.ready s o.ctx false = .go ps →
        let s1 := s.syncNear o ps
        Runs (.transferArrival o.id) s
          (((s1.fillBuf o x (x.gather s1 pasid ps)).migrateAll o ps).xferDone o x .full 0#8 0 0#7)) ∧
      (x.kind = .put → x.ready s o.ctx true = .go ps → badSource g.scratchErr (g.buf x.buf.toNat).lo ps = none →
        Runs (.putCompletion o.id) s ((x.scatter (s.syncNear o ps) pasid ps
          (Memory.read g.scratch (g.buf x.buf.toNat).lo x.shape.total)).xferDone o x .empty 0#8 0 0#7)))

/-- ETAIL, ESEQ and EWAIT on a valid handle (R290 to R292): ETAIL asks for n entries to be forwarded, and for none lands
SENT as it stands; ETAIL.rst starts the chain afresh, ESEQ lands the sequence word, and EWAIT goes on once DONE has reached
the value or the chain has failed. What the rules leave open is as the model chose it: assumption 46. -/
def Obligations.ChainWords : Prop :=
  ∀ (s s1 : State) (g : Group) (f : Fibre) (h : Hdr) (d r : Reg) (a b : Src) (p : BitVec 4) (e : ChainEnt),
    let hnd := f.src .z32 a
    s.handle g hnd = .inr (e, s1) →
    let c := s1.chain g.ctx hnd
    let dst := regRange (f.reg d) 2
    (Issues s g f h { counts := true, chks := Src.chk a 1 ++ Src.chk b 1 ++ Reg.chk d 2, unit := some .engine } →
      let n := f.src .z32 b
      c.failed = false →
      (n = 0 → Runs (.etail h d a b) s (went s (s1.addOp g f (f.counter h) (.land (f.reg d) 2 (dw c.sent)) dst
        (nodrain := true)))) ∧
      (1 ≤ n → n ≤ 64 →
        let s2 := s1.addOp g f (f.counter h) (.etail hnd (f.reg d)) dst (nodrain := true)
        Runs (.etail h d a b) s (went s (s2.setChain g.ctx hnd
          { c with fwd := c.fwd ++ [{ by_ := s2.op? s1.nextId, left := n, ent := e, sent := c.sent }] })))) ∧
    (Issues s g f h { counts := true, chks := Src.chk a 1 ++ Reg.chk r 2 ++ Reg.chk d 2, unit := some .engine } →
      c.fwd = [] → s1.failing e.key g.ctx hnd = false → c.sent ≤ c.done ∨ c.failed = true →
      let c' := { c with failed := false, sent := c.done, lastva := none, start := some (f.rdPair r) }
      Runs (.etailRst h d a r) s (went s (((s1.setChain g.ctx hnd c').deviceWord g.ctx e.seqva c'.word).addOp g f
        (f.counter h) (.land (f.reg d) 2 (dw c.done)) dst (nodrain := true)))) ∧
    (Issues s g f h { counts := true, chks := Src.chk a 1 ++ Reg.chk d 2, unit := some .engine } →
      Runs (.eseq h d a) s (went s ((s1.acquire g).addOp g f (f.counter h) (.land (f.reg d) 2 c.word) dst))) ∧
    (Issues s g f h (operandsOf (Src.chk a 1 ++ Src.chk b 2)) →
      (f.wideSrc b ≤ c.done →
        Runs (.ewait h p a b) s (went s ((s1.acquire g).updFibre s1.cur fun w => w.setP p true))) ∧
      (c.done < f.wideSrc b → c.failed = true →
        Runs (.ewait h p a b) s (went s (s1.updFibre s1.cur fun w => w.setP p false))))

/-- Output to memory is written in aligned units of 128 bytes, as each fills (R302); that of an entry that names a FIFO is kept
until the entry completes. -/
def outputPart : Prop :=
  ∀ (s : State) (k : Nat) (e : FEntry) (va : BitVec 56) (bs : List Byte),
    let all := e.obuf ++ bs
    let stop := va.toNat + e.outb + bs.length
    let n := all.length - stop % 128
    (e.inPlace = true →
      (s.give k e (.mem va) bs).1 = { e with outb := e.outb + bs.length, obuf := all.drop n } ∧
      (n = 0 → (s.give k e (.mem va) bs).2 = s) ∧
      (0 < n → (s.give k e (.mem va) bs).2 = e.write s (stop - all.length) (all.take n))) ∧
    (e.inPlace = false → s.give k e (.mem va) bs = ({ e with outb := e.outb + bs.length, obuf := all }, s))

/-- An entry at the head of its slot, with its operands in memory and no entry of another slot to wait for, goes on by one
step: 128 bytes of COPY, REDUCE or FILL, or what is left of them, one byte of TRANSDUCE; a data entry that has made all its
bytes ends with status 0, and one that would read or write bytes with an error ends with that error's status (R299). What a
step reads comes after what earlier steps wrote (R285, R293, R298). -/
def dataStepsPart : Prop :=
  ∀ (s : State) (e : FEntry) (va vb vd : BitVec 56) (len cap : BitVec 32) (pat : Dword) (t : Ty) (mode : EMode)
    (start : Option (BitVec 12)),
    let k := s.curSlot
    s.headEntry k = some e → e.inPlace = true → s.entryWaits k e = false →
    let ended : State := s.endEntry k e 0#8
    (len.toNat ≤ e.outb →
      Runs (.copy (.mem vd) (.mem va) len) s ended ∧ Runs (.fill (.mem vd) pat len) s ended ∧
      Runs (.reduce (.mem vd) (.mem va) (.mem vb) t mode len) s ended) ∧
    (e.outb < len.toNat →
      let n := min 128 (len.toNat - e.outb)
      let read (v : BitVec 56) : List Byte := e.pending (.mem vd) (v.toNat + e.outb) (e.read s (v.toNat + e.outb) n)
      let moved (ins : Nat) (bs : List Byte) (fl : Flags) : State :=
        let r := s.give k e (.mem vd) bs
        r.2.setHead k { r.1 with started := true, inb := e.inb + n * ins, eflags := e.eflags ||| fl }
      let sound (rs : List (BitVec 56)) : Prop := (∀ v ∈ rs, e.opFault s true false e.outb n (.mem v) = none) ∧
        e.opFault s false true e.outb n (.mem vd) = none
      (sound [va] → Runs (.copy (.mem vd) (.mem va) len) s (moved 1 (read va) 0#7)) ∧
      (sound [] → Runs (.fill (.mem vd) pat len) s
        (moved 0 ((List.range n).map fun i => patByte pat (e.outb + i)) 0#7)) ∧
      (∀ st, e.opFault s true false e.outb n (.mem va) = some st →
        Runs (.copy (.mem vd) (.mem va) len) s (s.endEntry k e st)) ∧
      (∀ st, e.opFault s false true e.outb n (.mem vd) = some st → Runs (.fill (.mem vd) pat len) s (s.endEntry k e st)) ∧
      (sound [va, vb] → 8 ≤ t.width → n % (t.width / 8) = 0 → (read va).length = n →
        let rs := (List.range (n * 8 / t.width)).map fun j =>
          reduceElem t mode (elemAt (read va) t.width j) (elemAt (read vb) t.width j)
        Runs (.reduce (.mem vd) (.mem va) (.mem vb) t mode len) s
          (moved 2 (leBytes n (packCodes t.width (rs.map (·.1)))) (mergeFlags (rs.map (·.2)))))) ∧
    (e.started = true → e.inb < len.toNat →
      let n := min 128 (len.toNat - e.inb)
      (e.ibuf = [] → e.opFault s true false e.inb n (.mem va) = none) →
      let ib := if e.ibuf = [] then e.pending (.mem vd) (va.toNat + e.inb) (e.read s (va.toNat + e.inb) n) else e.ibuf
      let r := dispatchByte (s.lane (laneOf k)) (leNat (ib.take 1)) e.inb (e.outCap (.mem vd) cap.toNat len.toNat) 8 e.st e.outb
      (r.out = [] ∨ e.opFault s false true e.outb r.out.length (.mem vd) = none) →
      let g := s.give k { e with ibuf := ib, st := r.st } (.mem vd) r.out
      let e3 := { g.1 with inb := g.1.inb + 1, ibuf := g.1.ibuf.drop 1 }
      (∀ st, r.fail = some st → Runs (.transduce (.mem vd) (.mem va) start cap len) s (g.2.endEntry k g.1 st)) ∧
      (r.fail = none → r.stop = true → Runs (.transduce (.mem vd) (.mem va) start cap len) s (g.2.endEntry k e3 0#8)) ∧
      (r.fail = none → r.stop = false → Runs (.transduce (.mem vd) (.mem va) start cap len) s (g.2.setHead k e3)))

/-- The steps of the entries that move data, and the units in which they write. What the rules leave open is as the model
chose it: assumption 46. -/
def Obligations.DataEntries : Prop := outputPart ∧ dataStepsPart

/-- The entries that move no data: NOP ends, QFENCE ends once every pair has been reached, TLOAD reads a valid image, which
replaces the lane's table as the entry completes, METARD holds the page's record, METAWR changes CE and, from 1 to 0, stores
every block of the page raw, and SLOTBIND gives a slot its owner (R284, R287, R289, R296, R301). What the rules leave open is
as the model chose it: assumption 46. -/
def Obligations.ControlEntries : Prop :=
  ∀ (s : State) (e : FEntry) (pairs : List (BitVec 12 × BitVec 52)) (va : BitVec 56) (len : BitVec 32)
    (slot : BitVec 8) (owner : Option Owner) (l : Lane),
    let k := s.curSlot
    s.headEntry k = some e →
    let a := (e.addr va.toNat).1
    let key := (e.addr va.toNat).2
    let page := a / 65536 * 65536
    let keyed : State := { s with keys := e.keys }
    Runs .engineNop s (s.endEntry k e 0#8) ∧
    ((∀ p ∈ pairs, s.fencePair k e p = none ∧ p.2.toNat ≤ (s.chain e.ctx p.1.toNat).done) →
      Runs (.engineQfence pairs) s (s.endEntry k e 0#8)) ∧
    (len.toNat = 64 + 1024 * bits (leNat ((e.read s va.toNat 64).take 8)) 11 0 →
      (∀ n, n = 64 ∨ n = len.toNat → e.fault s true false va.toNat n = none) → laneImage (e.read s va.toNat len.toNat) len.toNat = some l →
      Runs (.tload va len) s (s.endEntry k { e with inb := len.toNat, table := some l } 0#8)) ∧
    Runs (.metard va) s (s.endEntry k { e with meta_ := some (s.metaOf a).word } 0#8) ∧
    Runs (.metawr va true) s ((s.setMeta a { s.metaOf a with ce := true }).endEntry k e 0#8) ∧
    ((s.metaOf a).ce = true → keyed.farFault key true true page 65536 = none →
      Runs (.metawr va false) s (State.endEntry { keyed.storeRaw key page with keys := s.keys } k e 0#8)) ∧
    (slot.toNat ≠ 7 → slotExists (slot.toNat / 8) (slot.toNat % 8) = true →
      let j := 256 * (k / 256) + slot.toNat
      Runs (.slotbind slot owner) s ((s.setSlot j { s.slot j with owner }).endEntry k e 0#8))

/-- Forwarding (R285, R286, R291): an entry that the chain's rules admit goes to the end of its slot with the next number;
with the last one that was asked for, ETAIL lands SENT as the entry left it. While a page that forwarding has asked for is
not answered it waits, and for a module under drain it ends with TRANSPORT (R398). -/
def forwardPart : Prop :=
  ∀ (s s1 : State) (ctx hnd d : Nat) (f : Fwd) (rest : List Fwd) (va : Dword) (raw : BitVec 384) (i : Instr)
    (ps : List EPage) (o : Op),
    let c := s.chain ctx hnd
    let k := f.ent.key
    c.fwd = f :: rest →
    (1 ≤ f.left → c.failed = false → s.failing k ctx hnd = false → c.miss = [] → (s.slot k).entries.length < 256 →
      s.nextLink ctx c f = .entry va raw s1 →
      let e : FEntry := { ctx, hnd, num := c.sent + 1, va, raw, priv := f.ent.priv, owner := s.ownerOf ctx, by_ := f.by_
                          pages := [], keys := s.keys, seqva := f.ent.seqva }
      (s.drainedModules.contains f.ent.module = true → Runs (.engineEntryForward ctx hnd) s
        ((s1.enqueue k { e with result := some 0x05#8, late := true }).fwdDone ctx hnd)) ∧
      (s.drainedModules.contains f.ent.module = false → decodeEntry raw = some i →
        (isPrivEntry i = true → f.ent.priv = true) → unitAccepts f.ent.unit f.ent.slot i = true →
        ((entryFifos i).1 ++ (entryFifos i).2).Nodup → s1.entryPages ctx c f.ent i = .pages ps →
        s1.linkUp f.ent.module = true → (s1.slot k).owner = some (s1.ownerOf ctx) →
        let t := (s1.enqueue k { e with pages := ps }).setChain ctx hnd
          { c with sent := c.sent + 1, lastva := some va, miss := []
                   fwd := { f with left := f.left - 1, sent := c.sent + 1 } :: rest }
        Runs (.engineEntryForward ctx hnd) s (if f.left = 1 then t.fwdDone ctx hnd else t))) ∧
    (c.miss ≠ [] → 1 ≤ f.left → c.failed = false → s.failing k ctx hnd = false →
      Runs (.engineEntryForward ctx hnd) s s) ∧
    (let s2 := s.setChain ctx hnd { c with fwd := rest, miss := [], absent := [] }
     (f.by_ = none → s.fwdDone ctx hnd = s2) ∧
     (f.by_ = some o → o.kind = .etail hnd d → s.fwdDone ctx hnd = s2.land o d 2 (dw f.sent).toNat 0#7))

/-- Completion and failure (R287, R295, R296, R300), where no entry under way in another slot shares bytes with output that is
still to be written: an entry that has succeeded writes its result bytes, DONE and the
sequence word, and the table that a TLOAD has read replaces its lane's; one that has failed sets FAILED, drops the chain's later entries and is reported; a stalled stream fails both its
entries. -/
def entryEndsPart : Prop :=
  ∀ (s : State) (k : Nat) (e p q : FEntry) (rest : List FEntry) (st : BitVec 8) (m j1 j2 : Nat),
    ((s.slot k).entries = e :: rest → s.flushWaits k e = false →
      let c := s.chain e.ctx e.hnd
      (e.result = some 0#8 → s.linkUp (k / 256) = true →
        let c' := { c with done := e.num }
        let s1 := s.writeBackEntry e 0#8
        let s2 := e.table.elim s1 fun l => { s1 with lanes := Tab.set {} (laneOf k) l s1.lanes }
        Runs (.engineEntryComplete k) s ((((s2.setSlot k { s.slot k with entries := rest }).setChain
          e.ctx e.hnd c').deviceWord e.ctx e.seqva c'.word).leaveFifos k true)) ∧
      (e.result = some st → st ≠ 0#8 →
        let c' := { c with failed := true }
        Runs (.engineChainFail k) s ((((((s.writeBackEntry e st).setSlot k { s.slot k with entries := rest.filter fun x =>
          !(x.ctx == e.ctx && x.hnd == e.hnd) }).setChain e.ctx e.hnd c').deviceWord e.ctx e.seqva c'.word).leaveFifos k
          false).reportEntry e st))) ∧
    (s.fifo m = { prod := some j1, cons := some j2 } → j1 ≠ j2 → s.headEntry j1 = some p → s.headEntry j2 = some q →
      Runs (.fifoStall m) s (((s.endEntry j1 p stFifoStall).endEntry j2 q stFifoStall).setFifo m {}))

/-- The forwarding of entries, and how they complete or fail. What the rules leave open is as the model chose it: assumption
46. -/
def Obligations.ChainEvents : Prop := forwardPart ∧ entryEndsPart

/-! ### The pod: windows, supersteps, collectives -/

/-- The window of handle `hn` lets in `n` bytes at an offset: its entry is valid, the handle has not failed, the offset is
a multiple of `al`, MODE is what the instruction needs, and the bytes lie below LIMIT (R303, R313). `s1` is the state
after the entry has been read. -/
structure Opened (s : State) (g : Group) (hn off n al : Nat) (step : Bool) (w : OutWin) (s1 : State) : Prop where
  entry : s.window g hn = .inr (some w, s1)
  aligned : off % al = 0
  works : s1.failedWin.contains (g.ctx, hn) = false
  mode : w.step = step
  bounds : off + n ≤ w.limit
  enabled : step = true → s1.stepOn = true

/-- XLD, XST, XATOM, SPUT and XPUTQ through an open window issue their request; XLD and XATOM wait for its response, SPUT
carries the write step, and XPUTQ first sets its descriptor's STATUS to 0xFF. The fibre of a send goes on where the replay
buffer of its port has room for the payload, and else waits for it as for a shared unit (R103, R313, R314, R316, R319, R326).
What the rules leave open is as the model chose it: assumptions 30 (which port's buffer, and the order of the sends at it)
and 31 (the bytes of an XPUTQ are read as it is sent). -/
def Obligations.PodWords : Prop :=
  ∀ (s s1 : State) (g : Group) (f : Fibre) (h : Hdr) (d : Reg) (m : Mem) (t : Ty) (op : AtomOp) (w : OutWin) (p : Page),
    let hn := (f.winAddr m).1
    let off := (f.winAddr m).2
    let n := t.width / 8
    let dst := regRange (f.reg d) t.regs
    0 < n →
    (Opened s g hn off n n false w s1 →
      (Issues s g f h { counts := true, chks := Mem.chk m 2 ++ Reg.chk d t.regs } →
        Runs (.xld h d m t) s (asked s s1 g f h (w.req g.ctx hn off (.read t (f.reg d))) dst) ∧
        Sends (.xst h d m t) s s1 g f h (w.req g.ctx hn off (.write (leBytes n (f.rN (f.reg d) t.regs)))) false) ∧
      (Issues s g f h { counts := true, chks := Mem.chk m 2 ++ Reg.chk d (op.regs t) } →
        Runs (.xatom h d m t op) s (asked s s1 g f h
          (w.req g.ctx hn off (.atomic op t (f.atomArgs op t d).1 (f.atomArgs op t d).2 (some (f.reg d)))) dst))) ∧
    (Issues s g f h { counts := true, chks := Mem.chk m 2 ++ Reg.chk d t.regs } → Opened s g hn off n n true w s1 →
      Sends (.sput h d m t) s s1 g f h
        (w.req g.ctx hn off (.sput s1.regs.stepNum.toNat (leBytes n (f.rN (f.reg d) t.regs)))) true) ∧
    (Issues s g f h { counts := true, chks := Mem.chk m 2 } →
      let va := f.va m
      ∀ bs s0, Found s g va 64 true false p s1 → p.tier = .near → s1.nearBytes g p va 64 = .inr (bs, s0) →
      let q := quad bs
      let hx := bits (q 0) 63 48
      let ox := bits (q 0) 47 0
      let len := bits (q 2) 16 0
      ∀ s2, Opened s0 g hx ox len 1 false w s2 → 1 ≤ len → len ≤ 65536 →
      bits (q 1) 63 56 = 0 → bits (q 2) 63 17 = 0 → q 5 = 0 → q 6 = 0 → q 7 = 0 →
      let o := s2.nearOff p va
      Sends (.xputq h m) s ((s2.dropLine g.coreOr0 (s2.ctx g.ctx).asid o).sramWrite (o + 32) (leBytes 8 0xFF)) g f h
        (w.req g.ctx hx ox (.xputq (dw (q 3)) (dw (bits (q 1) 55 0)) len [] o)) true [p.span va])

/-- SWAIT goes on once the boundary of the step it names as it issues has completed, and tells whether it was whole, and else
waits for it; SSTAT writes the status word; CTILE,
once its record has been read and keeps R259, R266, R312 and R328, takes its place among at most 8 of its core, a shared
unit that accepts in the order of R103, and counts among those of its group and RMASK (R325, R329, R330). What the
rules leave open is as the model chose it: assumptions 7, 34, 35 (the word of a step whose status is kept no longer) and 36
(what KIB counts). -/
def Obligations.SuperstepWords : Prop :=
  ∀ (s s1 : State) (g : Group) (f : Fibre) (h : Hdr) (p : BitVec 4) (a : Src) (d : Reg) (n : BitVec 6) (m : Mem)
    (k : CollKind) (bs : List Byte) (x : Xfer),
    (Issues s g f h (operandsOf (Src.chk a 2)) →
      let i := s.stepArg f a
      i < s.doneBelow →
      Runs (.swait h p a) s (went s ((s.acquire g).updFibre s.cur fun v =>
        v.setP p (s.stepKept i && !(s.stepStat i).tornIn && !(s.stepStat i).tornOut)))) ∧
    (Issues s g f h (operandsOf (Src.chk a 2)) → s.doneBelow ≤ s.stepArg f a →
      Runs (.swait h p a) s (kept s (s.updFibre s.cur fun v => { v with stat := .wait (.step (s.stepArg f a) p) }))) ∧
    (Issues s g f h (operandsOf (Src.chk a 2 ++ Reg.chk d 2)) →
      Runs (.sstat h d a) s (after s (f.wr d 2 (s.stepWord (s.stepArg f a)).toNat))) ∧
    (Issues s g f h { counts := true, chks := Mem.chk m 2 ++ bufChk g n, unit := some .lark } →
      let b := g.bufNow n.toNat
      s.readRecord g (f.va m) 1 [] = .inr (bs, s1) → s1.ctileCheck g b n k (f.va m) bs = .inl x → x.buf = n →
      let key := 512 * g.ctx + 8 * x.coll + x.shape.rmask.toNat
      let s2 := (s1.addOp g f (f.counter h) (.xfer { x with wdog := s1.cycle }) [] s1.cur.g [(b.lo, b.hi)] [] true).updGroup
        s1.cur.g fun y => { y with trans := y.trans ++ [(⟨s1.nextId, s1.cur, n, .put⟩ : Trans)] }
      Runs (.ctile h n m k) s (went s
        (State.settleTrans { s2 with collCount := Tab.set 0 key (x.nth + 1) s2.collCount } s1.cur.g)))

/-- A request from a peer within its quota is judged by R305 and answered with the outcome; a direct request that has to
wait is held, and one whose page lies in a peer is forwarded there; one beyond the quota is answered BUSY; any other
transaction is answered as unsupported (R304 to R306, R310, R317, R321). What the rules leave open is as the model chose it:
assumptions 30 and 31. -/
def Obligations.PodRequests : Prop :=
  ∀ (s s1 : State) (r : InReq) (len n : Nat) (bs : List (Option Byte)) (ds : List Byte) (op : AtomOp) (t : Ty)
    (x y qw : Dword) (st : BitVec 8) (out : List Byte),
    let full : Prop := s.quota r.src ≤ s.heldFrom r.src
    let direct (i : Instr) (q : Direct) : Prop :=
      (s.peerValid = true → s.heldFrom r.src < s.quota r.src →
        (q.legal r.addr.toNat = false → Runs i s (s.respond r.src r.tag stRemote [])) ∧
        (q.legal r.addr.toNat = true → s.inWin? (r.addr.toNat / 2 ^ 32 % 8192) = none →
          Runs i s (s.respond r.src r.tag stBounds [])) ∧
        (s.serve s.nextId r q = .done st out s1 → Runs i s (s1.respond r.src r.tag st out)) ∧
        (s.serve s.nextId r q = .hold →
          Runs i s { s with ingress := s.ingress ++ [(s.nextId, r, q)], nextId := s.nextId + 1 }) ∧
        (∀ ctx part u, s.serve s.nextId r q = .forward ctx [part] → s.sendPart s.nextId r none none ctx part = some (none, u) →
          Runs i s u)) ∧
      (s.peerValid = true → full → (s.unsent.any fun v => v.1 == r.src) = false →
        (∀ p, s.portFor r.src = some p →
          Runs i s { s with outbox := s.outbox ++ [.response r.src p r.tag stBusy []] }) ∧
        (s.portFor r.src = none →
          Runs i s { s with unsent := s.unsent ++ [(r.src, .response r.src 0 r.tag stBusy [])] })) ∧
      (s.peerValid = false → Runs i s (s.respond r.src r.tag stRemote []))
    direct (.inboundRead r len) (.read len) ∧ direct (.inboundWrite r bs) (.write bs) ∧
    direct (.inboundAtomic r op t x y) (.atomic op t x y) ∧
    Runs (.inboundUnsupported r) s (s.respond r.src r.tag stRemote []) ∧
    (s.peerValid = true → s.heldFrom r.src < s.quota r.src →
      (s.xheld.length < 64 → s.tryXputq s.nextId r qw ds = .inl (st, s1) →
        Runs (.xputqInbound r qw ds) s (s1.respond r.src r.tag st [])) ∧
      (s.stepRecord r.src r.hdr r.addr.toNat n ds = (st, s1) →
        Runs (.stepRecordInbound r n ds) s (s1.respond r.src r.tag st [])))

/-- A request leaves by the port that carries its peer's traffic, and a posted one completes as its payload has been copied
into that port's replay buffer; a send that waits for room there is accepted where there is some. -/
def podSendsPart : Prop :=
  ∀ (s : State) (o : Op) (r : PeerReq) (bs : List Byte) (q c : Nat),
    (s.op? o.id = some o → o.kind = .peer r → r.kind = .write bs → r.sent = false → s.peerHeld o r = false →
      s.peerValid = true → r.peer ≠ s.ownPeer → s.portFor r.peer = some q → r.room = some q →
      let u := { r with port := some q }
      let t := (s.setOp { o with kind := .peer { u with sent := true, busy := false }, ctr := none, nodrain := true }).onIssuer o
        fun f => (f.lateFlags o.ctr 0#7).uncount o.ctr
      Runs (.countedCompletion o.id) s (State.passSend { t with outbox := t.outbox ++ [.request o.id q u] } o)) ∧
    (let waits (p : Op) (v : PeerReq) (k : Nat) : Prop := p ∈ s.ops ∧ p.kind = .peer v ∧ p.core = c ∧ s.takesRoom v = true ∧
       v.sent = false ∧ v.room = none ∧ s.roomFor p.id v = some k
     s.unitWaiters c .ualink = [] → (∃ p v k, waits p v k) →
      ∃ p v k, waits p v k ∧ Runs (.sharedUnitAccept c .ualink) s
        ((s.setOp { p with kind := .peer { v with room := some k } }).passSend p))

/-- The response to a request: a read or atomic lands and its fibre goes on, a posted one is over, BUSY is sent again; a
timeout marks the window's handle failed. A fibre that still waited for room to send it goes on in any case. -/
def podAnswersPart : Prop :=
  ∀ (s : State) (o : Op) (r : PeerReq) (h : XHeld) (bs : List Byte) (t : Ty) (op : AtomOp) (x y : Dword)
    (p tag hn : Nat),
    let sp := s.passSend o
    (s.op? o.id = some o → (∀ f ∈ s.fwds, f.id ≠ o.id) → o.kind = .peer r →
      (r.sent = true →
        (∀ d, r.kind = .read t d →
          Runs (.peerResponse o.id 0#8 bs) s (sp.peerLand o d t.regs (loadValue t bs) 0#7)) ∧
        (∀ d, r.kind = .atomic op t x y (some d) → Runs (.peerResponse o.id 0#8 bs) s
          (sp.peerLand o d t.regs (leNat bs) (atomNew op t (leNat bs) x.toNat y.toNat).2)) ∧
        (∀ ds, r.kind = .write ds → Runs (.peerResponse o.id 0#8 bs) s (sp.finish o)) ∧
        (∀ ds, r.kind = .atomic op t x y none → Runs (.peerResponse o.id 0#8 ds) s (sp.finish o)) ∧
        Runs (.peerResponse o.id stBusy bs) s (sp.setOp { o with kind := .peer { r with busy := true } })) ∧
      (r.busy = true → (∀ q, r.port = some q → q ∉ s.downPorts) → Runs (.busyRetry o.id) s
        ((s.setOp { o with kind := .peer { r with busy := false } }).deliver o { r with busy := false })) ∧
      (r.handle = some hn → Runs (.requestTimeout o.id) s
        (State.peerRespond { s with failedWin := (hn / 65536, hn % 65536) :: s.failedWin } o r stTimeout []))) ∧
    Runs (.responseDiscard p tag) s
      { s with pendResp := s.pendResp.filter fun v => !(v.1 == p && v.2.1 == tag) } ∧
    (s.xheld.find? (fun v => v.id == h.id) = some h → h.miss ≠ [] →
      Runs (.xputqPageWaitExpiry h.id) s (s.endHeld h stTranslation).retryIngress) ∧
    Runs (.portDown p) s
      (State.loseReplay { s with downPorts := if s.downPorts.contains p then s.downPorts else p :: s.downPorts } p) ∧
    Runs (.portUp p) s { s with downPorts := s.downPorts.filter fun v => v != p }

/-- How requests of this package leave and complete, and their responses; a held XPUTQ ends when its time is up; and ports
go down and up (R247, R307, R309, R310, R314, R317, R326). What the rules leave open is as the model chose it: assumptions
30 and 32. -/
def Obligations.PodResponses : Prop := podSendsPart ∧ podAnswersPart

/-- The phases of a boundary (R319, R322 to R325, R329, R330): READY is sent once the step's own writes are
acknowledged, the records are applied, APPLIED is sent, and with every member's APPLIED the boundary is complete, and a fibre at
SWAIT goes on; what the lowest late member has not sent, and the lowest participant that a collective lacks, is reported every
STEP_WDOG cycles, and nothing where none is late. What the rules leave open is as the model chose it:
assumptions 34 and 36. -/
def Obligations.SuperstepEvents : Prop :=
  ∀ (s : State) (b : Boundary) (p n : Nat) (o : Op) (x : Xfer) (k : CollKind) (st : BitVec 8) (parts : List CollPart)
    (g : Group),
    (s.boundary = some b →
      (b.phase = 2 → s.sputPending b.n = false → Runs .boundaryDrained s (State.readySettle (State.broadcast
        { s with boundary := some { b with phase := 3, since := s.cycle } } fun q => .ready q 0 b.n))) ∧
      (b.phase = 4 → Runs .stepApply s (State.broadcast
        { s.applyStep b.n with boundary := some { b with phase := 5, since := s.cycle } } fun q => .applied q 0 b.n)) ∧
      (b.phase = 5 → s.others.all (fun q => s.appliedFrom.contains (b.n, q)) = true →
        ∃ t, Runs .boundaryComplete s t ∧ t.boundary = none ∧ t.doneBelow = b.n + 1 ∧ t.stepKept b.n = true ∧
          ∀ j z q v d, s.group? j = some z → z.fibre? q = some v → v.stat = .wait (.step b.n d) → ∃ y u, t.group? j = some y ∧
            y.fibre? q = some u ∧ u.stat = .ready ∧ u.pos = v.pos.next ∧
            u.p d = (!(s.stepStat b.n).tornIn && !(s.stepStat b.n).tornOut)) ∧
      (b.phase = 3 ∨ b.phase = 5 → s.regs.stepWdog ≠ 0#64 →
        b.since + s.regs.stepWdog.toNat * (b.reported + 1) ≤ s.cycle →
        let a := s.regs.stepCtl.extractLsb' 32 16
        let sent (q : Nat) : Bool := if b.phase = 3 then s.readyFrom.contains (b.n, q) else s.appliedFrom.contains (b.n, q)
        ((∀ q ∈ s.others, sent q = true) → Runs .stepWatchdog s s) ∧
        (∀ m ∈ s.others, sent m = false → (∀ q ∈ s.others, q < m → sent q = true) →
          Runs .stepWatchdog s (State.postFault { s with boundary := some { b with reported := b.reported + 1 } } s.stepCtx
            (faultRec 0x31#8 0#8 a (s.genOf a) 0 0 0#64 (dw m) (dw b.n)))))) ∧
    (s.peerValid = true → s.doneBelow ≤ n →
      Runs (.readyMsg p n) s (State.readySettle
        { s with readyFrom := (n, p) :: s.readyFrom.filter fun v => v != (n, p) }) ∧
      Runs (.appliedMsg p n) s { s with appliedFrom := (n, p) :: s.appliedFrom.filter fun v => v != (n, p) }) ∧
    (s.xferDue o.id = some (o, x) → x.kind = .ctile k → x.effective = true → x.out = none →
      let lo := (g.buf x.buf.toNat).lo
      let stopped (v : BitVec 8) : Prop := Runs (.ctileComplete o.id st parts) s (s.xferDone o x .empty v x.shape.base 0#7)
      (s.peerValid = false → stopped stTimeout) ∧
      (s.peerValid = true → st ≠ 0#8 → stopped st) ∧
      (s.peerValid = true → st = 0#8 → parts.length = x.peers.length → (∀ v ∈ otherParts x parts, v.nth = x.nth) →
        ((∃ v ∈ otherParts x parts, s.collAgrees x k v = false) → stopped stMismatch) ∧
        ((∀ v ∈ otherParts x parts, s.collAgrees x k v = true) → s.group? o.fib.g = some g →
          (errIn g.scratchErr lo (collOwn x k) = true → stopped 0x04#8) ∧
          (errIn g.scratchErr lo (collOwn x k) = false → Runs (.ctileComplete o.id st parts) s (s.collWrite o x
            (s.collResult x k (Memory.read g.scratch lo (collOwn x k)) (parts.map fun v => v.tile))))))) ∧
    (s.op? o.id = some o → o.kind = .xfer x → x.kind = .ctile k → x.out = none →
      s.regs.stepWdog ≠ 0#64 → x.wdog + s.regs.stepWdog.toNat ≤ s.cycle →
      let came := s.comeNow x
      let a := (s.ctx o.ctx).asid
      Runs (.collWatchdog o.id p) s (if s.lowestMissing x came = some p then
        (s.setOp { o with kind := .xfer { x with wdog := x.wdog + s.regs.stepWdog.toNat, came } }).postFault o.ctx
          (faultRec 0x32#8 0#8 a (s.genOf a) o.core o.fib.f o.pc (dw p) (dw x.coll))
        else s)) ∧
    (∀ come, s.lowestMissing x come = some p ↔
      p ∈ x.peers ∧ p ≠ s.ownPeer ∧ p ∉ come ∧ ∀ q ∈ x.peers, q ≠ s.ownPeer → q ∉ come → p ≤ q)

/-! ### Synchronisation, launches, traps -/

/-- FENCE, once its drain has come, and a release or acquire where its scope is wider than a group; ACQ, once the
object's sequence has come; REL, BIND and UNBIND on NEAR memory (R336 to R342). What the rules leave open is as the
model chose it: assumptions 7 and 29 (the bytes and places of the binding table). -/
def Obligations.SyncWords : Prop :=
  ∀ (s s1 : State) (g : Group) (f : Fibre) (h : Hdr) (sc : Scope) (k : FenceKind) (d a b : Reg) (m : Mem) (p : Page),
    (Issues s g f h {} → s.undrained s.cur f = false → (sc = .pod → s.podPending s.cur f = false) →
      let wide := sc = .cluster ∨ sc = .package ∨ sc = .pod
      (¬ wide → Runs (.fence h sc k) s (after s f)) ∧
      (wide → Runs (.fence h sc .full) s (went s ((s.release g).acquire g)) ∧
        Runs (.fence h sc .rel) s (went s (s.release g)) ∧ Runs (.fence h sc .acq) s (went s (s.acquire g)))) ∧
    (p.tier = .near →
      let va := f.va m
      let off := s1.nearOff p va
      let asid := (s1.ctx g.ctx).asid
      let us := s1.boundUnits g.ctx va
      (Issues s g f h (operandsOf (Mem.chk m 2 ++ Reg.chk d 1)) → Found s g va 8 true false p s1 →
        seqReached (s1.sramWord off 8 / 2 ^ 32) (f.r (f.reg d)).toNat = true →
        Runs (.acq h d m) s (went s ((s1.flushLines g.coreOr0 true fun l =>
          l.asid == asid && (us.contains (l.line / 32) || l.line == off / 128)).dropFetched g.coreOr0 g.ctx))) ∧
      (Issues s g f h { counts := true, chks := Mem.chk m 2 } → Found s g va 8 true true p s1 →
        s1.undrained s1.cur f = false →
        Runs (.rel h m) s (went s (((s1.flushLines g.coreOr0 false fun l =>
          l.asid == asid && us.contains (l.line / 32)).dropLine g.coreOr0 asid off).addOp g f (f.counter h) (.rel off va)
          (used := [p.span va])))) ∧
      (Issues s g f h (operandsOf (Reg.chk a 2 ++ Reg.chk b 2 ++ Reg.chk d 1)) → Found s g (f.rdPair a) 8 true true p s1 →
        let r := bindTable g.ctx (f.rdPair a) (f.rdPair b) s1.binds
        Runs (.bind h d a b) s (went s ((r.2.elim s1 s1.addBinding).updFibre s.cur fun v => v.wr d 1 r.1)))) ∧
    (Issues s g f h (operandsOf (Reg.chk b 2 ++ Reg.chk d 1)) →
      let r := unbindTable g.ctx (f.rdPair b) s.binds
      Runs (.unbind h d b) s (went s ((r.2.foldl State.dropBinding s).updFibre s.cur fun v => v.wr d 1 r.1)))

/-- HINTNEXT marks its group once; WAITPRED goes on without a predecessor to wait for, and with an acquire once it has
completed; QPOST and SIGNAL, once the fibre has drained, release and then act, and the core drops its line of QPOST's packet
(R334, R364). What the rules leave open is
as the model chose it: assumption 7. -/
def Obligations.LaunchWords : Prop :=
  ∀ (s s1 : State) (g : Group) (f : Fibre) (h : Hdr) (n : BitVec 14) (l : Launch) (d a b : Reg) (m : Mem) (p : Page)
    (add irq : Bool),
    (Issues s g f h {} →
      (g.hint = none → Runs (.hintnext h n) s (went s (s.updGroup s.cur.g fun x => { x with hint := some n.toNat }))) ∧
      (g.hint ≠ none → Runs (.hintnext h n) s (after s f)) ∧
      (s.waitedPred g = none → Runs (.waitpred h) s (after s f)) ∧
      (s.waitedPred g = some l → l.complete = true → Runs (.waitpred h) s (went s (s.acquire g)))) ∧
    (s1.undrained s1.cur f = false →
      let s2 := s1.release g
      (Issues s g f h { counts := true, chks := Reg.chk a 2 ++ Reg.chk b 1 ++ Reg.chk d 1 } →
        Found s g (f.rdPair a) 32 true false p s1 → p.tier = .near →
        let s3 := s2.dropLine g.coreOr0 (s1.ctx g.ctx).asid (s1.nearOff p (f.rdPair a))
        let r := s3.qpost g.ctx (f.r (f.reg b)).toNat (s3.sramRead (s3.nearOff p (f.rdPair a)) 32)
        Runs (.qpost h d a b) s (went s (r.2.addOp g f (f.counter h) (.land (f.reg d) 1 (dw r.1)) [f.reg d]
          (nodrain := true)))) ∧
      (Issues s g f h { counts := true, chks := Mem.chk m 2 ++ Reg.chk d 2 } →
        Found s g (f.va m) 8 add true p s1 →
        (p.tier = .near → Runs (.signal h d m add irq) s (went s (s2.addOp g f (f.counter h)
          (.signal (s1.nearOff p (f.va m)) false (f.rdPair d) add irq) [] (nodrain := true) (used := [p.span (f.va m)])))) ∧
        (p.tier = .host → add = false → Runs (.signal h d m add irq) s (went s (s2.addOp g f (f.counter h)
          (.signal (hostAddr (s1.ctx g.ctx).pasid p (f.va m)) true (f.rdPair d) add irq) [] (nodrain := true)
          (used := [p.span (f.va m)]))))))

/-- TRAP and BRK take their exception; TFENCE goes on with nothing to report and traps on what there is; TRET returns
(R376 to R380). SYSR, SYSW, SREAD, FLAGS and TMASK read and write the fibre's registers (R137, R152, R372, R373,
R381 to R383); FLAGS reads and clears the flags of all that has completed (R80, R382). What the rules leave open is as the model chose it: assumptions 6 and 11. -/
def Obligations.TrapWords : Prop :=
  ∀ (s : State) (g : Group) (f : Fibre) (h : Hdr) (d a : Reg) (x : Src) (n : BitVec 2) (r : Report) (q : SysReg),
    (Issues s g f h (operandsOf (Src.chk x 1)) →
      Runs (.trap h x) s (s.takeTrap s.cur .software (dw (f.src .z32 x))) ∧
      Runs (.brk h x) s (s.takeTrap s.cur .brk (dw (f.src .z32 x)))) ∧
    (Issues s g f h {} →
      (f.tm = true ∨ (f.slot = none ∧ g.gslot = none ∧ f.flags &&& f.en = 0#7) → Runs (.tfence h) s (after s f)) ∧
      (f.tm = false → f.slot = some r → Runs (.tfence h) s
        ((s.updFibre s.cur fun v => { v with slot := none }).takeTrap s.cur r.cause r.addr)) ∧
      (f.tm = false → f.slot = none → g.gslot = some r → Runs (.tfence h) s
        ((s.updGroup s.cur.g fun y => { y with gslot := none }).takeTrap s.cur r.cause r.addr)) ∧
      (f.tm = false → f.slot = none → g.gslot = none → f.flags &&& f.en ≠ 0#7 →
        Runs (.tfence h) s (s.takeTrap s.cur .arith (0#57 ++ (f.flags &&& f.en))))) ∧
    (Issues s g f h { lastWord := true, inHandler := true } →
      Runs (.tret h) s (kept s (s.updFibre s.cur fun v =>
        { v.goTo (v.tq.resume v.tpc) s.cycle with tmask := v.tmask &&& ~~~0x80#64 }))) ∧
    (Issues s g f h (operandsOf (Reg.chk a 2 ++ Reg.chk d 2)) → badTmask (f.rdPair a) = false →
      Runs (.tmask h d (.full a)) s (after s { f.wr d 2 f.tmask.toNat with
        tmask := (f.rdPair a &&& 0x00FFFFFFFFFFFF7F#64) ||| (f.tmask &&& 0x80#64) })) ∧
    (Issues s g f h (operandsOf (Src.chk x 1 ++ Reg.chk d 2)) →
      Runs (.tmask h d (.en x)) s (after s { f.wr d 2 f.tmask.toNat with
        tmask := (f.tmask &&& ~~~0x7F#64) ||| (dw (f.src .z32 x) &&& 0x7F#64) })) ∧
    (Issues s g f h (operandsOf (Src.chk x 1 ++ Reg.chk d 1)) →
      let m := BitVec.ofNat 7 (f.src .z32 x)
      Runs (.flags h d x) s (after s ((f.wr d 1 f.allFlags.toNat).clearFlags m)) ∧
      (f.clearFlags m).flags = f.flags &&& ~~~m ∧ (f.clearFlags m).allFlags = f.allFlags &&& ~~~m) ∧
    (Issues s g f h (operandsOf (Reg.chk d 2)) → Runs (.sysr h d n) s (after s (f.wr d 2 (f.trapWord n.toNat).toNat))) ∧
    (Issues s g f h { inHandler := true, chks := Reg.chk a 2 } →
      Runs (.sysw h .tpc a) s (after s { f with tpc := f.rdPair a }) ∧
      Runs (.sysw h .taddr a) s (after s { f with taddr := f.rdPair a })) ∧
    (Issues s g f h { inHandler := true, chks := Reg.chk a 1 } →
      Runs (.sysw h .tcause a) s (after s { f with tcause := (f.r (f.reg a)).extractLsb' 0 8 })) ∧
    (Issues s g f h (operandsOf (Reg.chk d q.regs)) →
      Runs (.sread h d q) s (after s (f.wr d q.regs (s.sysValue g f q))))

/-- Taking a trap: with neither a debugger that wants it nor TM set nor HBASE 0, the fibre's cause, value, PC and
position are saved, TM is set, and it goes to a header at HBASE × 256, its registers as they were; with TM set or
HBASE 0 its group stops and is faulted, its PC as it was (R371, R374, R375). TRET to the word that trapped resumes
there (R377). What the rules leave open is as the model chose it: assumption 53. -/
def Obligations.TrapEntry : Prop :=
  ∀ (s : State) (r : FRef) (g : Group) (f : Fibre) (c : Cause) (v : Dword),
    s.group? r.g = some g → g.fibre? r.f = some f → g.toDebugger c = false →
    (f.tm = false → f.hbase ≠ 0#48 → ∃ x, s.takeTrap r c v = s.updFibre r (fun _ => x) ∧
      x.tcause = c.code ∧ x.taddr = v ∧ x.tpc = f.pos.pc ∧ x.tq = f.pos ∧ x.tm = true ∧ x.hbase = f.hbase ∧ x.en = f.en ∧
      x.pos = { pc := dw (f.hbase.toNat * 256) } ∧ x.pos.atHdr = true ∧ x.regs = f.regs ∧ x.preds = f.preds ∧ x.idxr = f.idxr ∧
      x.ctrs = f.ctrs ∧ x.flags = f.flags ∧ (x.trapReturn s.cycle).pos = f.pos ∧ (x.trapReturn s.cycle).tm = false) ∧
    (f.tm = true ∨ f.hbase = 0#48 → ∃ y x, (s.takeTrap r c v).group? r.g = some y ∧ y.fibre? r.f = some x ∧
      y.faulted = true ∧ y.stopping = true ∧ x.stopped = true ∧ x.pos = f.pos ∧ x.regs = f.regs)

/-- Before a word has its own effect (R49): in a fibre whose guard is false it only goes on (R24); outside a body it
raises CLAUSE_FORM (R50); an operand outside its allocation raises REG_RANGE with its number (R34), and a misaligned
one ALIGN (R35); TRET, SYSW raise PRIV outside a handler (R371). IADD stands for the words of one register
operation. What the rules leave open is as the model chose it: assumptions 38 and 39. -/
def Obligations.BeforeTheEffect : Prop :=
  ∀ (s : State) (g : Group) (f : Fibre) (h : Hdr) (d a : Reg) (x y : Src) (t : Ty) (sat : Bool) (q : SysReg),
    s.group? s.cur.g = some g → g.fibre? s.cur.f = some f →
    let cs := Src.chk x t.regs ++ Src.chk y t.regs ++ Reg.chk d t.regs
    (f.pos.atHdr = true → Runs (.iadd h d x y t sat) s (s.takeTrap s.cur .clauseForm f.pos.pc)) ∧
    (f.pos.atHdr = false →
      (f.guard h.guard = false → Runs (.iadd h d x y t sat) s (after s f)) ∧
      (f.guard h.guard = true →
        (∀ v, cs.findSome? (Chk.range (g.allocation s.cur.f) f) = some v →
          Runs (.iadd h d x y t sat) s (s.takeTrap s.cur .regRange v)) ∧
        (∀ v, cs.findSome? (Chk.range (g.allocation s.cur.f) f) = none → cs.findSome? (Chk.align f) = some v →
          Runs (.iadd h d x y t sat) s (s.takeTrap s.cur .align v)) ∧
        (f.tm = false → Runs (.sysw h q a) s (s.takeTrap s.cur .priv 0#64) ∧
          (f.pos.idx = f.pos.len → Runs (.tret h) s (s.takeTrap s.cur .priv 0#64)))))

/-- Frame of a word of one register operation (R79, R80, R84, R85, R95, R143, R145): whatever IADD, AND, FADD or FMAX does,
only the issuing fibre changes, and of it only the destination's registers, the flags by gathering more, the position and
the scheduler's own fields; no other fibre, no memory and no queue changes. -/
def Obligations.RegisterFrame : Prop :=
  ∀ (s : State) (g : Group) (f : Fibre) (h : Hdr) (d : Reg) (a b : Src) (t : Ty) (sat : Bool) (rnd : Rnd),
    Issues s g f h (needsAB d a b t) →
    ∀ i ∈ [Instr.iadd h d a b t sat, .and h d a b t, .fadd h d a b t rnd sat, .fmax h d a b t],
    ∃ u y x, Runs i s u ∧ u = s.setGroup s.cur.g y ∧ y = g.setFibre s.cur.f x ∧
      u.sram = s.sram ∧ u.far = s.far ∧ u.hostMem = s.hostMem ∧ u.ops = s.ops ∧ u.queues = s.queues ∧ u.regs = s.regs ∧
      y.scratch = g.scratch ∧ y.tiles = g.tiles ∧ y.active = g.active ∧ y.shadow = g.shadow ∧ y.banks = g.banks ∧
      y.bufs = g.bufs ∧ y.masks = g.masks ∧
      (∀ k, k < f.reg d ∨ f.reg d + t.regs ≤ k → x.r k = f.r k) ∧
      (∀ k, f.flags.getLsbD k = true → x.flags.getLsbD k = true) ∧
      x.preds = f.preds ∧ x.idxr = f.idxr ∧ x.ctrs = f.ctrs ∧ x.tmask = f.tmask ∧ x.tcause = f.tcause ∧ x.tpc = f.tpc ∧
      x.taddr = f.taddr ∧ x.tq = f.tq ∧ x.slot = f.slot ∧ x.budget = f.budget ∧ x.bars = f.bars

/-! ### Launches, queues, and the host -/

/-- A launch that waited is judged and starts where its paddock lives and its predecessor lets it, or stops its queue at
its packet; it completes when its last group has ended and all that they wrote has been performed and written back,
with CSV written to CSA; a group comes to the core that has room for it, at its entry address; a stopping group is
saved; a pre-emption stops the context's groups on the paddock (R360 to R363, R366, R367, R384). What the rules
leave open is as the model chose it: assumptions 16, 17, 21 and 22. -/
def Obligations.LaunchEvents : Prop :=
  ∀ (s : State) (k g p c core slot q code : Nat) (l : Launch) (r : LaunchRec) (x : Group) (v : Dword)
    (ps : List (Page × (Nat × Nat))) (ds : List Due),
    (Tab.find s.launches k = some l → l.complete = false → s.padAlive l.pad = true → s.ctxOk l.ctx = true →
      l.started = false → l.parent = none → s.mayStart l = true → (l.queue.map s.runningOf).getD 0 < 16 →
      (s.judgeRecord l.ctx l.pad l.recVa l.grid = .inr r → l.next < r.total →
        Runs (.launchStart k) s (State.setLaunch { s with nextId := s.nextId + 1 } k
          { l with lr := r, started := true, startedAt := s.nextId, dbg := Tab.get 0#64 s.regs.dbgCtl l.ctx })) ∧
      (s.judgeRecord l.ctx l.pad l.recVa l.grid = .inl code → l.queue = some q →
        ∃ t, Runs (.launchStart k) s t ∧ (t.queue q).state = .error ∧ (t.queue q).head = (s.queue q).at_ ∧
          t.launches = (Tab.del k s.launches).map fun y =>
            (y.1, { y.2 with pred := if y.2.pred = some k then l.pred else y.2.pred }))) ∧
    (Tab.find s.launches k = some l → s.launchDone k l = true →
      let s1 := s.releaseLaunch k l
      Runs (.launchComplete k) s (State.setLaunch
        (if l.lr.csa = 0#64 then s1 else s1.deviceWord l.ctx l.lr.csa l.lr.csv) k { l with complete := true })) ∧
    ((s.pad p).preempt = none → ((s.settleServing p).pad p).serving = some c →
      let s1 := s.settleServing p
      s1.due p c = ⟨k, []⟩ :: ds → Tab.find s1.launches k = some l → l.lr.cl = 1 → s1.freeSlots l.ctx 1 = [slot] →
      s1.findCores k l [l.lr.needs l.lr.wa] = some [core] →
      ∃ t, Runs (.groupPlace p) s t ∧ (∃ y f, t.group? s1.nextId = some y ∧ y.loc = .resident core ∧ y.lin = l.next ∧
        y.slot = slot ∧ y.lr = l.lr ∧ (l.lr.nf ≠ 0 → y.fibre? 0 = some f ∧ f.pos = { pc := l.lr.entry } ∧ f.regs = [] ∧
          f.stat = .ready ∧ f.wave = false)) ∧
        (Tab.find t.launches k).map (·.next) = some (l.next + 1)) ∧
    (s.clusterOf g = [g] → s.saveDue g = true → s.group? g = some x → x.core? = some c → s.slotPages x.ctx x.slot = some ps →
      (∀ q ∈ s.pads, (Tab.get {} s.pads q.1).preempt = none) →
      ∃ t y, Runs (.groupSave g) s t ∧ t.group? g = some y ∧ y.loc = .saved ∧ y.stopping = false) ∧
    ((s.pad p).serving = some c → s.quantumOut p = true → s.runnable p c = true →
      Runs (.quantumExpiry p) s (s.preempt p c)) ∧
    (v.getLsbD 63 = true → (s.pad p).preempt = none →
      Runs (.preemptCtl p v) s (s.preempt p (bits v.toNat 9 0)) ∧
      (s.residentOn p (bits v.toNat 9 0) ≠ [] → ∃ t, Runs (.preemptCtl p v) s t ∧
        ∀ j ∈ s.residentOn p (bits v.toNat 9 0), ∃ y, t.group? j = some y ∧ y.stopping = true))

/-- The packets without brackets: NOP goes on; LAUNCH and LAUNCHI make the launch that their record describes, judged as it
starts, at once where its predecessor lets it; WAITSEQ goes on once its word has come; QFENCE, SIGNAL and HALT once every
earlier launch is complete; ENGCMD asks its chain to forward; STEPB begins the boundary of the write step (R354 to R357).
What the rules leave open is as the model chose it: assumptions 16 and 52. -/
def Obligations.Packets : Prop :=
  ∀ (s : State) (va rec_ grid value n : Dword) (r : LaunchRec) (p : Page) (hnd : BitVec 12) (e : ChainEnt) (irq : Bool),
    let q := s.curQ
    let v := s.queue q
    let went (t : State) : State := t.setQueue q v.advance
    s.served q = true →
    Runs .packetNop s (went s) ∧
    (let pad := (s.ctx v.ctx).pad
     let made (i : Instr) (w : Option Dword) : Prop :=
      let word := w.map fun a => (s.nearRead v.ctx a 8 8).map leNat
      let x : Launch := { queue := some q, ctx := v.ctx, pad, prio := v.prio, pred := v.pred, recVa := rec_, grid := word
                          pkt := v.at_, lr := { pwait := s.asksWait v.ctx rec_ } }
      let add (y : Launch) : State :=
        (State.setQueue { s with nextId := s.nextId + 1 } q { v.advance with pred := some s.nextId }).setLaunch s.nextId y
      (s.mayStart x = false → Runs i s (add x)) ∧
      (s.mayStart x = true →
        (s.judgeRecord v.ctx pad rec_ word = .inr r →
          Runs i s ((add { x with lr := r }).startLaunch s.nextId { x with lr := r })) ∧
        (∀ code, s.judgeRecord v.ctx pad rec_ word = .inl code → Runs i s (s.queueError q 0x03 code rec_)))
     s.padAlive pad = true → s.runningOf q < 16 → made (.launch rec_) none ∧ made (.launchi rec_ grid) (some grid)) ∧
    (s.wordPage v.ctx va false = some p →
      let w := leNat (s.devRead v.ctx p va.toNat 8)
      (value.toNat ≤ w → Runs (.waitseq false va value) s (went (s.acquireAll v.ctx))) ∧
      (seqReached (w / 2 ^ 32) (value.toNat % 2 ^ 32) = true →
        Runs (.waitseq true va value) s (went (s.acquireAll v.ctx)))) ∧
    (s.queueDrained q = true →
      Runs .qfence s (went s) ∧ Runs .halt s (s.setQueue q { v.advance with state := .halted }) ∧
      (s.wordPage v.ctx va true = some p →
        let done (t : State) : State := went (if irq then t.raise (s.ctx v.ctx).vec else t)
        Runs (.signalPacket false irq va value) s (done (s.devWrite v.ctx p va.toNat (leBytes 8 value.toNat))) ∧
        (p.tier = .near → Runs (.signalPacket true irq va value) s (done (s.devWrite v.ctx p va.toNat
          (leBytes 8 (leNat (s.devRead v.ctx p va.toNat 8) + value.toNat))))))) ∧
    (s.chainEntry v.ctx hnd.toNat = some e →
      let c := s.chain v.ctx hnd.toNat
      (v.engcmd = none → 1 ≤ n.toNat → n.toNat ≤ 64 → Runs (.engcmd hnd n) s ((s.setChain v.ctx hnd.toNat
        { c with fwd := c.fwd ++ [{ by_ := none, queue := q, left := n.toNat, ent := e }] }).setQueue q
          { v with engcmd := some hnd.toNat })) ∧
      (v.engcmd = none → n = 0#64 → Runs (.engcmd hnd n) s (went s)) ∧
      (v.engcmd = some hnd.toNat → s.engcmdPending q v.ctx hnd.toNat = false → Runs (.engcmd hnd n) s (went s))) ∧
    (s.stepOn = true → n.toNat = s.writeStep → (s.ctx v.ctx).asid = s.regs.stepCtl.extractLsb' 32 16 → s.boundary = none →
      n.toNat ≤ s.doneBelow → Runs (.stepb n) s (went { s with
        regs := { s.regs with stepNum := dw (n.toNat + 1) }, boundary := some { n := n.toNat, phase := 2, since := s.cycle } }))

/-- The brackets (R353, R357): an opener waits until its end lies below TAIL, and fails where the packets up to it do not
nest; LOOP with a count of 0 and a condition that does not hold pass over their body; ENDLOOP goes back while
iterations are left; and the registers of a queue: TAIL only grows within the ring, CLEAR empties
the queue, RESUME runs a halted one on (R352). What the rules leave open is as the model chose it: assumptions 19
and 52. -/
def Obligations.BracketsAndQueueRegisters : Prop :=
  ∀ (s : State) (count left pkt e m t : BitVec 32) (va value mask : Dword) (c : PCond) (b : Bool) (fs : List Frame)
    (mid : Option (BitVec 32)) (q : Nat) (v : Dword),
    (s.served s.curQ = true →
      let w := s.queue s.curQ
      let jumps (i : Instr) (k : BitVec 32) (gs : List Frame) : Prop := Runs i s (s.setQueue s.curQ (w.goTo k gs))
      (s.matchOf w (true, false) w.frames.length = .found mid e →
        (count = 0#32 → jumps (.loop count) (e + 1#32) w.frames) ∧
        (count ≠ 0#32 → jumps (.loop count) (w.at_ + 1#32) (.loop w.at_ count :: w.frames))) ∧
      (s.matchOf w (true, false) w.frames.length = .wait → Runs (.loop count) s s) ∧
      (s.matchOf w (true, false) w.frames.length = .bad → Runs (.loop count) s (s.queueErr s.curQ 0x02)) ∧
      (s.matchOf w (false, false) w.frames.length = .found mid e → s.wordCond w.ctx c va value mask = some b →
        (b = true → jumps (.ifmem c va value mask) (w.at_ + 1#32) (.ifm w.at_ :: w.frames)) ∧
        (b = false → mid = some m → jumps (.ifmem c va value mask) (m + 1#32) (.ifm w.at_ :: w.frames)) ∧
        (b = false → mid = none → jumps (.ifmem c va value mask) (e + 1#32) w.frames)) ∧
      (w.frames = .loop pkt left :: fs →
        let again := jumps (.endloop true c va value mask) (pkt + 1#32) (.loop pkt (left - 1#32) :: fs)
        let ends := jumps (.endloop true c va value mask) (w.at_ + 1#32) fs
        (left ≠ 1#32 → jumps (.endloop false c va value mask) (pkt + 1#32) (.loop pkt (left - 1#32) :: fs)) ∧
        (left = 1#32 → jumps (.endloop false c va value mask) (w.at_ + 1#32) fs) ∧
        (s.wordCond w.ctx c va value mask = some b → if b = true ∧ left ≠ 1#32 then again else ends)) ∧
      (w.frames = .ifm pkt :: fs → jumps .endifPacket (w.at_ + 1#32) fs ∧
        (s.matchOf w (false, true) fs.length = .found mid e → jumps .elsePacket (e + 1#32) fs))) ∧
    (let w := s.queue q
     (w.dev = false → w.fill ≤ (t - w.head).toNat → (t - w.head).toNat ≤ 2 ^ w.log →
        Runs (.hqTail q ⟨none, 0#32 ++ t⟩) s (if t = w.tail then s else s.setQueue q { w with tail := t })) ∧
      (w.dev = true → Runs (.hqTail q ⟨none, v⟩) s s) ∧
      (w.still = true → Runs (.hqCtl q ⟨none, v⟩) s
        (s.setQueue q { w with ctl := v &&& 0xC00003FF00000F07#64 })) ∧
      (w.still = false → Runs (.hqCtl q ⟨none, v⟩) s (s.setQueue q { w with
        ctl := (v &&& 0x8000000000000000#64) ||| (w.ctl &&& 0x7FFFFFFFFFFFFFFF#64) })) ∧
      Runs (.clear q) s ((s.releaseDead q).setQueue q { w.goTo w.tail [] with state := .idle, pred := none }) ∧
      (w.state = .halted → Runs (.resume q) s (s.setQueue q { w with state := .idle })))

/-- Commands of system software: page answers, invalidates and their completion, ASIDs, key slots (R234 to R236, R239,
R399), and heartbeats: a beat counts afresh, and the second missed beat in a row halts the core (R389). What the
rules leave open is as the model chose it: assumptions 24, 50 and 51. -/
def Obligations.HostCommands : Prop :=
  ∀ (s : State) (st : BitVec 2) (page : BitVec 40) (asid : BitVec 16) (count : BitVec 32) (slot : BitVec 13)
    (k1 k2 : BitVec 256) (v : Inval) (rest : List Inval) (c : Nat) (lost : Bool),
    (st.toNat < 2 → Runs (.pgResp st page asid) s (s.answerPage asid page.toNat (st == 1#2)).retryPeers) ∧
    (2 ≤ st.toNat → Runs (.pgResp st page asid) s s) ∧
    (let put (w : Inval) : State := { s with invals := s.invals ++ [w] }
     Runs (.tlbInvalRange count asid) s
        (put { full := false, asid := some asid, lo := pageNo s.regs.tlbInvalVa, n := max 1 count.toNat }) ∧
      Runs (.tlbInvalAsid asid) s (put { full := false, asid := some asid }) ∧
      Runs .tlbInvalFull s (put { full := true, asid := none })) ∧
    (s.invals = v :: rest →
      (v.dropped = false → ∃ t, Runs .tlbInvalComplete s t ∧ t.tlb = s.tlb.filter (fun e => !v.covers e)) ∧
      (s.invalDone v = true → ∃ t, Runs .tlbInvalComplete s t ∧ t.invals = rest ∧
        t.regs.tlbInvalDone = s.regs.tlbInvalDone + 1#64 ∧
        (v.full = true → ∀ q ∈ t.asids, q.2.gen = 255#8 → q.2.flushed = true))) ∧
    (let x := s.asid asid
     let res (t : State) (n : BitVec 8) : State := { t with regs := { t.regs with asidStatus := n, asidLast := asid } }
     (x.bound = false → (x.gen ≠ 255#8 ∨ x.flushed = true) → Runs (.asidBind asid) s
        (res { s with asids := Tab.set {} asid.toNat { gen := x.gen + 1#8, bound := true } s.asids } 0#8)) ∧
      (x.gen = 255#8 → x.flushed = false → Runs (.asidBind asid) s (res s 1#8)) ∧
      (x.bound = true → x.gen ≠ 255#8 → Runs (.asidBind asid) s (res s 2#8)) ∧
      (x.bound = true → 1024 ≤ s.ctxOf asid → Runs (.asidRelease asid) s
        (res { s with asids := Tab.set {} asid.toNat { x with bound := false } s.asids } 0#8)) ∧
      (x.bound = false → Runs (.asidRelease asid) s (res s 3#8))) ∧
    Runs (.keyInval slot) s { s with keys := Tab.del slot.toNat s.keys } ∧
    (s.isSafe = false → Runs (.keyLoad slot k1 k2) s { s with keys := Tab.put slot.toNat (some (k1, k2)) s.keys }) ∧
    Runs (.heartbeat c) s (s.setCore c { s.core c with missed := 0 }) ∧
    ((s.core c).halted = false → c < 320 → s.mgmtDown = false →
      ((s.core c).missed = 0 → Runs (.heartbeatMiss c lost) s (s.setCore c { s.core c with missed := 1 })) ∧
      (1 ≤ (s.core c).missed → Runs (.heartbeatMiss c lost) s (s.haltCore c lost)))

/-- Registers that a host write changes with an action of their own: where one may be written, what of the value it
takes (R231, R308, R309, R318, R320, R350, R368, R369, R393, R406); and host accesses of the shared SRAM (R346). What the
rules leave open is as the model chose it: assumptions 29, 32 (WIN_RESET clears its handle in every context) and 33. -/
def Obligations.HostRegisters : Prop :=
  ∀ (s : State) (v : Dword) (w off : Nat) (bs : List Byte) (hnd : BitVec 16),
    let all : HVal := ⟨none, v⟩
    let set (r : HostRegs) : State := { s with regs := r }
    let pool := v &&& 0x00003FFF3FFF0000#64
    let intake := v &&& 0x3FF00000#64
    let lc := (v &&& 0x3FF00000#64) ||| dw (2 ^ 32 * min 256 (max 8 (bits v.toNat 41 32)))
    let fits (a b c : Bool) (x y z : Dword) : Bool := rangesOk (placedRanges (a, b, c) x y z (bits s.regs.stepCtl.toNat 7 0))
    (s.peerValid = false → Runs (.peerId all) s (set { s.regs with peerId := v &&& 0x80000000000003FF#64 })) ∧
    (s.peerValid = true → Runs (.peerId all) s s) ∧
    Runs (.peerTmo all) s (set { s.regs with peerTmo := dw (max 50 (bits v.toNat 15 0)) }) ∧
    Runs (.winReset hnd) s { s with failedWin := s.failedWin.filter fun x => x.2 != hnd.toNat } ∧
    ((∀ c, c < 1024 → s.ctxV c = false) →
      fits true s.placed.2.1 s.placed.2.2 pool s.regs.sramIntake s.regs.sramLcache = true →
      Runs (.sramPool all) s { s with regs := { s.regs with sramPool := pool }, placed := (true, s.placed.2) }) ∧
    (s.stepOn = false → fits s.placed.1 true s.placed.2.2 s.regs.sramPool intake s.regs.sramLcache = true →
      Runs (.sramIntake all) s
        { s with regs := { s.regs with sramIntake := intake }, placed := (s.placed.1, true, s.placed.2.2) }) ∧
    (s.peerValid = false → (∀ q ∈ s.queues, q.2.en = false) →
      fits s.placed.1 s.placed.2.1 true s.regs.sramPool s.regs.sramIntake lc = true →
      Runs (.sramLcache all) s
        { s with regs := { s.regs with sramLcache := lc }, placed := (s.placed.1, s.placed.2.1, true) }) ∧
    (s.boundary = none →
      (let bank := min 128 (max 1 (bits v.toNat 7 0))
       let taken : Prop :=
        Runs (.stepCtl all) s (set { s.regs with stepCtl := (v &&& 0x8000FFFF00000000#64) ||| dw bank })
       let ok := rangesOk (placedRanges s.placed s.regs.sramPool s.regs.sramIntake s.regs.sramLcache bank)
       (s.placed.2.1 = false → taken) ∧ (s.placed.2.1 = true → ok = true → taken) ∧
        (s.placed.2.1 = true → ok = false → Runs (.stepCtl all) s
          (set { s.regs with sramIntake := s.regs.sramIntake ||| 0x8000000000000000#64 }))) ∧
      Runs (.stepSpill all) s (set { s.regs with
        stepSpill := (v &&& 0x00FFFFFFFFFFFFFF#64) ||| dw (2 ^ 59 * min 4 (bits v.toNat 63 59)) }) ∧
      Runs (.stepDom w all) s (set { s.regs with stepDom := Tab.set 0#64 w v s.regs.stepDom }) ∧
      (s.stepOn = false → Runs (.stepNum all) s (State.releaseSteps { s with
        regs := { s.regs with stepNum := v }, doneBelow := v.toNat, stats := [], intake := [], torn := []
        boundary := none, readyFrom := [], appliedFrom := [] }))) ∧
    Runs (.optRing all) s (set { s.regs with
      optRing := (v &&& 0x3FFFFFFF#64) ||| dw (2 ^ 32 * min 12 (max 4 (bits v.toNat 35 32))) }) ∧
    Runs (.pwrCap all) s (set { s.regs with
      pwrCap := if 1500 ≤ bits v.toNat 12 0 ∧ bits v.toNat 12 0 ≤ 4600 then dw (bits v.toNat 12 0) else 4600#64 }) ∧
    Runs (.registerWrite 0x20 all) s (s.freshContexts (set { s.regs with ctxRoot := v &&& 0x3FFFFFFF#64 })) ∧
    Runs (.registerWrite 0x28 all) s (set { s.regs with ptRoot := v &&& 0xF3FFFFFFF#64 }) ∧
    Runs (.registerWrite 0x3020 all) s (set { s.regs with optVec := v &&& 0xFFF#64 }) ∧
    Runs (.hostMemoryAccess false off bs) s { s with hostRead := s.sramRead off bs.length } ∧
    Runs (.hostMemoryAccess true off bs) s (s.freshContexts (s.sramWrite off bs))

/-- Debugging (R391, R392, R375): STOP and RESUME act on the selected group, STEP, READ and WRITE on a fibre of it that
is stopped, with the result in DBG_STAT; an access of a register with an outstanding write is BUSY until none is left,
and a write then wins; a fibre that was sent elsewhere leaves its wait, and one that goes on waiting keeps its place; DISCARD ends a faulted group; other codes are
refused. What the rules leave open is as the model chose it: assumption 23. -/
def Obligations.Debugging : Prop :=
  ∀ (s : State) (g : Nat) (x : Group) (f : Fibre) (k : Nat) (w : DbgWait) (code : BitVec 4),
    let n := bits s.regs.dbgSel.toNat 9 0
    let res (t : State) (r : Nat) : State := { t with regs := { t.regs with dbgStat := dw r } }
    (s.dbgWait ≠ none → Runs .dbgRead s s ∧ Runs .dbgWrite s s) ∧
    (s.dbgWait = some w → s.fibre? w.fib = some f → w.pred = false → s.dbgBusy w.fib f false w.reg = false →
      (w.value = none → s.settleDbg =
        { s with dbgWait := none, regs := { s.regs with dbgStat := 0#64, dbgData := 0#32 ++ f.r w.reg } }) ∧
      (∀ v, w.value = some v → s.settleDbg =
        { s.updFibre w.fib (fun y => y.setR w.reg (v.setWidth 32)) with
          dbgWait := none, regs := { s.regs with dbgStat := 4#64 } })) ∧
    (s.dbgWait = none →
      Runs (.dbgBadOperation code) s (res s 3) ∧
      (s.dbgGroup = none →
        ∀ i ∈ [Instr.dbgStop, .dbgResume, .dbgStep, .dbgRead, .dbgWrite, .dbgDiscard], Runs i s (res s 2)) ∧
      (s.dbgGroup = some (g, x) →
        Runs .dbgStop s (res (s.setGroup g (x.mapFibres fun _ v => { v with stopped := true })) 0) ∧
        Runs .dbgResume s (res (s.setGroup g { x.resumeAll s.cycle with faulted := false }) 0) ∧
        (x.faulted = true ∨ x.stuck = true → Runs .dbgDiscard s (res (s.discard g) 0)) ∧
        (x.faulted = false → x.stuck = false → Runs .dbgDiscard s (res s 2)) ∧
        (x.fibre? n = some f →
          (f.stopped = false → ∀ i ∈ [Instr.dbgStep, .dbgRead, .dbgWrite], Runs i s (res s 1)) ∧
          (f.stopped = true →
            let y : Fibre := { f with stopped := false, stepping := .armed, stop := none
                                      pos := (f.stop.map fun t => t.q.resume t.pc).getD f.pos }
            (f.moved = false → Runs .dbgStep s (res (s.setGroup g (x.setFibre n
              { y with since := if f.stat = .ready then s.cycle + 1 else f.since })) 0)) ∧
            (f.moved = true → Runs .dbgStep s (res (s.setGroup g ((x.leave n f).setFibre n
              { y with stat := .ready, grant := none, since := s.cycle + 1 })) 0)) ∧
            (s.dbgReg? x n = some (.lane k) →
              (s.dbgBusy ⟨g, n⟩ f false k = false →
                Runs .dbgRead s (res { s with regs := { s.regs with dbgData := 0#32 ++ f.r k } } 0) ∧
                Runs .dbgWrite s (res (s.updFibre ⟨g, n⟩ fun v => v.setR k (s.regs.dbgData.setWidth 32)) 0)) ∧
              (s.dbgBusy ⟨g, n⟩ f false k = true →
                let busy (v : Option Dword) : State :=
                  { s with dbgWait := some { fib := ⟨g, n⟩, reg := k, value := v }
                           regs := { s.regs with dbgStat := 0x8000000000000000#64 } }
                Runs .dbgRead s (busy none) ∧ Runs .dbgWrite s (busy (some s.regs.dbgData)))) ∧
            (s.dbgReg? x n = some (.sys .tmask) →
              Runs .dbgRead s (res { s with regs := { s.regs with dbgData := f.tmask } } 0) ∧
              Runs .dbgWrite s (res s 3))))))

/-- The optical events (R393 to R396, R405): each posts its record and changes its engine and direction as R394 and R395
say: a wavelength moved to the lowest free spare or dropped, a retraining begun or ended, a link down, a source dark;
LS_OFF of a lit source moves each engine that it feeds to its partner, with one RETRAIN, or takes it down where that is
dark. What the rules leave open is as the model chose it: assumption 25. -/
def Obligations.OpticalEvents : Prop :=
  ∀ (s : State) (e wl m src : Nat) (ingress : Bool) (delay : Dword) (n : BitVec 3) (k : BitVec 5),
    let d := s.optDir e ingress
    let post (x : OptDir) (code spares w : Nat) (t : Dword) : State :=
      (s.setOptDir e ingress x).postOptical code m spares w ingress e t
    (e < 24 → wl < 68 → m < 64 → d.live = true →
      (d.inUse wl = true → d.spares ≠ 0 →
        let x := d.toSpare wl
        x.spares = d.spares - 1 ∧ x.inUse wl = false ∧ Tab.find x.remap wl = some (64 + d.remap.length) ∧
        Runs (.wlFail e ingress wl m delay) s (post x 0x01 (d.spares - 1) wl (dw (min 15000 delay.toNat))) ∧
        Runs (.laneSpare e ingress wl m) s (post x 0x05 (d.spares - 1) wl 0#64)) ∧
      (d.inUse wl = true → d.spares = 0 →
        let x := d.drop wl
        let t := post x 0x02 0 wl (dw (min 15000 delay.toNat))
        x.active = d.active - 1 ∧ x.inUse wl = false ∧
        Runs (.wlDrop e ingress wl m delay) s (if d.active - 1 < 16 ∧ d.down = false then t.dirDown e ingress m else t)) ∧
      Runs (.retrain e ingress m delay) s
        (post { d with retraining := true } 0x04 d.spares 0 (dw (min 80000 delay.toNat))) ∧
      (d.down = false → Runs (.linkDown e ingress m) s (s.dirDown e ingress m))) ∧
    (src < 6 → Runs (.laserAge src) s (s.postOptical 0x03 src 0 0 false 0 0#64) ∧
      (s.darkSources.contains src = false → s.offSources.contains src = false →
        Runs (.sourceLost src delay) s ((fedBy src).foldl (fun t v => t.loseSource v delay)
          (State.postOptical { s with darkSources := src :: s.darkSources } 0x06 src 0 0 false 0
            (dw (min 80000 delay.toNat)))))) ∧
    (s.bothDark e = true → s.loseSource e delay = s.engineDown e) ∧
    (s.bothDark e = false → (∀ i, (s.optDir e i).live = true) → ∃ i, s.loseSource e delay =
      ((s.setOptDir e (!i) { s.optDir e (!i) with retraining := true }).setOptDir e i
        { s.optDir e i with retraining := true }).postOptical 0x04 (s.moduleOf e) (s.optDir e i).spares 0 i e
          (dw (min 80000 delay.toNat))) ∧
    (d.retraining = true →
      Runs (.retrainingComplete e ingress true) s (s.setOptDir e ingress
        { d with retraining := false, fails := 0, down := decide (d.active < 16) || s.bothDark e }) ∧
      (d.fails < 2 → Runs (.retrainingComplete e ingress false) s (s.setOptDir e ingress { d with fails := d.fails + 1 })) ∧
      (2 ≤ d.fails →
        (d.down = false → Runs (.retrainingComplete e ingress false) s
          ((s.setOptDir e ingress { d with fails := d.fails + 1 }).dirDown e ingress (s.moduleOf e))) ∧
        (d.down = true → Runs (.retrainingComplete e ingress false) s
          (s.setOptDir e ingress { d with retraining := false, fails := d.fails + 1 })))) ∧
    (k.toNat < 24 → (∀ i, (s.optDir k.toNat i).down = true) → ∃ t, Runs (.oeReset k) s t ∧
      ∀ i, t.optDir k.toNat i = { s.optDir k.toNat i with retraining := true, fails := 0 }) ∧
    (n.toNat < 6 →
      (s.offSources.contains n.toNat = false →
        let dark : State := { s with
          offSources := n.toNat :: s.offSources, darkSources := n.toNat :: s.darkSources.erase n.toNat }
        (s.darkSources.contains n.toNat = true → Runs (.lsOff n) s dark) ∧
        (s.darkSources.contains n.toNat = false → Runs (.lsOff n) s
          ((fedBy n.toNat).foldl (fun t v => t.loseSource v (dw (s.choose (80 + v) 80001))) dark))) ∧
      (s.offSources.contains n.toNat = true → Runs (.lsOff n) s s) ∧
      (s.isSafe = false → Runs (.lsOn n) s { s with
        darkSources := s.darkSources.erase n.toNat, offSources := s.offSources.erase n.toNat }))

/-- Provisioning, firmware, attestation, power and reset (R397, R398, R400 to R406): a module is provisioned with its
table entry where attestation passes and the wavelengths are free, drained, and released; a signed image is in
force; the clock falls above the power cap; the thermal trip leaves the safe state; a reset keeps the memory of the
modules and the host. What the rules leave open is as the model chose it: assumptions 26, 27 and 28. -/
def Obligations.PackageControl : Prop :=
  ∀ (s : State) (m : BitVec 6) (v : Prov) (a : BitVec 16) (g : BitVec 8) (img ver idx watts : Nat) (cls : ImageClass),
    let k := m.toNat
    let res (t : State) (r : Nat) : State := { t with regs := { t.regs with provStat := dw r }, draining := none }
    (s.provBusy = false →
      (s.provEntry k = none → Runs (.provision m) s (res s 3)) ∧
      (State.provEntry { s with draining := none } k = some (v, a, g) →
        ∃ t, Runs (.provision m) s t ∧
          if (Config.attest s.tick k).toNat ∈ [1, 3, 5] then t = res s (Config.attest s.tick k).toNat
          else if State.wlFree { s with draining := none } k v = false then t = res s 2
          else Tab.get none t.provs k = some v ∧ t.regs.provStat = 0#64 ∧
            (t.slot (256 * k + 7)).owner = some ⟨BitVec.ofNat 10 s.ownPeer, a, g⟩) ∧
      (Tab.get none s.provs k = some v →
        (∃ t, Runs (.drain m) s t ∧ t.draining = some k ∧ t.regs.provStat = 0#64) ∧
        (v.drained = none → Runs (.release m) s (res s 4)) ∧
        (v.drained ≠ none → Tab.wf none s.provs = true → Tab.wf {} s.slots = true → ∃ t, Runs (.release m) s t ∧ Tab.get none t.provs k = none ∧
          (∀ j, j / 256 = k → (t.slot j).owner = none) ∧ t.regs.provStat = 0#64))) ∧
    Runs (.provIgnored m) s s ∧
    (Config.signed (ImageClass.num cls) img = false ∨ ver < Config.fusedMin (ImageClass.num cls) →
      Runs (.firmwareImage cls img ver) s s) ∧
    (Config.signed (ImageClass.num cls) img = true → Config.fusedMin (ImageClass.num cls) ≤ ver →
      let inForce (i : Nat) : Tab (Nat × Nat) := Tab.put i (img, ver) s.images
      (cls = .commandProcessor → Runs (.firmwareImage cls img ver) s { s with images := inForce 0, cpDown := true }) ∧
      (cls = .larkCore → Runs (.firmwareImage cls img ver) s { s with larkNext := some (img, ver) }) ∧
      (cls = .controlSequencer → ∃ t, Runs (.firmwareImage cls img ver) s t ∧ t.images = inForce 3 ∧
        (s.busyCores = [] → t.cores = s.cores)) ∧
      (cls = .managementCore →
        (s.isSafe = true → Runs (.firmwareImage cls img ver) s { s with nextMgmt := some (img, ver) }) ∧
        (s.isSafe = false → Runs (.firmwareImage cls img ver) s { s with
          images := inForce 2, mgmtDown := true, cores := s.cores.map fun c => (c.1, { c.2 with missed := 0 }) }))) ∧
    (∀ bs, s.measurement idx = some bs → Runs (.spdmRequest idx) s { s with outbox := s.outbox ++ [.spdm bs] }) ∧
    (idx = 6 → s.measurement idx = some (leBytes 8 s.regs.postStat.toNat)) ∧
    (idx = 0 ∨ 6 < idx → Runs (.spdmRequest idx) s s) ∧
    (s.regs.pwrCap.toNat < watts → ∃ t, Runs (.powerCapCrossing watts) s { s with clockMHz := t } ∧ 800 ≤ t ∧
      (800 < s.clockMHz → t < s.clockMHz)) ∧
    (s.clockMHz = 800 → s.isSafe = false → ∃ t, Runs .thermalTrip s t ∧ t.isSafe = true ∧
      t.regs.postStat.extractLsb' 0 8 = 0x07#8 ∧ ∀ c, c < 320 → (t.core c).halted = true) ∧
    (∃ t, Runs .reset s t ∧ t.groups = [] ∧ t.sram = [] ∧ t.launches = [] ∧ t.queues = [] ∧ t.tlb = [] ∧ t.keys = [] ∧
      t.cycle = 0 ∧ t.far = s.far ∧ t.hostMem = s.hostMem)

/-! ### The whole machine -/

/-- After reset: PEER_ID, every ASID's generation, the step registers, the power cap, the quota and the quantum read what
their rules give (R235, R308, R310, R318, R367, R406). The rest is as the model chose it: no group is on a core, every queue
and its registers are 0, the shared SRAM is 0, no ASID is bound, no key slot is loaded, the self-test has passed, and
sys.CYCLE is 0. What the rules leave open is as the model chose it: assumptions 1 and 2. -/
def Obligations.ResetState : Prop :=
  let s := State.reset
  s.groups = [] ∧ s.ops = [] ∧ s.launches = [] ∧ s.sram = [] ∧ s.tlb = [] ∧ s.cycle = 0 ∧ s.boundary = none ∧
  MemoryOk s ∧ (∀ q, (s.queue q).ctl = 0#64 ∧ (s.queue q).tail = 0#32 ∧ (s.queue q).head = 0#32 ∧ s.queueState q = .idle) ∧
  (∀ a, (s.asid a).bound = false ∧ (s.asid a).gen = 0) ∧ (∀ n, s.keyOf n = none) ∧ s.regs.pwrCap = 4600#64 ∧
  s.regs.peerId = 0#64 ∧ s.regs.stepNum = 0#64 ∧ s.regs.stepCtl = 1#64 ∧ s.regs.stepWdog = 0x80000000#64 ∧
  (∀ p, s.padQuantum p = 3800000#64) ∧ (∀ p, s.quota p = 64) ∧ s.isSafe = false

/-- A turn of a core whose next pick, the lowest fibre of the lowest group among those due, may issue fetches the word at
its PC, and where that word decodes to a well-formed instruction the step is that instruction's, followed by the end of
the turn, and the core's issue of this cycle is not broken off; a word that decodes to none raises ILLEGAL_INSTR with its bits
95:32 in sys.TADDR (R49, R56), and a fibre of a context whose record breaks the table of R350 issues nothing; a turn of a command
processor runs the packet it picks, a turn of a slot its entry, a turn of a unit what is due in it, and a turn of the
outside what reaches the package (R23, R101, R353). As a cycle ends, which fibres are ready is settled first (R96). What the
rules leave open is as the model chose it: assumptions 4 and 57. -/
def Obligations.StepRunsDecoded : Prop :=
  ∀ (s s1 : State) (p : Pick) (g : Group) (f : Fibre) (w : IWord) (i : Instr) (k c : Nat),
    (s.turn = .issue → firstPick c s.cycle s.issue = some p →
      (s.burst = some c ∨ (s.burst = none ∧ ∀ q ∈ s.issue, q.core = c)) →
      let t : State := { s with
        issue := s.issue.erase p, burst := (firstPick c s.cycle (s.issue.erase p)).map fun _ => c
        cur := p.fib, sheaf := p.sheaf, looked := if s.burst.isSome then s.looked else [] }
      t.group? p.fib.g = some g → g.fibre? p.fib.f = some f → mayIssue g f = true →
      (t.ctxOk g.ctx = false → step s = endOutcome (.next t)) ∧
      (t.ctxOk g.ctx = true → f.absent = none → f.stepping ≠ .issued → f.pos.pc.toNat % 12 = 0 →
        (t.firstIssue p.fib.g g).fetch g.coreOr0 g.ctx f.pos.pc = (.word w, s1) →
        (decodeWord w = some i →
          step s = endOutcome (exec i (s1.updFibre p.fib fun v => { v with keeping := keepOf w p.sheaf }))) ∧
        (decodeWord w = none → step s = endOutcome (.next (s1.takeTrap p.fib .illegalInstr (w.extractLsb' 32 64)))))) ∧
    (s.turn = .queue → s.queueNext = (some i, s1) → step s = endOutcome (exec i s1)) ∧
    (s.turn = .slot → s.slots.map (·.1) = [k] → (s.headEntry k).isSome = true → s.slotInstr k = some i →
      step s = endOutcome (exec i { s with curSlot := k, unitLast := Tab.put (k / 8) k s.unitLast })) ∧
    (s.turn = .unit → s.eventNext = some i →
      step s = endOutcome (exec i (if i = .sheafRound ∧ s.cycleOver = true then s.settleReady else s))) ∧
    (∀ rest, s.turn = .input → s.inbox = i :: rest → step s = endOutcome (exec i { s with inbox := rest }))

/-- HINT of a word with no hint and no guard. -/
def plainHdr : Hdr := ⟨.always, 0#3, false, false⟩

/-- The words of the spec's own examples decode to the instructions they stand for; words that break a field's rule decode
to none: a register pair at an odd number, a reserved TYPE, and a word with a zero OP (R21 to R39, R54 to R56). -/
def Obligations.DecodedWords : Prop :=
  let h := plainHdr
  decodeWord 0xF00011F20000000000000000#96 = some (.clause ⟨1#12, 1#4, 15#4, 1#3, false⟩) ∧
  decodeWord 0x3203C0000800020003700000#96 = some (.ffma h (.v 8) (.reg (.v 2)) (.reg (.v 3)) .f32 .rne false) ∧
  decodeWord 0x4003C0000900048040180000#96 = some (.ld h (.v 9) ⟨.v 4, .imm 64⟩ .b32) ∧
  decodeWord 0x030BC0C002C80100000001F4#96 = some (.jwaitt h 2 1 500) ∧
  decodeWord 0x2003C00006F0080000000000#96 = some (.sread h (.v 6) .cycle) ∧
  decodeWord 0x1207C000010000FFFFFFFFFF#96 = some (.xadd h 1 0xFFFFFFFFFF#40) ∧
  decodeWord 0x7D03C0D803000A000C900201#96 = some (.mmax h 3 (.v 10) (.v 12) .e4m3 2 1) ∧
  decodeWord 0x8D03C0E00000148000000010#96 = some (.fetch h 0 ⟨.v 20, .imm 0⟩ 0 true) ∧
  decodeWord 0x9403C0000A80038001000000#96 = some (.etail h (.v 10) (.imm 3) (.imm 1)) ∧
  decodeWord 0xA003C000000000000000000B#96 = some (.fence h .package .rel) ∧
  decodeWord 0xA303C0000200040008000000#96 = some (.bind h (.v 2) (.v 4) (.v 8)) ∧
  decodeWord 0xA803C0000080010000000000#96 = some (.hintnext h 1) ∧
  decodeWord 0xB303C0000600040000000000#96 = some (.tmask h (.v 6) (.full (.v 4))) ∧
  decodeWord 0xB703C0F00E001A0000000000#96 = some (.sysw h .tpc (.v 26)) ∧
  decodeWord 0x2003C00007F0080000000000#96 = none ∧ decodeWord 0x3203C0000800020003B00000#96 = none ∧
  decodeWord 0#96 = none

/-- Decoding inverts encoding for instruction words: whatever well-formed instruction has a word, at every value its
operands admit, the word reads back as it (R21 to R39, R54). -/
def Obligations.WordRoundTrip : Prop :=
  ∀ (i : Instr) (w : IWord), i.wf = true → encodeWord i = some w → decodeWord w = some i

/-- Decoding inverts encoding for the packets of work queues and for chain entries: the bytes written from R354 to R357,
and from R283 and R284, read back as the well-formed instruction they were written for. -/
def Obligations.PacketAndEntryRoundTrip : Prop :=
  ∀ i : Instr, i.wf = true →
    (∀ w, encodePacket i = some w → decodePacket w = some i) ∧ (∀ w, encodeEntry i = some w → decodeEntry w = some i)

/-- Every step keeps every memory of the package in canonical form, its representation in the model: the shared SRAM, the
modules and the host (R225, R231) and every group's scratchpad (R157, R160) hold addresses strictly rising, and no entry
that equals what an unlisted byte reads as. What the rules leave open is as the model chose it: assumptions 2
and 3. -/
def Obligations.StepKeepsMemory : Prop := Kept MemoryOk
end

