-- ==== Sys2Proof/Laws/Tables.lean ====
section
/-! SUPPORT. Laws of tables and memories: a read after a write, at the same place and at another, and the canonical form
that every write keeps. -/

namespace Sys2Proof.Laws

open Sys2Proof Sys2Proof.Machine

variable {α : Type}

/-! ### Tables -/

@[simp] theorem Tab.find_put_same (k : Nat) (v : α) (t : Tab α) : Tab.find (Tab.put k v t) k = some v := by
  induction t with
  | nil => simp [Tab.put, Tab.find]
  | cons p t ih =>
    obtain ⟨j, w⟩ := p
    simp only [Tab.put]
    split
    · simp [Tab.find]
    · split
      · simp [Tab.find]
      · rw [Tab.find, if_neg (by omega), ih]

theorem Tab.find_put_other {k m : Nat} (h : m ≠ k) (v : α) (t : Tab α) :
    Tab.find (Tab.put k v t) m = Tab.find t m := by
  induction t with
  | nil => simp [Tab.put, Tab.find, h.symm]
  | cons p t ih =>
    obtain ⟨j, w⟩ := p
    simp only [Tab.put]
    split
    · simp [Tab.find, h.symm]
    · split
      · next hk => subst hk; simp [Tab.find, h.symm]
      · simp [Tab.find, ih]

theorem Tab.get_put_same (d : α) (k : Nat) (v : α) (t : Tab α) : Tab.get d (Tab.put k v t) k = v := by
  induction t with
  | nil => simp [Tab.put, Tab.get]
  | cons p t ih =>
    obtain ⟨j, w⟩ := p
    simp only [Tab.put]
    split
    · simp [Tab.get]
    · split
      · simp [Tab.get]
      · rw [Tab.get, if_neg (by omega), ih]

theorem Tab.get_put_other (d : α) {k m : Nat} (h : m ≠ k) (v : α) (t : Tab α) :
    Tab.get d (Tab.put k v t) m = Tab.get d t m := by
  induction t with
  | nil => simp [Tab.put, Tab.get, h.symm]
  | cons p t ih =>
    obtain ⟨j, w⟩ := p
    simp only [Tab.put]
    split
    · simp [Tab.get, h.symm]
    · split
      · next hk => subst hk; simp [Tab.get, h.symm]
      · simp [Tab.get, ih]

theorem Tab.get_del_other (d : α) {k m : Nat} (h : m ≠ k) (t : Tab α) : Tab.get d (Tab.del k t) m = Tab.get d t m := by
  induction t with
  | nil => rfl
  | cons p t ih =>
    obtain ⟨j, w⟩ := p
    simp only [Tab.del]
    split
    · rfl
    · split
      · next hk => subst hk; simp [Tab.get, h.symm]
      · simp [Tab.get, ih]

/-- Entries of a table after a put. -/
theorem Tab.mem_put {k : Nat} {v : α} {t : Tab α} {p : Nat × α} (h : p ∈ Tab.put k v t) : p = (k, v) ∨ p ∈ t := by
  induction t with
  | nil => simpa [Tab.put] using h
  | cons x t ih =>
    simp only [Tab.put] at h
    repeat' split at h
    all_goals simp only [List.mem_cons] at h ⊢
    all_goals grind

/-- Entries of a table after a removal. -/
theorem Tab.mem_del {k : Nat} {t : Tab α} {p : Nat × α} (h : p ∈ Tab.del k t) : p ∈ t := by
  induction t with
  | nil => simp [Tab.del] at h
  | cons x t ih =>
    simp only [Tab.del] at h
    repeat' split at h
    all_goals simp only [List.mem_cons] at h ⊢
    all_goals grind

/-- What a table answers is listed, or is its default. -/
theorem Tab.get_mem (d : α) (k : Nat) (t : Tab α) : Tab.get d t k = d ∨ (k, Tab.get d t k) ∈ t := by
  induction t with
  | nil => exact .inl rfl
  | cons x t ih =>
    simp only [Tab.get]
    repeat' split
    all_goals grind

/-- What a table finds is listed. -/
theorem Tab.find_mem {k : Nat} {t : Tab α} {v : α} (h : Tab.find t k = some v) : (k, v) ∈ t := by
  induction t with
  | nil => simp [Tab.find] at h
  | cons x t ih =>
    simp only [Tab.find] at h
    repeat' split at h
    all_goals grind

variable [DecidableEq α]

/-- A write leaves every other entry alone. -/
theorem Tab.get_set_other (d : α) {k m : Nat} (h : m ≠ k) (v : α) (t : Tab α) :
    Tab.get d (Tab.set d k v t) m = Tab.get d t m := by
  unfold Tab.set
  split
  · exact Tab.get_del_other d h t
  · exact Tab.get_put_other d h v t

theorem Tab.get_of_lt (d : α) {b k : Nat} {t : Tab α} (h : Tab.wfFrom d b t = true) (hk : k < b) : Tab.get d t k = d := by
  induction t generalizing b with
  | nil => rfl
  | cons p t ih =>
    obtain ⟨j, w⟩ := p
    simp only [Tab.wfFrom, Bool.and_eq_true, decide_eq_true_eq] at h
    rw [Tab.get, if_neg (by omega), ih h.2 (by omega)]

theorem Tab.get_del_same (d : α) {b k : Nat} {t : Tab α} (h : Tab.wfFrom d b t = true) : Tab.get d (Tab.del k t) k = d := by
  induction t generalizing b with
  | nil => rfl
  | cons p t ih =>
    obtain ⟨j, w⟩ := p
    simp only [Tab.wfFrom, Bool.and_eq_true, decide_eq_true_eq] at h
    simp only [Tab.del]
    split
    · rw [Tab.get, if_neg (by omega), Tab.get_of_lt d h.2 (by omega)]
    · split
      · next hk => subst hk; exact Tab.get_of_lt d h.2 (by omega)
      · rw [Tab.get, if_neg (by omega), ih h.2]

/-- In canonical form a read after a write gives the value written. -/
theorem Tab.get_set_same (d : α) (k : Nat) (v : α) {t : Tab α} (h : Tab.wf d t = true) :
    Tab.get d (Tab.set d k v t) k = v := by
  unfold Tab.set
  split
  · next hv => rw [hv]; exact Tab.get_del_same d h
  · exact Tab.get_put_same d k v t

theorem Tab.wfFrom_mono (d : α) {b c : Nat} {t : Tab α} (h : Tab.wfFrom d c t = true) (hb : b ≤ c) :
    Tab.wfFrom d b t = true := by
  cases t with
  | nil => rfl
  | cons p t =>
    simp only [Tab.wfFrom, Bool.and_eq_true, decide_eq_true_eq] at h ⊢
    exact ⟨⟨by omega, h.1.2⟩, h.2⟩

theorem Tab.wfFrom_del (d : α) {b k : Nat} {t : Tab α} (h : Tab.wfFrom d b t = true) : Tab.wfFrom d b (Tab.del k t) = true := by
  induction t generalizing b with
  | nil => rfl
  | cons p t ih =>
    obtain ⟨j, w⟩ := p
    have h' := h
    simp only [Tab.wfFrom, Bool.and_eq_true, decide_eq_true_eq] at h'
    simp only [Tab.del]
    split
    · exact h
    · split
      · exact Tab.wfFrom_mono d h'.2 (by omega)
      · simp only [Tab.wfFrom, Bool.and_eq_true, decide_eq_true_eq]
        exact ⟨h'.1, ih h'.2⟩

theorem Tab.wfFrom_put (d : α) {b k : Nat} {v : α} (hv : v ≠ d) (hb : b ≤ k) {t : Tab α} (h : Tab.wfFrom d b t = true) :
    Tab.wfFrom d b (Tab.put k v t) = true := by
  induction t generalizing b with
  | nil => simp [Tab.put, Tab.wfFrom, hv, hb]
  | cons p t ih =>
    obtain ⟨j, w⟩ := p
    have h' := h
    simp only [Tab.wfFrom, Bool.and_eq_true, decide_eq_true_eq] at h'
    simp only [Tab.put]
    split
    · simp only [Tab.wfFrom, Bool.and_eq_true, decide_eq_true_eq]
      exact ⟨⟨hb, hv⟩, ⟨by omega, h'.1.2⟩, h'.2⟩
    · split
      · next hk =>
        subst hk
        simp only [Tab.wfFrom, Bool.and_eq_true, decide_eq_true_eq]
        exact ⟨⟨hb, hv⟩, h'.2⟩
      · simp only [Tab.wfFrom, Bool.and_eq_true, decide_eq_true_eq]
        exact ⟨h'.1, ih (by omega) h'.2⟩

/-- A write keeps the canonical form. -/
theorem Tab.wf_set (d : α) (k : Nat) (v : α) {t : Tab α} (h : Tab.wf d t = true) : Tab.wf d (Tab.set d k v t) = true := by
  unfold Tab.set Tab.wf at *
  split
  · exact Tab.wfFrom_del d h
  · next hv => exact Tab.wfFrom_put d hv (Nat.zero_le k) h

/-! ### Byte memories -/

theorem Memory.get_put_same {m : List Host.Cell} (a : Nat) (b : Byte) (h : Memory.wf m = true) :
    Memory.get (Memory.put m a b) a = b := Tab.get_set_same 0#8 a b h

theorem Memory.get_put_other {m : List Host.Cell} {a c : Nat} (b : Byte) (h : c ≠ a) :
    Memory.get (Memory.put m a b) c = Memory.get m c := Tab.get_set_other 0#8 h b m

@[simp] theorem Memory.wf_nil : Memory.wf [] = true := rfl

theorem Memory.wf_put {m : List Host.Cell} (a : Nat) (b : Byte) (h : Memory.wf m = true) :
    Memory.wf (Memory.put m a b) = true := Tab.wf_set 0#8 a b h

/-- Writing bytes keeps the canonical form. -/
theorem Memory.wf_write {m : List Host.Cell} (a : Nat) (bs : List Byte) (h : Memory.wf m = true) :
    Memory.wf (Memory.write m a bs) = true := by
  induction bs generalizing m a with
  | nil => exact h
  | cons b t ih => exact ih (a + 1) (Memory.wf_put a b h)

/-- A byte outside the bytes written reads as before. -/
theorem Memory.get_write_other {m : List Host.Cell} {a c : Nat} {bs : List Byte} (h : c < a ∨ a + bs.length ≤ c) :
    Memory.get (Memory.write m a bs) c = Memory.get m c := by
  induction bs generalizing m a with
  | nil => rfl
  | cons b t ih =>
    simp only [List.length_cons] at h
    rw [Memory.write, ih (by omega), Memory.get_put_other b (by omega)]

/-- A byte among the bytes written reads as written. -/
theorem Memory.get_write_same {m : List Host.Cell} {a i : Nat} {bs : List Byte} (h : Memory.wf m = true)
    (hi : i < bs.length) : Memory.get (Memory.write m a bs) (a + i) = bs[i] := by
  induction bs generalizing m a i with
  | nil => simp at hi
  | cons b t ih =>
    rw [Memory.write]
    cases i with
    | zero =>
      rw [Memory.get_write_other (Or.inl (by omega))]
      exact Memory.get_put_same a b h
    | succ i =>
      have := ih (a := a + 1) (Memory.wf_put a b h) (i := i) (by simpa using hi)
      simpa [Nat.add_assoc, Nat.add_comm 1 i] using this

end Sys2Proof.Laws
end

