-- ==== Sys2Proof/Laws/State.lean ====
section
/-! SUPPORT. Reads after updates: each field of the state, of a group and of a fibre after each of their updates, and
registers, predicates and fibres after a write, at the same place and at another. -/

namespace Sys2Proof.Machine

/-! ### Fields of the state -/

@[simp] theorem State.setGroup_tick (s : State) (g : Nat) (x : Group) : (s.setGroup g x).tick = s.tick := rfl
@[simp] theorem State.setGroup_turn (s : State) (g : Nat) (x : Group) : (s.setGroup g x).turn = s.turn := rfl
@[simp] theorem State.setGroup_inbox (s : State) (g : Nat) (x : Group) : (s.setGroup g x).inbox = s.inbox := rfl
@[simp] theorem State.setGroup_issue (s : State) (g : Nat) (x : Group) : (s.setGroup g x).issue = s.issue := rfl
@[simp] theorem State.setGroup_cur (s : State) (g : Nat) (x : Group) : (s.setGroup g x).cur = s.cur := rfl
@[simp] theorem State.setGroup_sheaf (s : State) (g : Nat) (x : Group) : (s.setGroup g x).sheaf = s.sheaf := rfl
@[simp] theorem State.setGroup_burst (s : State) (g : Nat) (x : Group) : (s.setGroup g x).burst = s.burst := rfl
@[simp] theorem State.setGroup_looked (s : State) (g : Nat) (x : Group) : (s.setGroup g x).looked = s.looked := rfl
@[simp] theorem State.setGroup_curQ (s : State) (g : Nat) (x : Group) : (s.setGroup g x).curQ = s.curQ := rfl
@[simp] theorem State.setGroup_curSlot (s : State) (g : Nat) (x : Group) : (s.setGroup g x).curSlot = s.curSlot := rfl
@[simp] theorem State.setGroup_unitLast (s : State) (g : Nat) (x : Group) : (s.setGroup g x).unitLast = s.unitLast := rfl
@[simp] theorem State.setGroup_nextId (s : State) (g : Nat) (x : Group) : (s.setGroup g x).nextId = s.nextId := rfl
@[simp] theorem State.setGroup_cycle (s : State) (g : Nat) (x : Group) : (s.setGroup g x).cycle = s.cycle := rfl
@[simp] theorem State.setGroup_ops (s : State) (g : Nat) (x : Group) : (s.setGroup g x).ops = s.ops := rfl
@[simp] theorem State.setGroup_cores (s : State) (g : Nat) (x : Group) : (s.setGroup g x).cores = s.cores := rfl
@[simp] theorem State.setGroup_launches (s : State) (g : Nat) (x : Group) : (s.setGroup g x).launches = s.launches := rfl
@[simp] theorem State.setGroup_queues (s : State) (g : Nat) (x : Group) : (s.setGroup g x).queues = s.queues := rfl
@[simp] theorem State.setGroup_pads (s : State) (g : Nat) (x : Group) : (s.setGroup g x).pads = s.pads := rfl
@[simp] theorem State.setGroup_qlast (s : State) (g : Nat) (x : Group) : (s.setGroup g x).qlast = s.qlast := rfl
@[simp] theorem State.setGroup_sram (s : State) (g : Nat) (x : Group) : (s.setGroup g x).sram = s.sram := rfl
@[simp] theorem State.setGroup_far (s : State) (g : Nat) (x : Group) : (s.setGroup g x).far = s.far := rfl
@[simp] theorem State.setGroup_hostMem (s : State) (g : Nat) (x : Group) : (s.setGroup g x).hostMem = s.hostMem := rfl
@[simp] theorem State.setGroup_sramErr (s : State) (g : Nat) (x : Group) : (s.setGroup g x).sramErr = s.sramErr := rfl
@[simp] theorem State.setGroup_farErr (s : State) (g : Nat) (x : Group) : (s.setGroup g x).farErr = s.farErr := rfl
@[simp] theorem State.setGroup_meta_ (s : State) (g : Nat) (x : Group) : (s.setGroup g x).meta_ = s.meta_ := rfl
@[simp] theorem State.setGroup_sectorKey (s : State) (g : Nat) (x : Group) : (s.setGroup g x).sectorKey = s.sectorKey := rfl
@[simp] theorem State.setGroup_tlb (s : State) (g : Nat) (x : Group) : (s.setGroup g x).tlb = s.tlb := rfl
@[simp] theorem State.setGroup_invals (s : State) (g : Nat) (x : Group) : (s.setGroup g x).invals = s.invals := rfl
@[simp] theorem State.setGroup_asids (s : State) (g : Nat) (x : Group) : (s.setGroup g x).asids = s.asids := rfl
@[simp] theorem State.setGroup_binds (s : State) (g : Nat) (x : Group) : (s.setGroup g x).binds = s.binds := rfl
@[simp] theorem State.setGroup_regs (s : State) (g : Nat) (x : Group) : (s.setGroup g x).regs = s.regs := rfl
@[simp] theorem State.setGroup_placed (s : State) (g : Nat) (x : Group) : (s.setGroup g x).placed = s.placed := rfl
@[simp] theorem State.setGroup_irqs (s : State) (g : Nat) (x : Group) : (s.setGroup g x).irqs = s.irqs := rfl
@[simp] theorem State.setGroup_msix (s : State) (g : Nat) (x : Group) : (s.setGroup g x).msix = s.msix := rfl
@[simp] theorem State.setGroup_pba (s : State) (g : Nat) (x : Group) : (s.setGroup g x).pba = s.pba := rfl
@[simp] theorem State.setGroup_dbgWait (s : State) (g : Nat) (x : Group) : (s.setGroup g x).dbgWait = s.dbgWait := rfl
@[simp] theorem State.setGroup_hostRead (s : State) (g : Nat) (x : Group) : (s.setGroup g x).hostRead = s.hostRead := rfl
@[simp] theorem State.setGroup_chains (s : State) (g : Nat) (x : Group) : (s.setGroup g x).chains = s.chains := rfl
@[simp] theorem State.setGroup_slots (s : State) (g : Nat) (x : Group) : (s.setGroup g x).slots = s.slots := rfl
@[simp] theorem State.setGroup_fifos (s : State) (g : Nat) (x : Group) : (s.setGroup g x).fifos = s.fifos := rfl
@[simp] theorem State.setGroup_lanes (s : State) (g : Nat) (x : Group) : (s.setGroup g x).lanes = s.lanes := rfl
@[simp] theorem State.setGroup_failedWin (s : State) (g : Nat) (x : Group) : (s.setGroup g x).failedWin = s.failedWin := rfl
@[simp] theorem State.setGroup_downPorts (s : State) (g : Nat) (x : Group) : (s.setGroup g x).downPorts = s.downPorts := rfl
@[simp] theorem State.setGroup_outbox (s : State) (g : Nat) (x : Group) : (s.setGroup g x).outbox = s.outbox := rfl
@[simp] theorem State.setGroup_unsent (s : State) (g : Nat) (x : Group) : (s.setGroup g x).unsent = s.unsent := rfl
@[simp] theorem State.setGroup_pendResp (s : State) (g : Nat) (x : Group) : (s.setGroup g x).pendResp = s.pendResp := rfl
@[simp] theorem State.setGroup_xheld (s : State) (g : Nat) (x : Group) : (s.setGroup g x).xheld = s.xheld := rfl
@[simp] theorem State.setGroup_fwds (s : State) (g : Nat) (x : Group) : (s.setGroup g x).fwds = s.fwds := rfl
@[simp] theorem State.setGroup_splits (s : State) (g : Nat) (x : Group) : (s.setGroup g x).splits = s.splits := rfl
@[simp] theorem State.setGroup_ingress (s : State) (g : Nat) (x : Group) : (s.setGroup g x).ingress = s.ingress := rfl
@[simp] theorem State.setGroup_intake (s : State) (g : Nat) (x : Group) : (s.setGroup g x).intake = s.intake := rfl
@[simp] theorem State.setGroup_torn (s : State) (g : Nat) (x : Group) : (s.setGroup g x).torn = s.torn := rfl
@[simp] theorem State.setGroup_stats (s : State) (g : Nat) (x : Group) : (s.setGroup g x).stats = s.stats := rfl
@[simp] theorem State.setGroup_boundary (s : State) (g : Nat) (x : Group) : (s.setGroup g x).boundary = s.boundary := rfl
@[simp] theorem State.setGroup_readyFrom (s : State) (g : Nat) (x : Group) : (s.setGroup g x).readyFrom = s.readyFrom := rfl
@[simp] theorem State.setGroup_appliedFrom (s : State) (g : Nat) (x : Group) : (s.setGroup g x).appliedFrom = s.appliedFrom := rfl
@[simp] theorem State.setGroup_doneBelow (s : State) (g : Nat) (x : Group) : (s.setGroup g x).doneBelow = s.doneBelow := rfl
@[simp] theorem State.setGroup_collCount (s : State) (g : Nat) (x : Group) : (s.setGroup g x).collCount = s.collCount := rfl
@[simp] theorem State.setGroup_optDirs (s : State) (g : Nat) (x : Group) : (s.setGroup g x).optDirs = s.optDirs := rfl
@[simp] theorem State.setGroup_darkSources (s : State) (g : Nat) (x : Group) : (s.setGroup g x).darkSources = s.darkSources := rfl
@[simp] theorem State.setGroup_offSources (s : State) (g : Nat) (x : Group) : (s.setGroup g x).offSources = s.offSources := rfl
@[simp] theorem State.setGroup_provs (s : State) (g : Nat) (x : Group) : (s.setGroup g x).provs = s.provs := rfl
@[simp] theorem State.setGroup_draining (s : State) (g : Nat) (x : Group) : (s.setGroup g x).draining = s.draining := rfl
@[simp] theorem State.setGroup_keys (s : State) (g : Nat) (x : Group) : (s.setGroup g x).keys = s.keys := rfl
@[simp] theorem State.setGroup_images (s : State) (g : Nat) (x : Group) : (s.setGroup g x).images = s.images := rfl
@[simp] theorem State.setGroup_nextMgmt (s : State) (g : Nat) (x : Group) : (s.setGroup g x).nextMgmt = s.nextMgmt := rfl
@[simp] theorem State.setGroup_badCores (s : State) (g : Nat) (x : Group) : (s.setGroup g x).badCores = s.badCores := rfl
@[simp] theorem State.setGroup_cpDown (s : State) (g : Nat) (x : Group) : (s.setGroup g x).cpDown = s.cpDown := rfl
@[simp] theorem State.setGroup_larkDown (s : State) (g : Nat) (x : Group) : (s.setGroup g x).larkDown = s.larkDown := rfl
@[simp] theorem State.setGroup_mgmtDown (s : State) (g : Nat) (x : Group) : (s.setGroup g x).mgmtDown = s.mgmtDown := rfl
@[simp] theorem State.setGroup_optHeld (s : State) (g : Nat) (x : Group) : (s.setGroup g x).optHeld = s.optHeld := rfl
@[simp] theorem State.setGroup_larkNext (s : State) (g : Nat) (x : Group) : (s.setGroup g x).larkNext = s.larkNext := rfl
@[simp] theorem State.setGroup_clockMHz (s : State) (g : Nat) (x : Group) : (s.setGroup g x).clockMHz = s.clockMHz := rfl

@[simp] theorem State.updGroup_tick (s : State) (g : Nat) (u : Group → Group) : (s.updGroup g u).tick = s.tick := by
  unfold State.updGroup; split <;> rfl
@[simp] theorem State.updGroup_turn (s : State) (g : Nat) (u : Group → Group) : (s.updGroup g u).turn = s.turn := by
  unfold State.updGroup; split <;> rfl
@[simp] theorem State.updGroup_inbox (s : State) (g : Nat) (u : Group → Group) : (s.updGroup g u).inbox = s.inbox := by
  unfold State.updGroup; split <;> rfl
@[simp] theorem State.updGroup_issue (s : State) (g : Nat) (u : Group → Group) : (s.updGroup g u).issue = s.issue := by
  unfold State.updGroup; split <;> rfl
@[simp] theorem State.updGroup_cur (s : State) (g : Nat) (u : Group → Group) : (s.updGroup g u).cur = s.cur := by
  unfold State.updGroup; split <;> rfl
@[simp] theorem State.updGroup_sheaf (s : State) (g : Nat) (u : Group → Group) : (s.updGroup g u).sheaf = s.sheaf := by
  unfold State.updGroup; split <;> rfl
@[simp] theorem State.updGroup_burst (s : State) (g : Nat) (u : Group → Group) : (s.updGroup g u).burst = s.burst := by
  unfold State.updGroup; split <;> rfl
@[simp] theorem State.updGroup_looked (s : State) (g : Nat) (u : Group → Group) : (s.updGroup g u).looked = s.looked := by
  unfold State.updGroup; split <;> rfl
@[simp] theorem State.updGroup_curQ (s : State) (g : Nat) (u : Group → Group) : (s.updGroup g u).curQ = s.curQ := by
  unfold State.updGroup; split <;> rfl
@[simp] theorem State.updGroup_curSlot (s : State) (g : Nat) (u : Group → Group) : (s.updGroup g u).curSlot = s.curSlot := by
  unfold State.updGroup; split <;> rfl
@[simp] theorem State.updGroup_unitLast (s : State) (g : Nat) (u : Group → Group) : (s.updGroup g u).unitLast = s.unitLast := by
  unfold State.updGroup; split <;> rfl
@[simp] theorem State.updGroup_nextId (s : State) (g : Nat) (u : Group → Group) : (s.updGroup g u).nextId = s.nextId := by
  unfold State.updGroup; split <;> rfl
@[simp] theorem State.updGroup_cycle (s : State) (g : Nat) (u : Group → Group) : (s.updGroup g u).cycle = s.cycle := by
  unfold State.updGroup; split <;> rfl
@[simp] theorem State.updGroup_ops (s : State) (g : Nat) (u : Group → Group) : (s.updGroup g u).ops = s.ops := by
  unfold State.updGroup; split <;> rfl
@[simp] theorem State.updGroup_cores (s : State) (g : Nat) (u : Group → Group) : (s.updGroup g u).cores = s.cores := by
  unfold State.updGroup; split <;> rfl
@[simp] theorem State.updGroup_launches (s : State) (g : Nat) (u : Group → Group) : (s.updGroup g u).launches = s.launches := by
  unfold State.updGroup; split <;> rfl
@[simp] theorem State.updGroup_queues (s : State) (g : Nat) (u : Group → Group) : (s.updGroup g u).queues = s.queues := by
  unfold State.updGroup; split <;> rfl
@[simp] theorem State.updGroup_pads (s : State) (g : Nat) (u : Group → Group) : (s.updGroup g u).pads = s.pads := by
  unfold State.updGroup; split <;> rfl
@[simp] theorem State.updGroup_qlast (s : State) (g : Nat) (u : Group → Group) : (s.updGroup g u).qlast = s.qlast := by
  unfold State.updGroup; split <;> rfl
@[simp] theorem State.updGroup_sram (s : State) (g : Nat) (u : Group → Group) : (s.updGroup g u).sram = s.sram := by
  unfold State.updGroup; split <;> rfl
@[simp] theorem State.updGroup_far (s : State) (g : Nat) (u : Group → Group) : (s.updGroup g u).far = s.far := by
  unfold State.updGroup; split <;> rfl
@[simp] theorem State.updGroup_hostMem (s : State) (g : Nat) (u : Group → Group) : (s.updGroup g u).hostMem = s.hostMem := by
  unfold State.updGroup; split <;> rfl
@[simp] theorem State.updGroup_sramErr (s : State) (g : Nat) (u : Group → Group) : (s.updGroup g u).sramErr = s.sramErr := by
  unfold State.updGroup; split <;> rfl
@[simp] theorem State.updGroup_farErr (s : State) (g : Nat) (u : Group → Group) : (s.updGroup g u).farErr = s.farErr := by
  unfold State.updGroup; split <;> rfl
@[simp] theorem State.updGroup_meta_ (s : State) (g : Nat) (u : Group → Group) : (s.updGroup g u).meta_ = s.meta_ := by
  unfold State.updGroup; split <;> rfl
@[simp] theorem State.updGroup_sectorKey (s : State) (g : Nat) (u : Group → Group) : (s.updGroup g u).sectorKey = s.sectorKey := by
  unfold State.updGroup; split <;> rfl
@[simp] theorem State.updGroup_tlb (s : State) (g : Nat) (u : Group → Group) : (s.updGroup g u).tlb = s.tlb := by
  unfold State.updGroup; split <;> rfl
@[simp] theorem State.updGroup_invals (s : State) (g : Nat) (u : Group → Group) : (s.updGroup g u).invals = s.invals := by
  unfold State.updGroup; split <;> rfl
@[simp] theorem State.updGroup_asids (s : State) (g : Nat) (u : Group → Group) : (s.updGroup g u).asids = s.asids := by
  unfold State.updGroup; split <;> rfl
@[simp] theorem State.updGroup_binds (s : State) (g : Nat) (u : Group → Group) : (s.updGroup g u).binds = s.binds := by
  unfold State.updGroup; split <;> rfl
@[simp] theorem State.updGroup_regs (s : State) (g : Nat) (u : Group → Group) : (s.updGroup g u).regs = s.regs := by
  unfold State.updGroup; split <;> rfl
@[simp] theorem State.updGroup_placed (s : State) (g : Nat) (u : Group → Group) : (s.updGroup g u).placed = s.placed := by
  unfold State.updGroup; split <;> rfl
@[simp] theorem State.updGroup_irqs (s : State) (g : Nat) (u : Group → Group) : (s.updGroup g u).irqs = s.irqs := by
  unfold State.updGroup; split <;> rfl
@[simp] theorem State.updGroup_msix (s : State) (g : Nat) (u : Group → Group) : (s.updGroup g u).msix = s.msix := by
  unfold State.updGroup; split <;> rfl
@[simp] theorem State.updGroup_pba (s : State) (g : Nat) (u : Group → Group) : (s.updGroup g u).pba = s.pba := by
  unfold State.updGroup; split <;> rfl
@[simp] theorem State.updGroup_dbgWait (s : State) (g : Nat) (u : Group → Group) : (s.updGroup g u).dbgWait = s.dbgWait := by
  unfold State.updGroup; split <;> rfl
@[simp] theorem State.updGroup_hostRead (s : State) (g : Nat) (u : Group → Group) : (s.updGroup g u).hostRead = s.hostRead := by
  unfold State.updGroup; split <;> rfl
@[simp] theorem State.updGroup_chains (s : State) (g : Nat) (u : Group → Group) : (s.updGroup g u).chains = s.chains := by
  unfold State.updGroup; split <;> rfl
@[simp] theorem State.updGroup_slots (s : State) (g : Nat) (u : Group → Group) : (s.updGroup g u).slots = s.slots := by
  unfold State.updGroup; split <;> rfl
@[simp] theorem State.updGroup_fifos (s : State) (g : Nat) (u : Group → Group) : (s.updGroup g u).fifos = s.fifos := by
  unfold State.updGroup; split <;> rfl
@[simp] theorem State.updGroup_lanes (s : State) (g : Nat) (u : Group → Group) : (s.updGroup g u).lanes = s.lanes := by
  unfold State.updGroup; split <;> rfl
@[simp] theorem State.updGroup_failedWin (s : State) (g : Nat) (u : Group → Group) : (s.updGroup g u).failedWin = s.failedWin := by
  unfold State.updGroup; split <;> rfl
@[simp] theorem State.updGroup_downPorts (s : State) (g : Nat) (u : Group → Group) : (s.updGroup g u).downPorts = s.downPorts := by
  unfold State.updGroup; split <;> rfl
@[simp] theorem State.updGroup_outbox (s : State) (g : Nat) (u : Group → Group) : (s.updGroup g u).outbox = s.outbox := by
  unfold State.updGroup; split <;> rfl
@[simp] theorem State.updGroup_unsent (s : State) (g : Nat) (u : Group → Group) : (s.updGroup g u).unsent = s.unsent := by
  unfold State.updGroup; split <;> rfl
@[simp] theorem State.updGroup_pendResp (s : State) (g : Nat) (u : Group → Group) : (s.updGroup g u).pendResp = s.pendResp := by
  unfold State.updGroup; split <;> rfl
@[simp] theorem State.updGroup_xheld (s : State) (g : Nat) (u : Group → Group) : (s.updGroup g u).xheld = s.xheld := by
  unfold State.updGroup; split <;> rfl
@[simp] theorem State.updGroup_fwds (s : State) (g : Nat) (u : Group → Group) : (s.updGroup g u).fwds = s.fwds := by
  unfold State.updGroup; split <;> rfl
@[simp] theorem State.updGroup_splits (s : State) (g : Nat) (u : Group → Group) : (s.updGroup g u).splits = s.splits := by
  unfold State.updGroup; split <;> rfl
@[simp] theorem State.updGroup_ingress (s : State) (g : Nat) (u : Group → Group) : (s.updGroup g u).ingress = s.ingress := by
  unfold State.updGroup; split <;> rfl
@[simp] theorem State.updGroup_intake (s : State) (g : Nat) (u : Group → Group) : (s.updGroup g u).intake = s.intake := by
  unfold State.updGroup; split <;> rfl
@[simp] theorem State.updGroup_torn (s : State) (g : Nat) (u : Group → Group) : (s.updGroup g u).torn = s.torn := by
  unfold State.updGroup; split <;> rfl
@[simp] theorem State.updGroup_stats (s : State) (g : Nat) (u : Group → Group) : (s.updGroup g u).stats = s.stats := by
  unfold State.updGroup; split <;> rfl
@[simp] theorem State.updGroup_boundary (s : State) (g : Nat) (u : Group → Group) : (s.updGroup g u).boundary = s.boundary := by
  unfold State.updGroup; split <;> rfl
@[simp] theorem State.updGroup_readyFrom (s : State) (g : Nat) (u : Group → Group) : (s.updGroup g u).readyFrom = s.readyFrom := by
  unfold State.updGroup; split <;> rfl
@[simp] theorem State.updGroup_appliedFrom (s : State) (g : Nat) (u : Group → Group) : (s.updGroup g u).appliedFrom = s.appliedFrom := by
  unfold State.updGroup; split <;> rfl
@[simp] theorem State.updGroup_doneBelow (s : State) (g : Nat) (u : Group → Group) : (s.updGroup g u).doneBelow = s.doneBelow := by
  unfold State.updGroup; split <;> rfl
@[simp] theorem State.updGroup_collCount (s : State) (g : Nat) (u : Group → Group) : (s.updGroup g u).collCount = s.collCount := by
  unfold State.updGroup; split <;> rfl
@[simp] theorem State.updGroup_optDirs (s : State) (g : Nat) (u : Group → Group) : (s.updGroup g u).optDirs = s.optDirs := by
  unfold State.updGroup; split <;> rfl
@[simp] theorem State.updGroup_darkSources (s : State) (g : Nat) (u : Group → Group) : (s.updGroup g u).darkSources = s.darkSources := by
  unfold State.updGroup; split <;> rfl
@[simp] theorem State.updGroup_offSources (s : State) (g : Nat) (u : Group → Group) : (s.updGroup g u).offSources = s.offSources := by
  unfold State.updGroup; split <;> rfl
@[simp] theorem State.updGroup_provs (s : State) (g : Nat) (u : Group → Group) : (s.updGroup g u).provs = s.provs := by
  unfold State.updGroup; split <;> rfl
@[simp] theorem State.updGroup_draining (s : State) (g : Nat) (u : Group → Group) : (s.updGroup g u).draining = s.draining := by
  unfold State.updGroup; split <;> rfl
@[simp] theorem State.updGroup_keys (s : State) (g : Nat) (u : Group → Group) : (s.updGroup g u).keys = s.keys := by
  unfold State.updGroup; split <;> rfl
@[simp] theorem State.updGroup_images (s : State) (g : Nat) (u : Group → Group) : (s.updGroup g u).images = s.images := by
  unfold State.updGroup; split <;> rfl
@[simp] theorem State.updGroup_nextMgmt (s : State) (g : Nat) (u : Group → Group) : (s.updGroup g u).nextMgmt = s.nextMgmt := by
  unfold State.updGroup; split <;> rfl
@[simp] theorem State.updGroup_badCores (s : State) (g : Nat) (u : Group → Group) : (s.updGroup g u).badCores = s.badCores := by
  unfold State.updGroup; split <;> rfl
@[simp] theorem State.updGroup_cpDown (s : State) (g : Nat) (u : Group → Group) : (s.updGroup g u).cpDown = s.cpDown := by
  unfold State.updGroup; split <;> rfl
@[simp] theorem State.updGroup_larkDown (s : State) (g : Nat) (u : Group → Group) : (s.updGroup g u).larkDown = s.larkDown := by
  unfold State.updGroup; split <;> rfl
@[simp] theorem State.updGroup_mgmtDown (s : State) (g : Nat) (u : Group → Group) : (s.updGroup g u).mgmtDown = s.mgmtDown := by
  unfold State.updGroup; split <;> rfl
@[simp] theorem State.updGroup_optHeld (s : State) (g : Nat) (u : Group → Group) : (s.updGroup g u).optHeld = s.optHeld := by
  unfold State.updGroup; split <;> rfl
@[simp] theorem State.updGroup_larkNext (s : State) (g : Nat) (u : Group → Group) : (s.updGroup g u).larkNext = s.larkNext := by
  unfold State.updGroup; split <;> rfl
@[simp] theorem State.updGroup_clockMHz (s : State) (g : Nat) (u : Group → Group) : (s.updGroup g u).clockMHz = s.clockMHz := by
  unfold State.updGroup; split <;> rfl

@[simp] theorem State.updFibre_tick (s : State) (r : FRef) (u : Fibre → Fibre) : (s.updFibre r u).tick = s.tick := by
  simp [State.updFibre]
@[simp] theorem State.updFibre_turn (s : State) (r : FRef) (u : Fibre → Fibre) : (s.updFibre r u).turn = s.turn := by
  simp [State.updFibre]
@[simp] theorem State.updFibre_inbox (s : State) (r : FRef) (u : Fibre → Fibre) : (s.updFibre r u).inbox = s.inbox := by
  simp [State.updFibre]
@[simp] theorem State.updFibre_issue (s : State) (r : FRef) (u : Fibre → Fibre) : (s.updFibre r u).issue = s.issue := by
  simp [State.updFibre]
@[simp] theorem State.updFibre_cur (s : State) (r : FRef) (u : Fibre → Fibre) : (s.updFibre r u).cur = s.cur := by
  simp [State.updFibre]
@[simp] theorem State.updFibre_sheaf (s : State) (r : FRef) (u : Fibre → Fibre) : (s.updFibre r u).sheaf = s.sheaf := by
  simp [State.updFibre]
@[simp] theorem State.updFibre_burst (s : State) (r : FRef) (u : Fibre → Fibre) : (s.updFibre r u).burst = s.burst := by
  simp [State.updFibre]
@[simp] theorem State.updFibre_looked (s : State) (r : FRef) (u : Fibre → Fibre) : (s.updFibre r u).looked = s.looked := by
  simp [State.updFibre]
@[simp] theorem State.updFibre_curQ (s : State) (r : FRef) (u : Fibre → Fibre) : (s.updFibre r u).curQ = s.curQ := by
  simp [State.updFibre]
@[simp] theorem State.updFibre_curSlot (s : State) (r : FRef) (u : Fibre → Fibre) : (s.updFibre r u).curSlot = s.curSlot := by
  simp [State.updFibre]
@[simp] theorem State.updFibre_unitLast (s : State) (r : FRef) (u : Fibre → Fibre) : (s.updFibre r u).unitLast = s.unitLast := by
  simp [State.updFibre]
@[simp] theorem State.updFibre_nextId (s : State) (r : FRef) (u : Fibre → Fibre) : (s.updFibre r u).nextId = s.nextId := by
  simp [State.updFibre]
@[simp] theorem State.updFibre_cycle (s : State) (r : FRef) (u : Fibre → Fibre) : (s.updFibre r u).cycle = s.cycle := by
  simp [State.updFibre]
@[simp] theorem State.updFibre_ops (s : State) (r : FRef) (u : Fibre → Fibre) : (s.updFibre r u).ops = s.ops := by
  simp [State.updFibre]
@[simp] theorem State.updFibre_cores (s : State) (r : FRef) (u : Fibre → Fibre) : (s.updFibre r u).cores = s.cores := by
  simp [State.updFibre]
@[simp] theorem State.updFibre_launches (s : State) (r : FRef) (u : Fibre → Fibre) : (s.updFibre r u).launches = s.launches := by
  simp [State.updFibre]
@[simp] theorem State.updFibre_queues (s : State) (r : FRef) (u : Fibre → Fibre) : (s.updFibre r u).queues = s.queues := by
  simp [State.updFibre]
@[simp] theorem State.updFibre_pads (s : State) (r : FRef) (u : Fibre → Fibre) : (s.updFibre r u).pads = s.pads := by
  simp [State.updFibre]
@[simp] theorem State.updFibre_qlast (s : State) (r : FRef) (u : Fibre → Fibre) : (s.updFibre r u).qlast = s.qlast := by
  simp [State.updFibre]
@[simp] theorem State.updFibre_sram (s : State) (r : FRef) (u : Fibre → Fibre) : (s.updFibre r u).sram = s.sram := by
  simp [State.updFibre]
@[simp] theorem State.updFibre_far (s : State) (r : FRef) (u : Fibre → Fibre) : (s.updFibre r u).far = s.far := by
  simp [State.updFibre]
@[simp] theorem State.updFibre_hostMem (s : State) (r : FRef) (u : Fibre → Fibre) : (s.updFibre r u).hostMem = s.hostMem := by
  simp [State.updFibre]
@[simp] theorem State.updFibre_sramErr (s : State) (r : FRef) (u : Fibre → Fibre) : (s.updFibre r u).sramErr = s.sramErr := by
  simp [State.updFibre]
@[simp] theorem State.updFibre_farErr (s : State) (r : FRef) (u : Fibre → Fibre) : (s.updFibre r u).farErr = s.farErr := by
  simp [State.updFibre]
@[simp] theorem State.updFibre_meta_ (s : State) (r : FRef) (u : Fibre → Fibre) : (s.updFibre r u).meta_ = s.meta_ := by
  simp [State.updFibre]
@[simp] theorem State.updFibre_sectorKey (s : State) (r : FRef) (u : Fibre → Fibre) : (s.updFibre r u).sectorKey = s.sectorKey := by
  simp [State.updFibre]
@[simp] theorem State.updFibre_tlb (s : State) (r : FRef) (u : Fibre → Fibre) : (s.updFibre r u).tlb = s.tlb := by
  simp [State.updFibre]
@[simp] theorem State.updFibre_invals (s : State) (r : FRef) (u : Fibre → Fibre) : (s.updFibre r u).invals = s.invals := by
  simp [State.updFibre]
@[simp] theorem State.updFibre_asids (s : State) (r : FRef) (u : Fibre → Fibre) : (s.updFibre r u).asids = s.asids := by
  simp [State.updFibre]
@[simp] theorem State.updFibre_binds (s : State) (r : FRef) (u : Fibre → Fibre) : (s.updFibre r u).binds = s.binds := by
  simp [State.updFibre]
@[simp] theorem State.updFibre_regs (s : State) (r : FRef) (u : Fibre → Fibre) : (s.updFibre r u).regs = s.regs := by
  simp [State.updFibre]
@[simp] theorem State.updFibre_placed (s : State) (r : FRef) (u : Fibre → Fibre) : (s.updFibre r u).placed = s.placed := by
  simp [State.updFibre]
@[simp] theorem State.updFibre_irqs (s : State) (r : FRef) (u : Fibre → Fibre) : (s.updFibre r u).irqs = s.irqs := by
  simp [State.updFibre]
@[simp] theorem State.updFibre_msix (s : State) (r : FRef) (u : Fibre → Fibre) : (s.updFibre r u).msix = s.msix := by
  simp [State.updFibre]
@[simp] theorem State.updFibre_pba (s : State) (r : FRef) (u : Fibre → Fibre) : (s.updFibre r u).pba = s.pba := by
  simp [State.updFibre]
@[simp] theorem State.updFibre_dbgWait (s : State) (r : FRef) (u : Fibre → Fibre) : (s.updFibre r u).dbgWait = s.dbgWait := by
  simp [State.updFibre]
@[simp] theorem State.updFibre_hostRead (s : State) (r : FRef) (u : Fibre → Fibre) : (s.updFibre r u).hostRead = s.hostRead := by
  simp [State.updFibre]
@[simp] theorem State.updFibre_chains (s : State) (r : FRef) (u : Fibre → Fibre) : (s.updFibre r u).chains = s.chains := by
  simp [State.updFibre]
@[simp] theorem State.updFibre_slots (s : State) (r : FRef) (u : Fibre → Fibre) : (s.updFibre r u).slots = s.slots := by
  simp [State.updFibre]
@[simp] theorem State.updFibre_fifos (s : State) (r : FRef) (u : Fibre → Fibre) : (s.updFibre r u).fifos = s.fifos := by
  simp [State.updFibre]
@[simp] theorem State.updFibre_lanes (s : State) (r : FRef) (u : Fibre → Fibre) : (s.updFibre r u).lanes = s.lanes := by
  simp [State.updFibre]
@[simp] theorem State.updFibre_failedWin (s : State) (r : FRef) (u : Fibre → Fibre) : (s.updFibre r u).failedWin = s.failedWin := by
  simp [State.updFibre]
@[simp] theorem State.updFibre_downPorts (s : State) (r : FRef) (u : Fibre → Fibre) : (s.updFibre r u).downPorts = s.downPorts := by
  simp [State.updFibre]
@[simp] theorem State.updFibre_outbox (s : State) (r : FRef) (u : Fibre → Fibre) : (s.updFibre r u).outbox = s.outbox := by
  simp [State.updFibre]
@[simp] theorem State.updFibre_unsent (s : State) (r : FRef) (u : Fibre → Fibre) : (s.updFibre r u).unsent = s.unsent := by
  simp [State.updFibre]
@[simp] theorem State.updFibre_pendResp (s : State) (r : FRef) (u : Fibre → Fibre) : (s.updFibre r u).pendResp = s.pendResp := by
  simp [State.updFibre]
@[simp] theorem State.updFibre_xheld (s : State) (r : FRef) (u : Fibre → Fibre) : (s.updFibre r u).xheld = s.xheld := by
  simp [State.updFibre]
@[simp] theorem State.updFibre_fwds (s : State) (r : FRef) (u : Fibre → Fibre) : (s.updFibre r u).fwds = s.fwds := by
  simp [State.updFibre]
@[simp] theorem State.updFibre_splits (s : State) (r : FRef) (u : Fibre → Fibre) : (s.updFibre r u).splits = s.splits := by
  simp [State.updFibre]
@[simp] theorem State.updFibre_ingress (s : State) (r : FRef) (u : Fibre → Fibre) : (s.updFibre r u).ingress = s.ingress := by
  simp [State.updFibre]
@[simp] theorem State.updFibre_intake (s : State) (r : FRef) (u : Fibre → Fibre) : (s.updFibre r u).intake = s.intake := by
  simp [State.updFibre]
@[simp] theorem State.updFibre_torn (s : State) (r : FRef) (u : Fibre → Fibre) : (s.updFibre r u).torn = s.torn := by
  simp [State.updFibre]
@[simp] theorem State.updFibre_stats (s : State) (r : FRef) (u : Fibre → Fibre) : (s.updFibre r u).stats = s.stats := by
  simp [State.updFibre]
@[simp] theorem State.updFibre_boundary (s : State) (r : FRef) (u : Fibre → Fibre) : (s.updFibre r u).boundary = s.boundary := by
  simp [State.updFibre]
@[simp] theorem State.updFibre_readyFrom (s : State) (r : FRef) (u : Fibre → Fibre) : (s.updFibre r u).readyFrom = s.readyFrom := by
  simp [State.updFibre]
@[simp] theorem State.updFibre_appliedFrom (s : State) (r : FRef) (u : Fibre → Fibre) : (s.updFibre r u).appliedFrom = s.appliedFrom := by
  simp [State.updFibre]
@[simp] theorem State.updFibre_doneBelow (s : State) (r : FRef) (u : Fibre → Fibre) : (s.updFibre r u).doneBelow = s.doneBelow := by
  simp [State.updFibre]
@[simp] theorem State.updFibre_collCount (s : State) (r : FRef) (u : Fibre → Fibre) : (s.updFibre r u).collCount = s.collCount := by
  simp [State.updFibre]
@[simp] theorem State.updFibre_optDirs (s : State) (r : FRef) (u : Fibre → Fibre) : (s.updFibre r u).optDirs = s.optDirs := by
  simp [State.updFibre]
@[simp] theorem State.updFibre_darkSources (s : State) (r : FRef) (u : Fibre → Fibre) : (s.updFibre r u).darkSources = s.darkSources := by
  simp [State.updFibre]
@[simp] theorem State.updFibre_offSources (s : State) (r : FRef) (u : Fibre → Fibre) : (s.updFibre r u).offSources = s.offSources := by
  simp [State.updFibre]
@[simp] theorem State.updFibre_provs (s : State) (r : FRef) (u : Fibre → Fibre) : (s.updFibre r u).provs = s.provs := by
  simp [State.updFibre]
@[simp] theorem State.updFibre_draining (s : State) (r : FRef) (u : Fibre → Fibre) : (s.updFibre r u).draining = s.draining := by
  simp [State.updFibre]
@[simp] theorem State.updFibre_keys (s : State) (r : FRef) (u : Fibre → Fibre) : (s.updFibre r u).keys = s.keys := by
  simp [State.updFibre]
@[simp] theorem State.updFibre_images (s : State) (r : FRef) (u : Fibre → Fibre) : (s.updFibre r u).images = s.images := by
  simp [State.updFibre]
@[simp] theorem State.updFibre_nextMgmt (s : State) (r : FRef) (u : Fibre → Fibre) : (s.updFibre r u).nextMgmt = s.nextMgmt := by
  simp [State.updFibre]
@[simp] theorem State.updFibre_badCores (s : State) (r : FRef) (u : Fibre → Fibre) : (s.updFibre r u).badCores = s.badCores := by
  simp [State.updFibre]
@[simp] theorem State.updFibre_cpDown (s : State) (r : FRef) (u : Fibre → Fibre) : (s.updFibre r u).cpDown = s.cpDown := by
  simp [State.updFibre]
@[simp] theorem State.updFibre_larkDown (s : State) (r : FRef) (u : Fibre → Fibre) : (s.updFibre r u).larkDown = s.larkDown := by
  simp [State.updFibre]
@[simp] theorem State.updFibre_mgmtDown (s : State) (r : FRef) (u : Fibre → Fibre) : (s.updFibre r u).mgmtDown = s.mgmtDown := by
  simp [State.updFibre]
@[simp] theorem State.updFibre_optHeld (s : State) (r : FRef) (u : Fibre → Fibre) : (s.updFibre r u).optHeld = s.optHeld := by
  simp [State.updFibre]
@[simp] theorem State.updFibre_larkNext (s : State) (r : FRef) (u : Fibre → Fibre) : (s.updFibre r u).larkNext = s.larkNext := by
  simp [State.updFibre]
@[simp] theorem State.updFibre_clockMHz (s : State) (r : FRef) (u : Fibre → Fibre) : (s.updFibre r u).clockMHz = s.clockMHz := by
  simp [State.updFibre]

@[simp] theorem State.setCore_tick (s : State) (c : Nat) (x : Core) : (s.setCore c x).tick = s.tick := rfl
@[simp] theorem State.setCore_turn (s : State) (c : Nat) (x : Core) : (s.setCore c x).turn = s.turn := rfl
@[simp] theorem State.setCore_inbox (s : State) (c : Nat) (x : Core) : (s.setCore c x).inbox = s.inbox := rfl
@[simp] theorem State.setCore_issue (s : State) (c : Nat) (x : Core) : (s.setCore c x).issue = s.issue := rfl
@[simp] theorem State.setCore_cur (s : State) (c : Nat) (x : Core) : (s.setCore c x).cur = s.cur := rfl
@[simp] theorem State.setCore_sheaf (s : State) (c : Nat) (x : Core) : (s.setCore c x).sheaf = s.sheaf := rfl
@[simp] theorem State.setCore_burst (s : State) (c : Nat) (x : Core) : (s.setCore c x).burst = s.burst := rfl
@[simp] theorem State.setCore_looked (s : State) (c : Nat) (x : Core) : (s.setCore c x).looked = s.looked := rfl
@[simp] theorem State.setCore_curQ (s : State) (c : Nat) (x : Core) : (s.setCore c x).curQ = s.curQ := rfl
@[simp] theorem State.setCore_curSlot (s : State) (c : Nat) (x : Core) : (s.setCore c x).curSlot = s.curSlot := rfl
@[simp] theorem State.setCore_unitLast (s : State) (c : Nat) (x : Core) : (s.setCore c x).unitLast = s.unitLast := rfl
@[simp] theorem State.setCore_nextId (s : State) (c : Nat) (x : Core) : (s.setCore c x).nextId = s.nextId := rfl
@[simp] theorem State.setCore_cycle (s : State) (c : Nat) (x : Core) : (s.setCore c x).cycle = s.cycle := rfl
@[simp] theorem State.setCore_groups (s : State) (c : Nat) (x : Core) : (s.setCore c x).groups = s.groups := rfl
@[simp] theorem State.setCore_ops (s : State) (c : Nat) (x : Core) : (s.setCore c x).ops = s.ops := rfl
@[simp] theorem State.setCore_launches (s : State) (c : Nat) (x : Core) : (s.setCore c x).launches = s.launches := rfl
@[simp] theorem State.setCore_queues (s : State) (c : Nat) (x : Core) : (s.setCore c x).queues = s.queues := rfl
@[simp] theorem State.setCore_pads (s : State) (c : Nat) (x : Core) : (s.setCore c x).pads = s.pads := rfl
@[simp] theorem State.setCore_qlast (s : State) (c : Nat) (x : Core) : (s.setCore c x).qlast = s.qlast := rfl
@[simp] theorem State.setCore_sram (s : State) (c : Nat) (x : Core) : (s.setCore c x).sram = s.sram := rfl
@[simp] theorem State.setCore_far (s : State) (c : Nat) (x : Core) : (s.setCore c x).far = s.far := rfl
@[simp] theorem State.setCore_hostMem (s : State) (c : Nat) (x : Core) : (s.setCore c x).hostMem = s.hostMem := rfl
@[simp] theorem State.setCore_sramErr (s : State) (c : Nat) (x : Core) : (s.setCore c x).sramErr = s.sramErr := rfl
@[simp] theorem State.setCore_farErr (s : State) (c : Nat) (x : Core) : (s.setCore c x).farErr = s.farErr := rfl
@[simp] theorem State.setCore_meta_ (s : State) (c : Nat) (x : Core) : (s.setCore c x).meta_ = s.meta_ := rfl
@[simp] theorem State.setCore_sectorKey (s : State) (c : Nat) (x : Core) : (s.setCore c x).sectorKey = s.sectorKey := rfl
@[simp] theorem State.setCore_tlb (s : State) (c : Nat) (x : Core) : (s.setCore c x).tlb = s.tlb := rfl
@[simp] theorem State.setCore_invals (s : State) (c : Nat) (x : Core) : (s.setCore c x).invals = s.invals := rfl
@[simp] theorem State.setCore_asids (s : State) (c : Nat) (x : Core) : (s.setCore c x).asids = s.asids := rfl
@[simp] theorem State.setCore_binds (s : State) (c : Nat) (x : Core) : (s.setCore c x).binds = s.binds := rfl
@[simp] theorem State.setCore_regs (s : State) (c : Nat) (x : Core) : (s.setCore c x).regs = s.regs := rfl
@[simp] theorem State.setCore_placed (s : State) (c : Nat) (x : Core) : (s.setCore c x).placed = s.placed := rfl
@[simp] theorem State.setCore_irqs (s : State) (c : Nat) (x : Core) : (s.setCore c x).irqs = s.irqs := rfl
@[simp] theorem State.setCore_msix (s : State) (c : Nat) (x : Core) : (s.setCore c x).msix = s.msix := rfl
@[simp] theorem State.setCore_pba (s : State) (c : Nat) (x : Core) : (s.setCore c x).pba = s.pba := rfl
@[simp] theorem State.setCore_dbgWait (s : State) (c : Nat) (x : Core) : (s.setCore c x).dbgWait = s.dbgWait := rfl
@[simp] theorem State.setCore_hostRead (s : State) (c : Nat) (x : Core) : (s.setCore c x).hostRead = s.hostRead := rfl
@[simp] theorem State.setCore_chains (s : State) (c : Nat) (x : Core) : (s.setCore c x).chains = s.chains := rfl
@[simp] theorem State.setCore_slots (s : State) (c : Nat) (x : Core) : (s.setCore c x).slots = s.slots := rfl
@[simp] theorem State.setCore_fifos (s : State) (c : Nat) (x : Core) : (s.setCore c x).fifos = s.fifos := rfl
@[simp] theorem State.setCore_lanes (s : State) (c : Nat) (x : Core) : (s.setCore c x).lanes = s.lanes := rfl
@[simp] theorem State.setCore_failedWin (s : State) (c : Nat) (x : Core) : (s.setCore c x).failedWin = s.failedWin := rfl
@[simp] theorem State.setCore_downPorts (s : State) (c : Nat) (x : Core) : (s.setCore c x).downPorts = s.downPorts := rfl
@[simp] theorem State.setCore_outbox (s : State) (c : Nat) (x : Core) : (s.setCore c x).outbox = s.outbox := rfl
@[simp] theorem State.setCore_unsent (s : State) (c : Nat) (x : Core) : (s.setCore c x).unsent = s.unsent := rfl
@[simp] theorem State.setCore_pendResp (s : State) (c : Nat) (x : Core) : (s.setCore c x).pendResp = s.pendResp := rfl
@[simp] theorem State.setCore_xheld (s : State) (c : Nat) (x : Core) : (s.setCore c x).xheld = s.xheld := rfl
@[simp] theorem State.setCore_fwds (s : State) (c : Nat) (x : Core) : (s.setCore c x).fwds = s.fwds := rfl
@[simp] theorem State.setCore_splits (s : State) (c : Nat) (x : Core) : (s.setCore c x).splits = s.splits := rfl
@[simp] theorem State.setCore_ingress (s : State) (c : Nat) (x : Core) : (s.setCore c x).ingress = s.ingress := rfl
@[simp] theorem State.setCore_intake (s : State) (c : Nat) (x : Core) : (s.setCore c x).intake = s.intake := rfl
@[simp] theorem State.setCore_torn (s : State) (c : Nat) (x : Core) : (s.setCore c x).torn = s.torn := rfl
@[simp] theorem State.setCore_stats (s : State) (c : Nat) (x : Core) : (s.setCore c x).stats = s.stats := rfl
@[simp] theorem State.setCore_boundary (s : State) (c : Nat) (x : Core) : (s.setCore c x).boundary = s.boundary := rfl
@[simp] theorem State.setCore_readyFrom (s : State) (c : Nat) (x : Core) : (s.setCore c x).readyFrom = s.readyFrom := rfl
@[simp] theorem State.setCore_appliedFrom (s : State) (c : Nat) (x : Core) : (s.setCore c x).appliedFrom = s.appliedFrom := rfl
@[simp] theorem State.setCore_doneBelow (s : State) (c : Nat) (x : Core) : (s.setCore c x).doneBelow = s.doneBelow := rfl
@[simp] theorem State.setCore_collCount (s : State) (c : Nat) (x : Core) : (s.setCore c x).collCount = s.collCount := rfl
@[simp] theorem State.setCore_optDirs (s : State) (c : Nat) (x : Core) : (s.setCore c x).optDirs = s.optDirs := rfl
@[simp] theorem State.setCore_darkSources (s : State) (c : Nat) (x : Core) : (s.setCore c x).darkSources = s.darkSources := rfl
@[simp] theorem State.setCore_offSources (s : State) (c : Nat) (x : Core) : (s.setCore c x).offSources = s.offSources := rfl
@[simp] theorem State.setCore_provs (s : State) (c : Nat) (x : Core) : (s.setCore c x).provs = s.provs := rfl
@[simp] theorem State.setCore_draining (s : State) (c : Nat) (x : Core) : (s.setCore c x).draining = s.draining := rfl
@[simp] theorem State.setCore_keys (s : State) (c : Nat) (x : Core) : (s.setCore c x).keys = s.keys := rfl
@[simp] theorem State.setCore_images (s : State) (c : Nat) (x : Core) : (s.setCore c x).images = s.images := rfl
@[simp] theorem State.setCore_nextMgmt (s : State) (c : Nat) (x : Core) : (s.setCore c x).nextMgmt = s.nextMgmt := rfl
@[simp] theorem State.setCore_badCores (s : State) (c : Nat) (x : Core) : (s.setCore c x).badCores = s.badCores := rfl
@[simp] theorem State.setCore_cpDown (s : State) (c : Nat) (x : Core) : (s.setCore c x).cpDown = s.cpDown := rfl
@[simp] theorem State.setCore_larkDown (s : State) (c : Nat) (x : Core) : (s.setCore c x).larkDown = s.larkDown := rfl
@[simp] theorem State.setCore_mgmtDown (s : State) (c : Nat) (x : Core) : (s.setCore c x).mgmtDown = s.mgmtDown := rfl
@[simp] theorem State.setCore_optHeld (s : State) (c : Nat) (x : Core) : (s.setCore c x).optHeld = s.optHeld := rfl
@[simp] theorem State.setCore_larkNext (s : State) (c : Nat) (x : Core) : (s.setCore c x).larkNext = s.larkNext := rfl
@[simp] theorem State.setCore_clockMHz (s : State) (c : Nat) (x : Core) : (s.setCore c x).clockMHz = s.clockMHz := rfl

@[simp] theorem State.sramWrite_tick (s : State) (a : Nat) (bs : List Byte) : (s.sramWrite a bs).tick = s.tick := rfl
@[simp] theorem State.sramWrite_turn (s : State) (a : Nat) (bs : List Byte) : (s.sramWrite a bs).turn = s.turn := rfl
@[simp] theorem State.sramWrite_inbox (s : State) (a : Nat) (bs : List Byte) : (s.sramWrite a bs).inbox = s.inbox := rfl
@[simp] theorem State.sramWrite_issue (s : State) (a : Nat) (bs : List Byte) : (s.sramWrite a bs).issue = s.issue := rfl
@[simp] theorem State.sramWrite_cur (s : State) (a : Nat) (bs : List Byte) : (s.sramWrite a bs).cur = s.cur := rfl
@[simp] theorem State.sramWrite_sheaf (s : State) (a : Nat) (bs : List Byte) : (s.sramWrite a bs).sheaf = s.sheaf := rfl
@[simp] theorem State.sramWrite_burst (s : State) (a : Nat) (bs : List Byte) : (s.sramWrite a bs).burst = s.burst := rfl
@[simp] theorem State.sramWrite_looked (s : State) (a : Nat) (bs : List Byte) : (s.sramWrite a bs).looked = s.looked := rfl
@[simp] theorem State.sramWrite_curQ (s : State) (a : Nat) (bs : List Byte) : (s.sramWrite a bs).curQ = s.curQ := rfl
@[simp] theorem State.sramWrite_curSlot (s : State) (a : Nat) (bs : List Byte) : (s.sramWrite a bs).curSlot = s.curSlot := rfl
@[simp] theorem State.sramWrite_unitLast (s : State) (a : Nat) (bs : List Byte) : (s.sramWrite a bs).unitLast = s.unitLast := rfl
@[simp] theorem State.sramWrite_nextId (s : State) (a : Nat) (bs : List Byte) : (s.sramWrite a bs).nextId = s.nextId := rfl
@[simp] theorem State.sramWrite_cycle (s : State) (a : Nat) (bs : List Byte) : (s.sramWrite a bs).cycle = s.cycle := rfl
@[simp] theorem State.sramWrite_groups (s : State) (a : Nat) (bs : List Byte) : (s.sramWrite a bs).groups = s.groups := rfl
@[simp] theorem State.sramWrite_ops (s : State) (a : Nat) (bs : List Byte) : (s.sramWrite a bs).ops = s.ops := rfl
@[simp] theorem State.sramWrite_cores (s : State) (a : Nat) (bs : List Byte) : (s.sramWrite a bs).cores = s.cores := rfl
@[simp] theorem State.sramWrite_launches (s : State) (a : Nat) (bs : List Byte) : (s.sramWrite a bs).launches = s.launches := rfl
@[simp] theorem State.sramWrite_queues (s : State) (a : Nat) (bs : List Byte) : (s.sramWrite a bs).queues = s.queues := rfl
@[simp] theorem State.sramWrite_pads (s : State) (a : Nat) (bs : List Byte) : (s.sramWrite a bs).pads = s.pads := rfl
@[simp] theorem State.sramWrite_qlast (s : State) (a : Nat) (bs : List Byte) : (s.sramWrite a bs).qlast = s.qlast := rfl
@[simp] theorem State.sramWrite_far (s : State) (a : Nat) (bs : List Byte) : (s.sramWrite a bs).far = s.far := rfl
@[simp] theorem State.sramWrite_hostMem (s : State) (a : Nat) (bs : List Byte) : (s.sramWrite a bs).hostMem = s.hostMem := rfl
@[simp] theorem State.sramWrite_farErr (s : State) (a : Nat) (bs : List Byte) : (s.sramWrite a bs).farErr = s.farErr := rfl
@[simp] theorem State.sramWrite_meta_ (s : State) (a : Nat) (bs : List Byte) : (s.sramWrite a bs).meta_ = s.meta_ := rfl
@[simp] theorem State.sramWrite_sectorKey (s : State) (a : Nat) (bs : List Byte) : (s.sramWrite a bs).sectorKey = s.sectorKey := rfl
@[simp] theorem State.sramWrite_tlb (s : State) (a : Nat) (bs : List Byte) : (s.sramWrite a bs).tlb = s.tlb := rfl
@[simp] theorem State.sramWrite_invals (s : State) (a : Nat) (bs : List Byte) : (s.sramWrite a bs).invals = s.invals := rfl
@[simp] theorem State.sramWrite_asids (s : State) (a : Nat) (bs : List Byte) : (s.sramWrite a bs).asids = s.asids := rfl
@[simp] theorem State.sramWrite_binds (s : State) (a : Nat) (bs : List Byte) : (s.sramWrite a bs).binds = s.binds := rfl
@[simp] theorem State.sramWrite_regs (s : State) (a : Nat) (bs : List Byte) : (s.sramWrite a bs).regs = s.regs := rfl
@[simp] theorem State.sramWrite_placed (s : State) (a : Nat) (bs : List Byte) : (s.sramWrite a bs).placed = s.placed := rfl
@[simp] theorem State.sramWrite_irqs (s : State) (a : Nat) (bs : List Byte) : (s.sramWrite a bs).irqs = s.irqs := rfl
@[simp] theorem State.sramWrite_msix (s : State) (a : Nat) (bs : List Byte) : (s.sramWrite a bs).msix = s.msix := rfl
@[simp] theorem State.sramWrite_pba (s : State) (a : Nat) (bs : List Byte) : (s.sramWrite a bs).pba = s.pba := rfl
@[simp] theorem State.sramWrite_dbgWait (s : State) (a : Nat) (bs : List Byte) : (s.sramWrite a bs).dbgWait = s.dbgWait := rfl
@[simp] theorem State.sramWrite_hostRead (s : State) (a : Nat) (bs : List Byte) : (s.sramWrite a bs).hostRead = s.hostRead := rfl
@[simp] theorem State.sramWrite_chains (s : State) (a : Nat) (bs : List Byte) : (s.sramWrite a bs).chains = s.chains := rfl
@[simp] theorem State.sramWrite_slots (s : State) (a : Nat) (bs : List Byte) : (s.sramWrite a bs).slots = s.slots := rfl
@[simp] theorem State.sramWrite_fifos (s : State) (a : Nat) (bs : List Byte) : (s.sramWrite a bs).fifos = s.fifos := rfl
@[simp] theorem State.sramWrite_lanes (s : State) (a : Nat) (bs : List Byte) : (s.sramWrite a bs).lanes = s.lanes := rfl
@[simp] theorem State.sramWrite_failedWin (s : State) (a : Nat) (bs : List Byte) : (s.sramWrite a bs).failedWin = s.failedWin := rfl
@[simp] theorem State.sramWrite_downPorts (s : State) (a : Nat) (bs : List Byte) : (s.sramWrite a bs).downPorts = s.downPorts := rfl
@[simp] theorem State.sramWrite_outbox (s : State) (a : Nat) (bs : List Byte) : (s.sramWrite a bs).outbox = s.outbox := rfl
@[simp] theorem State.sramWrite_unsent (s : State) (a : Nat) (bs : List Byte) : (s.sramWrite a bs).unsent = s.unsent := rfl
@[simp] theorem State.sramWrite_pendResp (s : State) (a : Nat) (bs : List Byte) : (s.sramWrite a bs).pendResp = s.pendResp := rfl
@[simp] theorem State.sramWrite_xheld (s : State) (a : Nat) (bs : List Byte) : (s.sramWrite a bs).xheld = s.xheld := rfl
@[simp] theorem State.sramWrite_fwds (s : State) (a : Nat) (bs : List Byte) : (s.sramWrite a bs).fwds = s.fwds := rfl
@[simp] theorem State.sramWrite_splits (s : State) (a : Nat) (bs : List Byte) : (s.sramWrite a bs).splits = s.splits := rfl
@[simp] theorem State.sramWrite_ingress (s : State) (a : Nat) (bs : List Byte) : (s.sramWrite a bs).ingress = s.ingress := rfl
@[simp] theorem State.sramWrite_intake (s : State) (a : Nat) (bs : List Byte) : (s.sramWrite a bs).intake = s.intake := rfl
@[simp] theorem State.sramWrite_torn (s : State) (a : Nat) (bs : List Byte) : (s.sramWrite a bs).torn = s.torn := rfl
@[simp] theorem State.sramWrite_stats (s : State) (a : Nat) (bs : List Byte) : (s.sramWrite a bs).stats = s.stats := rfl
@[simp] theorem State.sramWrite_boundary (s : State) (a : Nat) (bs : List Byte) : (s.sramWrite a bs).boundary = s.boundary := rfl
@[simp] theorem State.sramWrite_readyFrom (s : State) (a : Nat) (bs : List Byte) : (s.sramWrite a bs).readyFrom = s.readyFrom := rfl
@[simp] theorem State.sramWrite_appliedFrom (s : State) (a : Nat) (bs : List Byte) : (s.sramWrite a bs).appliedFrom = s.appliedFrom := rfl
@[simp] theorem State.sramWrite_doneBelow (s : State) (a : Nat) (bs : List Byte) : (s.sramWrite a bs).doneBelow = s.doneBelow := rfl
@[simp] theorem State.sramWrite_collCount (s : State) (a : Nat) (bs : List Byte) : (s.sramWrite a bs).collCount = s.collCount := rfl
@[simp] theorem State.sramWrite_optDirs (s : State) (a : Nat) (bs : List Byte) : (s.sramWrite a bs).optDirs = s.optDirs := rfl
@[simp] theorem State.sramWrite_darkSources (s : State) (a : Nat) (bs : List Byte) : (s.sramWrite a bs).darkSources = s.darkSources := rfl
@[simp] theorem State.sramWrite_offSources (s : State) (a : Nat) (bs : List Byte) : (s.sramWrite a bs).offSources = s.offSources := rfl
@[simp] theorem State.sramWrite_provs (s : State) (a : Nat) (bs : List Byte) : (s.sramWrite a bs).provs = s.provs := rfl
@[simp] theorem State.sramWrite_draining (s : State) (a : Nat) (bs : List Byte) : (s.sramWrite a bs).draining = s.draining := rfl
@[simp] theorem State.sramWrite_keys (s : State) (a : Nat) (bs : List Byte) : (s.sramWrite a bs).keys = s.keys := rfl
@[simp] theorem State.sramWrite_images (s : State) (a : Nat) (bs : List Byte) : (s.sramWrite a bs).images = s.images := rfl
@[simp] theorem State.sramWrite_nextMgmt (s : State) (a : Nat) (bs : List Byte) : (s.sramWrite a bs).nextMgmt = s.nextMgmt := rfl
@[simp] theorem State.sramWrite_badCores (s : State) (a : Nat) (bs : List Byte) : (s.sramWrite a bs).badCores = s.badCores := rfl
@[simp] theorem State.sramWrite_cpDown (s : State) (a : Nat) (bs : List Byte) : (s.sramWrite a bs).cpDown = s.cpDown := rfl
@[simp] theorem State.sramWrite_larkDown (s : State) (a : Nat) (bs : List Byte) : (s.sramWrite a bs).larkDown = s.larkDown := rfl
@[simp] theorem State.sramWrite_mgmtDown (s : State) (a : Nat) (bs : List Byte) : (s.sramWrite a bs).mgmtDown = s.mgmtDown := rfl
@[simp] theorem State.sramWrite_optHeld (s : State) (a : Nat) (bs : List Byte) : (s.sramWrite a bs).optHeld = s.optHeld := rfl
@[simp] theorem State.sramWrite_larkNext (s : State) (a : Nat) (bs : List Byte) : (s.sramWrite a bs).larkNext = s.larkNext := rfl
@[simp] theorem State.sramWrite_clockMHz (s : State) (a : Nat) (bs : List Byte) : (s.sramWrite a bs).clockMHz = s.clockMHz := rfl

@[simp] theorem State.dropOp_tick (s : State) (id : Nat) : (s.dropOp id).tick = s.tick := rfl
@[simp] theorem State.dropOp_turn (s : State) (id : Nat) : (s.dropOp id).turn = s.turn := rfl
@[simp] theorem State.dropOp_inbox (s : State) (id : Nat) : (s.dropOp id).inbox = s.inbox := rfl
@[simp] theorem State.dropOp_issue (s : State) (id : Nat) : (s.dropOp id).issue = s.issue := rfl
@[simp] theorem State.dropOp_cur (s : State) (id : Nat) : (s.dropOp id).cur = s.cur := rfl
@[simp] theorem State.dropOp_sheaf (s : State) (id : Nat) : (s.dropOp id).sheaf = s.sheaf := rfl
@[simp] theorem State.dropOp_burst (s : State) (id : Nat) : (s.dropOp id).burst = s.burst := rfl
@[simp] theorem State.dropOp_looked (s : State) (id : Nat) : (s.dropOp id).looked = s.looked := rfl
@[simp] theorem State.dropOp_curQ (s : State) (id : Nat) : (s.dropOp id).curQ = s.curQ := rfl
@[simp] theorem State.dropOp_curSlot (s : State) (id : Nat) : (s.dropOp id).curSlot = s.curSlot := rfl
@[simp] theorem State.dropOp_unitLast (s : State) (id : Nat) : (s.dropOp id).unitLast = s.unitLast := rfl
@[simp] theorem State.dropOp_nextId (s : State) (id : Nat) : (s.dropOp id).nextId = s.nextId := rfl
@[simp] theorem State.dropOp_cycle (s : State) (id : Nat) : (s.dropOp id).cycle = s.cycle := rfl
@[simp] theorem State.dropOp_groups (s : State) (id : Nat) : (s.dropOp id).groups = s.groups := rfl
@[simp] theorem State.dropOp_cores (s : State) (id : Nat) : (s.dropOp id).cores = s.cores := rfl
@[simp] theorem State.dropOp_launches (s : State) (id : Nat) : (s.dropOp id).launches = s.launches := rfl
@[simp] theorem State.dropOp_queues (s : State) (id : Nat) : (s.dropOp id).queues = s.queues := rfl
@[simp] theorem State.dropOp_pads (s : State) (id : Nat) : (s.dropOp id).pads = s.pads := rfl
@[simp] theorem State.dropOp_qlast (s : State) (id : Nat) : (s.dropOp id).qlast = s.qlast := rfl
@[simp] theorem State.dropOp_sram (s : State) (id : Nat) : (s.dropOp id).sram = s.sram := rfl
@[simp] theorem State.dropOp_far (s : State) (id : Nat) : (s.dropOp id).far = s.far := rfl
@[simp] theorem State.dropOp_hostMem (s : State) (id : Nat) : (s.dropOp id).hostMem = s.hostMem := rfl
@[simp] theorem State.dropOp_sramErr (s : State) (id : Nat) : (s.dropOp id).sramErr = s.sramErr := rfl
@[simp] theorem State.dropOp_farErr (s : State) (id : Nat) : (s.dropOp id).farErr = s.farErr := rfl
@[simp] theorem State.dropOp_meta_ (s : State) (id : Nat) : (s.dropOp id).meta_ = s.meta_ := rfl
@[simp] theorem State.dropOp_sectorKey (s : State) (id : Nat) : (s.dropOp id).sectorKey = s.sectorKey := rfl
@[simp] theorem State.dropOp_tlb (s : State) (id : Nat) : (s.dropOp id).tlb = s.tlb := rfl
@[simp] theorem State.dropOp_invals (s : State) (id : Nat) : (s.dropOp id).invals = s.invals := rfl
@[simp] theorem State.dropOp_asids (s : State) (id : Nat) : (s.dropOp id).asids = s.asids := rfl
@[simp] theorem State.dropOp_binds (s : State) (id : Nat) : (s.dropOp id).binds = s.binds := rfl
@[simp] theorem State.dropOp_regs (s : State) (id : Nat) : (s.dropOp id).regs = s.regs := rfl
@[simp] theorem State.dropOp_placed (s : State) (id : Nat) : (s.dropOp id).placed = s.placed := rfl
@[simp] theorem State.dropOp_irqs (s : State) (id : Nat) : (s.dropOp id).irqs = s.irqs := rfl
@[simp] theorem State.dropOp_msix (s : State) (id : Nat) : (s.dropOp id).msix = s.msix := rfl
@[simp] theorem State.dropOp_pba (s : State) (id : Nat) : (s.dropOp id).pba = s.pba := rfl
@[simp] theorem State.dropOp_dbgWait (s : State) (id : Nat) : (s.dropOp id).dbgWait = s.dbgWait := rfl
@[simp] theorem State.dropOp_hostRead (s : State) (id : Nat) : (s.dropOp id).hostRead = s.hostRead := rfl
@[simp] theorem State.dropOp_chains (s : State) (id : Nat) : (s.dropOp id).chains = s.chains := rfl
@[simp] theorem State.dropOp_slots (s : State) (id : Nat) : (s.dropOp id).slots = s.slots := rfl
@[simp] theorem State.dropOp_fifos (s : State) (id : Nat) : (s.dropOp id).fifos = s.fifos := rfl
@[simp] theorem State.dropOp_lanes (s : State) (id : Nat) : (s.dropOp id).lanes = s.lanes := rfl
@[simp] theorem State.dropOp_failedWin (s : State) (id : Nat) : (s.dropOp id).failedWin = s.failedWin := rfl
@[simp] theorem State.dropOp_downPorts (s : State) (id : Nat) : (s.dropOp id).downPorts = s.downPorts := rfl
@[simp] theorem State.dropOp_outbox (s : State) (id : Nat) : (s.dropOp id).outbox = s.outbox := rfl
@[simp] theorem State.dropOp_unsent (s : State) (id : Nat) : (s.dropOp id).unsent = s.unsent := rfl
@[simp] theorem State.dropOp_pendResp (s : State) (id : Nat) : (s.dropOp id).pendResp = s.pendResp := rfl
@[simp] theorem State.dropOp_xheld (s : State) (id : Nat) : (s.dropOp id).xheld = s.xheld := rfl
@[simp] theorem State.dropOp_fwds (s : State) (id : Nat) : (s.dropOp id).fwds = s.fwds := rfl
@[simp] theorem State.dropOp_splits (s : State) (id : Nat) : (s.dropOp id).splits = s.splits := rfl
@[simp] theorem State.dropOp_ingress (s : State) (id : Nat) : (s.dropOp id).ingress = s.ingress := rfl
@[simp] theorem State.dropOp_intake (s : State) (id : Nat) : (s.dropOp id).intake = s.intake := rfl
@[simp] theorem State.dropOp_torn (s : State) (id : Nat) : (s.dropOp id).torn = s.torn := rfl
@[simp] theorem State.dropOp_stats (s : State) (id : Nat) : (s.dropOp id).stats = s.stats := rfl
@[simp] theorem State.dropOp_boundary (s : State) (id : Nat) : (s.dropOp id).boundary = s.boundary := rfl
@[simp] theorem State.dropOp_readyFrom (s : State) (id : Nat) : (s.dropOp id).readyFrom = s.readyFrom := rfl
@[simp] theorem State.dropOp_appliedFrom (s : State) (id : Nat) : (s.dropOp id).appliedFrom = s.appliedFrom := rfl
@[simp] theorem State.dropOp_doneBelow (s : State) (id : Nat) : (s.dropOp id).doneBelow = s.doneBelow := rfl
@[simp] theorem State.dropOp_collCount (s : State) (id : Nat) : (s.dropOp id).collCount = s.collCount := rfl
@[simp] theorem State.dropOp_optDirs (s : State) (id : Nat) : (s.dropOp id).optDirs = s.optDirs := rfl
@[simp] theorem State.dropOp_darkSources (s : State) (id : Nat) : (s.dropOp id).darkSources = s.darkSources := rfl
@[simp] theorem State.dropOp_offSources (s : State) (id : Nat) : (s.dropOp id).offSources = s.offSources := rfl
@[simp] theorem State.dropOp_provs (s : State) (id : Nat) : (s.dropOp id).provs = s.provs := rfl
@[simp] theorem State.dropOp_draining (s : State) (id : Nat) : (s.dropOp id).draining = s.draining := rfl
@[simp] theorem State.dropOp_keys (s : State) (id : Nat) : (s.dropOp id).keys = s.keys := rfl
@[simp] theorem State.dropOp_images (s : State) (id : Nat) : (s.dropOp id).images = s.images := rfl
@[simp] theorem State.dropOp_nextMgmt (s : State) (id : Nat) : (s.dropOp id).nextMgmt = s.nextMgmt := rfl
@[simp] theorem State.dropOp_badCores (s : State) (id : Nat) : (s.dropOp id).badCores = s.badCores := rfl
@[simp] theorem State.dropOp_cpDown (s : State) (id : Nat) : (s.dropOp id).cpDown = s.cpDown := rfl
@[simp] theorem State.dropOp_larkDown (s : State) (id : Nat) : (s.dropOp id).larkDown = s.larkDown := rfl
@[simp] theorem State.dropOp_mgmtDown (s : State) (id : Nat) : (s.dropOp id).mgmtDown = s.mgmtDown := rfl
@[simp] theorem State.dropOp_optHeld (s : State) (id : Nat) : (s.dropOp id).optHeld = s.optHeld := rfl
@[simp] theorem State.dropOp_larkNext (s : State) (id : Nat) : (s.dropOp id).larkNext = s.larkNext := rfl
@[simp] theorem State.dropOp_clockMHz (s : State) (id : Nat) : (s.dropOp id).clockMHz = s.clockMHz := rfl

@[simp] theorem State.setOp_tick (s : State) (p : Op) : (s.setOp p).tick = s.tick := rfl
@[simp] theorem State.setOp_turn (s : State) (p : Op) : (s.setOp p).turn = s.turn := rfl
@[simp] theorem State.setOp_inbox (s : State) (p : Op) : (s.setOp p).inbox = s.inbox := rfl
@[simp] theorem State.setOp_issue (s : State) (p : Op) : (s.setOp p).issue = s.issue := rfl
@[simp] theorem State.setOp_cur (s : State) (p : Op) : (s.setOp p).cur = s.cur := rfl
@[simp] theorem State.setOp_sheaf (s : State) (p : Op) : (s.setOp p).sheaf = s.sheaf := rfl
@[simp] theorem State.setOp_burst (s : State) (p : Op) : (s.setOp p).burst = s.burst := rfl
@[simp] theorem State.setOp_looked (s : State) (p : Op) : (s.setOp p).looked = s.looked := rfl
@[simp] theorem State.setOp_curQ (s : State) (p : Op) : (s.setOp p).curQ = s.curQ := rfl
@[simp] theorem State.setOp_curSlot (s : State) (p : Op) : (s.setOp p).curSlot = s.curSlot := rfl
@[simp] theorem State.setOp_unitLast (s : State) (p : Op) : (s.setOp p).unitLast = s.unitLast := rfl
@[simp] theorem State.setOp_nextId (s : State) (p : Op) : (s.setOp p).nextId = s.nextId := rfl
@[simp] theorem State.setOp_cycle (s : State) (p : Op) : (s.setOp p).cycle = s.cycle := rfl
@[simp] theorem State.setOp_groups (s : State) (p : Op) : (s.setOp p).groups = s.groups := rfl
@[simp] theorem State.setOp_cores (s : State) (p : Op) : (s.setOp p).cores = s.cores := rfl
@[simp] theorem State.setOp_launches (s : State) (p : Op) : (s.setOp p).launches = s.launches := rfl
@[simp] theorem State.setOp_queues (s : State) (p : Op) : (s.setOp p).queues = s.queues := rfl
@[simp] theorem State.setOp_pads (s : State) (p : Op) : (s.setOp p).pads = s.pads := rfl
@[simp] theorem State.setOp_qlast (s : State) (p : Op) : (s.setOp p).qlast = s.qlast := rfl
@[simp] theorem State.setOp_sram (s : State) (p : Op) : (s.setOp p).sram = s.sram := rfl
@[simp] theorem State.setOp_far (s : State) (p : Op) : (s.setOp p).far = s.far := rfl
@[simp] theorem State.setOp_hostMem (s : State) (p : Op) : (s.setOp p).hostMem = s.hostMem := rfl
@[simp] theorem State.setOp_sramErr (s : State) (p : Op) : (s.setOp p).sramErr = s.sramErr := rfl
@[simp] theorem State.setOp_farErr (s : State) (p : Op) : (s.setOp p).farErr = s.farErr := rfl
@[simp] theorem State.setOp_meta_ (s : State) (p : Op) : (s.setOp p).meta_ = s.meta_ := rfl
@[simp] theorem State.setOp_sectorKey (s : State) (p : Op) : (s.setOp p).sectorKey = s.sectorKey := rfl
@[simp] theorem State.setOp_tlb (s : State) (p : Op) : (s.setOp p).tlb = s.tlb := rfl
@[simp] theorem State.setOp_invals (s : State) (p : Op) : (s.setOp p).invals = s.invals := rfl
@[simp] theorem State.setOp_asids (s : State) (p : Op) : (s.setOp p).asids = s.asids := rfl
@[simp] theorem State.setOp_binds (s : State) (p : Op) : (s.setOp p).binds = s.binds := rfl
@[simp] theorem State.setOp_regs (s : State) (p : Op) : (s.setOp p).regs = s.regs := rfl
@[simp] theorem State.setOp_placed (s : State) (p : Op) : (s.setOp p).placed = s.placed := rfl
@[simp] theorem State.setOp_irqs (s : State) (p : Op) : (s.setOp p).irqs = s.irqs := rfl
@[simp] theorem State.setOp_msix (s : State) (p : Op) : (s.setOp p).msix = s.msix := rfl
@[simp] theorem State.setOp_pba (s : State) (p : Op) : (s.setOp p).pba = s.pba := rfl
@[simp] theorem State.setOp_dbgWait (s : State) (p : Op) : (s.setOp p).dbgWait = s.dbgWait := rfl
@[simp] theorem State.setOp_hostRead (s : State) (p : Op) : (s.setOp p).hostRead = s.hostRead := rfl
@[simp] theorem State.setOp_chains (s : State) (p : Op) : (s.setOp p).chains = s.chains := rfl
@[simp] theorem State.setOp_slots (s : State) (p : Op) : (s.setOp p).slots = s.slots := rfl
@[simp] theorem State.setOp_fifos (s : State) (p : Op) : (s.setOp p).fifos = s.fifos := rfl
@[simp] theorem State.setOp_lanes (s : State) (p : Op) : (s.setOp p).lanes = s.lanes := rfl
@[simp] theorem State.setOp_failedWin (s : State) (p : Op) : (s.setOp p).failedWin = s.failedWin := rfl
@[simp] theorem State.setOp_downPorts (s : State) (p : Op) : (s.setOp p).downPorts = s.downPorts := rfl
@[simp] theorem State.setOp_outbox (s : State) (p : Op) : (s.setOp p).outbox = s.outbox := rfl
@[simp] theorem State.setOp_unsent (s : State) (p : Op) : (s.setOp p).unsent = s.unsent := rfl
@[simp] theorem State.setOp_pendResp (s : State) (p : Op) : (s.setOp p).pendResp = s.pendResp := rfl
@[simp] theorem State.setOp_xheld (s : State) (p : Op) : (s.setOp p).xheld = s.xheld := rfl
@[simp] theorem State.setOp_fwds (s : State) (p : Op) : (s.setOp p).fwds = s.fwds := rfl
@[simp] theorem State.setOp_splits (s : State) (p : Op) : (s.setOp p).splits = s.splits := rfl
@[simp] theorem State.setOp_ingress (s : State) (p : Op) : (s.setOp p).ingress = s.ingress := rfl
@[simp] theorem State.setOp_intake (s : State) (p : Op) : (s.setOp p).intake = s.intake := rfl
@[simp] theorem State.setOp_torn (s : State) (p : Op) : (s.setOp p).torn = s.torn := rfl
@[simp] theorem State.setOp_stats (s : State) (p : Op) : (s.setOp p).stats = s.stats := rfl
@[simp] theorem State.setOp_boundary (s : State) (p : Op) : (s.setOp p).boundary = s.boundary := rfl
@[simp] theorem State.setOp_readyFrom (s : State) (p : Op) : (s.setOp p).readyFrom = s.readyFrom := rfl
@[simp] theorem State.setOp_appliedFrom (s : State) (p : Op) : (s.setOp p).appliedFrom = s.appliedFrom := rfl
@[simp] theorem State.setOp_doneBelow (s : State) (p : Op) : (s.setOp p).doneBelow = s.doneBelow := rfl
@[simp] theorem State.setOp_collCount (s : State) (p : Op) : (s.setOp p).collCount = s.collCount := rfl
@[simp] theorem State.setOp_optDirs (s : State) (p : Op) : (s.setOp p).optDirs = s.optDirs := rfl
@[simp] theorem State.setOp_darkSources (s : State) (p : Op) : (s.setOp p).darkSources = s.darkSources := rfl
@[simp] theorem State.setOp_offSources (s : State) (p : Op) : (s.setOp p).offSources = s.offSources := rfl
@[simp] theorem State.setOp_provs (s : State) (p : Op) : (s.setOp p).provs = s.provs := rfl
@[simp] theorem State.setOp_draining (s : State) (p : Op) : (s.setOp p).draining = s.draining := rfl
@[simp] theorem State.setOp_keys (s : State) (p : Op) : (s.setOp p).keys = s.keys := rfl
@[simp] theorem State.setOp_images (s : State) (p : Op) : (s.setOp p).images = s.images := rfl
@[simp] theorem State.setOp_nextMgmt (s : State) (p : Op) : (s.setOp p).nextMgmt = s.nextMgmt := rfl
@[simp] theorem State.setOp_badCores (s : State) (p : Op) : (s.setOp p).badCores = s.badCores := rfl
@[simp] theorem State.setOp_cpDown (s : State) (p : Op) : (s.setOp p).cpDown = s.cpDown := rfl
@[simp] theorem State.setOp_larkDown (s : State) (p : Op) : (s.setOp p).larkDown = s.larkDown := rfl
@[simp] theorem State.setOp_mgmtDown (s : State) (p : Op) : (s.setOp p).mgmtDown = s.mgmtDown := rfl
@[simp] theorem State.setOp_optHeld (s : State) (p : Op) : (s.setOp p).optHeld = s.optHeld := rfl
@[simp] theorem State.setOp_larkNext (s : State) (p : Op) : (s.setOp p).larkNext = s.larkNext := rfl
@[simp] theorem State.setOp_clockMHz (s : State) (p : Op) : (s.setOp p).clockMHz = s.clockMHz := rfl

/-! ### Fields of a group -/

@[simp] theorem Group.setFibre_launch (x : Group) (f : Nat) (v : Fibre) : (x.setFibre f v).launch = x.launch := rfl
@[simp] theorem Group.setFibre_ctx (x : Group) (f : Nat) (v : Fibre) : (x.setFibre f v).ctx = x.ctx := rfl
@[simp] theorem Group.setFibre_lin (x : Group) (f : Nat) (v : Fibre) : (x.setFibre f v).lin = x.lin := rfl
@[simp] theorem Group.setFibre_lr (x : Group) (f : Nat) (v : Fibre) : (x.setFibre f v).lr = x.lr := rfl
@[simp] theorem Group.setFibre_loc (x : Group) (f : Nat) (v : Fibre) : (x.setFibre f v).loc = x.loc := rfl
@[simp] theorem Group.setFibre_masks (x : Group) (f : Nat) (v : Fibre) : (x.setFibre f v).masks = x.masks := rfl
@[simp] theorem Group.setFibre_arrived (x : Group) (f : Nat) (v : Fibre) : (x.setFibre f v).arrived = x.arrived := rfl
@[simp] theorem Group.setFibre_rvs (x : Group) (f : Nat) (v : Fibre) : (x.setFibre f v).rvs = x.rvs := rfl
@[simp] theorem Group.setFibre_bars (x : Group) (f : Nat) (v : Fibre) : (x.setFibre f v).bars = x.bars := rfl
@[simp] theorem Group.setFibre_cbar (x : Group) (f : Nat) (v : Fibre) : (x.setFibre f v).cbar = x.cbar := rfl
@[simp] theorem Group.setFibre_tasks (x : Group) (f : Nat) (v : Fibre) : (x.setFibre f v).tasks = x.tasks := rfl
@[simp] theorem Group.setFibre_alloc (x : Group) (f : Nat) (v : Fibre) : (x.setFibre f v).alloc = x.alloc := rfl
@[simp] theorem Group.setFibre_pool (x : Group) (f : Nat) (v : Fibre) : (x.setFibre f v).pool = x.pool := rfl
@[simp] theorem Group.setFibre_claims (x : Group) (f : Nat) (v : Fibre) : (x.setFibre f v).claims = x.claims := rfl
@[simp] theorem Group.setFibre_scratch (x : Group) (f : Nat) (v : Fibre) : (x.setFibre f v).scratch = x.scratch := rfl
@[simp] theorem Group.setFibre_scratchErr (x : Group) (f : Nat) (v : Fibre) : (x.setFibre f v).scratchErr = x.scratchErr := rfl
@[simp] theorem Group.setFibre_bufs (x : Group) (f : Nat) (v : Fibre) : (x.setFibre f v).bufs = x.bufs := rfl
@[simp] theorem Group.setFibre_trans (x : Group) (f : Nat) (v : Fibre) : (x.setFibre f v).trans = x.trans := rfl
@[simp] theorem Group.setFibre_active (x : Group) (f : Nat) (v : Fibre) : (x.setFibre f v).active = x.active := rfl
@[simp] theorem Group.setFibre_shadow (x : Group) (f : Nat) (v : Fibre) : (x.setFibre f v).shadow = x.shadow := rfl
@[simp] theorem Group.setFibre_pseq (x : Group) (f : Nat) (v : Fibre) : (x.setFibre f v).pseq = x.pseq := rfl
@[simp] theorem Group.setFibre_tiles (x : Group) (f : Nat) (v : Fibre) : (x.setFibre f v).tiles = x.tiles := rfl
@[simp] theorem Group.setFibre_tileErr (x : Group) (f : Nat) (v : Fibre) : (x.setFibre f v).tileErr = x.tileErr := rfl
@[simp] theorem Group.setFibre_banks (x : Group) (f : Nat) (v : Fibre) : (x.setFibre f v).banks = x.banks := rfl
@[simp] theorem Group.setFibre_wa (x : Group) (f : Nat) (v : Fibre) : (x.setFibre f v).wa = x.wa := rfl
@[simp] theorem Group.setFibre_abars (x : Group) (f : Nat) (v : Fibre) : (x.setFibre f v).abars = x.abars := rfl
@[simp] theorem Group.setFibre_hint (x : Group) (f : Nat) (v : Fibre) : (x.setFibre f v).hint = x.hint := rfl
@[simp] theorem Group.setFibre_subs (x : Group) (f : Nat) (v : Fibre) : (x.setFibre f v).subs = x.subs := rfl
@[simp] theorem Group.setFibre_gslot (x : Group) (f : Nat) (v : Fibre) : (x.setFibre f v).gslot = x.gslot := rfl
@[simp] theorem Group.setFibre_slot (x : Group) (f : Nat) (v : Fibre) : (x.setFibre f v).slot = x.slot := rfl
@[simp] theorem Group.setFibre_lastCore (x : Group) (f : Nat) (v : Fibre) : (x.setFibre f v).lastCore = x.lastCore := rfl
@[simp] theorem Group.setFibre_stopping (x : Group) (f : Nat) (v : Fibre) : (x.setFibre f v).stopping = x.stopping := rfl
@[simp] theorem Group.setFibre_forked (x : Group) (f : Nat) (v : Fibre) : (x.setFibre f v).forked = x.forked := rfl
@[simp] theorem Group.setFibre_swapped (x : Group) (f : Nat) (v : Fibre) : (x.setFibre f v).swapped = x.swapped := rfl
@[simp] theorem Group.setFibre_faulted (x : Group) (f : Nat) (v : Fibre) : (x.setFibre f v).faulted = x.faulted := rfl
@[simp] theorem Group.setFibre_fresh (x : Group) (f : Nat) (v : Fibre) : (x.setFibre f v).fresh = x.fresh := rfl
@[simp] theorem Group.setFibre_released (x : Group) (f : Nat) (v : Fibre) : (x.setFibre f v).released = x.released := rfl
@[simp] theorem Group.setFibre_stuck (x : Group) (f : Nat) (v : Fibre) : (x.setFibre f v).stuck = x.stuck := rfl
@[simp] theorem Group.setFibre_dbg (x : Group) (f : Nat) (v : Fibre) : (x.setFibre f v).dbg = x.dbg := rfl
@[simp] theorem Group.setFibre_wseed (x : Group) (f : Nat) (v : Fibre) : (x.setFibre f v).wseed = x.wseed := rfl

@[simp] theorem Group.mapFibres_launch (x : Group) (u : Nat → Fibre → Fibre) : (x.mapFibres u).launch = x.launch := rfl
@[simp] theorem Group.mapFibres_ctx (x : Group) (u : Nat → Fibre → Fibre) : (x.mapFibres u).ctx = x.ctx := rfl
@[simp] theorem Group.mapFibres_lin (x : Group) (u : Nat → Fibre → Fibre) : (x.mapFibres u).lin = x.lin := rfl
@[simp] theorem Group.mapFibres_lr (x : Group) (u : Nat → Fibre → Fibre) : (x.mapFibres u).lr = x.lr := rfl
@[simp] theorem Group.mapFibres_loc (x : Group) (u : Nat → Fibre → Fibre) : (x.mapFibres u).loc = x.loc := rfl
@[simp] theorem Group.mapFibres_masks (x : Group) (u : Nat → Fibre → Fibre) : (x.mapFibres u).masks = x.masks := rfl
@[simp] theorem Group.mapFibres_arrived (x : Group) (u : Nat → Fibre → Fibre) : (x.mapFibres u).arrived = x.arrived := rfl
@[simp] theorem Group.mapFibres_rvs (x : Group) (u : Nat → Fibre → Fibre) : (x.mapFibres u).rvs = x.rvs := rfl
@[simp] theorem Group.mapFibres_bars (x : Group) (u : Nat → Fibre → Fibre) : (x.mapFibres u).bars = x.bars := rfl
@[simp] theorem Group.mapFibres_cbar (x : Group) (u : Nat → Fibre → Fibre) : (x.mapFibres u).cbar = x.cbar := rfl
@[simp] theorem Group.mapFibres_tasks (x : Group) (u : Nat → Fibre → Fibre) : (x.mapFibres u).tasks = x.tasks := rfl
@[simp] theorem Group.mapFibres_alloc (x : Group) (u : Nat → Fibre → Fibre) : (x.mapFibres u).alloc = x.alloc := rfl
@[simp] theorem Group.mapFibres_pool (x : Group) (u : Nat → Fibre → Fibre) : (x.mapFibres u).pool = x.pool := rfl
@[simp] theorem Group.mapFibres_claims (x : Group) (u : Nat → Fibre → Fibre) : (x.mapFibres u).claims = x.claims := rfl
@[simp] theorem Group.mapFibres_scratch (x : Group) (u : Nat → Fibre → Fibre) : (x.mapFibres u).scratch = x.scratch := rfl
@[simp] theorem Group.mapFibres_scratchErr (x : Group) (u : Nat → Fibre → Fibre) : (x.mapFibres u).scratchErr = x.scratchErr := rfl
@[simp] theorem Group.mapFibres_bufs (x : Group) (u : Nat → Fibre → Fibre) : (x.mapFibres u).bufs = x.bufs := rfl
@[simp] theorem Group.mapFibres_trans (x : Group) (u : Nat → Fibre → Fibre) : (x.mapFibres u).trans = x.trans := rfl
@[simp] theorem Group.mapFibres_active (x : Group) (u : Nat → Fibre → Fibre) : (x.mapFibres u).active = x.active := rfl
@[simp] theorem Group.mapFibres_shadow (x : Group) (u : Nat → Fibre → Fibre) : (x.mapFibres u).shadow = x.shadow := rfl
@[simp] theorem Group.mapFibres_pseq (x : Group) (u : Nat → Fibre → Fibre) : (x.mapFibres u).pseq = x.pseq := rfl
@[simp] theorem Group.mapFibres_tiles (x : Group) (u : Nat → Fibre → Fibre) : (x.mapFibres u).tiles = x.tiles := rfl
@[simp] theorem Group.mapFibres_tileErr (x : Group) (u : Nat → Fibre → Fibre) : (x.mapFibres u).tileErr = x.tileErr := rfl
@[simp] theorem Group.mapFibres_banks (x : Group) (u : Nat → Fibre → Fibre) : (x.mapFibres u).banks = x.banks := rfl
@[simp] theorem Group.mapFibres_wa (x : Group) (u : Nat → Fibre → Fibre) : (x.mapFibres u).wa = x.wa := rfl
@[simp] theorem Group.mapFibres_abars (x : Group) (u : Nat → Fibre → Fibre) : (x.mapFibres u).abars = x.abars := rfl
@[simp] theorem Group.mapFibres_hint (x : Group) (u : Nat → Fibre → Fibre) : (x.mapFibres u).hint = x.hint := rfl
@[simp] theorem Group.mapFibres_subs (x : Group) (u : Nat → Fibre → Fibre) : (x.mapFibres u).subs = x.subs := rfl
@[simp] theorem Group.mapFibres_gslot (x : Group) (u : Nat → Fibre → Fibre) : (x.mapFibres u).gslot = x.gslot := rfl
@[simp] theorem Group.mapFibres_slot (x : Group) (u : Nat → Fibre → Fibre) : (x.mapFibres u).slot = x.slot := rfl
@[simp] theorem Group.mapFibres_lastCore (x : Group) (u : Nat → Fibre → Fibre) : (x.mapFibres u).lastCore = x.lastCore := rfl
@[simp] theorem Group.mapFibres_stopping (x : Group) (u : Nat → Fibre → Fibre) : (x.mapFibres u).stopping = x.stopping := rfl
@[simp] theorem Group.mapFibres_forked (x : Group) (u : Nat → Fibre → Fibre) : (x.mapFibres u).forked = x.forked := rfl
@[simp] theorem Group.mapFibres_swapped (x : Group) (u : Nat → Fibre → Fibre) : (x.mapFibres u).swapped = x.swapped := rfl
@[simp] theorem Group.mapFibres_faulted (x : Group) (u : Nat → Fibre → Fibre) : (x.mapFibres u).faulted = x.faulted := rfl
@[simp] theorem Group.mapFibres_fresh (x : Group) (u : Nat → Fibre → Fibre) : (x.mapFibres u).fresh = x.fresh := rfl
@[simp] theorem Group.mapFibres_released (x : Group) (u : Nat → Fibre → Fibre) : (x.mapFibres u).released = x.released := rfl
@[simp] theorem Group.mapFibres_stuck (x : Group) (u : Nat → Fibre → Fibre) : (x.mapFibres u).stuck = x.stuck := rfl
@[simp] theorem Group.mapFibres_dbg (x : Group) (u : Nat → Fibre → Fibre) : (x.mapFibres u).dbg = x.dbg := rfl
@[simp] theorem Group.mapFibres_wseed (x : Group) (u : Nat → Fibre → Fibre) : (x.mapFibres u).wseed = x.wseed := rfl

@[simp] theorem Group.updFibre_launch (y : Group) (f : Nat) (u : Fibre → Fibre) : (y.updFibre f u).launch = y.launch := by
  unfold Group.updFibre; split <;> rfl
@[simp] theorem Group.updFibre_ctx (y : Group) (f : Nat) (u : Fibre → Fibre) : (y.updFibre f u).ctx = y.ctx := by
  unfold Group.updFibre; split <;> rfl
@[simp] theorem Group.updFibre_lin (y : Group) (f : Nat) (u : Fibre → Fibre) : (y.updFibre f u).lin = y.lin := by
  unfold Group.updFibre; split <;> rfl
@[simp] theorem Group.updFibre_lr (y : Group) (f : Nat) (u : Fibre → Fibre) : (y.updFibre f u).lr = y.lr := by
  unfold Group.updFibre; split <;> rfl
@[simp] theorem Group.updFibre_loc (y : Group) (f : Nat) (u : Fibre → Fibre) : (y.updFibre f u).loc = y.loc := by
  unfold Group.updFibre; split <;> rfl
@[simp] theorem Group.updFibre_masks (y : Group) (f : Nat) (u : Fibre → Fibre) : (y.updFibre f u).masks = y.masks := by
  unfold Group.updFibre; split <;> rfl
@[simp] theorem Group.updFibre_arrived (y : Group) (f : Nat) (u : Fibre → Fibre) : (y.updFibre f u).arrived = y.arrived := by
  unfold Group.updFibre; split <;> rfl
@[simp] theorem Group.updFibre_rvs (y : Group) (f : Nat) (u : Fibre → Fibre) : (y.updFibre f u).rvs = y.rvs := by
  unfold Group.updFibre; split <;> rfl
@[simp] theorem Group.updFibre_bars (y : Group) (f : Nat) (u : Fibre → Fibre) : (y.updFibre f u).bars = y.bars := by
  unfold Group.updFibre; split <;> rfl
@[simp] theorem Group.updFibre_cbar (y : Group) (f : Nat) (u : Fibre → Fibre) : (y.updFibre f u).cbar = y.cbar := by
  unfold Group.updFibre; split <;> rfl
@[simp] theorem Group.updFibre_tasks (y : Group) (f : Nat) (u : Fibre → Fibre) : (y.updFibre f u).tasks = y.tasks := by
  unfold Group.updFibre; split <;> rfl
@[simp] theorem Group.updFibre_alloc (y : Group) (f : Nat) (u : Fibre → Fibre) : (y.updFibre f u).alloc = y.alloc := by
  unfold Group.updFibre; split <;> rfl
@[simp] theorem Group.updFibre_pool (y : Group) (f : Nat) (u : Fibre → Fibre) : (y.updFibre f u).pool = y.pool := by
  unfold Group.updFibre; split <;> rfl
@[simp] theorem Group.updFibre_claims (y : Group) (f : Nat) (u : Fibre → Fibre) : (y.updFibre f u).claims = y.claims := by
  unfold Group.updFibre; split <;> rfl
@[simp] theorem Group.updFibre_scratch (y : Group) (f : Nat) (u : Fibre → Fibre) : (y.updFibre f u).scratch = y.scratch := by
  unfold Group.updFibre; split <;> rfl
@[simp] theorem Group.updFibre_scratchErr (y : Group) (f : Nat) (u : Fibre → Fibre) : (y.updFibre f u).scratchErr = y.scratchErr := by
  unfold Group.updFibre; split <;> rfl
@[simp] theorem Group.updFibre_bufs (y : Group) (f : Nat) (u : Fibre → Fibre) : (y.updFibre f u).bufs = y.bufs := by
  unfold Group.updFibre; split <;> rfl
@[simp] theorem Group.updFibre_trans (y : Group) (f : Nat) (u : Fibre → Fibre) : (y.updFibre f u).trans = y.trans := by
  unfold Group.updFibre; split <;> rfl
@[simp] theorem Group.updFibre_active (y : Group) (f : Nat) (u : Fibre → Fibre) : (y.updFibre f u).active = y.active := by
  unfold Group.updFibre; split <;> rfl
@[simp] theorem Group.updFibre_shadow (y : Group) (f : Nat) (u : Fibre → Fibre) : (y.updFibre f u).shadow = y.shadow := by
  unfold Group.updFibre; split <;> rfl
@[simp] theorem Group.updFibre_pseq (y : Group) (f : Nat) (u : Fibre → Fibre) : (y.updFibre f u).pseq = y.pseq := by
  unfold Group.updFibre; split <;> rfl
@[simp] theorem Group.updFibre_tiles (y : Group) (f : Nat) (u : Fibre → Fibre) : (y.updFibre f u).tiles = y.tiles := by
  unfold Group.updFibre; split <;> rfl
@[simp] theorem Group.updFibre_tileErr (y : Group) (f : Nat) (u : Fibre → Fibre) : (y.updFibre f u).tileErr = y.tileErr := by
  unfold Group.updFibre; split <;> rfl
@[simp] theorem Group.updFibre_banks (y : Group) (f : Nat) (u : Fibre → Fibre) : (y.updFibre f u).banks = y.banks := by
  unfold Group.updFibre; split <;> rfl
@[simp] theorem Group.updFibre_wa (y : Group) (f : Nat) (u : Fibre → Fibre) : (y.updFibre f u).wa = y.wa := by
  unfold Group.updFibre; split <;> rfl
@[simp] theorem Group.updFibre_abars (y : Group) (f : Nat) (u : Fibre → Fibre) : (y.updFibre f u).abars = y.abars := by
  unfold Group.updFibre; split <;> rfl
@[simp] theorem Group.updFibre_hint (y : Group) (f : Nat) (u : Fibre → Fibre) : (y.updFibre f u).hint = y.hint := by
  unfold Group.updFibre; split <;> rfl
@[simp] theorem Group.updFibre_subs (y : Group) (f : Nat) (u : Fibre → Fibre) : (y.updFibre f u).subs = y.subs := by
  unfold Group.updFibre; split <;> rfl
@[simp] theorem Group.updFibre_gslot (y : Group) (f : Nat) (u : Fibre → Fibre) : (y.updFibre f u).gslot = y.gslot := by
  unfold Group.updFibre; split <;> rfl
@[simp] theorem Group.updFibre_slot (y : Group) (f : Nat) (u : Fibre → Fibre) : (y.updFibre f u).slot = y.slot := by
  unfold Group.updFibre; split <;> rfl
@[simp] theorem Group.updFibre_lastCore (y : Group) (f : Nat) (u : Fibre → Fibre) : (y.updFibre f u).lastCore = y.lastCore := by
  unfold Group.updFibre; split <;> rfl
@[simp] theorem Group.updFibre_stopping (y : Group) (f : Nat) (u : Fibre → Fibre) : (y.updFibre f u).stopping = y.stopping := by
  unfold Group.updFibre; split <;> rfl
@[simp] theorem Group.updFibre_forked (y : Group) (f : Nat) (u : Fibre → Fibre) : (y.updFibre f u).forked = y.forked := by
  unfold Group.updFibre; split <;> rfl
@[simp] theorem Group.updFibre_swapped (y : Group) (f : Nat) (u : Fibre → Fibre) : (y.updFibre f u).swapped = y.swapped := by
  unfold Group.updFibre; split <;> rfl
@[simp] theorem Group.updFibre_faulted (y : Group) (f : Nat) (u : Fibre → Fibre) : (y.updFibre f u).faulted = y.faulted := by
  unfold Group.updFibre; split <;> rfl
@[simp] theorem Group.updFibre_fresh (y : Group) (f : Nat) (u : Fibre → Fibre) : (y.updFibre f u).fresh = y.fresh := by
  unfold Group.updFibre; split <;> rfl
@[simp] theorem Group.updFibre_released (y : Group) (f : Nat) (u : Fibre → Fibre) : (y.updFibre f u).released = y.released := by
  unfold Group.updFibre; split <;> rfl
@[simp] theorem Group.updFibre_stuck (y : Group) (f : Nat) (u : Fibre → Fibre) : (y.updFibre f u).stuck = y.stuck := by
  unfold Group.updFibre; split <;> rfl
@[simp] theorem Group.updFibre_dbg (y : Group) (f : Nat) (u : Fibre → Fibre) : (y.updFibre f u).dbg = y.dbg := by
  unfold Group.updFibre; split <;> rfl
@[simp] theorem Group.updFibre_wseed (y : Group) (f : Nat) (u : Fibre → Fibre) : (y.updFibre f u).wseed = y.wseed := by
  unfold Group.updFibre; split <;> rfl

/-! ### Fields of a fibre -/

@[simp] theorem Fibre.setR_pos (f : Fibre) (n : Nat) (v : Word) : (f.setR n v).pos = f.pos := rfl
@[simp] theorem Fibre.setR_preds (f : Fibre) (n : Nat) (v : Word) : (f.setR n v).preds = f.preds := rfl
@[simp] theorem Fibre.setR_idxr (f : Fibre) (n : Nat) (v : Word) : (f.setR n v).idxr = f.idxr := rfl
@[simp] theorem Fibre.setR_ctrs (f : Fibre) (n : Nat) (v : Word) : (f.setR n v).ctrs = f.ctrs := rfl
@[simp] theorem Fibre.setR_flags (f : Fibre) (n : Nat) (v : Word) : (f.setR n v).flags = f.flags := rfl
@[simp] theorem Fibre.setR_unseen (f : Fibre) (n : Nat) (v : Word) : (f.setR n v).unseen = f.unseen := rfl
@[simp] theorem Fibre.setR_tmask (f : Fibre) (n : Nat) (v : Word) : (f.setR n v).tmask = f.tmask := rfl
@[simp] theorem Fibre.setR_tcause (f : Fibre) (n : Nat) (v : Word) : (f.setR n v).tcause = f.tcause := rfl
@[simp] theorem Fibre.setR_tpc (f : Fibre) (n : Nat) (v : Word) : (f.setR n v).tpc = f.tpc := rfl
@[simp] theorem Fibre.setR_taddr (f : Fibre) (n : Nat) (v : Word) : (f.setR n v).taddr = f.taddr := rfl
@[simp] theorem Fibre.setR_tq (f : Fibre) (n : Nat) (v : Word) : (f.setR n v).tq = f.tq := rfl
@[simp] theorem Fibre.setR_slot (f : Fibre) (n : Nat) (v : Word) : (f.setR n v).slot = f.slot := rfl
@[simp] theorem Fibre.setR_budget (f : Fibre) (n : Nat) (v : Word) : (f.setR n v).budget = f.budget := rfl
@[simp] theorem Fibre.setR_bars (f : Fibre) (n : Nat) (v : Word) : (f.setR n v).bars = f.bars := rfl
@[simp] theorem Fibre.setR_stat (f : Fibre) (n : Nat) (v : Word) : (f.setR n v).stat = f.stat := rfl
@[simp] theorem Fibre.setR_absent (f : Fibre) (n : Nat) (v : Word) : (f.setR n v).absent = f.absent := rfl
@[simp] theorem Fibre.setR_since (f : Fibre) (n : Nat) (v : Word) : (f.setR n v).since = f.since := rfl
@[simp] theorem Fibre.setR_skip (f : Fibre) (n : Nat) (v : Word) : (f.setR n v).skip = f.skip := rfl
@[simp] theorem Fibre.setR_keep (f : Fibre) (n : Nat) (v : Word) : (f.setR n v).keep = f.keep := rfl
@[simp] theorem Fibre.setR_keeping (f : Fibre) (n : Nat) (v : Word) : (f.setR n v).keeping = f.keeping := rfl
@[simp] theorem Fibre.setR_stopped (f : Fibre) (n : Nat) (v : Word) : (f.setR n v).stopped = f.stopped := rfl
@[simp] theorem Fibre.setR_stop (f : Fibre) (n : Nat) (v : Word) : (f.setR n v).stop = f.stop := rfl
@[simp] theorem Fibre.setR_stepping (f : Fibre) (n : Nat) (v : Word) : (f.setR n v).stepping = f.stepping := rfl
@[simp] theorem Fibre.setR_wave (f : Fibre) (n : Nat) (v : Word) : (f.setR n v).wave = f.wave := rfl
@[simp] theorem Fibre.setR_inc (f : Fibre) (n : Nat) (v : Word) : (f.setR n v).inc = f.inc := rfl
@[simp] theorem Fibre.setR_grant (f : Fibre) (n : Nat) (v : Word) : (f.setR n v).grant = f.grant := rfl

@[simp] theorem Fibre.setIdx_pos (f : Fibre) (i : BitVec 2) (v : BitVec 16) : (f.setIdx i v).pos = f.pos := rfl
@[simp] theorem Fibre.setIdx_preds (f : Fibre) (i : BitVec 2) (v : BitVec 16) : (f.setIdx i v).preds = f.preds := rfl
@[simp] theorem Fibre.setIdx_regs (f : Fibre) (i : BitVec 2) (v : BitVec 16) : (f.setIdx i v).regs = f.regs := rfl
@[simp] theorem Fibre.setIdx_ctrs (f : Fibre) (i : BitVec 2) (v : BitVec 16) : (f.setIdx i v).ctrs = f.ctrs := rfl
@[simp] theorem Fibre.setIdx_flags (f : Fibre) (i : BitVec 2) (v : BitVec 16) : (f.setIdx i v).flags = f.flags := rfl
@[simp] theorem Fibre.setIdx_unseen (f : Fibre) (i : BitVec 2) (v : BitVec 16) : (f.setIdx i v).unseen = f.unseen := rfl
@[simp] theorem Fibre.setIdx_tmask (f : Fibre) (i : BitVec 2) (v : BitVec 16) : (f.setIdx i v).tmask = f.tmask := rfl
@[simp] theorem Fibre.setIdx_tcause (f : Fibre) (i : BitVec 2) (v : BitVec 16) : (f.setIdx i v).tcause = f.tcause := rfl
@[simp] theorem Fibre.setIdx_tpc (f : Fibre) (i : BitVec 2) (v : BitVec 16) : (f.setIdx i v).tpc = f.tpc := rfl
@[simp] theorem Fibre.setIdx_taddr (f : Fibre) (i : BitVec 2) (v : BitVec 16) : (f.setIdx i v).taddr = f.taddr := rfl
@[simp] theorem Fibre.setIdx_tq (f : Fibre) (i : BitVec 2) (v : BitVec 16) : (f.setIdx i v).tq = f.tq := rfl
@[simp] theorem Fibre.setIdx_slot (f : Fibre) (i : BitVec 2) (v : BitVec 16) : (f.setIdx i v).slot = f.slot := rfl
@[simp] theorem Fibre.setIdx_budget (f : Fibre) (i : BitVec 2) (v : BitVec 16) : (f.setIdx i v).budget = f.budget := rfl
@[simp] theorem Fibre.setIdx_bars (f : Fibre) (i : BitVec 2) (v : BitVec 16) : (f.setIdx i v).bars = f.bars := rfl
@[simp] theorem Fibre.setIdx_stat (f : Fibre) (i : BitVec 2) (v : BitVec 16) : (f.setIdx i v).stat = f.stat := rfl
@[simp] theorem Fibre.setIdx_absent (f : Fibre) (i : BitVec 2) (v : BitVec 16) : (f.setIdx i v).absent = f.absent := rfl
@[simp] theorem Fibre.setIdx_since (f : Fibre) (i : BitVec 2) (v : BitVec 16) : (f.setIdx i v).since = f.since := rfl
@[simp] theorem Fibre.setIdx_skip (f : Fibre) (i : BitVec 2) (v : BitVec 16) : (f.setIdx i v).skip = f.skip := rfl
@[simp] theorem Fibre.setIdx_keep (f : Fibre) (i : BitVec 2) (v : BitVec 16) : (f.setIdx i v).keep = f.keep := rfl
@[simp] theorem Fibre.setIdx_keeping (f : Fibre) (i : BitVec 2) (v : BitVec 16) : (f.setIdx i v).keeping = f.keeping := rfl
@[simp] theorem Fibre.setIdx_stopped (f : Fibre) (i : BitVec 2) (v : BitVec 16) : (f.setIdx i v).stopped = f.stopped := rfl
@[simp] theorem Fibre.setIdx_stop (f : Fibre) (i : BitVec 2) (v : BitVec 16) : (f.setIdx i v).stop = f.stop := rfl
@[simp] theorem Fibre.setIdx_stepping (f : Fibre) (i : BitVec 2) (v : BitVec 16) : (f.setIdx i v).stepping = f.stepping := rfl
@[simp] theorem Fibre.setIdx_wave (f : Fibre) (i : BitVec 2) (v : BitVec 16) : (f.setIdx i v).wave = f.wave := rfl
@[simp] theorem Fibre.setIdx_inc (f : Fibre) (i : BitVec 2) (v : BitVec 16) : (f.setIdx i v).inc = f.inc := rfl
@[simp] theorem Fibre.setIdx_grant (f : Fibre) (i : BitVec 2) (v : BitVec 16) : (f.setIdx i v).grant = f.grant := rfl

@[simp] theorem Fibre.setP_pos (f : Fibre) (n : BitVec 4) (b : Bool) : (f.setP n b).pos = f.pos := rfl
@[simp] theorem Fibre.setP_idxr (f : Fibre) (n : BitVec 4) (b : Bool) : (f.setP n b).idxr = f.idxr := rfl
@[simp] theorem Fibre.setP_regs (f : Fibre) (n : BitVec 4) (b : Bool) : (f.setP n b).regs = f.regs := rfl
@[simp] theorem Fibre.setP_ctrs (f : Fibre) (n : BitVec 4) (b : Bool) : (f.setP n b).ctrs = f.ctrs := rfl
@[simp] theorem Fibre.setP_flags (f : Fibre) (n : BitVec 4) (b : Bool) : (f.setP n b).flags = f.flags := rfl
@[simp] theorem Fibre.setP_unseen (f : Fibre) (n : BitVec 4) (b : Bool) : (f.setP n b).unseen = f.unseen := rfl
@[simp] theorem Fibre.setP_tmask (f : Fibre) (n : BitVec 4) (b : Bool) : (f.setP n b).tmask = f.tmask := rfl
@[simp] theorem Fibre.setP_tcause (f : Fibre) (n : BitVec 4) (b : Bool) : (f.setP n b).tcause = f.tcause := rfl
@[simp] theorem Fibre.setP_tpc (f : Fibre) (n : BitVec 4) (b : Bool) : (f.setP n b).tpc = f.tpc := rfl
@[simp] theorem Fibre.setP_taddr (f : Fibre) (n : BitVec 4) (b : Bool) : (f.setP n b).taddr = f.taddr := rfl
@[simp] theorem Fibre.setP_tq (f : Fibre) (n : BitVec 4) (b : Bool) : (f.setP n b).tq = f.tq := rfl
@[simp] theorem Fibre.setP_slot (f : Fibre) (n : BitVec 4) (b : Bool) : (f.setP n b).slot = f.slot := rfl
@[simp] theorem Fibre.setP_budget (f : Fibre) (n : BitVec 4) (b : Bool) : (f.setP n b).budget = f.budget := rfl
@[simp] theorem Fibre.setP_bars (f : Fibre) (n : BitVec 4) (b : Bool) : (f.setP n b).bars = f.bars := rfl
@[simp] theorem Fibre.setP_stat (f : Fibre) (n : BitVec 4) (b : Bool) : (f.setP n b).stat = f.stat := rfl
@[simp] theorem Fibre.setP_absent (f : Fibre) (n : BitVec 4) (b : Bool) : (f.setP n b).absent = f.absent := rfl
@[simp] theorem Fibre.setP_since (f : Fibre) (n : BitVec 4) (b : Bool) : (f.setP n b).since = f.since := rfl
@[simp] theorem Fibre.setP_skip (f : Fibre) (n : BitVec 4) (b : Bool) : (f.setP n b).skip = f.skip := rfl
@[simp] theorem Fibre.setP_keep (f : Fibre) (n : BitVec 4) (b : Bool) : (f.setP n b).keep = f.keep := rfl
@[simp] theorem Fibre.setP_keeping (f : Fibre) (n : BitVec 4) (b : Bool) : (f.setP n b).keeping = f.keeping := rfl
@[simp] theorem Fibre.setP_stopped (f : Fibre) (n : BitVec 4) (b : Bool) : (f.setP n b).stopped = f.stopped := rfl
@[simp] theorem Fibre.setP_stop (f : Fibre) (n : BitVec 4) (b : Bool) : (f.setP n b).stop = f.stop := rfl
@[simp] theorem Fibre.setP_stepping (f : Fibre) (n : BitVec 4) (b : Bool) : (f.setP n b).stepping = f.stepping := rfl
@[simp] theorem Fibre.setP_wave (f : Fibre) (n : BitVec 4) (b : Bool) : (f.setP n b).wave = f.wave := rfl
@[simp] theorem Fibre.setP_inc (f : Fibre) (n : BitVec 4) (b : Bool) : (f.setP n b).inc = f.inc := rfl
@[simp] theorem Fibre.setP_grant (f : Fibre) (n : BitVec 4) (b : Bool) : (f.setP n b).grant = f.grant := rfl

@[simp] theorem Fibre.setCtr_pos (f : Fibre) (k : BitVec 4) (v : BitVec 6) : (f.setCtr k v).pos = f.pos := rfl
@[simp] theorem Fibre.setCtr_preds (f : Fibre) (k : BitVec 4) (v : BitVec 6) : (f.setCtr k v).preds = f.preds := rfl
@[simp] theorem Fibre.setCtr_idxr (f : Fibre) (k : BitVec 4) (v : BitVec 6) : (f.setCtr k v).idxr = f.idxr := rfl
@[simp] theorem Fibre.setCtr_regs (f : Fibre) (k : BitVec 4) (v : BitVec 6) : (f.setCtr k v).regs = f.regs := rfl
@[simp] theorem Fibre.setCtr_flags (f : Fibre) (k : BitVec 4) (v : BitVec 6) : (f.setCtr k v).flags = f.flags := rfl
@[simp] theorem Fibre.setCtr_unseen (f : Fibre) (k : BitVec 4) (v : BitVec 6) : (f.setCtr k v).unseen = f.unseen := rfl
@[simp] theorem Fibre.setCtr_tmask (f : Fibre) (k : BitVec 4) (v : BitVec 6) : (f.setCtr k v).tmask = f.tmask := rfl
@[simp] theorem Fibre.setCtr_tcause (f : Fibre) (k : BitVec 4) (v : BitVec 6) : (f.setCtr k v).tcause = f.tcause := rfl
@[simp] theorem Fibre.setCtr_tpc (f : Fibre) (k : BitVec 4) (v : BitVec 6) : (f.setCtr k v).tpc = f.tpc := rfl
@[simp] theorem Fibre.setCtr_taddr (f : Fibre) (k : BitVec 4) (v : BitVec 6) : (f.setCtr k v).taddr = f.taddr := rfl
@[simp] theorem Fibre.setCtr_tq (f : Fibre) (k : BitVec 4) (v : BitVec 6) : (f.setCtr k v).tq = f.tq := rfl
@[simp] theorem Fibre.setCtr_slot (f : Fibre) (k : BitVec 4) (v : BitVec 6) : (f.setCtr k v).slot = f.slot := rfl
@[simp] theorem Fibre.setCtr_budget (f : Fibre) (k : BitVec 4) (v : BitVec 6) : (f.setCtr k v).budget = f.budget := rfl
@[simp] theorem Fibre.setCtr_bars (f : Fibre) (k : BitVec 4) (v : BitVec 6) : (f.setCtr k v).bars = f.bars := rfl
@[simp] theorem Fibre.setCtr_stat (f : Fibre) (k : BitVec 4) (v : BitVec 6) : (f.setCtr k v).stat = f.stat := rfl
@[simp] theorem Fibre.setCtr_absent (f : Fibre) (k : BitVec 4) (v : BitVec 6) : (f.setCtr k v).absent = f.absent := rfl
@[simp] theorem Fibre.setCtr_since (f : Fibre) (k : BitVec 4) (v : BitVec 6) : (f.setCtr k v).since = f.since := rfl
@[simp] theorem Fibre.setCtr_skip (f : Fibre) (k : BitVec 4) (v : BitVec 6) : (f.setCtr k v).skip = f.skip := rfl
@[simp] theorem Fibre.setCtr_keep (f : Fibre) (k : BitVec 4) (v : BitVec 6) : (f.setCtr k v).keep = f.keep := rfl
@[simp] theorem Fibre.setCtr_keeping (f : Fibre) (k : BitVec 4) (v : BitVec 6) : (f.setCtr k v).keeping = f.keeping := rfl
@[simp] theorem Fibre.setCtr_stopped (f : Fibre) (k : BitVec 4) (v : BitVec 6) : (f.setCtr k v).stopped = f.stopped := rfl
@[simp] theorem Fibre.setCtr_stop (f : Fibre) (k : BitVec 4) (v : BitVec 6) : (f.setCtr k v).stop = f.stop := rfl
@[simp] theorem Fibre.setCtr_stepping (f : Fibre) (k : BitVec 4) (v : BitVec 6) : (f.setCtr k v).stepping = f.stepping := rfl
@[simp] theorem Fibre.setCtr_wave (f : Fibre) (k : BitVec 4) (v : BitVec 6) : (f.setCtr k v).wave = f.wave := rfl
@[simp] theorem Fibre.setCtr_inc (f : Fibre) (k : BitVec 4) (v : BitVec 6) : (f.setCtr k v).inc = f.inc := rfl
@[simp] theorem Fibre.setCtr_grant (f : Fibre) (k : BitVec 4) (v : BitVec 6) : (f.setCtr k v).grant = f.grant := rfl

@[simp] theorem Fibre.addFlags_pos (f : Fibre) (x : BitVec 7) : (f.addFlags x).pos = f.pos := rfl
@[simp] theorem Fibre.addFlags_preds (f : Fibre) (x : BitVec 7) : (f.addFlags x).preds = f.preds := rfl
@[simp] theorem Fibre.addFlags_idxr (f : Fibre) (x : BitVec 7) : (f.addFlags x).idxr = f.idxr := rfl
@[simp] theorem Fibre.addFlags_regs (f : Fibre) (x : BitVec 7) : (f.addFlags x).regs = f.regs := rfl
@[simp] theorem Fibre.addFlags_ctrs (f : Fibre) (x : BitVec 7) : (f.addFlags x).ctrs = f.ctrs := rfl
@[simp] theorem Fibre.addFlags_unseen (f : Fibre) (x : BitVec 7) : (f.addFlags x).unseen = f.unseen := rfl
@[simp] theorem Fibre.addFlags_tmask (f : Fibre) (x : BitVec 7) : (f.addFlags x).tmask = f.tmask := rfl
@[simp] theorem Fibre.addFlags_tcause (f : Fibre) (x : BitVec 7) : (f.addFlags x).tcause = f.tcause := rfl
@[simp] theorem Fibre.addFlags_tpc (f : Fibre) (x : BitVec 7) : (f.addFlags x).tpc = f.tpc := rfl
@[simp] theorem Fibre.addFlags_taddr (f : Fibre) (x : BitVec 7) : (f.addFlags x).taddr = f.taddr := rfl
@[simp] theorem Fibre.addFlags_tq (f : Fibre) (x : BitVec 7) : (f.addFlags x).tq = f.tq := rfl
@[simp] theorem Fibre.addFlags_slot (f : Fibre) (x : BitVec 7) : (f.addFlags x).slot = f.slot := rfl
@[simp] theorem Fibre.addFlags_budget (f : Fibre) (x : BitVec 7) : (f.addFlags x).budget = f.budget := rfl
@[simp] theorem Fibre.addFlags_bars (f : Fibre) (x : BitVec 7) : (f.addFlags x).bars = f.bars := rfl
@[simp] theorem Fibre.addFlags_stat (f : Fibre) (x : BitVec 7) : (f.addFlags x).stat = f.stat := rfl
@[simp] theorem Fibre.addFlags_absent (f : Fibre) (x : BitVec 7) : (f.addFlags x).absent = f.absent := rfl
@[simp] theorem Fibre.addFlags_since (f : Fibre) (x : BitVec 7) : (f.addFlags x).since = f.since := rfl
@[simp] theorem Fibre.addFlags_skip (f : Fibre) (x : BitVec 7) : (f.addFlags x).skip = f.skip := rfl
@[simp] theorem Fibre.addFlags_keep (f : Fibre) (x : BitVec 7) : (f.addFlags x).keep = f.keep := rfl
@[simp] theorem Fibre.addFlags_keeping (f : Fibre) (x : BitVec 7) : (f.addFlags x).keeping = f.keeping := rfl
@[simp] theorem Fibre.addFlags_stopped (f : Fibre) (x : BitVec 7) : (f.addFlags x).stopped = f.stopped := rfl
@[simp] theorem Fibre.addFlags_stop (f : Fibre) (x : BitVec 7) : (f.addFlags x).stop = f.stop := rfl
@[simp] theorem Fibre.addFlags_stepping (f : Fibre) (x : BitVec 7) : (f.addFlags x).stepping = f.stepping := rfl
@[simp] theorem Fibre.addFlags_wave (f : Fibre) (x : BitVec 7) : (f.addFlags x).wave = f.wave := rfl
@[simp] theorem Fibre.addFlags_inc (f : Fibre) (x : BitVec 7) : (f.addFlags x).inc = f.inc := rfl
@[simp] theorem Fibre.addFlags_grant (f : Fibre) (x : BitVec 7) : (f.addFlags x).grant = f.grant := rfl

@[simp] theorem Fibre.advance_preds (f : Fibre) (c : Nat) : (f.advance c).preds = f.preds := rfl
@[simp] theorem Fibre.advance_idxr (f : Fibre) (c : Nat) : (f.advance c).idxr = f.idxr := rfl
@[simp] theorem Fibre.advance_regs (f : Fibre) (c : Nat) : (f.advance c).regs = f.regs := rfl
@[simp] theorem Fibre.advance_ctrs (f : Fibre) (c : Nat) : (f.advance c).ctrs = f.ctrs := rfl
@[simp] theorem Fibre.advance_flags (f : Fibre) (c : Nat) : (f.advance c).flags = f.flags := rfl
@[simp] theorem Fibre.advance_unseen (f : Fibre) (c : Nat) : (f.advance c).unseen = f.unseen := rfl
@[simp] theorem Fibre.advance_tmask (f : Fibre) (c : Nat) : (f.advance c).tmask = f.tmask := rfl
@[simp] theorem Fibre.advance_tcause (f : Fibre) (c : Nat) : (f.advance c).tcause = f.tcause := rfl
@[simp] theorem Fibre.advance_tpc (f : Fibre) (c : Nat) : (f.advance c).tpc = f.tpc := rfl
@[simp] theorem Fibre.advance_taddr (f : Fibre) (c : Nat) : (f.advance c).taddr = f.taddr := rfl
@[simp] theorem Fibre.advance_tq (f : Fibre) (c : Nat) : (f.advance c).tq = f.tq := rfl
@[simp] theorem Fibre.advance_slot (f : Fibre) (c : Nat) : (f.advance c).slot = f.slot := rfl
@[simp] theorem Fibre.advance_budget (f : Fibre) (c : Nat) : (f.advance c).budget = f.budget := rfl
@[simp] theorem Fibre.advance_bars (f : Fibre) (c : Nat) : (f.advance c).bars = f.bars := rfl
@[simp] theorem Fibre.advance_absent (f : Fibre) (c : Nat) : (f.advance c).absent = f.absent := rfl
@[simp] theorem Fibre.advance_skip (f : Fibre) (c : Nat) : (f.advance c).skip = f.skip := rfl
@[simp] theorem Fibre.advance_stopped (f : Fibre) (c : Nat) : (f.advance c).stopped = f.stopped := rfl
@[simp] theorem Fibre.advance_wave (f : Fibre) (c : Nat) : (f.advance c).wave = f.wave := rfl
@[simp] theorem Fibre.advance_inc (f : Fibre) (c : Nat) : (f.advance c).inc = f.inc := rfl

@[simp] theorem Fibre.setN_pos (f : Fibre) (n k v : Nat) : (f.setN n k v).pos = f.pos := by
  induction k generalizing f n v with
  | zero => rfl
  | succ k ih => exact ih _ _ _
@[simp] theorem Fibre.setN_preds (f : Fibre) (n k v : Nat) : (f.setN n k v).preds = f.preds := by
  induction k generalizing f n v with
  | zero => rfl
  | succ k ih => exact ih _ _ _
@[simp] theorem Fibre.setN_idxr (f : Fibre) (n k v : Nat) : (f.setN n k v).idxr = f.idxr := by
  induction k generalizing f n v with
  | zero => rfl
  | succ k ih => exact ih _ _ _
@[simp] theorem Fibre.setN_ctrs (f : Fibre) (n k v : Nat) : (f.setN n k v).ctrs = f.ctrs := by
  induction k generalizing f n v with
  | zero => rfl
  | succ k ih => exact ih _ _ _
@[simp] theorem Fibre.setN_flags (f : Fibre) (n k v : Nat) : (f.setN n k v).flags = f.flags := by
  induction k generalizing f n v with
  | zero => rfl
  | succ k ih => exact ih _ _ _
@[simp] theorem Fibre.setN_unseen (f : Fibre) (n k v : Nat) : (f.setN n k v).unseen = f.unseen := by
  induction k generalizing f n v with
  | zero => rfl
  | succ k ih => exact ih _ _ _
@[simp] theorem Fibre.setN_tmask (f : Fibre) (n k v : Nat) : (f.setN n k v).tmask = f.tmask := by
  induction k generalizing f n v with
  | zero => rfl
  | succ k ih => exact ih _ _ _
@[simp] theorem Fibre.setN_tcause (f : Fibre) (n k v : Nat) : (f.setN n k v).tcause = f.tcause := by
  induction k generalizing f n v with
  | zero => rfl
  | succ k ih => exact ih _ _ _
@[simp] theorem Fibre.setN_tpc (f : Fibre) (n k v : Nat) : (f.setN n k v).tpc = f.tpc := by
  induction k generalizing f n v with
  | zero => rfl
  | succ k ih => exact ih _ _ _
@[simp] theorem Fibre.setN_taddr (f : Fibre) (n k v : Nat) : (f.setN n k v).taddr = f.taddr := by
  induction k generalizing f n v with
  | zero => rfl
  | succ k ih => exact ih _ _ _
@[simp] theorem Fibre.setN_tq (f : Fibre) (n k v : Nat) : (f.setN n k v).tq = f.tq := by
  induction k generalizing f n v with
  | zero => rfl
  | succ k ih => exact ih _ _ _
@[simp] theorem Fibre.setN_slot (f : Fibre) (n k v : Nat) : (f.setN n k v).slot = f.slot := by
  induction k generalizing f n v with
  | zero => rfl
  | succ k ih => exact ih _ _ _
@[simp] theorem Fibre.setN_budget (f : Fibre) (n k v : Nat) : (f.setN n k v).budget = f.budget := by
  induction k generalizing f n v with
  | zero => rfl
  | succ k ih => exact ih _ _ _
@[simp] theorem Fibre.setN_bars (f : Fibre) (n k v : Nat) : (f.setN n k v).bars = f.bars := by
  induction k generalizing f n v with
  | zero => rfl
  | succ k ih => exact ih _ _ _
@[simp] theorem Fibre.setN_stat (f : Fibre) (n k v : Nat) : (f.setN n k v).stat = f.stat := by
  induction k generalizing f n v with
  | zero => rfl
  | succ k ih => exact ih _ _ _
@[simp] theorem Fibre.setN_absent (f : Fibre) (n k v : Nat) : (f.setN n k v).absent = f.absent := by
  induction k generalizing f n v with
  | zero => rfl
  | succ k ih => exact ih _ _ _
@[simp] theorem Fibre.setN_since (f : Fibre) (n k v : Nat) : (f.setN n k v).since = f.since := by
  induction k generalizing f n v with
  | zero => rfl
  | succ k ih => exact ih _ _ _
@[simp] theorem Fibre.setN_skip (f : Fibre) (n k v : Nat) : (f.setN n k v).skip = f.skip := by
  induction k generalizing f n v with
  | zero => rfl
  | succ k ih => exact ih _ _ _
@[simp] theorem Fibre.setN_keep (f : Fibre) (n k v : Nat) : (f.setN n k v).keep = f.keep := by
  induction k generalizing f n v with
  | zero => rfl
  | succ k ih => exact ih _ _ _
@[simp] theorem Fibre.setN_keeping (f : Fibre) (n k v : Nat) : (f.setN n k v).keeping = f.keeping := by
  induction k generalizing f n v with
  | zero => rfl
  | succ k ih => exact ih _ _ _
@[simp] theorem Fibre.setN_stopped (f : Fibre) (n k v : Nat) : (f.setN n k v).stopped = f.stopped := by
  induction k generalizing f n v with
  | zero => rfl
  | succ k ih => exact ih _ _ _
@[simp] theorem Fibre.setN_stop (f : Fibre) (n k v : Nat) : (f.setN n k v).stop = f.stop := by
  induction k generalizing f n v with
  | zero => rfl
  | succ k ih => exact ih _ _ _
@[simp] theorem Fibre.setN_stepping (f : Fibre) (n k v : Nat) : (f.setN n k v).stepping = f.stepping := by
  induction k generalizing f n v with
  | zero => rfl
  | succ k ih => exact ih _ _ _
@[simp] theorem Fibre.setN_wave (f : Fibre) (n k v : Nat) : (f.setN n k v).wave = f.wave := by
  induction k generalizing f n v with
  | zero => rfl
  | succ k ih => exact ih _ _ _
@[simp] theorem Fibre.setN_inc (f : Fibre) (n k v : Nat) : (f.setN n k v).inc = f.inc := by
  induction k generalizing f n v with
  | zero => rfl
  | succ k ih => exact ih _ _ _
@[simp] theorem Fibre.setN_grant (f : Fibre) (n k v : Nat) : (f.setN n k v).grant = f.grant := by
  induction k generalizing f n v with
  | zero => rfl
  | succ k ih => exact ih _ _ _

/-! ### Registers, index registers, predicates -/

theorem Fibre.r_setR_other (f : Fibre) {n m : Nat} (h : m ≠ n) (v : Word) : (f.setR n v).r m = f.r m :=
  Laws.Tab.get_set_other 0#32 h v f.regs

theorem Fibre.r_setR_same (f : Fibre) (n : Nat) (v : Word) (h : Tab.wf 0#32 f.regs = true) : (f.setR n v).r n = v :=
  Laws.Tab.get_set_same 0#32 n v h

theorem Fibre.wf_setR (f : Fibre) (n : Nat) (v : Word) (h : Tab.wf 0#32 f.regs = true) :
    Tab.wf 0#32 (f.setR n v).regs = true := Laws.Tab.wf_set 0#32 n v h

/-- A register outside those written keeps its value. -/
theorem Fibre.r_setN_other (f : Fibre) {n k v m : Nat} (h : m < n ∨ n + k ≤ m) : (f.setN n k v).r m = f.r m := by
  induction k generalizing f n v with
  | zero => rfl
  | succ k ih =>
    rw [Fibre.setN, ih (f.setR n (BitVec.ofNat 32 v)) (by omega), Fibre.r_setR_other f (by omega)]

theorem Fibre.wf_setN (f : Fibre) (n k v : Nat) (h : Tab.wf 0#32 f.regs = true) :
    Tab.wf 0#32 (f.setN n k v).regs = true := by
  induction k generalizing f n v with
  | zero => exact h
  | succ k ih => exact ih _ _ _ (f.wf_setR n _ h)

/-- The registers written hold the number written (R35). -/
theorem Fibre.rN_setN_same (f : Fibre) (n k v : Nat) (h : Tab.wf 0#32 f.regs = true) :
    (f.setN n k v).rN n k = v % 2 ^ (32 * k) := by
  induction k generalizing f n v with
  | zero => simp [Fibre.rN, Nat.mod_one]
  | succ k ih =>
    rw [Fibre.setN, Fibre.rN, ih _ _ _ (f.wf_setR n _ h),
      Fibre.r_setN_other _ (by omega), Fibre.r_setR_same f n _ h, BitVec.toNat_ofNat,
      show 32 * (k + 1) = 32 + 32 * k by ring, Nat.pow_add, Nat.mod_mul]

theorem Fibre.idx_setIdx_other (f : Fibre) {i j : BitVec 2} (h : j ≠ i) (v : BitVec 16) : (f.setIdx i v).idx j = f.idx j :=
  Laws.Tab.get_set_other 0#16 (fun e => h (BitVec.eq_of_toNat_eq e)) v f.idxr

theorem Fibre.idx_setIdx_same (f : Fibre) (i : BitVec 2) (v : BitVec 16) (h : Tab.wf 0#16 f.idxr = true) :
    (f.setIdx i v).idx i = v := Laws.Tab.get_set_same 0#16 i.toNat v h

theorem Fibre.p_setP_same (f : Fibre) {n : BitVec 4} (h : n.toNat < 12) (b : Bool) : (f.setP n b).p n = b := by
  cases b <;> simp [Fibre.p, Fibre.setP, h]

theorem Fibre.p_setP_other (f : Fibre) {n m : BitVec 4} (h : m ≠ n) (b : Bool) : (f.setP n b).p m = f.p m := by
  have h' : m.toNat ≠ n.toNat := fun e => h (BitVec.eq_of_toNat_eq e)
  by_cases hm : m.toNat < 12
  · cases b <;> simp [Fibre.p, Fibre.setP, hm] <;> intros <;> omega
  · simp [Fibre.p, BitVec.getLsbD_of_ge _ _ (Nat.le_of_not_lt hm)]

/-! ### Groups and fibres -/

@[simp] theorem State.group?_setGroup_same (s : State) (g : Nat) (x : Group) : (s.setGroup g x).group? g = some x := by
  simp [State.setGroup, State.group?]

theorem State.group?_setGroup_other (s : State) {g k : Nat} (h : k ≠ g) (x : Group) :
    (s.setGroup g x).group? k = s.group? k := Laws.Tab.find_put_other h x s.groups

theorem State.group?_updGroup_same (s : State) (g : Nat) (u : Group → Group) :
    (s.updGroup g u).group? g = (s.group? g).map u := by
  unfold State.updGroup
  split <;> simp_all

theorem State.group?_updGroup_other (s : State) {g k : Nat} (h : k ≠ g) (u : Group → Group) :
    (s.updGroup g u).group? k = s.group? k := by
  unfold State.updGroup
  split
  · exact s.group?_setGroup_other h _
  · rfl

@[simp] theorem Group.fibre?_setFibre_same (x : Group) (f : Nat) (v : Fibre) : (x.setFibre f v).fibre? f = some v := by
  simp [Group.setFibre, Group.fibre?]

theorem Group.fibre?_setFibre_other (x : Group) {f k : Nat} (h : k ≠ f) (v : Fibre) :
    (x.setFibre f v).fibre? k = x.fibre? k := Laws.Tab.find_put_other h v x.fibres

theorem Group.fibre?_updFibre_same (x : Group) (f : Nat) (u : Fibre → Fibre) :
    (x.updFibre f u).fibre? f = (x.fibre? f).map u := by
  unfold Group.updFibre
  split <;> simp_all

theorem Group.fibre?_updFibre_other (x : Group) {f k : Nat} (h : k ≠ f) (u : Fibre → Fibre) :
    (x.updFibre f u).fibre? k = x.fibre? k := by
  unfold Group.updFibre
  split
  · exact x.fibre?_setFibre_other h _
  · rfl

/-- An update of a fibre reaches that fibre. -/
theorem State.fibre?_updFibre_same (s : State) (r : FRef) (u : Fibre → Fibre) :
    (s.updFibre r u).fibre? r = (s.fibre? r).map u := by
  simp only [State.fibre?, State.updFibre, State.group?_updGroup_same]
  cases s.group? r.g <;> simp [Group.fibre?_updFibre_same]

/-- It leaves every other fibre as it is. -/
theorem State.fibre?_updFibre_other (s : State) {r q : FRef} (h : q ≠ r) (u : Fibre → Fibre) :
    (s.updFibre r u).fibre? q = s.fibre? q := by
  simp only [State.fibre?, State.updFibre]
  by_cases hg : q.g = r.g
  · rw [hg, State.group?_updGroup_same]
    have hf : q.f ≠ r.f := fun e => h (by cases q; cases r; simp_all)
    cases s.group? r.g <;> simp [Group.fibre?_updFibre_other _ hf]
  · rw [State.group?_updGroup_other _ hg]

/-- Two updates of one fibre are one. -/
theorem State.updFibre_updFibre (s : State) (r : FRef) (u v : Fibre → Fibre) :
    (s.updFibre r u).updFibre r v = s.updFibre r fun f => v (u f) := by
  have putput {α : Type} (k : Nat) (a b : α) (t : Tab α) : Tab.put k b (Tab.put k a t) = Tab.put k b t := by
    induction t with
    | nil => simp [Tab.put]
    | cons p t ih =>
      obtain ⟨j, w⟩ := p
      simp only [Tab.put]
      split
      · simp [Tab.put]
      · split
        · simp [Tab.put]
        · rw [Tab.put, if_neg ‹_›, if_neg ‹_›, ih]
  have gg (x : Group) : (x.updFibre r.f u).updFibre r.f v = x.updFibre r.f fun f => v (u f) := by
    unfold Group.updFibre
    cases hx : x.fibre? r.f with
    | none => simp [hx]
    | some f => simp [Group.setFibre, Group.fibre?, putput]
  simp only [State.updFibre, State.updGroup]
  cases hs : s.group? r.g with
  | none => simp [hs]
  | some x => simp [State.setGroup, State.group?, putput, gg]

end Sys2Proof.Machine
end

