-- ==== Sys2Proof/Laws/Access.lean ====
section
/-! SUPPORT. Translations, fetches and the checks of an access: what they change, and what they answer where every check
passes (R22, R236 to R245, R305). -/

namespace Sys2Proof.Laws

open Sys2Proof.Machine

/-- A search changes no field but the TLB. -/
theorem find_tlb (s : State) (c : Nat) (asid : BitVec 16) (gen : BitVec 8) (va : Dword) :
    ∃ t, (s.find c asid gen va).2 = { s with tlb := t } := by
  unfold State.find
  dsimp only
  split
  · exact ⟨_, rfl⟩
  · exact ⟨_, rfl⟩
  · exact ⟨_, rfl⟩

/-- A translation changes no field but the TLB and what the issue has looked up. -/
theorem lookup_tlb (s : State) (c : Nat) (asid : BitVec 16) (gen : BitVec 8) (va : Dword) :
    ∃ t l, (s.lookup c asid gen va).2 = { s with tlb := t, looked := l } := by
  obtain ⟨t, ht⟩ := find_tlb s c asid gen va
  unfold State.lookup
  dsimp only
  split
  · exact ⟨_, _, rfl⟩
  · exact ⟨t, _, by rw [ht]⟩

/-- Reading code bytes changes no other field. -/
theorem codeBytes_tlb (s : State) (c : Nat) (asid : BitVec 16) (pc va : Dword) (n : Nat) :
    ∃ t l, (s.codeBytes c asid pc va n).2 = { s with tlb := t, looked := l } := by
  obtain ⟨t, l, ht⟩ := lookup_tlb s c asid (s.genOf asid) va
  unfold State.codeBytes
  split
  · exact ⟨_, _, rfl⟩
  · split
    · next s1 h => exact ⟨t, l, by rw [← ht, h]⟩
    · next p s1 h =>
      have : s1 = { s with tlb := t, looked := l } := by rw [← ht, h]
      split <;> (try split) <;> (try split) <;> exact ⟨t, l, this⟩

/-- Reading a word of code changes no other field. -/
theorem readWord_tlb (s : State) (c : Nat) (asid : BitVec 16) (pc : Dword) :
    ∃ t l, (s.readWord c asid pc).2 = { s with tlb := t, looked := l } := by
  unfold State.readWord
  dsimp only
  obtain ⟨t, l, ht⟩ := codeBytes_tlb s c asid pc pc (min 12 (65536 - pc.toNat % 65536))
  split
  · next r s1 h => exact ⟨t, l, by rw [← ht, h]⟩
  · next lo s1 h =>
    have h1 : s1 = { s with tlb := t, looked := l } := by rw [← ht, h]
    split
    · exact ⟨t, l, h1⟩
    · obtain ⟨u, m, hu⟩ := codeBytes_tlb s1 c asid pc (pc + dw (min 12 (65536 - pc.toNat % 65536))) (12 - min 12 (65536 - pc.toNat % 65536))
      split
      · next r s2 h => exact ⟨u, m, by subst h1; rw [h] at hu; exact hu⟩
      · next r s2 h => exact ⟨u, m, by subst h1; rw [h] at hu; exact hu⟩

/-- A fetch changes no field but these and a fetch buffer. -/
theorem fetch_tlb (s : State) (c ctx : Nat) (pc : Dword) :
    ∃ t k l, (s.fetch c ctx pc).2 = { s with tlb := t, cores := k, looked := l } := by
  unfold State.fetch
  dsimp only
  obtain ⟨t, l, ht⟩ := readWord_tlb s c (s.ctx ctx).asid pc
  split
  · split
    · exact ⟨_, _, _, rfl⟩
    · exact ⟨t, _, l, ht⟩
  · split
    · next w s1 h =>
      have h1 : s1 = { s with tlb := t, looked := l } := by rw [← ht, h]
      exact ⟨t, _, l, by rw [h1]⟩
    · exact ⟨t, _, l, ht⟩

/-- A fibre access whose checks pass: aligned, below 2^56, mapped, with the rights it asks for, on a tier it may use. -/
theorem access_ok {s s1 : State} {g : Group} {va : Dword} {n acc : Nat} {p : Page} {tiers : Tier → Bool}
    (ha : va.toNat % n = 0) (hb : va.toNat < 2 ^ 56)
    (hm : s.lookup g.coreOr0 (s.ctx g.ctx).asid (s.genOf (s.ctx g.ctx).asid) va = (some p, s1))
    (hr : acc % 2 = 1 → p.rp = true) (hw : acc / 2 % 2 = 1 → p.wp = true) (ht : tiers p.tier = true) :
    s.access g va n acc tiers = .inr (p, s1) := by
  simp only [State.access, ha, hm, show ¬ va.toNat ≥ 2 ^ 56 by omega]
  have h3 : ¬ ((acc % 2 = 1 ∧ ¬ p.rp) ∨ (acc / 2 % 2 = 1 ∧ ¬ p.wp)) := by
    rintro (⟨a, b⟩ | ⟨a, b⟩)
    · exact b (hr a)
    · exact b (hw a)
  simp only [ne_eq, not_true_eq_false, and_false, if_false, h3, ht, if_true]

/-- An access through a window whose checks pass. -/
theorem winCheck_ok {s s1 : State} {g : Group} {hn off n al : Nat} {step : Bool} {w : OutWin}
    (he : s.window g hn = .inr (some w, s1)) (ha : off % al = 0) (hf : s1.failedWin.contains (g.ctx, hn) = false)
    (hm : w.step = step) (hb : off + n ≤ w.limit) (hs : step = true → s1.stepOn = true) :
    s.winCheck g hn off n al step = .inr (w, s1) := by
  have h7 : (step && !s1.stepOn) = false := by cases step <;> simp_all
  have h8 : ¬ (off + n > w.limit) := by omega
  simp only [State.winCheck, he, ha, hf, hm, h7, ne_eq, not_true_eq_false, if_false, bne_self_eq_false, h8, decide_false,
    Bool.or_false, Bool.false_eq_true]

end Sys2Proof.Laws
end

