-- ==== Sys2Proof/Laws/Memories.lean ====
section
/-! SUPPORT. Reads and writes of the shared SRAM, module memory and host memory: what a read gives, and the canonical form
that a write keeps. -/

namespace Sys2Proof.Laws

open Sys2Proof.Machine

/-- A read of the shared SRAM has as many bytes as it asks for. -/
theorem sramRead_length (s : State) (a n : Nat) : (s.sramRead a n).length = n := by
  induction n generalizing a with
  | zero => rfl
  | succ n ih => simp [State.sramRead, ih]

/-- Each byte read inside the shared SRAM is the byte there. -/
theorem sramRead_get (s : State) (a n i : Nat) (h : i < n) (ha : a + n ≤ sramSize) :
    (s.sramRead a n)[i]? = some (Memory.get s.sram (a + i)) := by
  induction n generalizing a i with
  | zero => omega
  | succ n ih =>
    cases i with
    | zero => simp [State.sramRead, show a < sramSize by omega]
    | succ i =>
      simp only [State.sramRead, List.getElem?_cons_succ]
      rw [ih (a + 1) i (by omega) (by omega)]
      congr 2; omega

/-- A core reads back as it was set. -/
theorem core_setCore (s : State) (c : Nat) (x : Core) (h : x ≠ {}) : (s.setCore c x).core c = x := by
  simp only [State.core, State.setCore, Tab.set, h, if_false]
  exact Tab.get_put_same _ _ _ _

/-- A write of the shared SRAM keeps its canonical form. -/
theorem sramWrite_wf (s : State) (a : Nat) (bs : List Byte) (h : Memory.wf s.sram = true) :
    Memory.wf (s.sramWrite a bs).sram = true := Memory.wf_write a _ h

/-- What each step of a fold keeps, the fold keeps. -/
theorem foldl_keeps {α β : Type} (P : β → Prop) (u : β → α → β) (l : List α) (b : β) (h : P b)
    (hu : ∀ t x, P t → P (u t x)) : P (l.foldl u b) := by
  induction l generalizing b with
  | nil => exact h
  | cons x l ih => exact ih (u b x) (hu b x h)

/-- Storing a sector keeps the canonical form of module memory. -/
theorem putSector_wf (s : State) (k : BitVec 13) (n : Nat) (bs : List Byte) (h : Memory.wf s.far = true) :
    Memory.wf (s.putSector k n bs).far = true := Memory.wf_write _ bs h

/-- Storing bytes keeps the canonical form of module memory. -/
theorem store_wf (s : State) (k : BitVec 13) (a : Nat) (bs : List Byte) (h : Memory.wf s.far = true) :
    Memory.wf (s.store k a bs).far = true := by
  unfold State.store
  exact foldl_keeps (fun t : State × List Byte => Memory.wf t.1.far = true) _ _ _ h fun t p ht => putSector_wf t.1 k _ _ ht

/-- A write within one block keeps the canonical form of module memory. -/
theorem blockWrite_wf (s : State) (k : BitVec 13) (a : Nat) (bs : List Byte) (h : Memory.wf s.far = true) :
    Memory.wf (s.blockWrite k a bs).far = true := by
  unfold State.blockWrite
  dsimp only
  split
  · exact store_wf s k a bs h
  · exact store_wf s k _ _ h

/-- A write of module memory keeps its canonical form. -/
theorem farWrite_wf (s : State) (k : BitVec 13) (a : Nat) (bs : List Byte) (h : Memory.wf s.far = true) :
    Memory.wf (s.farWrite k a bs).far = true := by
  unfold State.farWrite
  exact foldl_keeps (fun t : State × List Byte => Memory.wf t.1.far = true) _ _ _ h fun t p ht => blockWrite_wf t.1 k _ _ ht

end Sys2Proof.Laws
end

