-- ==== Sys2Proof/Laws/Caches.lean ====
section
/-! SUPPORT. Translations and reads whose answer no free choice of the caches changes (R233, R243). -/

namespace Sys2Proof.Laws

open Sys2Proof.Machine

/-- State `s` differs from `b` in its caches alone; what they hold agrees with the memory of `b`, and every translation
they hold gives page `q`. -/
structure Calm (q : Page) (b s : State) : Prop where
  same : ∃ t k l, s = { b with tlb := t, cores := k, looked := l }
  tlb : ∀ e ∈ s.tlb, Page.of e.entry e.idx = q
  looked : ∀ p ∈ s.looked, (p.2.map fun e => Page.of e.1 e.2) = some q
  lines : ∀ p ∈ s.cores, ∀ l ∈ p.2.lines, l.dirty = [] ∧ l.bytes = b.sramRead (128 * l.line) 128

/-- Reads of the shared SRAM depend on its bytes, and past its end on the free values of the step. -/
theorem sramRead_of {s u : State} (h : s.sram = u.sram) (ht : s.tick = u.tick) (x n : Nat) : s.sramRead x n = u.sramRead x n := by
  induction n generalizing x with
  | zero => rfl
  | succ n ih => simp only [State.sramRead, h, ht, ih]

/-- The search of a table depends on the shared SRAM and the registers alone. -/
theorem walkSlots_of {s u : State} (h : s.sram = u.sram) (ht : s.tick = u.tick) (hr : s.regs = u.regs) (base n b0 sz vpn m : Nat) (a : BitVec 16)
    (gen : BitVec 8) : s.walkSlots base n b0 sz vpn a gen m = u.walkSlots base n b0 sz vpn a gen m := by
  induction m with
  | zero => rfl
  | succ m ih =>
    have h1 (x : Nat) : s.sramWord x 16 = u.sramWord x 16 := by rw [State.sramWord, State.sramWord, sramRead_of h ht]
    have h2 : s.poolPages = u.poolPages := by rw [State.poolPages, State.poolPages, hr]
    rw [State.walkSlots, State.walkSlots, ih, h1, h2]

/-- The walk depends on the shared SRAM and the registers alone. -/
theorem walk_of {s u : State} (h : s.sram = u.sram) (ht : s.tick = u.tick) (hr : s.regs = u.regs) (a : BitVec 16)
    (gen : BitVec 8) (va : Dword) : s.walk a gen va = u.walk a gen va := by
  have h2 : s.ptLog = u.ptLog := by rw [State.ptLog, State.ptLog, hr]
  have h3 : State.walkSlots s = State.walkSlots u := by
    funext base n b0 sz vpn a gen m; exact walkSlots_of h ht hr ..
  rw [State.walk, State.walk, h2, hr, h3]

/-- A search that the table and every cached entry answer alike gives that page, whichever is used. -/
theorem find_or {q : Page} {s : State} {c : Nat} {a : BitVec 16} {gen : BitVec 8} {va : Dword} {w : BitVec 128 × Nat}
    (hw : s.walk a gen va = some w) (hp : Page.of w.1 w.2 = q) (hq : ∀ e ∈ s.tlb, Page.of e.entry e.idx = q) :
    ∃ r, Page.of r.1 r.2 = q ∧
      (s.find c a gen va = (some r, s) ∨ s.find c a gen va = (some r, s.cacheEntry c a gen va w.1 w.2)) := by
  cases hf : s.tlb.find? (TlbEnt.hit c a gen va (some w)) with
  | none => exact ⟨w, hp, .inr (by simp only [State.find, hw, hf])⟩
  | some e =>
    by_cases h0 : s.choose 0 2 = 0
    · exact ⟨(e.entry, e.idx), hq e (List.mem_of_find?_eq_some hf), .inl (by simp only [State.find, hw, hf, h0])⟩
    · exact ⟨w, hp, .inr (by simp [State.find, hw, hf, h0])⟩

/-- Keeping a translation of the page keeps a state calm. -/
theorem calm_entry {q : Page} {b s : State} (h : Calm q b s) (c : Nat) {a : BitVec 16} {gen : BitVec 8} {va : Dword}
    {w : BitVec 128 × Nat} (hp : Page.of w.1 w.2 = q) : Calm q b (s.cacheEntry c a gen va w.1 w.2) := by
  obtain ⟨⟨t, k, l, rfl⟩, ht, hk, hl⟩ := h
  refine ⟨⟨_, k, l, rfl⟩, fun e he => ?_, hk, hl⟩
  simp only [State.cacheEntry, List.mem_append, List.mem_cons] at he
  rcases he with (((rfl | he) | he) | he)
  · exact hp
  · exact ht e ((List.mem_filter.1 (List.mem_filter.1 (List.mem_of_mem_take he)).1).1)
  · split at he
    · rw [List.mem_singleton.1 he]; exact hp
    · cases he
  · exact ht e ((List.mem_filter.1 (List.mem_filter.1 he).1).1)

/-- A translation of a calm state, looked up afresh or found earlier in the issue. -/
theorem calm_lookup {q : Page} {b s : State} (h : Calm q b s) (c : Nat) {a : BitVec 16} {gen : BitVec 8} {va : Dword}
    {w : BitVec 128 × Nat} (hw : b.walk a gen va = some w) (hp : Page.of w.1 w.2 = q) :
    ∃ s', s.lookup c a gen va = (some q, s') ∧ Calm q b s' := by
  have he : s.walk a gen va = some w := by
    obtain ⟨t, k, l, hs⟩ := h.same
    rw [walk_of (u := b) (by rw [hs]) (by rw [hs]) (by rw [hs]), hw]
  cases hf : s.looked.find? (fun p => p.1 == (s.sheaf, bits va.toNat 55 16)) with
  | some p => exact ⟨s, by simp only [State.lookup, hf, h.looked p (List.mem_of_find?_eq_some hf)], h⟩
  | none =>
    obtain ⟨r, hr, e | e⟩ := find_or he hp h.tlb (c := c)
    all_goals refine ⟨_, by simp only [State.lookup, hf, e, Option.map_some, hr]; rfl, ?_⟩
    · obtain ⟨⟨t, k, l, hs⟩, ht, hk, hl⟩ := h
      refine ⟨⟨t, k, _, by rw [hs]⟩, ht, fun p hp => ?_, hl⟩
      rcases List.mem_cons.1 hp with rfl | hp
      · simp [hr]
      · exact hk p hp
    · obtain ⟨⟨t, k, l, hs⟩, ht, hk, hl⟩ := calm_entry h c hp (a := a) (gen := gen) (va := va)
      refine ⟨⟨t, k, _, by rw [hs]⟩, ht, fun p hp => ?_, hl⟩
      rcases List.mem_cons.1 hp with rfl | hp
      · simp [hr]
      · exact h.looked p hp

/-- Lines of a calm state's core. -/
theorem calm_core {q : Page} {b s : State} (h : Calm q b s) (c : Nat) :
    ∀ l ∈ (s.core c).lines, l.dirty = [] ∧ l.bytes = b.sramRead (128 * l.line) 128 := by
  intro l hl
  rcases Tab.get_mem {} c s.cores with e | e
  · rw [State.core, e] at hl; cases hl
  · exact h.lines _ e l hl

/-- Replacing a core's lines by clean ones keeps a state calm. -/
theorem calm_setCore {q : Page} {b s : State} (h : Calm q b s) (c : Nat) (x : Core)
    (hx : ∀ l ∈ x.lines, l.dirty = [] ∧ l.bytes = b.sramRead (128 * l.line) 128) : Calm q b (s.setCore c x) := by
  obtain ⟨⟨t, k, l, rfl⟩, ht, hk, hl⟩ := h
  refine ⟨⟨t, _, l, rfl⟩, ht, hk, fun p hp => ?_⟩
  simp only [State.setCore, Tab.set] at hp
  split at hp
  · exact hl p (Tab.mem_del hp)
  · rcases Tab.mem_put hp with rfl | hp
    · exact hx
    · exact hl p hp

/-- Writing back and dropping lines keeps a state calm. -/
theorem calm_flush {q : Page} {b s : State} (h : Calm q b s) (c : Nat) (p : Line → Bool) : Calm q b (s.flushLines c true p) := by
  have hf (ls : List Line) (hl : ∀ l ∈ ls, l.dirty = []) : ls.foldl State.writeLine s = s := by
    induction ls with
    | nil => rfl
    | cons l ls ih =>
      have : s.writeLine l = s := by
        have hd : l.dirty = [] := hl l (by simp)
        rw [State.writeLine, if_pos (.inr (by simp [hd]))]
        simp only [State.writeBytes, hd]
        exact foldl_keeps (· = s) _ _ _ rfl fun t x ht => by simpa using ht
      rw [List.foldl_cons, this, ih fun m hm => hl m (by simp [hm])]
  have hk := calm_core h c
  simp only [State.flushLines]
  rw [hf _ fun l hl => (hk l (List.mem_filter.1 hl).1).1]
  exact calm_setCore h c _ fun l hl => hk l (List.mem_filter.1 hl).1

/-- A read through the cache of a calm state gives the bytes of the shared SRAM, whatever line is dropped or filled. -/
theorem calm_read {q : Page} {b s : State} (h : Calm q b s) (c : Nat) (a : BitVec 16) (off n : Nat) :
    ∃ s', s.cacheRead c a off n = (((b.sramRead (128 * (off / 128)) 128).drop (off % 128)).take n, s') ∧ Calm q b s' := by
  have he : Calm q b (s.evict c) := by
    simp only [State.evict]
    split
    · exact calm_flush h c _
    · exact h
  have hf : ∃ l s', (s.evict c).fillLine c a (off / 128) = (l, s') ∧ l.bytes = b.sramRead (128 * (off / 128)) 128 ∧ Calm q b s' := by
    generalize s.evict c = u at he
    simp only [State.fillLine]
    split
    · next l hl =>
      have h1 := List.find?_some hl
      simp only [Bool.and_eq_true, beq_iff_eq] at h1
      exact ⟨l, u, rfl, by rw [(calm_core he c l (List.mem_of_find?_eq_some hl)).2, h1.2], he⟩
    · have key (v : State) (hv : Calm q b v) : ∀ l : Line,
          l = { asid := a, line := off / 128, bytes := v.sramRead (128 * (off / 128)) 128, dirty := []
                err := (v.sramErr.filter fun a => a / 128 == off / 128).map fun a => a % 128 } →
          ∃ l' s', (l, v.setCore c { v.core c with lines := l :: (v.core c).lines }) = (l', s') ∧
            l'.bytes = b.sramRead (128 * (off / 128)) 128 ∧ Calm q b s' := by
        rintro l rfl
        have hb : v.sramRead (128 * (off / 128)) 128 = b.sramRead (128 * (off / 128)) 128 := by
          obtain ⟨t, k, l, rfl⟩ := hv.same
          exact sramRead_of rfl rfl _ _
        refine ⟨_, _, rfl, hb, calm_setCore hv c _ fun l hl => ?_⟩
        rcases List.mem_cons.1 hl with rfl | hl
        · exact ⟨rfl, hb⟩
        · exact calm_core hv c l hl
      refine key _ ?_ _ rfl
      split
      · exact he
      · split
        · exact calm_flush he c _
        · exact he
  obtain ⟨l, s', h1, h2, h3⟩ := hf
  exact ⟨s', by simp only [State.cacheRead, h1, h2], h3⟩

end Sys2Proof.Laws
end

