-- ==== Sys2Proof/Laws/Encoding.lean ====
section
/-! SUPPORT. Fields of encodings read back as they were written: bits of a concatenation, register fields, operands, types
and options (R25 to R36). -/

namespace Sys2Proof.Laws

open Sys2Proof

/-- Bits of the upper part of a concatenation. -/
theorem ext_hi {m n : Nat} (s k : Nat) (x : BitVec m) (y : BitVec n) (h : n ≤ s) :
    BitVec.extractLsb' s k (no_index (x ++ y)) = x.extractLsb' (s - n) k := by
  ext i hi
  simp only [BitVec.getElem_extractLsb', BitVec.getLsbD_append]
  rw [if_neg (by omega)]; congr 1; omega

/-- Bits of the lower part of a concatenation. -/
theorem ext_lo {m n : Nat} (s k : Nat) (x : BitVec m) (y : BitVec n) (h : s + k ≤ n) :
    BitVec.extractLsb' s k (no_index (x ++ y)) = y.extractLsb' s k := by
  ext i hi
  simp only [BitVec.getElem_extractLsb', BitVec.getLsbD_append]
  rw [if_pos (by omega)]

theorem ext_all {n : Nat} (x : BitVec n) : x.extractLsb' 0 n = x := by
  ext i hi; simp

theorem bit_hi {m n : Nat} (s : Nat) (x : BitVec m) (y : BitVec n) (h : n ≤ s) :
    BitVec.getLsbD (no_index (x ++ y)) s = x.getLsbD (s - n) := by
  rw [BitVec.getLsbD_append, if_neg (by omega)]

theorem bit_lo {m n : Nat} (s : Nat) (x : BitVec m) (y : BitVec n) (h : s < n) :
    BitVec.getLsbD (no_index (x ++ y)) s = y.getLsbD s := by
  rw [BitVec.getLsbD_append, if_pos (by omega)]

theorem bit_bool (b : Bool) : (BitVec.ofBool b).getLsbD 0 = b := by cases b <;> rfl

/-- The fields of a Format R word read back as they were written. -/
theorem ofWord_word (r : RawR) : RawR.ofWord r.word = r := by
  obtain ⟨op, sub, hdr, d, a, b, ty, ty2, rnd, sat, bsel, imm⟩ := r
  simp (disch := omega) only [RawR.ofWord, RawR.word, ext_hi, ext_lo, ext_all, bit_hi, bit_lo, bit_bool, Nat.reduceSub]

/-- A well-formed header reads back. -/
theorem hdrOf_code (h : Hdr) (c : Bool) (hk : h.ok c = true) : hdrOf h.code = some h := by
  obtain ⟨g, last, keep, sel⟩ := h
  cases g with
  | always =>
    clear hk; revert last keep sel; decide
  | p n neg =>
    have : n.toNat < 12 := by simp [Hdr.ok, predOk] at hk; exact hk.1
    clear hk
    revert this n neg last keep sel; decide

theorem regOf_code (r : Reg) : regOf r.code = some r := by
  cases r with
  | v n => simp (disch := omega) [regOf, Reg.code, ext_hi, ext_lo, ext_all]
  | idx i b =>
     have h1 : ((1#2 ++ i ++ 0#1 ++ b : BitVec 16).extractLsb' 11 5 == 0#5) = false := by
       have : (1#2 ++ i ++ 0#1 ++ b : BitVec 16).extractLsb' 11 5 = 1#2 ++ i ++ 0#1 := by
         rw [ext_hi _ _ _ _ (by omega)]; exact ext_all _
       rw [this]; clear this; revert i; decide
     simp only [regOf, Reg.code, h1]
     simp (disch := omega) [ext_hi, ext_lo, ext_all]

theorem imm14Of_code (n) : imm14Of (immCode n) = some n := by
  simp (disch := omega) [imm14Of, immCode, ext_hi, ext_lo, ext_all]

theorem imm14Of_reg (r : Reg) : imm14Of r.code = none := by
  cases r <;> simp (disch := omega) [imm14Of, Reg.code, ext_hi, ext_lo, ext_all]

theorem srcOf_code (a : Src) : srcOf a.code = some a := by
  cases a <;> simp [srcOf, Src.code, imm14Of_code, imm14Of_reg, regOf_code]

theorem memOf_code (m : Mem) : memOf m.base.code m.off.code = some m := by
  simp [memOf, regOf_code, srcOf_code]

theorem tyOf_code (t : Ty) : Ty.ofCode t.code = some t := by cases t <;> rfl

/-- A Format R word whose fields parse to an instruction parses to it. -/
theorem parseWord_R (r : RawR) (h : Hdr) (i : Instr) (hh : hdrOf r.hdr = some h) (ho : (r.op.toNat == 0xF0) = false)
    (hs : (decide (0x60 ≤ r.op.toNat) && decide (r.op.toNat ≤ 0x71)) = false)
    (hI : ∀ imm, parseI r.op.toNat r.sub.toNat h r.d r.a imm = none) (hR : parseR r h = some i) :
    parseWord r.word = some i := by
  have e := ofWord_word r
  have e1 : (r.word).extractLsb' 88 8 = r.op := congrArg RawR.op e
  have e2 : (r.word).extractLsb' 72 10 = r.hdr := congrArg RawR.hdr e
  have e3 : (r.word).extractLsb' 82 6 = r.sub := congrArg RawR.sub e
  have e4 : (r.word).extractLsb' 56 16 = r.d := congrArg RawR.d e
  have e5 : (r.word).extractLsb' 40 16 = r.a := congrArg RawR.a e
  simp [parseWord, e1, e2, e3, e4, e5, e, ho, hs, hh, hI, hR]

theorem predOf_code (n : BitVec 4) : predOf (predCode n) = some n := by revert n; decide

theorem maskOf_code (n : BitVec 3) : maskOf (maskCode n) = some n := by revert n; decide

theorem tileOf_code (n : BitVec 4) : tileOf (tileCode n) = some n := by revert n; decide

theorem bufOf_code (n : BitVec 6) : bufOf (bufCode n) = some n := by revert n; decide

theorem bankOf_code (n : BitVec 3) : bankOf (bankCode n) = some n := by revert n; decide

theorem sysOf_code (x : SysReg) : sysOf x.code = some x := by cases x <;> rfl

theorem rndOf_code (x : Rnd) : Rnd.ofCode x.code = some x := by cases x <;> rfl

theorem condOf_code (x : Cond) : Cond.ofCode x.code = some x := by cases x <;> rfl

theorem xmodeOf_code (x : XMode) : XMode.ofCode x.code = some x := by cases x <;> rfl

theorem vmodeOf_code (x : VMode) : VMode.ofCode x.code = some x := by cases x <;> rfl

theorem atomOf_code (x : AtomOp) : AtomOp.ofCode x.code = some x := by cases x <;> rfl

theorem spOf_code (x : Sparsity) : Sparsity.ofCode x.code = some x := by cases x <;> rfl

theorem scopeOf_code (x : Scope) : Scope.ofCode x.code = some x := by cases x <;> rfl

theorem fkOf_code (x : FenceKind) : FenceKind.ofCode x.code = some x := by cases x <;> rfl

theorem collOf_code (x : CollKind) : CollKind.ofCode x.code = some x := by cases x <;> rfl

end Sys2Proof.Laws
end

