-- ==== Sys2Proof/Laws/Engines.lean ====
section
/-! SUPPORT. The turn of an entry at the head of its slot, and of a packet of a served queue. -/

namespace Sys2Proof.Laws

open Sys2Proof Sys2Proof.Machine

/-- An entry at the head of its slot goes on by its step. -/
theorem slotStep_head {u : Nat → FEntry → State → State} {s : State} {e : FEntry} (h : s.headEntry s.curSlot = some e) :
    slotStep u s = .next (u s.curSlot e s) := by
  simp [slotStep, h]

/-- An entry with no stream binds no FIFO. -/
theorem bindFifos_none {k : Nat} {i : Instr} {s : State} (h : entryFifos i = ([], [])) : s.bindFifos k i = (true, s) := by
  simp [State.bindFifos, h]

/-- A packet of the queue that has its turn does what it answers. -/
theorem onQueue_served {s t : State} {b : Nat → Queue → Option State} (hs : s.served s.curQ = true)
    (hb : b s.curQ (s.queue s.curQ) = some t) : (onQueue s b).getD s = t := by
  simp [onQueue, hs, hb]

end Sys2Proof.Laws
end

