-- ==== Sys2Proof/Laws/Words.lean ====
section
/-! SUPPORT. What the issue of an instruction word comes to, once: with its own effect where it issues, and with a trap
or nothing but the advance where it does not (R24, R49). -/

namespace Sys2Proof.Laws

open Sys2Proof.Machine Sys2Proof.Safety

/-- The issue of a word always answers a next state. -/
theorem runWord_next (i : Instr) (h : Hdr) (w : Group → Fibre → WordSpec) (body : Group → Fibre → State → Res) (s : State)
    (onFalse : State → State) : ∃ t, runWord i h w body s onFalse = .next t := by
  unfold runWord
  split
  · exact ⟨_, rfl⟩
  · split
    · exact ⟨_, rfl⟩
    · exact ⟨_, rfl⟩

/-- A word that issues does what its own operation answers. -/
theorem runWord_issues {i : Instr} {h : Hdr} {w : Group → Fibre → WordSpec} {body : Group → Fibre → State → Res}
    {s : State} {onFalse : State → State} {g : Group} {f : Fibre} (hi : Issues s g f h (w g f)) :
    runWord i h w body s onFalse = .next ((body g f s).commit s.cur s.cycle) := by
  obtain ⟨h1, h2, h3, h4, h5, h6, h7, h8, h9, h10⟩ := hi
  have key : issueWord i h w onFalse body s g f = body g f s := by
    simp only [issueWord, h3, h4, h5, h6, h7, h8, h9, Bool.not_true, Bool.false_eq_true, if_false]
    split
    · next u hu => simp only [h10 u (by simp [hu]), if_true]
    · rfl
  simp only [runWord, h1, h2, key]

/-- A word whose operation has its effect in the state `t`: the fibre goes on. -/
theorem runWord_ok {i : Instr} {h : Hdr} {w : Group → Fibre → WordSpec} {body : Group → Fibre → State → Res} {s t : State}
    {onFalse : State → State} {g : Group} {f : Fibre} (hi : Issues s g f h (w g f)) (hb : body g f s = .ok t) :
    runWord i h w body s onFalse = .next (went s t) := by
  rw [runWord_issues hi, hb]; rfl

/-- A word whose operation sets its fibre's position or its wait. -/
theorem runWord_keep {i : Instr} {h : Hdr} {w : Group → Fibre → WordSpec} {body : Group → Fibre → State → Res}
    {s t : State} {onFalse : State → State} {g : Group} {f : Fibre} (hi : Issues s g f h (w g f))
    (hb : body g f s = .keep t) : runWord i h w body s onFalse = .next (kept s t) := by
  rw [runWord_issues hi, hb]; rfl

/-- A word whose operation raises a trap. -/
theorem runWord_trap {i : Instr} {h : Hdr} {w : Group → Fibre → WordSpec} {body : Group → Fibre → State → Res}
    {s t : State} {onFalse : State → State} {g : Group} {f : Fibre} {c : Cause} {v : Dword}
    (hi : Issues s g f h (w g f)) (hb : body g f s = .trap t c v) :
    runWord i h w body s onFalse = .next (t.takeTrap s.cur c v) := by
  rw [runWord_issues hi, hb]; rfl

/-- An instruction on its own fibre's registers: the fibre's new value, and the next word. -/
theorem laneWord_issues {i : Instr} {h : Hdr} {cs : List Chk} {u : Fibre → Fibre} {s : State} {g : Group} {f : Fibre}
    (hi : Issues s g f h { chks := cs }) : laneWord i h cs u s = .next (after s (u f)) := by
  rw [laneWord, runWord_issues (w := fun _ _ => { chks := cs }) hi]
  simp only [Res.commit, after, State.updFibre_updFibre]

end Sys2Proof.Laws
end

