-- ==== Sys2Proof/Laws/Groups.lean ====
section
/-! SUPPORT. What the shared operations on a fibre, and the end of an outstanding operation, leave of the groups and
memories. -/

namespace Sys2Proof.Laws

open Sys2Proof.Machine Sys2Proof.Safety

/-- In a word that issues, a change of its fibre is a change to the value it comes to. -/
theorem updFibre_issues {s : State} {g : Group} {f : Fibre} {h : Hdr} {w : WordSpec} (hi : Issues s g f h w)
    (u : Fibre → Fibre) : s.updFibre s.cur u = s.updFibre s.cur fun _ => u f := by
  simp only [State.updFibre, State.updGroup, hi.group, Group.updFibre, hi.fibre]

/-- A change of a fibre leaves every group there, with no field changed but its fibres. -/
theorem updFibre_group (s : State) (r : FRef) (u : Fibre → Fibre) {k : Nat} {x : Group} (h : s.group? k = some x) :
    ∃ fs, (s.updFibre r u).group? k = some { x with fibres := fs } := by
  by_cases hk : k = r.g
  · subst hk
    refine ⟨(x.updFibre r.f u).fibres, ?_⟩
    rw [State.updFibre, State.group?_updGroup_same, h]
    simp only [Option.map_some, Group.updFibre]
    split <;> rfl
  · exact ⟨x.fibres, by rw [State.updFibre, State.group?_updGroup_other _ hk, h]⟩

/-- A debugger's access that waits touches no other group. -/
theorem settleDbg_other (s : State) {k : Nat} (h : ∀ w ∈ s.dbgWait, w.fib.g ≠ k) : s.settleDbg.group? k = s.group? k := by
  unfold State.settleDbg
  split
  · rfl
  · next w hw =>
    split
    · rfl
    · split
      · rfl
      · split
        · rfl
        · have : k ≠ w.fib.g := fun e => h w (by simp [hw]) e.symm
          exact State.group?_updGroup_other s this _

/-- It changes nothing of a group but its fibres. -/
theorem settleDbg_group (s : State) {k : Nat} {x : Group} (h : s.group? k = some x) :
    ∃ fs, s.settleDbg.group? k = some { x with fibres := fs } := by
  unfold State.settleDbg
  split
  · exact ⟨_, h⟩
  · split
    · exact ⟨_, h⟩
    · split
      · exact ⟨_, h⟩
      · split
        · exact ⟨_, h⟩
        · exact updFibre_group s _ _ h

/-- It changes no memory. -/
theorem settleDbg_memory (s : State) :
    s.settleDbg.sram = s.sram ∧ s.settleDbg.far = s.far ∧ s.settleDbg.hostMem = s.hostMem := by
  unfold State.settleDbg
  split
  · simp
  · split
    · simp
    · split
      · simp
      · split <;> simp

/-- The end of an operation changes nothing of a group but its fibres. -/
theorem finish_group (s : State) (o : Op) {k : Nat} {x : Group} (h : s.group? k = some x) :
    ∃ fs, (s.finish o).group? k = some { x with fibres := fs } :=
  updFibre_group (s.dropOp o.id) o.fib (fun f => if f.inc = o.inc then f.uncount o.ctr else f) h

/-- The end of an operation touches no group but its fibre's. -/
theorem finish_other (s : State) (o : Op) {k : Nat} (h : k ≠ o.fib.g) : (s.finish o).group? k = s.group? k := by
  unfold State.finish State.onIssuer
  rw [State.updFibre, State.group?_updGroup_other _ h]
  rfl

/-- The end of an operation changes no memory. -/
theorem finish_memory (s : State) (o : Op) :
    (s.finish o).sram = s.sram ∧ (s.finish o).far = s.far ∧ (s.finish o).hostMem = s.hostMem := by
  unfold State.finish State.onIssuer
  simp

end Sys2Proof.Laws
end

