-- ==== Sys2Proof/Laws/Kept.lean ====
section
/-! SUPPORT. The shared operations keep the canonical form of the memories: writes, cache lines, fault records, traps, the
end of an operation, and the outcome of an issue. -/

namespace Sys2Proof.Laws

open Sys2Proof.Machine Sys2Proof.Safety

/-- The canonical form depends on the memories and the groups alone. -/
theorem memoryOk_of_eq {s t : State} (h : MemoryOk s) (h1 : t.sram = s.sram) (h2 : t.far = s.far)
    (h3 : t.hostMem = s.hostMem) (h4 : t.groups = s.groups) : MemoryOk t := by
  unfold MemoryOk at *
  rwa [h1, h2, h3, h4]

/-- The scratchpad of a group that the state holds. -/
theorem memoryOk_group {s : State} {g : Nat} {x : Group} (h : MemoryOk s) (hx : s.group? g = some x) :
    Memory.wf x.scratch = true := h.2.2.2 _ (Tab.find_mem hx)

theorem memoryOk_setGroup {s : State} (g : Nat) {x : Group} (hx : Memory.wf x.scratch = true) (h : MemoryOk s) :
    MemoryOk (s.setGroup g x) := by
  refine ⟨h.1, h.2.1, h.2.2.1, fun p hp => ?_⟩
  rcases Tab.mem_put hp with rfl | hp
  · exact hx
  · exact h.2.2.2 p hp

theorem memoryOk_updGroup {s : State} (g : Nat) {u : Group → Group}
    (hu : ∀ x, Memory.wf x.scratch = true → Memory.wf (u x).scratch = true) (h : MemoryOk s) : MemoryOk (s.updGroup g u) := by
  unfold State.updGroup
  split
  · next x hx => exact memoryOk_setGroup g (hu x (memoryOk_group h hx)) h
  · exact h

/-- Every group changed alike. -/
theorem memoryOk_mapGroups {s : State} {u : Nat × Group → Nat × Group}
    (hu : ∀ p, Memory.wf p.2.scratch = true → Memory.wf (u p).2.scratch = true) (h : MemoryOk s) :
    MemoryOk { s with groups := s.groups.map u } := by
  refine ⟨h.1, h.2.1, h.2.2.1, fun p hp => ?_⟩
  obtain ⟨q, hq, rfl⟩ := List.mem_map.1 hp
  exact hu q (h.2.2.2 q hq)

@[simp] theorem updFibre_scratch (x : Group) (f : Nat) (u : Fibre → Fibre) : (x.updFibre f u).scratch = x.scratch := by
  unfold Group.updFibre
  split <;> rfl

theorem memoryOk_updFibre {s : State} (r : FRef) (u : Fibre → Fibre) (h : MemoryOk s) : MemoryOk (s.updFibre r u) :=
  memoryOk_updGroup _ (fun x hx => by rwa [updFibre_scratch]) h

theorem memoryOk_setCore {s : State} (c : Nat) (x : Core) (h : MemoryOk s) : MemoryOk (s.setCore c x) := h

theorem memoryOk_sramWrite {s : State} (a : Nat) (bs : List Byte) (h : MemoryOk s) : MemoryOk (s.sramWrite a bs) :=
  ⟨sramWrite_wf s a bs h.1, h.2⟩

theorem memoryOk_putSector {s : State} (k : BitVec 13) (n : Nat) (bs : List Byte) (h : MemoryOk s) :
    MemoryOk (s.putSector k n bs) := ⟨h.1, putSector_wf s k n bs h.2.1, h.2.2⟩

theorem memoryOk_store {s : State} (k : BitVec 13) (a : Nat) (bs : List Byte) (h : MemoryOk s) : MemoryOk (s.store k a bs) := by
  unfold State.store
  exact foldl_keeps (fun t : State × List Byte => MemoryOk t.1) _ _ _ h fun t p ht => memoryOk_putSector k _ _ ht

theorem memoryOk_setMeta {s : State} (a : Nat) (r : Meta) (h : MemoryOk s) : MemoryOk (s.setMeta a r) := h

theorem memoryOk_blockWrite {s : State} (k : BitVec 13) (a : Nat) (bs : List Byte) (h : MemoryOk s) :
    MemoryOk (s.blockWrite k a bs) := by
  unfold State.blockWrite
  dsimp only
  split
  · exact memoryOk_store k a bs h
  · exact memoryOk_setMeta _ _ (memoryOk_store k _ _ h)

theorem memoryOk_storeRaw {s : State} (k : BitVec 13) (page : Nat) (h : MemoryOk s) : MemoryOk (s.storeRaw k page) := by
  unfold State.storeRaw
  exact memoryOk_setMeta _ _ (memoryOk_store k page _ h)

theorem memoryOk_farWrite {s : State} (k : BitVec 13) (a : Nat) (bs : List Byte) (h : MemoryOk s) :
    MemoryOk (s.farWrite k a bs) := by
  unfold State.farWrite
  exact foldl_keeps (fun t : State × List Byte => MemoryOk t.1) _ _ _ h fun t p ht => memoryOk_blockWrite k _ _ ht

theorem memoryOk_devWrite {s : State} (ctx : Nat) (p : Page) (va : Nat) (bs : List Byte) (h : MemoryOk s) :
    MemoryOk (s.devWrite ctx p va bs) := by
  unfold State.devWrite
  split
  · exact memoryOk_sramWrite _ _ h
  · exact memoryOk_farWrite _ _ _ h
  · exact ⟨h.1, h.2.1, Memory.wf_write _ _ h.2.2.1, h.2.2.2⟩
  · exact h

theorem memoryOk_raise {s : State} (v : Nat) (h : MemoryOk s) : MemoryOk (s.raise v) := by
  unfold State.raise
  split
  · exact h
  · split
    · exact h
    · exact h

theorem memoryOk_setMsix {s : State} (v : Nat) (e : BitVec 128) (h : MemoryOk s) : MemoryOk (s.setMsix v e) := by
  unfold State.setMsix
  dsimp only
  split
  · exact memoryOk_raise v h
  · exact h

/-- A fault record is written to the shared SRAM alone. -/
theorem memoryOk_postFault {s : State} (c : Nat) (rec_ : List Dword) (h : MemoryOk s) : MemoryOk (s.postFault c rec_) := by
  unfold State.postFault
  dsimp only
  split
  · exact h
  · split
    · exact h
    · split
      · exact memoryOk_sramWrite _ _ h
      · split
        · exact h
        · split
          · exact h
          · split
            · exact memoryOk_raise _ (memoryOk_sramWrite _ _ (memoryOk_sramWrite _ _ h))
            · exact memoryOk_sramWrite _ _ (memoryOk_sramWrite _ _ h)

theorem memoryOk_tellWriter {s : State} (r : FRef) (inc : Nat) (h : MemoryOk s) : MemoryOk (s.tellWriter r inc) := by
  unfold State.tellWriter
  split
  · exact h
  · next x hx =>
    have hw : Memory.wf x.scratch = true := memoryOk_group h hx
    split
    · dsimp only
      split
      · exact h
      · split
        · exact memoryOk_postFault _ _ h
        · exact memoryOk_setGroup r.g hw h
    · exact h

theorem memoryOk_writeBytes {s : State} (l : Line) (h : MemoryOk s) : MemoryOk (s.writeBytes l) := by
  refine foldl_keeps MemoryOk _ _ _ h fun t i ht => ?_
  split
  · exact memoryOk_sramWrite _ _ ht
  · exact ht

theorem memoryOk_writeLine {s : State} (l : Line) (h : MemoryOk s) : MemoryOk (s.writeLine l) := by
  unfold State.writeLine
  split
  · exact memoryOk_writeBytes l h
  · refine foldl_keeps MemoryOk (fun (t : State) (w : FRef × Nat) => t.tellWriter w.1 w.2) _ _ ?_ fun t w ht => memoryOk_tellWriter _ _ ht
    exact memoryOk_of_eq (memoryOk_writeBytes l h) rfl rfl rfl rfl

theorem memoryOk_flushLines {s : State} (c : Nat) (drop : Bool) (p : Line → Bool) (h : MemoryOk s) :
    MemoryOk (s.flushLines c drop p) :=
  memoryOk_setCore c _ (foldl_keeps MemoryOk State.writeLine _ s h fun _ l ht => memoryOk_writeLine l ht)

theorem memoryOk_evict {s : State} (c : Nat) (h : MemoryOk s) : MemoryOk (s.evict c) := by
  unfold State.evict
  dsimp only
  split
  · exact memoryOk_flushLines _ _ _ h
  · exact h

theorem memoryOk_fillLine {s : State} (c : Nat) (asid : BitVec 16) (line : Nat) (h : MemoryOk s) :
    MemoryOk (s.fillLine c asid line).2 := by
  unfold State.fillLine
  split
  · exact h
  · refine memoryOk_setCore _ _ ?_
    split
    · exact h
    · split
      · exact memoryOk_flushLines _ _ _ h
      · exact h

theorem memoryOk_cacheRead {s : State} (c : Nat) (asid : BitVec 16) (off n : Nat) (h : MemoryOk s) :
    MemoryOk (s.cacheRead c asid off n).2 := memoryOk_fillLine c asid _ (memoryOk_evict c h)

theorem memoryOk_cacheWrite {s : State} (c : Nat) (asid : BitVec 16) (off : Nat) (bs : List Byte) (w : FRef × Nat)
    (h : MemoryOk s) : MemoryOk (s.cacheWrite c asid off bs w) :=
  memoryOk_setCore c _ (memoryOk_fillLine c asid _ (memoryOk_evict c h))

theorem memoryOk_postGroup {s : State} (x : Group) (n : Nat) (kind status : BitVec 8) (pc va : Dword) (h : MemoryOk s) :
    MemoryOk (s.postGroup x n kind status pc va) := by
  unfold State.postGroup
  exact memoryOk_postFault _ _ h

theorem memoryOk_debugStop {s : State} {x : Group} (r : FRef) (f : Fibre) (c : Cause) (v : Dword)
    (hx : Memory.wf x.scratch = true) (h : MemoryOk s) : MemoryOk (s.debugStop x r f c v) := by
  unfold State.debugStop
  refine memoryOk_postGroup _ _ _ _ _ _ (memoryOk_setGroup _ ?_ h)
  split <;> exact hx

theorem memoryOk_unhandled {s : State} {x : Group} (r : FRef) (f : Fibre) (c : Cause) (v : Dword)
    (hx : Memory.wf x.scratch = true) (h : MemoryOk s) : MemoryOk (s.unhandled x r f c v) := by
  unfold State.unhandled
  refine memoryOk_postGroup _ _ _ _ _ _ ?_
  exact foldl_keeps MemoryOk _ _ _ (memoryOk_setGroup _ hx h) fun t k ht => memoryOk_updGroup k (fun _ hy => hy) ht

/-- A trap writes no memory but a fault record. -/
theorem memoryOk_takeTrap {s : State} (r : FRef) (c : Cause) (v : Dword) (h : MemoryOk s) : MemoryOk (s.takeTrap r c v) := by
  unfold State.takeTrap
  split
  · exact h
  · next x hx =>
    have hw := memoryOk_group h hx
    split
    · exact h
    · split
      · exact memoryOk_debugStop _ _ _ _ hw h
      · split
        · exact memoryOk_unhandled _ _ _ _ hw h
        · exact memoryOk_setGroup _ hw h

theorem memoryOk_finish {s : State} (o : Op) (h : MemoryOk s) : MemoryOk (s.finish o) :=
  memoryOk_updFibre _ _ (memoryOk_of_eq h rfl rfl rfl rfl)

theorem memoryOk_settleDbg {s : State} (h : MemoryOk s) : MemoryOk s.settleDbg := by
  unfold State.settleDbg
  split
  · exact h
  · split
    · exact h
    · split
      · exact h
      · split
        · exact h
        · exact memoryOk_of_eq (memoryOk_updFibre _ _ h) rfl rfl rfl rfl

theorem memoryOk_park {s : State} (r : FRef) (va : Dword) (page acc : Nat) (h : MemoryOk s) : MemoryOk (s.parkAsk r va page acc) := by
  have h1 : MemoryOk (s.park r va page acc) := by
    refine memoryOk_updGroup _ (fun x hx => ?_) h
    dsimp only
    split <;> simpa using hx
  unfold State.parkAsk State.wantPage
  split
  · exact h1
  · exact h1

/-- The state that an outcome of an issue holds. -/
def resState : Res → State
  | .ok s => s
  | .keep s => s
  | .trap s _ _ => s
  | .stall s _ => s
  | .park s _ _ _ => s

/-- The end of an issue writes no memory but a fault record. -/
theorem memoryOk_commit {r : Res} (k : FRef) (cycle : Nat) (h : MemoryOk (resState r)) : MemoryOk (r.commit k cycle) := by
  cases r with
  | ok t => exact memoryOk_updFibre _ _ h
  | keep t => exact memoryOk_updFibre _ _ h
  | trap t c v => exact memoryOk_takeTrap _ _ _ h
  | stall t w => exact memoryOk_updFibre _ _ h
  | park t va page acc => exact memoryOk_park _ _ _ _ h

/-- Whatever a word does as it issues, it keeps the canonical form where its operation does. -/
theorem memoryOk_runWord {i : Instr} {h : Hdr} {w : Group → Fibre → WordSpec} {body : Group → Fibre → State → Res}
    {s t : State} (hm : MemoryOk s) (hb : ∀ g f, MemoryOk (resState (body g f s))) (ht : runWord i h w body s = .next t) :
    MemoryOk t := by
  unfold runWord at ht
  split at ht
  · injection ht with ht; exact ht ▸ hm
  · split at ht
    · injection ht with ht; exact ht ▸ hm
    · injection ht with ht
      subst ht
      refine memoryOk_commit _ _ ?_
      unfold issueWord
      dsimp only
      split
      · exact hm
      · split
        · exact hm
        · split
          · exact hm
          · split
            · exact hm
            · split
              · exact hm
              · split
                · exact hm
                · split
                  · exact hm
                  · split
                    · split
                      · exact hb _ _
                      · exact memoryOk_updFibre _ _ hm
                    · exact hb _ _

end Sys2Proof.Laws
end

