-- ==== Sys2Proof/Laws/PerInstr.lean ====
section
/-! SUPPORT. Families of statements made per instruction. -/

/-- An instruction has at most one form: a word of a code stream, a packet of a work queue, or an entry of a chain. -/
def Sys2Proof.Laws.OneForm.Statement (i : Sys2Proof.Instr) : Prop :=
  Sys2Proof.encodeWord i = none ∨ (Sys2Proof.encodePacket i = none ∧ Sys2Proof.encodeEntry i = none)

namespace Sys2Proof.Laws.OneForm

open Sys2Proof

theorem clause (c : Clause) : Statement (.clause c) := .inr ⟨rfl, rfl⟩
theorem nop (h : Hdr) : Statement (.nop h) := .inr ⟨rfl, rfl⟩
theorem yield (h : Hdr) : Statement (.yield h) := .inr ⟨rfl, rfl⟩
theorem bra (h : Hdr) (imm : BitVec 40) : Statement (.bra h imm) := .inr ⟨rfl, rfl⟩
theorem brx (h : Hdr) (a : Reg) : Statement (.brx h a) := .inr ⟨rfl, rfl⟩
theorem call (h : Hdr) (d : Reg) (imm : BitVec 40) : Statement (.call h d imm) := .inr ⟨rfl, rfl⟩
theorem ret (h : Hdr) (a : Reg) : Statement (.ret h a) := .inr ⟨rfl, rfl⟩
theorem jset (h : Hdr) (m : BitVec 3) : Statement (.jset h m) := .inr ⟨rfl, rfl⟩
theorem jwait (h : Hdr) (m : BitVec 3) : Statement (.jwait h m) := .inr ⟨rfl, rfl⟩
theorem jwaitt (h : Hdr) (p : BitVec 4) (m : BitVec 3) (budget : BitVec 16) :
    Statement (.jwaitt h p m budget) := .inr ⟨rfl, rfl⟩
theorem jdrop (h : Hdr) (m : BitVec 3) : Statement (.jdrop h m) := .inr ⟨rfl, rfl⟩
theorem jwaittBudgetExpiry (g f : Nat) : Statement (.jwaittBudgetExpiry g f) := .inr ⟨rfl, rfl⟩
theorem fnew (h : Hdr) (d a : Reg) (b : Src) : Statement (.fnew h d a b) := .inr ⟨rfl, rfl⟩
theorem fend (h : Hdr) : Statement (.fend h) := .inr ⟨rfl, rfl⟩
theorem bar (h : Hdr) (n : BitVec 4) : Statement (.bar h n) := .inr ⟨rfl, rfl⟩
theorem bara (h : Hdr) (n : BitVec 4) : Statement (.bara h n) := .inr ⟨rfl, rfl⟩
theorem barw (h : Hdr) (n : BitVec 4) : Statement (.barw h n) := .inr ⟨rfl, rfl⟩
theorem cbar (h : Hdr) : Statement (.cbar h) := .inr ⟨rfl, rfl⟩
theorem cbarx (h : Hdr) : Statement (.cbarx h) := .inr ⟨rfl, rfl⟩
theorem task (h : Hdr) (d a b : Reg) : Statement (.task h d a b) := .inr ⟨rfl, rfl⟩
theorem taskWaveStart (g : Nat) : Statement (.taskWaveStart g) := .inr ⟨rfl, rfl⟩
theorem fork (h : Hdr) (d a : Reg) : Statement (.fork h d a) := .inr ⟨rfl, rfl⟩
theorem rxchg (h : Hdr) (d a : Reg) (b : Src) (ty : Ty) (mode : XMode) (m : BitVec 3) :
    Statement (.rxchg h d a b ty mode m) := .inr ⟨rfl, rfl⟩
theorem rvote (h : Hdr) (d : VoteDst) (a : BitVec 4) (mode : VMode) (m : BitVec 3) :
    Statement (.rvote h d a mode m) := .inr ⟨rfl, rfl⟩
theorem rred (h : Hdr) (d a : Reg) (ty : Ty) (op : AtomOp) (m : BitVec 3) :
    Statement (.rred h d a ty op m) := .inr ⟨rfl, rfl⟩
theorem sharedUnitAccept (c : Nat) (u : UnitId) : Statement (.sharedUnitAccept c u) := .inr ⟨rfl, rfl⟩
theorem groupSwitchOut (g : Nat) : Statement (.groupSwitchOut g) := .inr ⟨rfl, rfl⟩
theorem mov (h : Hdr) (d : Reg) (a : Src) (ty : Ty) : Statement (.mov h d a ty) := .inr ⟨rfl, rfl⟩
theorem movi (h : Hdr) (d : Reg) (wide : Bool) (imm : BitVec 40) : Statement (.movi h d wide imm) := .inr ⟨rfl, rfl⟩
theorem xset (h : Hdr) (i : BitVec 2) (imm : BitVec 40) : Statement (.xset h i imm) := .inr ⟨rfl, rfl⟩
theorem xadd (h : Hdr) (i : BitVec 2) (imm : BitVec 40) : Statement (.xadd h i imm) := .inr ⟨rfl, rfl⟩
theorem xmov (h : Hdr) (x : XMov) : Statement (.xmov h x) := .inr ⟨rfl, rfl⟩
theorem sel (h : Hdr) (d : Reg) (a : Src) (p : BitVec 4) (ty : Ty) (inv : Bool) :
    Statement (.sel h d a p ty inv) := .inr ⟨rfl, rfl⟩
theorem iadd (h : Hdr) (d : Reg) (a b : Src) (ty : Ty) (sat : Bool) :
    Statement (.iadd h d a b ty sat) := .inr ⟨rfl, rfl⟩
theorem isub (h : Hdr) (d : Reg) (a b : Src) (ty : Ty) (sat : Bool) :
    Statement (.isub h d a b ty sat) := .inr ⟨rfl, rfl⟩
theorem imul (h : Hdr) (d : Reg) (a b : Src) (ty : Ty) (sat : Bool) :
    Statement (.imul h d a b ty sat) := .inr ⟨rfl, rfl⟩
theorem imulh (h : Hdr) (d : Reg) (a b : Src) (ty : Ty) : Statement (.imulh h d a b ty) := .inr ⟨rfl, rfl⟩
theorem imad (h : Hdr) (d : Reg) (a b : Src) (ty : Ty) (sat : Bool) :
    Statement (.imad h d a b ty sat) := .inr ⟨rfl, rfl⟩
theorem idiv (h : Hdr) (d : Reg) (a b : Src) (ty : Ty) (sat : Bool) :
    Statement (.idiv h d a b ty sat) := .inr ⟨rfl, rfl⟩
theorem irem (h : Hdr) (d : Reg) (a b : Src) (ty : Ty) : Statement (.irem h d a b ty) := .inr ⟨rfl, rfl⟩
theorem imin (h : Hdr) (d : Reg) (a b : Src) (ty : Ty) : Statement (.imin h d a b ty) := .inr ⟨rfl, rfl⟩
theorem imax (h : Hdr) (d : Reg) (a b : Src) (ty : Ty) : Statement (.imax h d a b ty) := .inr ⟨rfl, rfl⟩
theorem iabs (h : Hdr) (d : Reg) (a : Src) (ty : Ty) (sat : Bool) : Statement (.iabs h d a ty sat) := .inr ⟨rfl, rfl⟩
theorem ineg (h : Hdr) (d : Reg) (a : Src) (ty : Ty) (sat : Bool) : Statement (.ineg h d a ty sat) := .inr ⟨rfl, rfl⟩
theorem and (h : Hdr) (d : Reg) (a b : Src) (ty : Ty) : Statement (.and h d a b ty) := .inr ⟨rfl, rfl⟩
theorem or (h : Hdr) (d : Reg) (a b : Src) (ty : Ty) : Statement (.or h d a b ty) := .inr ⟨rfl, rfl⟩
theorem xor (h : Hdr) (d : Reg) (a b : Src) (ty : Ty) : Statement (.xor h d a b ty) := .inr ⟨rfl, rfl⟩
theorem not (h : Hdr) (d : Reg) (a : Src) (ty : Ty) : Statement (.not h d a ty) := .inr ⟨rfl, rfl⟩
theorem andn (h : Hdr) (d : Reg) (a b : Src) (ty : Ty) : Statement (.andn h d a b ty) := .inr ⟨rfl, rfl⟩
theorem shl (h : Hdr) (d : Reg) (a b : Src) (ty : Ty) : Statement (.shl h d a b ty) := .inr ⟨rfl, rfl⟩
theorem shr (h : Hdr) (d : Reg) (a b : Src) (ty : Ty) : Statement (.shr h d a b ty) := .inr ⟨rfl, rfl⟩
theorem sar (h : Hdr) (d : Reg) (a b : Src) (ty : Ty) : Statement (.sar h d a b ty) := .inr ⟨rfl, rfl⟩
theorem rotl (h : Hdr) (d : Reg) (a b : Src) (ty : Ty) : Statement (.rotl h d a b ty) := .inr ⟨rfl, rfl⟩
theorem popc (h : Hdr) (d a : Reg) (ty : Ty) : Statement (.popc h d a ty) := .inr ⟨rfl, rfl⟩
theorem clz (h : Hdr) (d a : Reg) (ty : Ty) : Statement (.clz h d a ty) := .inr ⟨rfl, rfl⟩
theorem brev (h : Hdr) (d a : Reg) (ty : Ty) : Statement (.brev h d a ty) := .inr ⟨rfl, rfl⟩
theorem bfx (h : Hdr) (d a : Reg) (b : Src) (ty : Ty) (len : BitVec 8) :
    Statement (.bfx h d a b ty len) := .inr ⟨rfl, rfl⟩
theorem bfi (h : Hdr) (d : Reg) (a b : Src) (ty : Ty) (len : BitVec 8) :
    Statement (.bfi h d a b ty len) := .inr ⟨rfl, rfl⟩
theorem aadd (h : Hdr) (d a : Reg) (b : Src) (ty : Ty) : Statement (.aadd h d a b ty) := .inr ⟨rfl, rfl⟩
theorem amad (h : Hdr) (d : Reg) (a b : Src) (ty : Ty) : Statement (.amad h d a b ty) := .inr ⟨rfl, rfl⟩
theorem icmp (h : Hdr) (d : BitVec 4) (a b : Src) (ty : Ty) (c : Cond) :
    Statement (.icmp h d a b ty c) := .inr ⟨rfl, rfl⟩
theorem plop (h : Hdr) (d a b lut : BitVec 4) : Statement (.plop h d a b lut) := .inr ⟨rfl, rfl⟩
theorem pmov (h : Hdr) (x : PMov) : Statement (.pmov h x) := .inr ⟨rfl, rfl⟩
theorem sread (h : Hdr) (d : Reg) (x : SysReg) : Statement (.sread h d x) := .inr ⟨rfl, rfl⟩
theorem claim (h : Hdr) (d : Reg) (c : BitVec 14) : Statement (.claim h d c) := .inr ⟨rfl, rfl⟩
theorem surr (h : Hdr) (d : Reg) (c : BitVec 14) : Statement (.surr h d c) := .inr ⟨rfl, rfl⟩
theorem claimGrant (g : Nat) : Statement (.claimGrant g) := .inr ⟨rfl, rfl⟩
theorem fadd (h : Hdr) (d : Reg) (a b : Src) (ty : Ty) (rnd : Rnd) (sat : Bool) :
    Statement (.fadd h d a b ty rnd sat) := .inr ⟨rfl, rfl⟩
theorem fsub (h : Hdr) (d : Reg) (a b : Src) (ty : Ty) (rnd : Rnd) (sat : Bool) :
    Statement (.fsub h d a b ty rnd sat) := .inr ⟨rfl, rfl⟩
theorem fmul (h : Hdr) (d : Reg) (a b : Src) (ty : Ty) (rnd : Rnd) (sat : Bool) :
    Statement (.fmul h d a b ty rnd sat) := .inr ⟨rfl, rfl⟩
theorem ffma (h : Hdr) (d : Reg) (a b : Src) (ty : Ty) (rnd : Rnd) (sat : Bool) :
    Statement (.ffma h d a b ty rnd sat) := .inr ⟨rfl, rfl⟩
theorem fmin (h : Hdr) (d : Reg) (a b : Src) (ty : Ty) : Statement (.fmin h d a b ty) := .inr ⟨rfl, rfl⟩
theorem fmax (h : Hdr) (d : Reg) (a b : Src) (ty : Ty) : Statement (.fmax h d a b ty) := .inr ⟨rfl, rfl⟩
theorem fcmp (h : Hdr) (d : BitVec 4) (a b : Src) (ty : Ty) (c : Cond) :
    Statement (.fcmp h d a b ty c) := .inr ⟨rfl, rfl⟩
theorem frcp (h : Hdr) (d : Reg) (a : Src) (ty : Ty) : Statement (.frcp h d a ty) := .inr ⟨rfl, rfl⟩
theorem frsq (h : Hdr) (d : Reg) (a : Src) (ty : Ty) : Statement (.frsq h d a ty) := .inr ⟨rfl, rfl⟩
theorem fexp2 (h : Hdr) (d : Reg) (a : Src) (ty : Ty) : Statement (.fexp2 h d a ty) := .inr ⟨rfl, rfl⟩
theorem flog2 (h : Hdr) (d : Reg) (a : Src) (ty : Ty) : Statement (.flog2 h d a ty) := .inr ⟨rfl, rfl⟩
theorem ftanh (h : Hdr) (d : Reg) (a : Src) (ty : Ty) : Statement (.ftanh h d a ty) := .inr ⟨rfl, rfl⟩
theorem fsin (h : Hdr) (d : Reg) (a : Src) (ty : Ty) : Statement (.fsin h d a ty) := .inr ⟨rfl, rfl⟩
theorem fcos (h : Hdr) (d : Reg) (a : Src) (ty : Ty) : Statement (.fcos h d a ty) := .inr ⟨rfl, rfl⟩
theorem hadd2 (h : Hdr) (d : Reg) (a b : Src) (ty : Ty) (rnd : Rnd) (sat : Bool) :
    Statement (.hadd2 h d a b ty rnd sat) := .inr ⟨rfl, rfl⟩
theorem hmul2 (h : Hdr) (d : Reg) (a b : Src) (ty : Ty) (rnd : Rnd) (sat : Bool) :
    Statement (.hmul2 h d a b ty rnd sat) := .inr ⟨rfl, rfl⟩
theorem hfma2 (h : Hdr) (d : Reg) (a b : Src) (ty : Ty) (rnd : Rnd) (sat : Bool) :
    Statement (.hfma2 h d a b ty rnd sat) := .inr ⟨rfl, rfl⟩
theorem cvt (h : Hdr) (d : Reg) (a : Src) (ty ty2 : Ty) (rnd : Rnd) (sat : Bool) (bsel : BitVec 2) (hi : Bool) :
    Statement (.cvt h d a ty ty2 rnd sat bsel hi) := .inr ⟨rfl, rfl⟩
theorem cvtp (h : Hdr) (d a : Reg) (ty : Ty) (rnd : Rnd) (sat : Bool) :
    Statement (.cvtp h d a ty rnd sat) := .inr ⟨rfl, rfl⟩
theorem cvtx (h : Hdr) (d a b : Reg) (ty : Ty) (rnd : Rnd) : Statement (.cvtx h d a b ty rnd) := .inr ⟨rfl, rfl⟩
theorem ld (h : Hdr) (d : Reg) (m : Mem) (ty : Ty) : Statement (.ld h d m ty) := .inr ⟨rfl, rfl⟩
theorem st (h : Hdr) (d : Reg) (m : Mem) (ty : Ty) : Statement (.st h d m ty) := .inr ⟨rfl, rfl⟩
theorem atom (h : Hdr) (d : Reg) (m : Mem) (ty : Ty) (op : AtomOp) : Statement (.atom h d m ty op) := .inr ⟨rfl, rfl⟩
theorem red (h : Hdr) (d : Reg) (m : Mem) (ty : Ty) (op : AtomOp) : Statement (.red h d m ty op) := .inr ⟨rfl, rfl⟩
theorem probe (h : Hdr) (d : Reg) (m : Mem) : Statement (.probe h d m) := .inr ⟨rfl, rfl⟩
theorem pageRequestPost (c : Nat) : Statement (.pageRequestPost c) := .inr ⟨rfl, rfl⟩
theorem countedCompletion (o : Nat) : Statement (.countedCompletion o) := .inr ⟨rfl, rfl⟩
theorem ldp (h : Hdr) (d : Reg) (m : Mem) (ty : Ty) : Statement (.ldp h d m ty) := .inr ⟨rfl, rfl⟩
theorem stp (h : Hdr) (d : Reg) (m : Mem) (ty : Ty) : Statement (.stp h d m ty) := .inr ⟨rfl, rfl⟩
theorem atomp (h : Hdr) (d : Reg) (m : Mem) (ty : Ty) (op : AtomOp) :
    Statement (.atomp h d m ty op) := .inr ⟨rfl, rfl⟩
theorem ldc (h : Hdr) (d : Reg) (m : Mem) (ty : Ty) : Statement (.ldc h d m ty) := .inr ⟨rfl, rfl⟩
theorem stc (h : Hdr) (d : Reg) (m : Mem) (ty : Ty) : Statement (.stc h d m ty) := .inr ⟨rfl, rfl⟩
theorem bdecl (h : Hdr) (n : BitVec 6) (a b : Src) (ty : Ty) (exp : BitVec 2) :
    Statement (.bdecl h n a b ty exp) := .inr ⟨rfl, rfl⟩
theorem bseal (h : Hdr) (n : BitVec 6) : Statement (.bseal h n) := .inr ⟨rfl, rfl⟩
theorem bdrain (h : Hdr) (n : BitVec 6) : Statement (.bdrain h n) := .inr ⟨rfl, rfl⟩
theorem bdone (h : Hdr) (n : BitVec 6) : Statement (.bdone h n) := .inr ⟨rfl, rfl⟩
theorem bufferTransitionEffect (g : Nat) : Statement (.bufferTransitionEffect g) := .inr ⟨rfl, rfl⟩
theorem bstat (h : Hdr) (d : Reg) (n : BitVec 6) : Statement (.bstat h d n) := .inr ⟨rfl, rfl⟩
theorem vadd (h : Hdr) (w : Sweep) : Statement (.vadd h w) := .inr ⟨rfl, rfl⟩
theorem vsub (h : Hdr) (w : Sweep) : Statement (.vsub h w) := .inr ⟨rfl, rfl⟩
theorem vmul (h : Hdr) (w : Sweep) : Statement (.vmul h w) := .inr ⟨rfl, rfl⟩
theorem vfma (h : Hdr) (w : Sweep) : Statement (.vfma h w) := .inr ⟨rfl, rfl⟩
theorem vmin (h : Hdr) (w : Sweep) : Statement (.vmin h w) := .inr ⟨rfl, rfl⟩
theorem vmax (h : Hdr) (w : Sweep) : Statement (.vmax h w) := .inr ⟨rfl, rfl⟩
theorem vabs (h : Hdr) (w : Sweep) : Statement (.vabs h w) := .inr ⟨rfl, rfl⟩
theorem vexp2 (h : Hdr) (w : Sweep) : Statement (.vexp2 h w) := .inr ⟨rfl, rfl⟩
theorem vrcp (h : Hdr) (w : Sweep) : Statement (.vrcp h w) := .inr ⟨rfl, rfl⟩
theorem vrsq (h : Hdr) (w : Sweep) : Statement (.vrsq h w) := .inr ⟨rfl, rfl⟩
theorem vtanh (h : Hdr) (w : Sweep) : Statement (.vtanh h w) := .inr ⟨rfl, rfl⟩
theorem vcvt (h : Hdr) (w : Sweep) : Statement (.vcvt h w) := .inr ⟨rfl, rfl⟩
theorem vcpy (h : Hdr) (w : Sweep) : Statement (.vcpy h w) := .inr ⟨rfl, rfl⟩
theorem vfill (h : Hdr) (w : Sweep) : Statement (.vfill h w) := .inr ⟨rfl, rfl⟩
theorem vsumr (h : Hdr) (w : Sweep) : Statement (.vsumr h w) := .inr ⟨rfl, rfl⟩
theorem vmaxr (h : Hdr) (w : Sweep) : Statement (.vmaxr h w) := .inr ⟨rfl, rfl⟩
theorem vscal (h : Hdr) (w : Sweep) : Statement (.vscal h w) := .inr ⟨rfl, rfl⟩
theorem vselp (h : Hdr) (w : Sweep) : Statement (.vselp h w) := .inr ⟨rfl, rfl⟩
theorem sweepComplete (c : Nat) : Statement (.sweepComplete c) := .inr ⟨rfl, rfl⟩
theorem wld (h : Hdr) (m : Mem) (ty : Ty) (sp : Sparsity) : Statement (.wld h m ty sp) := .inr ⟨rfl, rfl⟩
theorem wldx (h : Hdr) (m : Mem) (ty : Ty) : Statement (.wldx h m ty) := .inr ⟨rfl, rfl⟩
theorem wswap (h : Hdr) (a : Src) : Statement (.wswap h a) := .inr ⟨rfl, rfl⟩
theorem planeSwap (g : Nat) : Statement (.planeSwap g) := .inr ⟨rfl, rfl⟩
theorem mma (h : Hdr) (t : BitVec 4) (a : Reg) (ty : Ty) (kb : BitVec 3) :
    Statement (.mma h t a ty kb) := .inr ⟨rfl, rfl⟩
theorem mmab (h : Hdr) (t : BitVec 4) (a : Reg) (ty : Ty) (q : BitVec 2) :
    Statement (.mmab h t a ty q) := .inr ⟨rfl, rfl⟩
theorem mmax (h : Hdr) (t : BitVec 4) (a s : Reg) (ty : Ty) (bsel : BitVec 2) (kb : BitVec 3) :
    Statement (.mmax h t a s ty bsel kb) := .inr ⟨rfl, rfl⟩
theorem azero (h : Hdr) (t : BitVec 4) : Statement (.azero h t) := .inr ⟨rfl, rfl⟩
theorem ald (h : Hdr) (t : BitVec 4) (m : Mem) : Statement (.ald h t m) := .inr ⟨rfl, rfl⟩
theorem ast (h : Hdr) (t : BitVec 4) (m : Mem) : Statement (.ast h t m) := .inr ⟨rfl, rfl⟩
theorem amov (h : Hdr) (t u : BitVec 4) : Statement (.amov h t u) := .inr ⟨rfl, rfl⟩
theorem matrixOpPerform (o : Nat) : Statement (.matrixOpPerform o) := .inr ⟨rfl, rfl⟩
theorem qst (h : Hdr) (t : BitVec 4) (m : Mem) (ty : Ty) (rnd : Rnd) (sat : Bool) (h3 : BitVec 3) (mx : Bool) :
    Statement (.qst h t m ty rnd sat h3 mx) := .inr ⟨rfl, rfl⟩
theorem qstp (h : Hdr) (d : Reg) (m : Mem) (ty : Ty) (rnd : Rnd) (sat : Bool) (h3 : BitVec 3) (mx : Bool) :
    Statement (.qstp h d m ty rnd sat h3 mx) := .inr ⟨rfl, rfl⟩
theorem qstTurnAccept (g f : Nat) : Statement (.qstTurnAccept g f) := .inr ⟨rfl, rfl⟩
theorem hdecl (h : Hdr) (b : BitVec 3) (a : Reg) (len : BitVec 14) (ty : Ty) (axis wrap mx : Bool) (rows : BitVec 5) :
    Statement (.hdecl h b a len ty axis wrap mx rows) := .inr ⟨rfl, rfl⟩
theorem hsave (h : Hdr) (b : BitVec 3) (m : Mem) : Statement (.hsave h b m) := .inr ⟨rfl, rfl⟩
theorem hload (h : Hdr) (b : BitVec 3) (m : Mem) : Statement (.hload h b m) := .inr ⟨rfl, rfl⟩
theorem hclr (h : Hdr) (b : BitVec 3) : Statement (.hclr h b) := .inr ⟨rfl, rfl⟩
theorem bankOpPerform (o : Nat) : Statement (.bankOpPerform o) := .inr ⟨rfl, rfl⟩
theorem winset (h : Hdr) (d : Reg) (a : Src) : Statement (.winset h d a) := .inr ⟨rfl, rfl⟩
theorem fetch (h : Hdr) (n : BitVec 6) (m : Mem) (ab : BitVec 4) (link : Bool) :
    Statement (.fetch h n m ab link) := .inr ⟨rfl, rfl⟩
theorem put (h : Hdr) (n : BitVec 6) (m : Mem) (ab : BitVec 4) (link : Bool) :
    Statement (.put h n m ab link) := .inr ⟨rfl, rfl⟩
theorem redt (h : Hdr) (n : BitVec 6) (m : Mem) (ab : BitVec 4) (link : Bool) :
    Statement (.redt h n m ab link) := .inr ⟨rfl, rfl⟩
theorem postAccept (o : Nat) : Statement (.postAccept o) := .inr ⟨rfl, rfl⟩
theorem transferArrival (o : Nat) : Statement (.transferArrival o) := .inr ⟨rfl, rfl⟩
theorem putCompletion (o : Nat) : Statement (.putCompletion o) := .inr ⟨rfl, rfl⟩
theorem fatom (h : Hdr) (d : Reg) (m : Mem) (ty : Ty) (op : AtomOp) :
    Statement (.fatom h d m ty op) := .inr ⟨rfl, rfl⟩
theorem abar (h : Hdr) (a : Src) (ab : BitVec 4) : Statement (.abar h a ab) := .inr ⟨rfl, rfl⟩
theorem await (h : Hdr) (p ab : BitVec 4) : Statement (.await h p ab) := .inr ⟨rfl, rfl⟩
theorem etail (h : Hdr) (d : Reg) (a b : Src) : Statement (.etail h d a b) := .inr ⟨rfl, rfl⟩
theorem etailRst (h : Hdr) (d : Reg) (a : Src) (b : Reg) : Statement (.etailRst h d a b) := .inr ⟨rfl, rfl⟩
theorem eseq (h : Hdr) (d : Reg) (a : Src) : Statement (.eseq h d a) := .inr ⟨rfl, rfl⟩
theorem ewait (h : Hdr) (p : BitVec 4) (a b : Src) : Statement (.ewait h p a b) := .inr ⟨rfl, rfl⟩
theorem engineEntryForward (ctx hnd : Nat) : Statement (.engineEntryForward ctx hnd) := .inr ⟨rfl, rfl⟩
theorem engineEntryComplete (slot : Nat) : Statement (.engineEntryComplete slot) := .inr ⟨rfl, rfl⟩
theorem engineChainFail (slot : Nat) : Statement (.engineChainFail slot) := .inr ⟨rfl, rfl⟩
theorem copy (d a : EOp) (len : BitVec 32) : Statement (.copy d a len) := .inl rfl
theorem reduce (d a b : EOp) (ty : Ty) (mode : EMode) (len : BitVec 32) :
    Statement (.reduce d a b ty mode len) := .inl rfl
theorem fill (d : EOp) (pat : Dword) (len : BitVec 32) : Statement (.fill d pat len) := .inl rfl
theorem tload (a : BitVec 56) (len : BitVec 32) : Statement (.tload a len) := .inl rfl
theorem transduce (d a : EOp) (start : Option (BitVec 12)) (cap len : BitVec 32) :
    Statement (.transduce d a start cap len) := .inl rfl
theorem engineQfence (pairs : List (BitVec 12 × BitVec 52)) : Statement (.engineQfence pairs) := .inl rfl
theorem metard (va : BitVec 56) : Statement (.metard va) := .inl rfl
theorem metawr (va : BitVec 56) (ce : Bool) : Statement (.metawr va ce) := .inl rfl
theorem slotbind (slot : BitVec 8) (owner : Option Owner) : Statement (.slotbind slot owner) := .inl rfl
theorem fifoStall (fifo : Nat) : Statement (.fifoStall fifo) := .inr ⟨rfl, rfl⟩
theorem xld (h : Hdr) (d : Reg) (m : Mem) (ty : Ty) : Statement (.xld h d m ty) := .inr ⟨rfl, rfl⟩
theorem xst (h : Hdr) (d : Reg) (m : Mem) (ty : Ty) : Statement (.xst h d m ty) := .inr ⟨rfl, rfl⟩
theorem xatom (h : Hdr) (d : Reg) (m : Mem) (ty : Ty) (op : AtomOp) :
    Statement (.xatom h d m ty op) := .inr ⟨rfl, rfl⟩
theorem xputq (h : Hdr) (m : Mem) : Statement (.xputq h m) := .inr ⟨rfl, rfl⟩
theorem sput (h : Hdr) (d : Reg) (m : Mem) (ty : Ty) : Statement (.sput h d m ty) := .inr ⟨rfl, rfl⟩
theorem swait (h : Hdr) (p : BitVec 4) (a : Src) : Statement (.swait h p a) := .inr ⟨rfl, rfl⟩
theorem sstat (h : Hdr) (d : Reg) (a : Src) : Statement (.sstat h d a) := .inr ⟨rfl, rfl⟩
theorem ctile (h : Hdr) (n : BitVec 6) (m : Mem) (k : CollKind) : Statement (.ctile h n m k) := .inr ⟨rfl, rfl⟩
theorem busyRetry (o : Nat) : Statement (.busyRetry o) := .inr ⟨rfl, rfl⟩
theorem collWatchdog (o p : Nat) : Statement (.collWatchdog o p) := .inr ⟨rfl, rfl⟩
theorem fence (h : Hdr) (sc : Scope) (k : FenceKind) : Statement (.fence h sc k) := .inr ⟨rfl, rfl⟩
theorem acq (h : Hdr) (d : Reg) (m : Mem) : Statement (.acq h d m) := .inr ⟨rfl, rfl⟩
theorem rel (h : Hdr) (m : Mem) : Statement (.rel h m) := .inr ⟨rfl, rfl⟩
theorem bind (h : Hdr) (d a b : Reg) : Statement (.bind h d a b) := .inr ⟨rfl, rfl⟩
theorem unbind (h : Hdr) (d b : Reg) : Statement (.unbind h d b) := .inr ⟨rfl, rfl⟩
theorem hintnext (h : Hdr) (n : BitVec 14) : Statement (.hintnext h n) := .inr ⟨rfl, rfl⟩
theorem waitpred (h : Hdr) : Statement (.waitpred h) := .inr ⟨rfl, rfl⟩
theorem qpost (h : Hdr) (d a b : Reg) : Statement (.qpost h d a b) := .inr ⟨rfl, rfl⟩
theorem signal (h : Hdr) (d : Reg) (m : Mem) (add irq : Bool) : Statement (.signal h d m add irq) := .inr ⟨rfl, rfl⟩
theorem tfence (h : Hdr) : Statement (.tfence h) := .inr ⟨rfl, rfl⟩
theorem trap (h : Hdr) (a : Src) : Statement (.trap h a) := .inr ⟨rfl, rfl⟩
theorem brk (h : Hdr) (a : Src) : Statement (.brk h a) := .inr ⟨rfl, rfl⟩
theorem tret (h : Hdr) : Statement (.tret h) := .inr ⟨rfl, rfl⟩
theorem tmask (h : Hdr) (d : Reg) (x : TMaskArg) : Statement (.tmask h d x) := .inr ⟨rfl, rfl⟩
theorem flags (h : Hdr) (d : Reg) (a : Src) : Statement (.flags h d a) := .inr ⟨rfl, rfl⟩
theorem sysr (h : Hdr) (d : Reg) (n : BitVec 2) : Statement (.sysr h d n) := .inr ⟨rfl, rfl⟩
theorem sysw (h : Hdr) (x : SysReg) (a : Reg) : Statement (.sysw h x a) := .inr ⟨rfl, rfl⟩
theorem groupSave (g : Nat) : Statement (.groupSave g) := .inr ⟨rfl, rfl⟩
theorem groupPlace (pad : Nat) : Statement (.groupPlace pad) := .inr ⟨rfl, rfl⟩
theorem launchStart (l : Nat) : Statement (.launchStart l) := .inr ⟨rfl, rfl⟩
theorem launchComplete (l : Nat) : Statement (.launchComplete l) := .inr ⟨rfl, rfl⟩
theorem quantumExpiry (pad : Nat) : Statement (.quantumExpiry pad) := .inr ⟨rfl, rfl⟩
theorem launch (record : Dword) : Statement (.launch record) := .inl rfl
theorem launchi (record grid : Dword) : Statement (.launchi record grid) := .inl rfl
theorem waitseq (cyc : Bool) (va value : Dword) : Statement (.waitseq cyc va value) := .inl rfl
theorem signalPacket (add irq : Bool) (va value : Dword) : Statement (.signalPacket add irq va value) := .inl rfl
theorem loop (count : BitVec 32) : Statement (.loop count) := .inl rfl
theorem endloop (on : Bool) (c : PCond) (va value mask : Dword) : Statement (.endloop on c va value mask) := .inl rfl
theorem ifmem (c : PCond) (va value mask : Dword) : Statement (.ifmem c va value mask) := .inl rfl
theorem engcmd (hnd : BitVec 12) (n : Dword) : Statement (.engcmd hnd n) := .inl rfl
theorem stepb (n : Dword) : Statement (.stepb n) := .inl rfl
theorem hqTail (q : Nat) (v : HVal) : Statement (.hqTail q v) := .inr ⟨rfl, rfl⟩
theorem hqCtl (q : Nat) (v : HVal) : Statement (.hqCtl q v) := .inr ⟨rfl, rfl⟩
theorem clear (q : Nat) : Statement (.clear q) := .inr ⟨rfl, rfl⟩
theorem resume (q : Nat) : Statement (.resume q) := .inr ⟨rfl, rfl⟩
theorem pgResp (status : BitVec 2) (page : BitVec 40) (asid : BitVec 16) :
    Statement (.pgResp status page asid) := .inr ⟨rfl, rfl⟩
theorem tlbInvalRange (count : BitVec 32) (asid : BitVec 16) :
    Statement (.tlbInvalRange count asid) := .inr ⟨rfl, rfl⟩
theorem tlbInvalAsid (asid : BitVec 16) : Statement (.tlbInvalAsid asid) := .inr ⟨rfl, rfl⟩
theorem asidBind (asid : BitVec 16) : Statement (.asidBind asid) := .inr ⟨rfl, rfl⟩
theorem asidRelease (asid : BitVec 16) : Statement (.asidRelease asid) := .inr ⟨rfl, rfl⟩
theorem peerId (v : HVal) : Statement (.peerId v) := .inr ⟨rfl, rfl⟩
theorem peerTmo (v : HVal) : Statement (.peerTmo v) := .inr ⟨rfl, rfl⟩
theorem winReset (hnd : BitVec 16) : Statement (.winReset hnd) := .inr ⟨rfl, rfl⟩
theorem keyInval (slot : BitVec 13) : Statement (.keyInval slot) := .inr ⟨rfl, rfl⟩
theorem sramPool (v : HVal) : Statement (.sramPool v) := .inr ⟨rfl, rfl⟩
theorem sramIntake (v : HVal) : Statement (.sramIntake v) := .inr ⟨rfl, rfl⟩
theorem sramLcache (v : HVal) : Statement (.sramLcache v) := .inr ⟨rfl, rfl⟩
theorem stepCtl (v : HVal) : Statement (.stepCtl v) := .inr ⟨rfl, rfl⟩
theorem stepNum (v : HVal) : Statement (.stepNum v) := .inr ⟨rfl, rfl⟩
theorem stepDom (w : Nat) (v : HVal) : Statement (.stepDom w v) := .inr ⟨rfl, rfl⟩
theorem stepSpill (v : HVal) : Statement (.stepSpill v) := .inr ⟨rfl, rfl⟩
theorem optRing (v : HVal) : Statement (.optRing v) := .inr ⟨rfl, rfl⟩
theorem oeReset (e : BitVec 5) : Statement (.oeReset e) := .inr ⟨rfl, rfl⟩
theorem provision (m : BitVec 6) : Statement (.provision m) := .inr ⟨rfl, rfl⟩
theorem drain (m : BitVec 6) : Statement (.drain m) := .inr ⟨rfl, rfl⟩
theorem release (m : BitVec 6) : Statement (.release m) := .inr ⟨rfl, rfl⟩
theorem provIgnored (m : BitVec 6) : Statement (.provIgnored m) := .inr ⟨rfl, rfl⟩
theorem lsOff (s : BitVec 3) : Statement (.lsOff s) := .inr ⟨rfl, rfl⟩
theorem lsOn (s : BitVec 3) : Statement (.lsOn s) := .inr ⟨rfl, rfl⟩
theorem preemptCtl (pad : Nat) (v : Dword) : Statement (.preemptCtl pad v) := .inr ⟨rfl, rfl⟩
theorem dbgBadOperation (code : BitVec 4) : Statement (.dbgBadOperation code) := .inr ⟨rfl, rfl⟩
theorem pwrCap (v : HVal) : Statement (.pwrCap v) := .inr ⟨rfl, rfl⟩
theorem registerWrite (off : Nat) (v : HVal) : Statement (.registerWrite off v) := .inr ⟨rfl, rfl⟩
theorem ctileComplete (o : Nat) (status : BitVec 8) (parts : List CollPart) :
    Statement (.ctileComplete o status parts) := .inr ⟨rfl, rfl⟩
theorem inboundRead (r : InReq) (len : Nat) : Statement (.inboundRead r len) := .inr ⟨rfl, rfl⟩
theorem inboundWrite (r : InReq) (bytes : List (Option Byte)) : Statement (.inboundWrite r bytes) := .inr ⟨rfl, rfl⟩
theorem inboundAtomic (r : InReq) (op : AtomOp) (ty : Ty) (x y : Dword) :
    Statement (.inboundAtomic r op ty x y) := .inr ⟨rfl, rfl⟩
theorem inboundUnsupported (r : InReq) : Statement (.inboundUnsupported r) := .inr ⟨rfl, rfl⟩
theorem xputqInbound (r : InReq) (qword : Dword) (bytes : List Byte) :
    Statement (.xputqInbound r qword bytes) := .inr ⟨rfl, rfl⟩
theorem stepRecordInbound (r : InReq) (n : Nat) (bytes : List Byte) :
    Statement (.stepRecordInbound r n bytes) := .inr ⟨rfl, rfl⟩
theorem peerResponse (o : Nat) (status : BitVec 8) (bytes : List Byte) :
    Statement (.peerResponse o status bytes) := .inr ⟨rfl, rfl⟩
theorem requestTimeout (o : Nat) : Statement (.requestTimeout o) := .inr ⟨rfl, rfl⟩
theorem responseDiscard (p tag : Nat) : Statement (.responseDiscard p tag) := .inr ⟨rfl, rfl⟩
theorem readyMsg (p n : Nat) : Statement (.readyMsg p n) := .inr ⟨rfl, rfl⟩
theorem appliedMsg (p n : Nat) : Statement (.appliedMsg p n) := .inr ⟨rfl, rfl⟩
theorem hostMemoryAccess (write : Bool) (off : Nat) (bytes : List Byte) :
    Statement (.hostMemoryAccess write off bytes) := .inr ⟨rfl, rfl⟩
theorem heartbeat (c : Nat) : Statement (.heartbeat c) := .inr ⟨rfl, rfl⟩
theorem heartbeatMiss (c : Nat) (lost : Bool) : Statement (.heartbeatMiss c lost) := .inr ⟨rfl, rfl⟩
theorem wlFail (e : Nat) (ingress : Bool) (wl m : Nat) (delay : Dword) :
    Statement (.wlFail e ingress wl m delay) := .inr ⟨rfl, rfl⟩
theorem wlDrop (e : Nat) (ingress : Bool) (wl m : Nat) (delay : Dword) :
    Statement (.wlDrop e ingress wl m delay) := .inr ⟨rfl, rfl⟩
theorem laserAge (s : Nat) : Statement (.laserAge s) := .inr ⟨rfl, rfl⟩
theorem retrain (e : Nat) (ingress : Bool) (m : Nat) (delay : Dword) :
    Statement (.retrain e ingress m delay) := .inr ⟨rfl, rfl⟩
theorem laneSpare (e : Nat) (ingress : Bool) (wl m : Nat) : Statement (.laneSpare e ingress wl m) := .inr ⟨rfl, rfl⟩
theorem sourceLost (s : Nat) (delay : Dword) : Statement (.sourceLost s delay) := .inr ⟨rfl, rfl⟩
theorem linkDown (e : Nat) (ingress : Bool) (m : Nat) : Statement (.linkDown e ingress m) := .inr ⟨rfl, rfl⟩
theorem firmwareImage (cls : ImageClass) (image version : Nat) :
    Statement (.firmwareImage cls image version) := .inr ⟨rfl, rfl⟩
theorem spdmRequest (index : Nat) : Statement (.spdmRequest index) := .inr ⟨rfl, rfl⟩
theorem keyLoad (slot : BitVec 13) (k1 k2 : BitVec 256) : Statement (.keyLoad slot k1 k2) := .inr ⟨rfl, rfl⟩
theorem powerCapCrossing (watts : Nat) : Statement (.powerCapCrossing watts) := .inr ⟨rfl, rfl⟩
theorem retrainingComplete (e : Nat) (ingress ok : Bool) :
    Statement (.retrainingComplete e ingress ok) := .inr ⟨rfl, rfl⟩
theorem portDown (p : Nat) : Statement (.portDown p) := .inr ⟨rfl, rfl⟩
theorem portUp (p : Nat) : Statement (.portUp p) := .inr ⟨rfl, rfl⟩
theorem xputqPageWaitExpiry (o : Nat) : Statement (.xputqPageWaitExpiry o) := .inr ⟨rfl, rfl⟩
theorem sheafRound : Statement .sheafRound := .inr ⟨rfl, rfl⟩
theorem engineNop : Statement .engineNop := .inl rfl
theorem boundaryDrained : Statement .boundaryDrained := .inr ⟨rfl, rfl⟩
theorem stepApply : Statement .stepApply := .inr ⟨rfl, rfl⟩
theorem boundaryComplete : Statement .boundaryComplete := .inr ⟨rfl, rfl⟩
theorem stepWatchdog : Statement .stepWatchdog := .inr ⟨rfl, rfl⟩
theorem packetNop : Statement .packetNop := .inl rfl
theorem elsePacket : Statement .elsePacket := .inl rfl
theorem endifPacket : Statement .endifPacket := .inl rfl
theorem qfence : Statement .qfence := .inl rfl
theorem halt : Statement .halt := .inl rfl
theorem tlbInvalFull : Statement .tlbInvalFull := .inr ⟨rfl, rfl⟩
theorem tlbInvalComplete : Statement .tlbInvalComplete := .inr ⟨rfl, rfl⟩
theorem dbgStop : Statement .dbgStop := .inr ⟨rfl, rfl⟩
theorem dbgResume : Statement .dbgResume := .inr ⟨rfl, rfl⟩
theorem dbgStep : Statement .dbgStep := .inr ⟨rfl, rfl⟩
theorem dbgRead : Statement .dbgRead := .inr ⟨rfl, rfl⟩
theorem dbgWrite : Statement .dbgWrite := .inr ⟨rfl, rfl⟩
theorem dbgDiscard : Statement .dbgDiscard := .inr ⟨rfl, rfl⟩
theorem reset : Statement .reset := .inr ⟨rfl, rfl⟩
theorem thermalTrip : Statement .thermalTrip := .inr ⟨rfl, rfl⟩

end Sys2Proof.Laws.OneForm
end

