-- ==== Sys2Proof/Tests/Slice0.lean ====
section
/-! SUPPORT. Tests: what each check of well-formedness refuses, words of the spec's encodings, and for every statement with
hypotheses a state and operands that meet them. -/

set_option Elab.async false
set_option maxRecDepth 8000

open Sys2Proof Sys2Proof.Machine Sys2Proof.Safety

namespace Sys2Proof.Tests

/-! ### A small machine -/

/-- What Issues asks beside the group and the fibre. -/
def issuesB (s : State) (g : Group) (f : Fibre) (h : Hdr) (w : WordSpec) : Bool :=
  !(w.gangOnly && f.wave) && !(f.pos.atHdr || (w.lastWord && f.pos.idx != f.pos.len)) && f.guard h.guard &&
  !(w.inHandler && !f.tm) && (operandFault (g.allocation s.cur.f) f w.chks).isNone &&
  !(w.chks.flatMap (Chk.regs f)).any (s.busyRegs s.cur f.inc).contains &&
  !(w.counts && ((f.counter h).map fun k => f.ctr k == 63#6).getD false) &&
  w.unit.all fun u => f.grant == some u || (s.unitRoom g.coreOr0 u && !s.unitWaited g.coreOr0 u)

theorem issues_of {s : State} {g : Group} {f : Fibre} {h : Hdr} {w : WordSpec} (k : issuesB s g f h w = true)
    (hg : s.group? s.cur.g = some g := by rfl) (hf : g.fibre? s.cur.f = some f := by rfl) : Issues s g f h w := by
  simp only [issuesB, Bool.and_eq_true, Bool.not_eq_true', Option.isNone_iff_eq_none, Option.all_eq_true] at k
  obtain ⟨⟨⟨⟨⟨⟨⟨h1, h2⟩, h3⟩, h4⟩, h5⟩, h6⟩, h7⟩, h8⟩ := k
  exact ⟨hg, hf, h1, h2, h3, h4, h5, h6, h7, h8⟩

theorem pair_of {α β : Type} {x : α × β} {a : α} (h : x.1 = a) : x = (a, x.2) := Prod.ext h rfl

/-- A header with no guard, whose word counts on the first SET choice. -/
def tH : Hdr := ⟨.always, 0#3, false, false⟩
/-- A fibre at the last word of a body of two. -/
def tF : Fibre := { pos := { pc := 12#64, atHdr := false, seta := 1#4, setb := 2#4, len := 1#3, idx := 1#3 }, inc := 1 }
/-- Its group, alone on core 0. -/
def tG : Group := { launch := 0, ctx := 0, lin := 0, loc := .resident 0, fibres := [(0, tF)]
                    lr := { nb := 64, na := 16, nh := 8, mg := true, scr := 65536, regs := 64 } }
/-- A package with one NEAR page at VA 0, at 256 KiB of the shared SRAM. -/
def tS : State := { State.reset.withPage with groups := [(0, tG)], cur := ⟨0, 0⟩ }
def tGf (f : Fibre) : Group := { tG with fibres := [(0, f)] }
def tSg (g : Group) : State := { tS with groups := [(0, g)] }
def tSf (f : Fibre) : State := tSg (tGf f)
/-- A fibre with a number in a pair of registers. -/
def tFr (f : Fibre) (n v : Nat) : Fibre := f.setN n 2 v

/-- A fibre with 0x1000 in v4 and v5. -/
def tFa : Fibre := tFr tF 4 0x1000

/-! ### States and operands that meet the hypotheses of the statements -/

theorem meets_IntegerArithmetic : Issues tS tG tF tH (needsAB (.v 8) (.reg (.v 2)) (.imm 5) .z64) := issues_of (by decide)

theorem meets_UnaryResults : Issues tS tG tF tH (needsA (.v 63) (.reg (.v 2)) .f32) := issues_of (by decide)

theorem meets_IntegerNarrowing : Ty.isFloat .s8 = false ∧ 8 ≤ Ty.width .s8 ∧ (Ty.minI .s8 ≤ -128 ∧ -128 ≤ Ty.maxI .s8) ∧
    (Ty.minI .s8 ≤ 127 ∧ 127 ≤ Ty.maxI .s8) ∧ -129 < Ty.minI .s8 ∧ Ty.maxI .s8 < 128 ∧
    (Ty.minI .s8 < 0 ∧ -128 = Ty.minI .s8 ∧ Ty.minI .s8 ≤ -1 ∧ (0 : Int) ≤ Ty.maxI .s8 ∧ ¬ ((-128 : Int) = Ty.minI .s8 ∧ (127 : Int) = -1)) ∧
    (let c := roundTo .f16 (Rnd.plain .rne) false (.fin ⟨true, 4097, 0⟩)
     decodeNum .f16 c.1 = .fin ⟨true, 1024, 2⟩ ∧ c.2 &&& (fOF ||| fSAT) = 0#7 ∧ c.2 &&& fNX ≠ 0#7) ∧
    decodeNum .f16 1 = .fin ⟨false, 1, -24⟩ ∧ Rnd.plain .rz = .rz := by decide

theorem meets_LogicAndFloat : Issues tS tG tF tH (needsAB (.v 8) (.reg (.v 2)) (.reg (.v 3)) .f32) := issues_of (by decide)

theorem meets_Shifts : 0 < Ty.width .z64 ∧
    Issues tS tG tF tH (operandsOf (Src.chk (.reg (.v 2)) (Ty.regs .z64) ++ Src.chk (.imm 64) 1 ++ Reg.chk (.v 8) (Ty.regs .z64))) :=
  ⟨by decide, issues_of (by decide)⟩

theorem meets_BitFields : 31 < Ty.width .z32 ∧
    Issues tS tG tF tH (operandsOf (Reg.chk (.v 2) (Ty.regs .z32) ++ Reg.chk (.v 8) 1)) ∧
    Issues tS tG tF tH (operandsOf (Reg.chk (.v 2) (Ty.regs .z32) ++ Reg.chk (.v 8) (Ty.regs .z32))) ∧
    Issues tS tG tF tH (operandsOf (Reg.chk (.v 2) (Ty.regs .z32) ++ Src.chk (.imm 3) 1 ++ Reg.chk (.v 8) (Ty.regs .z32))) ∧
    Issues tS tG tF tH (operandsOf (Src.chk (.imm 1) (Ty.regs .z32) ++ Src.chk (.imm 3) 1 ++ Reg.chk (.v 8) (Ty.regs .z32))) :=
  ⟨by decide, issues_of (by decide), issues_of (by decide), issues_of (by decide), issues_of (by decide)⟩

theorem meets_Moves : (∀ wide : Bool, Issues tS tG tF tH (operandsOf (Reg.chk (.v 8) (if wide then 2 else 1)))) ∧
    Issues tS tG tF tH (operandsOf []) ∧ Issues tS tG tF tH (operandsOf (Src.chk (.imm 1) 1)) ∧
    Issues tS tG tF tH (operandsOf (Reg.chk (.v 8) 1)) ∧
    Issues tS tG tF tH (operandsOf (Reg.chk (.v 2) 2 ++ Src.chk (.imm 1) 1 ++ Reg.chk (.v 8) 2)) ∧
    Issues tS tG tF tH (operandsOf (Src.chk (.reg (.v 3)) 1 ++ Src.chk (.imm 1) 1 ++ Reg.chk (.v 8) 2)) :=
  ⟨fun wide => by cases wide <;> exact issues_of (by decide), issues_of (by decide), issues_of (by decide),
   issues_of (by decide), issues_of (by decide), issues_of (by decide)⟩

theorem meets_Select : Issues tS tG tF tH (operandsOf (Src.chk (.imm 7) (Ty.regs .b32) ++ Reg.chk (.v 8) (Ty.regs .b32))) ∧
    tF.p 0 ≠ true ∧ tF.p 11 = false := ⟨issues_of (by decide), by decide, by decide⟩

theorem meets_Compares :
    Issues tS tG tF tH (operandsOf (Src.chk (.reg (.v 2)) (Ty.regs .s32) ++ Src.chk (.imm 1) (Ty.regs .s32))) ∧
    Issues tS tG tF tH (operandsOf (Src.chk (.reg (.v 2)) 1 ++ Src.chk (.reg (.v 3)) 1)) ∧
    Issues tS tG tF tH (operandsOf []) := ⟨issues_of (by decide), issues_of (by decide), issues_of (by decide)⟩

theorem meets_PackedAndConversions :
    Issues tS tG tF tH (operandsOf (Src.chk (.reg (.v 2)) 1 ++ Src.chk (.reg (.v 3)) 1 ++ Reg.chk (.v 8) 1)) ∧
    Issues tS tG tF tH (operandsOf (Src.chk (.reg (.v 2)) (Ty.regs .f32) ++ Reg.chk (.v 8) (Ty.regs .s8))) ∧
    Issues tS tG tF tH (operandsOf (Reg.chk (.v 4) (Ty.packN .e4m3) ++ Reg.chk (.v 8) 1)) ∧
    Issues tS tG tF tH (operandsOf [.span (.v 0) 32 4, .lane (.v 50) 1, .span (.v 40) (blockRegs .e4m3) 4]) :=
  ⟨issues_of (by decide), issues_of (by decide), issues_of (by decide), issues_of (by decide)⟩

/-- A fibre at a clause header, with one outstanding operation on c11. -/
def tFh : Fibre := { pos := { pc := 24#64 }, ctrs := [(11, 1#6)], inc := 1 }

theorem meets_Clauses : (let s := tSf tFh
    let c : Clause := ⟨0x7FF#12, 1#4, 15#4, 7#3, true⟩
    s.group? s.cur.g = some (tGf tFh) ∧ (tGf tFh).fibre? s.cur.f = some tFh ∧ tFh.pos.atHdr = true ∧
      (∀ n, n < 12 → c.wait.getLsbD n = true → tFh.ctr (BitVec.ofNat 4 n) = 0#6)) ∧
    Issues tS tG tF tH (operandsOf []) := ⟨⟨rfl, rfl, rfl, by decide⟩, issues_of (by decide)⟩

/-- The small machine with a clause header at VA 24, whose address is in v4 and v5. -/
def tSc : State := (tSf (tFr tF 4 24)).sramWrite 0x40018 (leBytes 12 0xF00011F20000000000000000)

theorem meets_Transfers : (let f := tFr tF 4 24
    let to_ := f.pos.pc + 12#64 * (1#40).signExtend 64
    to_.toNat % 12 = 0 ∧ (tSc.fetch (tGf f).coreOr0 (tGf f).ctx to_).1 = .word 0xF00011F20000000000000000#96 ∧
    isHeader 0xF00011F20000000000000000#96 = true ∧ Issues tSc (tGf f) f tH { lastWord := true } ∧
    Issues tSc (tGf f) f tH { lastWord := true, chks := Reg.chk (.v 6) 2 }) ∧
    (let f := tFr tF 4 24
    let to_ := f.rdPair (.v 4)
    to_.toNat % 12 = 0 ∧ to_.toNat < 2 ^ 56 ∧
    (tSc.fetch (tGf f).coreOr0 (tGf f).ctx to_).1 = .word 0xF00011F20000000000000000#96 ∧
    Issues tSc (tGf f) f tH { lastWord := true, chks := Reg.chk (.v 4) 2 }) :=
  ⟨⟨by decide, by decide, by decide, issues_of (by decide), issues_of (by decide)⟩,
   by decide, by decide, by decide, issues_of (by decide)⟩

/-- Fibre 1, which offers its vote at fibre 0's word. -/
def tMate : Member := ⟨1, 1, some (.vote .any true 2)⟩
/-- Two members of mask 3, the second at the rendezvous already. -/
def tGx : Group :=
  { tG with fibres := [(0, tF), (1, { tF with stat := .wait .rendezvous })], masks := [(3, 3#32)]
            rvs := [⟨0, tF.pos.pc, some 3, [tMate], false⟩] }

theorem meets_RanksAndExchange : Issues tS tG tF tH (operandsOf []) ∧
    tG.mask 0 3 &&& (1#32 <<< (tS.cur.f % 32)) = 0#32 ∧ (tG.mask 0 3).getLsbD 0 = false ∧
    (let g := { tG with masks := [(7, 1#32)] }
     Issues (tSg g) g tF tH (operandsOf []) ∧ g.mask 0 7 &&& (1#32 <<< (tS.cur.f % 32)) ≠ 0#32) ∧
    (let g : Group := { tG with
       fibres := [(0, tF), (1, { tF with stat := .wait (.join 7 (some 11)) })], masks := [(7, 3#32)], arrived := [(7, 2#32)] }
     Issues (tSg g) g tF tH (operandsOf []) ∧ Tab.wf 0#32 g.masks = true ∧ Tab.wf 0#32 g.arrived = true ∧ g.rvs = [] ∧
     g.mask 0 7 &&& (1#32 <<< (tS.cur.f % 32)) ≠ 0#32 ∧
     g.mask 0 7 &&& ~~~(g.arrivedAt 0 7 ||| 1#32 <<< (tS.cur.f % 32)) = 0#32 ∧
     (∀ k, k ≠ 7#3 → g.mask 0 k = 0#32 ∨ g.mask 0 k &&& ~~~(g.arrivedAt 0 k) ≠ 0#32) ∧
     ∃ w, g.fibre? 1 = some w ∧ w.stat = .wait (.join 7 (some 11))) ∧
    ((∀ cs ∈ [Reg.chk (.v 2) (Ty.regs .b64) ++ Src.chk (.imm 1) 1 ++ Reg.chk (.v 8) (Ty.regs .b64), Reg.chk (.v 8) 1, [],
         Reg.chk (.v 2) 1 ++ Reg.chk (.v 8) 1], Issues (tSg tGx) tGx tF tH (operandsOf cs)) ∧
     (tGx.mask 0 3).getLsbD (tS.cur.f % 32) = true ∧ tGx.rvs = [⟨0, tF.pos.pc, some 3, [tMate], false⟩] ∧
     (∀ k ∈ [tMate], k.lane ≠ tS.cur.f % 32 ∧ ∀ c n, k.offer ≠ some (.claim c n) ∧ k.offer ≠ some (.surr c n)) ∧
     (∀ w ∈ tGx.fibres, w.1 / 32 = 0 → (tGx.mask 0 3).getLsbD (w.1 % 32) = true →
       (w.1 = 0 ∧ w.2 = tF) ∨ ∃ k ∈ [tMate], k.lane = w.1 % 32 ∧ k.inc = w.2.inc) ∧
     ∀ k, tGx.mask 0 k = 0#32 ∨ tGx.mask 0 k &&& ~~~(tGx.arrivedAt 0 k) ≠ 0#32) ∧
    Issues tS tG tF tH (operandsOf (Reg.chk (.v 2) (Ty.regs .b64) ++ Src.chk (.imm 1) 1 ++ Reg.chk (.v 8) (Ty.regs .b64))) ∧
    Issues tS tG tF tH (operandsOf (Reg.chk (.v 8) 1)) ∧
    Issues tS tG tF tH (operandsOf (Reg.chk (.v 2) 1 ++ Reg.chk (.v 8) 1)) :=
  ⟨issues_of (by decide), by decide, by decide, ⟨issues_of (by decide), by decide⟩,
   ⟨issues_of (by decide), by decide, by decide, rfl, by decide, by decide, by decide, ⟨_, rfl, rfl⟩⟩,
   ⟨by intro cs hc; simp only [List.mem_cons, List.not_mem_nil, or_false] at hc
       rcases hc with rfl | rfl | rfl | rfl <;> exact issues_of (by decide),
    by decide, rfl, by simp [tMate, tS], by decide, by decide⟩,
   issues_of (by decide), issues_of (by decide), issues_of (by decide)⟩

theorem meets_received : (let cs : List (Nat × Offer) := [(0, .xchg .pos 5#64 2 8 false), (3, .xchg .rot 6#64 1 8 false)]
    cs[0]? = some (0, .xchg .pos 5#64 2 8 false) ∧ cs.length ≤ 2 ∧ cs[1]? = some (3, .xchg .rot 6#64 1 8 false) ∧ (1 + 1) % 2 = 0 ∧
    1 < cs.length) ∧
    ([(0, Offer.vote .ballot true 8)] : List (Nat × Offer))[0]? = some (0, .vote .ballot true 8) ∧
    ([(31, Offer.red .add .s32 1#32 8)] : List (Nat × Offer))[0]? = some (31, .red .add .s32 1#32 8) :=
  ⟨⟨rfl, by decide, rfl, rfl, by decide⟩, rfl, rfl⟩

/-- A group of two ranks with three blocks in its pool; two fibres of rank 0, the second at a CLAIM or SURR, or not. -/
def tGp (full : Bool) (ms : List Member) : Group :=
  { tG with lr := { tG.lr with nf := 64 }, pool := 3, fibres := (0, tF) :: if full then [(31, tF)] else []
            rvs := if ms = [] then [] else [⟨0, tF.pos.pc, none, ms, false⟩] }
/-- What the second offers: a claim or a surrender of three blocks, or nothing with its guard false. -/
def tOffers (claim : Bool) : List Member := [⟨31, 1, some (if claim then .claim 3 10 else .surr 3 10)⟩]

theorem meets_ClaimAndSurrender : ∀ claim : Bool, ∀ x ∈ [(false, []), (true, []), (true, tOffers claim), (true, [⟨31, 1, none⟩])],
    let g := tGp x.1 x.2
    let offer (k : Nat) : Offer := if claim then .claim 3 k else .surr 3 k
    let all := (⟨0, 1, some (offer 8)⟩ : Member) :: x.2
    let here (p : Nat × Fibre) : Prop := p.1 = 0 ∨ ∃ k ∈ x.2, k.lane = p.1 % 32 ∧ k.inc = p.2.inc
    (g.rvs = (if x.2 = [] then [] else [⟨0, tF.pos.pc, none, x.2, false⟩]) ∧ g.claims = [] ∧ Tab.wf 0 g.alloc = true ∧
      g.blocks 0 ≤ 128 ∧ (g.fibres.map (·.1)).Pairwise (· < ·) ∧ (all.map (·.lane)).Nodup ∧ (∀ k ∈ x.2, k.lane < 32) ∧
      ∀ j, g.mask 0 j = 0#32 ∨ g.mask 0 j &&& ~~~(g.arrivedAt 0 j) ≠ 0#32) ∧
    ((x.1 = true ∧ x.2 = [] → ∃ p ∈ g.fibres, p.1 / 32 = 0 ∧ p.2.wave = false ∧ ¬ here p) ∧
      (x.1 = false ∨ x.2 ≠ [] → ∀ p ∈ g.fibres, p.1 / 32 = 0 → p.2.wave = false → here p)) ∧
    (3 < g.blocks 0 ∧ g.blocks 0 + 3 ≤ g.amax ∧ 3 ≤ g.pool) := by
  intro claim x hx
  simp only [List.mem_cons, List.not_mem_nil, or_false] at hx
  cases claim <;> rcases hx with rfl | rfl | rfl | rfl <;>
    exact ⟨⟨rfl, rfl, rfl, by decide, by decide, by decide, by decide, by decide⟩, ⟨by decide, by decide⟩, by decide, by decide,
      by decide⟩

theorem meets_ClaimAndSurrender_member : ∀ claim : Bool, let g := tGp true (tOffers claim)
    Issues (tSg g) g tF tH { gangOnly := true, chks := Reg.chk (.v 8) 1 } ∧ 0 < (3#14).toNat ∧
    (∀ x, (if claim then Offer.claim 3 10 else .surr 3 10) = x → ∃ r w, x = (if claim then Offer.claim 3 r else .surr 3 r) ∧
      g.fibre? 31 = some w ∧ Tab.wf 0#32 w.regs = true ∧ (claim = false → r < 16 * (g.blocks 0 - 3))) ∧
    (let o : Op := { id := 7, fib := ⟨0, 31⟩, inc := 1, ctr := none, pc := 12#64, core := 0, ctx := 0, kind := .land 20 1 0#64, dst := [20] }
     ∃ r ∈ o.dst, 16 * (g.blocks 0 - 3) ≤ r) ∧ (tSg g).ops = [] := by
  intro claim
  cases claim <;>
    exact ⟨issues_of (by decide), by decide, fun x hx => ⟨10, tF, hx.symm, rfl, rfl, by decide⟩, ⟨20, by decide, by decide⟩, rfl⟩

theorem meets_FNEW : (let f := tFr tF 2 36
    Issues (tSf f) (tGf f) f tH { gangOnly := true, chks := Reg.chk (.v 2) 2 ++ Src.chk (.imm 1) 1 ++ Reg.chk (.v 8) 1 } ∧
    (f.rdPair (.v 2)).toNat % 12 = 0 ∧ (f.rdPair (.v 2)).toNat < 2 ^ 56 ∧
    (∃ x, ((tSf f).reclaim 0).group? 0 = some x ∧ ((tSf f).reclaim 0).freeFibre 0 x = some 1)) ∧
    (let g := { tG with fibres := (List.range 32).map fun n => (n, tF) }
     Issues (tSg g) g tF tH { gangOnly := true, chks := Reg.chk (.v 2) 2 ++ Src.chk (.imm 1) 1 ++ Reg.chk (.v 8) 1 } ∧
     ∀ x, ((tSg g).reclaim 0).group? 0 = some x → ((tSg g).reclaim 0).freeFibre 0 x = none) := by
  refine ⟨⟨issues_of (by decide), by decide, by decide, ⟨_, rfl, by decide⟩⟩, issues_of (by decide), ?_⟩
  intro x hx
  have : x = { tG with fibres := (List.range 32).map fun n => (n, tF) } := Option.some.inj (hx.symm.trans rfl)
  subst this
  decide

/-- A cluster of two members, of which the group of the small machine is the first, with its barrier. -/
def tGc (c : ClusterBarrier) : Group := { tG with lr := { tG.lr with cl := 2 }, cbar := c }
def tSc2 (c : ClusterBarrier) : State :=
  { tS with groups := [(0, tGc c), (1, { tGc {} with lin := 1, loc := .resident 1, fibres := [(5, { tF with stat := .wait .cbar })] })] }

theorem meets_StartEndAndBarriers : (Issues tS tG tF tH (operandsOf []) ∧ ¬ 2 ≤ tG.lr.cl) ∧
    (let s := tSc2 {}
     Issues s (tGc {}) tF tH (operandsOf []) ∧ tF.wave = false ∧ 2 ≤ (tGc {}).lr.cl ∧ (tGc {}).gang = [s.cur.f] ∧
     (s.cbarOf (tGc {})).exited = false) ∧
    (Issues tS tG tF tH { gangOnly := true } ∧ tF.pending 15 ≠ some (tG.bar 15).phase ∧
     tS.scratchBusy tS.cur tF.inc = false ∧ Tab.wf {} tG.bars = true ∧ Tab.wf none tF.bars = true ∧
     ¬ ∃ k ∈ tG.expected (tG.bar 15), k ≠ 0 ∧ k ∉ (tG.bar 15).arrived) ∧
    (let g := { tG with fibres := [(0, tF), (33, tF)] }
     Issues (tSg g) g tF tH { gangOnly := true } ∧ ∃ k ∈ g.expected (g.bar 15), k ≠ 0 ∧ k ∉ (g.bar 15).arrived) ∧
    (∀ again : Bool, let g := { tG with
       fibres := [(0, tF), (33, { tF with stat := .wait (.bar 15 again) })], bars := [(15, { arrived := [33] })] }
     Issues (tSg g) g tF tH { gangOnly := true } ∧ (¬ ∃ k ∈ g.expected (g.bar 15), k ≠ 0 ∧ k ∉ (g.bar 15).arrived) ∧
     g.fibre? 33 = some { tF with stat := .wait (.bar 15 again) }) ∧
    (let f := tF.setPending 15 (some 0)
     Issues (tSf f) (tGf f) f tH { gangOnly := true } ∧ f.pending 15 = some ((tGf f).bar 15).phase) ∧
    (∀ c ∈ [({ exited := true } : ClusterBarrier), { exit_ := some true }, {}, { arrived := [(1, 5)] }],
      Issues (tSc2 c) (tGc c) tF tH { gangOnly := true } ∧ ((tSc2 c).groups.map (·.1)).Pairwise (· < ·) ∧
      (tSc2 c).cbarOf (tGc c) = c ∧ (tSc2 c).scratchBusy ⟨0, 0⟩ tF.inc = false ∧ (tSc2 c).member? (tGc c) 0 = some 0) ∧
    ((1, 5) ∈ (tSc2 {}).clusterExpected 0 {} ∧
     ∀ p ∈ (tSc2 { arrived := [(1, 5)] }).clusterExpected 0 { arrived := [(1, 5)] }, p = (0, 0) ∨ p ∈ [(1, 5)]) := by
  refine ⟨⟨issues_of (by decide), by decide⟩, ⟨issues_of (by decide), rfl, by decide, rfl, by decide⟩,
    ⟨issues_of (by decide), by decide, by decide, rfl, rfl, by decide⟩, ⟨issues_of (by decide), by decide⟩,
    fun again => ?_, ⟨issues_of (by decide), by decide⟩, fun c hc => ?_, by decide, by decide⟩
  · cases again <;> exact ⟨issues_of (by decide), by decide, rfl⟩
  · simp only [List.mem_cons, List.not_mem_nil, or_false] at hc
    rcases hc with rfl | rfl | rfl | rfl <;> exact ⟨issues_of (by decide), by decide, by decide, by decide, by decide⟩

/-- Fibre 0 leaves fibre 1 behind, which waits at a mask, at a barrier, or at an exchange that fibre 2 may have still to
reach. -/
def tGl (w : FStat) (more : Bool) (rvs : List Rendezvous) : Group :=
  { tG with fibres := [(0, tF), (1, { tF with stat := w })] ++ if more then [(2, tF)] else []
            masks := [(7, if more then 7#32 else 3#32)], arrived := if rvs = [] then [(7, 2#32)] else []
            bars := [(15, { arrived := [1] })], rvs }

theorem meets_leaving :
    (∀ w ∈ [FStat.wait (.join 7 none), .wait (.bar 15 false)], let g := tGl w false []
      Issues (tSg g) g tF tH (operandsOf []) ∧ tF.slot = none ∧ g.claims = [] ∧ (g.fibres.map (·.1)).Pairwise (· < ·) ∧
      Tab.wf 0#32 g.masks = true ∧ Tab.wf 0#32 g.arrived = true ∧ Tab.wf {} g.bars = true ∧
      (∃ p ∈ g.fibres, p.1 ≠ 0 ∧ p.1 / 32 = 0 ∧ p.2.wave = false) ∧ g.rvs = [] ∧
      (let left := g.mask 0 7 &&& ~~~(1#32 <<< 0)
       left ≠ 0#32 ∧ left &&& ~~~(g.arrivedAt 0 7) = 0#32) ∧
      (∀ k ∈ g.expected (g.bar 15), k = 0 ∨ k ∈ (g.bar 15).arrived) ∧ g.fibre? 1 = some { tF with stat := w }) ∧
    (∀ more : Bool, let r : Rendezvous := ⟨0, tF.pos.pc, some 7, [tMate], false⟩
      let g := tGl (.wait .rendezvous) more [r]
      Issues (tSg g) g tF tH (operandsOf []) ∧ g.rvs = [r] ∧
      (∀ m, ¬ (g.mask 0 m &&& ~~~(1#32 <<< 0) ≠ 0#32 ∧ g.mask 0 m &&& ~~~(1#32 <<< 0) &&& ~~~(g.arrivedAt 0 m) = 0#32)) ∧
      (∀ l ∈ r.members, l.lane < 32) ∧ (r.members.map (·.lane)).Nodup ∧
      (more = true ↔ ∃ p ∈ g.fibres, p.1 ≠ 0 ∧ p.1 / 32 = 0 ∧ (g.mask 0 7).getLsbD (p.1 % 32) = true ∧
        ¬ ∃ l ∈ r.members, l.lane = p.1 % 32 ∧ l.inc = p.2.inc)) := by
  refine ⟨fun w hw => ?_, fun more => ?_⟩
  · simp only [List.mem_cons, List.not_mem_nil, or_false] at hw
    rcases hw with rfl | rfl <;>
      exact ⟨issues_of (by decide), rfl, rfl, by decide, rfl, rfl, rfl, by decide, rfl, by decide, by decide, rfl⟩
  · cases more <;> exact ⟨issues_of (by decide), rfl, by decide, by decide, by decide, by decide⟩

theorem meets_TasksAndForks : (let f := tFr (tFr tF 2 36) 6 (2 ^ 63)
    Issues (tSf f) (tGf f) f tH (operandsOf (Reg.chk (.v 2) 2 ++ Reg.chk (.v 4) 2 ++ Reg.chk (.v 6) 2)) ∧
    (f.rdPair (.v 2)).toNat % 12 = 0 ∧ (f.rdPair (.v 2)).toNat < 2 ^ 56 ∧
    (∀ n, n < 64 → (f.rdPair (.v 6)).getLsbD n = true → n < (tGf f).lr.nb) ∧ (tGf f).tasks.length < 256) ∧
    (let f := tFr tF 2 64
    Issues (tSf f) (tGf f) f tH { gangOnly := true, chks := Reg.chk (.v 2) 2 ++ Reg.chk (.v 8) 1 } ∧ (tGf f).lr.cl < 2 ∧
    (f.rdPair (.v 2)).toNat % 64 = 0 ∧ (f.rdPair (.v 2)).toNat < 2 ^ 56 ∧
    ((Tab.find (tSf f).launches (tGf f).launch).map (·.depth)).getD 0 < 16 ∧
    16 ≤ ((Tab.find ({ tSf f with launches := [(0, { queue := none, ctx := 0, pad := 0, prio := 0, lr := {}, depth := 16 })] } : State).launches
      (tGf f).launch).map (·.depth)).getD 0) :=
  ⟨⟨issues_of (by decide), by decide, by decide, by decide, by decide⟩, issues_of (by decide), by decide, by decide,
   by decide, by decide, by decide⟩

/-- A group whose fibre waits as named. -/
def tGw (w : FStat) : Group := tGf { tF with stat := w }

theorem meets_GroupEvents :
    (tS.cycleOver = true ∧ (tS.cycle + 1) % 4 ≠ 0 ∧ (let s := { tS with cycle := 3 }
     s.cycleOver = true ∧ (s.cycle + 1) % 4 = 0)) ∧
    (let s := { tS with groups := [(0, tGw (.wait (.unit .matrix))), (2, tGf { tF with stat := .wait (.unit .matrix), since := 8 })] }
     s.unitRoom 0 .matrix = true ∧ s.unitGranted 0 .matrix = false ∧ s.unitWaiters 0 .matrix = [(0, ⟨0, 0⟩), (8, ⟨2, 0⟩)] ∧
     (∀ w ∈ s.unitWaiters 0 .matrix, ∀ z, s.group? w.2.g = some z → z.swapDue = false)) ∧
    (let x := tGw (.wait (.join 7 (some 11)))
     (tSg x).group? 0 = some x ∧ x.fibre? 0 = some { tF with stat := .wait (.join 7 (some 11)) } ∧ x.core? = some 0 ∧
     tF.budget = 0#16 ∧ (tSg x).issuing 0 = false) ∧
    (let k : Task := ⟨24#64, 0#64, 0#64, 3#64, true⟩
     let x := { tG with lr := { tG.lr with t := 1 }, tasks := [k] }
     ((tSg x).reclaim 0).group? 0 = some x ∧ x.core? = some 0 ∧ x.stopping = false ∧ x.forked = none ∧
     ((tSg x).reclaim 0).waveRank 0 x = some 1 ∧ x.tasks.find? (·.ready) = some k) ∧
    (tSg tGx).group? 0 = some tGx ∧ tGx.core? = some 0 ∧ (∀ v ∈ tGx.rvs, v.mask ≠ none) ∧
    (let x : Group := { tGw (.parked 0 0#64 0 1) with lr := { tG.lr with cl := 2 } }
     let y : Group := { x with lin := 1, loc := .ended }
     let s : State := { tS with groups := [(0, x), (1, y)] }
     s.clusterOf 0 = [0, 1] ∧ s.group? 0 = some x ∧ s.group? 1 = some y ∧ y.loc = .ended ∧ x.core?.isSome = true ∧
     (∃ v ∈ x.fibres, v.2.isParked = true) ∧
     ∀ v ∈ x.fibres, v.2.stopped = false ∧ (v.2.isParked = true ∨ s.waitsOnParked 0 x v.1 v.2 = true)) := by
  refine ⟨by decide, ⟨by decide, by decide, by decide, ?_⟩, ⟨rfl, rfl, rfl, rfl, by decide⟩,
    ⟨by decide, rfl, rfl, rfl, by decide, rfl⟩, rfl, rfl, by decide, by decide, rfl, rfl, rfl, rfl, by decide, by decide⟩
  intro w hw z hz
  have h : ∀ p ∈ ({ tS with groups := [(0, tGw (.wait (.unit .matrix))), (2, tGf { tF with stat := .wait (.unit .matrix), since := 8 })] } : State).groups,
    p.2.swapDue = false := by decide
  exact h _ (Laws.Tab.find_mem hz)

/-- The page at VA 0 as a translation finds it. -/
def tP : Page := ⟨.near, 0, true, true, true, false, 0, 0#13, 0, 112, 0⟩

/-- What an access asks, and that its translation finds page `p`. -/
def foundB (s : State) (g : Group) (va : Dword) (n : Nat) (rd wr : Bool) (p : Page) : Bool :=
  va.toNat % n == 0 && decide (va.toNat < 2 ^ 56) &&
  decide ((s.lookup g.coreOr0 (s.ctx g.ctx).asid (s.genOf (s.ctx g.ctx).asid) va).1 = some p) && (!rd || p.rp) && (!wr || p.wp)

theorem found_of {s : State} {g : Group} {va : Dword} {n : Nat} {rd wr : Bool} {p : Page}
    (k : foundB s g va n rd wr p = true) :
    Found s g va n rd wr p (s.lookup g.coreOr0 (s.ctx g.ctx).asid (s.genOf (s.ctx g.ctx).asid) va).2 := by
  simp only [foundB, Bool.and_eq_true, beq_iff_eq, decide_eq_true_eq, Bool.or_eq_true, Bool.not_eq_true'] at k
  obtain ⟨⟨⟨⟨h1, h2⟩, h3⟩, h4⟩, h5⟩ := k
  exact ⟨h1, h2, pair_of h3, fun h => h4.resolve_left (by simp [h]), fun h => h5.resolve_left (by simp [h])⟩

/-- The state after a translation. -/
def seen (s : State) (g : Group) (va : Dword) : State :=
  (s.lookup g.coreOr0 (s.ctx g.ctx).asid (s.genOf (s.ctx g.ctx).asid) va).2

theorem meets_NearAccessesIssue : (let m : Mem := ⟨.v 4, .imm 0#14⟩
    let f := tFr tF 4 0xFFF8
    0 < Ty.width .z64 / 8 ∧ tP.tier = .near ∧
    Issues (tSf f) (tGf f) f tH { counts := true, chks := Mem.chk m 2 ++ Reg.chk (.v 8) (Ty.regs .z64) } ∧
    Issues (tSf f) (tGf f) f tH { counts := true, chks := Mem.chk m 2 ++ Reg.chk (.v 8) (AtomOp.regs .cas .z64) } ∧
    Issues (tSf f) (tGf f) f tH { counts := true, chks := Mem.chk m 2 ++ Reg.chk (.v 8) 2 } ∧
    (seen (tSf f) (tGf f) (f.va m)).nearErr ((seen (tSf f) (tGf f) (f.va m)).nearOff tP (f.va m)) 8 = false ∧
    (f.va m).toNat < 2 ^ 56 ∧ 2 ^ 56 ≤ ((tFr tF 4 (2 ^ 56)).va m).toNat ∧
    ((tSf f).lookup 0 ((tSf f).ctx 0).asid ((tSf f).genOf ((tSf f).ctx 0).asid) (f.va m)).1 = some tP ∧
    ((tSf f).lookup 0 ((tSf f).ctx 0).asid ((tSf f).genOf ((tSf f).ctx 0).asid) 0xFFFFFFFFFFFFFF#64).1 = none ∧
    (∀ n ∈ [1, 8], ∀ rd wr, Found (tSf f) (tGf f) (f.va m) n rd wr tP (seen (tSf f) (tGf f) (f.va m)))) := by
  refine ⟨by decide, rfl, issues_of (by decide), issues_of (by decide), issues_of (by decide), by decide, by decide, by decide,
    by decide, by decide, fun n hn rd wr => ?_⟩
  simp only [List.mem_cons, List.not_mem_nil, or_false] at hn
  rcases hn with rfl | rfl <;> cases rd <;> cases wr <;> exact found_of (by decide)

/-- An uncorrectable error in the bytes, or in those that a line holds which another core has changed. -/
theorem meets_nearErr : ∀ x ∈ [{ tSf tFa with sramErr := [0x41003] }, (tSf tFa).setCore 1 { (tSf tFa).core 1 with lines :=
      [{ asid := 0, line := 0x41000 / 128, bytes := List.replicate 128 0#8, dirty := [], err := [3] }] }],
    let s1 := seen x (tGf tFa) (tFa.va ⟨.v 4, .imm 0#14⟩)
    Issues x (tGf tFa) tFa tH { counts := true, chks := Mem.chk ⟨.v 4, .imm 0#14⟩ 2 ++ Reg.chk (.v 8) (Ty.regs .z64) } ∧
    Found x (tGf tFa) (tFa.va ⟨.v 4, .imm 0#14⟩) 8 true true tP s1 ∧ s1.nearErr (s1.nearOff tP (tFa.va ⟨.v 4, .imm 0#14⟩)) 8 = true ∧
    s1.ownPending s1.cur tFa.inc (s1.nearOff tP (tFa.va ⟨.v 4, .imm 0#14⟩)) 8 = false := by
  intro x hx
  simp only [List.mem_cons, List.not_mem_nil, or_false] at hx
  rcases hx with rfl | rfl <;> exact ⟨issues_of (by decide), found_of (by decide), by decide, by decide⟩

/-- The page made one of peer 2. -/
def tPp : Page := ⟨.peer, 0, true, true, true, false, 0, 0#13, 2 ^ 30, 368, 0⟩
def tPeerPg (s : State) : State := s.sramWrite 0x20000 (leBytes 16 (fetchPage + 2 ^ 60 + 2 ^ 30))

theorem meets_peerPages : (let s := tPeerPg (tSf tFa)
    let m : Mem := ⟨.v 4, .imm 0#14⟩
    0 < Ty.width .z64 / 8 ∧ tPp.tier = .peer ∧ Ty.z64 ≠ .f32 ∧
    Issues s (tGf tFa) tFa tH { counts := true, chks := Mem.chk m 2 ++ Reg.chk (.v 8) (Ty.regs .z64) } ∧
    Issues s (tGf tFa) tFa tH { counts := true, chks := Mem.chk m 2 ++ Reg.chk (.v 8) (AtomOp.regs .cas .z64) } ∧
    (∀ rd wr, Found s (tGf tFa) (tFa.va m) 8 rd wr tPp (seen s (tGf tFa) (tFa.va m)))) := by
  refine ⟨by decide, rfl, by decide, issues_of (by decide), issues_of (by decide), fun rd wr => ?_⟩
  cases rd <;> cases wr <;> exact found_of (by decide)

/-- An operation of the fibre, of a kind. -/
def tO (k : OpKind) : Op := { id := 7, fib := ⟨0, 0⟩, inc := 1, ctr := none, pc := 12#64, core := 0, ctx := 0, kind := k }
/-- The small machine with it outstanding. -/
def tSo (k : OpKind) : State := { tS with ops := [tO k] }

theorem meets_NearAccessesPerform : ∀ k ∈ [OpKind.ld 0x40000 .z32 8, .st 0x40000 [1#8], .land 8 1 5#64,
      .atom 0x40000 .add .z32 1#64 0#64 (some 8)],
    (tSo k).op? (tO k).id = some (tO k) ∧ (tSo k).nearHeld (tO k) = false := by
  intro k hk
  simp only [List.mem_cons, List.not_mem_nil, or_false] at hk
  rcases hk with rfl | rfl | rfl | rfl <;> exact ⟨rfl, by decide⟩

theorem meets_NearStoreFrame : (tS.core 0).lines = [] ∧ 0x7E % 128 + [1#8, 2#8].length ≤ 128 ∧
    0x7E / 128 * 128 + 128 ≤ sramSize := by decide

theorem meets_ScratchAccessesIssue : (let m : Mem := ⟨.v 4, .imm 0#14⟩
    let f := tF.setR 4 65532#32
    let g := tGf f
    0 < Ty.width .z32 / 8 ∧
    Issues (tSf f) g f tH { counts := true, chks := Mem.chk m 1 ++ Reg.chk (.v 8) (Ty.regs .z32) } ∧
    Issues (tSf f) g f tH { counts := true, chks := Mem.chk m 1 ++ Reg.chk (.v 8) (AtomOp.regs .add .z32) } ∧
    g.scratchFault (f.off m) 4 4 false = none ∧ g.scratchFault (f.off m) 4 4 true = none ∧ g.eccFault (f.off m) 4 = false ∧
    (tSf f).clusterAddr g (f.off m) 4 = .inl (0, g)) :=
  ⟨by decide, issues_of (by decide), issues_of (by decide), by decide, by decide, by decide, by decide⟩

theorem meets_ScratchPerform : ∀ k ∈ [OpKind.stp 65535 [1#8], .ldp 0 .z64 8],
    (tSo k).op? (tO k).id = some (tO k) ∧ (tSo k).scratchHeld (tO k) = false ∧ (tSo k).group? (tO k).sg = some tG ∧
    Memory.wf tG.scratch = true := by
  intro k hk
  simp only [List.mem_cons, List.not_mem_nil, or_false] at hk
  rcases hk with rfl | rfl <;> exact ⟨rfl, by decide, rfl, rfl⟩

/-- A store to the other member of a cluster. -/
theorem meets_ScratchPerform_member : (let o := { tO (.stp 65535 [1#8]) with sg := 1 }
    let s := { tSc2 {} with ops := [o] }
    s.op? o.id = some o ∧ s.scratchHeld o = false ∧ (s.group? o.sg).isSome = true ∧ o.fib.g ≠ o.sg) := by decide

/-- The group with descriptor 63 declared over the last 128 bytes of its extent, in a state. -/
def tGb (st : BufState) : Group :=
  { tG with bufs := [(63, { decl := true, state := st, base := 511#13, fmt := Ty.code .b8, abl := 0x3F#6 })] }

theorem meets_BuffersAndMemoryEvents :
    (Issues tS tG tF tH (operandsOf (Src.chk (.imm 0) 1 ++ Src.chk (.imm 128) 1 ++ bufChk tG 63)) ∧ tF.src .z32 (.imm 128) ≠ 0 ∧
      tG.declFault 63 (tF.src .z32 (.imm 0)) (tF.src .z32 (.imm 128)) = none ∧ tF.src .z32 (.imm 0) = 0 ∧
      (tG.bufNow 63).held = false ∧ (tG.bufNow 63).state = .empty) ∧
    (∀ st ∈ [BufState.empty, .full, .draining], Issues (tSg (tGb st)) (tGb st) tF tH (operandsOf (bufChk (tGb st) 63)) ∧
      ((tGb st).bufNow 63).decl = true ∧ ((tGb st).bufNow 63).held = false ∧ ((tGb st).bufNow 63).state = st) ∧
    Issues tS tG tF tH (operandsOf (bufChk tG 63 ++ Reg.chk (.v 8) 2)) ∧
    (let t : Trans := ⟨1, ⟨0, 0⟩, 63, .seal⟩
     let x := { tGb .empty with trans := [t] }
     (tSg x).group? 0 = some x ∧ x.trans = [t] ∧ (tSg x).transReady 0 x t = true) ∧
    (let s := tS.setCore 0 { tS.core 0 with want := [(0, 1, 0x12345#64, 1)] }
     (s.core 0).reqs.length < 64 ∧ (s.missesOf 0).find? (fun v => !s.covered 0 v) = some ⟨0, 1, 0x12345#64, 1⟩) := by
  refine ⟨⟨issues_of (by decide), by decide, by decide, by decide, by decide, by decide⟩, fun st hs => ?_, issues_of (by decide),
    ⟨rfl, rfl, by decide⟩, by decide, rfl⟩
  simp only [List.mem_cons, List.not_mem_nil, or_false] at hs
  rcases hs with rfl | rfl | rfl <;> exact ⟨issues_of (by decide), rfl, rfl, rfl⟩

/-- What a word asks that counts, of a shared unit. -/
def tNeed (u : UnitId) (cs : List Chk) : WordSpec := { counts := true, unit := some u, chks := cs }
/-- A sweep of one iteration over 128 bytes from v4 and v6 to v8, at offset 0, 128 and 256. -/
def tW : Sweep := ⟨0#6, 8#10, 4#10, 6#10, 1#12, 0#8, 0#8, 0#8, .f32⟩
def tFw : Fibre := ((tF.setR 6 128#32).setR 8 256#32)
def tWo : SweepOp := { fn := .add, w := tW, d := 256#32, a := 0#32, b := 128#32, sel := false }

theorem meets_Sweeps :
    ({ tW with count := 0#12 }.count = 0#12 ∧ Issues tS tG tF tH { counts := true }) ∧
    (tW.count ≠ 0#12 ∧ tWo.fault (tGf tFw) = none ∧
     ∀ p ∈ sweeps tH tW, Issues (tSf tFw) (tGf tFw) tFw tH (tNeed .sweep
       ([.direct tW.a.toNat] ++ (if p.2.bUse = .none then [] else [.direct tW.b.toNat]) ++ [.direct tW.d.toNat]))) ∧
    (∀ n ∈ [1#12, 2#12], let w := { tWo with w := { tW with count := n } }
     (tSo (.sweep w)).firstSweep 0 = some (tO (.sweep w), w, tG) ∧ w.fn.isRed = false ∧
     (∀ r ∈ w.nextReads, tG.eccFault r.1 r.2 = false) ∧
     (n = 1#12 → w.w.count.toNat ≤ w.done + 1) ∧ (n = 2#12 → w.done + 1 < w.w.count.toNat)) ∧
    (∀ n ∈ [0, 1, 3], let w := { tWo with fn := .sumr, done := n, w := { tW with count := 4#12, opt := 9#6, ty := .s32 } }
     (tSo (.sweep w)).firstSweep 0 = some (tO (.sweep w), w, tG) ∧ w.fn.isRed = true ∧ w.w.ty ≠ .f32 ∧
     (∀ r ∈ w.nextReads, tG.eccFault r.1 r.2 = false) ∧
     (n = 0 → (n + 1) % w.gsize ≠ 0 ∧ n + 1 < w.w.count.toNat) ∧ (n = 1 → (n + 1) % w.gsize = 0 ∧ n + 1 < w.w.count.toNat) ∧
     (n = 3 → (n + 1) % w.gsize = 0 ∧ w.w.count.toNat ≤ n + 1)) := by
  refine ⟨⟨rfl, issues_of (by decide)⟩, ⟨by decide, by decide, fun p hp => ?_⟩, fun n hn => ?_, fun n hn => ?_⟩
  · have h (b : Bool) : Issues (tSf tFw) (tGf tFw) tFw tH (tNeed .sweep
        ([.direct tW.a.toNat] ++ (if b then [] else [.direct tW.b.toNat]) ++ [.direct tW.d.toNat])) := by
      cases b <;> exact issues_of (by decide)
    have := h (decide (p.2.bUse = .none))
    simpa using this
  · simp only [List.mem_cons, List.not_mem_nil, or_false] at hn
    rcases hn with rfl | rfl <;> exact ⟨rfl, rfl, by decide, by decide, by decide⟩
  · simp only [List.mem_cons, List.not_mem_nil, or_false] at hn
    rcases hn with rfl | rfl | rfl <;> exact ⟨rfl, rfl, by decide, by decide, by decide, by decide, by decide⟩

/-- The group with an active plane of dense bytes and scales. -/
def tGm : Group := { tG with active := { fmt := Ty.code .e4m3, scl := true } }

theorem meets_MatrixIssue :
    (∀ p ∈ [(Sparsity.sp4, false), (.dense, false), (.dense, true)],
      Issues tS tG tF tH { counts := true, chks := Mem.chk ⟨.v 4, .imm 0#14⟩ 1, unit := some .matrix } ∧ tG.lr.mg = true ∧
      tG.swapDue = false ∧ tF.off ⟨.v 4, .imm 0#14⟩ % 128 = 0 ∧
      tF.off ⟨.v 4, .imm 0#14⟩ + imageSize .e4m3 p.1 p.2 ≤ tG.lr.scr ∧
      (∀ r ∈ imageRanges .e4m3 p.1 p.2 0, tG.bufFault r.1 r.2 false = none) ∧
      (p.1 = .dense ∨ metaFault 0 (tG.imageBytes 0 0x4000 ((imageRanges .e4m3 p.1 p.2 0).filter fun r => decide (r.1 ≥ 0x4000))) = none)) ∧
    (∀ cs ∈ [[], Reg.chk (.v 6) 1],
      Issues (tSg tGm) tGm tF tH { counts := true, chks := Reg.chk (.v 4) 1 ++ cs ++ tileChk tGm 15, unit := some .matrix }) ∧
    tGm.lr.mg = true ∧ tGm.swapDue = false ∧ tGm.active.fmt = Ty.code .e4m3 ∧ tGm.active.scl = true ∧ tGm.active.sp = 0#2 ∧
    (∀ k ∈ [(4, 0), (0, 16)], tGm.scratchFault (tF.r 4).toNat (mmaK tGm.active .e4m3 k.1 k.2 * 8 / 8) 16 false = none) ∧
    Issues tS tG tF tH { chks := tileChk tG 15, unit := some .matrix } ∧
    Issues tS tG tF tH { chks := tileChk tG 15 ++ tileChk tG 0, unit := some .matrix } ∧
    Issues tS tG tF tH { counts := true, chks := Mem.chk ⟨.v 4, .imm 0#14⟩ 1 ++ tileChk tG 15, unit := some .matrix } ∧
    tG.scratchFault 0 512 16 false = none ∧ tG.scratchFault (65536 - 512) 512 16 true = none := by
  refine ⟨fun p hp => ?_, fun cs hc => ?_, rfl, by decide, rfl, rfl, rfl, by decide, issues_of (by decide),
    issues_of (by decide), issues_of (by decide), by decide, by decide⟩
  · simp only [List.mem_cons, List.not_mem_nil, or_false] at hp
    rcases hp with rfl | rfl | rfl <;>
      exact ⟨issues_of (by decide), rfl, by decide, by decide, by decide, by decide, by decide⟩
  · simp only [List.mem_cons, List.not_mem_nil, or_false] at hc
    rcases hc with rfl | rfl <;> exact issues_of (by decide)

/-- The group with uncorrectable errors in byte 5 of its scratchpad, in row 0 of tile 15 and in an entry of bank 7. -/
def tGe : Group :=
  { tG with scratchErr := [5], tileErr := [480], banks := [(7, { err := [0], ent := [(0, 0x3F800000#32)] })] }

theorem meets_MatrixPerform :
    (Issues tS tG tF tH (operandsOf (Src.chk (.imm 0) 1)) ∧ tG.lr.mg = true ∧
      (BitVec.ofNat 16 (tF.src .z32 (.imm 0)) - tG.pseq).toNat < 0x8000 ∧
      0x8000 ≤ (BitVec.ofNat 16 (tF.src .z32 (.imm 0)) - { tG with pseq := 0x8000#16 }.pseq).toNat) ∧
    (let x := tGw (.wait (.swap 0))
     (tSg x).group? 0 = some x ∧ x.core?.isSome = true ∧ (∀ o ∈ (tSg x).ops, o.fib.g ≠ 0) ∧ x.shadow.mixed = false ∧
     x.fibres = [(0, { tF with stat := .wait (.swap 0) })] ∧ FStat.wait (.swap 0) = .wait (.swap x.pseq)) ∧
    (∀ k ∈ [OpKind.mma 15 0 .e4m3 4 0 none, .azero 15, .ald 15 0, .ast 15 0, .amov 15 0, .wld .e4m3 0#2 false [] [] [] none],
     (tSo k).op? (tO k).id = some (tO k) ∧ (tSo k).matrixReady (tO k) = true ∧ (tSo k).group? (tO k).fib.g = some tG ∧
     tG.matrixBad 0 k = false) ∧
    (∀ k ∈ [OpKind.mma 15 0 .e4m3 4 0 none, .ald 14 0, .ast 15 0, .amov 14 15],
     (let s := { tSo k with groups := [(0, tGe)] }
      s.op? (tO k).id = some (tO k) ∧ s.matrixReady (tO k) = true ∧ s.group? (tO k).fib.g = some tGe ∧ tGe.matrixBad 0 k = true)) ∧
    (let k := OpKind.wld .e4m3 0#2 false [] [] [] (some 0)
     (tSo k).op? (tO k).id = some (tO k) ∧ (tSo k).matrixReady (tO k) = true ∧ (tSo k).group? (tO k).fib.g = some tG) := by
  refine ⟨⟨issues_of (by decide), rfl, by decide, by decide⟩, ⟨rfl, rfl, (fun o ho => by cases ho), rfl, rfl, rfl⟩,
    fun k hk => ?_, fun k hk => ?_, rfl, by decide, rfl⟩
  · simp only [List.mem_cons, List.not_mem_nil, or_false] at hk
    rcases hk with rfl | rfl | rfl | rfl | rfl | rfl <;> exact ⟨rfl, by decide, rfl, by decide⟩
  · simp only [List.mem_cons, List.not_mem_nil, or_false] at hk
    rcases hk with rfl | rfl | rfl | rfl <;> exact ⟨rfl, by decide, rfl, by decide⟩

/-- A bank of an order of one tile, and one with none. -/
def tBank (n : BitVec 5) : Bank := { fmt := Ty.code .e4m3, decl := true, len := n, rows := 31#5, order := 3#64, wrap := true }
def tGk (n : BitVec 5) : Group := { tG with banks := [(7, tBank n)] }

theorem meets_BanksIssue : (let m : Mem := ⟨.v 4, .imm 0#14⟩
    (∀ n ∈ [0#5, 1#5], let g := tGk n
      Issues (tSg g) g tF tH { counts := true, chks := Mem.chk m 1 ++ tileChk g 3 ++ bankChk g 7, unit := some .qstore } ∧
      Issues (tSg g) g tF tH { counts := true, chks := Mem.chk m 1 ++ [.span (.v 32) 32 4] ++ bankChk g 7, unit := some .qstore }) ∧
    ((tSg (tGk 1)).bankNow 0 (tGk 1) 7).shapeFault .e4m3 false false = none ∧
    ((tSg (tGk 1)).bankNow 0 (tGk 1) 7).judge 0 3 = .go ∧
    ((tSg (tGk 0)).bankNow 0 (tGk 0) 7).shapeFault .e4m3 false true = none ∧
    tG.scratchFault (tF.off m) (storeBytes 128 .e4m3 true) 16 true = none ∧
    tG.scratchFault (tF.off m) (storeBytes 32 .e4m3 true) 16 true = none ∧
    Issues tS tG tF tH { chks := Reg.chk (.v 4) 2 ++ bankChk tG 7, unit := some .qstore } ∧
    orderFault (tF.rdPair (.v 4)) 16 tG.lr.na = none ∧
    Issues tS tG tF tH { chks := bankChk tG 7, unit := some .qstore } ∧
    Issues tS tG tF tH { counts := true, chks := Mem.chk m 1 ++ bankChk tG 7, unit := some .qstore } ∧
    tG.scratchFault (tF.off m) 576 64 true = none ∧ tG.scratchFault (tF.off m) 576 64 false = none ∧
    imageOk (Memory.read tG.scratch (tF.off m) 576) tG.lr.na = true) := by
  refine ⟨fun n hn => ?_, by decide, by decide, by decide, by decide, by decide, issues_of (by decide), by decide,
    issues_of (by decide), issues_of (by decide), by decide, by decide, by decide⟩
  simp only [List.mem_cons, List.not_mem_nil, or_false] at hn
  rcases hn with rfl | rfl <;> exact ⟨issues_of (by decide), issues_of (by decide)⟩

theorem meets_BanksPerform :
    (∀ k ∈ [OpKind.qst 3 0 .e4m3 .ns false 7 false, .qstp (List.replicate 32 0#32) 0 .e4m3 .rne false 7 false, .hdecl 7 (tBank 1),
      .hload 7 (tBank 0), .hclr 7, .hsave 7 0],
     (tSo k).op? (tO k).id = some (tO k) ∧ (tSo k).bankReady (tO k) = true ∧ (tSo k).group? (tO k).fib.g = some tG) ∧
    (let k := OpKind.qst 15 0 .e4m3 .ns false 7 false
     let s := { tSo k with groups := [(0, tGe)] }
     s.op? (tO k).id = some (tO k) ∧ s.bankReady (tO k) = true ∧ s.group? (tO k).fib.g = some tGe ∧
     Tab.wf 0#32 (tGe.bank 7).ent = true ∧ ((tGe.bank 7).reads 0 k).any (tGe.bank 7).err.contains = true ∧
     tGe.rowBad 15 0 = true) ∧
    (let x := { tGw (.wait (.turn 7 3)) with banks := [(7, { tBank 1 with axisM := true })] }
     (tSg x).group? 0 = some x ∧ x.core?.isSome = true ∧ x.fibre? 0 = some { tF with stat := .wait (.turn 7 3) } ∧
     ((tSg x).bankNow 0 x 7).judge 0 3 = .go) := by
  refine ⟨fun k hk => ?_, ⟨rfl, by decide, rfl, rfl, by decide, by decide⟩, rfl, rfl, rfl, by decide⟩
  simp only [List.mem_cons, List.not_mem_nil, or_false] at hk
  rcases hk with rfl | rfl | rfl | rfl | rfl | rfl <;> exact ⟨rfl, by decide, rfl⟩

/-- The small machine with bytes in its page, at a VA. -/
def tMem (s : State) (va : Nat) (bs : List Byte) : State := s.sramWrite (0x40000 + va) bs
/-- Quadwords as bytes. -/
def qs (xs : List Nat) : List Byte := xs.flatMap (leBytes 8)

/-- A REDT record of one row of 32 .f32 elements, from one source at VA 0x2000; its first part is a FETCH or PUT record of
the row at VA 0. -/
def tRec : List Nat := [0, 0x0E * 2 ^ 59, 32, 0, 0, 0, 0, 0] ++ (2 ^ 63 + 0x2000) :: List.replicate 15 0
/-- A group of that fibre with descriptor 63 declared. -/
def tGr (st : BufState) : Group := { tGb st with fibres := [(0, tFa)] }
def tSr (st : BufState) : State := tMem (tSg (tGr st)) 0x1000 (qs tRec)
def tShape : Shape := shapeOf 0x1000#64 (qs (tRec.take 8))

/-- A record read of one part. -/
theorem readRecord_of {s : State} {g : Group} {va : Dword} {bs : List Byte} {p : Page}
    (k : foundB s g va 64 true false p = true) (hp : p.tier = .near)
    (h : ∃ s1, (seen s g va).nearBytes g p va 64 = .inr (bs, s1)) : ∃ s1, s.readRecord g va 1 [] = .inr (bs, s1) := by
  have f := found_of k
  obtain ⟨s1, h⟩ := h
  refine ⟨s1, ?_⟩
  rw [State.readRecord, Laws.access_ok f.aligned f.below f.mapped (fun _ => f.readable rfl) (fun h => absurd h (by decide)) (by rw [hp]; rfl)]
  have h' : (s.lookup g.coreOr0 (s.ctx g.ctx).asid (s.genOf (s.ctx g.ctx).asid) va).2.nearBytes g p va 64 = .inr (bs, s1) := h
  simp only [h', State.readRecord, List.nil_append]

/-- What the right of a sum holds beside the state, and of the state. -/
theorem inr_of {α β : Type} [DecidableEq β] {x : α ⊕ (β × State)} {b : β} {q : State → Bool}
    (h : (match x with
      | .inr (c, s) => decide (c = b) && q s
      | .inl _ => false) = true) : ∃ s, x = .inr (b, s) ∧ q s = true := by
  match x, h with
  | .inr (c, s), h =>
    simp only [Bool.and_eq_true, decide_eq_true_eq] at h
    exact ⟨s, by rw [h.1], h.2⟩

/-- The same, with nothing asked of the state. -/
theorem inr_any {α β : Type} [DecidableEq β] {x : α ⊕ (β × State)} {b : β}
    (h : (match x with
      | .inr (c, _) => decide (c = b) && true
      | .inl _ => false) = true) : ∃ s, x = .inr (b, s) := (inr_of (q := fun _ => true) h).imp fun _ h => h.1

/-- A calm state translates with its own context's identifiers as its base does. -/
theorem calm_ctx {q : Page} {b s : State} (h : Laws.Calm q b s) (c : Nat) : s.ctx c = b.ctx c := by
  obtain ⟨⟨t, k, l, rfl⟩, -, -, -⟩ := h
  simp only [State.ctx, State.ctxQ, State.sramWord,
    Laws.sramRead_of (s := { b with tlb := t, cores := k, looked := l }) (u := b) rfl rfl]

/-- A state with nothing cached is calm. -/
theorem calm_self {b : State} (h : b.tlb = [] ∧ b.cores = [] ∧ b.looked = []) : Laws.Calm tP b b :=
  ⟨⟨b.tlb, b.cores, b.looked, rfl⟩, by simp [h.1], by simp [h.2.2], by simp [h.2.1]⟩

/-- A translation and a read of a calm state. -/
theorem calm_access {b s : State} (hs : Laws.Calm tP b s) {g : Group} {v : Dword} (n : Nat) (ha : n = 0 ∨ v.toNat % n = 0)
    (hb : v.toNat < 2 ^ 56) {w : BitVec 128 × Nat} (hw : b.walk (b.ctx g.ctx).asid (b.genOf (b.ctx g.ctx).asid) v = some w)
    (hp : Page.of w.1 w.2 = tP) (ho : b.ops = []) (k : Nat) :
    ∃ s1 s2, s.access g v n accRead onlyNear = .inr (tP, s1) ∧ s1.nearBytes g tP v k =
      .inr (((b.sramRead (128 * (b.nearOff tP v / 128)) 128).drop (b.nearOff tP v % 128)).take k, s2) ∧ Laws.Calm tP b s2 := by
  have hg : s.genOf = b.genOf := by
    obtain ⟨⟨t, k, l, rfl⟩, -, -, -⟩ := hs; rfl
  obtain ⟨s1, h5, h6⟩ := Laws.calm_lookup hs g.coreOr0 hw hp
  rw [← calm_ctx hs g.ctx, ← hg] at h5
  have hn : s1.nearOff tP v = b.nearOff tP v := by
    obtain ⟨⟨t, k, l, rfl⟩, -, -, -⟩ := h6; rfl
  have hq : s1.ops = [] := by
    obtain ⟨⟨t, k, l, rfl⟩, -, -, -⟩ := h6; exact ho
  obtain ⟨s2, h7, h8⟩ := Laws.calm_read h6 g.coreOr0 (s1.ctx g.ctx).asid (s1.nearOff tP v) k
  rw [hn] at h7
  refine ⟨s1, s2, ?_, ?_, h8⟩
  have hl : ¬ (n ≠ 0 ∧ v.toNat % n ≠ 0) := by omega
  · rw [State.access, if_neg hl, if_neg (by omega)]
    simp only [h5]
    rfl
  · simp only [State.nearBytes, State.ownPending, hq, List.any_nil, Bool.false_eq_true, if_false, h7, hn]

/-- A record read of three parts in one page, from a state with nothing cached. -/
theorem readRecord3 {b : State} {g : Group} {va : Dword} (h : ∀ v ∈ [va, va + 64#64, va + 64#64 + 64#64],
      v.toNat % 64 = 0 ∧ v.toNat < 2 ^ 56 ∧ ∃ w, b.walk (b.ctx g.ctx).asid (b.genOf (b.ctx g.ctx).asid) v = some w ∧
        Page.of w.1 w.2 = tP) (hc : b.tlb = [] ∧ b.cores = [] ∧ b.looked = []) (ho : b.ops = []) :
    ∃ s1, b.readRecord g va 3 [] = .inr (
      ((b.sramRead (128 * (b.nearOff tP va / 128)) 128).drop (b.nearOff tP va % 128)).take 64 ++
      ((b.sramRead (128 * (b.nearOff tP (va + 64#64) / 128)) 128).drop (b.nearOff tP (va + 64#64) % 128)).take 64 ++
      ((b.sramRead (128 * (b.nearOff tP (va + 64#64 + 64#64) / 128)) 128).drop
        (b.nearOff tP (va + 64#64 + 64#64) % 128)).take 64, s1) := by
  have step (s : State) (hs : Laws.Calm tP b s) (v : Dword) (hv : v ∈ [va, va + 64#64, va + 64#64 + 64#64]) :
      ∃ s1 s2, s.access g v 64 accRead onlyNear = .inr (tP, s1) ∧ s1.nearBytes g tP v 64 =
        .inr (((b.sramRead (128 * (b.nearOff tP v / 128)) 128).drop (b.nearOff tP v % 128)).take 64, s2) ∧ Laws.Calm tP b s2 := by
    obtain ⟨h1, h2, w, h3, h4⟩ := h v hv
    exact calm_access hs 64 (.inr h1) h2 h3 h4 ho 64
  obtain ⟨a1, a2, ha, hb, hk⟩ := step b (calm_self hc) va (by simp)
  obtain ⟨b1, b2, hd, he, hl⟩ := step a2 hk (va + 64#64) (by simp)
  obtain ⟨c1, c2, hf, hi, -⟩ := step b2 hl (va + 64#64 + 64#64) (by simp)
  exact ⟨c2, by simp only [State.readRecord, ha, hb, hd, he, hf, hi, List.nil_append]⟩

theorem meets_FarTransfersIssue : (let m : Mem := ⟨.v 4, .imm 0#14⟩
    (∀ st ∈ [BufState.empty, .full],
      Issues (tSr st) (tGr st) tFa tH { counts := true, chks := Mem.chk m 2 ++ bufChk (tGr st) 63 }) ∧
    (∃ s1, (tSr .empty).readRecord (tGr .empty) (tFa.va m) 1 [] = .inr (qs (tRec.take 8), s1)) ∧
    xferCheck ((tGr .empty).bufNow 63) 63 .empty false (tFa.va m) (qs (tRec.take 8)) = .inl (tShape, []) ∧
    (∃ s1, (tSr .full).readRecord (tGr .full) (tFa.va m) 1 [] = .inr (qs (tRec.take 8), s1)) ∧
    xferCheck ((tGr .full).bufNow 63) 63 .full false (tFa.va m) (qs (tRec.take 8)) = .inl (tShape, []) ∧
    (∃ s1, (tSr .empty).readRecord (tGr .empty) (tFa.va m) 3 [] = .inr (qs tRec, s1)) ∧
    xferCheck ((tGr .empty).bufNow 63) 63 .empty true (tFa.va m) (qs tRec) = .inl (tShape, [0x2000])) := by
  refine ⟨fun st hs => ?_, readRecord_of (p := tP) (by decide) rfl (inr_any (by decide)), by decide,
    readRecord_of (p := tP) (by decide) rfl (inr_any (by decide)), by decide, ?_, by decide⟩
  · simp only [List.mem_cons, List.not_mem_nil, or_false] at hs
    rcases hs with rfl | rfl <;> exact issues_of (by decide)
  · have h := readRecord3 (b := tSr .empty) (g := tGr .empty) (va := tFa.va ⟨.v 4, .imm 0#14⟩) (fun v hv => ?_) ⟨rfl, rfl, rfl⟩ rfl
    · obtain ⟨s1, h⟩ := h
      exact ⟨s1, h.trans (congrArg (fun x => Sum.inr (x, s1)) (by decide))⟩
    · simp only [List.mem_cons, List.not_mem_nil, or_false] at hv
      rcases hv with rfl | rfl | rfl <;> exact ⟨by decide, by decide, (BitVec.ofNat 128 fetchPage, 0), by decide, by decide⟩

/-- The entry of the page made a FAR page's. -/
def tFar (s : State) : State := s.sramWrite 0x20000 (leBytes 16 (fetchPage + 2 ^ 59))
def tPf : Page := ⟨.far, 0, true, true, true, false, 0, 0#13, 0, 240, 0⟩

theorem meets_AllowancesAndBarriers :
    Issues tS tG tF tH (operandsOf (Src.chk (.imm 32) 1 ++ Reg.chk (.v 8) 1)) ∧
    (tF.src .z32 (.imm 0) < 1 ∧ 32 < tF.src .z32 (.imm 33)) ∧
    ((tF.src .z32 (.imm 32) : Int) - tG.wa ≤ tS.freeAllowances 0) ∧
    (let g := { tG with wa := 1 }
     let s := { tS with groups := [(0, g), (1, { tG with wa := 31 })] }
     Issues s g tF tH (operandsOf (Src.chk (.imm 2) 1 ++ Reg.chk (.v 8) 1)) ∧
     s.freeAllowances 0 < (tF.src .z32 (.imm 2) : Int) - g.wa) ∧
    (let m : Mem := ⟨.v 4, .imm 0#14⟩
     0 < Ty.bytes .z64 ∧ tPf.tier = .far ∧
     ∀ x ∈ [(tSf tFa, tP), (tFar (tSf tFa), tPf)],
       Issues x.1 (tGf tFa) tFa tH { counts := true, chks := Mem.chk m 2 ++ Reg.chk (.v 8) (AtomOp.regs .cas .z64), unit := some .fatom } ∧
       Found x.1 (tGf tFa) (tFa.va m) (Ty.bytes .z64) true true x.2 (seen x.1 (tGf tFa) (tFa.va m))) ∧
    Issues tS tG tF tH (operandsOf (Src.chk (.imm 3) 1)) ∧
    Issues tS tG tF tH (operandsOf []) ∧ (tG.abar 5).count = 0#16 ∧
    (let g := tG.setAbar 5 { count := 1#16 }
     Issues (tSg g) g tF tH (operandsOf []) ∧ (g.abar 5).count ≠ 0#16) ∧
    (tGw (.wait (.abar 5 11))).fibre? 0 = some { tF with stat := .wait (.abar 5 11) } := by
  refine ⟨issues_of (by decide), by decide, by decide, ⟨issues_of (by decide), by decide⟩, ⟨by decide, rfl, fun x hx => ?_⟩,
    issues_of (by decide), issues_of (by decide), rfl, ⟨issues_of (by decide), by decide⟩, rfl⟩
  simp only [List.mem_cons, List.not_mem_nil, or_false] at hx
  rcases hx with rfl | rfl <;> exact ⟨issues_of (by decide), found_of (by decide)⟩

/-- A transfer of the row at VA 0. -/
def tX (k : XferKind) (acc : Bool) : Xfer := { kind := k, buf := 63, ab := none, shape := tShape, effective := true, accepted := acc }
def tXo (k : XferKind) (acc : Bool) : Op := tO (.xfer (tX k acc))
def tXs (k : XferKind) (acc : Bool) : State := { tS with ops := [tXo k acc], groups := [(0, { tGb .filling with wa := 1 })] }

theorem meets_FarTransferEvents :
    (∀ k ∈ [XferKind.fetch, .put],
      (let old : Op := { tXo .fetch true with id := 5 }
       let g : Group := { tGb .filling with wa := 2 }
       let s : State := { tS with ops := [old, tXo k false], groups := [(0, g)] }
       s.op? 7 = some (tXo k false) ∧ s.group? 0 = some g ∧ g.core?.isSome = true ∧
       (∀ p ∈ s.ops, p.fib.g = 0 → ∀ y, p.kind = .xfer y → y.began < 0 ∨ (y.began = 0 ∧ p.id < 7) →
         y.accepted = true ∨ y.effective = false ∨ y.isCtile = true) ∧
       (s.ops.filter fun p => p.fib.g == 0 && match p.kind with
         | .xfer y => y.accepted && !y.isCtile
         | _ => false).length < g.wa)) ∧
    (∀ k ∈ [(XferKind.fetch, false), (.put, true)], (tXs k.1 true).op? 7 = some (tXo k.1 true) ∧
      (tX k.1 true).miss = [] ∧ (tXs k.1 true).peersPending 7 = false ∧ tP.tier ≠ .peer ∧
      (tXs k.1 true).mxWaits (tX k.1 true) [(tP, (0, 128))] = false ∧
      badSource (tGb .filling).scratchErr ((tGb .filling).buf 63).lo [(tP, (0, 128))] = none ∧
      (tX k.1 true).ready (tXs k.1 true) 0 k.2 = .go [(tP, (0, 128))]) := by
  refine ⟨fun k hk => ⟨?_, rfl, rfl, ?_, ?_⟩, fun k hk => ?_⟩
  · simp only [List.mem_cons, List.not_mem_nil, or_false] at hk
    rcases hk with rfl | rfl <;> rfl
  · intro p hp _ y hy h7
    simp only [List.mem_cons, List.not_mem_nil, or_false] at hp
    rcases hp with rfl | rfl
    · cases hy; exact .inl rfl
    · exact absurd (h7.resolve_left (Nat.not_lt_zero _)).2 (Nat.lt_irrefl 7)
  · simp only [List.mem_cons, List.not_mem_nil, or_false] at hk
    rcases hk with rfl | rfl <;> decide
  · simp only [List.mem_cons, List.not_mem_nil, or_false] at hk
    rcases hk with rfl | rfl <;> exact ⟨rfl, rfl, rfl, by decide, by decide, by decide, rfl⟩

/-- A chain table at VA 0 with one chain for slot 0 of unit 0 of module 0, its entries from VA 0x100, its sequence word at
VA 0x800. -/
def tEnt : ChainEnt := ⟨false, 0, 0, 0, 0x100#64, 0x800#64⟩
def tCh (s : State) : State := tMem s 0 (qs [2 ^ 63, 0x100, 0x800, 0])
def tChf (s : State) : State := { tCh s with chains := [(chainKey 0 0, { failed := true })] }

theorem meets_ChainWords : (let d := Reg.chk (.v 8) 2
    Issues (tCh tS) tG tF tH (tNeed .engine (Src.chk (.imm 0) 1 ++ Src.chk (.imm 64) 1 ++ d)) ∧
    tF.src .z32 (.imm 64) ≤ 64 ∧ tF.src .z32 (.imm 0) = 0 ∧
    Issues (tCh tS) tG tF tH (tNeed .engine (Src.chk (.imm 0) 1 ++ Reg.chk (.v 6) 2 ++ d)) ∧
    Issues (tCh tS) tG tF tH (tNeed .engine (Src.chk (.imm 0) 1 ++ d)) ∧
    Issues (tCh tS) tG tF tH (operandsOf (Src.chk (.imm 0) 1 ++ Src.chk (.imm 0) 2)) ∧
    (∃ s1, (tCh tS).handle tG 0 = .inr (tEnt, s1) ∧
      ((s1.chain 0 0 == {}) && !s1.failing tEnt.key 0 0 && decide (tF.wideSrc (.imm 0) ≤ (s1.chain 0 0).done)) = true) ∧
    Issues (tChf tS) tG tF tH (operandsOf (Src.chk (.imm 0) 1 ++ Src.chk (.imm 1) 2)) ∧
    (∃ s1, (tChf tS).handle tG 0 = .inr (tEnt, s1) ∧
      ((s1.chain 0 0).failed && decide ((s1.chain 0 0).done < tF.wideSrc (.imm 1))) = true)) :=
  ⟨issues_of (by decide), by decide, by decide, issues_of (by decide), issues_of (by decide), issues_of (by decide),
   inr_of (by decide), issues_of (by decide), inr_of (by decide)⟩

/-- An entry in slot 0 of unit 0 of module 0, whose operands lie in the page at VA 0, and a state that holds it. -/
def tE (out : Nat) : FEntry :=
  { ctx := 0, hnd := 0, num := 1, va := 0x100#64, raw := 0#384, priv := false, owner := ⟨0#10, 0#16, 0#8⟩, by_ := none
    pages := [⟨0, 1, 0, 0#13⟩], started := true, outb := out }
def tSe (es : List FEntry) : State := { tCh tS with slots := [(0, { entries := es })] }
/-- A lane of one state whose row for byte 0 is `w`. -/
def tLane (w : Word) : State := { tSe [tE 0] with lanes := [(0, { rows := [(0, w)] })] }

theorem meets_DataEntries :
    ((1#32).toNat = 1 ∧ (let all := (tE 0).obuf ++ [1#8]
      all.length - (0x2000 + (tE 0).outb + 1) % 128 = 0 ∧ 0 < ([1#8, 2#8] : List Byte).length - (0x207E + (tE 0).outb + 2) % 128)) ∧
    (∀ n ∈ [0, 128], (tSe [tE n]).headEntry (tSe [tE n]).curSlot = some (tE n) ∧ (tE n).inPlace = true ∧
      (tSe [tE n]).entryWaits 0 (tE n) = false) ∧
    (let e := { tE 0 with raw := (encodeEntry (.copy (.mem 0x2000) (.fifo 0) 128)).getD 0#384 }
     e.inPlace = false) ∧
    (128#32).toNat ≤ (tE 128).outb ∧ (tE 0).outb < (129#32).toNat ∧
    ((tE 0).opFault (tSe [tE 0]) true false 0 128 (.mem 0x1000) = none ∧
     (tE 0).opFault (tSe [tE 0]) true false 0 128 (.mem 0x2000) = none ∧
     (tE 0).opFault (tSe [tE 0]) false true 0 128 (.mem 0x3000) = none) ∧
    (let s := (tSe [tE 0]).setMeta 0x1000 { rsv := 1#46 }
     s.headEntry s.curSlot = some (tE 0) ∧ s.entryWaits 0 (tE 0) = false ∧
     (tE 0).opFault s true false 0 128 (.mem 0x1000) = some 0x03#8 ∧ (tE 0).opFault s false true 0 128 (.mem 0x1000) = some 0x03#8) ∧
    8 ≤ Ty.width .z64 ∧ 128 % (Ty.width .z64 / 8) = 0 ∧
    ((tE 0).pending (.mem 0x3000) 0x1000 ((tE 0).read (tSe [tE 0]) 0x1000 128)).length = 128 ∧
    (tE 0).started = true ∧ (tE 0).inb < (1#32).toNat ∧
    (let r (w : Word) := dispatchByte ((tLane w).lane (laneOf 0)) (leNat (((tE 0).read (tLane w) 0x1000 1).take 1)) 0
      ((tE 0).outCap (.mem 0x3000) 32 1) 8 0 0
     (r 0xFFF00000#32).fail = some stTableError ∧ (r 0x00010000#32).fail = none ∧ (r 0x00010000#32).stop = true ∧
     (r 0x00000000#32).fail = none ∧ (r 0x00000000#32).stop = false) := by
  refine ⟨by decide, fun n hn => ?_, by decide, by decide, by decide, ⟨by decide, by decide, by decide⟩, ⟨rfl, by decide, by decide, by decide⟩, by decide, by decide,
    by decide, rfl, by decide, by decide, by decide, by decide, by decide, by decide⟩
  simp only [List.mem_cons, List.not_mem_nil, or_false] at hn
  rcases hn with rfl | rfl <;> exact ⟨rfl, by decide, by decide⟩

/-- The page's module bytes hold a table image of one state. -/
def tTab : State := { tSe [tE 0] with far := [⟨0x1000, 1#8⟩], provs := [(0, some ⟨0#16, 1#24, 1, none⟩)] }

theorem meets_ControlEntries :
    (tSe [tE 0]).headEntry (tSe [tE 0]).curSlot = some (tE 0) ∧
    (∀ p ∈ ([(0#12, 0#52)] : List (BitVec 12 × BitVec 52)), (tSe [tE 0]).fencePair 0 (tE 0) p = none ∧
      p.2.toNat ≤ ((tSe [tE 0]).chain 0 p.1.toNat).done) ∧
    (1088#32).toNat = 64 + 1024 * bits (leNat (((tE 0).read tTab 0x1000 64).take 8)) 11 0 ∧
    (∀ n, n = 64 ∨ n = 1088 → (tE 0).fault tTab true false 0x1000 n = none) ∧
    (let s := (tSe [tE 0]).setMeta 0 { ce := true }
     (s.metaOf 0).ce = true ∧ ({ s with keys := (tE 0).keys } : State).farFault ((tE 0).addr 0x1000).2 true true 0 65536 = none) ∧
    (∃ l, laneImage ((tE 0).read tTab 0x1000 1088) 1088 = some l) ∧
    (0#8).toNat ≠ 7 ∧ slotExists ((0#8).toNat / 8) ((0#8).toNat % 8) = true := by
  refine ⟨rfl, fun p hp => ?_, by decide, fun n hn => ?_, ⟨by decide, by decide⟩, ?_, by decide, by decide⟩
  · rw [List.mem_singleton.1 hp]; exact ⟨by decide, by decide⟩
  · rcases hn with rfl | rfl <;> decide
  · unfold laneImage
    rw [if_pos (by decide)]
    exact ⟨_, rfl⟩

/-- A request to forward two entries of the chain, whose first entry, at VA 0x100, is a NOP. -/
def tFwd : Fwd := { by_ := none, left := 2, ent := tEnt }
def tNop : BitVec 384 := 0#384
def tCf (f : Fwd) (es : List FEntry) : State :=
  let s := tCh tS
  { s with chains := [(chainKey 0 0, { fwd := [f], sent := es.length })], slots := [(0, { owner := some (s.ownerOf 0), entries := es })]
           provs := [(0, some ⟨0#16, 1#24, 1, none⟩)] }

theorem link_of {s : State} {f : Fwd}
    (h : (match s.nextLink 0 (s.chain 0 0) f with
      | .entry va raw s1 => va == 0x100#64 && raw == tNop && s1.linkUp 0 &&
          (match s1.entryPages 0 (s.chain 0 0) tEnt .engineNop with
          | .pages ps => ps.isEmpty
          | _ => false) && (s1.slot tEnt.key).owner == some (s1.ownerOf 0)
      | _ => false) = true) :
    ∃ s1, s.nextLink 0 (s.chain 0 0) f = .entry 0x100#64 tNop s1 ∧ s1.linkUp 0 = true ∧
      s1.entryPages 0 (s.chain 0 0) tEnt .engineNop = .pages [] ∧ (s1.slot tEnt.key).owner = some (s1.ownerOf 0) := by
  revert h
  cases s.nextLink 0 (s.chain 0 0) f with
  | entry va raw s1 =>
    intro h
    simp only [Bool.and_eq_true, beq_iff_eq] at h
    obtain ⟨⟨⟨⟨rfl, rfl⟩, h3⟩, h4⟩, h5⟩ := h
    refine ⟨s1, rfl, h3, ?_, h5⟩
    split at h4
    · next ps hp => rw [hp, List.isEmpty_iff.1 h4]
    · cases h4
  | bad va => intro h; cases h
  | wait => intro h; cases h
  | miss p => intro h; cases h
  | fail va st => intro h; cases h

theorem entry_of {x : Link} {v : Dword} {w : BitVec 384} (h : (match x with
    | .entry va raw _ => va == v && raw == w
    | _ => false) = true) : ∃ s1, x = .entry v w s1 := by
  cases x with
  | entry va raw s1 =>
    simp only [Bool.and_eq_true, beq_iff_eq] at h
    exact ⟨s1, by rw [h.1, h.2]⟩
  | bad va => cases h
  | wait => cases h
  | miss p => cases h
  | fail va st => cases h

theorem meets_ChainEvents :
    (∀ x ∈ [(2, []), (1, [tE 0])], let f : Fwd := { tFwd with left := x.1 }
      let s := tCf f x.2
      ((s.chain 0 0).fwd = [f] ∧ 1 ≤ f.left ∧ (s.chain 0 0).failed = false ∧ s.failing tEnt.key 0 0 = false ∧
        (s.slot tEnt.key).entries = x.2 ∧ (s.slot tEnt.key).entries.length < 256) ∧
      (s.chain 0 0).miss = [] ∧ s.drainedModules.contains tEnt.module = false ∧
      (let u : State := { s with provs := [(0, some ⟨0#16, 1#24, 1, some 9⟩)] }
       u.drainedModules.contains tEnt.module = true ∧ ∃ s1, u.nextLink 0 (u.chain 0 0) f = .entry 0x100#64 tNop s1) ∧
      (let c : Chain := { fwd := [f], miss := [(0, 1)] }
       ({ s with chains := [(chainKey 0 0, c)] } : State).chain 0 0 = c ∧ c.miss ≠ []) ∧
      (∃ s1, s.nextLink 0 (s.chain 0 0) f = .entry 0x100#64 tNop s1 ∧ s1.linkUp 0 = true ∧
        s1.entryPages 0 (s.chain 0 0) tEnt .engineNop = .pages [] ∧ (s1.slot tEnt.key).owner = some (s1.ownerOf 0))) ∧
    (decodeEntry tNop = some .engineNop ∧ isPrivEntry .engineNop = false ∧ unitAccepts 0 0 .engineNop = true ∧
      ((entryFifos .engineNop).1 ++ (entryFifos .engineNop).2).Nodup) ∧
    (let o := tO (.etail 0 8)
     tFwd.by_ = none ∧ { tFwd with by_ := some o }.by_ = some o ∧ o.kind = .etail 0 8) ∧
    (∀ st ∈ [0#8, 3#8], let e := { tE 0 with result := some st }
      ((tSe [e, tE 0]).slot 0).entries = e :: [tE 0] ∧ e.result = some st ∧ (tCf tFwd []).linkUp 0 = true ∧
      (tSe [e, tE 0]).flushWaits 0 e = false) ∧ (3#8 ≠ 0#8) ∧
    (let s := { tS with fifos := [(5, { prod := some 0, cons := some 8 })], slots := [(0, { entries := [tE 0] }), (8, { entries := [tE 1] })] }
     s.fifo 5 = { prod := some 0, cons := some 8 } ∧ 0 ≠ 8 ∧ s.headEntry 0 = some (tE 0) ∧ s.headEntry 8 = some (tE 1)) := by
  refine ⟨fun x hx => ?_, ⟨rfl, rfl, rfl, by decide⟩, ⟨rfl, rfl, rfl⟩, fun st hs => ?_, by decide, rfl, by decide, rfl, rfl⟩
  · simp only [List.mem_cons, List.not_mem_nil, or_false] at hx
    rcases hx with rfl | rfl
    · exact ⟨⟨rfl, by decide, rfl, by decide, rfl, by decide⟩, rfl, by decide, ⟨by decide, entry_of (by decide)⟩,
        ⟨rfl, by decide⟩, link_of (by decide)⟩
    · exact ⟨⟨rfl, by decide, rfl, by decide, rfl, by decide⟩, rfl, by decide, ⟨by decide, entry_of (by decide)⟩,
        ⟨rfl, by decide⟩, link_of (by decide)⟩
  · simp only [List.mem_cons, List.not_mem_nil, or_false] at hs
    rcases hs with rfl | rfl <;> exact ⟨rfl, rfl, by decide, by decide⟩

/-- An outbound window table at VA 0: handle 0 reaches window 0 of peer 0, of 64 KiB; a descriptor of 128 bytes through it
at VA 0x1000. -/
def tWin (step : Bool) : OutWin := ⟨step, 0#3, 0, 0, 0, 65536, 0#32⟩
def tPw (step : Bool) : State :=
  let s := tMem (tMem (tSf tFa) 0 (qs [2 ^ 63 + if step then 2 ^ 62 else 0, 0, 65536, 0])) 0x1000 (qs [0x40, 0, 128, 0x3000, 0, 0, 0, 0])
  { s with regs := { s.regs with stepCtl := 2#64 ^ 63 } }

/-- The table's entry reads back in every calm state. -/
theorem tWindow {b s : State} {g : Group} (h : Laws.Calm tP b s) (hg : g.ctx = 0)
    (hc : (b.ctx 0).owlen = 0 ∧ (b.ctx 0).owva = 0#64) (hq : b.ops = []) {w : OutWin}
    (hw : b.walk (b.ctx 0).asid (b.genOf (b.ctx 0).asid) 0#64 = some (BitVec.ofNat 128 fetchPage, 0))
    (ho : outWin (((b.sramRead (128 * (b.nearOff tP 0#64 / 128)) 128).drop (b.nearOff tP 0#64 % 128)).take 32) = some w) :
    ∃ s2, s.window g 0 = .inr (some w, s2) ∧ Laws.Calm tP b s2 := by
  have hx : (s.ctx g.ctx).owva + dw (32 * 0) = 0#64 := by rw [calm_ctx h, hg, hc.2]; rfl
  have hl : ¬ 0 > (s.ctx g.ctx).owlen := by omega
  obtain ⟨s1, s2, h1, h2, h3⟩ := calm_access h (g := g) (v := 0#64) 0 (.inl rfl) (by decide)
    (by rw [hg]; exact hw) (by decide) hq 32
  refine ⟨s2, ?_, h3⟩
  have hf : s.fibreRead g 0#64 0#64 32 2 [] = .inr
      ((((b.sramRead (128 * (b.nearOff tP 0#64 / 128)) 128).drop (b.nearOff tP 0#64 % 128)).take 32), s2) := by
    rw [State.fibreRead, if_neg (by decide), h1]
    simp only [show min 32 (128 - BitVec.toNat 0#64 % 128) = 32 by decide, h2, Nat.sub_self, List.nil_append]
    rw [State.fibreRead, if_pos rfl]
  simp only [State.window, if_neg hl, hx, hf, ho]

theorem calm_failed {b s : State} (h : Laws.Calm tP b s) : s.failedWin = b.failedWin ∧ s.stepOn = b.stepOn := by
  obtain ⟨⟨t, k, l, rfl⟩, -, -, -⟩ := h; exact ⟨rfl, rfl⟩

theorem tOpened {s : State} {off n al : Nat} (step : Bool) (h : Laws.Calm tP (tPw step) s) (ha : off % al = 0)
    (hb : off + n ≤ 65536) : ∃ s2, Opened s (tGf tFa) 0 off n al step (tWin step) s2 := by
  obtain ⟨s2, h1, h2⟩ := tWindow (g := tGf tFa) (w := tWin step) h rfl (by cases step <;> decide) (by cases step <;> rfl)
    (by cases step <;> decide) (by cases step <;> decide)
  exact ⟨s2, h1, ha, by rw [(calm_failed h2).1]; cases step <;> rfl, rfl, hb, fun _ => by
    rw [(calm_failed h2).2]; cases step <;> decide⟩

theorem meets_PodWords : (let m : Mem := ⟨.v 4, .imm 0#14⟩
    let va := tFa.va m
    0 < Ty.width .z64 / 8 ∧ tFa.winAddr m = (0, 0x1000) ∧
    (∀ step, Issues (tPw step) (tGf tFa) tFa tH { counts := true, chks := Mem.chk m 2 ++ Reg.chk (.v 8) (Ty.regs .z64) } ∧
      ∃ s1, Opened (tPw step) (tGf tFa) 0 0x1000 8 8 step (tWin step) s1) ∧
    Issues (tPw false) (tGf tFa) tFa tH { counts := true, chks := Mem.chk m 2 ++ Reg.chk (.v 8) (AtomOp.regs .cas .z64) } ∧
    Issues (tPw false) (tGf tFa) tFa tH { counts := true, chks := Mem.chk m 2 } ∧
    tP.tier = .near ∧ ∃ s1 bs s0, Found (tPw false) (tGf tFa) va 64 true false tP s1 ∧
      s1.nearBytes (tGf tFa) tP va 64 = .inr (bs, s0) ∧
      (let q := quad bs
       bits (q 0) 63 48 = 0 ∧ bits (q 0) 47 0 = 0x40 ∧ bits (q 2) 16 0 = 128 ∧ bits (q 1) 63 56 = 0 ∧ bits (q 2) 63 17 = 0 ∧
       q 5 = 0 ∧ q 6 = 0 ∧ q 7 = 0) ∧
      ∃ s2, Opened s0 (tGf tFa) 0 0x40 128 1 false (tWin false) s2) := by
  refine ⟨by decide, by decide, fun step => ⟨by cases step <;> exact issues_of (by decide),
    tOpened step (calm_self (by cases step <;> exact ⟨rfl, rfl, rfl⟩)) rfl (by decide)⟩,
    issues_of (by decide), issues_of (by decide), rfl, ?_⟩
  have hf : foundB (tPw false) (tGf tFa) (tFa.va ⟨.v 4, .imm 0#14⟩) 64 true false tP = true := by decide
  obtain ⟨s1, h1, h2⟩ := Laws.calm_lookup (calm_self (b := tPw false) ⟨rfl, rfl, rfl⟩) 0 (a := 0#16) (gen := 0#8)
    (va := tFa.va ⟨.v 4, .imm 0#14⟩) (w := (BitVec.ofNat 128 fetchPage, 0)) (by decide) (by decide)
  have hs : seen (tPw false) (tGf tFa) (tFa.va ⟨.v 4, .imm 0#14⟩) = s1 := (congrArg Prod.snd h1 :)
  obtain ⟨s2, h3, h4⟩ := Laws.calm_read h2 0 (s1.ctx 0).asid (s1.nearOff tP (tFa.va ⟨.v 4, .imm 0#14⟩)) 64
  have hn : s1.nearOff tP = (tPw false).nearOff tP := by
    obtain ⟨⟨t, k, l, rfl⟩, -, -, -⟩ := h2; rfl
  have hq : s1.ops = [] := by
    obtain ⟨⟨t, k, l, rfl⟩, -, -, -⟩ := h2; rfl
  have hk : s1.nearBytes (tGf tFa) tP (tFa.va ⟨.v 4, .imm 0#14⟩) 64 = .inr (qs [0x40, 0, 128, 0x3000, 0, 0, 0, 0], s2) := by
    have hg : (tGf tFa).coreOr0 = 0 ∧ (tGf tFa).ctx = 0 := ⟨rfl, rfl⟩
    rw [hn] at h3
    simp only [State.nearBytes, State.ownPending, hq, List.any_nil, Bool.false_eq_true, if_false, hg.1, hg.2, hn, h3]
    exact congrArg (fun x => Sum.inr (x, s2)) (by decide)
  obtain ⟨s3, h5⟩ := tOpened (off := 0x40) (n := 128) (al := 1) false h4 rfl (by decide)
  exact ⟨_, _, s2, found_of hf, hs ▸ hk, by decide, s3, h5⟩

/-- A package of another number, whose port 0 has its replay buffer full, or not. -/
def tPx (full : Bool) : State :=
  let r : PeerReq := { peer := 0, addr := 0, hdr := none, kind := .xputq 0#64 0#64 (2 ^ 21) [] 0, handle := none, taddr := 0#64, room := some 0 }
  let s := tPw false
  { s with regs := { s.regs with peerId := 0x8000000000000001#64 }, ops := if full then [tO (.peer r)] else [] }

theorem meets_PodWords_room : (∃ s1, Opened (tPw false) (tGf tFa) 0 0x1000 8 8 false (tWin false) s1 ∧
      s1.takesRoom ((tWin false).req 0 0 0x1000 (.write (leBytes 8 5))) = false) ∧
    ∀ full, Issues (tPx full) (tGf tFa) tFa tH { counts := true, chks := Mem.chk ⟨.v 4, .imm 0#14⟩ 2 ++ Reg.chk (.v 8) (Ty.regs .z64) } ∧
      ∃ s1, Opened (tPx full) (tGf tFa) 0 0x1000 8 8 false (tWin false) s1 ∧
        (let r := (tWin false).req 0 0 0x1000 (.write (leBytes 8 5))
         s1.takesRoom r = true ∧ s1.roomFor s1.nextId r = if full then none else some 0) := by
  have key (s : State) (q : State → Bool) (h : ∃ s1, s.window (tGf tFa) 0 = .inr (some (tWin false), s1) ∧
      (!s1.failedWin.contains (0, 0) && q s1) = true) :
      ∃ s1, Opened s (tGf tFa) 0 0x1000 8 8 false (tWin false) s1 ∧ q s1 = true := by
    obtain ⟨s1, h1, h2⟩ := h
    simp only [Bool.and_eq_true, Bool.not_eq_true'] at h2
    exact ⟨s1, ⟨h1, rfl, h2.1, rfl, by decide, fun h => by cases h⟩, h2.2⟩
  refine ⟨?_, fun full => ⟨by cases full <;> exact issues_of (by decide), ?_⟩⟩
  · obtain ⟨s1, h1, h2⟩ := key (tPw false)
      (fun s1 => !s1.takesRoom ((tWin false).req 0 0 0x1000 (.write (leBytes 8 5)))) (inr_of (by decide))
    exact ⟨s1, h1, by simpa using h2⟩
  · obtain ⟨s1, h1, h2⟩ := key (tPx full) (fun s1 => s1.takesRoom ((tWin false).req 0 0 0x1000 (.write (leBytes 8 5))) &&
      s1.roomFor s1.nextId ((tWin false).req 0 0 0x1000 (.write (leBytes 8 5))) == if full then none else some 0)
      (by cases full <;> exact inr_of (by decide))
    simp only [Bool.and_eq_true, beq_iff_eq] at h2
    exact ⟨s1, h1, h2.1, h2.2⟩

theorem meets_SuperstepWords :
    (let s := { tS with doneBelow := 1 }
     Issues s tG tF tH (operandsOf (Src.chk (.imm 0) 2)) ∧ s.stepArg tF (.imm 0) < s.doneBelow) ∧
    (Issues tS tG tF tH (operandsOf (Src.chk (.imm 0) 2)) ∧ tS.doneBelow ≤ tS.stepArg tF (.imm 0)) ∧
    Issues tS tG tF tH (operandsOf (Src.chk (.imm 0) 2 ++ Reg.chk (.v 8) 2)) ∧
    (let bs := qs [0, 0x0E * 2 ^ 59 + 2 ^ 54 + 2 ^ 48, 32, 0, 0, 0, 0, 1]
     let s := tMem (tMem (tSg (tGr .full)) 0x1000 bs) 0 (qs [2 ^ 63, 0x900])
     let m : Mem := ⟨.v 4, .imm 0#14⟩
     Issues s (tGr .full) tFa tH { counts := true, chks := Mem.chk m 2 ++ bufChk (tGr .full) 63, unit := some .lark } ∧
     ∃ s1, s.readRecord (tGr .full) (tFa.va m) 1 [] = .inr (bs, s1) ∧
       (match s1.ctileCheck (tGr .full) ((tGr .full).bufNow 63) 63 .allred (tFa.va m) bs with
         | .inl x => x.buf == 63#6
         | .inr _ => false) = true) :=
  ⟨⟨issues_of (by decide), by decide⟩, ⟨issues_of (by decide), by decide⟩, issues_of (by decide), issues_of (by decide),
   inr_of (by decide)⟩

/-- A member of a pod whose inbound table stands at 512 KiB of the shared SRAM: window 0 plain, window 1 a step window,
window 2 a synchronisation window, each over the page and open to every peer. -/
def tPeer : State :=
  let w (k : Nat) : List Byte := qs [2 ^ 63 + 2 ^ 57 + k, 65536, 0, 0]
  ({ tS with regs := { tS.regs with peerId := 2#64 ^ 63, stepCtl := 2#64 ^ 63, inwinRoot := 0x80000#64, inQuota := [(3, 0#64)] }
             fwds := [{ id := 0, out := 0, peer := 0, port := 0, src := 1, tag := 0, own := none, writes := true, ctx := 1024 }], nextId := 1 } : State).sramWrite 0x80000 (w 0 ++ w (2 ^ 62) ++ w (2 ^ 56))
def tReq (src win : Nat) : InReq := ⟨src, 0, 5, false, none, BitVec.ofNat 45 (win * 2 ^ 32)⟩

/-- The same with a page of peer 2 at VA 0. -/
def tPeerTo : State := tPeer.sramWrite 0x20000 (leBytes 16 (fetchPage + 2 ^ 60 + 2 ^ 30))

theorem done_of {x : Served} (h : (match x with
    | .done st _ _ => st == 0#8
    | _ => false) = true) : ∃ out s1, x = .done 0#8 out s1 := by
  cases x with
  | done st out s1 => exact ⟨out, s1, by rw [beq_iff_eq.1 h]⟩
  | forward p a => cases h
  | hold => cases h

theorem hold_of {x : Served} (h : (match x with
    | .hold => true
    | _ => false) = true) : x = .hold := by
  cases x with
  | done st out s1 => cases h
  | forward p a => cases h
  | hold => rfl

theorem forward_of {s : State} {r : InReq} {x : Served} (h : (match x with
    | .forward ctx [p] => (match s.sendPart s.nextId r none none ctx p with
      | some (none, _) => true
      | _ => false)
    | _ => false) = true) : ∃ ctx p t, x = .forward ctx [p] ∧ s.sendPart s.nextId r none none ctx p = some (none, t) := by
  split at h
  · next ctx p =>
    split at h
    · next t ht => exact ⟨ctx, p, t, rfl, ht⟩
    · cases h
  · cases h

theorem meets_PodRequests :
    tPeer.peerValid = true ∧ tPeer.heldFrom 1 < tPeer.quota 1 ∧ tPeer.quota 3 ≤ tPeer.heldFrom 3 ∧ tS.peerValid = false ∧
    (tPeer.unsent.any fun v => v.1 == 3) = false ∧ tPeer.portFor 3 = some 3 ∧
    (let s : State := { tPeer with downPorts := List.range 8 }
     s.peerValid = true ∧ s.quota 3 ≤ s.heldFrom 3 ∧ s.portFor 3 = none) ∧
    (Direct.read 8).legal ((tReq 1 0).addr.toNat + 4) = false ∧ (Direct.read 8).legal (tReq 1 7).addr.toNat = true ∧
    tPeer.inWin? ((tReq 1 7).addr.toNat / 2 ^ 32 % 8192) = none ∧
    (∀ q ∈ [Direct.read 8, .write [some 1#8], .atomic .add .z32 1#64 0#64],
      ∃ out s1, tPeer.serve tPeer.nextId (tReq 1 0) q = .done 0#8 out s1) ∧
    tPeer.serve tPeer.nextId (tReq 1 2) (.write (List.replicate 8 (some 1#8))) = .hold ∧
    (∀ q ∈ [Direct.read 8, .write [some 1#8], .atomic .add .z32 1#64 0#64],
      ∃ ctx p t, tPeerTo.serve tPeerTo.nextId (tReq 1 0) q = .forward ctx [p] ∧
        tPeerTo.sendPart tPeerTo.nextId (tReq 1 0) none none ctx p = some (none, t)) ∧
    tPeer.xheld.length < 64 ∧ (∃ st s1, tPeer.tryXputq tPeer.nextId (tReq 1 0) 0#64 [1#8] = .inl (st, s1)) ∧
    (∃ st s1, tPeer.stepRecord 1 (some ⟨true, 0#3, 0#32⟩) (tReq 1 1).addr.toNat 0 (List.replicate 8 1#8) = (st, s1)) := by
  refine ⟨by decide, by decide, by decide, by decide, rfl, by decide, by decide, by decide, by decide, by decide, fun q hq => ?_,
    hold_of (by decide), fun q hq => ?_, by decide, ?_, _, _, rfl⟩
  · simp only [List.mem_cons, List.not_mem_nil, or_false] at hq
    rcases hq with rfl | rfl | rfl <;> exact done_of (by decide)
  · simp only [List.mem_cons, List.not_mem_nil, or_false] at hq
    rcases hq with rfl | rfl | rfl <;> exact forward_of (by decide)
  · have key (x : (BitVec 8 × State) ⊕ (Nat × List (Option Page × (Nat × Nat)))) (h : x.isLeft = true) :
        ∃ st s1, x = .inl (st, s1) := by
      cases x with
      | inl p => exact ⟨p.1, p.2, rfl⟩
      | inr p => cases h
    exact key _ (by decide)

/-- A request of the fibre to peer 1. -/
def tPr (k : PeerKind) : PeerReq := { peer := 1, addr := 0, hdr := none, kind := k, handle := some 7, taddr := 0#64, busy := true, sent := true, port := some 1 }

theorem meets_PodResponses :
    (∀ k ∈ [PeerKind.read .z32 8, .atomic .add .z32 1#64 0#64 (some 8), .write [1#8], .atomic .add .z32 1#64 0#64 none],
      (tSo (.peer (tPr k))).op? (tO (.peer (tPr k))).id = some (tO (.peer (tPr k))) ∧
      (∀ f ∈ (tSo (.peer (tPr k))).fwds, f.id ≠ (tO (.peer (tPr k))).id) ∧ (tPr k).sent = true ∧ (tPr k).busy = true ∧
      (tPr k).handle = some 7 ∧ ∀ q, (tPr k).port = some q → q ∉ (tSo (.peer (tPr k))).downPorts) ∧
    (let h : XHeld := ⟨3, tReq 1 0, none, 0#64, [], 0, [1], false⟩
     ({ tS with xheld := [h] } : State).xheld.find? (fun v => v.id == h.id) = some h ∧ h.miss ≠ []) := by
  refine ⟨fun k hk => ?_, by decide⟩
  simp only [List.mem_cons, List.not_mem_nil, or_false] at hk
  rcases hk with rfl | rfl | rfl | rfl <;>
    exact ⟨rfl, (fun f hf => by cases hf), rfl, rfl, rfl, fun q _ => List.not_mem_nil⟩

/-- A write of the fibre to peer 1 that has not been sent. -/
def tPn (room : Option Nat) : PeerReq := { tPr (.write [1#8]) with busy := false, sent := false, port := none, room }
def tSn (room : Option Nat) : State := { tSo (.peer (tPn room)) with regs := tPeer.regs }

theorem meets_podSends :
    ((tSn (some 1)).op? (tO (.peer (tPn (some 1)))).id = some (tO (.peer (tPn (some 1)))) ∧
      (tSn (some 1)).peerHeld (tO (.peer (tPn (some 1)))) (tPn (some 1)) = false ∧ (tSn (some 1)).peerValid = true ∧
      (tPn (some 1)).peer ≠ (tSn (some 1)).ownPeer ∧ (tSn (some 1)).portFor (tPn (some 1)).peer = some 1) ∧
    (let o := tO (.peer (tPn none))
     (tSn none).unitWaiters 0 .ualink = [] ∧ o ∈ (tSn none).ops ∧ o.core = 0 ∧ (tSn none).takesRoom (tPn none) = true ∧
     (tSn none).roomFor o.id (tPn none) = some 1) :=
  ⟨⟨rfl, by decide, by decide, by decide, by decide⟩, by decide, List.mem_singleton.2 rfl, rfl, by decide, by decide⟩

/-- The boundary of step 4 in a phase, in a package with STEP_WDOG 1. -/
def tBound (ph : Nat) : State :=
  { tS with boundary := some { n := 4, phase := ph, since := 0 }, cycle := 10, regs := { tS.regs with peerId := 2#64 ^ 63, stepWdog := 1#64 } }
def tXc : Xfer := { tX (.ctile .allred) true with peers := [0, 5] }
def tSx : State := { tBound 2 with ops := [tO (.xfer tXc)], groups := [(0, tGb .full)] }
/-- What participants 0 and 5 bring; the second its own reduction. -/
def tParts (rop : Nat) : List CollPart :=
  let p : CollPart := ⟨.allred, tXc.shape.rop, tXc.shape.fmt, tXc.shape.mx, tXc.shape.box, tXc.shape.rmask, tSx.collTable, 0,
    List.replicate 128 0#8⟩
  [p, { p with rop }]

theorem meets_SuperstepEvents :
    (∀ ph ∈ [2, 3, 4, 5], (tBound ph).boundary = some { n := 4, phase := ph, since := 0 }) ∧
    (tBound 2).sputPending 4 = false ∧ (tBound 5).others.all (fun q => (tBound 5).appliedFrom.contains (4, q)) = true ∧
    (let z := tGw (.wait (.step 4 11))
     ({ tBound 5 with groups := [(0, z)] } : State).group? 0 = some z ∧ z.fibre? 0 = some { tF with stat := .wait (.step 4 11) }) ∧
    (∀ q ∈ (tBound 3).others, (tBound 3).readyFrom.contains (4, q) = true) ∧
    (let s := { tBound 3 with regs := { (tBound 3).regs with stepDom := [(0, 6#64)] }, readyFrom := [(4, 1)] }
     2 ∈ s.others ∧ s.readyFrom.contains (4, 2) = false ∧ ∀ q ∈ s.others, q < 2 → s.readyFrom.contains (4, q) = true) ∧
    (tBound 3).regs.stepWdog ≠ 0#64 ∧ 0 + (tBound 3).regs.stepWdog.toNat * (0 + 1) ≤ (tBound 3).cycle ∧
    (tBound 3).peerValid = true ∧ (tBound 3).doneBelow ≤ 4 ∧
    tSx.xferDue 7 = some (tO (.xfer tXc), tXc) ∧ tXc.kind = .ctile .allred ∧ tXc.effective = true ∧ tXc.out = none ∧
    tSx.peerValid = true ∧ 3#8 ≠ 0#8 ∧
    ({ tSx with regs := tS.regs }.xferDue 7 = some (tO (.xfer tXc), tXc) ∧ { tSx with regs := tS.regs }.peerValid = false) ∧
    (∀ r ∈ [tXc.shape.rop, tXc.shape.rop + 1],
      (tParts r).length = tXc.peers.length ∧ ∀ v ∈ otherParts tXc (tParts r), v.nth = tXc.nth) ∧
    (∃ v ∈ otherParts tXc (tParts (tXc.shape.rop + 1)), tSx.collAgrees tXc .allred v = false) ∧
    (∀ v ∈ otherParts tXc (tParts tXc.shape.rop), tSx.collAgrees tXc .allred v = true) ∧
    tSx.group? 0 = some (tGb .full) ∧ errIn (tGb .full).scratchErr ((tGb .full).buf tXc.buf.toNat).lo (collOwn tXc .allred) = false ∧
    (let g := { tGb .full with scratchErr := [65409] }
     ({ tSx with groups := [(0, g)] } : State).group? 0 = some g ∧ errIn g.scratchErr (g.buf tXc.buf.toNat).lo (collOwn tXc .allred) = true) ∧
    tSx.op? 7 = some (tO (.xfer tXc)) ∧ tSx.lowestMissing tXc [] = some 5 ∧
    tSx.regs.stepWdog ≠ 0#64 ∧ tXc.wdog + tSx.regs.stepWdog.toNat ≤ tSx.cycle := by
  refine ⟨fun ph _ => rfl, by decide, by decide, ⟨rfl, rfl⟩, by decide, by decide +kernel, by decide, by decide, by decide, by decide, by decide, rfl, rfl, rfl,
    by decide, by decide, ⟨by decide, by decide⟩, by decide, by decide, by decide, rfl, by decide, ⟨rfl, by decide⟩,
    rfl, by decide, by decide, by decide⟩

theorem meets_SyncWords : (let m : Mem := ⟨.v 4, .imm 0#14⟩
    let s := tSf tFa
    let g := tGf tFa
    Issues tS tG tF tH {} ∧ tS.undrained tS.cur tF = false ∧ tS.podPending tS.cur tF = false ∧
    ¬ (Scope.group = .cluster ∨ Scope.group = .package ∨ Scope.group = .pod) ∧ tP.tier = .near ∧
    Issues s g tFa tH (operandsOf (Mem.chk m 2 ++ Reg.chk (.v 8) 1)) ∧
    Issues s g tFa tH { counts := true, chks := Mem.chk m 2 } ∧
    Issues s g tFa tH (operandsOf (Reg.chk (.v 4) 2 ++ Reg.chk (.v 6) 2 ++ Reg.chk (.v 8) 1)) ∧
    Issues s g tFa tH (operandsOf (Reg.chk (.v 6) 2 ++ Reg.chk (.v 8) 1)) ∧
    Found s g (tFa.va m) 8 true false tP (seen s g (tFa.va m)) ∧ Found s g (tFa.va m) 8 true true tP (seen s g (tFa.va m)) ∧
    Found s g (tFa.rdPair (.v 4)) 8 true true tP (seen s g (tFa.rdPair (.v 4))) ∧
    seqReached ((seen s g (tFa.va m)).sramWord ((seen s g (tFa.va m)).nearOff tP (tFa.va m)) 8 / 2 ^ 32)
      (tFa.r (tFa.reg (.v 8))).toNat = true ∧
    (seen s g (tFa.va m)).undrained (seen s g (tFa.va m)).cur tFa = false) :=
  ⟨issues_of (by decide), by decide, by decide, by decide, rfl, issues_of (by decide), issues_of (by decide),
   issues_of (by decide), issues_of (by decide), found_of (by decide), found_of (by decide), found_of (by decide), by decide,
   by decide⟩

/-- A HOST page, and a launch of one group of one fibre for context 0 on paddock 0. -/
def tHost (s : State) : State := s.sramWrite 0x20000 (leBytes 16 (fetchPage + 3 * 2 ^ 59))
def tPh : Page := ⟨.host, 0, true, true, true, false, 0, 0#13, 0, 496, 0⟩
def tLa : Launch := { queue := some 0, ctx := 0, pad := 0, prio := 0, lr := {} }

theorem meets_LaunchWords :
    Issues tS tG tF tH {} ∧ tG.hint = none ∧
    (let g := { tG with hint := some 4 }
     Issues (tSg g) g tF tH {} ∧ g.hint ≠ none) ∧
    tS.waitedPred tG = none ∧
    (let l := { tLa with complete := true }
     let s := { tS with launches := [(0, { tLa with lr := { tLa.lr with pwait := true }, pred := some 1 }), (1, l)] }
     Issues s tG tF tH {} ∧ s.waitedPred tG = some l ∧ l.complete = true) ∧
    (let m : Mem := ⟨.v 4, .imm 0#14⟩
     let s := tSf tFa
     let h := tHost s
     let g := tGf tFa
     Issues s g tFa tH { counts := true, chks := Reg.chk (.v 4) 2 ++ Reg.chk (.v 6) 1 ++ Reg.chk (.v 8) 1 } ∧
     Found s g (tFa.rdPair (.v 4)) 32 true false tP (seen s g (tFa.rdPair (.v 4))) ∧ tP.tier = .near ∧
     (seen s g (tFa.rdPair (.v 4))).undrained (seen s g (tFa.rdPair (.v 4))).cur tFa = false ∧
     Issues s g tFa tH { counts := true, chks := Mem.chk m 2 ++ Reg.chk (.v 8) 2 } ∧
     (∀ add, Found s g (tFa.va m) 8 add true tP (seen s g (tFa.va m))) ∧
     (seen s g (tFa.va m)).undrained (seen s g (tFa.va m)).cur tFa = false ∧
     Issues h g tFa tH { counts := true, chks := Mem.chk m 2 ++ Reg.chk (.v 8) 2 } ∧
     Found h g (tFa.va m) 8 false true tPh (seen h g (tFa.va m)) ∧ tPh.tier = .host ∧
     (seen h g (tFa.va m)).undrained (seen h g (tFa.va m)).cur tFa = false) := by
  refine ⟨issues_of (by decide), rfl, ⟨issues_of (by decide), by decide⟩, rfl, ⟨issues_of (by decide), rfl, rfl⟩,
    issues_of (by decide), found_of (by decide), rfl, by decide, issues_of (by decide), fun add => ?_, by decide,
    issues_of (by decide), found_of (by decide), rfl, by decide⟩
  cases add <;> exact found_of (by decide)

/-- A fibre with a report and with flags that trap, one in a handler, and a group with a report. -/
def tRep : Report := ⟨.software, 9#64, []⟩
def tFs : Fibre := { tF with slot := some tRep }
def tFe : Fibre := { tF with flags := 0x20#7, tmask := 0x60#64 }
def tFt : Fibre := { tF with tmask := 0x80#64, pos := { tF.pos with idx := tF.pos.len } }

theorem meets_TrapWords :
    Issues tS tG tF tH (operandsOf (Src.chk (.imm 1) 1)) ∧
    (Issues tS tG tF tH {} ∧ tF.slot = none ∧ tG.gslot = none ∧ tF.flags &&& tF.en = 0#7) ∧
    (Issues (tSf tFs) (tGf tFs) tFs tH {} ∧ tFs.tm = false ∧ tFs.slot = some tRep) ∧
    (let g := { tG with gslot := some tRep }
     Issues (tSg g) g tF tH {} ∧ tF.tm = false ∧ tF.slot = none ∧ g.gslot = some tRep) ∧
    (Issues (tSf tFe) (tGf tFe) tFe tH {} ∧ tFe.tm = false ∧ tFe.slot = none ∧ (tGf tFe).gslot = none ∧
      tFe.flags &&& tFe.en ≠ 0#7) ∧
    Issues (tSf tFt) (tGf tFt) tFt tH { lastWord := true, inHandler := true } ∧
    Issues tS tG tF tH (operandsOf (Reg.chk (.v 2) 2 ++ Reg.chk (.v 8) 2)) ∧ badTmask (tF.rdPair (.v 2)) = false ∧
    Issues tS tG tF tH (operandsOf (Src.chk (.imm 1) 1 ++ Reg.chk (.v 8) 2)) ∧
    Issues tS tG tF tH (operandsOf (Src.chk (.imm 1) 1 ++ Reg.chk (.v 8) 1)) ∧
    Issues tS tG tF tH (operandsOf (Reg.chk (.v 8) 2)) ∧
    Issues (tSf tFt) (tGf tFt) tFt tH { inHandler := true, chks := Reg.chk (.v 2) 2 } ∧
    Issues (tSf tFt) (tGf tFt) tFt tH { inHandler := true, chks := Reg.chk (.v 2) 1 } ∧
    Issues tS tG tF tH (operandsOf (Reg.chk (.v 8) SysReg.cycle.regs)) :=
  ⟨issues_of (by decide), ⟨issues_of (by decide), rfl, rfl, by decide⟩, ⟨issues_of (by decide), by decide, rfl⟩,
   ⟨issues_of (by decide), by decide, rfl, rfl⟩, ⟨issues_of (by decide), by decide, rfl, rfl, by decide⟩, issues_of (by decide),
   issues_of (by decide), by decide, issues_of (by decide), issues_of (by decide), issues_of (by decide),
   issues_of (by decide), issues_of (by decide), issues_of (by decide)⟩

theorem meets_TrapEntry : tS.group? 0 = some tG ∧ tG.fibre? 0 = some tF ∧ tG.toDebugger .regRange = false ∧
    (let f := { tF with tmask := 0xC00#64 }
     (tSf f).group? 0 = some (tGf f) ∧ (tGf f).fibre? 0 = some f ∧ (tGf f).toDebugger .regRange = false ∧ f.tm = false ∧
     f.hbase ≠ 0#48) ∧ tF.hbase = 0#48 ∧ (tGf tFt).fibre? 0 = some tFt ∧ tFt.tm = true :=
  ⟨rfl, rfl, by decide, ⟨rfl, rfl, by decide, by decide, by decide⟩, by decide, rfl, by decide⟩

theorem meets_BeforeTheEffect : tS.group? tS.cur.g = some tG ∧ tG.fibre? tS.cur.f = some tF ∧
    ((tSf tFh).group? 0 = some (tGf tFh) ∧ (tGf tFh).fibre? 0 = some tFh ∧ tFh.pos.atHdr = true) ∧
    tF.pos.atHdr = false ∧ tF.guard (.p 0#4 false) = false ∧ tF.guard tH.guard = true ∧
    (let cs (x d : Reg) := Src.chk (.reg x) (Ty.regs .z64) ++ Src.chk (.imm 1) (Ty.regs .z64) ++ Reg.chk d (Ty.regs .z64)
     (cs (.v 2) (.v 64)).findSome? (Chk.range (tG.allocation 0) tF) = some 64#64 ∧
     (cs (.v 2) (.v 8)).findSome? (Chk.range (tG.allocation 0) tF) = none ∧
     (cs (.v 3) (.v 8)).findSome? (Chk.range (tG.allocation 0) tF) = none ∧
     (cs (.v 3) (.v 8)).findSome? (Chk.align tF) = some 3#64) ∧
    tF.tm = false ∧ tF.pos.idx = tF.pos.len := by decide

theorem meets_RegisterFrame : Issues tS tG tF tH (needsAB (.v 8) (.reg (.v 2)) (.reg (.v 8)) .f32) := issues_of (by decide)
/-! Launches: what no free choice of dies and cores changes. -/

/-- One need that every core of a list covers is met by one of them. -/
theorem assign_one {s : State} {cs : List Nat} {permit : Nat → Nat → Bool} {need : List Nat} (hc : cs ≠ [])
    (h : ∀ c ∈ cs, (fitsIn need (s.used c) && permit c 0) = true) : ∃ c, s.assign cs permit [need] [] = some [c] := by
  have hf : (cs.filter fun c => fitsIn need (((([] : List (Nat × List Nat)).filter fun t => t.1 == c).map (·.2)).foldl addNeeds (s.used c)) &&
      permit c (([] : List (Nat × List Nat)).filter fun t => t.1 == c).length) = cs := List.filter_eq_self.2 h
  have hn : s.choose (40 + 0) cs.length < cs.length := by
    have := List.length_pos_iff.2 hc
    unfold State.choose
    split
    · exact this
    · exact Nat.mod_lt _ this
  refine ⟨cs[s.choose (40 + 0) cs.length], ?_⟩
  rw [State.assign]
  simp only [hf, List.length_nil, List.getElem?_eq_getElem hn]
  rfl

/-- A group that fits on every core of a paddock finds one. -/
theorem findCores_one {s : State} {l : Nat} {x : Launch} {need : List Nat} {c0 : Nat} (h0 : c0 ∈ s.padCores x.pad)
    (h : ∀ c ∈ s.padCores x.pad, (fitsIn need (s.used c) && s.admits l x c 0) = true) :
    ∃ c, s.findCores l x [need] = some [c] := by
  have key (d : Nat) : (∃ c, s.assign ((s.padCores x.pad).filter fun c => dieOf c == d) (s.admits l x) [need] [] = some [c]) ∨
      (s.padCores x.pad).filter (fun c => dieOf c == d) = [] := by
    by_cases hc : (s.padCores x.pad).filter (fun c => dieOf c == d) = []
    · exact .inr hc
    · exact .inl (assign_one hc fun c hm => h c (List.mem_filter.1 hm).1)
  have hs : (s.findCores l x [need]).isSome = true := by
    simp only [State.findCores, List.findSome?_isSome_iff]
    have hk : s.choose 48 3 < 3 := by
      unfold State.choose
      exact Nat.mod_lt _ (by decide)
    have hd : dieOf c0 < 3 := Nat.mod_lt _ (by decide)
    refine ⟨dieOf c0, List.mem_map.2 ⟨(dieOf c0 + 3 - s.choose 48 3) % 3, List.mem_range.2 (Nat.mod_lt _ (by decide)), by omega⟩, ?_⟩
    rcases key (dieOf c0) with ⟨c, hc⟩ | he
    · rw [hc]; rfl
    · have hm : c0 ∈ (s.padCores x.pad).filter (fun c => dieOf c == dieOf c0) := List.mem_filter.2 ⟨h0, beq_self_eq_true _⟩
      rw [he] at hm; cases hm
  obtain ⟨cs, hcs⟩ := Option.isSome_iff_exists.1 hs
  have h2 := hcs
  simp only [State.findCores] at h2
  obtain ⟨d, -, hd⟩ := List.exists_of_findSome?_eq_some h2
  rcases key d with ⟨c, hc⟩ | he
  · rw [hc] at hd
    exact ⟨c, by rw [hcs, ← Option.some.inj hd]⟩
  · rw [he, State.assign] at hd
    simp at hd

/-- A paddock with a core has a die on which a launch of one group a core fits. -/
theorem clusterFits_one {s : State} {p c0 : Nat} {r : LaunchRec} (h0 : c0 ∈ s.padCores p) (h : r.cl ≤ r.perCore) :
    s.clusterFits p r = true := by
  have hd : dieOf c0 < 3 := Nat.mod_lt _ (by decide)
  simp only [State.clusterFits, List.any_eq_true, decide_eq_true_eq]
  refine ⟨dieOf c0, List.mem_range.2 hd, ?_⟩
  have : 0 < ((s.padCores p).filter fun c => dieOf c == dieOf c0).length :=
    List.length_pos_of_mem (List.mem_filter.2 ⟨h0, beq_self_eq_true _⟩)
  calc r.cl ≤ 1 * r.perCore := by omega
    _ ≤ _ := Nat.mul_le_mul_right _ this

/-- What judging a record asks beside a die it fits on. -/
def judgeB (s : State) (ctx : Nat) (rr : ReadRec) : Bool :=
  let r := rr.record
  let ranks := (r.nf + 31) / 32 + r.t
  !(!recordReserved rr.bytes || decide (rr.grid.getD 0 ≥ 2 ^ 48) || !s.csaOk ctx r.csa || r.entry.toNat % 12 != 0) &&
    !decide (ranks > 32) && !decide (r.scr > 1048576 ∨ r.nb > 64 ∨ r.na > 16 ∨ r.nh > 8 ∨ r.wa > 32 ∨ rr.decls.length > 64) &&
    !decide (ranks * 32 * r.regs > 131072) && decide (r.total % r.cl = 0) && decide (r.cl ≤ r.perCore) &&
    !(declareAll { launch := 0, ctx, lin := 0, lr := r, loc := .ended } rr.decls).isNone

theorem judge_of {s : State} {ctx p c0 : Nat} {va : Dword} {w : Option (Option Nat)} {rr : ReadRec} (h0 : c0 ∈ s.padCores p)
    (hr : s.readLaunch ctx va w = some rr) (h : judgeB s ctx rr = true) : s.judgeRecord ctx p va w = .inr rr.record := by
  simp only [judgeB, Bool.and_eq_true, Bool.not_eq_true', decide_eq_false_iff_not, decide_eq_true_eq] at h
  obtain ⟨⟨⟨⟨⟨⟨h1, h2⟩, h3⟩, h4⟩, h5⟩, h6⟩, h7⟩ := h
  have hf := clusterFits_one h0 h6
  simp only [State.judgeRecord, hr, h1, hf]
  rw [if_neg (by decide), if_neg h2, if_neg h3, if_neg h4, if_neg (not_not.2 h5), if_neg (by decide), h7, if_neg (by decide)]

/-- Paddock 0 with cores 0 to 3; an inactive context 1 beside context 0; NSLOT 4 at VA 0. -/
def tPad : State :=
  let s := { tS with regs := { tS.regs with corePad := (List.range 4).map fun c => (c, 0x80#64) }, groups := [] }
  (tMem s 0 (qs [4])).sramWrite 128 (qs [2 ^ 63, 4 * 2 ^ 60])
/-- A group that stops, and slot 0 at 2 MiB on FAR pages. -/
def tGq : Group := { tG with stopping := true }
def tSlot : State :=
  (List.range 32).foldl (fun t k => t.sramWrite (0x20000 + 128 * ptHash 10 0 0#16 (32 + k))
    (leBytes 16 (2 ^ 63 + 2 ^ 59 + 2 ^ 58 + 2 ^ 57 + k + (32 + k) * 2 ^ 64)))
    { tPad with groups := [(0, tGq)], keys := [(0, some (0#256, 0#256))], provs := [(0, some ⟨0#16, 1#24, 1, none⟩)] }
def tLs (ls : Tab Launch) : State := { tPad with launches := ls, pads := [(0, { serving := some 0 })], cycle := 4000000 }
def tLst : Launch := { tLa with started := true }

/-- A queue of context 0 with packets from VA 0 on and its tail after `n` of them, in the package of paddock 0; a launch
record at VA 0x1000 and the grid word of one group at VA 0x1040. -/
def tQv (n : BitVec 32) : Queue := { ctl := dw (2 ^ 63 + 4 * 2 ^ 8), tail := n }
def tQr : List Nat := [0x1800, 2 ^ 48 + 2 ^ 32 + 2 ^ 16, 0, 0, 0, 0, 0, 0, 1 + 2 ^ 16 + 2 ^ 32]
def tQ (v : Queue) (ops : List Nat) : State :=
  let s := { tPad with queues := [(0, v)], curQ := 0 }
  tMem (tMem s 0x1000 (qs tQr)) 0 (ops.flatMap fun n => leBytes 32 n)
def tQ1 : State := tQ (tQv 1) []

/-- The value of the grid word. -/
def tGrid : Nat := 1 + 2 ^ 16 + 2 ^ 32

theorem tRead (w : Option (Option Nat)) (h : w = none ∨ w = some (some tGrid)) : ∃ rr, tQ1.readLaunch 0 0x1000#64 w = some rr ∧
    judgeB tQ1 0 rr = true := by
  have key (x : Option ReadRec) (h : (match x with
      | some rr => judgeB tQ1 0 rr
      | none => false) = true) : ∃ rr, x = some rr ∧ judgeB tQ1 0 rr = true := by
    cases x with
    | some rr => exact ⟨rr, rfl, h⟩
    | none => cases h
  rcases h with rfl | rfl <;> exact key _ (by decide +kernel)

/-- The launch of that record, waiting. -/
def tLr : Launch := { tLa with recVa := 0x1000#64 }
def tQl : State := { tQ1 with launches := [(3, tLr)] }

theorem meets_LaunchStart : ∃ r, tQl.judgeRecord tLr.ctx tLr.pad tLr.recVa tLr.grid = .inr r ∧ tLr.next < r.total := by
  have key (x : Option ReadRec) (h : (match x with
      | some rr => judgeB tQl 0 rr && decide (0 < rr.record.total)
      | none => false) = true) : ∃ rr, x = some rr ∧ judgeB tQl 0 rr = true ∧ 0 < rr.record.total := by
    cases x with
    | some rr =>
      rw [Bool.and_eq_true, decide_eq_true_eq] at h
      exact ⟨rr, rfl, h⟩
    | none => cases h
  obtain ⟨rr, h1, h2, h3⟩ := key (tQl.readLaunch 0 0x1000#64 none) (by decide +kernel)
  have h0 : 0 ∈ tQl.padCores 0 := by decide +kernel
  exact ⟨rr.record, judge_of h0 h1 h2, h3⟩

theorem meets_LaunchEvents :
    (∀ x ∈ [(tQl, tLr), (tLs [(3, tLa)], tLa)], Tab.find x.1.launches 3 = some x.2 ∧ x.1.padAlive x.2.pad = true ∧
      x.1.ctxOk x.2.ctx = true ∧ x.1.mayStart x.2 = true ∧ (x.2.queue.map x.1.runningOf).getD 0 < 16) ∧
    (tLa.complete = false ∧ tLa.started = false ∧ tLa.parent = none ∧ tLa.queue = some 0) ∧
    (tLs [(3, tLa)]).judgeRecord tLa.ctx tLa.pad tLa.recVa tLa.grid = .inl 2 ∧
    (let l := { tLst with next := 1, ended := 1 }
     Tab.find (tLs [(3, l)]).launches 3 = some l ∧ (tLs [(3, l)]).launchDone 3 l = true) ∧
    (let s := tLs [(3, tLst)]
     (s.pad 0).preempt = none ∧ ((s.settleServing 0).pad 0).serving = some 0 ∧ (s.settleServing 0).due 0 0 = [⟨3, []⟩] ∧
     Tab.find (s.settleServing 0).launches 3 = some tLst ∧ tLst.lr.cl = 1 ∧ (s.settleServing 0).freeSlots 0 1 = [0] ∧
     ∃ c, (s.settleServing 0).findCores 3 tLst [tLst.lr.needs tLst.lr.wa] = some [c]) ∧
    (tSlot.clusterOf 0 = [0] ∧ tSlot.saveDue 0 = true ∧ tSlot.group? 0 = some tGq ∧ tGq.core? = some 0 ∧
     (∃ ps, tSlot.slotPages tGq.ctx tGq.slot = some ps) ∧
     ∀ q ∈ tSlot.pads, (Tab.get ({} : Paddock) tSlot.pads q.1).preempt = none) ∧
    (let s := tLs [(3, tLst), (4, { tLst with ctx := 1 })]
     (s.pad 0).serving = some 0 ∧ s.quantumOut 0 = true ∧ s.runnable 0 0 = true) ∧
    (0x8000000000000000#64).getLsbD 63 = true ∧ (tS.pad 0).preempt = none ∧
      tS.residentOn 0 (bits (0x8000000000000000#64).toNat 9 0) ≠ [] := by
  refine ⟨by decide +kernel, ⟨rfl, rfl, rfl, rfl⟩, by decide +kernel, ⟨rfl, by decide +kernel⟩,
    ⟨rfl, by decide +kernel, ?_, ?_, rfl, by decide +kernel, ?_⟩, ⟨by decide +kernel, by decide +kernel, by decide +kernel, rfl, ?_, by decide +kernel⟩,
    ⟨rfl, by decide +kernel, by decide +kernel⟩, by decide +kernel, rfl, by decide +kernel⟩
  · rfl
  · decide +kernel
  · exact findCores_one (c0 := 0) (by decide +kernel) (by decide +kernel)
  · exact Option.isSome_iff_exists.1 (by decide +kernel)

/-- A queue whose ENGCMD asked the chain of handle 0 to forward. -/
def tQe : Queue := { tQv 1 with engcmd := some 0 }

theorem meets_Packets :
    tQ1.served 0 = true ∧ tQ1.padAlive (tQ1.ctx 0).pad = true ∧ tQ1.runningOf 0 < 16 ∧
    ((tQ1.nearRead 0 0x1040#64 8 8).map leNat = some tGrid ∧
     ∀ x : Launch, x.lr.pwait = false → tQ1.mayStart x = true) ∧
    (let x : Launch := { tLa with lr := { pwait := true }, pred := some 3 }
     let s := { tQ1 with launches := [(3, tLa)] }
     s.mayStart x = false ∧ tQ1.asksWait 0 0x1000#64 = false) ∧
    (∃ r, tQ1.judgeRecord 0 (tQ1.ctx 0).pad 0x1000#64 none = .inr r) ∧
    (∃ r, tQ1.judgeRecord 0 (tQ1.ctx 0).pad 0x1000#64 (some (some tGrid)) = .inr r) ∧
    tQ1.judgeRecord 0 (tQ1.ctx 0).pad 0#64 none = .inl 2 ∧
    (∀ write, tQ1.wordPage 0 0x2000#64 write = some tP) ∧ tP.tier = .near ∧
    (0#64).toNat ≤ leNat (tQ1.devRead 0 tP 0x2000 8) ∧
    seqReached (leNat (tQ1.devRead 0 tP 0x2000 8) / 2 ^ 32) ((0#64).toNat % 2 ^ 32) = true ∧ tQ1.queueDrained 0 = true ∧
    (tCh tQ1).served 0 = true ∧ (tCh tQ1).chainEntry 0 0 = some tEnt ∧ (tQv 1).engcmd = none ∧ 1 ≤ (64#64).toNat ∧ (64#64).toNat ≤ 64 ∧
    (let s := tCh (tQ tQe [])
     s.served 0 = true ∧ s.chainEntry 0 0 = some tEnt ∧ (s.queue 0).engcmd = some 0 ∧ s.engcmdPending 0 0 0 = false) ∧
    (let s := { tQ1 with regs := { tQ1.regs with stepCtl := 2#64 ^ 63 } }
     s.served 0 = true ∧ s.stepOn = true ∧ (0#64).toNat = s.writeStep ∧ (s.ctx 0).asid = s.regs.stepCtl.extractLsb' 32 16 ∧
     s.boundary = none ∧ (0#64).toNat ≤ s.doneBelow) := by
  have hp : tQ1.padAlive (tQ1.ctx 0).pad = true := by decide +kernel
  have h0 : 0 ∈ tQ1.padCores (tQ1.ctx 0).pad := by decide +kernel
  refine ⟨by decide, hp, by decide, ⟨by decide, fun x hx => by simp only [State.mayStart, hx, Bool.not_false, Bool.true_or]⟩,
    ⟨by decide, by decide⟩, ?_, ?_, by decide +kernel, fun write => by cases write <;> decide, rfl, by decide, by decide, by decide, by decide,
    by decide, rfl, by decide, by decide, ⟨by decide, by decide, rfl, by decide⟩, by decide, by decide, by decide, by decide,
    rfl, by decide⟩
  · obtain ⟨rr, h1, h2⟩ := tRead none (.inl rfl)
    exact ⟨_, judge_of h0 h1 h2⟩
  · obtain ⟨rr, h1, h2⟩ := tRead (some (some tGrid)) (.inr rfl)
    exact ⟨_, judge_of h0 h1 h2⟩

theorem meets_BracketsAndQueueRegisters :
    (let loop := tQ (tQv 2) [5, 6]
     let bare := tQ (tQv 2) [7, 9]
     let both := tQ (tQv 3) [7, 8, 9]
     loop.served 0 = true ∧ bare.served 0 = true ∧ both.served 0 = true ∧ (tQv 2).frames.length < 8 ∧
     loop.matchOf (tQv 2) (true, false) 0 = .found none 1#32 ∧
     (tQ (tQv 1) [5]).matchOf (tQv 1) (true, false) 0 = .wait ∧ (tQ (tQv 3) [5, 9, 6]).matchOf (tQv 3) (true, false) 0 = .bad ∧
     bare.matchOf (tQv 2) (false, false) 0 = .found none 1#32 ∧ both.matchOf (tQv 3) (false, false) 0 = .found (some 1#32) 2#32 ∧
     (∀ v ∈ [(0#64, true), (1#64, false)], bare.wordCond 0 .eq 0x2000#64 v.1 0xFFFFFFFFFFFFFFFF#64 = some v.2 ∧
       both.wordCond 0 .eq 0x2000#64 v.1 0xFFFFFFFFFFFFFFFF#64 = some v.2)) ∧
    (∀ n ∈ [1#32, 2#32], let v := { tQv 2 with at_ := 1#32, frames := [.loop 0#32 n] }
     (tQ v [5, 6]).served 0 = true ∧ ((tQ v [5, 6]).queue 0).frames = .loop 0#32 n :: []) ∧
    (let v := { tQv 3 with at_ := 1#32, frames := [.ifm 0#32] }
     let s := tQ v [7, 8, 9]
     s.served 0 = true ∧ (s.queue 0).frames = .ifm 0#32 :: [] ∧ s.matchOf v (false, true) 0 = .found none 2#32) ∧
    ((tQ1.queue 0).dev = false ∧ (tQ1.queue 0).fill ≤ (2#32 - (tQ1.queue 0).head).toNat ∧
      (2#32 - (tQ1.queue 0).head).toNat ≤ 2 ^ (tQ1.queue 0).log) ∧
    ({ tQv 1 with ctl := 0x4000000000000000#64 } : Queue).dev = true ∧
    ({ tQv 1 with ctl := 0#64 } : Queue).still = true ∧ (tQv 1).still = false ∧
    ({ tQv 1 with state := .halted } : Queue).state = .halted := by
  refine ⟨⟨by decide, by decide, by decide, by decide, rfl, rfl, rfl, rfl, rfl, fun v hv => ?_⟩, fun n hn => ?_, ⟨by decide, rfl, rfl⟩,
    ⟨by decide, by decide, by decide⟩, by decide, by decide, by decide, rfl⟩
  · simp only [List.mem_cons, List.not_mem_nil, or_false] at hv
    rcases hv with rfl | rfl <;> exact ⟨by decide, by decide⟩
  · simp only [List.mem_cons, List.not_mem_nil, or_false] at hn
    rcases hn with rfl | rfl <;> exact ⟨by decide, rfl⟩

theorem meets_HostCommands :
    ((0#2).toNat < 2 ∧ 2 ≤ (2#2).toNat) ∧
    (let v : Inval := { full := true, asid := none }
     let w := { v with dropped := true, waits := [9] }
     ({ tS with invals := [v] } : State).invals = v :: [] ∧ v.dropped = false ∧
     ({ tSo (.rel 0 0#64) with invals := [w] } : State).invals = w :: [] ∧
     ({ tSo (.rel 0 0#64) with invals := [w] } : State).invalDone w = true) ∧
    (let s := { tS with asids := [(1, ⟨255#8, false, false⟩), (2, ⟨255#8, false, true⟩), (3, ⟨5#8, true, false⟩)] }
     (s.asid 0).bound = false ∧ (s.asid 0).gen ≠ 255#8 ∧ (s.asid 2).bound = false ∧ (s.asid 2).flushed = true ∧
     (s.asid 1).gen = 255#8 ∧ (s.asid 1).flushed = false ∧ (s.asid 3).bound = true ∧ (s.asid 3).gen ≠ 255#8 ∧
     1024 ≤ s.ctxOf 3 ∧ (s.asid 1).bound = false) ∧
    tS.isSafe = false ∧ (tS.core 7).halted = false ∧ 7 < 320 ∧ tS.mgmtDown = false ∧ (tS.core 7).missed = 0 ∧
    (let s := tS.setCore 7 { missed := 1 }
     (s.core 7).halted = false ∧ 1 ≤ (s.core 7).missed) := by
  refine ⟨by decide, ⟨rfl, rfl, rfl, by decide⟩, ⟨rfl, by decide, rfl, rfl, rfl, rfl, rfl, by decide, by decide +kernel, rfl⟩,
    by decide, rfl, by decide, rfl, rfl, rfl, by decide⟩

theorem meets_HostRegisters :
    (let s := State.reset
     s.peerValid = false ∧ (∀ q ∈ s.queues, q.2.en = false) ∧ s.stepOn = false ∧ s.boundary = none ∧ s.placed.2.1 = false ∧
     ∀ v ∈ [0x100040000#64, 0x10020000000#64],
       let lc := (v &&& 0x3FF00000#64) ||| dw (2 ^ 32 * min 256 (max 8 (bits v.toNat 41 32)))
       rangesOk (placedRanges (true, s.placed.2.1, s.placed.2.2) (v &&& 0x00003FFF3FFF0000#64) s.regs.sramIntake s.regs.sramLcache
         (bits s.regs.stepCtl.toNat 7 0)) = true ∧
       rangesOk (placedRanges (s.placed.1, true, s.placed.2.2) s.regs.sramPool (v &&& 0x3FF00000#64) s.regs.sramLcache
         (bits s.regs.stepCtl.toNat 7 0)) = true ∧
       rangesOk (placedRanges (s.placed.1, s.placed.2.1, true) s.regs.sramPool s.regs.sramIntake lc
         (bits s.regs.stepCtl.toNat 7 0)) = true) ∧
    (let s := { State.reset with
       placed := (true, true, false), regs := { State.reset.regs with sramPool := 0x101100000#64, sramIntake := 0x01000000#64 } }
     s.boundary = none ∧ s.placed.2.1 = true ∧
     rangesOk (placedRanges s.placed s.regs.sramPool s.regs.sramIntake s.regs.sramLcache 1) = false ∧
     rangesOk (placedRanges (true, true, false) 0x101200000#64 s.regs.sramIntake s.regs.sramLcache 1) = true) ∧
    (let s := { State.reset with regs := { State.reset.regs with ctxRoot := 1#64, peerId := 2#64 ^ 63 } }
     s.peerValid = true ∧ ∀ c, c < 1024 → s.ctxV c = false) :=
  ⟨⟨by decide, by decide, by decide, rfl, rfl, fun v hv => by
    simp only [List.mem_cons, List.not_mem_nil, or_false] at hv
    rcases hv with rfl | rfl <;> exact ⟨by decide, by decide, by decide⟩⟩, ⟨rfl, rfl, by decide, by decide⟩, by decide, fun _ _ => rfl⟩

/-- The small machine with fibre 0 of group 0 selected for the debugger, and a register of it. -/
def tDbg (f : Fibre) (code : Nat) : State :=
  { tSf f with regs := { (tSf f).regs with dbgSel := dw (4096 * code) } }
def tFp : Fibre := { tF with stopped := true }

theorem meets_Debugging :
    tS.dbgWait = none ∧ State.reset.dbgGroup = none ∧ (tDbg tF 5).dbgGroup = some (0, tGf tF) ∧
    (∀ v ∈ [none, some 9#64], let w : DbgWait := { fib := ⟨0, 0⟩, reg := 5, value := v }
      let s := { tDbg tFp 5 with dbgWait := some w }
      s.dbgWait = some w ∧ s.fibre? w.fib = some tFp ∧ w.pred = false ∧ s.dbgBusy w.fib tFp false w.reg = false ∧ w.value = v) ∧
    ({ tG with faulted := true } : Group).faulted = true ∧ tG.faulted = false ∧ tG.stuck = false ∧
    bits (tDbg tF 5).regs.dbgSel.toNat 9 0 = 0 ∧ (tGf tF).fibre? 0 = some tF ∧ tF.stopped = false ∧
    (tDbg tFp 5).dbgGroup = some (0, tGf tFp) ∧ (tGf tFp).fibre? 0 = some tFp ∧ tFp.stopped = true ∧ tFp.moved = false ∧
    (let f : Fibre := { tFp with stop := some { q := tFp.pos, pc := 24#64 } }
     f.moved = true ∧ f.stopped = true ∧ (tDbg f 5).dbgGroup = some (0, tGf f)) ∧
    (tDbg tFp 5).dbgReg? (tGf tFp) 0 = some (.lane 5) ∧ (tDbg tFp 5).dbgBusy ⟨0, 0⟩ tFp false 5 = false ∧
    ({ tDbg tFp 5 with ops := [{ tO (.ld 0x40000 .z32 5) with dst := [5] }] } : State).dbgBusy ⟨0, 0⟩ tFp false 5 = true ∧
    (tDbg tFp 61452).dbgGroup = some (0, tGf tFp) ∧ (tDbg tFp 61452).dbgReg? (tGf tFp) 0 = some (.sys .tmask) := by
  refine ⟨rfl, rfl, rfl, fun v hv => ?_, rfl, rfl, rfl, by decide, rfl, rfl, rfl, rfl, rfl, rfl, ⟨by decide, rfl, rfl⟩, rfl,
    by decide, by decide, rfl, rfl⟩
  simp only [List.mem_cons, List.not_mem_nil, or_false] at hv
  rcases hv with rfl | rfl <;> exact ⟨rfl, rfl, rfl, by decide, rfl⟩

theorem meets_OpticalEvents :
    (0 < 24 ∧ 67 < 68 ∧ 0 < 64 ∧ (tS.optDir 0 true).live = true ∧ (tS.optDir 0 true).down = false ∧
      (tS.optDir 0 true).inUse 63 = true ∧ (tS.optDir 0 true).spares ≠ 0) ∧
    (let s := tS.setOptDir 0 true { remap := [(0, 64), (1, 65), (2, 66), (3, 67)] }
     (s.optDir 0 true).live = true ∧ (s.optDir 0 true).spares = 0 ∧ (s.optDir 0 true).inUse 67 = true) ∧
    (5 < 6 ∧ tS.darkSources.contains 5 = false ∧ tS.offSources.contains 5 = false) ∧
    (tS.bothDark 0 = false ∧ (∀ i, (tS.optDir 0 i).live = true) ∧
      ({ tS with darkSources := List.range 6 } : State).bothDark 0 = true) ∧
    (∀ d ∈ [({ retraining := true, fails := 2 } : OptDir), { retraining := true, fails := 2, down := true },
        { retraining := true, fails := 1 }],
      (let s := tS.setOptDir 0 true d
       (s.optDir 0 true).retraining = true ∧ (s.optDir 0 true).fails = d.fails ∧ (s.optDir 0 true).down = d.down)) ∧
    (let s := (tS.setOptDir 0 true { down := true }).setOptDir 0 false { down := true }
     (0#5).toNat < 24 ∧ ∀ i, (s.optDir (0#5).toNat i).down = true) ∧
    (let s := { tS with darkSources := [2] }
     (2#3).toNat < 6 ∧ s.offSources.contains (2#3).toNat = false ∧ s.darkSources.contains (2#3).toNat = true) ∧
    ({ tS with offSources := [2] } : State).offSources.contains (2#3).toNat = true ∧ tS.isSafe = false := by decide

/-- Module 3 in a table at 0x100000 of the shared SRAM, and provisioned. -/
def tPt : State :=
  ({ tS with regs := { tS.regs with provBase := 0x100000#64 } } : State).sramWrite (0x100000 + 16 * 3)
    (leBytes 16 (4 * 2 ^ 57 + (1 + 7 * 2 ^ 24 + 9 * 2 ^ 32) * 2 ^ 64))
def tPs (d : Option Nat) : State := { tPt with provs := [(3, some ⟨0#16, 1#24, 4, d⟩)] }

theorem meets_PackageControl :
    tPt.provBusy = false ∧ tPt.provEntry 2 = none ∧
    State.provEntry { tPt with draining := none } 3 = some (⟨0#16, 1#24, 4, none⟩, 9#16, 7#8) ∧
    (∀ d ∈ [none, some 5], (tPs d).provBusy = false ∧ Tab.get none (tPs d).provs 3 = some ⟨0#16, 1#24, 4, d⟩) ∧
    Tab.wf none (tPs (some 5)).provs = true ∧ Tab.wf {} (tPs (some 5)).slots = true ∧
    tS.isSafe = false ∧ (tS.enterSafe 7 0).isSafe = true ∧ State.reset.busyCores = [] ∧ (tS.measurement 6).isSome = true ∧
    tS.regs.pwrCap.toNat < 4601 ∧
    (let s := { tS with clockMHz := 800 }
     s.clockMHz = 800 ∧ s.isSafe = false) ∧ 800 < State.reset.clockMHz := by
  refine ⟨by decide, by decide, by decide, fun d hd => ?_, rfl, rfl, by decide, by decide +kernel, by decide, rfl, by decide,
    by decide, by decide⟩
  simp only [List.mem_cons, List.not_mem_nil, or_false] at hd
  rcases hd with rfl | rfl <;> exact ⟨by decide, rfl⟩

/-- The events that may be due are never none, and one of them takes its turn. -/
theorem tEvent (s : State) : ∃ i, s.eventNext = some i := by
  have h : s.choose 90 s.enabled.length < s.enabled.length := by
    have hp : 0 < s.enabled.length := by simp [State.enabled]
    unfold State.choose
    split
    · exact hp
    · exact Nat.mod_lt _ hp
  exact ⟨_, List.getElem?_eq_getElem h⟩

/-- The next instruction of a turn, where the state after the choice does not matter. -/
theorem some_of {x : Option Instr × State} {i : Instr} (h : x.1 = some i) : ∃ s1, x = (some i, s1) := ⟨x.2, Prod.ext h rfl⟩

theorem meets_StepRunsDecoded :
    (let w := 0x3203C0000800020003700000#96
     let s := State.reset.withWord w
     let p : Pick := { sheaf := 0, core := 0, fib := ⟨0, 0⟩ }
     let t : State := { s with
       issue := s.issue.erase p, burst := (firstPick 0 s.cycle (s.issue.erase p)).map fun _ => 0
       cur := p.fib, sheaf := p.sheaf, looked := if s.burst.isSome then s.looked else [] }
     s.turn = .issue ∧ firstPick 0 s.cycle s.issue = some p ∧ s.burst = none ∧ (∀ q ∈ s.issue, q.core = 0) ∧
       ∃ g f, t.group? 0 = some g ∧ g.fibre? 0 = some f ∧ mayIssue g f = true ∧ t.ctxOk g.ctx = true ∧
       f.absent = none ∧ f.stepping ≠ .issued ∧ f.pos.pc.toNat % 12 = 0 ∧
       (∃ s1, (t.firstIssue 0 g).fetch g.coreOr0 g.ctx f.pos.pc = (.word w, s1)) ∧ ∃ i, decodeWord w = some i) ∧
    (let s := { State.reset.withWord 0#96 with regs := { (State.reset.withWord 0#96).regs with ctxRoot := 0x2000000#64 } }
     s.turn = .issue ∧ ∃ g f, s.group? 0 = some g ∧ g.fibre? 0 = some f ∧ mayIssue g f = true ∧ s.ctxOk g.ctx = false) ∧
    (let s := State.reset.withWord 0#96
     ∃ g f, s.group? 0 = some g ∧ g.fibre? 0 = some f ∧ mayIssue g f = true ∧ s.ctxOk g.ctx = true ∧
      (∃ s1, (s.firstIssue 0 g).fetch g.coreOr0 g.ctx f.pos.pc = (.word 0#96, s1)) ∧ decodeWord 0#96 = none) ∧
    (let s := State.reset.withPacket 0#256
     s.turn = .queue ∧ ∃ s1, s.queueNext = (some .packetNop, s1)) ∧
    (let s := State.reset.withEntry 0#384
     s.turn = .slot ∧ s.slots.map (·.1) = [7] ∧ (s.headEntry 7).isSome = true ∧ s.slotInstr 7 = some .engineNop) ∧
    (({ tS with turn := .unit } : State).turn = .unit ∧ ∃ i, ({ tS with turn := .unit } : State).eventNext = some i) ∧
    (({ tS with turn := .input, inbox := [.reset] } : State).turn = .input ∧
      ({ tS with turn := .input, inbox := [.reset] } : State).inbox = .reset :: []) := by
  refine ⟨⟨rfl, rfl, rfl, by decide, _, _, rfl, rfl, by decide, by decide, rfl, by decide, by decide, ⟨_, pair_of (by decide)⟩, _, rfl⟩,
    ⟨rfl, _, _, rfl, rfl, by decide, by decide⟩, ⟨_, _, rfl, rfl, by decide, by decide, ⟨_, pair_of (by decide)⟩, by decide⟩,
    ⟨rfl, some_of (by decide)⟩, ⟨rfl, by decide, by decide, by decide⟩, ⟨rfl, tEvent _⟩, rfl, rfl⟩

/-- R42, R96: at the end of a cycle a fibre whose next word is a header with a WAIT on a counter that is not 0 is no longer
ready; one whose counters are 0 is. -/
theorem test_ready_at_header : (∀ n ∈ [1#6, 0#6],
    let f : Fibre := { pos := { pc := 24#64 }, ctrs := [(0, n)], inc := 1 }
    (((tSf f).sramWrite 0x40018 (leBytes 12 0xF00011F20000000000000000)).settleReady.fibre? ⟨0, 0⟩).map (·.stat) =
      some (if n = 0#6 then .ready else .wait (.hold (.ctrs 1#12)))) := by decide +kernel

theorem meets_WordRoundTrip : (∀ i ∈ [Instr.iadd tH (.v 254) (.reg (.v 2)) (.imm 0x3FFF) .z64 true, .clause ⟨0xFFF#12, 15#4, 15#4, 7#3, true⟩,
    .mmax ⟨.p 11 true, 4#3, true, true⟩ 3 (.v 10) (.v 12) .e4m3 2 1],
    i.wf = true ∧ (encodeWord i).isSome = true) := by decide

theorem meets_PacketAndEntryRoundTrip :
    (∀ i ∈ [Instr.packetNop, .loop 1000#32], i.wf = true ∧ (encodePacket i).isSome = true) ∧
    (∀ i ∈ [Instr.engineNop, .copy (.mem 0x1000#56) (.mem 0x2000#56) 128#32], i.wf = true ∧ (encodeEntry i).isSome = true) := by
  decide

/-- A turn with nothing to do ends. -/
theorem step_none {s t : State} (h : s.turnNext = (none, t)) : step s = .next t.endTurn := by
  unfold step
  rw [h]

theorem meets_StepKeepsMemory : (let s := { tS with turn := .input }
    MemoryOk s ∧ ∃ t, step s = .next t) :=
  ⟨⟨rfl, rfl, rfl, fun p hp => by rw [List.mem_singleton.1 hp]; rfl⟩, _, step_none rfl⟩

/-! ### What each check of well-formedness refuses -/

/-- A register with an odd number, which names no pair and no quad. -/
def tO1 : Reg := .v 5
/-- A memory operand with an aligned base pair, and one with an odd base. -/
def tM : Mem := ⟨.v 4, .imm 0#14⟩
def tMo : Mem := ⟨.v 5, .imm 0#14⟩
def tN8 : Src := .imm 0x3FFF#14
/-- A sweep over f32. -/
def tWv : Sweep := ⟨0#6, 1#10, 2#10, 3#10, 8#12, 8#8, 8#8, 8#8, .f32⟩

/-- R23, R43: a guard names p0 to p11; HINT.SEL is 0 in a word that does not count. -/
theorem test_wf_header : (∀ i ∈ [Instr.nop ⟨.p 12 false, 0#3, false, false⟩, .nop ⟨.always, 0#3, false, true⟩,
    .vadd ⟨.p 15 true, 0#3, false, false⟩ tWv, .fence ⟨.always, 0#3, false, true⟩ .group .full], i.wf = false) ∧
    (Instr.vadd ⟨.p 11 true, 7#3, true, true⟩ tWv).wf = true := by decide

/-- R40: SETA and SETB name k0 to k11 or none. -/
theorem test_wf_clause : (Instr.clause ⟨0#12, 12#4, 0#4, 0#3, false⟩).wf = false ∧
    (Instr.clause ⟨0#12, 0#4, 14#4, 0#3, false⟩).wf = false ∧ (Instr.clause ⟨0#12, 11#4, 15#4, 0#3, false⟩).wf = true := by decide

/-- R35: a direct number of a pair is even and of a quad a multiple of 4. -/
theorem test_wf_alignment : (∀ i ∈ [Instr.brx tH tO1, .call tH tO1 0#40, .ret tH tO1, .fnew tH tO1 tO1 (.imm 0#14),
    .task tH (.v 2) (.v 4) tO1, .fork tH tO1 tO1, .mov tH (.v 6) (.reg (.v 4)) .b128, .mov tH (.v 4) (.reg tO1) .b64,
    .movi tH tO1 true 0#40, .iadd tH tO1 (.imm 0#14) (.imm 0#14) .s64 false, .brev tH tO1 (.v 4) .b64, .sread tH tO1 .cycle,
    .ld tH (.v 3) tMo .b32, .ld tH tO1 tM .b64, .atom tH (.v 2) tM .b64 .cas, .bstat tH tO1 0#6, .hdecl tH 0#3 tO1 8#14 .ln8 false false false 0#5,
    .fetch tH 0#6 tMo 0#4 false, .etailRst tH (.v 2) (.imm 1#14) tO1, .sstat tH tO1 (.imm 0#14), .acq tH tO1 tMo, .bind tH tO1 tO1 (.v 4),
    .qpost tH tO1 tO1 tO1, .signal tH tO1 tM true false, .tmask tH (.v 2) (.full tO1), .sysw tH .tpc tO1,
    .qstp tH (.v 6) tM .ln8 .rne false 0#3 false, .cvtx tH (.v 6) (.v 4) tO1 .ln8 .rne], i.wf = false) := by decide

/-- The types each family takes (R30, R138, R173, R180, R193, R267). -/
theorem test_wf_types : (∀ i ∈ [Instr.iadd tH tO1 (.imm 0#14) (.imm 0#14) .f32 false, .and tH tO1 (.imm 0#14) (.imm 0#14) .s32,
    .iabs tH tO1 (.imm 0#14) .z32 false, .aadd tH (.v 4) (.v 4) (.imm 0#14) .s64, .fadd tH tO1 (.imm 0#14) (.imm 0#14) .b32 .rne false,
    .rred tH tO1 tO1 .f32 .and 0#3, .ld tH tO1 tM .z8, .st tH tO1 tM .s8, .atom tH (.v 4) tM .s64 .add, .fatom tH (.v 4) tM .f32 .add,
    .red tH (.v 4) tM .b32 .exch, .ldc tH (.v 4) tM .b128, .bdecl tH 0#6 (.imm 0#14) (.imm 0#14) .sc 0#2,
    .vadd tH { tWv with ty := .s8 }, .vexp2 tH { tWv with ty := .f16, b := 0#10, bstep := 0#8 }, .wldx tH tM .f16,
    .wld tH tM .f16 .sp4, .mma tH 0#4 tO1 .f32 0#3, .qst tH 0#4 tM .f32 .rne false 0#3 false,
    .cvt tH tO1 (.imm 0#14) .ln8 .sc .rne false 0#2 false], i.wf = false) := by decide

/-- Options and rounding modes (R78, R84, R90 to R93, R180 to R182, R203, R219). -/
theorem test_wf_options : (∀ i ∈ [Instr.fadd tH tO1 (.imm 0#14) (.imm 0#14) .f32 .sr false, .icmp tH 0#4 (.imm 0#14) (.imm 0#14) .s32 .un,
    .cvt tH tO1 (.imm 0#14) .s32 .f32 .sr false 0#2 false, .cvt tH tO1 (.imm 0#14) .s32 .f32 .rz true 0#2 false,
    .cvt tH tO1 (.imm 0#14) .f32 .f16 .rne false 1#2 false, .cvtx tH (.v 4) (.v 8) tO1 .ln8 .ns,
    .vadd tH { tWv with opt := 4#6 }, .vabs tH tWv, .vsumr tH { tWv with b := 0#10, bstep := 0#8, dstep := 0#8, opt := 4#6 },
    .vsumr tH { tWv with b := 0#10, bstep := 0#8 }, .vselp tH { tWv with ty := .b32, opt := 12#6 },
    .mma tH 0#4 tO1 .ln8 4#3, .mmab tH 0#4 tO1 .ln8 3#2, .mmax tH 0#4 tO1 tO1 .ln8 2#2 2#3,
    .qst tH 0#4 tM .ln8 .rne false 1#3 false, .qst tH 0#4 tM .ln8 .rne true 0#3 false, .qst tH 0#4 tM .f16 .rne false 0#3 true,
    .rxchg tH tO1 tO1 (.imm 1#14) .b32 .rev 0#3, .rvote tH (.pred 0#4) 0#4 .ballot 0#3], i.wf = false) := by decide

/-- The ranges of immediates and fields. -/
theorem test_wf_ranges : (∀ i ∈ [Instr.jwaitt tH 0#4 0#3 0#16, .jwaitt tH 12#4 0#3 1#16, .movi tH tO1 false 0x100000000#40,
    .xset tH 0#2 0x8000#40, .xadd tH 0#2 0xFFFFFF7FFF#40, .plop tH 0#4 12#4 0#4 6#4, .bfx tH tO1 tO1 (.imm 0#14) .s32 0#8,
    .bfx tH tO1 tO1 (.imm 0#14) .s32 33#8, .claim tH tO1 0#14, .surr tH tO1 128#14, .winset tH tO1 (.imm 0#14), .winset tH tO1 (.imm 33#14),
    .hdecl tH 0#3 (.v 4) 17#14 .ln8 false false false 0#5, .hdecl tH 0#3 (.v 4) 8#14 .ln8 false false false 1#5,
    .hdecl tH 0#3 (.v 4) 0#14 .ln8 true false false 1#5, .abar tH tN8 0#4, .etail tH (.v 4) (.imm 4096#14) (.imm 1#14),
    .etail tH (.v 4) (.imm 1#14) (.imm 65#14), .swait tH 12#4 (.imm 0#14), .hintnext tH 17#14, .trap tH tN8, .tmask tH (.v 4) (.en (.imm 128#14)),
    .flags tH tO1 (.imm 128#14), .sysr tH (.v 4) 3#2, .sysw tH .flags (.v 4), .bdecl tH 0#6 tN8 (.imm 0#14) .b8 0#2], i.wf = false) := by decide

/-- R284, R289: an engine entry with an empty range, no pair, or five. -/
theorem test_wf_entries : (∀ i ∈ [Instr.copy (.mem 0#56) (.mem 0#56) 0#32, .reduce (.mem 0#56) (.mem 0#56) (.mem 0#56) .f16 .add 3#32,
    .reduce (.mem 0#56) (.mem 0#56) (.mem 0#56) .ln8 .add 4#32, .fill (.mem 0#56) 0#64 0#32, .transduce (.mem 0#56) (.mem 0#56) none 0#32 0#32,
    .engineQfence [], .engineQfence (List.replicate 5 (0#12, 0#52))], i.wf = false) := by decide

/-! ### Words written out from the encodings of the spec -/


/-- R53, R109 to R125. -/
theorem test_decode_control : (∀ x ∈ [
    (0x0103C0000000000000000000#96, Instr.nop tH),
    (0x0803C0000000000000000000#96, Instr.yield tH),
    (0x0203C000000000FFFFFFFFFD#96, Instr.bra tH 0xFFFFFFFFFD#40),
    (0x0207C0000000060000000000#96, Instr.brx tH (.v 6)),
    (0x020BC0000800000000000009#96, Instr.call tH (.v 8) 9#40),
    (0x020FC0000000080000000000#96, Instr.ret tH (.v 8)),
    (0x0303C00000C8020000000000#96, Instr.jset tH 2#3),
    (0x0307C00000C8030000000000#96, Instr.jwait tH 3#3),
    (0x030FC00000C8070000000000#96, Instr.jdrop tH 7#3),
    (0x0403C0000100020005000000#96, Instr.fnew tH (.v 1) (.v 2) (.reg (.v 5))),
    (0x0407C0000000000000000000#96, Instr.fend tH),
    (0x0503C0000000000000000009#96, Instr.bar tH 9#4),
    (0x0507C000000000000000000A#96, Instr.bara tH 10#4),
    (0x050BC000000000000000000B#96, Instr.barw tH 11#4),
    (0x0603C0000000000000000000#96, Instr.cbar tH),
    (0x0607C0000000000000000000#96, Instr.cbarx tH),
    (0x0703C0000200040006000000#96, Instr.task tH (.v 2) (.v 4) (.v 6)),
    (0x0707C0000300040000000000#96, Instr.fork tH (.v 3) (.v 4)),
    (0x0903C000020004800720000D#96, Instr.rxchg tH (.v 2) (.v 4) (.imm 7) .b64 .rot 5#3),
    (0x0907C00002C0030000000002#96, Instr.rvote tH (.reg (.v 2)) 3#4 .ballot 2#3),
    (0x0907C0C004C0030000000012#96, Instr.rvote tH (.pred 4) 3#4 .all 2#3),
    (0x090BC0000200030000700011#96, Instr.rred tH (.v 2) (.v 3) .f32 .max 1#3)],
    decodeWord x.1 = some x.2) := by decide

/-- R138. -/
theorem test_decode_integer : (∀ x ∈ [
    (0x1003C0000400080000280000#96, Instr.mov tH (.v 4) (.reg (.v 8)) .b128),
    (0x1103C000048001FFFFFFFFFE#96, Instr.movi tH (.v 4) true 0xFFFFFFFFFE#40),
    (0x1103C0000500000012345678#96, Instr.movi tH (.v 5) false 0x12345678#40),
    (0x1203C000030000FFFFFFFFF9#96, Instr.xset tH 3#2 0xFFFFFFFFF9#40),
    (0x120BC0000000090000000002#96, Instr.xmov tH (.toIdx 2 (.reg (.v 9)))),
    (0x120BC0000900000000000005#96, Instr.xmov tH (.fromIdx 1 (.v 9))),
    (0x1403C000020004BFFA480400#96, Instr.iadd tH (.v 2) (.reg (.v 4)) (.imm 0x3FFA#14) .s64 true),
    (0x1407C000020004BFFA600400#96, Instr.isub tH (.v 2) (.reg (.v 4)) (.imm 0x3FFA#14) .z32 true),
    (0x1503C000020004BFFA400400#96, Instr.imul tH (.v 2) (.reg (.v 4)) (.imm 0x3FFA#14) .s32 true),
    (0x1507C000020004BFFA680000#96, Instr.imulh tH (.v 2) (.reg (.v 4)) (.imm 0x3FFA#14) .z64),
    (0x1603C000020004BFFA400400#96, Instr.idiv tH (.v 2) (.reg (.v 4)) (.imm 0x3FFA#14) .s32 true),
    (0x1607C000020004BFFA480000#96, Instr.irem tH (.v 2) (.reg (.v 4)) (.imm 0x3FFA#14) .s64),
    (0x1703C000020004BFFA600000#96, Instr.imin tH (.v 2) (.reg (.v 4)) (.imm 0x3FFA#14) .z32),
    (0x1707C000020004BFFA400000#96, Instr.imax tH (.v 2) (.reg (.v 4)) (.imm 0x3FFA#14) .s32),
    (0x1903C000020004BFFA180000#96, Instr.and tH (.v 2) (.reg (.v 4)) (.imm 0x3FFA#14) .b32),
    (0x1907C000020004BFFA200000#96, Instr.or tH (.v 2) (.reg (.v 4)) (.imm 0x3FFA#14) .b64),
    (0x190BC000020004BFFA180000#96, Instr.xor tH (.v 2) (.reg (.v 4)) (.imm 0x3FFA#14) .b32),
    (0x1913C000020004BFFA200000#96, Instr.andn tH (.v 2) (.reg (.v 4)) (.imm 0x3FFA#14) .b64),
    (0x1A07C000020004BFFA200000#96, Instr.shr tH (.v 2) (.reg (.v 4)) (.imm 0x3FFA#14) .b64),
    (0x1A0BC000020004BFFA180000#96, Instr.sar tH (.v 2) (.reg (.v 4)) (.imm 0x3FFA#14) .b32),
    (0x1A0FC000020004BFFA200000#96, Instr.rotl tH (.v 2) (.reg (.v 4)) (.imm 0x3FFA#14) .b64),
    (0x1803C0000200040000480400#96, Instr.iabs tH (.v 2) (.reg (.v 4)) .s64 true),
    (0x1807C0000200040000400000#96, Instr.ineg tH (.v 2) (.reg (.v 4)) .s32 false),
    (0x190FC0000200040000180000#96, Instr.not tH (.v 2) (.reg (.v 4)) .b32),
    (0x1B03C0000200040000200000#96, Instr.popc tH (.v 2) (.v 4) .b64),
    (0x1B07C0000200040000200000#96, Instr.clz tH (.v 2) (.v 4) .b64),
    (0x1B0BC0000200040000200000#96, Instr.brev tH (.v 2) (.v 4) .b64),
    (0x1C03C0000200048005680040#96, Instr.bfx tH (.v 2) (.v 4) (.imm 5) .z64 64#8),
    (0x1C07C0000200040005180008#96, Instr.bfi tH (.v 2) (.reg (.v 4)) (.reg (.v 5)) .b32 8#8),
    (0x1D03C0000200048008600000#96, Instr.aadd tH (.v 2) (.v 4) (.imm 8) .z32),
    (0x1D07C0000200058008400000#96, Instr.amad tH (.v 2) (.reg (.v 5)) (.imm 8) .s32),
    (0x1E03C0C0070004BFFA400003#96, Instr.icmp tH 7#4 (.reg (.v 4)) (.imm 0x3FFA#14) .s32 .le),
    (0x1F03C0C001C002C003000006#96, Instr.plop tH 1#4 2#4 3#4 6#4),
    (0x1F07C0000600000000000000#96, Instr.pmov tH (.get (.v 6))),
    (0x1F07C0000000068123000001#96, Instr.pmov tH (.set (.v 6) 0x123#12)),
    (0x2103C00006807F0000000000#96, Instr.claim tH (.v 6) 127#14),
    (0x2107C0000680010000000000#96, Instr.surr tH (.v 6) 1#14)],
    decodeWord x.1 = some x.2) := by decide

/-- R53, R87 to R93. -/
theorem test_decode_float : (∀ x ∈ [
    (0x3003C000020003BFFA700C00#96, Instr.fadd tH (.v 2) (.reg (.v 3)) (.imm 0x3FFA#14) .f32 .rz true),
    (0x3007C000020003BFFA780C00#96, Instr.fsub tH (.v 2) (.reg (.v 3)) (.imm 0x3FFA#14) .f16 .rz true),
    (0x3103C000020003BFFA800C00#96, Instr.fmul tH (.v 2) (.reg (.v 3)) (.imm 0x3FFA#14) .bf16 .rz true),
    (0x3607C000020003BFFA780C00#96, Instr.hmul2 tH (.v 2) (.reg (.v 3)) (.imm 0x3FFA#14) .f16 .rz true),
    (0x360BC000020003BFFA800C00#96, Instr.hfma2 tH (.v 2) (.reg (.v 3)) (.imm 0x3FFA#14) .bf16 .rz true),
    (0x3303C0000200030007780000#96, Instr.fmin tH (.v 2) (.reg (.v 3)) (.reg (.v 7)) .f16),
    (0x3307C0000200030007700000#96, Instr.fmax tH (.v 2) (.reg (.v 3)) (.reg (.v 7)) .f32),
    (0x3503C0000200030000700000#96, Instr.frcp tH (.v 2) (.reg (.v 3)) .f32),
    (0x3507C0000200030000700000#96, Instr.frsq tH (.v 2) (.reg (.v 3)) .f32),
    (0x350BC0000200030000700000#96, Instr.fexp2 tH (.v 2) (.reg (.v 3)) .f32),
    (0x350FC0000200030000700000#96, Instr.flog2 tH (.v 2) (.reg (.v 3)) .f32),
    (0x3513C0000200030000700000#96, Instr.ftanh tH (.v 2) (.reg (.v 3)) .f32),
    (0x3517C0000200030000700000#96, Instr.fsin tH (.v 2) (.reg (.v 3)) .f32),
    (0x351BC0000200030000700000#96, Instr.fcos tH (.v 2) (.reg (.v 3)) .f32),
    (0x3703C0000200030000750201#96, Instr.cvt tH (.v 2) (.reg (.v 3)) .f32 .e2m1 .rne false 2#2 true),
    (0x3703C0000200030000438800#96, Instr.cvt tH (.v 2) (.reg (.v 3)) .s32 .f32 .rz false 0#2 false),
    (0x3803C00002000400007B9400#96, Instr.cvtp tH (.v 2) (.v 4) .f16 .sr true)],
    decodeWord x.1 = some x.2) := by decide

/-- R53, R171, R244. -/
theorem test_decode_memory : (∀ x ∈ [
    (0x4203C0000800048010200007#96, Instr.atom tH (.v 8) ⟨.v 4, .imm 16⟩ .b64 .cas),
    (0x4303C0000800048010700002#96, Instr.red tH (.v 8) ⟨.v 4, .imm 16⟩ .f32 .max),
    (0x4403C0000800048010000000#96, Instr.probe tH (.v 8) ⟨.v 4, .imm 16⟩),
    (0x5003C0000800048010380000#96, Instr.ldp tH (.v 8) ⟨.v 4, .imm 16⟩ .s16),
    (0x5103C0000800048010280000#96, Instr.stp tH (.v 8) ⟨.v 4, .imm 16⟩ .b128),
    (0x5303C0000800048010080000#96, Instr.ldc tH (.v 8) ⟨.v 4, .imm 16⟩ .b8),
    (0x5403C0000800048010200000#96, Instr.stc tH (.v 8) ⟨.v 4, .imm 16⟩ .b64),
    (0x5503C0E03F00038000A80003#96, Instr.bdecl tH 63#6 (.reg (.v 3)) (.imm 0) .mxi8 3#2),
    (0x5603C0E01400000000000000#96, Instr.bseal tH 20#6),
    (0x5703C0E01500000000000000#96, Instr.bdrain tH 21#6),
    (0x5803C0E01600000000000000#96, Instr.bdone tH 22#6),
    (0x5903C00008E0090000000000#96, Instr.bstat tH (.v 8) 9#6)],
    decodeWord x.1 = some x.2) := by decide

/-- R28, R178. -/
theorem test_decode_sweeps : (∀ x ∈ [
    (0x6107C00501004401804080C8#96, Instr.vsub tH ⟨1#6, 20#10, 16#10, 17#10, 6#12, 1#8, 2#8, 3#8, .bf16⟩),
    (0x620BC00501004401804080D8#96, Instr.vmul tH ⟨2#6, 20#10, 16#10, 17#10, 6#12, 1#8, 2#8, 3#8, .z16⟩),
    (0x630FC00501004401804080D0#96, Instr.vfma tH ⟨3#6, 20#10, 16#10, 17#10, 6#12, 1#8, 2#8, 3#8, .z32⟩),
    (0x6403C00501004401804080DC#96, Instr.vmin tH ⟨0#6, 20#10, 16#10, 17#10, 6#12, 1#8, 2#8, 3#8, .s8⟩),
    (0x6503C00501004401804080E0#96, Instr.vmax tH ⟨0#6, 20#10, 16#10, 17#10, 6#12, 1#8, 2#8, 3#8, .z8⟩),
    (0x660BC005010000018040800C#96, Instr.vabs tH ⟨2#6, 20#10, 16#10, 0#10, 6#12, 1#8, 2#8, 0#8, .s32⟩),
    (0x6703C0050100000180408000#96, Instr.vexp2 tH ⟨0#6, 20#10, 16#10, 0#10, 6#12, 1#8, 2#8, 0#8, .f32⟩),
    (0x6803C0050100000180408000#96, Instr.vrcp tH ⟨0#6, 20#10, 16#10, 0#10, 6#12, 1#8, 2#8, 0#8, .f32⟩),
    (0x6903C0050100000180408000#96, Instr.vrsq tH ⟨0#6, 20#10, 16#10, 0#10, 6#12, 1#8, 2#8, 0#8, .f32⟩),
    (0x6A03C0050100000180408000#96, Instr.vtanh tH ⟨0#6, 20#10, 16#10, 0#10, 6#12, 1#8, 2#8, 0#8, .f32⟩),
    (0x6B83C0050100000180408024#96, Instr.vcvt tH ⟨32#6, 20#10, 16#10, 0#10, 6#12, 1#8, 2#8, 0#8, .ln8⟩),
    (0x6C03C0050100000180408038#96, Instr.vcpy tH ⟨0#6, 20#10, 16#10, 0#10, 6#12, 1#8, 2#8, 0#8, .b32⟩),
    (0x6D03C0050100000180400038#96, Instr.vfill tH ⟨0#6, 20#10, 16#10, 0#10, 6#12, 1#8, 0#8, 0#8, .b32⟩),
    (0x6E27C0050100000180008000#96, Instr.vsumr tH ⟨9#6, 20#10, 16#10, 0#10, 6#12, 0#8, 2#8, 0#8, .f32⟩),
    (0x6F07C005010000018000800C#96, Instr.vmaxr tH ⟨1#6, 20#10, 16#10, 0#10, 6#12, 0#8, 2#8, 0#8, .s32⟩),
    (0x700FC0050100440180408004#96, Instr.vscal tH ⟨3#6, 20#10, 16#10, 17#10, 6#12, 1#8, 2#8, 0#8, .f16⟩),
    (0x716FC00501004401804080F8#96, Instr.vselp tH ⟨27#6, 20#10, 16#10, 17#10, 6#12, 1#8, 2#8, 3#8, .b32⟩)],
    decodeWord x.1 = some x.2) := by decide

/-- R193 to R223. -/
theorem test_decode_matrix : (∀ x ∈ [
    (0x7803C0000000048010900001#96, Instr.wld tH ⟨.v 4, .imm 16⟩ .e4m3 .sp4),
    (0x7903C0000000048010A00000#96, Instr.wldx tH ⟨.v 4, .imm 16⟩ .e2m1),
    (0x7C03C0D80F00070000780002#96, Instr.mmab tH 15#4 (.v 7) .f16 2#2),
    (0x7E03C0D80500000000000000#96, Instr.azero tH 5#4),
    (0x7F03C0D80500048010700000#96, Instr.ald tH 5#4 ⟨.v 4, .imm 16⟩),
    (0x8003C0D80500048010700000#96, Instr.ast tH 5#4 ⟨.v 4, .imm 16⟩),
    (0x8103C0D805D8060000000000#96, Instr.amov tH 5#4 6#4),
    (0x8503C0002000048010981C0E#96, Instr.qstp tH (.v 32) ⟨.v 4, .imm 16⟩ .e5m2 .ns true 6#3 true),
    (0x8703C0E80600048010000000#96, Instr.hsave tH 6#3 ⟨.v 4, .imm 16⟩),
    (0x8803C0E80600048010000000#96, Instr.hload tH 6#3 ⟨.v 4, .imm 16⟩),
    (0x8903C0E80600000000000000#96, Instr.hclr tH 6#3)],
    decodeWord x.1 = some x.2) := by decide

/-- R253 to R291. -/
theorem test_decode_far : (∀ x ∈ [
    (0x8C03C0000180200000000000#96, Instr.winset tH (.v 1) (.imm 32)),
    (0x9003C0000800048010680001#96, Instr.fatom tH (.v 8) ⟨.v 4, .imm 16⟩ .z64 .min),
    (0x9103C000000003000000000C#96, Instr.abar tH (.reg (.v 3)) 12#4),
    (0x9203C0C0030000000000000C#96, Instr.await tH 3#4 12#4),
    (0x9403C000088005000A000001#96, Instr.etailRst tH (.v 8) (.imm 5) (.v 10)),
    (0x9503C000088FFF0000000000#96, Instr.eseq tH (.v 8) (.imm 4095)),
    (0x9603C0C00500070008000000#96, Instr.ewait tH 5#4 (.reg (.v 7)) (.reg (.v 8)))],
    decodeWord x.1 = some x.2) := by decide

/-- R312. -/
theorem test_decode_pod : (∀ x ∈ [
    (0x9803C0000800048010300000#96, Instr.xld tH (.v 8) ⟨.v 4, .imm 16⟩ .s8),
    (0x9903C0000800048010100000#96, Instr.xst tH (.v 8) ⟨.v 4, .imm 16⟩ .b16),
    (0x9A03C0000800048010180006#96, Instr.xatom tH (.v 8) ⟨.v 4, .imm 16⟩ .b32 .exch),
    (0x9B03C0000000048010000000#96, Instr.xputq tH ⟨.v 4, .imm 16⟩),
    (0x9D03C0C00900080000000000#96, Instr.swait tH 9#4 (.reg (.v 8))),
    (0x9E03C0000880210000000000#96, Instr.sstat tH (.v 8) (.imm 33)),
    (0x9F03C0E00700048010000001#96, Instr.ctile tH 7#6 ⟨.v 4, .imm 16⟩ .redsc)],
    decodeWord x.1 = some x.2) := by decide

/-- R341, R364, R376. -/
theorem test_decode_system : (∀ x ∈ [
    (0xA403C0000800000006000000#96, Instr.unbind tH (.v 8) (.v 6)),
    (0xAA03C0000900040007000000#96, Instr.qpost tH (.v 9) (.v 4) (.v 7)),
    (0xAB03C0000800048010000002#96, Instr.signal tH (.v 8) ⟨.v 4, .imm 16⟩ false true),
    (0xB103C000009FFF0000000000#96, Instr.trap tH (.imm 8191)),
    (0xB403C0000000030000000000#96, Instr.brk tH (.reg (.v 3))),
    (0xB603C0000800000000000002#96, Instr.sysr tH (.v 8) 2#2),
    (0xB303C00008807F0000000001#96, Instr.tmask tH (.v 8) (.en (.imm 127)))],
    decodeWord x.1 = some x.2) := by decide

/-- R39 to R45. -/
theorem test_decode_clause : (∀ x ∈ [
    (0xF00011F20000000000000000#96, Instr.clause ⟨1#12, 1#4, 15#4, 1#3, false⟩),
    (0xF00001FE0000000000000000#96, Instr.clause ⟨0#12, 1#4, 15#4, 7#3, false⟩),
    (0xF0002FFC0000000000000000#96, Instr.clause ⟨2#12, 15#4, 15#4, 6#3, false⟩)],
    decodeWord x.1 = some x.2) := by decide

/-- The words that the spec prints with their assembly. -/
theorem test_decode_printed : (∀ x ∈ [
    (0x130000000E8001C001200000#96, Instr.sel ⟨.p 0 false, 0, false, false⟩ (.v 14) (.imm 1) 1#4 .b64 false),
    (0x150BC0000500028020600000#96, Instr.imad tH (.v 5) (.reg (.v 2)) (.imm 32) .z32 false),
    (0x1A03C0000500048002180000#96, Instr.shl tH (.v 5) (.reg (.v 4)) (.imm 2) .b32),
    (0x340000C001000C8001700004#96, Instr.fcmp ⟨.p 0 false, 0, false, false⟩ 1#4 (.reg (.v 12)) (.imm 1) .f32 .gt),
    (0x3603C0000F000F000E800000#96, Instr.hadd2 tH (.v 15) (.reg (.v 15)) (.reg (.v 14)) .bf16 .rne false),
    (0x3903C0002800400032939000#96, Instr.cvtx tH (.v 40) (.v 64) (.v 50) .e4m3 .sr),
    (0x400060000E0006BFFC180000#96, Instr.ld ⟨.p 1 true, 0, false, false⟩ (.v 14) ⟨.v 6, .imm 0x3FFC#14⟩ .b32),
    (0x4003C1000C00040006180000#96, Instr.ld ⟨.always, 0, false, true⟩ (.v 12) ⟨.v 4, .reg (.v 6)⟩ .b32),
    (0x4103C0000F000C8000180000#96, Instr.st tH (.v 15) ⟨.v 12, .imm 0⟩ .b32),
    (0x5203C0000A00008000700002#96, Instr.atomp tH (.v 10) ⟨.v 0, .imm 0⟩ .f32 .max),
    (0x6003C0050100441002020200#96, Instr.vadd tH ⟨0#6, 20#10, 16#10, 17#10, 64#12, 8#8, 8#8, 8#8, .f32⟩),
    (0x7A03C0000000290000000000#96, Instr.wswap tH (.reg (.v 41))),
    (0x7B0080D801002A0000800001#96, Instr.mma ⟨.p 2 false, 0, false, false⟩ 1#4 (.v 42) .bf16 1#3),
    (0x8403C0D80000168000881800#96, Instr.qst tH 0#4 ⟨.v 22, .imm 0⟩ .ln8 .ns false 0#3 false),
    (0x8603C0E800001E8002880000#96, Instr.hdecl tH 0#3 (.v 30) 2#14 .ln8 false false false 0#5),
    (0x8E00C0E00400008000000014#96, Instr.put ⟨.p 3 false, 0, false, false⟩ 4#6 ⟨.v 0, .imm 0⟩ 4#4 true),
    (0x8F0000E00800108240000015#96, Instr.redt ⟨.p 0 false, 0, false, false⟩ 8#6 ⟨.v 16, .imm 576⟩ 5#4 true),
    (0x9C03C0000800148010180000#96, Instr.sput tH (.v 8) ⟨.v 20, .imm 16⟩ .b32),
    (0xA103C0000600048000000000#96, Instr.acq tH (.v 6) ⟨.v 4, .imm 0⟩),
    (0xA203C0000000048000000000#96, Instr.rel tH ⟨.v 4, .imm 0⟩),
    (0xA903C0000000000000000000#96, Instr.waitpred tH),
    (0xB003C0000000000000000000#96, Instr.tfence tH),
    (0xB203C0000000000000000000#96, Instr.tret tH),
    (0xB503C00018807F0000000000#96, Instr.flags tH (.v 24) (.imm 127))],
    decodeWord x.1 = some x.2) := by decide

/-- R354, R357: the packets, each as its 32 bytes, the first byte in the least significant place; the LOOP is the spec's. -/
theorem test_decode_packets : (∀ x ∈ [
    (0x00#256, Instr.packetNop), (0x01#256 ||| 0x1000#256 <<< 64, .launch 0x1000#64),
    (0x02#256 ||| 0x1000#256 <<< 64 ||| 0x2000#256 <<< 128, .launchi 0x1000#64 0x2000#64),
    (0x103#256 ||| 0x1000#256 <<< 64 ||| 7#256 <<< 128, .waitseq true 0x1000#64 7#64),
    (0x204#256 ||| 0x1000#256 <<< 64 ||| 7#256 <<< 128, .signalPacket false true 0x1000#64 7#64),
    (0x000003E800000005#256, .loop 1000#32),
    (0x0906#256 ||| 0x0000100000000100#256 <<< 64 ||| 0xFFFFFFFFFFFFFFFF#256 <<< 192,
      .endloop true .ne 0x0000100000000100#64 0#64 0xFFFFFFFFFFFFFFFF#64),
    (0x0307#256 ||| 0x1000#256 <<< 64 ||| 7#256 <<< 128 ||| 0xFF#256 <<< 192, .ifmem .geu 0x1000#64 7#64 0xFF#64),
    (0x08#256, .elsePacket), (0x09#256, .endifPacket), (0x0A#256, .qfence),
    (0x123_0000000B#256 ||| 64#256 <<< 64, .engcmd 0x123#12 64#64), (0x0C#256 ||| 9#256 <<< 64, .stepb 9#64), (0x0D#256, .halt)],
    decodePacket x.1 = some x.2) ∧
    decodePacket 0x0E#256 = none ∧ decodePacket 0x100#256 = none ∧ decodePacket 0x10000#256 = none ∧ decodePacket 0x0407#256 = none := by
  decide

/-- R283, R284: bytes 0 to 47 of the entries. OPC stands in bits 127:120, LEN in 95:64, D, A, B and AUX from bits 128,
192, 256 and 320. -/
theorem test_decode_entries : (∀ x ∈ [
    (0#384, Instr.engineNop),
    (0x01#384 <<< 120 ||| 128#384 <<< 64 ||| 0x1000#384 <<< 128 ||| 0x2000#384 <<< 192, .copy (.mem 0x1000#56) (.mem 0x2000#56) 128#32),
    (0x01#384 <<< 120 ||| 1#384 <<< 119 ||| 9#384 <<< 115 ||| 128#384 <<< 64 ||| 0x1000#384 <<< 128, .copy (.mem 0x1000#56) (.fifo 9) 128#32),
    (0x02#384 <<< 120 ||| 0x0E#384 <<< 100 ||| 2#384 <<< 96 ||| 8#384 <<< 64 ||| 1#384 <<< 128 ||| 2#384 <<< 192 ||| 3#384 <<< 256,
      .reduce (.mem 1#56) (.mem 2#56) (.mem 3#56) .f32 .max 8#32),
    (0x03#384 <<< 120 ||| 1#384 <<< 109 ||| 5#384 <<< 105 ||| 3#384 <<< 64 ||| 0xABCD#384 <<< 192, .fill (.fifo 5) 0xABCD#64 3#32),
    (0x04#384 <<< 120 ||| 1088#384 <<< 64 ||| 0x2000#384 <<< 192, .tload 0x2000#56 1088#32),
    (0x05#384 <<< 120 ||| 1#384 <<< 96 ||| 3#384 <<< 64 ||| 1#384 <<< 128 ||| 2#384 <<< 192 ||| 4#384 <<< 320 ||| 0x7FF#384 <<< 352,
      .transduce (.mem 1#56) (.mem 2#56) (some 0x7FF#12) 4#32 3#32),
    (0x06#384 <<< 120 ||| 2#384 <<< 64 ||| 0xABC0000000000001#384 <<< 128 ||| 0x0010000000000002#384 <<< 192,
      .engineQfence [(0xABC#12, 1#52), (1#12, 2#52)]),
    (0x20#384 <<< 120 ||| 0x2000#384 <<< 192, .metard 0x2000#56),
    (0x21#384 <<< 120 ||| 0x2000#384 <<< 192 ||| 1#384 <<< 337, .metawr 0x2000#56 true),
    (0x22#384 <<< 120 ||| 0x0D#384 <<< 128 ||| 5#384 <<< 152 ||| 6#384 <<< 160 ||| 7#384 <<< 182, .slotbind 0x0D#8 (some ⟨7#10, 6#16, 5#8⟩)),
    (0x22#384 <<< 120 ||| 0x0D#384 <<< 128 ||| 1#384 <<< 181, .slotbind 0x0D#8 none)], decodeEntry x.1 = some x.2) ∧
    decodeEntry (0x07#384 <<< 120) = none ∧ decodeEntry (0x01#384 <<< 120) = none ∧
    decodeEntry (0x01#384 <<< 120 ||| 128#384 <<< 64 ||| 1#384 <<< 119 ||| 0x2000#384 <<< 192) = none := by decide

/-- R368, R369: writes of the registers of BAR0, by offset, size and value. -/
theorem test_decode_host_writes : (∀ x ∈ [
    (0x400000, 4, 5#64, Instr.hqTail 0 ⟨some false, 5⟩), (0x7FF000, 8, 5#64, .hqTail 1023 ⟨none, 5⟩),
    (0x100048, 8, 1#64, .hqCtl 1 ⟨none, 1⟩), (0x100050, 8, 3#64, .hqTail 1 ⟨none, 3⟩), (0x100060, 8, 1#64, .resume 1),
    (0x100060, 8, 2#64, .clear 1), (0x100060, 4, 2#64, .registerWrite 0x100060 ⟨some false, 2⟩),
    (0x001008, 8, 0x123_0007_0000#64, .tlbInvalRange 0x123 7), (0x001008, 8, 0x7_0001#64, .tlbInvalAsid 7),
    (0x001008, 8, 2#64, .tlbInvalFull), (0x001018, 8, 9#64, .asidBind 9), (0x001018, 8, 0x10009#64, .asidRelease 9),
    (0x001020, 8, 0x01_0000001234_0007#64, .pgResp 1 0x1234 7), (0x002088, 8, 6#64, .stepDom 1 ⟨none, 6⟩),
    (0x020208, 8, 6#64, .preemptCtl 1 6), (0x003038, 8, 0x105#64, .drain 5), (0x003038, 8, 0x305#64, .provIgnored 5),
    (0x004010, 8, 5#64, .dbgDiscard), (0x004010, 8, 7#64, .dbgBadOperation 7), (0x000010, 4, 9#64, .pwrCap ⟨some false, 9⟩)],
    decodeHostWrite x.1 x.2.1 x.2.2.1 = some x.2.2.2) ∧ decodeHostWrite 0x100048 4 0#64 = some (.hqCtl 1 ⟨some false, 0⟩) ∧
    decodeHostWrite 0x10004A 4 0#64 = none := by decide

/-! ### Worked examples of the spec, each one step -/

/-- XADD at the end of the example of R141: i1 of −32,768 and −1 give 32,767 and set IOV. -/
theorem test_xadd_wraps : intResult .s16 false ((-32768) + (-1)) = (32767, fIOV) := by decide

/-- R84: the sum of two finite values that overflows is an infinity, with OV and IX. -/
theorem test_fadd_overflow : (Machine.fadd .f32 .rne false 0x7F7FFFFF 0x7F7FFFFF).1 = 0x7F800000 := by decide

end Sys2Proof.Tests
end

section
/-! SUPPORT. The words of instructions read back (R21 to R39, R54): an operand that selects the form of its word, the
reserved bits of IMM8, and the words of each format. -/

namespace Sys2Proof.Proofs

open Sys2Proof Sys2Proof.Laws

/-- A vote's destination reads back: no register has the code of a predicate (R33, R115). -/
theorem voteOf_code (d : VoteDst) : voteOf d.code = some d := by
  cases d with
  | pred p => simp [voteOf, VoteDst.code, predOf_code]
  | reg r =>
    have : predOf r.code = none := by
      cases r <;> simp (disch := omega) [predOf, classOf, Reg.code, ext_hi]
    simp [voteOf, VoteDst.code, this, regOf_code]

theorem atomOf_code3 (x : AtomOp) : AtomOp.ofCode3 x.code3 = some x := by cases x <;> rfl

/-- The part of a concatenation that a mask keeps, part by part: an IMM8 holds nothing in its reserved bits (R39). -/
theorem append_and {m n : Nat} (x : BitVec m) (y : BitVec n) (k : BitVec (m + n)) :
    no_index ((x ++ y) &&& k) = (x &&& k.extractLsb' n m) ++ (y &&& k.extractLsb' 0 n) := by
  have parts : k = k.extractLsb' n m ++ k.extractLsb' 0 n := by ext; simp
  conv_lhs => rw [parts, BitVec.and_append]

/-! ### Format R -/

/-- A well-formed Format R word reads back: its fields are the codes of the operands, and every field that the
instruction does not use is zero. An operand of two forms (XMOV, PMOV, TMASK) has a word for each; a header alone, as NOP
has it, is taken as a conjunction too, so that its check always stands first. -/
theorem parseWord_rawR {i : Instr} {r : RawR} (hw : i.wf = true) (hr : rawR i = some r) : parseWord r.word = some i := by
  have hk := And.intro hw trivial
  cases i
  case' xmov x => cases x
  case' pmov x => cases x
  case' tmask x => cases x
  all_goals cases hr
  all_goals
    simp only [Instr.wf, Bool.and_eq_true, and_assoc] at hk
    refine parseWord_R _ _ _ (hdrOf_code _ _ hk.1) rfl rfl (fun _ => rfl) ?_
    change need _ >>= _ = _
    simp (disch := omega) [need, regOf_code, srcOf_code, memOf_code, imm14Of_code, predOf_code, maskOf_code, tileOf_code,
      bufOf_code, bankOf_code, sysOf_code, voteOf_code, tyOf_code, rndOf_code, condOf_code, xmodeOf_code, vmodeOf_code,
      atomOf_code, atomOf_code3, spOf_code, scopeOf_code, fkOf_code, collOf_code, append_and, ext_hi, ext_lo, bit_hi,
      bit_lo, -BitVec.getLsbD_eq_getElem]

/-! ### Formats I and S, and the clause header -/

theorem parseWord_wordI {op : BitVec 8} {sub : BitVec 6} {h : Hdr} {d a : BitVec 16} {imm : BitVec 40} {i : Instr}
    (hk : h.ok false = true) (ho : (op.toNat == 0xF0) = false)
    (hs : (decide (0x60 ≤ op.toNat) && decide (op.toNat ≤ 0x71)) = false)
    (hI : parseI op.toNat sub.toNat h d a imm = some i) : parseWord (wordI op sub h d a imm) = some i := by
  simp (disch := omega) [parseWord, wordI, ext_hi, ext_lo, ho, hs, hdrOf_code h false hk, hI]

/-- A well-formed Format I word reads back. -/
theorem parseWord_encodeI {i : Instr} {w : IWord} (hw : i.wf = true) (he : encodeI i = some w) : parseWord w = some i := by
  have hk := And.intro hw trivial
  cases i
  case' movi wide imm => cases wide
  all_goals cases he
  all_goals
    simp only [Instr.wf, Bool.and_eq_true, and_assoc] at hk
    refine parseWord_wordI hk.1 rfl rfl ?_
    simp (disch := omega) [parseI, need, regOf_code, predOf_code, maskOf_code, ext_hi, ext_lo]

/-- A Format S word whose element type Format S names reads back (R28). -/
theorem parseWord_sweepWord {op : BitVec 8} {h : Hdr} {w : Sweep} {i : Instr} (hk : h.ok true = true)
    (ht : w.ty.isSweep = true) (ho : (op.toNat == 0xF0) = false)
    (hs : (decide (0x60 ≤ op.toNat) && decide (op.toNat ≤ 0x71)) = true)
    (hi : sweepInstr op.toNat h w = some i) : parseWord (sweepWord op h w) = some i := by
  have ty : Ty.ofSweepCode w.ty.sweepCode = some w.ty := by revert ht; cases w.ty <;> decide
  simp (disch := omega) [parseWord, sweepOf, sweepWord, ext_hi, ext_lo, ty, need, ho, hs, hdrOf_code h true hk, hi]

/-- A well-formed sweep reads back where Format S names its element type, as every sweep but VCVT asks for (R180). -/
theorem parseWord_encodeS {i : Instr} {w : IWord} (hw : i.wf = true) (hv : ∀ h v, i = .vcvt h v → v.ty.isSweep = true)
    (he : encodeS i = some w) : parseWord w = some i := by
  cases i
  case vcvt => cases he; exact parseWord_sweepWord (Bool.and_elim_left hw) (hv _ _ rfl) rfl rfl rfl
  all_goals cases he
  all_goals
    simp only [Instr.wf, Sweep.vaddOk, Sweep.vsubOk, Sweep.vmulOk, Sweep.vfmaOk, Sweep.vminOk, Sweep.vmaxOk, Sweep.vabsOk,
      Sweep.vexp2Ok, Sweep.vrcpOk, Sweep.vrsqOk, Sweep.vtanhOk, Sweep.vfunOk, Sweep.vcpyOk, Sweep.vfillOk, Sweep.vsumrOk,
      Sweep.vmaxrOk, Sweep.vredOk, Sweep.vscalOk, Sweep.vselpOk, Bool.and_eq_true, Bool.or_eq_true, beq_iff_eq] at hw
    refine parseWord_sweepWord hw.1 ?_ rfl rfl rfl
    revert hw
    cases ‹Sweep›.ty <;> simp [Ty.isSweep, Ty.isVArith, Ty.isFloat]

theorem parseWord_clause (c : Clause) : parseWord c.word = some (.clause c) := by
  simp (disch := omega) [parseWord, Clause.word, clauseOf, ext_hi, ext_lo, need, bit_hi, bit_lo, -BitVec.getLsbD_eq_getElem]

/-- A well-formed instruction that has a word reads back from it, but for a VCVT to an element type that Format S does not
name. -/
theorem decodeWord_encodeWord {i : Instr} {w : IWord} (hw : i.wf = true)
    (hv : ∀ h v, i = .vcvt h v → v.ty.isSweep = true) (he : encodeWord i = some w) : decodeWord w = some i := by
  suffices parseWord w = some i by simp [decodeWord, this, hw]
  unfold encodeWord at he
  split at he
  · cases he; exact parseWord_clause _
  · split at he
    · next hr => cases he; exact parseWord_rawR hw hr
    · split at he
      · next hI => cases he; exact parseWord_encodeI hw hI
      · exact parseWord_encodeS hw hv he

/-- VCVT of .f32 to .s64: a pair of R90 that Format S has no code for (R28). -/
def vcvtToS64 : Instr := .vcvt plainHdr ⟨0#6, 0#10, 0#10, 0#10, 0#12, 0#8, 0#8, 0#8, .s64⟩

/-- Refutes O58: `Sweep.vcvtOk` admits the destination .s64, and Format S names no such element type (R28, R182): the word
holds the code of .b32, to which VCVT does not convert, so that it decodes to nothing. -/
theorem not_wordRoundTrip : ¬ Obligations.WordRoundTrip := by
  unfold Obligations.WordRoundTrip
  intro h
  exact absurd (h vcvtToS64 _ (by decide) rfl) (by decide)

/-- Settles O57: each word is decoded as it stands. -/
theorem decodedWords : Obligations.DecodedWords := by
  unfold Obligations.DecodedWords
  decide

end Sys2Proof.Proofs
end

section
/-! SUPPORT. What a word comes to before its own effect (R49), and the words that only move their fibre: clause headers, NOP,
YIELD and the transfers (R39 to R44, R50, R51, R106 to R109). -/

namespace Sys2Proof.Proofs

open Sys2Proof Sys2Proof.Machine Sys2Proof.Safety Sys2Proof.Laws

/-- A change of a fibre that the state holds is a change to the value it comes to. -/
theorem updFibre_at {s : State} {r : FRef} {g : Group} {f : Fibre} (hg : s.group? r.g = some g)
    (hf : g.fibre? r.f = some f) (u : Fibre → Fibre) : s.updFibre r u = s.updFibre r fun _ => u f := by
  simp only [State.updFibre, State.updGroup, hg, Group.updFibre, hf]

/-- A fibre that goes on at a position has no grant left to take from it. -/
theorem kept_goTo (s t : State) (u : Fibre → Fibre) (p : Pos) (c : Nat) :
    kept s (t.updFibre s.cur fun v => (u v).goTo p c) = t.updFibre s.cur fun v => (u v).goTo p c :=
  State.updFibre_updFibre ..

/-- A fetch leaves the clock, the fibre that issues and every group as they are. -/
theorem fetch_frame {s s1 : State} {c ctx : Nat} {pc : Dword} {r : Fetched} (h : s.fetch c ctx pc = (r, s1)) :
    s1.cur = s.cur ∧ s1.cycle = s.cycle ∧ s1.groups = s.groups := by
  obtain ⟨t, k, l, e⟩ := fetch_tlb s c ctx pc
  rw [h] at e
  subst e
  exact ⟨rfl, rfl, rfl⟩

/-! ### Before the effect (R49) -/

theorem operandFault_range {n : Nat} {f : Fibre} {cs : List Chk} {v : Dword}
    (h : cs.findSome? (Chk.range n f) = some v) : operandFault n f cs = some (.regRange, v) := by
  simp [operandFault, h]

theorem operandFault_align {n : Nat} {f : Fibre} {cs : List Chk} {v : Dword}
    (h : cs.findSome? (Chk.range n f) = none) (ha : cs.findSome? (Chk.align f) = some v) :
    operandFault n f cs = some (.align, v) := by
  simp [operandFault, h, ha]

section

variable {i : Instr} {h : Hdr} {w : Group → Fibre → WordSpec} {onFalse : State → State}
  {body : Group → Fibre → State → Res} {s : State} {g : Group} {f : Fibre}

/-- The issue of a word in a fibre that the state holds. -/
theorem runWord_at (hg : s.group? s.cur.g = some g) (hf : g.fibre? s.cur.f = some f) :
    runWord i h w body s onFalse = .next ((issueWord i h w onFalse body s g f).commit s.cur s.cycle) := by
  simp only [runWord, hg, hf]

theorem issueWord_atHdr (hw : ((w g f).gangOnly && f.wave) = false) (hp : f.pos.atHdr = true) :
    issueWord i h w onFalse body s g f = .trap s .clauseForm f.pos.pc := by
  simp [issueWord, hw, hp]

theorem issueWord_unguarded (hw : ((w g f).gangOnly && f.wave) = false)
    (hp : (f.pos.atHdr || ((w g f).lastWord && f.pos.idx != f.pos.len)) = false) (hgd : f.guard h.guard = false) :
    issueWord i h w onFalse body s g f = .ok (onFalse s) := by
  simp only [issueWord, hw, hp, hgd, Bool.not_false, if_true, Bool.false_eq_true, if_false]

theorem issueWord_priv (hw : ((w g f).gangOnly && f.wave) = false)
    (hp : (f.pos.atHdr || ((w g f).lastWord && f.pos.idx != f.pos.len)) = false) (hgd : f.guard h.guard = true)
    (hm : ((w g f).inHandler && !f.tm) = true) : issueWord i h w onFalse body s g f = .trap s .priv 0#64 := by
  simp only [issueWord, hw, hp, hgd, hm, Bool.not_true, if_true, Bool.false_eq_true, if_false]

theorem issueWord_operands {c : Cause} {v : Dword} (hw : ((w g f).gangOnly && f.wave) = false)
    (hp : (f.pos.atHdr || ((w g f).lastWord && f.pos.idx != f.pos.len)) = false) (hgd : f.guard h.guard = true)
    (hm : ((w g f).inHandler && !f.tm) = false) (ho : operandFault (g.allocation s.cur.f) f (w g f).chks = some (c, v)) :
    issueWord i h w onFalse body s g f = .trap s c v := by
  simp only [issueWord, hw, hp, hgd, hm, ho, Bool.not_true, Bool.false_eq_true, if_false]

end

/-- Settles O45: each clause is one exit of the issue of a word, in the order of R49. -/
theorem beforeTheEffect : Obligations.BeforeTheEffect := by
  unfold Obligations.BeforeTheEffect
  intro s g f h d a x y t sat q hg hf cs
  refine ⟨fun hp => (runWord_at hg hf).trans ?_, fun hp => ⟨fun hgd => (runWord_at hg hf).trans ?_, fun hgd =>
    ⟨fun v hr => (runWord_at hg hf).trans ?_, fun v hr hal => (runWord_at hg hf).trans ?_, fun htm =>
      ⟨(runWord_at hg hf).trans ?_, fun hl => (runWord_at hg hf).trans ?_⟩⟩⟩⟩
  · rw [issueWord_atHdr rfl hp]; rfl
  · rw [issueWord_unguarded rfl (by simp [hp]) hgd]
    exact congrArg _ (updFibre_at hg hf _)
  · rw [issueWord_operands rfl (by simp [hp]) hgd rfl (operandFault_range hr)]; rfl
  · rw [issueWord_operands rfl (by simp [hp]) hgd rfl (operandFault_align hr hal)]; rfl
  · rw [issueWord_priv rfl (by simp [hp]) hgd (by simp [htm])]; rfl
  · rw [issueWord_priv rfl (by simp [hp, hl]) hgd (by simp [htm])]; rfl

/-! ### Clauses -/

/-- A header whose WAIT counters are all zero begins its body. -/
theorem headerRes_begins {c : Clause} {s : State} {f : Fibre} (hp : f.pos.atHdr = true)
    (hz : ∀ n, n < 12 → c.wait.getLsbD n = true → f.ctr (BitVec.ofNat 4 n) = 0#6) :
    headerRes c s f = .keep (s.updFibre s.cur fun v => (v.observe c.wait).goTo
      { pc := f.pos.pc + 12#64, atHdr := false, seta := c.seta, setb := c.setb, len := c.len, idx := 0#3 } s.cycle) := by
  have none_left : ((List.range 12).any fun n => c.wait.getLsbD n && f.ctr (BitVec.ofNat 4 n) != 0#6) = false := by
    simp only [List.any_eq_false, List.mem_range, Bool.and_eq_true, bne_iff_ne, not_and, not_not]
    exact hz
  rw [headerRes, hp, none_left]; rfl

/-- Settles O11: the header by `headerRes_begins`, NOP and YIELD as words of their own fibre. -/
theorem clauses : Obligations.Clauses := by
  unfold Obligations.Clauses
  intro s g f h c
  refine ⟨fun hg hf hp hz => ?_, fun hi => ⟨laneWord_issues hi, laneWord_issues hi⟩⟩
  have hfib : s.fibre? s.cur = some f := by simp [State.fibre?, hg, hf]
  change execClause c s = _
  rw [execClause, hfib]
  change Host.Outcome.next ((headerRes c s f).commit s.cur s.cycle) = _
  rw [headerRes_begins hp hz]
  exact congrArg _ ((kept_goTo s s _ _ _).trans (updFibre_at hg hf _))

/-! ### Transfers -/

/-- A transfer to a clause header takes place: the fibre stands there, in the state that the fetch has left. -/
theorem transfer_header {target : Dword} {u : Fibre → Fibre} {g : Group} {s s1 : State} {w : IWord}
    (ha : target.toNat % 12 = 0) (hf : s.fetch g.coreOr0 g.ctx target = (.word w, s1)) (hw : isHeader w = true) :
    transfer target u g s = .keep (s1.updFibre s.cur fun f => (u f).goTo { pc := target } s.cycle) := by
  obtain ⟨hcur, hcyc, -⟩ := fetch_frame hf
  simp only [transfer, ha, hf, hw, hcur, hcyc, ne_eq, not_true_eq_false, if_false, if_true]

/-- A word that issues and passes control to a clause header. -/
theorem runWord_transfers {i : Instr} {h : Hdr} {w : Group → Fibre → WordSpec} {body : Group → Fibre → State → Res}
    {s s1 : State} {g : Group} {f : Fibre} {target : Dword} {u : Fibre → Fibre} {v : IWord} (hi : Issues s g f h (w g f))
    (ha : target.toNat % 12 = 0) (hf : s.fetch g.coreOr0 g.ctx target = (.word v, s1)) (hv : isHeader v = true)
    (hb : body g f s = transfer target u g s) :
    runWord i h w body s = .next (s1.updFibre s.cur fun _ => (u f).goTo { pc := target } s.cycle) := by
  rw [runWord_keep hi (hb.trans (transfer_header ha hf hv)), kept_goTo]
  obtain ⟨-, -, hgs⟩ := fetch_frame hf
  have hg : s1.group? s.cur.g = some g := by rw [State.group?, hgs]; exact hi.group
  exact congrArg _ (updFibre_at hg hi.fibre _)

/-- Settles O12: each of the four is a transfer to a clause header. -/
theorem transfers : Obligations.Transfers := by
  unfold Obligations.Transfers
  intro s s1 g f h d a imm w
  refine ⟨fun ha hf hw => ⟨fun hi => ?_, fun hi => ?_⟩, fun ha hb hf hw hi => ?_⟩
  · change execBra h imm s = _
    exact runWord_transfers (u := id) hi ha hf hw rfl
  · change execCall h d imm s = _
    exact runWord_transfers (u := fun v => v.wr d 2 (f.pos.pc + 12#64).toNat) hi ha hf hw rfl
  · have pair : transferPair (f.rdPair a) g s = transfer (f.rdPair a) id g s := by
      rw [transferPair, if_neg (by omega)]
    constructor
    · change execBrx h a s = _
      exact runWord_transfers (u := id) hi ha hf hw pair
    · change execRet h a s = _
      exact runWord_transfers (u := id) hi ha hf hw pair

end Sys2Proof.Proofs
end

section
/-! SUPPORT. The words that a shared unit of the core accepts: loads, multiplies and tile moves of the matrix array (R197 to
R207), the quantising store and the residue banks (R213 to R222), and sweeps (R178 to R180). -/

namespace Sys2Proof.Proofs

open Sys2Proof Sys2Proof.Machine Sys2Proof.Safety Sys2Proof.Laws

/-! ### The matrix array -/

section

variable {i : Instr} {h : Hdr} {m : Mem} {t : BitVec 4} {a : Reg} {ty : Ty} {s : State} {g : Group} {f : Fibre}

/-- A load whose image keeps every rule is accepted with the bytes that its lane reads. -/
theorem wldWord_accepts {sp : Sparsity} {scl : Bool}
    (hi : Issues s g f h { counts := true, chks := Mem.chk m 1, unit := some .matrix }) (hg : g.lr.mg = true)
    (hs : g.swapDue = false) (ha : f.off m % 128 = 0) (hr : f.off m + imageSize ty sp scl ≤ g.lr.scr)
    (hb : ∀ r ∈ imageRanges ty sp scl (s.cur.f % 32), g.bufFault (f.off m + r.1) (f.off m + r.2) false = none)
    (hm : sp = .dense ∨ metaFault (f.off m) (g.imageBytes (f.off m) 0x4000
      ((imageRanges ty sp scl (s.cur.f % 32)).filter fun r => decide (r.1 ≥ 0x4000))) = none) :
    let p := f.off m
    let rs := imageRanges ty sp scl (s.cur.f % 32)
    let tail := g.imageBytes p 0x4000 (rs.filter fun r => decide (r.1 ≥ 0x4000))
    wldWord i h m ty sp scl s = .next (went s (s.addOp g f (f.counter h)
      (.wld ty sp.code scl (g.imageBytes p 0 (rs.filter fun r => decide (r.1 < 0x4000))) (if scl then [] else tail)
        (if scl then tail else []) (rs.findSome? fun r => if g.eccFault (p + r.1) (r.2 - r.1) then some (p + r.1) else none))
      [] s.cur.g (rs.map fun r => (p + r.1, p + r.2)) [])) := by
  intro p rs tail
  refine runWord_ok hi ?_
  have hb' : (rs.findSome? fun r => g.bufFault (p + r.1) (p + r.2) false) = none := List.findSome?_eq_none_iff.2 hb
  have hm' : (if sp = .dense then none else metaFault p tail) = none := ite_eq_left_iff.2 fun hd => hm.resolve_left hd
  simp only [p, rs, tail] at hb' hm'
  simp only [hg, hs, ha, hb', hm', gt_iff_lt, Nat.not_lt.2 hr, Bool.not_true, Bool.false_eq_true, ne_eq, not_true_eq_false,
    if_false]
  rfl

/-- The registers that hold the scales of a multiply. -/
def scaleChk (ty : Ty) : Option (Reg × Nat) → List Chk
  | some (r, _) => Reg.chk r (if ty == .e2m1 then 2 else 1)
  | none => []

/-- A multiply whose plane and row suit it is accepted. -/
theorem mmaWord_accepts {kb q : Nat} {sc : Option (Reg × Nat)}
    (hi : Issues s g f h { counts := true, chks := Reg.chk a 1 ++ scaleChk ty sc ++ tileChk g t, unit := some .matrix })
    (hg : g.lr.mg = true) (hs : g.swapDue = false) (hf : g.active.fmt = ty.code)
    (hscl : sc.isSome = true → g.active.scl = true) (hsp : sc.isSome = true ∨ q ≠ 0 → g.active.sp = 0#2)
    (hr : g.scratchFault (f.r (f.reg a)).toNat (mmaK g.active ty kb q * ty.width / 8) 16 false = none) :
    let off := (f.r (f.reg a)).toNat
    mmaWord i h t a ty kb q sc s = .next (went s (s.addOp g f (f.counter h)
      (.mma t off ty kb q (sc.map fun p => (if ty == .e2m1 then f.rdPair p.1 else (f.r (f.reg p.1)).setWidth 64, p.2)))
      [] s.cur.g [(off, off + mmaK g.active ty kb q * ty.width / 8)] [])) := by
  intro off
  have suits : (g.active.fmt != ty.code || (sc.isSome && !g.active.scl) ||
      ((sc.isSome || q != 0) && g.active.sp != 0#2)) = false := by
    simp only [Bool.or_eq_false_iff, Bool.and_eq_false_imp, Bool.or_eq_true, bne_iff_ne, bne_eq_false_iff_eq,
      Bool.not_eq_false']
    exact ⟨⟨hf, hscl⟩, hsp⟩
  refine runWord_ok (g := g) (f := f) (by cases sc <;> exact hi) ?_
  simp only [hg, hs, suits, hr, Bool.not_true, Bool.false_eq_true, if_false]
  rfl

/-- A move of a row whose bytes keep their rules is accepted. -/
theorem rowWord_accepts {store : Bool}
    (hi : Issues s g f h { counts := true, chks := Mem.chk m 1 ++ tileChk g t, unit := some .matrix })
    (hr : g.scratchFault (f.off m) 512 16 store = none) :
    rowWord i h t m store s = .next (went s (s.addOp g f (f.counter h)
      (if store then .ast t (f.off m) else .ald t (f.off m)) [] s.cur.g
      (if store then [] else [(f.off m, f.off m + 512)]) (if store then [(f.off m, f.off m + 512)] else []))) := by
  refine runWord_ok hi ?_
  simp only [hr]

end

/-- Settles O25: each word by the lemma of its kind. -/
theorem matrixIssue : Obligations.MatrixIssue := by
  unfold Obligations.MatrixIssue
  intro s g f h m t u a b ty sp kb q bsel lane load multiply
  refine ⟨?wld, ?wldx, ?mma, ?mmab, ?mmax, ?azero, ?amov, fun hi => ⟨?ald, ?ast⟩⟩
  case wld => exact fun hi hg hs ha hr hb hm => wldWord_accepts hi hg hs ha hr hb hm
  case wldx => exact fun hi hg hs ha hr hb hm => wldWord_accepts hi hg hs ha hr hb hm
  case mma => exact fun hi hg hs hf hc hp hr => mmaWord_accepts (sc := none) hi hg hs hf hc hp hr
  case mmab => exact fun hi hg hs hf hc hp hr => mmaWord_accepts (sc := none) hi hg hs hf hc hp hr
  case mmax => exact fun hi hg hs hf hc hp hr => mmaWord_accepts (sc := some (b, bsel.toNat)) hi hg hs hf hc hp hr
  case azero => exact fun hi => runWord_ok (w := fun g _ => { chks := tileChk g t, unit := some .matrix }) hi rfl
  case amov => exact fun hi => runWord_ok (w := fun g _ => { chks := tileChk g u ++ tileChk g t, unit := some .matrix }) hi rfl
  case ald => exact fun hr => rowWord_accepts (store := false) hi hr
  case ast => exact fun hr => rowWord_accepts (store := true) hi hr

/-! ### The quantising store and the residue banks -/

section

variable {h : Hdr} {m : Mem} {ty : Ty} {rnd : Rnd} {sat mx : Bool} {b : BitVec 3} {s : State} {g : Group} {f : Fibre}

/-- A quantising store of a tile is accepted: under NS its bank suits it, and its turn has come. -/
theorem execQst_accepts {t : BitVec 4}
    (hi : Issues s g f h { counts := true, unit := some .qstore
                           chks := Mem.chk m 1 ++ tileChk g t ++ if rnd = .ns then bankChk g b else [] })
    (hn : rnd = .ns → (s.bankNow s.cur.g g b).shapeFault ty mx false = none ∧
      (s.bankNow s.cur.g g b).judge (s.cur.f % 32) t.toNat = .go)
    (hr : g.scratchFault (f.off m) (storeBytes 128 ty mx) 16 true = none) :
    execQst h t m ty rnd sat b mx s = .next (went s (s.addOp g f (f.counter h) (.qst t (f.off m) ty rnd sat b mx) []
      s.cur.g [] [(f.off m, f.off m + storeBytes 128 ty mx)])) := by
  refine runWord_ok (g := g) (f := f) hi ?_
  by_cases hns : rnd = .ns
  · obtain ⟨hshape, hgo⟩ := hn hns
    simp only [hns, hshape, hr, hgo, if_true, ne_eq, not_true_eq_false, if_false]
  · simp only [hns, hr, if_false, ne_eq, not_false_eq_true, if_true]

/-- A quantising store of a fibre's registers is accepted: under NS its bank suits it. -/
theorem execQstp_accepts {d : Reg}
    (hi : Issues s g f h { counts := true, unit := some .qstore
                           chks := Mem.chk m 1 ++ [.span d 32 4] ++ if rnd = .ns then bankChk g b else [] })
    (hn : rnd = .ns → (s.bankNow s.cur.g g b).shapeFault ty mx true = none)
    (hr : g.scratchFault (f.off m) (storeBytes 32 ty mx) 16 true = none) :
    execQstp h d m ty rnd sat b mx s = .next (went s (s.addOp g f (f.counter h)
      (.qstp ((List.range 32).map fun j => f.r (f.reg d + j)) (f.off m) ty rnd sat b mx) [] s.cur.g []
      [(f.off m, f.off m + storeBytes 32 ty mx)])) := by
  refine runWord_ok (g := g) (f := f) hi ?_
  have suits : (if rnd = .ns then (s.bankNow s.cur.g g b).shapeFault ty mx true else none) = none :=
    ite_eq_right_iff.2 hn
  simp only [suits, hr]

end

/-- Settles O27: each word by the branch of its operation that accepts it. -/
theorem banksIssue : Obligations.BanksIssue := by
  unfold Obligations.BanksIssue
  intro s g f h t m d a ty rnd sat mx axis wrap b len rows off now bank
  refine ⟨?qst, ?qstp, ?hdecl, ?hclr, fun hi => ⟨?hsave, ?hload⟩⟩
  case qst => exact fun hi hn hr => execQst_accepts hi hn hr
  case qstp => exact fun hi hn hr => execQstp_accepts hi hn hr
  case hdecl =>
    intro hi ho
    refine runWord_ok (i := .hdecl h b a len ty axis wrap mx rows) (g := g) (f := f) hi ?_
    simp only [ho]
  case hclr => exact fun hi => runWord_ok (i := .hclr h b) (g := g) (f := f) hi rfl
  case hsave =>
    intro hr
    refine runWord_ok (i := .hsave h b m) (g := g) (f := f) hi ?_
    simp only [show f.off m = off from rfl, hr]
  case hload =>
    intro hr ho
    refine runWord_ok (i := .hload h b m) (g := g) (f := f) hi ?_
    simp only [show f.off m = off from rfl, hr, ho, if_true]

/-! ### Sweeps -/

section

variable {i : Instr} {h : Hdr} {fn : SweepFn} {w : Sweep} {s : State} {g : Group} {f : Fibre}

/-- A sweep of no iteration only goes on (R28). -/
theorem sweepWord_empty (hc : w.count = 0#12) (hi : Issues s g f h { counts := true }) :
    Machine.sweepWord i h fn w s = .next (after s f) := by
  rw [Machine.sweepWord, runWord_ok (g := g) (f := f) (t := s) (by rw [sweepSpec, if_pos hc]; exact hi) (if_pos hc)]
  exact congrArg _ (updFibre_issues hi _)

/-- A sweep in whose operands R179 finds no fault is accepted. -/
theorem sweepWord_accepts (hc : w.count ≠ 0#12) {o : SweepOp}
    (ho : o = { fn, w, d := f.r w.d.toNat, a := f.r w.a.toNat, b := f.r w.b.toNat
                sel := f.p (w.opt.extractLsb' 0 4) != w.opt.getLsbD 4 }) (hf : o.fault g = none)
    (hi : Issues s g f h (sweepSpec fn w)) :
    Machine.sweepWord i h fn w s = .next (went s (s.addOp g f (f.counter h) (.sweep o) [] s.cur.g (o.readsA ++ o.readsB)
      o.writesD)) := by
  subst ho
  refine runWord_ok (g := g) (f := f) hi ?_
  simp only [hc, hf, if_false]

end

/-- Every instruction of the table is the sweep of its function. -/
theorem exec_sweeps {h : Hdr} {w : Sweep} {p : Instr × SweepFn} (hp : p ∈ sweeps h w) (s : State) :
    exec p.1 s = Machine.sweepWord p.1 h p.2 w s := by
  simp only [sweeps, List.mem_cons, List.not_mem_nil, or_false] at hp
  rcases hp with rfl | rfl | rfl | rfl | rfl | rfl | rfl | rfl | rfl | rfl | rfl | rfl | rfl | rfl | rfl | rfl | rfl | rfl <;>
    rfl

theorem sweepsIssue : sweepsIssuePart := by
  intro s g f h w p hp o
  refine ⟨fun hc hi => (exec_sweeps hp s).trans (sweepWord_empty hc hi), fun hc hf hi =>
    (exec_sweeps hp s).trans (sweepWord_accepts hc rfl hf ?_)⟩
  rwa [sweepSpec, if_neg hc]

/-! ### Iterations of sweeps -/

section

variable {s : State} {c : Nat} {o : Op} {w v : SweepOp} {x y : Group}

/-- An iteration that reads no error. -/
theorem sweepIterate_eq (hf : s.firstSweep c = some (o, w, x)) (he : ∀ r ∈ w.nextReads, x.eccFault r.1 r.2 = false)
    (hv : w.iterate x = (v, y)) : s.sweepIterate c =
      if v.done ≥ w.w.count.toNat then (s.setGroup o.fib.g y).land o 0 0 0 v.flags
      else (s.setGroup o.fib.g y).setOp { o with kind := .sweep v } := by
  have no_error : (w.nextReads.find? fun r => x.eccFault r.1 r.2) = none := by simpa using he
  simp only [State.sweepIterate, hf, no_error, hv]

/-- An iteration with others to come. -/
theorem sweepComplete_goesOn (hf : s.firstSweep c = some (o, w, x)) (he : ∀ r ∈ w.nextReads, x.eccFault r.1 r.2 = false)
    (hv : w.iterate x = (v, y)) (hl : v.done < w.w.count.toNat) :
    Runs (.sweepComplete c) s ((s.setGroup o.fib.g y).setOp { o with kind := .sweep v }) := by
  change Host.Outcome.next (s.sweepIterate c) = _
  rw [sweepIterate_eq hf he hv, if_neg (by omega)]

/-- The last iteration. -/
theorem sweepComplete_completes (hf : s.firstSweep c = some (o, w, x))
    (he : ∀ r ∈ w.nextReads, x.eccFault r.1 r.2 = false) (hv : w.iterate x = (v, y)) (hl : w.w.count.toNat ≤ v.done) :
    Runs (.sweepComplete c) s ((s.setGroup o.fib.g y).land o 0 0 0 v.flags) := by
  change Host.Outcome.next (s.sweepIterate c) = _
  rw [sweepIterate_eq hf he hv, if_pos hl]

end

theorem sweepIteration : sweepIterationPart := by
  intro s c o w x hf hr he r s1
  have hv : w.iterate x = ({ w with done := w.done + 1, flags := w.flags ||| r.2 }, x.scratchWrite (w.segD w.done) r.1) := by
    simp only [SweepOp.iterate, hr, Bool.false_eq_true, if_false, r]
  exact ⟨sweepComplete_completes hf he hv, sweepComplete_goesOn hf he hv⟩

theorem reduction : reductionPart := by
  intro s c o w x hf hr he n codes v r flags off old q z s1
  have iterate_eq : w.iterate x = w.reduceStep x := if_pos hr
  have inside (hn : (n + 1) % w.gsize ≠ 0) : w.iterate x = ({ w with done := n + 1, acc := r.1, flags }, x) := by
    simp only [iterate_eq, SweepOp.reduceStep, show ¬ (w.done + 1) % w.gsize = 0 from hn, ne_eq, not_false_eq_true,
      if_true]
    rfl
  have ends (hn : (n + 1) % w.gsize = 0) : w.iterate x =
      ({ w with done := n + 1, acc := r.1, flags := flags ||| q.2 ||| z.2 }, x.scratchWrite off (leBytes 4 z.1)) := by
    simp only [iterate_eq, SweepOp.reduceStep, show (w.done + 1) % w.gsize = 0 from hn, ne_eq, not_true_eq_false, if_false]
    rfl
  refine ⟨fun ht hfn => ?_, fun hn => sweepComplete_goesOn hf he (inside hn), fun hn => sweepComplete_goesOn hf he (ends hn),
    fun hn => sweepComplete_completes hf he (ends hn)⟩
  simp only [v, SweepOp.segTree, ht, hfn, if_false, if_true, List.sum_eq_foldl]

/-- Settles O24: acceptance, an iteration, and an iteration of a reduction. -/
theorem sweeps : Obligations.Sweeps := ⟨sweepsIssue, sweepIteration, reduction⟩

end Sys2Proof.Proofs
end

section
/-! SUPPORT. Outstanding NEAR accesses as they are performed (R47, R243, R246, R250), and the instruction that a step runs
(R23, R49, R56, R96, R101, R353). -/

namespace Sys2Proof.Proofs

open Sys2Proof Sys2Proof.Machine Sys2Proof.Safety Sys2Proof.Laws

/-! ### NEAR accesses -/

/-- COUNTED_COMPLETION of an operation that is outstanding. -/
theorem countedCompletion_runs {s : State} {o : Op} (ho : s.op? o.id = some o) :
    Runs (.countedCompletion o.id) s (s.complete o) := by
  change execCountedCompletion o.id s = _
  simp only [execCountedCompletion, ho]

/-- Settles O19: what completion performs, by the kind of the access. -/
theorem nearAccessesPerform : Obligations.NearAccessesPerform := by
  unfold Obligations.NearAccessesPerform
  intro s o off d n t op x y v r bs ho hh asid
  have runs := countedCompletion_runs ho
  refine ⟨fun hk => ?ld, fun hk => ?st, fun hk => ?land, fun hk => ?atom⟩
  case ld => simpa only [State.complete, hk, hh, State.performNear, Bool.false_eq_true, if_false] using runs
  case st => simpa only [State.complete, hk, hh, State.performNear, Bool.false_eq_true, if_false] using runs
  case land => simpa only [State.complete, hk, State.performNear] using runs
  case atom =>
    simp only [State.complete, hk, hh, State.performNear, State.sramAtomic, Bool.false_eq_true, if_false] at runs
    cases r <;> exact runs

/-! ### Turns -/

theorem step_instr {s t : State} {i : Instr} (h : s.turnNext = (some i, t)) : step s = endOutcome (exec i t) := by
  simp only [step, h]

theorem step_idle {s t : State} (h : s.turnNext = (none, t)) : step s = endOutcome (.next t) := by
  simp only [step, h, endOutcome]

theorem turnNext_issue {s : State} (h : s.turn = .issue) : s.turnNext = s.issueNext := by simp only [State.turnNext, h]

theorem turnNext_queue {s : State} (h : s.turn = .queue) : s.turnNext = s.queueNext := by simp only [State.turnNext, h]

theorem turnNext_slot {s : State} (h : s.turn = .slot) : s.turnNext = s.slotNext := by simp only [State.turnNext, h]

/-- A list of one value, once its repetitions are gone. -/
theorem eraseDups_eq_singleton {l : List Nat} {c : Nat} (hne : l ≠ []) (h : ∀ x ∈ l, x = c) : l.eraseDups = [c] := by
  cases l with
  | nil => exact absurd rfl hne
  | cons x l =>
    have hx : x = c := h x (by simp)
    have rest : (l.filter fun y => !y == x) = [] := by
      simpa [List.filter_eq_nil_iff, hx] using fun y hy => h y (by simp [hy])
    rw [List.eraseDups_cons, rest, hx]; rfl

/-- A first pick is one that is due on the core. -/
theorem due_of_firstPick {c n : Nat} {ps : List Pick} {p : Pick} (h : firstPick c n ps = some p) :
    ∃ q ∈ ps, q.core = c ∧ q.cyc ≤ n := by
  by_contra hno
  have empty : (ps.filter fun q => q.core == c && decide (q.cyc ≤ n)) = [] := by
    simpa [List.filter_eq_nil_iff] using hno
  rw [firstPick, empty] at h
  cases h

/-! ### The turn of a core -/

/-- The core that issues is the one whose burst goes on, or the only one with a fibre due. -/
theorem issueNext_picks {s : State} {p : Pick} {c : Nat} (hp : firstPick c s.cycle s.issue = some p)
    (hc : s.burst = some c ∨ (s.burst = none ∧ ∀ q ∈ s.issue, q.core = c)) :
    s.issueNext = ({ s with
      issue := s.issue.erase p, burst := (firstPick c s.cycle (s.issue.erase p)).map fun _ => c
      looked := if s.burst.isSome then s.looked else [] } : State).issuePick p := by
  have core : s.burst.getD ((((s.issue.filter fun q => decide (q.cyc ≤ s.cycle)).map (·.core)).eraseDups[s.choose 6
      ((s.issue.filter fun q => decide (q.cyc ≤ s.cycle)).map (·.core)).eraseDups.length]?).getD 0) = c := by
    rcases hc with hb | ⟨hb, hall⟩
    · rw [hb]; rfl
    · obtain ⟨q, hq, -, hdue⟩ := due_of_firstPick hp
      have due : q ∈ s.issue.filter fun q => decide (q.cyc ≤ s.cycle) := List.mem_filter.2 ⟨hq, by simpa using hdue⟩
      rw [eraseDups_eq_singleton (c := c) (List.ne_nil_of_mem (List.mem_map_of_mem due)) fun x hx => ?_, hb]
      · rfl
      · obtain ⟨r, hr, rfl⟩ := List.mem_map.1 hx
        exact hall r (List.mem_filter.1 hr).1
  simp only [State.issueNext, core, hp]

section

variable {s t s1 : State} {p : Pick} {g : Group} {f : Fibre} {w : IWord} {i : Instr}

/-- A fibre of a context whose record breaks R350 issues nothing. -/
theorem issuePick_badCtx (ht : { s with cur := p.fib, sheaf := p.sheaf } = t) (hg : t.group? p.fib.g = some g)
    (hf : g.fibre? p.fib.f = some f) (hc : t.ctxOk g.ctx = false) : s.issuePick p = (none, t) := by
  simp only [State.issuePick, ht, hg, hf, hc, Bool.not_false, Bool.or_true, if_true]

/-- The fibre picked issues the instruction that the word at its PC decodes to (R23, R49). -/
theorem issuePick_decodes (ht : { s with cur := p.fib, sheaf := p.sheaf } = t) (hg : t.group? p.fib.g = some g)
    (hf : g.fibre? p.fib.f = some f) (hm : mayIssue g f = true) (hc : t.ctxOk g.ctx = true) (ha : f.absent = none)
    (hs : f.stepping ≠ .issued) (hpc : f.pos.pc.toNat % 12 = 0)
    (hw : (t.firstIssue p.fib.g g).fetch g.coreOr0 g.ctx f.pos.pc = (.word w, s1)) (hd : decodeWord w = some i) :
    s.issuePick p = (some i, s1.updFibre p.fib fun v => { v with keeping := keepOf w p.sheaf }) := by
  simp only [State.issuePick, ht, hg, hf, hm, hc, ha, hs, hpc, hw, hd, Bool.not_true, Bool.or_self, Bool.false_eq_true,
    if_false, ne_eq, not_true_eq_false]

/-- A word at its PC that decodes to no instruction raises ILLEGAL_INSTR (R56). -/
theorem issuePick_illegal (ht : { s with cur := p.fib, sheaf := p.sheaf } = t) (hg : t.group? p.fib.g = some g)
    (hf : g.fibre? p.fib.f = some f) (hm : mayIssue g f = true) (hc : t.ctxOk g.ctx = true) (ha : f.absent = none)
    (hs : f.stepping ≠ .issued) (hpc : f.pos.pc.toNat % 12 = 0)
    (hw : (t.firstIssue p.fib.g g).fetch g.coreOr0 g.ctx f.pos.pc = (.word w, s1)) (hd : decodeWord w = none) :
    s.issuePick p = (none, s1.takeTrap p.fib .illegalInstr (w.extractLsb' 32 64)) := by
  simp only [State.issuePick, ht, hg, hf, hm, hc, ha, hs, hpc, hw, hd, Bool.not_true, Bool.or_self, Bool.false_eq_true,
    if_false, ne_eq, not_true_eq_false]

end

/-! ### The turn of a slot -/

/-- The one slot with an entry in progress performs it. -/
theorem slotNext_only {s : State} {k : Nat} (hk : s.slots.map (·.1) = [k]) (he : (s.headEntry k).isSome = true) :
    s.slotNext = (s.slotInstr k, { s with curSlot := k, unitLast := Tab.put (k / 8) k s.unitLast }) := by
  have unit : s.unitSlot (k / 8) = some k := by
    simp only [State.unitSlot, hk, List.filter_cons, he, beq_self_eq_true, Bool.and_self, if_true, List.filter_nil,
      List.find?_cons, List.head?_cons]
    split <;> rfl
  have units : ((([k].filter fun j => (s.headEntry j).isSome).map fun j => j / 8)).eraseDups = [k / 8] := by
    simp [he, List.eraseDups_cons]
  simp only [State.slotNext, hk, units]
  simp [State.choose, unit]

/-- Settles O56: what each agent's turn finds. -/
theorem stepRunsDecoded : Obligations.StepRunsDecoded := by
  unfold Obligations.StepRunsDecoded
  intro s s1 p g f w i k c
  refine ⟨?core, fun hturn hq => ?queue, fun hturn hk he hi => ?slot, fun hturn he => ?unit,
    fun rest hturn hin => ?input⟩
  case core =>
    intro hturn hp hb t hg hf hm
    have next := (turnNext_issue hturn).trans (issueNext_picks hp hb)
    refine ⟨fun hc => step_idle (next.trans (issuePick_badCtx rfl hg hf hc)), fun hc ha hs hpc hw => ?_⟩
    exact ⟨fun hd => step_instr (next.trans (issuePick_decodes rfl hg hf hm hc ha hs hpc hw hd)),
      fun hd => step_idle (next.trans (issuePick_illegal rfl hg hf hm hc ha hs hpc hw hd))⟩
  case queue => exact step_instr ((turnNext_queue hturn).trans hq)
  case slot => exact step_instr ((turnNext_slot hturn).trans ((slotNext_only hk he).trans (by rw [hi])))
  case unit =>
    refine step_instr ?_
    simp only [State.turnNext, hturn, he, Option.some.injEq]
  case input => exact step_instr (by simp only [State.turnNext, hturn, State.inputNext, hin])

end Sys2Proof.Proofs
end

section
/-! SUPPORT. Words of one register operation: compares, packed halves, conversions (R86, R87, R90 to R94, R149, R150), and
what such a word leaves unchanged (R79, R80, R95). -/

namespace Sys2Proof.Proofs

open Sys2Proof Sys2Proof.Machine Sys2Proof.Safety Sys2Proof.Laws

/-! ### Compares -/

/-- ICMP gives its predicate the relation of its operands. -/
theorem icmp_runs {s : State} {g : Group} {f : Fibre} {h : Hdr} {p : BitVec 4} {a b : Src} {t : Ty} (c : Cond) {v : Bool}
    (hi : Issues s g f h (operandsOf (Src.chk a t.regs ++ Src.chk b t.regs))) (hv : icmp c (f.rdI t a) (f.rdI t b) = v) :
    Runs (.icmp h p a b t c) s (after s (f.setP p v)) := by
  subst hv
  exact laneWord_issues hi

/-- Settles O9: ICMP relation by relation, FCMP and PLOP as words of their own fibre. -/
theorem compares : Obligations.Compares := by
  unfold Obligations.Compares
  intro s g f h p q r lut a b t c
  refine ⟨fun hi => ⟨?eq, ?ne, ?lt, ?le, ?gt, ?ge⟩, fun hi => laneWord_issues hi, fun hi => laneWord_issues hi⟩
  case eq => exact icmp_runs .eq hi rfl
  case ne => exact icmp_runs .ne hi (decide_not ..).symm
  case lt => exact icmp_runs .lt hi rfl
  case le => exact icmp_runs .le hi rfl
  case gt => exact icmp_runs .gt hi rfl
  case ge => exact icmp_runs .ge hi rfl

/-! ### Packed halves and conversions -/

/-- Both halves of a packed operation (R87). -/
theorem packed_eq (fn : Nat → Nat × BitVec 7) :
    packed fn = ((fn 0).1 + 65536 * (fn 1).1, (fn 0).2 ||| (fn 1).2) := rfl

/-- A packed word writes both halves, with the flags of both. -/
theorem packedWord_issues {i : Instr} {h : Hdr} {d : Reg} {x y : Src} {fn : Fibre → Nat → Nat × BitVec 7} {s : State}
    {g : Group} {f : Fibre} (hi : Issues s g f h (operandsOf (Src.chk x 1 ++ Src.chk y 1 ++ Reg.chk d 1))) :
    packedWord i h d x y fn s = .next (after s (f.result d 1
      ((fn f 0).1 + 65536 * (fn f 1).1, (fn f 0).2 ||| (fn f 1).2))) := by
  rw [← packed_eq]
  exact laneWord_issues hi

/-- CVTX quantises the block of A and writes its elements to D, then its scale to B (R94). -/
theorem execCvtx_issues {h : Hdr} {d a b : Reg} {t : Ty} {rnd : Rnd} {s : State} {g : Group} {f : Fibre}
    (hi : Issues s g f h (operandsOf [.span a 32 4, .lane b 1, .span d (blockRegs t) 4])) :
    let r := quantBlock t rnd (f.f32s (f.reg a) 32)
    execCvtx h d a b t rnd s = .next
      (after s (((f.wr d (blockRegs t) (packCodes t.width r.1)).wr b 1 r.2.1).addFlags r.2.2)) :=
  laneWord_issues (i := .cvtx h d a b t rnd) (u := fun f =>
    let r := quantBlock t rnd (f.f32s (f.reg a) 32)
    ((f.wr d (blockRegs t) (packCodes t.width r.1)).wr b 1 r.2.1).addFlags r.2.2) hi

/-- Settles O10: the packed words, CVT and CVTP as words of their own fibre, CVTX by its lemma. -/
theorem packedAndConversions : Obligations.PackedAndConversions := by
  unfold Obligations.PackedAndConversions
  intro s g f h d a b x y t t2 rnd sat hi bsel
  refine ⟨fun hp => ⟨?hadd2, ?hmul2, ?hfma2⟩, fun hc => ?cvt, fun hc => ?cvtp, fun hc => execCvtx_issues hc⟩
  case hadd2 => exact packedWord_issues hp
  case hmul2 => exact packedWord_issues hp
  case hfma2 => exact packedWord_issues hp
  case cvt => exact laneWord_issues hc
  case cvtp => exact laneWord_issues hc

/-! ### The frame of a register operation -/

/-- After a word on its own fibre's registers, the state differs in that fibre alone. -/
theorem after_issues {s : State} {g : Group} {f : Fibre} {h : Hdr} {w : WordSpec} (hi : Issues s g f h w) (v : Fibre) :
    after s v = s.setGroup s.cur.g (g.setFibre s.cur.f (v.advance s.cycle)) := by
  simp only [after, State.updFibre, State.updGroup, hi.group, Group.updFibre, hi.fibre]

/-- A result leaves every register outside its destination. -/
theorem result_r_other (f : Fibre) (d : Reg) (n : Nat) (x : Nat × BitVec 7) {k : Nat}
    (h : k < f.reg d ∨ f.reg d + n ≤ k) : (f.result d n x).r k = f.r k :=
  f.r_setN_other h

/-- A result gathers flags and clears none (R80). -/
theorem result_flags_gather (f : Fibre) (d : Reg) (n : Nat) (x : Nat × BitVec 7) {k : Nat}
    (h : f.flags.getLsbD k = true) : (f.result d n x).flags.getLsbD k = true := by
  simp [Fibre.result, Fibre.addFlags, Fibre.wr, h]

/-- Each word of the frame's statement is a word on two sources that writes a result to D. -/
theorem registerWord_runs {s : State} {g : Group} {f : Fibre} {h : Hdr} {d : Reg} {a b : Src} {t : Ty} {sat : Bool}
    {rnd : Rnd} (hi : Issues s g f h (needsAB d a b t)) {i : Instr}
    (hm : i ∈ [Instr.iadd h d a b t sat, .and h d a b t, .fadd h d a b t rnd sat, .fmax h d a b t]) :
    ∃ r, Runs i s (after s (f.result d t.regs r)) := by
  simp only [List.mem_cons, List.not_mem_nil, or_false] at hm
  rcases hm with rfl | rfl | rfl | rfl
  · exact ⟨intResult t sat (f.rdI t a + f.rdI t b), laneWord_issues hi⟩
  · exact ⟨(f.src t a &&& f.src t b, 0#7), laneWord_issues hi⟩
  · exact ⟨fadd t rnd sat (f.fsrc t a) (f.fsrc t b), laneWord_issues hi⟩
  · exact ⟨fminmax true t (f.fsrc t a) (f.fsrc t b), laneWord_issues hi⟩

/-- Settles O46: the state after the word is that of `after_issues`, whose fibre differs in its result and its advance. -/
theorem registerFrame : Obligations.RegisterFrame := by
  unfold Obligations.RegisterFrame
  intro s g f h d a b t sat rnd hi i hm
  obtain ⟨r, hr⟩ := registerWord_runs hi hm
  rw [after_issues hi] at hr
  refine ⟨_, _, _, hr, rfl, rfl, rfl, rfl, rfl, rfl, rfl, rfl, rfl, rfl, rfl, rfl, rfl, rfl, rfl,
    fun k hk => result_r_other f d _ r hk, fun k hk => result_flags_gather f d _ r hk, ?_⟩
  simp [Fibre.result, Fibre.wr]

end Sys2Proof.Proofs
end

section
/-! SUPPORT. The narrowing of exact integer results and division at its edges (R143, R144). -/

namespace Sys2Proof.Proofs

open Sys2Proof Sys2Proof.Machine

section

variable {t : Ty} {r a b : Int}

/-! ### The range of an integer type -/

theorem two_pow_width (hw : 0 < t.width) : 2 ^ t.width = 2 * 2 ^ (t.width - 1) := by
  rw [← pow_succ', Nat.sub_add_cancel hw]

/-- The least value is 0, or one further from zero than the greatest. -/
theorem minI_eq (t : Ty) : (t.isSigned = false ∧ Ty.minI t = 0) ∨ (t.isSigned = true ∧ Ty.minI t = -Ty.maxI t - 1) := by
  cases hs : t.isSigned
  · exact .inl ⟨rfl, by simp [Ty.minI, hs]⟩
  · exact .inr ⟨rfl, by simp [Ty.minI, Ty.maxI, hs]⟩

theorem maxI_nonneg (t : Ty) : 0 ≤ Ty.maxI t := by
  have := Nat.one_le_two_pow (n := t.width)
  have := Nat.one_le_two_pow (n := t.width - 1)
  unfold Ty.maxI
  split <;> omega

theorem minI_nonpos (t : Ty) : Ty.minI t ≤ 0 := by
  have := maxI_nonneg t
  rcases minI_eq t with ⟨-, h⟩ | ⟨-, h⟩ <;> omega

/-- The code of an integer is its residue modulo 2^w. -/
theorem ofI_cast (t : Ty) (r : Int) : (Ty.ofI t r : Int) = r % 2 ^ t.width := by
  have pos : (0 : Int) < 2 ^ t.width := by positivity
  simp only [Ty.ofI, Nat.cast_pow, Nat.cast_ofNat]
  exact Int.toNat_of_nonneg (Int.emod_nonneg _ pos.ne')

@[simp] theorem ofI_zero (t : Ty) : Ty.ofI t 0 = 0 := by simp [Ty.ofI]

/-- A value in range reads back from its code. -/
theorem toI_ofI (hw : 0 < t.width) (hlo : Ty.minI t ≤ r) (hhi : r ≤ Ty.maxI t) : Ty.toI t (Ty.ofI t r) = r := by
  have hc := ofI_cast t r
  have hu : Ty.ofI t r < 2 ^ t.width := by
    zify
    exact hc ▸ Int.emod_lt_of_pos _ (by positivity)
  have two : (2 : Int) ^ t.width = 2 * 2 ^ (t.width - 1) := mod_cast two_pow_width hw
  simp only [Ty.toI, Nat.mod_eq_of_lt hu]
  cases hs : t.isSigned
  · simp only [Ty.minI, Ty.maxI, hs, Bool.false_eq_true, if_false, false_and] at hlo hhi ⊢
    push_cast at hhi
    rw [hc, Int.emod_eq_of_lt hlo (by omega)]
  · simp only [Ty.minI, Ty.maxI, hs, if_true, true_and] at hlo hhi ⊢
    push_cast at hlo hhi
    by_cases hneg : r < 0
    · have wraps : r % 2 ^ t.width = r + 2 ^ t.width := by
        rw [← Int.add_emod_right, Int.emod_eq_of_lt (by omega) (by omega)]
      rw [if_pos (by zify; omega), hc, wraps]
      push_cast
      omega
    · have stays : r % 2 ^ t.width = r := Int.emod_eq_of_lt (by omega) (by omega)
      rw [if_neg (by zify; omega), hc, stays]

/-! ### Narrowing -/

theorem intResult_inRange (sat : Bool) (hlo : Ty.minI t ≤ r) (hhi : r ≤ Ty.maxI t) :
    intResult t sat r = (Ty.ofI t r, 0#7) := if_pos ⟨hlo, hhi⟩

theorem intResult_below (h : r < Ty.minI t) : intResult t true r = (Ty.ofI t (Ty.minI t), fSAT) := by
  rw [intResult, if_neg (by omega), if_pos rfl, if_pos h]

theorem intResult_above (h : Ty.maxI t < r) : intResult t true r = (Ty.ofI t (Ty.maxI t), fSAT) := by
  have := maxI_nonneg t
  have := minI_nonpos t
  rw [intResult, if_neg (by omega), if_pos rfl, if_neg (by omega)]

theorem intResult_wraps (h : r < Ty.minI t ∨ Ty.maxI t < r) : intResult t false r = (Ty.ofI t r, fIOV) := by
  rw [intResult, if_neg (by omega), if_neg Bool.false_ne_true]

theorem narrowing : narrowingPart := by
  intro t r _ hw
  have hw : 0 < t.width := by omega
  have bounds : Ty.minI t ≤ Ty.maxI t := (minI_nonpos t).trans (maxI_nonneg t)
  refine ⟨fun sat hlo hhi => ?_, fun h => ?_, fun h => ?_, fun h => ?_⟩
  · rw [intResult_inRange sat hlo hhi]
    exact ⟨toI_ofI hw hlo hhi, rfl⟩
  · rw [intResult_below h]
    exact ⟨toI_ofI hw le_rfl bounds, rfl⟩
  · rw [intResult_above h]
    exact ⟨toI_ofI hw bounds le_rfl, rfl⟩
  · rw [intResult_wraps h]
    exact ⟨ofI_cast t r, rfl⟩

/-! ### Division -/

theorem idivResult_zero (t : Ty) (sat : Bool) (a : Int) : idivResult t sat a 0 = (2 ^ t.width - 1, fIV) := if_pos rfl

theorem iremResult_zero (t : Ty) (a : Int) : iremResult t a 0 = (Ty.ofI t a, fIV) := if_pos rfl

/-- The one quotient that leaves the range of the type (R144). -/
theorem idivResult_overflow (sat : Bool) (hs : t.isSigned = true) : idivResult t sat (Ty.minI t) (-1) =
    if sat then (Ty.ofI t (Ty.maxI t), fSAT) else (Ty.ofI t (Ty.minI t), fIOV) := by
  rw [idivResult, if_neg (by decide), if_pos ⟨hs, rfl, rfl⟩]

theorem idivResult_quotient (sat : Bool) (hb : b ≠ 0) (ho : ¬ (a = Ty.minI t ∧ b = -1)) :
    idivResult t sat a b = (Ty.ofI t (a.tdiv b), 0#7) := by
  rw [idivResult, if_neg hb, if_neg fun h => ho h.2]

theorem iremResult_remainder (hb : b ≠ 0) : iremResult t a b = (Ty.ofI t (a - b * a.tdiv b), 0#7) := if_neg hb

/-- A quotient that does not overflow lies in the range of the type. -/
theorem tdiv_inRange (hal : Ty.minI t ≤ a) (hau : a ≤ Ty.maxI t) (hbl : Ty.minI t ≤ b) (hb : b ≠ 0)
    (ho : ¬ (a = Ty.minI t ∧ b = -1)) : Ty.minI t ≤ a.tdiv b ∧ a.tdiv b ≤ Ty.maxI t := by
  have pos := maxI_nonneg t
  have size : (a.tdiv b).natAbs ≤ a.natAbs := Int.natAbs_tdiv a b ▸ Nat.div_le_self ..
  rcases minI_eq t with ⟨-, hmin⟩ | ⟨-, hmin⟩
  · have : 0 ≤ a.tdiv b := Int.tdiv_nonneg (by omega) (by omega)
    omega
  · by_cases hone : b = 1 ∨ b = -1
    · rcases hone with rfl | rfl
      · rw [Int.tdiv_one]; omega
      · rw [Int.tdiv_neg, Int.tdiv_one]; omega
    · have half : (a.tdiv b).natAbs ≤ a.natAbs / 2 :=
        Int.natAbs_tdiv a b ▸ Nat.div_le_div_left (by omega) (by decide)
      omega

/-- A remainder lies in the range of the type: it is no further from zero than the dividend, on its side. -/
theorem remainder_inRange (hal : Ty.minI t ≤ a) (hau : a ≤ Ty.maxI t) :
    Ty.minI t ≤ a - b * a.tdiv b ∧ a - b * a.tdiv b ≤ Ty.maxI t := by
  have := maxI_nonneg t
  have := minI_nonpos t
  have size : (a.tmod b).natAbs ≤ a.natAbs := Int.natAbs_tmod a b ▸ Nat.mod_le ..
  rw [← Int.tmod_def]
  rcases le_total 0 a with ha | ha
  · have := Int.tmod_nonneg b ha
    omega
  · have : 0 ≤ (-a).tmod b := Int.tmod_nonneg b (by omega)
    rw [Int.neg_tmod] at this
    omega

theorem division : divisionPart := by
  intro t a b sat _ hw hal hau hbl _
  have hw : 0 < t.width := by omega
  have bounds : Ty.minI t ≤ Ty.maxI t := (minI_nonpos t).trans (maxI_nonneg t)
  refine ⟨?zero, ?overflow, ?quotient⟩
  case zero =>
    rintro rfl
    rw [idivResult_zero, iremResult_zero]
    exact ⟨rfl, toI_ofI hw hal hau, rfl⟩
  case overflow =>
    rintro hneg rfl rfl
    have hs : t.isSigned = true := by
      rcases minI_eq t with ⟨-, h⟩ | ⟨h, -⟩
      · omega
      · exact h
    rw [idivResult_overflow sat hs, iremResult_remainder (by decide),
      show Ty.minI t - -1 * (Ty.minI t).tdiv (-1) = 0 by rw [Int.tdiv_neg, Int.tdiv_one]; ring, ofI_zero]
    cases sat
    · exact ⟨toI_ofI hw le_rfl bounds, rfl, rfl⟩
    · exact ⟨toI_ofI hw bounds le_rfl, rfl, rfl⟩
  case quotient =>
    intro hb ho
    obtain ⟨hql, hqu⟩ := tdiv_inRange hal hau hbl hb ho
    obtain ⟨hrl, hru⟩ := remainder_inRange (b := b) hal hau
    rw [idivResult_quotient sat hb ho, iremResult_remainder hb]
    exact ⟨toI_ofI hw hql hqu, rfl, toI_ofI hw hrl hru, rfl⟩

end

end Sys2Proof.Proofs
end

section
/-! SUPPORT. Rounding to .f32, .f16 and .bf16 (R69, R75): a finite value as a multiple of a power of two, the truncated
multiple and its neighbour, and the code of a rounded multiple read back. -/

namespace Sys2Proof.Proofs

open Sys2Proof Sys2Proof.Machine

/-! ### Values as multiples of a power of two -/

/-- The magnitude of a value as a multiple of 2^e, for `e` at most its exponent. -/
def magAt (d : Dy) (e : Int) : Nat := d.m * 2 ^ (d.e - e).toNat

theorem scaled_eq (d : Dy) (e : Int) : d.scaled e = if d.neg then -(magAt d e : Int) else magAt d e := rfl

theorem natAbs_scaled (d : Dy) (e : Int) : (d.scaled e).natAbs = magAt d e := by
  rw [scaled_eq]
  split <;> omega

/-- Values of one sign lie as far apart as their magnitudes. -/
theorem natAbs_scaled_sub {d r : Dy} (h : r.neg = d.neg) (e : Int) :
    (d.scaled e - r.scaled e).natAbs = ((magAt d e : Int) - magAt r e).natAbs := by
  rw [scaled_eq, scaled_eq, h]
  split <;> omega

theorem scaled_inj {d r : Dy} (h : r.neg = d.neg) (e : Int) : d.scaled e = r.scaled e ↔ magAt d e = magAt r e := by
  rw [scaled_eq, scaled_eq, h]
  split <;> omega

theorem two_pow_toNat_add {x y z : Int} (hxy : x ≤ y) (hyz : y ≤ z) :
    2 ^ (z - x).toNat = 2 ^ (z - y).toNat * 2 ^ (y - x).toNat := by
  rw [← pow_add]
  congr 1
  omega

/-! ### Sums and products (R84) -/

theorem scaled_shift (d : Dy) {e q : Int} (he : e ≤ q) (hq : q ≤ d.e) :
    d.scaled e = d.scaled q * 2 ^ (q - e).toNat := by
  have shift : magAt d e = magAt d q * 2 ^ (q - e).toNat := by
    rw [magAt, magAt, two_pow_toNat_add he hq, mul_assoc]
  rw [scaled_eq, scaled_eq, shift]
  split <;> push_cast <;> ring

theorem scaled_ofScaled (k q e : Int) : (Dy.ofScaled k q).scaled e = k * 2 ^ (q - e).toNat := by
  rw [scaled_eq]
  simp only [Dy.ofScaled, magAt, decide_eq_true_eq, Nat.cast_mul, Nat.cast_pow, Nat.cast_ofNat, Int.natCast_natAbs]
  split
  · rw [abs_of_neg ‹_›]; ring
  · rw [abs_of_nonneg (by omega)]

theorem scaled_of_zero {d : Dy} (h : d.m = 0) (e : Int) : d.scaled e = 0 := by
  simp [scaled_eq, magAt, h]

/-- The sum is exact. -/
theorem scaled_add (x y : Dy) {e : Int} (he : e ≤ min x.e y.e) : (x.add y).scaled e = x.scaled e + y.scaled e := by
  unfold Dy.add
  split
  · next hz => rw [scaled_of_zero hz.1, scaled_of_zero hz.2, scaled_of_zero rfl, add_zero]
  · rw [scaled_ofScaled, scaled_shift x he (min_le_left ..), scaled_shift y he (min_le_right ..), add_mul]

theorem finishNum_fin (t : Ty) (rm : RM) (sat : Bool) (z : Dy) :
    finishNum t rm sat (.fin z, 0#7) = roundTo t rm sat (.fin z) := by
  simp [finishNum]

theorem fadd_fin {t : Ty} {a b : Nat} {x y : Dy} (rnd : Rnd) (sat : Bool) (hx : decodeNum t a = .fin x)
    (hy : decodeNum t b = .fin y) : fadd t rnd sat a b = roundTo t (Rnd.plain rnd) sat (.fin (x.add y)) := by
  rw [fadd, hx, hy]
  exact finishNum_fin ..

theorem fmul_fin {t : Ty} {a b : Nat} {x y : Dy} (rnd : Rnd) (sat : Bool) (hx : decodeNum t a = .fin x)
    (hy : decodeNum t b = .fin y) : fmul t rnd sat a b = roundTo t (Rnd.plain rnd) sat (.fin (x.mul y)) := by
  rw [fmul, hx, hy]
  exact finishNum_fin ..

/-! ### Truncation and its neighbour -/

/-- Truncation to a multiple of 2^q: multiple, remainder and divisor, in units of a common power 2^e. -/
theorem quot_spec (d : Dy) {q e : Int} (hd : e ≤ d.e) (hq : e ≤ q) {k r h : Nat} (hk : d.quot q = (k, r, h)) :
    r < h ∧ ∃ v, 0 < v ∧ 2 ^ (q - e).toNat = h * v ∧ magAt d e = (k * h + r) * v := by
  unfold Dy.quot at hk
  split at hk
  · next hge =>
    cases hk
    refine ⟨one_pos, 2 ^ (q - e).toNat, by positivity, (one_mul _).symm, ?_⟩
    rw [magAt, two_pow_toNat_add hq hge, mul_one, add_zero, mul_assoc]
  · next hlt =>
    cases hk
    refine ⟨Nat.mod_lt _ (by positivity), 2 ^ (d.e - e).toNat, by positivity, two_pow_toNat_add hd (by omega), ?_⟩
    rw [Nat.div_add_mod', magAt]

/-- Rounding takes the truncated multiple, or the next one where it is inexact and steps up. -/
theorem roundAt_of_quot {d : Dy} {q : Int} {k r h : Nat} (hk : d.quot q = (k, r, h)) (rm : RM) :
    ∃ up : Bool, d.roundAt q rm = (if r ≠ 0 ∧ up then k + 1 else k, decide (r ≠ 0)) :=
  ⟨_, by rw [Dy.roundAt, hk]⟩

section

variable {d : Dy} {q e : Int} (hd : e ≤ d.e) (hq : e ≤ q)
include hd hq

/-- Truncation lies within one multiple below. -/
theorem quot_floor : (d.quot q).1 * 2 ^ (q - e).toNat ≤ magAt d e ∧
    magAt d e < ((d.quot q).1 + 1) * 2 ^ (q - e).toNat := by
  obtain ⟨k, r, h, hk⟩ : ∃ k r h, d.quot q = (k, r, h) := ⟨_, _, _, rfl⟩
  obtain ⟨hr, v, hv, hu, hm⟩ := quot_spec d hd hq hk
  simp only [hk, hu, hm, ← mul_assoc]
  exact ⟨Nat.mul_le_mul_right v (by omega), Nat.mul_lt_mul_of_pos_right (by rw [add_one_mul]; omega) hv⟩

/-- Rounding is exact where the value is the multiple it comes to. -/
theorem roundAt_exact (rm : RM) : (d.roundAt q rm).2 = false ↔ magAt d e = (d.roundAt q rm).1 * 2 ^ (q - e).toNat := by
  obtain ⟨k, r, h, hk⟩ : ∃ k r h, d.quot q = (k, r, h) := ⟨_, _, _, rfl⟩
  obtain ⟨hr, v, hv, hu, hm⟩ := quot_spec d hd hq hk
  obtain ⟨up, hup⟩ := roundAt_of_quot hk rm
  simp only [hup, hu, hm, ← mul_assoc, Nat.mul_left_inj hv.ne', decide_eq_false_iff_not, not_not]
  split
  · next hup => rw [add_one_mul]; omega
  · omega

/-- To nearest: within half a multiple. -/
theorem roundAt_rne : 2 * ((magAt d e : Int) - ((d.roundAt q .rne).1 * 2 ^ (q - e).toNat : Nat)).natAbs ≤
    2 ^ (q - e).toNat := by
  obtain ⟨k, r, h, hk⟩ : ∃ k r h, d.quot q = (k, r, h) := ⟨_, _, _, rfl⟩
  obtain ⟨hr, v, hv, hu, hm⟩ := quot_spec d hd hq hk
  have hrv : r * v < h * v := Nat.mul_lt_mul_of_pos_right hr hv
  rw [hu, hm, ← mul_assoc]
  simp only [Dy.roundAt, hk, Bool.or_eq_true, Bool.and_eq_true, decide_eq_true_eq, beq_iff_eq]
  split
  · next hup =>
    have : h * v ≤ 2 * (r * v) := by
      rw [← mul_assoc]; exact Nat.mul_le_mul_right v (by omega)
    rw [add_mul, add_mul, add_mul, one_mul]
    omega
  · next hdown =>
    have : 2 * (r * v) ≤ h * v := by
      rw [← mul_assoc]; exact Nat.mul_le_mul_right v (by omega)
    rw [add_mul]
    omega

end

/-- Any rounding takes the truncated multiple or the next one. -/
theorem roundAt_near (d : Dy) (q : Int) (rm : RM) :
    (d.roundAt q rm).1 = (d.quot q).1 ∨ (d.roundAt q rm).1 = (d.quot q).1 + 1 := by
  obtain ⟨up, hup⟩ := roundAt_of_quot (d := d) (q := q) rfl rm
  rw [hup]
  exact (ite_eq_or_eq ..).symm

theorem roundAt_rz (d : Dy) (q : Int) : (d.roundAt q .rz).1 = (d.quot q).1 := by simp [Dy.roundAt]

/-! ### Codes of a rounded multiple -/

/-- The magnitude code of k × 2^q (R67). -/
def expMag (t : Ty) (q : Int) (k : Nat) : Nat :=
  if k < 2 ^ Ty.frac t then k
  else (q + Ty.frac t - Ty.emin t + 1).toNat * 2 ^ Ty.frac t + (k - 2 ^ Ty.frac t)

theorem nx_clear_iff (inexact tiny : Bool) :
    (flagIf inexact fNX ||| flagIf tiny fUF) &&& fNX = 0#7 ↔ inexact = false := by
  revert inexact tiny
  decide

/-- Where rounding neither overflows nor saturates: the code, and NX exactly where it is inexact. -/
theorem roundExp_inRange {t : Ty} {rm : RM} {sat : Bool} {d : Dy}
    (h : (roundExp t rm sat d).2 &&& (fOF ||| fSAT) = 0#7) :
    let k := d.roundAt (Ty.lastPlace t d) rm
    let mag := expMag t (Ty.lastPlace t d) k.1
    mag ≤ Ty.maxCode t ∧ (roundExp t rm sat d).1 = (if d.neg then Ty.signBit t else 0) + mag ∧
      ((roundExp t rm sat d).2 &&& fNX = 0#7 ↔ k.2 = false) := by
  intro k mag
  have unfolded : roundExp t rm sat d = if mag > Ty.maxCode t then
      if ¬ Ty.hasInf t ∨ sat then ((if d.neg then Ty.signBit t else 0) + Ty.maxCode t, fSAT ||| fNX)
      else ((if d.neg then Ty.signBit t else 0) + (if rm = .rz then Ty.maxCode t else Ty.maxCode t + 1), fOF ||| fNX)
    else ((if d.neg then Ty.signBit t else 0) + mag, flagIf k.2 fNX |||
      flagIf (k.2 && if t.isFloat then Ty.tinyAfter t d rm else Ty.tinyBefore t d) fUF) := rfl
  rw [unfolded] at h ⊢
  split
  · next hbig =>
    rw [if_pos hbig] at h
    split at h
    · exact absurd (show (fSAT ||| fNX) &&& (fOF ||| fSAT) = 0#7 from h) (by decide)
    · exact absurd (show (fOF ||| fNX) &&& (fOF ||| fSAT) = 0#7 from h) (by decide)
  · next hfits => exact ⟨Nat.le_of_not_lt hfits, rfl, nx_clear_iff ..⟩

/-- A magnitude code up to the largest, with its sign, read back (R67). -/
theorem decodeNum_code {t : Ty} (ht : t.isFloat = true) (neg : Bool) {mag : Nat} (h : mag ≤ Ty.maxCode t) :
    decodeNum t ((if neg then Ty.signBit t else 0) + mag) =
      if mag / 2 ^ Ty.frac t = 0 then .fin ⟨neg, mag, Ty.emin t - Ty.frac t⟩
      else .fin ⟨neg, 2 ^ Ty.frac t + mag % 2 ^ Ty.frac t, Ty.emin t - Ty.frac t + (mag / 2 ^ Ty.frac t - 1 : Nat)⟩ := by
  have sign : 0 < Ty.signBit t ∧ 2 ^ t.width = 2 * Ty.signBit t ∧ Ty.maxCode t < Ty.signBit t := by
    cases t with
    | f32 | f16 | bf16 => decide
    | _ => cases ht
  obtain ⟨pos, top, below⟩ := sign
  have code : ((if neg then Ty.signBit t else 0) + mag) % 2 ^ t.width = (if neg then Ty.signBit t else 0) + mag :=
    Nat.mod_eq_of_lt (by split <;> omega)
  have isNeg : decide ((if neg then Ty.signBit t else 0) + mag ≥ Ty.signBit t) = neg := by
    cases neg
    · simp; omega
    · simp
  have mags : ((if neg then Ty.signBit t else 0) + mag) % Ty.signBit t = mag := by
    cases neg <;> simp [Nat.mod_eq_of_lt (show mag < Ty.signBit t by omega)]
  have nan : ¬ mag > Ty.maxCode t := by omega
  cases t with
  | f32 | f16 | bf16 => simp only [decodeNum, code, isNeg, mags, nan, if_false]
  | _ => cases ht

theorem lastPlace_ge (t : Ty) (d : Dy) : Ty.emin t - Ty.frac t ≤ Ty.lastPlace t d := by
  unfold Ty.lastPlace
  split <;> omega

/-- The truncated multiple of the last place has at most the digits of the format, and all of them above the least
exponent. -/
theorem quot_lastPlace (t : Ty) (d : Dy) : (d.quot (Ty.lastPlace t d)).1 < 2 ^ (Ty.frac t + 1) ∧
    (Ty.emin t - Ty.frac t < Ty.lastPlace t d → 2 ^ Ty.frac t ≤ (d.quot (Ty.lastPlace t d)).1) := by
  generalize hq : Ty.lastPlace t d = q
  obtain ⟨hlo, hhi⟩ := quot_floor (d := d) (q := q) (e := min d.e q) (min_le_left ..) (min_le_right ..)
  have unit : 0 < 2 ^ (q - min d.e q).toNat := by positivity
  unfold Ty.lastPlace at hq
  split at hq
  · next hm =>
    have : (d.quot q).1 = 0 := by
      rw [magAt, hm, zero_mul, Nat.le_zero, mul_eq_zero] at hlo
      omega
    exact ⟨this ▸ by positivity, fun h => by omega⟩
  · next hm =>
    have top : magAt d (min d.e q) < 2 ^ (Ty.frac t + 1) * 2 ^ (q - min d.e q).toNat :=
      calc magAt d (min d.e q) < 2 ^ (d.m.log2 + 1) * 2 ^ (d.e - min d.e q).toNat :=
            Nat.mul_lt_mul_of_pos_right Nat.lt_log2_self (by positivity)
        _ = 2 ^ (d.m.log2 + 1 + (d.e - min d.e q).toNat) := (pow_add ..).symm
        _ ≤ 2 ^ (Ty.frac t + 1 + (q - min d.e q).toNat) :=
            Nat.pow_le_pow_right two_pos (by simp only [Dy.log2] at hq; omega)
        _ = 2 ^ (Ty.frac t + 1) * 2 ^ (q - min d.e q).toNat := pow_add ..
    refine ⟨Nat.lt_of_mul_lt_mul_right (hlo.trans_lt top), fun hmin => ?_⟩
    have bottom : 2 ^ Ty.frac t * 2 ^ (q - min d.e q).toNat ≤ magAt d (min d.e q) :=
      calc 2 ^ Ty.frac t * 2 ^ (q - min d.e q).toNat = 2 ^ (Ty.frac t + (q - min d.e q).toNat) := (pow_add ..).symm
        _ ≤ 2 ^ (d.m.log2 + (d.e - min d.e q).toNat) :=
            Nat.pow_le_pow_right two_pos (by simp only [Dy.log2] at hq; omega)
        _ = 2 ^ d.m.log2 * 2 ^ (d.e - min d.e q).toNat := pow_add ..
        _ ≤ magAt d (min d.e q) := Nat.mul_le_mul_right _ (Nat.log2_self_le hm)
    exact Nat.lt_succ_iff.1 (Nat.lt_of_mul_lt_mul_right (bottom.trans_lt hhi))

/-- The code of k × 2^q reads back as a value of that magnitude, also where k carries into the next binade. -/
theorem decodeNum_expMag {t : Ty} (ht : t.isFloat = true) (neg : Bool) {q e : Int} {k : Nat} {r : Dy}
    (hq : Ty.emin t - Ty.frac t ≤ q) (hk : k ≤ 2 ^ (Ty.frac t + 1))
    (hmin : k < 2 ^ Ty.frac t → q = Ty.emin t - Ty.frac t) (hfit : expMag t q k ≤ Ty.maxCode t)
    (hr : decodeNum t ((if neg then Ty.signBit t else 0) + expMag t q k) = .fin r) (heq : e ≤ q) (her : e ≤ r.e) :
    r.neg = neg ∧ magAt r e = k * 2 ^ (q - e).toNat := by
  rw [decodeNum_code ht neg hfit] at hr
  have pos : 0 < 2 ^ Ty.frac t := by positivity
  by_cases hsub : k < 2 ^ Ty.frac t
  · rw [expMag, if_pos hsub, Nat.div_eq_of_lt hsub, if_pos rfl] at hr
    cases hr
    exact ⟨rfl, by rw [magAt, hmin hsub]⟩
  · rw [pow_succ] at hk
    obtain ⟨E, hE⟩ : ∃ E : Nat, q = Ty.emin t - Ty.frac t + E := ⟨(q - (Ty.emin t - Ty.frac t)).toNat, by omega⟩
    have mag : expMag t q k = (k - 2 ^ Ty.frac t) + 2 ^ Ty.frac t * (E + 1) := by
      rw [expMag, if_neg hsub, show (q + Ty.frac t - Ty.emin t + 1).toNat = E + 1 by omega]
      ring
    have normal (x : Nat) : ¬ x + (E + 1) = 0 := by omega
    rw [mag, Nat.add_mul_div_left _ _ pos, Nat.add_mul_mod_self_left, if_neg (normal _)] at hr
    rcases Nat.lt_or_eq_of_le hk with hlt | hcarry
    · rw [Nat.div_eq_of_lt (by omega), Nat.mod_eq_of_lt (by omega)] at hr
      cases hr
      refine ⟨rfl, ?_⟩
      simp only [magAt, hE]
      congr 2 <;> omega
    · rw [show k - 2 ^ Ty.frac t = 2 ^ Ty.frac t by omega, Nat.div_self pos, Nat.mod_self] at hr
      cases hr
      refine ⟨rfl, ?_⟩
      simp only [magAt, hE, hcarry, mul_assoc, ← pow_succ']
      congr 2
      omega

/-! ### Rounding -/

theorem roundTo_fin {t : Ty} (ht : t.isFloat = true) (rm : RM) (sat : Bool) (d : Dy) :
    roundTo t rm sat (.fin d) = roundExp t rm sat d := by
  cases t with
  | f32 | f16 | bf16 => rfl
  | _ => cases ht

/-- A rounded value that neither overflows nor saturates has the sign of the exact one, and is the multiple of the last
place that the rounding chose. -/
theorem roundTo_inRange {t : Ty} (ht : t.isFloat = true) {rm : RM} {sat : Bool} {d r : Dy} {e : Int}
    (hr : decodeNum t (roundTo t rm sat (.fin d)).1 = .fin r)
    (hf : (roundTo t rm sat (.fin d)).2 &&& (fOF ||| fSAT) = 0#7) (heq : e ≤ Ty.lastPlace t d) (her : e ≤ r.e) :
    r.neg = d.neg ∧
      magAt r e = (d.roundAt (Ty.lastPlace t d) rm).1 * 2 ^ (Ty.lastPlace t d - e).toNat ∧
      ((roundTo t rm sat (.fin d)).2 &&& fNX = 0#7 ↔ (d.roundAt (Ty.lastPlace t d) rm).2 = false) := by
  rw [roundTo_fin ht] at hr hf ⊢
  obtain ⟨hfit, hcode, hnx⟩ := roundExp_inRange hf
  obtain ⟨hdig, hfull⟩ := quot_lastPlace t d
  have near := roundAt_near d (Ty.lastPlace t d) rm
  have least := lastPlace_ge t d
  obtain ⟨hneg, hmag⟩ := decodeNum_expMag ht d.neg least (by omega) (fun hk => by omega) hfit (hcode ▸ hr) heq her
  exact ⟨hneg, hmag, hnx⟩

theorem rounding : roundingPart := by
  intro t sat rnd d r x y a b ht
  have ht : t.isFloat = true := by rcases ht with rfl | rfl | rfl <;> rfl
  refine ⟨?_, fun hx hy => ⟨⟨_, fadd_fin rnd sat hx hy, fun e he => scaled_add x y he⟩,
    ⟨_, fmul_fin rnd sat hx hy, rfl, rfl, rfl⟩⟩⟩
  intro c hr hf e ulp
  have hd : e ≤ d.e := (min_le_left ..).trans (min_le_left ..)
  have hre : e ≤ r.e := (min_le_left ..).trans (min_le_right ..)
  have hq : e ≤ Ty.lastPlace t d := min_le_right ..
  have hulp : ulp.natAbs = 2 ^ (Ty.lastPlace t d - e).toNat := by simp [ulp, Int.natAbs_pow]
  obtain ⟨hneg, hmag, hnx⟩ : _ ∧ _ ∧ (c.2 &&& fNX = 0#7 ↔ _) := roundTo_inRange ht hr hf hq hre
  rw [natAbs_scaled_sub hneg, natAbs_scaled, natAbs_scaled, scaled_inj hneg, hulp, hnx, hmag]
  refine ⟨fun hrne => ?_, fun hrz => ?_, roundAt_exact hd hq _⟩
  · rw [hrne]
    exact roundAt_rne hd hq
  · obtain ⟨hlo, hhi⟩ := quot_floor hd hq
    rw [hrz, roundAt_rz]
    rw [add_one_mul] at hhi
    omega

/-- Settles O3: narrowing and division by the range of the type, rounding by the multiple of the last place. -/
theorem integerNarrowing : Obligations.IntegerNarrowing := ⟨narrowing, division, rounding⟩

end Sys2Proof.Proofs
end

section
/-! SUPPORT. Loads, stores and atomics on NEAR and PEER pages and through pod windows, as they issue (R103, R243 to R249, R313
to R319, R326). -/

namespace Sys2Proof.Proofs

open Sys2Proof Sys2Proof.Machine Sys2Proof.Safety Sys2Proof.Laws

/-! ### Accesses and requests -/

/-- An access that finds its page, on a tier that it may use. -/
theorem access_found {s s1 : State} {g : Group} {va : Dword} {n acc : Nat} {rd wr : Bool} {p : Page} {tiers : Tier → Bool}
    (hf : Found s g va n rd wr p s1) (hr : acc % 2 = 1 → rd = true) (hw : acc / 2 % 2 = 1 → wr = true)
    (ht : tiers p.tier = true) : s.access g va n acc tiers = .inr (p, s1) :=
  access_ok hf.aligned hf.below hf.mapped (fun h => hf.readable (hr h)) (fun h => hf.writable (hw h)) ht

/-- A window that lets an access in passes its checks. -/
theorem winCheck_opened {s s1 : State} {g : Group} {hn off n al : Nat} {step : Bool} {w : OutWin}
    (ho : Opened s g hn off n al step w s1) : s.winCheck g hn off n al step = .inr (w, s1) :=
  winCheck_ok ho.entry ho.aligned ho.works ho.mode ho.bounds ho.enabled

section

variable {i : Instr} {h : Hdr} {w : Group → Fibre → WordSpec} {body : Group → Fibre → State → Res} {s t : State} {g : Group}
  {f : Fibre} {r : PeerReq} {dst : List Nat} {nodrain : Bool} {used : List (Nat × Nat)}

/-- A word that asks a peer and waits for the response. -/
theorem runWord_asked (hi : Issues s g f h (w g f))
    (hb : body g f s = peerIssue g f (f.counter h) r dst true t (used := used)) :
    runWord i h w body s = .next (asked s t g f h r dst used) :=
  runWord_keep hi hb

/-- A word that sends to a peer: its request takes no room, finds room, or waits for it. -/
theorem sends_of_peerIssue (hx : exec i s = runWord i h w body s) (hi : Issues s g f h (w g f)) (hr : r.room = none)
    (hb : body g f s = peerIssue g f (f.counter h) r [] false t nodrain used) : Sends i s t g f h r nodrain used := by
  have unplaced : ({ r with room := none } : PeerReq) = r := by cases r; cases hr; rfl
  refine ⟨fun hno => ?_, fun q hroom hq => ?_, fun hroom hq => ?_⟩
  · refine hx.trans (runWord_ok hi (hb.trans ?_))
    simp only [peerIssue, State.withRoom, hno, unplaced, Bool.false_and, Bool.false_eq_true, if_false]
  · have taken : t.takesRoom { r with room := some q } = true := hroom
    refine hx.trans (runWord_ok hi (hb.trans ?_))
    simp only [peerIssue, State.withRoom, hroom, hq, taken, if_true, Option.isNone_some, Bool.and_false, Bool.false_eq_true,
      if_false]
  · refine hx.trans (runWord_keep hi (hb.trans ?_))
    simp only [peerIssue, State.withRoom, hroom, hq, unplaced, hr, if_true, Option.isNone_none, Bool.and_true,
      Bool.false_eq_true, if_false]

end

/-! ### NEAR pages -/

section

variable {g : Group} {f : Fibre} {k : Option (BitVec 4)} {off d : Nat} {va x y : Dword} {op : AtomOp} {t : Ty} {s : State}

/-- A load performed as it issues raises DATA_ERROR where what it returns holds an error. -/
theorem loadAtOnce_bad (ho : s.ownPending s.cur f.inc off (t.width / 8) = false)
    (hb : (s.cacheRead g.coreOr0 (s.ctx g.ctx).asid off (t.width / 8)).2.nearBad g.coreOr0 (s.ctx g.ctx).asid off
      (t.width / 8) = true) : loadAtOnce g f off va t d s =
      .trap (s.cacheRead g.coreOr0 (s.ctx g.ctx).asid off (t.width / 8)).2 .dataError va := by
  simp only [loadAtOnce, Ty.bytes, ho, hb, Bool.false_eq_true, if_false, if_true]

/-- Else it lands. -/
theorem loadAtOnce_lands (ho : s.ownPending s.cur f.inc off (t.width / 8) = false)
    (hb : (s.cacheRead g.coreOr0 (s.ctx g.ctx).asid off (t.width / 8)).2.nearBad g.coreOr0 (s.ctx g.ctx).asid off
      (t.width / 8) = false) : loadAtOnce g f off va t d s =
      .ok ((s.cacheRead g.coreOr0 (s.ctx g.ctx).asid off (t.width / 8)).2.updFibre s.cur fun v =>
        v.setN d t.regs (loadValue t (s.cacheRead g.coreOr0 (s.ctx g.ctx).asid off (t.width / 8)).1)) := by
  simp only [loadAtOnce, Ty.bytes, ho, hb, Bool.false_eq_true, if_false]

/-- An atomic performed as it issues raises DATA_ERROR where the shared SRAM holds an error. -/
theorem atomAtOnce_bad (ho : s.ownPending s.cur f.inc off (t.width / 8) = false)
    (hb : s.sramBad g.coreOr0 (s.ctx g.ctx).asid off (t.width / 8) = true) : atomAtOnce g f k off va op t x y d s =
      .trap (s.dropLine g.coreOr0 (s.ctx g.ctx).asid off) .dataError va := by
  simp only [atomAtOnce, Ty.bytes, ho, hb, Bool.false_eq_true, if_false, if_true]

/-- Else it is performed and lands. -/
theorem atomAtOnce_lands (ho : s.ownPending s.cur f.inc off (t.width / 8) = false)
    (hb : s.sramBad g.coreOr0 (s.ctx g.ctx).asid off (t.width / 8) = false) : atomAtOnce g f k off va op t x y d s =
      let r := s.sramAtomic g.coreOr0 (s.ctx g.ctx).asid off op t x y
      .ok (r.2.2.updFibre s.cur fun v => (v.setN d t.regs r.1).lateFlags k r.2.1) := by
  simp only [atomAtOnce, Ty.bytes, ho, hb, Bool.false_eq_true, if_false]

end

section

variable {h : Hdr} {d : Reg} {m : Mem} {t : Ty} {op : AtomOp} {s s1 : State} {g : Group} {f : Fibre} {p : Page}

/-- A load from a NEAR page does what the bytes there allow. -/
theorem execLd_near (hi : Issues s g f h { counts := true, chks := Mem.chk m 2 ++ Reg.chk d t.regs }) (hp : p.tier = .near)
    (hf : Found s g (f.va m) (t.width / 8) true false p s1) :
    execLd h d m t s = .next ((if s1.nearErr (s1.nearOff p (f.va m)) (t.width / 8) then
        loadAtOnce g f (s1.nearOff p (f.va m)) (f.va m) t (f.reg d) s1
      else .ok (s1.addOp g f (f.counter h) (.ld (s1.nearOff p (f.va m)) t (f.reg d)) (regRange (f.reg d) t.regs)
        (used := [p.span (f.va m)]))).commit s.cur s.cycle) := by
  have acc : s.access g (f.va m) (Ty.bytes t) accRead nearOrPeer = .inr (p, s1) :=
    access_found hf (fun _ => rfl) (by decide) (by rw [hp]; rfl)
  rw [execLd, runWord_issues (g := g) (f := f) hi]
  simp only [acc, hp, if_true]
  rfl

/-- An atomic on a NEAR page does what the bytes there allow. -/
theorem atomWord_near {i : Instr} {ret : Bool}
    (hi : Issues s g f h { counts := true, chks := Mem.chk m 2 ++ Reg.chk d (op.regs t) }) (hp : p.tier = .near)
    (hf : Found s g (f.va m) (t.width / 8) true true p s1) :
    atomWord i h d m t op ret s = .next ((if ret && s1.nearErr (s1.nearOff p (f.va m)) (t.width / 8) then
        atomAtOnce g f (f.counter h) (s1.nearOff p (f.va m)) (f.va m) op t (f.atomArgs op t d).1 (f.atomArgs op t d).2
          (f.reg d) s1
      else .ok (s1.addOp g f (f.counter h) (.atom (s1.nearOff p (f.va m)) op t (f.atomArgs op t d).1 (f.atomArgs op t d).2
        (if ret then some (f.reg d) else none)) (if ret then regRange (f.reg d) t.regs else [])
        (used := [p.span (f.va m)]))).commit s.cur s.cycle) := by
  have acc : s.access g (f.va m) (Ty.bytes t) accAtomic nearOrPeer = .inr (p, s1) :=
    access_found hf (fun _ => rfl) (fun _ => rfl) (by rw [hp]; rfl)
  rw [atomWord, runWord_issues (g := g) (f := f) hi]
  simp only [acc, hp, if_true]
  rfl

end

theorem nearIssue : nearIssuePart := by
  intro s s1 g f h d m t op p va n off asid op_ hn hp
  refine ⟨fun hi => ⟨fun hf => ?ld, fun hf => ?st⟩, fun hi hf => ?atomic⟩
  case ld =>
    have runs := execLd_near hi hp hf
    refine ⟨fun he => runs.trans (by rw [if_neg (by simpa using he)]; rfl), fun he hown => ?_⟩
    rw [if_pos he] at runs
    intro r
    refine ⟨fun hbad => runs.trans ?_, fun hbad => runs.trans ?_⟩
    · rw [loadAtOnce_bad hown hbad]; rfl
    · rw [loadAtOnce_lands hown hbad]; rfl
  case st =>
    have acc : s.access g va (Ty.bytes t) accWrite nearOrPeer = .inr (p, s1) :=
      access_found hf (by decide) (fun _ => rfl) (by rw [hp]; rfl)
    refine runWord_ok (i := .st h d m t) (g := g) (f := f) hi ?_
    simp only [show f.va m = va from rfl, acc, hp, if_true]
    rfl
  case atomic =>
    intro x y
    have runs := atomWord_near (i := .atom h d m t op) (ret := true) hi hp hf
    refine ⟨fun he => runs.trans (by rw [if_neg (by simpa using he)]; rfl), fun he hown => ?_,
      (atomWord_near (i := .red h d m t op) (ret := false) hi hp hf).trans (by rw [if_neg (by simp)]; rfl)⟩
    rw [if_pos (by simpa using he)] at runs
    intro s2 old new
    refine ⟨fun hbad => runs.trans ?_, fun hbad => runs.trans ?_⟩
    · rw [atomAtOnce_bad hown hbad]; rfl
    · rw [atomAtOnce_lands hown hbad]; rfl

/-! ### PEER pages and PROBE -/

section

variable {h : Hdr} {d : Reg} {m : Mem} {t : Ty} {op : AtomOp} {s s1 : State} {g : Group} {f : Fibre} {p : Page}

/-- LD on a PEER page asks, ST sends. -/
theorem peerPage_moves (hi : Issues s g f h { counts := true, chks := Mem.chk m 2 ++ Reg.chk d t.regs })
    (hp : p.tier = .peer) :
    (Found s g (f.va m) (t.width / 8) true false p s1 → Runs (.ld h d m t) s
      (asked s s1 g f h (pageReq p (f.va m) (.read t (f.reg d))) (regRange (f.reg d) t.regs) [p.span (f.va m)])) ∧
    (Found s g (f.va m) (t.width / 8) false true p s1 → Sends (.st h d m t) s s1 g f h
      (pageReq p (f.va m) (.write (leBytes (t.width / 8) (f.rN (f.reg d) t.regs)))) false [p.span (f.va m)]) := by
  refine ⟨fun hf => ?_, fun hf => ?_⟩
  · have acc : s.access g (f.va m) (Ty.bytes t) accRead nearOrPeer = .inr (p, s1) :=
      access_found hf (fun _ => rfl) (by decide) (by rw [hp]; rfl)
    refine runWord_asked (i := .ld h d m t) (g := g) (f := f) hi ?_
    simp only [acc, hp, reduceCtorEq, if_false]
  · have acc : s.access g (f.va m) (Ty.bytes t) accWrite nearOrPeer = .inr (p, s1) :=
      access_found hf (by decide) (fun _ => rfl) (by rw [hp]; rfl)
    refine sends_of_peerIssue (i := .st h d m t) (g := g) (f := f) rfl hi rfl ?_
    simp only [acc, hp, reduceCtorEq, if_false]
    rfl

/-- ATOM on a PEER page asks, RED sends; neither takes .f32. -/
theorem peerPage_atomics (hi : Issues s g f h { counts := true, chks := Mem.chk m 2 ++ Reg.chk d (op.regs t) })
    (hp : p.tier = .peer) (hf : Found s g (f.va m) (t.width / 8) true true p s1) :
    (t ≠ .f32 →
      Runs (.atom h d m t op) s (asked s s1 g f h (pageReq p (f.va m)
        (.atomic op t (f.atomArgs op t d).1 (f.atomArgs op t d).2 (some (f.reg d)))) (regRange (f.reg d) t.regs)
        [p.span (f.va m)]) ∧
      Sends (.red h d m t op) s s1 g f h (pageReq p (f.va m)
        (.atomic op t (f.atomArgs op t d).1 (f.atomArgs op t d).2 none)) false [p.span (f.va m)]) ∧
    (t = .f32 → Runs (.atom h d m t op) s (s1.takeTrap s.cur .permission (f.va m)) ∧
      Runs (.red h d m t op) s (s1.takeTrap s.cur .permission (f.va m))) := by
  have acc : s.access g (f.va m) (Ty.bytes t) accAtomic nearOrPeer = .inr (p, s1) :=
    access_found hf (fun _ => rfl) (fun _ => rfl) (by rw [hp]; rfl)
  refine ⟨fun ht => ⟨?_, ?_⟩, fun ht => ⟨?_, ?_⟩⟩
  · refine runWord_asked (i := .atom h d m t op) (g := g) (f := f) hi ?_
    simp only [acc, hp, ht, reduceCtorEq, if_false, if_true]
  · refine sends_of_peerIssue (i := .red h d m t op) (g := g) (f := f) rfl hi rfl ?_
    simp only [acc, hp, ht, reduceCtorEq, Bool.false_eq_true, if_false]
  · refine runWord_trap (i := .atom h d m t op) (g := g) (f := f) hi ?_
    subst ht
    simp only [acc, hp, reduceCtorEq, if_false, if_true]
  · refine runWord_trap (i := .red h d m t op) (g := g) (f := f) hi ?_
    subst ht
    simp only [acc, hp, reduceCtorEq, if_false, if_true]

/-- PROBE issues the word it will land. -/
theorem execProbe_issues (hi : Issues s g f h { counts := true, chks := Mem.chk m 2 ++ Reg.chk d 2 }) {q : Option Page}
    (hq : (if (f.va m).toNat ≥ 2 ^ 56 then (none, s)
      else s.lookup g.coreOr0 (s.ctx g.ctx).asid (s.genOf (s.ctx g.ctx).asid) (f.va m)) = (q, s1)) :
    Runs (.probe h d m) s (went s (s1.addOp g f (f.counter h) (.land (f.reg d) 2 ((q.map Page.probe).getD 0#64))
      (regRange (f.reg d) 2))) := by
  refine runWord_ok (i := .probe h d m) (g := g) (f := f) hi ?_
  simp only [hq]

end

theorem peerPages : peerPagesPart := by
  intro s s1 g f h d m t op p va n req dst
  refine ⟨fun _ hp => ⟨fun hi => peerPage_moves hi hp, fun hi hf => peerPage_atomics hi hp hf⟩, fun hi => ?_⟩
  intro probed
  constructor
  · intro q s2 hb hq
    refine (execProbe_issues hi ((if_neg (Nat.not_le.2 hb)).trans hq)).trans ?_
    cases q <;> rfl
  · exact fun hb => execProbe_issues hi (if_pos hb)

/-- Settles O18: accesses that find a NEAR page, accesses that find a PEER page, and PROBE. -/
theorem nearAccessesIssue : Obligations.NearAccessesIssue := ⟨nearIssue, peerPages⟩

/-! ### Pod windows -/

/-- Settles O36: each word passes the checks of its window and issues its request. -/
theorem podWords : Obligations.PodWords := by
  unfold Obligations.PodWords
  intro s s1 g f h d m t op w p hn off n dst _
  refine ⟨fun ho => ?direct, fun hi ho => ?sput, fun hi => ?xputq⟩
  case direct =>
    have opened : s.winCheck g (f.winAddr m).1 (f.winAddr m).2 (Ty.bytes t) (Ty.bytes t) false = .inr (w, s1) :=
      winCheck_opened ho
    refine ⟨fun hi => ⟨?xld, ?xst⟩, fun hi => ?xatom⟩
    case xld =>
      refine runWord_asked (i := .xld h d m t) (g := g) (f := f) hi ?_
      simp only [opened]
      rfl
    case xst =>
      refine sends_of_peerIssue (i := .xst h d m t) (g := g) (f := f) rfl hi rfl ?_
      simp only [opened]
      rfl
    case xatom =>
      refine runWord_asked (i := .xatom h d m t op) (g := g) (f := f) hi ?_
      simp only [opened]
      rfl
  case sput =>
    have opened : s.winCheck g (f.winAddr m).1 (f.winAddr m).2 (Ty.bytes t) (Ty.bytes t) true = .inr (w, s1) :=
      winCheck_opened ho
    refine sends_of_peerIssue (i := .sput h d m t) (g := g) (f := f) rfl hi rfl ?_
    simp only [opened]
    rfl
  case xputq =>
    intro va bs s0 hf hp hb q hx ox len s2 ho hlen hlen' h1 h2 h5 h6 h7 o
    have acc : s.access g va 64 accRead onlyNear = .inr (p, s1) :=
      access_found hf (fun _ => rfl) (by decide) (by rw [hp]; rfl)
    have legal : ¬ (bits (q 1) 63 56 ≠ 0 ∨ bits (q 2) 63 17 ≠ 0 ∨ q 5 ≠ 0 ∨ q 6 ≠ 0 ∨ q 7 ≠ 0 ∨ len < 1 ∨ len > 65536) := by
      omega
    refine sends_of_peerIssue (i := .xputq h m) (g := g) (f := f) rfl hi rfl ?_
    simp only [show f.va m = va from rfl, acc, hb]
    rw [winCheck_opened ho]
    exact if_neg legal

end Sys2Proof.Proofs
end

section
/-! SUPPORT. Tasks and child launches (R123, R125), and the words of supersteps and collectives (R325, R329). -/

namespace Sys2Proof.Proofs

open Sys2Proof Sys2Proof.Machine Sys2Proof.Safety Sys2Proof.Laws

/-- A word that has changed its own fibre goes on from the value it has come to. -/
theorem went_updFibre {s : State} {g : Group} {f : Fibre} {h : Hdr} {w : WordSpec} (hi : Issues s g f h w)
    (u : Fibre → Fibre) : went s (s.updFibre s.cur u) = after s (u f) := by
  rw [went, State.updFibre_updFibre]
  exact updFibre_issues hi _

/-! ### Tasks and forks -/

/-- An entry that R39 and R108 allow. -/
theorem badEntry_legal {a : Dword} (ha : a.toNat % 12 = 0) (hb : a.toNat < 2 ^ 56) : badEntry a = false := by
  simp only [badEntry, ha, bne_self_eq_false, Bool.false_or, decide_eq_false_iff_not]
  omega

/-- A mask within the group's descriptors has no fault. -/
theorem maskFault_none {g : Group} {mask : Dword} (hm : ∀ n, n < 64 → mask.getLsbD n = true → n < g.lr.nb) :
    maskFault g mask = none := by
  simp only [maskFault, List.find?_eq_none, List.mem_range, Bool.and_eq_true, decide_eq_true_eq, not_and, not_le]
  exact hm

/-- Settles O16: a legal task is posted; a fork of a legal record posts its child, or answers 2. -/
theorem tasksAndForks : Obligations.TasksAndForks := by
  unfold Obligations.TasksAndForks
  intro s g f h d a b
  refine ⟨fun hi ha hb hm hn => ?task, fun hi hcl ha hb => ?fork⟩
  case task =>
    refine runWord_ok (i := .task h d a b) (g := g) (f := f) hi ?_
    simp only [badEntry_legal ha hb, maskFault_none hm, ge_iff_le, Nat.not_le.2 hn, Bool.false_eq_true, if_false]
  case fork =>
    have legal : ¬ ((f.rdPair a).toNat % 64 ≠ 0 ∨ (f.rdPair a).toNat ≥ 2 ^ 56) := by omega
    intro depth
    refine ⟨fun hd => ?_, fun hd => ?_⟩
    · refine runWord_keep (i := .fork h d a) (g := g) (f := f) hi ?_
      simp only [legal, ge_iff_le, Nat.not_le.2 hcl, if_false]
      exact if_neg (Nat.not_le.2 hd)
    · have answers : execFork h d a s = .next (went s (s.updFibre s.cur fun v => v.wr d 1 2)) := by
        refine runWord_ok (i := .fork h d a) (g := g) (f := f) hi ?_
        simp only [legal, ge_iff_le, Nat.not_le.2 hcl, if_false]
        exact if_pos hd
      exact answers.trans (congrArg _ (went_updFibre hi _))

/-! ### Supersteps and collectives -/

/-- Settles O37: SWAIT before and after its boundary, SSTAT, and the CTILE whose record passes its checks. -/
theorem superstepWords : Obligations.SuperstepWords := by
  unfold Obligations.SuperstepWords
  intro s s1 g f h p a d n m k bs x
  refine ⟨fun hi => ?done, fun hi hn => ?waits, fun hi => ?sstat, fun hi => ?ctile⟩
  case done =>
    intro i hn
    refine runWord_ok (i := .swait h p a) (g := g) (f := f) hi ?_
    exact if_pos hn
  case waits =>
    refine runWord_keep (i := .swait h p a) (g := g) (f := f) hi ?_
    exact if_neg (Nat.not_lt.2 hn)
  case sstat =>
    have writes : execSstat h d a s = .next (went s (s.updFibre s.cur fun v =>
        v.wr d 2 (s.stepWord (s.stepArg f a)).toNat)) :=
      runWord_ok (i := .sstat h d a) (g := g) (f := f) hi rfl
    exact writes.trans (congrArg _ (went_updFibre hi _))
  case ctile =>
    intro b hr hc hx key s2
    subst hx
    refine runWord_ok (i := .ctile h x.buf m k) (g := g) (f := f) hi ?_
    simp only [hr, show s1.ctileCheck g (g.bufNow x.buf.toNat) x.buf k (f.va m) bs = .inl x from hc]
    rfl

end Sys2Proof.Proofs
end

section
/-! SUPPORT. Far transfers as their events accept and perform them (R103, R168, R252, R262 to R264, R333). -/

namespace Sys2Proof.Proofs

open Sys2Proof Sys2Proof.Machine Sys2Proof.Safety Sys2Proof.Laws

/-! ### Acceptance -/

section

variable {s : State} {o : Op} {x : Xfer} {g : Group}

theorem xfer?_of_kind (hk : o.kind = .xfer x) : o.xfer? = some x := by simp only [Op.xfer?, hk]

theorem xfer?_eq_some {p : Op} {y : Xfer} : p.xfer? = some y ↔ p.kind = .xfer y := by
  unfold Op.xfer?
  split
  · next hk => rw [hk]; simp
  · next hk => simpa using hk y

theorem isCtile_iff : x.isCtile = true ↔ ∃ k, x.kind = .ctile k := by
  unfold Xfer.isCtile
  split <;> simp_all

/-- The post of its group that has waited longest is accepted while the group has an allowance. -/
theorem postAccept_accepts (ho : s.op? o.id = some o) (hk : o.kind = .xfer x) (hg : s.group? o.fib.g = some g)
    (ha : x.accepted = false) (he : x.effective = true) (hc : x.isCtile = false) (hcore : g.core?.isSome = true)
    (hold : ∀ p ∈ s.ops, p.fib.g = o.fib.g → ∀ y, p.kind = .xfer y →
      y.began < x.began ∨ (y.began = x.began ∧ p.id < o.id) → y.accepted = true ∨ y.effective = false ∨ y.isCtile = true)
    (hroom : s.heldAllowances o.fib.g < g.wa) :
    s.postAccept o.id = (s.setOp { o with kind := .xfer { x with
      accepted := true, keys := s.keys, refused := s.drainedModules } }).updFibre o.fib fun f =>
        if f.stat = .wait (.post o.id) then f.advance s.cycle else f := by
  simp only [State.postAccept, ho, xfer?_of_kind hk, hg]
  refine if_neg ?_
  simp only [Bool.or_eq_true, not_or]
  refine ⟨⟨⟨⟨⟨by simp [ha], ?_⟩, by simp [he]⟩, ?_⟩, by simpa [Option.isSome_iff_ne_none] using hcore⟩, by simpa using hroom⟩
  · exact Bool.not_eq_true _ ▸ hc
  · simp only [List.any_eq_true, Bool.and_eq_true, beq_iff_eq, not_exists, not_and]
    intro p hp hpg
    split
    · next y hy =>
      simp only [Op.before, Bool.and_eq_true, Bool.or_eq_true, decide_eq_true_eq, beq_iff_eq, Bool.not_eq_true']
      rintro ⟨⟨⟨before, effective⟩, waits⟩, notColl⟩
      rcases hold p hp hpg y (xfer?_eq_some.1 hy) before with h | h | h
      · exact Bool.false_ne_true (waits.symm.trans h)
      · exact Bool.false_ne_true (h.symm.trans effective)
      · obtain ⟨k, hy⟩ := isCtile_iff.1 h
        simp [hy] at notColl
    · exact Bool.false_ne_true

end

/-! ### Moving the bytes -/

/-- A transfer with no part on a PEER page asks no peer. -/
theorem peerBlocks_none {ps : List (Page × (Nat × Nat))} (h : ∀ p ∈ ps, p.1.tier ≠ .peer) : peerBlocks ps = [] := by
  have none_there : (ps.filter fun p => p.1.tier == .peer) = [] := by simpa [List.filter_eq_nil_iff] using h
  simp [peerBlocks, none_there]

section

variable {s : State} {o : Op} {x : Xfer} {g : Group} {ps : List (Page × (Nat × Nat))}

/-- An accepted transfer that waits for no page or peer is due. -/
theorem xferDue_of_ready (ho : s.op? o.id = some o) (hk : o.kind = .xfer x) (ha : x.accepted = true) (hm : x.miss = [])
    (hp : s.peersPending o.id = false) : s.xferDue o.id = some (o, x) := by
  simp [State.xferDue, ho, xfer?_of_kind hk, ha, hm, hp]

/-- A FETCH whose pages are all there fills its buffer. -/
theorem arrival_fetch (hk : x.kind = .fetch) (hr : x.ready s o.ctx false = .go ps) (ht : ∀ p ∈ ps, p.1.tier ≠ .peer)
    (hw : s.mxWaits x ps = false) : s.arrival o x = (((s.syncNear o ps).fillBuf o x
      (x.gather (s.syncNear o ps) (s.ctx o.ctx).pasid ps)).migrateAll o ps).xferDone o x .full 0#8 0 0#7 := by
  simp [State.arrival, hr, peerBlocks_none ht, hw, hk]

/-- A PUT whose pages are all there, and whose source holds no error, writes its box. -/
theorem putDone_writes (hg : s.group? o.fib.g = some g) (hr : x.ready s o.ctx true = .go ps)
    (hb : badSource g.scratchErr (g.buf x.buf.toNat).lo ps = none) (ht : ∀ p ∈ ps, p.1.tier ≠ .peer)
    (hw : s.mxWaits x ps = false) : s.putDone o x = (x.scatter (s.syncNear o ps) (s.ctx o.ctx).pasid ps
      (Memory.read g.scratch (g.buf x.buf.toNat).lo x.shape.total)).xferDone o x .empty 0#8 0 0#7 := by
  simp [State.putDone, hg, hr, hb, peerBlocks_none ht, hw]

end

/-- Settles O31: the oldest post of a group with an allowance left, and the arrival of a transfer that is due. -/
theorem farTransferEvents : Obligations.FarTransferEvents := by
  unfold Obligations.FarTransferEvents
  intro s o x g ps ho hk hg pasid
  refine ⟨fun ha he hc hcore hold hroom => ?accepts, fun ha hm hp ht hw => ⟨fun hf hr => ?fetch, fun hput hr hb => ?put⟩⟩
  case accepts =>
    refine congrArg Host.Outcome.next (postAccept_accepts ho hk hg ha he hc hcore hold (lt_of_eq_of_lt ?_ hroom))
    refine congrArg List.length (List.filter_congr fun p _ => ?_)
    cases p.kind with
    | xfer y => cases hy : y.kind <;> simp [Xfer.isCtile, hy]
    | _ => rfl
  case fetch =>
    change Host.Outcome.next _ = _
    simp only [xferDue_of_ready ho hk ha hm hp, hf, arrival_fetch hf hr ht hw]
    rfl
  case put =>
    change Host.Outcome.next _ = _
    simp only [xferDue_of_ready ho hk ha hm hp, hput, putDone_writes hg hr hb ht hw]
    rfl

end Sys2Proof.Proofs
end

section
/-! SUPPORT. A debugger's step of a fibre that was sent elsewhere while its page was known to be absent (R239, R391). -/

namespace Sys2Proof.Proofs

open Sys2Proof Sys2Proof.Machine Sys2Proof.Safety Sys2Proof.Laws

/-- A stopped fibre whose page was answered absent, and whose PC the debugger has written. -/
def sentFromAbsent : Fibre := { stopped := true, absent := some 0#64, stop := some { q := {}, pc := 12#64 } }

/-- Its group, alone in the package, and selected as DBG_GRP and DBG_SEL stand after reset. -/
def sentGroup : Group := { launch := 0, ctx := 0, lin := 0, lr := {}, loc := .saved, fibres := [(0, sentFromAbsent)] }
def sentState : State := { groups := [(0, sentGroup)] }

/-- The address for which fibre 0 of group 0 is to raise PAGE_NOT_PRESENT. -/
def absentAfter : Out → Option Dword
  | .next t => (t.fibre? ⟨0, 0⟩).bind (·.absent)
  | _ => none

/-- Refutes O52: STEP of a fibre that the debugger has sent elsewhere forgets the absent page at which it had parked
(`Fibre.resume`), since it is no longer at the word that parked; the statement keeps it. -/
theorem not_debugging : ¬ Obligations.Debugging := by
  unfold Obligations.Debugging
  intro h
  obtain ⟨-, -, operations⟩ := h sentState 0 sentGroup sentFromAbsent 0 ⟨⟨0, 0⟩, false, 0, none⟩ 0#4
  obtain ⟨-, -, selected⟩ := operations rfl
  obtain ⟨-, -, -, -, onFibre⟩ := selected (by decide)
  obtain ⟨-, stopped⟩ := onFibre (by decide)
  obtain ⟨-, moved, -⟩ := stopped rfl
  have steps := congrArg absentAfter (moved (by decide))
  exact absurd steps (by decide)

end Sys2Proof.Proofs
end

section
/-! SUPPORT. What the package does for fibres and groups when it is due: rounds, acceptance by shared units, budgets, waves,
grants and switching out (R101 to R103, R112, R124, R126, R155, R198). -/

namespace Sys2Proof.Proofs

open Sys2Proof Sys2Proof.Machine Sys2Proof.Safety Sys2Proof.Laws

/-! ### Rounds of the sheaf former -/

section

variable {s : State}

/-- Forming sheaves leaves the clock. -/
theorem formSheaves_cycle (s : State) : s.formSheaves.cycle = s.cycle :=
  foldl_keeps (fun t : State => t.cycle = s.cycle) _ _ _ rfl fun _ _ h => h

/-- Counting the rounds of the cores leaves the picks. -/
theorem formSheaves_issue (s : State) : s.formSheaves.issue =
    s.busyCores.zipIdx.flatMap fun p => s.corePicks p.1 (s.nextId + 16 * p.2) :=
  foldl_keeps (fun t : State => t.issue = _) _ _ _ rfl fun _ _ h => h

/-- The picks of a core name the fibres of its sheaves, in order. -/
theorem corePicks_map (s : State) (c base : Nat) : (s.corePicks c base).map (fun k => (k.core, k.fib)) =
    (s.coreSheaves c).flatMap fun sh => sh.2.map fun l => (c, (⟨sh.1, l⟩ : FRef)) := by
  conv_rhs => rw [← List.zipIdx_map_fst 0 (s.coreSheaves c), List.flatMap_map]
  simp [State.corePicks, List.map_flatMap, Function.comp_def]

/-- The picks of a round are the sheaves of the busy cores. -/
theorem formSheaves_picks (s : State) : s.formSheaves.issue.map (fun k => (k.core, k.fib)) =
    s.busyCores.flatMap fun k => (s.coreSheaves k).flatMap fun sh => sh.2.map fun l => (k, (⟨sh.1, l⟩ : FRef)) := by
  conv_rhs => rw [← List.zipIdx_map_fst 0 s.busyCores, List.flatMap_map]
  rw [formSheaves_issue, List.map_flatMap]
  exact List.flatMap_congr fun p _ => corePicks_map ..

theorem sheafRound_cases (h : s.cycleOver = true) :
    s.sheafRound = if (s.cycle + 1) % 4 = 0 then s.nextCycle.formSheaves else s.nextCycle := by
  simp only [State.sheafRound, h, Bool.not_true, Bool.false_eq_true, if_false]
  rfl

end

/-! ### Shared units -/

/-- Some waiter of a list began to wait no later than any other. -/
theorem exists_first {ws : List (Nat × FRef)} (h : ws ≠ []) :
    (ws.filter fun w => ws.all fun v => decide (w.1 ≤ v.1)) ≠ [] := by
  obtain ⟨w, hw, hmin⟩ := ws.toFinset.exists_min_image (·.1) (by simpa [List.toFinset_nonempty_iff] using h)
  refine List.ne_nil_of_mem (a := w) (List.mem_filter.2 ⟨by simpa using hw, ?_⟩)
  simpa using fun a b hv => hmin (a, b) (by simpa using hv)

/-- A free choice among the members of a list names one of them. -/
theorem choose_mem {α : Type} (s : State) (tag : Nat) {l : List α} (h : l ≠ []) :
    ∃ a ∈ l, l[s.choose tag l.length]? = some a := by
  have pos : 0 < l.length := List.length_pos_iff.2 h
  have bound : s.choose tag l.length < l.length := by
    unfold State.choose
    split
    · exact pos
    · exact Nat.mod_lt _ pos
  exact ⟨l[s.choose tag l.length], List.getElem_mem bound, List.getElem?_eq_getElem bound⟩

/-- A unit with room accepts a waiter that began to wait no later than any other. -/
theorem unitAccept_first {s : State} {c : Nat} {u : UnitId} (hr : s.unitRoom c u = true) (hg : s.unitGranted c u = false)
    (hw : s.unitWaiters c u ≠ [])
    (hm : u = .matrix → ∀ w ∈ s.unitWaiters c u, ∀ z, s.group? w.2.g = some z → z.swapDue = false) :
    ∃ w ∈ s.unitWaiters c u, (∀ v ∈ s.unitWaiters c u, w.1 ≤ v.1) ∧
      s.unitAccept c u = s.updFibre w.2 fun v => { v.wake s.cycle with grant := some u } := by
  obtain ⟨w, hfirst, hchosen⟩ := choose_mem s 8 (exists_first hw)
  obtain ⟨hmem, hmin⟩ := List.mem_filter.1 hfirst
  have noSwap : ¬ (u = .matrix ∧ ((s.group? w.2.g).map Group.swapDue).getD false = true) := by
    rintro ⟨hu, hdue⟩
    cases hz : s.group? w.2.g with
    | none => simp [hz] at hdue
    | some z => simp [hz, hm hu w hmem z hz] at hdue
  refine ⟨w, hmem, by simpa using hmin, ?_⟩
  simp only [State.unitAccept, hr, hg, hchosen, noSwap, Bool.not_true, Bool.or_self, Bool.false_eq_true, if_false]

/-! ### Groups -/

/-- A group of which every live fibre is parked, or waits on a parked one, is ready to be switched out. -/
theorem allParked_of {s : State} {k : Nat} {z : Group} (hz : s.group? k = some z)
    (h : z.loc = .ended ∨ (z.core?.isSome = true ∧ (∃ v ∈ z.fibres, v.2.isParked = true) ∧ ∀ v ∈ z.fibres,
      v.2.stopped = false ∧ (v.2.isParked = true ∨ s.waitsOnParked k z v.1 v.2 = true))) : s.allParked k = true := by
  simp only [State.allParked, hz, Bool.or_eq_true, Bool.and_eq_true, beq_iff_eq, List.any_eq_true, List.all_eq_true,
    Bool.not_eq_true']
  rcases h with h | ⟨hc, hp, hall⟩
  · exact .inl h
  · exact .inr ⟨⟨hc, hp⟩, hall⟩

/-- Settles O17: each event by the branch that it takes when it is due. -/
theorem groupEvents : Obligations.GroupEvents := by
  unfold Obligations.GroupEvents
  intro s g c n x y f u m p
  refine ⟨fun ho => ?round, fun hr hg hw hm => ?accept, fun hg hf hc hb hj hi => ?budget, fun hg hc hs hk r k hr ht => ?wave,
    fun hg hc hv => ?grant, fun _ h => ?switch⟩
  case round =>
    refine ⟨s.sheafRound, rfl, ?_, fun hn => ?_, fun hn => ?_⟩
    · rw [sheafRound_cases ho]
      split
      · rw [formSheaves_cycle]; rfl
      · rfl
    · rw [sheafRound_cases ho, if_neg hn]
    · rw [sheafRound_cases ho, if_pos hn, formSheaves_picks]
  case accept =>
    obtain ⟨w, hmem, hmin, haccept⟩ := unitAccept_first hr hg hw hm
    refine ⟨w, hmem, hmin, congrArg Host.Outcome.next ?_⟩
    rw [if_neg fun h => hw h.2, haccept]
  case budget =>
    have out : budgetOut x f = true := by simp [budgetOut, hc, hb, hj]
    change execJwaittBudgetExpiry g n s = _
    simp only [execJwaittBudgetExpiry, hg, hf, out, hi, hj, Bool.not_true, Bool.or_self, Bool.false_eq_true, if_false]
  case wave =>
    change Host.Outcome.next (s.taskWave g) = _
    simp [State.taskWave, hg, hc, hs, hk, hr, ht]
  case grant =>
    have noBlocks : (x.rvs.filter fun v => v.mask.isNone) = [] := by simpa [List.filter_eq_nil_iff] using hv
    change execClaimGrant g s = _
    simp only [execClaimGrant, hg, hc, State.settleClaims, noBlocks, Option.isNone_some, Bool.false_eq_true, if_false]
    rfl
  case switch =>
    have parked : (s.clusterOf g).all s.allParked = true := by
      rw [List.all_eq_true]
      intro k hk
      obtain ⟨z, hz, hp⟩ := h k hk
      exact allParked_of hz hp
    exact congrArg Host.Outcome.next (if_pos parked)

end Sys2Proof.Proofs
end

section
/-! SUPPORT. The rejoin masks of a rank and its rendezvous: what settling a rank does (R110 to R113), and what an exchange
gives each contributor (R114 to R116). -/

namespace Sys2Proof.Proofs

open Sys2Proof Sys2Proof.Machine Sys2Proof.Safety Sys2Proof.Laws

/-! ### Groups and fibres after updates -/

theorem put_put {α : Type} (k : Nat) (a b : α) (t : Tab α) : Tab.put k b (Tab.put k a t) = Tab.put k b t := by
  induction t with
  | nil => simp [Tab.put]
  | cons p t ih =>
    obtain ⟨j, w⟩ := p
    rcases Nat.lt_trichotomy k j with h | h | h
    · simp [Tab.put, h]
    · simp [Tab.put, h]
    · simp [Tab.put, Nat.not_lt.2 h.le, h.ne', ih]

@[simp] theorem setGroup_setGroup (s : State) (g : Nat) (x y : Group) : (s.setGroup g x).setGroup g y = s.setGroup g y := by
  simp [State.setGroup, put_put]

theorem updGroup_at {s : State} {g : Nat} {x : Group} (h : s.group? g = some x) (u : Group → Group) :
    s.updGroup g u = s.setGroup g (u x) := by
  simp only [State.updGroup, h]

/-- A table whose values are changed one by one. -/
theorem find_map {α : Type} (u : Nat → α → α) (t : Tab α) (k : Nat) :
    Tab.find (t.map fun p => (p.1, u p.1 p.2)) k = (Tab.find t k).map (u k) := by
  induction t with
  | nil => rfl
  | cons p t ih =>
    obtain ⟨j, w⟩ := p
    by_cases h : j = k
    · subst h; simp [Tab.find]
    · simpa [Tab.find, h] using ih

theorem fibre?_mapFibres (x : Group) (u : Nat → Fibre → Fibre) (n : Nat) :
    (x.mapFibres u).fibre? n = (x.fibre? n).map (u n) := find_map u x.fibres n

/-- A group with other open rendezvous. -/
def withRvs (x : Group) (rs : List Rendezvous) : Group := { x with rvs := rs }

@[simp] theorem rvs_withRvs (x : Group) (rs : List Rendezvous) : (withRvs x rs).rvs = rs := rfl

@[simp] theorem fibres_withRvs (x : Group) (rs : List Rendezvous) : (withRvs x rs).fibres = x.fibres := rfl

@[simp] theorem withRvs_withRvs (x : Group) (rs rs' : List Rendezvous) : withRvs (withRvs x rs) rs' = withRvs x rs' := rfl

@[simp] theorem mask_withRvs (x : Group) (rs : List Rendezvous) (rank : Nat) (m : BitVec 3) :
    (withRvs x rs).mask rank m = x.mask rank m := rfl

@[simp] theorem arrivedAt_withRvs (x : Group) (rs : List Rendezvous) (rank : Nat) (m : BitVec 3) :
    (withRvs x rs).arrivedAt rank m = x.arrivedAt rank m := rfl

@[simp] theorem fibre?_withRvs (x : Group) (rs : List Rendezvous) (n : Nat) : (withRvs x rs).fibre? n = x.fibre? n := rfl

theorem setFibre_withRvs (x : Group) (rs : List Rendezvous) (n : Nat) (v : Fibre) :
    (withRvs x rs).setFibre n v = withRvs (x.setFibre n v) rs := rfl

theorem updFibre_withRvs (x : Group) (rs : List Rendezvous) (n : Nat) (u : Fibre → Fibre) :
    (withRvs x rs).updFibre n u = withRvs (x.updFibre n u) rs := by
  unfold Group.updFibre
  cases h : x.fibre? n with
  | none => simp only [fibre?_withRvs, h]
  | some v => simp only [fibre?_withRvs, h, setFibre_withRvs]

/-- The group of a word that has kept its fibre's position. -/
theorem kept_group (s t : State) : (kept s t).group? s.cur.g =
    (t.group? s.cur.g).map fun x => x.updFibre s.cur.f fun f => { f with grant := none } :=
  t.group?_updGroup_same ..

/-! ### Rejoin masks -/

@[simp] theorem mask_mapFibres (x : Group) (u : Nat → Fibre → Fibre) (rank : Nat) (m : BitVec 3) :
    (x.mapFibres u).mask rank m = x.mask rank m := rfl

@[simp] theorem arrivedAt_mapFibres (x : Group) (u : Nat → Fibre → Fibre) (rank : Nat) (m : BitVec 3) :
    (x.mapFibres u).arrivedAt rank m = x.arrivedAt rank m := rfl

@[simp] theorem mask_updFibre (x : Group) (n : Nat) (u : Fibre → Fibre) (rank : Nat) (m : BitVec 3) :
    (x.updFibre n u).mask rank m = x.mask rank m := by
  simp [Group.mask]

@[simp] theorem arrivedAt_updFibre (x : Group) (n : Nat) (u : Fibre → Fibre) (rank : Nat) (m : BitVec 3) :
    (x.updFibre n u).arrivedAt rank m = x.arrivedAt rank m := by
  simp [Group.arrivedAt]

/-- A mask has members, and all of them have arrived (R111). -/
def MaskDue (x : Group) (rank : Nat) (m : BitVec 3) : Prop :=
  x.mask rank m ≠ 0#32 ∧ x.mask rank m &&& ~~~(x.arrivedAt rank m) = 0#32

theorem not_maskDue {x : Group} {rank : Nat} {m : BitVec 3}
    (h : x.mask rank m = 0#32 ∨ x.mask rank m &&& ~~~(x.arrivedAt rank m) ≠ 0#32) : ¬ MaskDue x rank m :=
  fun hd => h.elim hd.1 fun hn => hn hd.2

section

variable {x : Group} {cycle rank : Nat} {m k : BitVec 3}

theorem settleMask_due (h : MaskDue x rank m) : x.settleMask cycle rank m =
    (x.setMask rank m 0#32 0#32).mapFibres fun n f => if n / 32 = rank then releaseJoin cycle m f else f := by
  simp [Group.settleMask, h.1, h.2]

theorem settleMask_not_due (h : ¬ MaskDue x rank m) : x.settleMask cycle rank m = x := by
  refine if_neg fun hd => h ?_
  simpa [MaskDue] using hd

theorem maskEntry_ne (h : k ≠ m) : 8 * rank + k.toNat ≠ 8 * rank + m.toNat := fun e =>
  h (BitVec.eq_of_toNat_eq (by omega))

theorem mask_setMask_same (v a : BitVec 32) (h : Tab.wf 0#32 x.masks = true) : (x.setMask rank m v a).mask rank m = v :=
  Tab.get_set_same _ _ _ h

theorem arrivedAt_setMask_same (v a : BitVec 32) (h : Tab.wf 0#32 x.arrived = true) :
    (x.setMask rank m v a).arrivedAt rank m = a := Tab.get_set_same _ _ _ h

theorem mask_setMask_other (v a : BitVec 32) (h : k ≠ m) : (x.setMask rank m v a).mask rank k = x.mask rank k :=
  Tab.get_set_other _ (maskEntry_ne h) _ _

theorem arrivedAt_setMask_other (v a : BitVec 32) (h : k ≠ m) :
    (x.setMask rank m v a).arrivedAt rank k = x.arrivedAt rank k := Tab.get_set_other _ (maskEntry_ne h) _ _

/-- Settling a mask leaves every other mask of the rank as it is. -/
theorem settleMask_other (h : k ≠ m) : (x.settleMask cycle rank m).mask rank k = x.mask rank k ∧
    (x.settleMask cycle rank m).arrivedAt rank k = x.arrivedAt rank k := by
  by_cases hd : MaskDue x rank m
  · simp [settleMask_due hd, mask_setMask_other _ _ h, arrivedAt_setMask_other _ _ h]
  · rw [settleMask_not_due hd]
    exact ⟨rfl, rfl⟩

end

/-- The eight masks of a rank, in the order in which they are settled. -/
def rankMasks : List (BitVec 3) := (List.range 8).map (BitVec.ofNat 3)

theorem mem_rankMasks (m : BitVec 3) : m ∈ rankMasks := by revert m; decide

theorem rankMasks_nodup : rankMasks.Nodup := by decide

/-- The masks of a rank settled one after another. -/
def settleMasks (x : Group) (cycle rank : Nat) (ms : List (BitVec 3)) : Group :=
  ms.foldl (fun y m => y.settleMask cycle rank m) x

theorem settleMasks_none {x : Group} {cycle rank : Nat} {ms : List (BitVec 3)} (h : ∀ m ∈ ms, ¬ MaskDue x rank m) :
    settleMasks x cycle rank ms = x := by
  induction ms with
  | nil => rfl
  | cons m ms ih =>
    rw [settleMasks, List.foldl_cons, settleMask_not_due (h m (by simp))]
    exact ih fun k hk => h k (by simp [hk])

/-- Where one mask alone is due, settling the masks settles it. -/
theorem settleMasks_only {x : Group} {cycle rank : Nat} {m : BitVec 3} (h : ∀ k, k ≠ m → ¬ MaskDue x rank k) :
    settleMasks x cycle rank rankMasks = x.settleMask cycle rank m := by
  suffices ∀ ms : List (BitVec 3), ms.Nodup → m ∈ ms → settleMasks x cycle rank ms = x.settleMask cycle rank m from
    this _ rankMasks_nodup (mem_rankMasks m)
  intro ms hnd hm
  induction ms with
  | nil => cases hm
  | cons k ms ih =>
    obtain ⟨hk, hnd⟩ := List.nodup_cons.1 hnd
    rw [settleMasks, List.foldl_cons]
    by_cases hkm : k = m
    · subst hkm
      refine settleMasks_none fun j hj => ?_
      have hjk : j ≠ k := fun e => hk (e ▸ hj)
      obtain ⟨hmask, harr⟩ := settleMask_other (x := x) (cycle := cycle) (rank := rank) hjk
      rw [MaskDue, hmask, harr]
      exact h j hjk
    · rw [settleMask_not_due (h k hkm)]
      exact ih hnd (by simpa [Ne.symm hkm] using hm)

/-! ### Rendezvous -/

/-- An offer of an exchange, and not of CLAIM or SURR. -/
def IsExchange (o : Offer) : Prop := ∀ c n, o ≠ .claim c n ∧ o ≠ .surr c n

theorem insertBy_perm {α : Type} (lt : α → α → Bool) (a : α) (l : List α) : (insertBy lt a l).Perm (a :: l) := by
  induction l with
  | nil => exact .rfl
  | cons b l ih =>
    unfold insertBy
    split
    · exact .rfl
    · exact (ih.cons b).trans (.swap ..)

theorem sortBy_perm {α : Type} (lt : α → α → Bool) (l : List α) : (sortBy lt l).Perm l := by
  induction l with
  | nil => exact .rfl
  | cons a l ih => exact (insertBy_perm ..).trans (ih.cons a)

/-- The contributors are the members with an offer. -/
theorem mem_contributors {v : Rendezvous} {p : Nat × Offer} :
    p ∈ v.contributors ↔ ∃ q ∈ v.members, q.lane = p.1 ∧ q.offer = some p.2 := by
  rw [Rendezvous.contributors, (sortBy_perm _ _).mem_iff]
  obtain ⟨l, o⟩ := p
  simp [List.mem_filterMap, and_comm]

section

variable {s : State} {g rank : Nat} {x : Group} {v : Rendezvous}

/-- A rendezvous that still awaits a member stays open. -/
theorem settleOne_absent (hg : s.group? g = some x) (hp : x.present v = false) : s.settleOne g v = s := by
  simp [State.settleOne, hg, hp]

/-- What the contributors of an exchange take, each as it goes on. -/
def performed (x : Group) (cycle rank : Nat) (cs : List (Nat × Offer)) : Group :=
  (exchange cs).foldl (fun z u => z.updFibre (32 * rank + u.1) fun f => (u.2 f).advance cycle) x

/-- A complete exchange is performed, and is open no longer (R113). -/
theorem settleOne_performs (hg : s.group? g = some x) (hv : v ∈ x.rvs) (hp : x.present v = true)
    (hc : ∀ p ∈ v.contributors, IsExchange p.2) :
    s.settleOne g v = s.setGroup g (performed (withRvs x (x.rvs.filter fun w => w != v)) s.cycle v.rank
      v.contributors) := by
  have due : (!x.rvs.contains v || !x.present v) = false := by simp [hv, hp]
  simp only [State.settleOne, hg, due, Bool.false_eq_true, if_false]
  split
  · next h => rw [h]; rfl
  · next l c n _ h => exact absurd rfl (hc (l, .surr c n) (by simp [h]) c n).2
  · next l c n _ h => exact absurd rfl (hc (l, .claim c n) (by simp [h]) c n).1
  · exact setGroup_setGroup ..

/-- Settling a rank settles its masks, and then its rendezvous in turn. -/
theorem settleRank_eq (hg : s.group? g = some x) : s.settleRank g rank =
    ((settleMasks x s.cycle rank rankMasks).rvs.filter fun v => v.rank == rank).foldl (fun t v => t.settleOne g v)
      (s.setGroup g (settleMasks x s.cycle rank rankMasks)) := by
  have masks : settleMasks x s.cycle rank rankMasks =
      (List.range 8).foldl (fun y j => y.settleMask s.cycle rank (BitVec.ofNat 3 j)) x := List.foldl_map
  simp only [State.settleRank, updGroup_at hg, State.group?_setGroup_same, masks]

end

end Sys2Proof.Proofs
end

section
/-! SUPPORT. The words at a rejoin mask, and the release of its members (R111, R112). -/

namespace Sys2Proof.Proofs

open Sys2Proof Sys2Proof.Machine Sys2Proof.Safety Sys2Proof.Laws

/-! ### Words at a rejoin mask -/

section

variable {i : Instr} {h : Hdr} {m : BitVec 3} {timed : Option (BitVec 4 × BitVec 16)} {s : State} {g : Group} {f : Fibre}

theorem wf_masks_setMask {x : Group} (rank : Nat) (m : BitVec 3) (v a : BitVec 32) (h : Tab.wf 0#32 x.masks = true) :
    Tab.wf 0#32 (x.setMask rank m v a).masks = true := Tab.wf_set _ _ _ h

theorem wf_arrived_setMask {x : Group} (rank : Nat) (m : BitVec 3) (v a : BitVec 32)
    (h : Tab.wf 0#32 x.arrived = true) : Tab.wf 0#32 (x.setMask rank m v a).arrived = true := Tab.wf_set _ _ _ h

/-- A fibre that waits at a mask from now on (R111, R112). -/
def joining (m : BitVec 3) (timed : Option (BitVec 4 × BitVec 16)) (cycle : Nat) (f : Fibre) : Fibre :=
  { f with stat := .wait (.join m (timed.map (·.1))), since := cycle, budget := (timed.map (·.2)).getD 0#16 }

/-- A fibre that is no member goes on; JWAITT writes 1. -/
theorem joinWord_stranger (hi : Issues s g f h (operandsOf []))
    (hm : g.mask (s.cur.f / 32) m &&& laneBit s.cur.f = 0#32) : joinWord i h m timed s =
      .next (after s (match timed with | none => f | some (p, _) => f.setP p true)) := by
  refine (runWord_ok (g := g) (f := f) hi (if_pos hm)).trans (congrArg _ ?_)
  rw [went, State.updFibre_updFibre, updFibre_issues hi]
  rfl

/-- A member arrives and waits, and its rank is settled. -/
theorem joinWord_member (hi : Issues s g f h (operandsOf []))
    (hm : g.mask (s.cur.f / 32) m &&& laneBit s.cur.f ≠ 0#32) : joinWord i h m timed s =
      .next (kept s ((s.updGroup s.cur.g fun x => (x.setMask (s.cur.f / 32) m (x.mask (s.cur.f / 32) m)
        (x.arrivedAt (s.cur.f / 32) m ||| laneBit s.cur.f)).updFibre s.cur.f (joining m timed s.cycle)).settleRank s.cur.g
        (s.cur.f / 32))) :=
  runWord_keep (g := g) (f := f) hi (if_neg hm)

/-- A member that a release lets go on: JWAITT with 1 in its predicate. -/
def joined (timed : Option (BitVec 4 × BitVec 16)) (cycle : Nat) (f : Fibre) : Fibre :=
  match timed with
  | none => { f.advance cycle with budget := 0#16 }
  | some (p, n) => { (f.advance cycle).setP p true with budget := n }

/-- What a release does to the fibre that has just arrived. -/
theorem releaseJoin_joining (c : Nat) (f : Fibre) :
    { releaseJoin c m (joining m timed c f) with grant := none } = joined timed c f := by
  cases timed with
  | none => exact congrArg (fun v : Fibre => { v with grant := none }) (if_pos rfl)
  | some p => exact congrArg (fun v : Fibre => { v with grant := none }) (if_pos rfl)

theorem releaseJoin_untimed {c : Nat} {w : Fibre} (hs : w.stat = .wait (.join m none)) :
    releaseJoin c m w = w.advance c := by
  simp [releaseJoin, hs]

theorem releaseJoin_timed {c : Nat} {w : Fibre} {q : BitVec 4} (hs : w.stat = .wait (.join m (some q))) :
    releaseJoin c m w = (w.advance c).setP q true := by
  simp [releaseJoin, hs]

/-- The last member to arrive releases the mask. -/
theorem joinWord_releases (hi : Issues s g f h (operandsOf [])) (hmw : Tab.wf 0#32 g.masks = true)
    (haw : Tab.wf 0#32 g.arrived = true) (hr : g.rvs = [])
    (hm : g.mask (s.cur.f / 32) m &&& laneBit s.cur.f ≠ 0#32)
    (hlast : g.mask (s.cur.f / 32) m &&& ~~~(g.arrivedAt (s.cur.f / 32) m ||| laneBit s.cur.f) = 0#32)
    (hother : ∀ k, k ≠ m → ¬ MaskDue g (s.cur.f / 32) k) :
    ∃ t x, joinWord i h m timed s = .next t ∧ t.group? s.cur.g = some x ∧ x.mask (s.cur.f / 32) m = 0#32 ∧
      x.arrivedAt (s.cur.f / 32) m = 0#32 ∧
      x.fibre? s.cur.f = some (joined timed s.cycle f) ∧
      ∀ n w, n ≠ s.cur.f → n / 32 = s.cur.f / 32 → g.fibre? n = some w → x.fibre? n = some (releaseJoin s.cycle m w) := by
  set rank := s.cur.f / 32
  set y := (g.setMask rank m (g.mask rank m) (g.arrivedAt rank m ||| laneBit s.cur.f)).updFibre s.cur.f
    (joining m timed s.cycle) with hy
  have hymw : Tab.wf 0#32 y.masks = true := by simpa [hy] using wf_masks_setMask rank m _ _ hmw
  have hyaw : Tab.wf 0#32 y.arrived = true := by simpa [hy] using wf_arrived_setMask rank m _ _ haw
  have due : MaskDue y rank m := by
    simp only [MaskDue, hy, mask_updFibre, arrivedAt_updFibre, mask_setMask_same _ _ hmw, arrivedAt_setMask_same _ _ haw]
    exact ⟨fun h0 => hm (by rw [h0, BitVec.zero_and]), hlast⟩
  have others : ∀ k, k ≠ m → ¬ MaskDue y rank k := by
    intro k hk
    simpa only [MaskDue, hy, mask_updFibre, arrivedAt_updFibre, mask_setMask_other _ _ hk, arrivedAt_setMask_other _ _ hk]
      using hother k hk
  have noRvs : y.rvs = [] := by simpa [hy, Group.setMask] using hr
  set z := (y.setMask rank m 0#32 0#32).mapFibres fun n v => if n / 32 = rank then releaseJoin s.cycle m v else v with hz
  have settled : (s.setGroup s.cur.g y).settleRank s.cur.g rank = s.setGroup s.cur.g z := by
    rw [settleRank_eq (x := y) (by simp), State.setGroup_cycle, settleMasks_only others, settleMask_due due,
      setGroup_setGroup, ← hz]
    simp [hz, show (y.setMask rank m 0#32 0#32).rvs = [] from noRvs]
  have fibres (n : Nat) (hn : n / 32 = rank) : z.fibre? n = (y.fibre? n).map (releaseJoin s.cycle m) := by
    rw [hz, fibre?_mapFibres, show (y.setMask rank m 0#32 0#32).fibre? n = y.fibre? n from rfl]
    simp only [hn, if_true]
  refine ⟨_, z.updFibre s.cur.f fun v => { v with grant := none }, joinWord_member hi hm, ?_, ?_, ?_, ?_, ?_⟩
  · rw [kept_group, updGroup_at hi.group, settled]
    simp
  · simpa [hz] using mask_setMask_same _ _ hymw
  · simpa [hz] using arrivedAt_setMask_same _ _ hyaw
  · rw [Group.fibre?_updFibre_same, fibres _ rfl, hy, Group.fibre?_updFibre_same]
    simp [show (g.setMask rank m (g.mask rank m) (g.arrivedAt rank m ||| laneBit s.cur.f)).fibre? s.cur.f = some f
      from hi.fibre, releaseJoin_joining]
  · intro n w hn hrank hw
    rw [Group.fibre?_updFibre_other _ hn, fibres n hrank, hy, Group.fibre?_updFibre_other _ hn]
    exact congrArg (Option.map _) hw

end

theorem rejoinMasks : rejoinMasksPart := by
  intro s g f h m p budget hi rank me member arrive
  refine ⟨runWord_ok (i := .jset h m) (g := g) (f := f) hi rfl, runWord_ok (i := .jdrop h m) (g := g) (f := f) hi rfl,
    fun hm => ⟨?_, ?_⟩, fun hm => ⟨?_, ?_⟩⟩
  · exact joinWord_stranger (i := .jwait h m) (timed := none) hi hm
  · exact joinWord_stranger (i := .jwaitt h p m budget) (timed := some (p, budget)) hi hm
  · exact joinWord_member (i := .jwait h m) (timed := none) hi hm
  · exact joinWord_member (i := .jwaitt h p m budget) (timed := some (p, budget)) hi hm

theorem release : releasePart := by
  intro s g f h m p budget hi hmw haw hr rank me hm hlast hother released
  have releases (i : Instr) (timed : Option (BitVec 4 × BitVec 16)) (hx : exec i s = joinWord i h m timed s) :
      released i (joined timed s.cycle f) := by
    obtain ⟨t, x, ht, hg, hmask, harr, hf, hn⟩ :=
      joinWord_releases (i := i) (timed := timed) hi hmw haw hr hm hlast fun k hk => not_maskDue (hother k hk)
    refine ⟨t, x, hx.trans ht, hg, hmask, harr, hf, fun n w hne hrank hw => ?_⟩
    exact ⟨fun hs => releaseJoin_untimed hs ▸ hn n w hne hrank hw, fun q hs => releaseJoin_timed hs ▸ hn n w hne hrank hw⟩
  exact ⟨releases (.jwait h m) none rfl, releases (.jwaitt h p m budget) (some (p, budget)) rfl⟩

end Sys2Proof.Proofs
end

section
/-! SUPPORT. What an exchange gives each contributor (R114 to R116), to a fibre alone and to the last member to come
(R113). -/

namespace Sys2Proof.Proofs

open Sys2Proof Sys2Proof.Machine Sys2Proof.Safety Sys2Proof.Laws

/-! ### What a contributor takes -/

section

variable {cs : List (Nat × Offer)} {i l d : Nat} {f : Fibre}

/-- The contributor that RXCHG names, by its place in lane order (R114). -/
def xchgFrom (mode : XMode) (n i k : Nat) : Option Nat :=
  match mode with
  | .pos => if k < n then some k else none
  | .rot => some ((i + k) % n)
  | .rev => some (n - 1 - i)
  | .last => some (n - 1)

/-- The value that a contributor of RXCHG offers, or another where there is none. -/
def offered (o : Option (Nat × Offer)) (v : Dword) : Dword :=
  match o with
  | some (_, .xchg _ w _ _ _) => w
  | _ => v

/-- The vote of a contributor. -/
def votesYes (c : Nat × Offer) : Bool :=
  match c.2 with
  | .vote _ v _ => v
  | _ => false

/-- The lane and value that a contributor brings to RRED. -/
def reduced (c : Nat × Offer) : Option (Nat × Nat) :=
  match c.2 with
  | .red _ _ v _ => some (c.1, v.toNat)
  | _ => none

/-- What the contributor at a place of the lane order takes. -/
def Takes (cs : List (Nat × Offer)) (i l : Nat) (f u : Fibre) : Prop :=
  ((exchange cs)[i]?).map (fun c => (c.1, c.2 f)) = some (l, u)

theorem takes_xchg {mode : XMode} {w : Dword} {k : Nat} {wide : Bool} (h : cs[i]? = some (l, .xchg mode w k d wide)) :
    Takes cs i l f (f.setN d (if wide then 2 else 1)
      (offered ((xchgFrom mode cs.length i k).bind fun j => cs[j]?) w).toNat) := by
  simp only [Takes, exchange, List.getElem?_map, List.getElem?_zipIdx, h, Option.map_some, Nat.zero_add]
  rfl

/-- RXCHG takes the value of the contributor that it names. -/
theorem takes_from {mode : XMode} {w : Dword} {k j : Nat} {wide : Bool} (h : cs[i]? = some (l, .xchg mode w k d wide))
    (hj : xchgFrom mode cs.length i k = some j) {l' : Nat} {mode' : XMode} {w' : Dword} {k' d' : Nat} {wide' : Bool}
    (h' : cs[j]? = some (l', .xchg mode' w' k' d' wide')) : Takes cs i l f (f.setN d (if wide then 2 else 1) w'.toNat) := by
  have := takes_xchg (f := f) h
  rwa [hj, Option.bind_some, h'] at this

theorem takes_any {b : Bool} (h : cs[i]? = some (l, .vote .any b d)) :
    Takes cs i l f (f.setP (BitVec.ofNat 4 d) (cs.any votesYes)) := by
  have on : (!(cs.filter votesYes).isEmpty) = cs.any votesYes := by
    rw [Bool.eq_iff_iff]
    simp [List.filter_eq_nil_iff]
  simp only [Takes, exchange, List.getElem?_map, List.getElem?_zipIdx, h, Option.map_some, Nat.zero_add, ← on]
  rfl

theorem takes_all {b : Bool} (h : cs[i]? = some (l, .vote .all b d)) :
    Takes cs i l f (f.setP (BitVec.ofNat 4 d) (cs.all votesYes)) := by
  have on : ((cs.filter votesYes).length == cs.length) = cs.all votesYes := by
    rw [Bool.eq_iff_iff, beq_iff_eq, List.length_filter_eq_length_iff, List.all_eq_true]
  simp only [Takes, exchange, List.getElem?_map, List.getElem?_zipIdx, h, Option.map_some, Nat.zero_add, ← on]
  rfl

theorem takes_ballot {b : Bool} (h : cs[i]? = some (l, .vote .ballot b d)) :
    Takes cs i l f (f.setN d 1 ((cs.filter votesYes).map fun c => 2 ^ c.1).sum) := by
  simp only [Takes, exchange, List.getElem?_map, List.getElem?_zipIdx, h, Option.map_some, Nat.zero_add, List.sum_eq_foldl]
  rfl

theorem takes_red {op : AtomOp} {t : Ty} {w : Word} (h : cs[i]? = some (l, .red op t w d)) :
    Takes cs i l f ((f.setN d 1 (redResult op t (cs.filterMap reduced)).1).addFlags
      (redResult op t (cs.filterMap reduced)).2) := by
  simp only [Takes, exchange, List.getElem?_map, List.getElem?_zipIdx, h, Option.map_some, Nat.zero_add]
  rfl

/-- An integer sum is exact, and wraps once at the end. -/
theorem redResult_add {t : Ty} (ht : t ≠ .f32) (vs : List (Nat × Nat)) :
    redResult .add t vs = intResult t false ((vs.map fun v => Ty.toI t v.2).sum) := by
  rw [redResult, if_pos (by simpa using ht), List.sum_eq_foldl]

end

theorem received : receivedPart := by
  intro cs i l d f n takes
  refine ⟨fun mode w k wide h => ?_, fun mode b h => ⟨?_, ?_, ?_⟩, fun op t w h => ⟨takes_red h, ?_⟩⟩
  · refine ⟨?_, ?_, ?_, ?_, ?_⟩
    · rintro rfl hk l' mode' w' k' d' wide' h'
      exact takes_from h (if_pos hk) h'
    · rintro rfl hk
      have := takes_xchg (f := f) h
      rwa [xchgFrom, if_neg (Nat.not_lt.2 hk)] at this
    · rintro rfl l' mode' w' k' d' wide' h'
      exact takes_from h rfl h'
    · rintro rfl l' mode' w' k' d' wide' h'
      exact takes_from h rfl h'
    · rintro rfl l' mode' w' k' d' wide' h'
      exact takes_from h rfl h'
  · rintro rfl; exact takes_any h
  · rintro rfl; exact takes_all h
  · rintro rfl; exact takes_ballot h
  · rintro rfl ht; exact redResult_add ht _

/-! ### A fibre alone -/

/-- Alone, a fibre is offered its own value by every mode. -/
theorem offered_lone (mode mode' : XMode) (lane k k' d n : Nat) (v : Dword) (wide : Bool) :
    offered ((xchgFrom mode 1 n k).bind fun j => [(lane, Offer.xchg mode' v k' d wide)][j]?) v = v := by
  have single (j : Nat) : offered [(lane, Offer.xchg mode' v k' d wide)][j]? v = v := by cases j <;> rfl
  cases xchgFrom mode 1 n k with
  | none => rfl
  | some j => exact single j

/-- What a fibre alone takes from its own offer. -/
theorem takes_lone {lane : Nat} {o : Offer} {f u : Fibre} (h : Takes [(lane, o)] 0 lane f u) :
    ((exchange [(lane, o)]).map (·.2)).foldl (fun w c => c w) f = u := by
  simpa [Takes, exchange] using h

/-- A fibre that is no member of the mask goes on with what its own offer gives. -/
theorem rendezvousWord_lone {i : Instr} {h : Hdr} {chks : List Chk} {m : BitVec 3} {offer : Fibre → Offer} {s : State}
    {g : Group} {f u : Fibre} (hi : Issues s g f h (operandsOf chks))
    (hm : (g.mask (s.cur.f / 32) m).getLsbD (s.cur.f % 32) = false)
    (hu : Takes [(s.cur.f % 32, offer f)] 0 (s.cur.f % 32) f u) :
    rendezvousWord i h chks false (some m) offer s = .next (after s u) := by
  refine (runWord_ok (g := g) (f := f) hi (if_pos (Bool.not_eq_true' _ ▸ hm))).trans (congrArg _ ?_)
  rw [went_updFibre hi, takes_lone hu]

theorem loneExchange : loneExchangePart := by
  intro s g f h d a b t mode m p q op hm
  refine ⟨fun hi => ?_, fun hi => ?_, fun hi => ⟨?_, ?_⟩, fun hi => ?_⟩
  · refine rendezvousWord_lone (i := .rxchg h d a b t mode m) hi hm ?_
    have own := takes_xchg (cs := [(s.cur.f % 32, .xchg mode (dw (f.rd t a)) (f.src .z32 b % 32) (f.reg d) (t == .b64))])
      (f := f) (i := 0) rfl
    simpa only [List.length_singleton, offered_lone, beq_iff_eq, Fibre.wr] using own
  · refine rendezvousWord_lone (i := .rvote h (.reg d) p .ballot m) hi hm ?_
    have own := takes_ballot (cs := [(s.cur.f % 32, .vote .ballot (f.p p) (f.reg d))]) (f := f) (i := 0) rfl
    rw [List.filter_singleton] at own
    cases hp : f.p p <;> simpa [votesYes, hp, Fibre.wr] using own
  · refine rendezvousWord_lone (i := .rvote h (.pred q) p .any m) hi hm ?_
    simpa [votesYes] using takes_any (cs := [(s.cur.f % 32, .vote .any (f.p p) q.toNat)]) (f := f) (i := 0) rfl
  · refine rendezvousWord_lone (i := .rvote h (.pred q) p .all m) hi hm ?_
    simpa [votesYes] using takes_all (cs := [(s.cur.f % 32, .vote .all (f.p p) q.toNat)]) (f := f) (i := 0) rfl
  · refine rendezvousWord_lone (i := .rred h d a t op m) hi hm ?_
    exact takes_red (cs := [(s.cur.f % 32, .red op t (f.r (f.reg a)) (f.reg d))]) (i := 0) rfl

/-! ### The last member -/

/-- A rendezvous of a mask is complete when every member of it in the rank is present. -/
theorem present_iff {x : Group} {v : Rendezvous} {m : BitVec 3} (hv : v.mask = some m) (hf : v.full = false) :
    x.present v = true ↔ ∀ w ∈ x.fibres, w.1 / 32 = v.rank → (x.mask v.rank m).getLsbD (w.1 % 32) = true →
      ∃ k ∈ v.members, k.lane = w.1 % 32 ∧ k.inc = w.2.inc := by
  rw [Group.present, hf, Bool.false_or, List.all_eq_true]
  refine forall₂_congr fun w _ => ?_
  simp only [hv, Bool.or_eq_true, bne_iff_ne, Bool.not_eq_true', List.any_eq_true, Bool.and_eq_true, beq_iff_eq]
  by_cases hr : w.1 / 32 = v.rank <;> cases (x.mask v.rank m).getLsbD (w.1 % 32) <;> simp [hr]

/-- A member of the mask whose coming completes a rendezvous performs it. -/
theorem rendezvousWord_performs {i : Instr} {h : Hdr} {chks : List Chk} {m : BitVec 3} {offer : Fibre → Offer} {s : State}
    {g : Group} {f : Fibre} {ms : List Member} (hi : Issues s g f h (operandsOf chks))
    (hm : (g.mask (s.cur.f / 32) m).getLsbD (s.cur.f % 32) = true)
    (hr : g.rvs = [⟨s.cur.f / 32, f.pos.pc, some m, ms, false⟩]) (hms : ∀ k ∈ ms, k.lane ≠ s.cur.f % 32)
    (hex : ∀ k ∈ ms, ∀ o, k.offer = some o → IsExchange o) (ho : IsExchange (offer f))
    (hall : ∀ w ∈ g.fibres, w.1 / 32 = s.cur.f / 32 → (g.mask (s.cur.f / 32) m).getLsbD (w.1 % 32) = true →
      (w.1 = s.cur.f ∧ w.2 = f) ∨ ∃ k ∈ ms, k.lane = w.1 % 32 ∧ k.inc = w.2.inc)
    (hother : ∀ k, ¬ MaskDue g (s.cur.f / 32) k) :
    rendezvousWord i h chks false (some m) offer s = .next (kept s (s.setGroup s.cur.g
      (performed ((withRvs g []).updFibre s.cur.f fun v => { v with stat := .wait .rendezvous }) s.cycle
        (s.cur.f / 32) (⟨s.cur.f / 32, f.pos.pc, some m, ⟨s.cur.f % 32, f.inc, some (offer f)⟩ :: ms, false⟩ :
          Rendezvous).contributors))) := by
  set v : Rendezvous := ⟨s.cur.f / 32, f.pos.pc, some m, ⟨s.cur.f % 32, f.inc, some (offer f)⟩ :: ms, false⟩ with hv
  set y := (withRvs g [v]).updFibre s.cur.f fun w => { w with stat := .wait .rendezvous } with hy
  have member : (!(g.mask (s.cur.f / 32) m).getLsbD (s.cur.f % 32)) = false := by rw [hm]; rfl
  have new : g.joined s.cur.f f (some m) = false := by
    simpa [Group.joined, hr] using fun k hk hl => absurd hl (hms k hk)
  have joins : g.join s.cur.f f (some m) (some (offer f)) = withRvs g [v] := by
    simp [Group.join, hr, hv, withRvs]
  have masks : settleMasks y s.cycle (s.cur.f / 32) rankMasks = y :=
    settleMasks_none fun k _ => by simpa [MaskDue, hy] using hother k
  have present : y.present v = true := by
    have here : ∀ w ∈ y.fibres, w.1 / 32 = s.cur.f / 32 → (g.mask (s.cur.f / 32) m).getLsbD (w.1 % 32) = true →
        ∃ k ∈ v.members, k.lane = w.1 % 32 ∧ k.inc = w.2.inc := by
      intro w hw hrank hin
      have old : w.2.inc = f.inc ∧ w.1 = s.cur.f ∨ w ∈ g.fibres := by
        rw [hy, Group.updFibre, fibre?_withRvs, hi.fibre] at hw
        rcases Tab.mem_put hw with rfl | hw
        · exact .inl ⟨rfl, rfl⟩
        · exact .inr hw
      have me : w.2.inc = f.inc ∧ w.1 = s.cur.f ∨ ∃ k ∈ ms, k.lane = w.1 % 32 ∧ k.inc = w.2.inc :=
        old.elim .inl fun hg => (hall w hg hrank hin).imp_left fun ⟨hn, hf⟩ => ⟨by rw [hf], hn⟩
      obtain ⟨hinc, hn⟩ | ⟨k, hk, hl⟩ := me
      · exact ⟨_, List.mem_cons_self, by rw [hn], hinc.symm⟩
      · exact ⟨k, List.mem_cons_of_mem _ hk, hl⟩
    exact (present_iff rfl rfl).2 fun w hw hrank hin => here w hw hrank (by simpa [hy] using hin)
  have exchanges : ∀ p ∈ v.contributors, IsExchange p.2 := by
    intro p hp
    obtain ⟨k, hk, -, hk'⟩ := mem_contributors.1 hp
    rcases List.mem_cons.1 hk with rfl | hk
    · exact Option.some.inj hk' ▸ ho
    · exact hex k hk _ hk'
  have settled : (s.setGroup s.cur.g y).settleRank s.cur.g (s.cur.f / 32) = s.setGroup s.cur.g
      (performed (withRvs y []) s.cycle (s.cur.f / 32) v.contributors) := by
    have only : (y.rvs.filter fun w => w.rank == s.cur.f / 32) = [v] := by simp [hy, hv]
    have rest : (y.rvs.filter fun w => w != v) = [] := by simp [hy]
    rw [settleRank_eq (x := y) (by simp), State.setGroup_cycle, masks, only, List.foldl_cons, List.foldl_nil,
      settleOne_performs (by simp) (by simp [hy]) present exchanges, rest]
    simp only [setGroup_setGroup, State.setGroup_cycle, hv]
  have cleared : withRvs y [] = (withRvs g []).updFibre s.cur.f fun w =>
      { w with stat := .wait .rendezvous } := by
    rw [hy, updFibre_withRvs, updFibre_withRvs, withRvs_withRvs]
  rw [← cleared, ← settled]
  refine runWord_keep (g := g) (f := f) hi ?_
  simp only [member, new, joins, Bool.false_eq_true, if_false, hy]

theorem performedExchange : performedPart := by
  intro s g f h d a b t mode m p q op ms rank hm hr hms hall hother done
  have exchanges : ∀ k ∈ ms, ∀ o, k.offer = some o → IsExchange o := fun k hk o ho c n => by
    obtain ⟨-, hkn⟩ := hms k hk
    simpa [ho] using hkn c n
  have performs (i : Instr) (chks : List Chk) (offer : Fibre → Offer) (ho : IsExchange (offer f))
      (hx : exec i s = rendezvousWord i h chks false (some m) offer s) (hi : Issues s g f h (operandsOf chks)) :
      done i (offer f) := by
    have := rendezvousWord_performs (i := i) (offer := offer) hi hm hr (fun k hk => (hms k hk).1) exchanges ho hall
      fun k => not_maskDue (hother k)
    exact hx.trans this
  refine ⟨fun hi => ?_, fun hi => ?_, fun hi => ⟨?_, ?_⟩, fun hi => ?_⟩
  · exact performs (.rxchg h d a b t mode m) _
      (fun f => .xchg mode (dw (f.rd t a)) (f.src .z32 b % 32) (f.reg d) (t == .b64)) (fun _ _ => by simp) rfl hi
  · exact performs (.rvote h (.reg d) p .ballot m) _ (fun f => .vote .ballot (f.p p) (f.reg d)) (fun _ _ => by simp) rfl hi
  · exact performs (.rvote h (.pred q) p .any m) _ (fun f => .vote .any (f.p p) q.toNat) (fun _ _ => by simp) rfl hi
  · exact performs (.rvote h (.pred q) p .all m) _ (fun f => .vote .all (f.p p) q.toNat) (fun _ _ => by simp) rfl hi
  · exact performs (.rred h d a t op m) _ (fun f => .red op t (f.r (f.reg a)) (f.reg d)) (fun _ _ => by simp) rfl hi

/-- Settles O13: the masks and exchanges of a rank, through what settling a rank does with one mask or one rendezvous
that is due. -/
theorem ranksAndExchange : Obligations.RanksAndExchange :=
  ⟨rejoinMasks, release, loneExchange, performedExchange, received⟩

end Sys2Proof.Proofs
end

section
/-! SUPPORT. The barriers of a group: what the completion of a phase does, and the words that arrive at a barrier (R120,
R121). -/

namespace Sys2Proof.Proofs

open Sys2Proof Sys2Proof.Machine Sys2Proof.Safety Sys2Proof.Laws

/-! ### Live gang fibres -/

/-- A put leaves the entries of other numbers. -/
theorem mem_put_other {α : Type} {k n : Nat} {v w : α} {t : Tab α} (h : k ≠ n) :
    (k, w) ∈ Tab.put n v t ↔ (k, w) ∈ t := by
  induction t with
  | nil => simp [Tab.put, h]
  | cons p t ih =>
    obtain ⟨j, u⟩ := p
    rcases Nat.lt_trichotomy n j with hj | rfl | hj
    · simp [Tab.put, hj, h]
    · simp [Tab.put, h]
    · simp [Tab.put, Nat.not_lt.2 hj.le, hj.ne', ih]

theorem mem_gang {x : Group} {k : Nat} : k ∈ x.gang ↔ ∃ w, (k, w) ∈ x.fibres ∧ w.wave = false := by
  simp [Group.gang]

theorem mem_gang_setFibre {x : Group} {k n : Nat} (h : k ≠ n) (v : Fibre) : k ∈ (x.setFibre n v).gang ↔ k ∈ x.gang := by
  simp only [mem_gang, Group.setFibre, mem_put_other h]

theorem mem_expected {x : Group} {b : Barrier} {k : Nat} : k ∈ x.expected b ↔ k ∈ x.gang ∧ k ∉ b.joined := by
  simp [Group.expected]

/-! ### A phase that completes -/

/-- Every fibre that the current phase of a barrier expects has arrived (R120). -/
def BarDue (x : Group) (n : BitVec 4) : Prop := ∀ k ∈ x.expected (x.bar n), k ∈ (x.bar n).arrived

section

variable {x : Group} {c : Nat} {n k : BitVec 4}

theorem settleBar_due (h : BarDue x n) :
    x.settleBar c n = (x.setBar n { phase := (x.bar n).phase + 1 }).mapFibres fun _ f => releaseBar c n f :=
  if_pos (List.all_eq_true.2 fun m hm => List.contains_iff_mem.2 (h m hm))

theorem settleBar_not_due (h : ¬ BarDue x n) : x.settleBar c n = x :=
  if_neg fun ha => h fun m hm => List.contains_iff_mem.1 (List.all_eq_true.1 ha m hm)

theorem bar_setBar_same (b : Barrier) (h : Tab.wf {} x.bars = true) : (x.setBar n b).bar n = b := Tab.get_set_same _ _ _ h

theorem bar_setBar_other (b : Barrier) (h : k ≠ n) : (x.setBar n b).bar k = x.bar k :=
  Tab.get_set_other _ (fun e => h (BitVec.eq_of_toNat_eq e)) _ _

theorem wf_bars_setBar (n : BitVec 4) (b : Barrier) (h : Tab.wf {} x.bars = true) :
    Tab.wf {} (x.setBar n b).bars = true := Tab.wf_set _ _ _ h

theorem releaseBar_waits {w : Fibre} (h : w.stat = .wait (.bar n false)) :
    releaseBar c n w = (w.setPending n none).advance c := by
  simp [releaseBar, h]

theorem releaseBar_again {w : Fibre} (h : w.stat = .wait (.bar n true)) : releaseBar c n w = w.wake c := if_pos h

theorem releaseBar_other {w : Fibre} (h : ∀ e, w.stat ≠ .wait (.bar n e)) : releaseBar c n w = w := by
  rw [releaseBar, if_neg (h true), if_neg (h false)]

end

/-! ### Arrivals -/

/-- A group at a barrier of which a fibre has arrived, and is now `v`. -/
def arrivedAs (x : Group) (me : Nat) (n : BitVec 4) (v : Fibre) : Group :=
  (x.setBar n { x.bar n with arrived := me :: (x.bar n).arrived }).setFibre me v

/-- A fibre that has arrived at a phase: it waits, or goes on with its arrival pending (R121). -/
def arriving (wait : Bool) (n : BitVec 4) (phase cycle : Nat) (f : Fibre) : Fibre :=
  if wait then { f.setPending n (some phase) with stat := .wait (.bar n false) }
  else (f.setPending n (some phase)).advance cycle

section

variable {s : State} {g : Group} {f v : Fibre} {h : Hdr} {n : BitVec 4} {me : Nat}

theorem bar_arrivedAs (hb : Tab.wf {} g.bars = true) :
    (arrivedAs g me n v).bar n = { g.bar n with arrived := me :: (g.bar n).arrived } := bar_setBar_same _ hb

/-- The phase completes where it expects no other fibre that has yet to arrive. -/
theorem barDue_arrivedAs (hb : Tab.wf {} g.bars = true) :
    BarDue (arrivedAs g me n v) n ↔ ∀ k ∈ g.expected (g.bar n), k ≠ me → k ∈ (g.bar n).arrived := by
  have gang (k : Nat) (hk : k ≠ me) : k ∈ (arrivedAs g me n v).gang ↔ k ∈ g.gang := mem_gang_setFibre hk v
  simp only [BarDue, bar_arrivedAs hb, mem_expected, List.mem_cons]
  constructor
  · intro hd k hk hne
    exact (hd k ⟨(gang k hne).2 hk.1, hk.2⟩).resolve_left hne
  · intro hd k hk
    by_cases hne : k = me
    · exact .inl hne
    · exact .inr (hd k ⟨(gang k hne).1 hk.1, hk.2⟩ hne)

/-- BAR and BARA of a fibre with no pending arrival in the phase arrive, and the phase is settled. -/
theorem arriveWord_arrives {i : Instr} {wait : Bool} (hi : Issues s g f h { gangOnly := true })
    (hp : f.pending n ≠ some (g.bar n).phase) (hs : s.scratchBusy s.cur f.inc = false) :
    arriveWord i h n wait s = .next (kept s (s.setGroup s.cur.g
      ((arrivedAs g s.cur.f n (arriving wait n (g.bar n).phase s.cycle f)).settleBar s.cycle n))) := by
  refine runWord_keep (g := g) (f := f) hi ?_
  have fibre : (g.setBar n { g.bar n with arrived := s.cur.f :: (g.bar n).arrived }).fibre? s.cur.f = some f := hi.fibre
  simp only [hp, hs, if_false, Bool.false_eq_true, updGroup_at hi.group, Group.arrive, Group.updFibre, fibre]
  rfl

/-- What is left of the group once the last arrival has completed the phase. -/
theorem arriveWord_completes {i : Instr} {wait : Bool} (hi : Issues s g f h { gangOnly := true })
    (hp : f.pending n ≠ some (g.bar n).phase) (hs : s.scratchBusy s.cur f.inc = false) (hb : Tab.wf {} g.bars = true)
    (hall : ∀ k ∈ g.expected (g.bar n), k ≠ s.cur.f → k ∈ (g.bar n).arrived) :
    ∃ t x, arriveWord i h n wait s = .next t ∧ t.group? s.cur.g = some x ∧ x.bar n = { phase := (g.bar n).phase + 1 } ∧
      x.fibre? s.cur.f = some { releaseBar s.cycle n (arriving wait n (g.bar n).phase s.cycle f) with grant := none } ∧
      ∀ k w, k ≠ s.cur.f → g.fibre? k = some w → x.fibre? k = some (releaseBar s.cycle n w) := by
  set v := arriving wait n (g.bar n).phase s.cycle f
  set y := (arrivedAs g s.cur.f n v).settleBar s.cycle n with hy
  rw [settleBar_due ((barDue_arrivedAs hb).2 hall), bar_arrivedAs hb] at hy
  have fibres (k : Nat) : y.fibre? k = ((g.setFibre s.cur.f v).fibre? k).map (releaseBar s.cycle n) := by
    rw [hy, fibre?_mapFibres]; rfl
  refine ⟨_, y.updFibre s.cur.f fun u => { u with grant := none }, arriveWord_arrives hi hp hs, ?_, ?_, ?_, ?_⟩
  · rw [kept_group, State.group?_setGroup_same]; rfl
  · have bars : (arrivedAs g s.cur.f n v).bars = (g.setBar n { g.bar n with arrived := s.cur.f :: (g.bar n).arrived }).bars :=
      rfl
    have wf : Tab.wf {} (arrivedAs g s.cur.f n v).bars = true := bars ▸ wf_bars_setBar n _ hb
    simpa [Group.bar, hy] using bar_setBar_same (n := n) { phase := (g.bar n).phase + 1 } wf
  · rw [Group.fibre?_updFibre_same, fibres, Group.fibre?_setFibre_same]; rfl
  · intro k w hk hw
    rw [Group.fibre?_updFibre_other _ hk, fibres, Group.fibre?_setFibre_other _ hk, hw]; rfl

/-- An arrival that is pending in the current phase is waited for. -/
theorem arriveWord_pending {i : Instr} {wait : Bool} (hi : Issues s g f h { gangOnly := true })
    (hp : f.pending n = some (g.bar n).phase) : arriveWord i h n wait s =
      .next (s.updFibre s.cur fun _ => { f with stat := .wait (.bar n true), grant := none }) := by
  refine (runWord_keep (g := g) (f := f) hi (if_pos hp)).trans (congrArg _ ?_)
  rw [kept, State.updFibre_updFibre, updFibre_issues hi]

end

theorem pending_setPending {f : Fibre} {n : BitVec 4} {p : Option Nat} (h : Tab.wf none f.bars = true) :
    (f.setPending n p).pending n = p := Tab.get_set_same _ _ _ h

theorem wf_bars_setPending {f : Fibre} {n : BitVec 4} {p : Option Nat} (h : Tab.wf none f.bars = true) :
    Tab.wf none (f.setPending n p).bars = true := Tab.wf_set _ _ _ h

/-- The fibre whose arrival completed the phase goes on, BARA with its arrival pending. -/
theorem releaseBar_arriving {wait : Bool} {n : BitVec 4} {phase c : Nat} {f : Fibre} (h : Tab.wf none f.bars = true) :
    (releaseBar c n (arriving wait n phase c f)).pos = f.pos.next ∧
    (releaseBar c n (arriving wait n phase c f)).stat = .ready ∧
    (releaseBar c n (arriving wait n phase c f)).pending n = if wait = true then none else some phase := by
  cases wait with
  | true =>
    rw [releaseBar_waits rfl]
    have wf : Tab.wf none (arriving true n phase c f).bars = true := wf_bars_setPending (n := n) (p := some phase) h
    have cleared := pending_setPending (n := n) (p := none) wf
    exact ⟨rfl, rfl, cleared⟩
  | false =>
    rw [releaseBar_other fun e he => by cases he]
    have kept := pending_setPending (n := n) (p := some phase) h
    exact ⟨rfl, rfl, kept⟩

theorem barriers : barriersPart := by
  intro s g f h n hi b awaited
  refine ⟨fun hp hs hb hf => ⟨fun hw => ?_, fun hw => ?_⟩, fun hp => ?_, fun hp => ⟨?_, ?_, ?_⟩⟩
  · have notDue (v : Fibre) : ¬ BarDue (arrivedAs g s.cur.f n v) n := by
      obtain ⟨k, hk, hne, hnot⟩ := hw
      exact fun hd => hnot ((barDue_arrivedAs hb).1 hd k hk hne)
    have bar := arriveWord_arrives (i := .bar h n) (wait := true) hi hp hs
    have bara := arriveWord_arrives (i := .bara h n) (wait := false) hi hp hs
    rw [settleBar_not_due (notDue _)] at bar bara
    exact ⟨bar, bara⟩
  · have all : ∀ k ∈ g.expected (g.bar n), k ≠ s.cur.f → k ∈ (g.bar n).arrived := by
      simpa [awaited] using hw
    have completes (i : Instr) (wait : Bool) (hx : exec i s = arriveWord i h n wait s)
        (hi' : wait = true ↔ i = .bar h n) : ∃ t x v, Runs i s t ∧ t.group? s.cur.g = some x ∧
        x.bar n = { phase := b.phase + 1 } ∧ x.fibre? s.cur.f = some v ∧ v.pos = f.pos.next ∧ v.stat = .ready ∧
        v.pending n = (if i = .bar h n then none else some b.phase) ∧
        ∀ k w, k ≠ s.cur.f → g.fibre? k = some w →
          (w.stat = .wait (.bar n false) → x.fibre? k = some ((w.setPending n none).advance s.cycle)) ∧
          (w.stat = .wait (.bar n true) → x.fibre? k = some (w.wake s.cycle)) ∧
          ((∀ e, w.stat ≠ .wait (.bar n e)) → x.fibre? k = some w) := by
      obtain ⟨t, x, ht, hx', hbar, hme, hk⟩ := arriveWord_completes (i := i) (wait := wait) hi hp hs hb all
      obtain ⟨hpos, hstat, hpend⟩ := releaseBar_arriving (wait := wait) (n := n) (phase := b.phase) (c := s.cycle) hf
      refine ⟨t, x, _, hx.trans ht, hx', hbar, hme, hpos, hstat, ?_, fun k w hne hw => ?_⟩
      · rw [← if_congr hi' rfl rfl]; exact hpend
      · exact ⟨fun hs => releaseBar_waits hs ▸ hk k w hne hw, fun hs => releaseBar_again hs ▸ hk k w hne hw,
          fun hs => (hk k w hne hw).trans (congrArg some (releaseBar_other hs))⟩
    intro i hin
    rcases List.mem_cons.1 hin with rfl | hin
    · exact completes (.bar h n) true rfl (by simp)
    · rw [List.mem_singleton.1 hin]
      exact completes (.bara h n) false rfl (by simp)
  · exact (runWord_ok (i := .barw h n) (g := g) (f := f) hi (if_neg hp)).trans (congrArg _ (went_updFibre hi _))
  · refine (runWord_keep (i := .barw h n) (g := g) (f := f) hi (if_pos hp)).trans (congrArg _ ?_)
    rw [kept, State.updFibre_updFibre, updFibre_issues hi]
  · exact arriveWord_pending (i := .bar h n) (wait := true) hi hp
  · exact arriveWord_pending (i := .bara h n) (wait := false) hi hp

end Sys2Proof.Proofs
end

section
/-! SUPPORT. The barrier of a cluster: what the completion of a phase does, and CBAR and CBARX (R120, R122). -/

namespace Sys2Proof.Proofs

open Sys2Proof Sys2Proof.Machine Sys2Proof.Safety Sys2Proof.Laws

/-! ### Tables in order -/

section

variable {α : Type} {t : Tab α} {k : Nat} {v w : α}

theorem find_of_mem (ht : (t.map (·.1)).Pairwise (· < ·)) (h : (k, v) ∈ t) : Tab.find t k = some v := by
  induction t with
  | nil => cases h
  | cons p t ih =>
    obtain ⟨j, u⟩ := p
    obtain ⟨hj, ht⟩ := List.pairwise_cons.1 ht
    rcases List.mem_cons.1 h with h | h
    · cases h; simp [Tab.find]
    · rw [Tab.find, if_neg (hj k (List.mem_map_of_mem h)).ne]
      exact ih ht h

/-- A put where an entry stands changes that entry alone. -/
theorem put_eq_map (ht : (t.map (·.1)).Pairwise (· < ·)) (h : Tab.find t k = some w) :
    Tab.put k v t = t.map fun p => (p.1, if p.1 = k then v else p.2) := by
  induction t with
  | nil => simp [Tab.find] at h
  | cons p t ih =>
    obtain ⟨j, u⟩ := p
    obtain ⟨hj, ht⟩ := List.pairwise_cons.1 ht
    have above (p : Nat × α) (hp : p ∈ t) : j < p.1 := hj p.1 (List.mem_map_of_mem hp)
    by_cases hjk : j = k
    · subst hjk
      have rest : t.map (fun p => (p.1, if p.1 = j then v else p.2)) = t := by
        refine (List.map_congr_left fun p hp => ?_).trans t.map_id
        rw [if_neg (above p hp).ne']; rfl
      simp [Tab.put, rest]
    · rw [Tab.find, if_neg hjk] at h
      have := above _ (Tab.find_mem h)
      simp [Tab.put, Nat.not_lt.2 this.le, Ne.symm hjk, hjk, ih ht h]

end

/-! ### The groups of a cluster -/

/-- Two groups of one launch, place and launch record. -/
def SamePlace (x y : Group) : Prop := x.launch = y.launch ∧ x.lin = y.lin ∧ x.lr = y.lr

/-- A state whose groups are those of another one, each changed in its place. -/
def Regrouped (s t : State) : Prop :=
  ∃ u : Nat → Group → Group, (∀ k x, SamePlace (u k x) x) ∧ t.groups = s.groups.map fun p => (p.1, u p.1 p.2)

section

variable {s t r : State} {g k : Nat} {x y : Group}

theorem Regrouped.trans (h : Regrouped s t) (h' : Regrouped t r) : Regrouped s r := by
  obtain ⟨u, hu, ht⟩ := h
  obtain ⟨v, hv, hr⟩ := h'
  refine ⟨fun k x => v k (u k x), fun k x => ?_, by simp [hr, ht]⟩
  obtain ⟨hl, hn, hc⟩ := hu k x
  obtain ⟨hl', hn', hc'⟩ := hv k (u k x)
  exact ⟨hl'.trans hl, hn'.trans hn, hc'.trans hc⟩

theorem Regrouped.refl (s : State) : Regrouped s s := ⟨fun _ x => x, fun _ _ => ⟨rfl, rfl, rfl⟩, by simp⟩

theorem Regrouped.keys (h : Regrouped s t) : t.groups.map (·.1) = s.groups.map (·.1) := by
  obtain ⟨u, -, ht⟩ := h
  simp [ht, Function.comp_def]

/-- A change of a group in its place. -/
theorem regrouped_updGroup (hs : (s.groups.map (·.1)).Pairwise (· < ·)) {u : Group → Group}
    (hu : ∀ x, SamePlace (u x) x) : Regrouped s (s.updGroup g u) := by
  cases h : s.group? g with
  | none => simp only [State.updGroup, h]; exact .refl s
  | some x =>
    refine ⟨fun j y => if j = g then u y else y, fun j y => ?_, ?_⟩
    · by_cases hj : j = g
      · simpa only [hj, if_true] using hu y
      · simpa only [hj, if_false] using ⟨rfl, rfl, rfl⟩
    · rw [updGroup_at h, State.setGroup, put_eq_map hs h]
      refine List.map_congr_left fun p hp => ?_
      by_cases hj : p.1 = g
      · have : some p.2 = some x := (find_of_mem hs hp).symm.trans (hj ▸ h)
        simp only [hj, if_true, Option.some.inj this]
      · simp only [hj, if_false]

theorem Regrouped.group? (h : Regrouped s t) (k : Nat) :
    ∃ u : Group → Group, (∀ x, SamePlace (u x) x) ∧ t.group? k = (s.group? k).map u := by
  obtain ⟨u, hu, ht⟩ := h
  exact ⟨u k, hu k, by rw [State.group?, ht, find_map]; rfl⟩

theorem Regrouped.member? (h : Regrouped s t) (hx : SamePlace y x) (k : Nat) : t.member? y k = s.member? x k := by
  obtain ⟨u, hu, ht⟩ := h
  obtain ⟨hl, hn, hc⟩ := hx
  have same (p : Nat × Group) : (u p.1 p.2).launch = p.2.launch ∧ (u p.1 p.2).lin = p.2.lin ∧ (u p.1 p.2).lr = p.2.lr :=
    hu p.1 p.2
  simp only [State.member?, ht, List.find?_map, Function.comp_def, same, hl, hn, hc, Option.map_map]

theorem Regrouped.clusterOf (h : Regrouped s t) (g : Nat) : t.clusterOf g = s.clusterOf g := by
  obtain ⟨v, hv, hg⟩ := h.group? g
  obtain ⟨u, hu, ht⟩ := h
  have same (p : Nat × Group) : (u p.1 p.2).launch = p.2.launch ∧ (u p.1 p.2).lin = p.2.lin ∧ (u p.1 p.2).lr = p.2.lr :=
    hu p.1 p.2
  cases hx : s.group? g with
  | none => simp [State.clusterOf, hg, hx]
  | some x =>
    obtain ⟨hl, hn, hc⟩ := hv x
    simp only [State.clusterOf, hg, hx, Option.map_some, ht, List.filter_map, Function.comp_def, same, hl, hn, hc,
      List.map_map]

/-- A group is of its own cluster. -/
theorem mem_clusterOf_self (h : s.group? g = some x) : g ∈ s.clusterOf g := by
  simp only [State.clusterOf, h, List.mem_map, List.mem_filter]
  exact ⟨(g, x), ⟨Tab.find_mem h, by simp⟩, rfl⟩

/-- The member of a cluster is a group. -/
theorem member?_group (hs : (s.groups.map (·.1)).Pairwise (· < ·)) {m : Nat} (h : s.member? x k = some m) :
    ∃ z, s.group? m = some z := by
  obtain ⟨p, hp, rfl⟩ := Option.map_eq_some_iff.1 h
  exact ⟨p.2, find_of_mem hs (List.mem_of_find?_eq_some hp)⟩

theorem mem_clusterExpected {b : ClusterBarrier} {p : Nat × Nat} : p ∈ s.clusterExpected g b ↔
    p.1 ∈ s.clusterOf g ∧ (∃ y, s.group? p.1 = some y ∧ p.2 ∈ y.gang) ∧ p ∉ b.joined := by
  obtain ⟨i, j⟩ := p
  simp only [State.clusterExpected, List.mem_flatMap]
  constructor
  · rintro ⟨k, hk, hp⟩
    cases hy : s.group? k with
    | none => simp [hy] at hp
    | some y =>
      simp only [hy, List.mem_filter, List.mem_map, Prod.mk.injEq, Bool.not_eq_true', List.contains_eq_mem,
        decide_eq_false_iff_not] at hp
      obtain ⟨⟨f, hf, rfl, rfl⟩, hn⟩ := hp
      exact ⟨hk, ⟨y, hy, hf⟩, hn⟩
  · rintro ⟨hk, ⟨y, hy, hf⟩, hn⟩
    exact ⟨i, hk, by simpa [hy, hf] using hn⟩

end

/-! ### A phase that completes -/

/-- Every fibre that the current phase of the cluster's barrier expects has arrived (R122). -/
def ClusterDue (s : State) (g : Nat) (b : ClusterBarrier) : Prop := ∀ p ∈ s.clusterExpected g b, p ∈ b.arrived

/-- A group with another barrier of its cluster. -/
def withCbar (x : Group) (b : ClusterBarrier) : Group := { x with cbar := b }

/-- The fibres of a group that wait at the barrier of the cluster go on. -/
def releaseCbar (cycle : Nat) (x : Group) : Group :=
  x.mapFibres fun _ f => if f.stat = .wait .cbar then f.advance cycle else f

section

variable {s : State} {g j c : Nat} {x y : Group}

theorem fibre?_releaseCbar (k : Nat) : (releaseCbar c x).fibre? k =
    (x.fibre? k).map fun f => if f.stat = .wait .cbar then f.advance c else f := fibre?_mapFibres ..

@[simp] theorem fibre?_withCbar (b : ClusterBarrier) (k : Nat) : (withCbar x b).fibre? k = x.fibre? k := rfl

theorem fibre?_ite_withCbar {p : Prop} [Decidable p] (b : ClusterBarrier) (k : Nat) :
    (if p then withCbar x b else x).fibre? k = x.fibre? k := by
  split <;> rfl

/-- A fibre that has been released waits no longer. -/
theorem releaseCbar_releaseCbar : releaseCbar c (releaseCbar c x) = releaseCbar c x := by
  have twice (f : Fibre) : (if (if f.stat = .wait .cbar then f.advance c else f).stat = .wait .cbar then
      (if f.stat = .wait .cbar then f.advance c else f).advance c else if f.stat = .wait .cbar then f.advance c else f) =
      if f.stat = .wait .cbar then f.advance c else f := by
    by_cases h : f.stat = .wait .cbar
    · have : (f.advance c).stat ≠ .wait .cbar := fun e => by cases e
      simp only [h, if_true, this, if_false]
    · simp only [h, if_false]
  simp only [releaseCbar, Group.mapFibres, List.map_map, Function.comp_def, twice]

theorem group?_releaseAll (ks : List Nat) (t : State) :
    (ks.foldl (fun t k => t.updGroup k (releaseCbar c)) t).group? j =
      (t.group? j).map fun y => if j ∈ ks then releaseCbar c y else y := by
  induction ks generalizing t with
  | nil => simp
  | cons k ks ih =>
    rw [List.foldl_cons, ih]
    by_cases hj : j = k
    · subst hj
      cases h : t.group? j <;> simp [State.group?_updGroup_same, h, releaseCbar_releaseCbar]
    · simp [State.group?_updGroup_other _ hj, hj]

theorem group?_updCbar (u : ClusterBarrier → ClusterBarrier) : (s.updCbar x u).group? j =
    (s.group? j).map fun y => if s.member? x 0 = some j then withCbar y (u y.cbar) else y := by
  unfold State.updCbar
  cases hm : s.member? x 0 with
  | none => simp
  | some m =>
    by_cases hj : j = m
    · subst hj; simp [State.group?_updGroup_same, withCbar]
    · simp [State.group?_updGroup_other _ hj, Ne.symm hj]

theorem settleCbar_not_due (hg : s.group? g = some x) (h : ¬ ClusterDue s g (s.cbarOf x)) : s.settleCbar g = s := by
  have : (s.clusterExpected g (s.cbarOf x)).all (s.cbarOf x).arrived.contains = false := by
    simpa [ClusterDue] using h
  simp [State.settleCbar, hg, this]

/-- The groups once the phase has completed. -/
theorem group?_settleCbar_due (hg : s.group? g = some x) (h : ClusterDue s g (s.cbarOf x)) : (s.settleCbar g).group? j =
    ((s.updCbar x fun _ => { phase := (s.cbarOf x).phase + 1
                             exited := (s.cbarOf x).exited || (s.cbarOf x).exit_ == some true }).group? j).map
      fun y => if j ∈ s.clusterOf g then releaseCbar s.cycle y else y := by
  have : (s.clusterExpected g (s.cbarOf x)).all (s.cbarOf x).arrived.contains = true := by
    simpa [ClusterDue] using h
  simp only [State.settleCbar, hg, this, if_true]
  exact group?_releaseAll ..

end

/-! ### Arrivals -/

theorem mem_gang_updFibre {x : Group} {k n : Nat} (h : k ≠ n) (u : Fibre → Fibre) :
    k ∈ (x.updFibre n u).gang ↔ k ∈ x.gang := by
  unfold Group.updFibre
  split
  · exact mem_gang_setFibre h _
  · rfl

/-- An arrival at the barrier of a cluster by CBAR or CBARX. -/
def cbarArrival (s : State) (g : Group) (exit : Bool) : State :=
  (s.updCbar g fun c => { c with arrived := (s.cur.g, s.cur.f) :: c.arrived, exit_ := some exit }).updFibre s.cur
    fun v => { v with stat := .wait .cbar }

/-- What the arrival makes of group `j`: member 0 keeps the cluster's barrier, and the fibre waits. -/
def cbarArrived (s : State) (g : Group) (exit : Bool) (j : Nat) (y : Group) : Group :=
  let z := if s.member? g 0 = some j then
    withCbar y { y.cbar with arrived := (s.cur.g, s.cur.f) :: y.cbar.arrived, exit_ := some exit } else y
  if j = s.cur.g then z.updFibre s.cur.f fun v => { v with stat := .wait .cbar } else z

section

variable {s : State} {g : Group} {f : Fibre} {h : Hdr} {exit : Bool}

theorem cycle_updCbar (x : Group) (u : ClusterBarrier → ClusterBarrier) : (s.updCbar x u).cycle = s.cycle := by
  unfold State.updCbar
  split
  · rfl
  · exact State.updGroup_cycle ..

theorem cycle_cbarArrival : (cbarArrival s g exit).cycle = s.cycle :=
  (State.updFibre_cycle ..).trans (cycle_updCbar ..)

theorem group?_cbarArrival (j : Nat) :
    (cbarArrival s g exit).group? j = (s.group? j).map (cbarArrived s g exit j) := by
  by_cases hj : j = s.cur.g
  · subst hj
    rw [cbarArrival, State.updFibre, State.group?_updGroup_same, group?_updCbar, Option.map_map]
    exact Option.map_congr fun y _ => by simp [cbarArrived]
  · rw [cbarArrival, State.updFibre, State.group?_updGroup_other _ hj, group?_updCbar]
    exact Option.map_congr fun y _ => by simp [cbarArrived, hj]

theorem fibre?_cbarArrived_same (y : Group) : (cbarArrived s g exit s.cur.g y).fibre? s.cur.f =
    (y.fibre? s.cur.f).map fun v => { v with stat := .wait .cbar } := by
  rw [cbarArrived, if_pos rfl, Group.fibre?_updFibre_same, fibre?_ite_withCbar]

theorem fibre?_cbarArrived_other {j k : Nat} (hk : (j, k) ≠ (s.cur.g, s.cur.f)) (y : Group) :
    (cbarArrived s g exit j y).fibre? k = y.fibre? k := by
  rw [cbarArrived]
  split
  · next hj => rw [Group.fibre?_updFibre_other _ fun hkf => hk (by rw [hj, hkf]), fibre?_ite_withCbar]
  · rw [fibre?_ite_withCbar]

theorem mem_gang_cbarArrived {j k : Nat} (hk : (j, k) ≠ (s.cur.g, s.cur.f)) (y : Group) :
    k ∈ (cbarArrived s g exit j y).gang ↔ k ∈ y.gang := by
  have same (b : ClusterBarrier) : (if s.member? g 0 = some j then withCbar y b else y).gang = y.gang := by split <;> rfl
  rw [cbarArrived]
  split
  · next hj => rw [mem_gang_updFibre fun hkf => hk (by rw [hj, hkf]), same]
  · rw [same]

theorem regrouped_cbarArrival (hs : (s.groups.map (·.1)).Pairwise (· < ·)) : Regrouped s (cbarArrival s g exit) := by
  have first : Regrouped s (s.updCbar g fun c => { c with arrived := (s.cur.g, s.cur.f) :: c.arrived, exit_ := some exit }) := by
    unfold State.updCbar
    split
    · exact .refl s
    · exact regrouped_updGroup hs fun x => ⟨rfl, rfl, rfl⟩
  exact first.trans (regrouped_updGroup (first.keys ▸ hs) fun x => ⟨by simp, by simp, by simp⟩)

/-- The cluster's barrier after the arrival. -/
theorem cbarOf_cbarArrival (hs : (s.groups.map (·.1)).Pairwise (· < ·)) {x : Group} (hx : SamePlace x g) {m : Nat}
    (hm : s.member? g 0 = some m) : (cbarArrival s g exit).cbarOf x =
      { s.cbarOf g with arrived := (s.cur.g, s.cur.f) :: (s.cbarOf g).arrived, exit_ := some exit } := by
  obtain ⟨z, hz⟩ := member?_group hs hm
  rw [State.cbarOf, (regrouped_cbarArrival hs).member? hx, hm, State.cbarOf, hm, Option.bind_some, Option.bind_some,
    group?_cbarArrival, hz]
  by_cases hmg : m = s.cur.g <;> simp [cbarArrived, hm, hmg, withCbar]

theorem cbarOf_cbarArrival_none (hs : (s.groups.map (·.1)).Pairwise (· < ·)) {x : Group} (hx : SamePlace x g)
    (hm : s.member? g 0 = none) : (cbarArrival s g exit).cbarOf x = s.cbarOf g := by
  rw [State.cbarOf, (regrouped_cbarArrival hs).member? hx, hm, State.cbarOf, hm]
  rfl

/-- The arrival leaves the other fibres that the phase expects. -/
theorem mem_clusterExpected_cbarArrival (hs : (s.groups.map (·.1)).Pairwise (· < ·)) {b : ClusterBarrier} {p : Nat × Nat}
    (hp : p ≠ (s.cur.g, s.cur.f)) :
    p ∈ (cbarArrival s g exit).clusterExpected s.cur.g b ↔ p ∈ s.clusterExpected s.cur.g b := by
  obtain ⟨i, k⟩ := p
  rw [mem_clusterExpected, mem_clusterExpected, (regrouped_cbarArrival hs).clusterOf, group?_cbarArrival]
  cases s.group? i with
  | none => rfl
  | some y => simp only [Option.map_some, Option.some.injEq, exists_eq_left', mem_gang_cbarArrived hp]

/-- A fibre that the phase still awaits keeps it open. -/
theorem not_clusterDue_cbarArrival (hs : (s.groups.map (·.1)).Pairwise (· < ·)) {x : Group} (hx : SamePlace x g)
    {p : Nat × Nat} (hp : p ∈ s.clusterExpected s.cur.g (s.cbarOf g)) (hne : p ≠ (s.cur.g, s.cur.f))
    (hn : p ∉ (s.cbarOf g).arrived) : ¬ ClusterDue (cbarArrival s g exit) s.cur.g ((cbarArrival s g exit).cbarOf x) := by
  cases hm : s.member? g 0 with
  | none =>
    rw [cbarOf_cbarArrival_none hs hx hm]
    exact fun hd => hn (hd p ((mem_clusterExpected_cbarArrival hs hne).2 hp))
  | some m =>
    rw [cbarOf_cbarArrival hs hx hm]
    intro hd
    have := hd p ((mem_clusterExpected_cbarArrival hs hne).2 hp)
    exact hn ((List.mem_cons.1 this).resolve_left hne)

/-- The phase completes where no other fibre is awaited. -/
theorem clusterDue_cbarArrival (hs : (s.groups.map (·.1)).Pairwise (· < ·)) {x : Group} (hx : SamePlace x g) {m : Nat}
    (hm : s.member? g 0 = some m)
    (hall : ∀ p ∈ s.clusterExpected s.cur.g (s.cbarOf g), p ≠ (s.cur.g, s.cur.f) → p ∈ (s.cbarOf g).arrived) :
    ClusterDue (cbarArrival s g exit) s.cur.g ((cbarArrival s g exit).cbarOf x) := by
  rw [cbarOf_cbarArrival hs hx hm]
  intro p hp
  by_cases hne : p = (s.cur.g, s.cur.f)
  · exact List.mem_cons.2 (.inl hne)
  · exact List.mem_cons_of_mem _ (hall p ((mem_clusterExpected_cbarArrival hs hne).1 hp) hne)

/-- The group of the fibre that has arrived. -/
theorem cbarArrival_group (hs : (s.groups.map (·.1)).Pairwise (· < ·)) (hg : s.group? s.cur.g = some g) :
    ∃ x, (cbarArrival s g exit).group? s.cur.g = some x ∧ SamePlace x g := by
  obtain ⟨u, hu, hx⟩ := (regrouped_cbarArrival (g := g) (exit := exit) hs).group? s.cur.g
  exact ⟨u g, by rw [hx, hg]; rfl, hu g⟩

/-- What the completion of the phase makes of a group. -/
theorem group?_completed (hs : (s.groups.map (·.1)).Pairwise (· < ·)) (hg : s.group? s.cur.g = some g) {m : Nat}
    (hm : s.member? g 0 = some m) (hx : (s.cbarOf g).exited = false)
    (hall : ∀ p ∈ s.clusterExpected s.cur.g (s.cbarOf g), p ≠ (s.cur.g, s.cur.f) → p ∈ (s.cbarOf g).arrived) {j : Nat}
    {y : Group} (hy : s.group? j = some y) :
    ∃ z, ((cbarArrival s g exit).settleCbar s.cur.g).group? j = some z ∧
      (j = m → z.cbar = { phase := (s.cbarOf g).phase + 1, exited := exit }) ∧
      (j ∈ s.clusterOf s.cur.g → ∀ k w, y.fibre? k = some w → w.stat = .wait .cbar ∨ (j, k) = (s.cur.g, s.cur.f) →
        z.fibre? k = some (w.advance s.cycle)) := by
  obtain ⟨x, hxg, hxp⟩ := cbarArrival_group (exit := exit) hs hg
  rw [group?_settleCbar_due hxg (clusterDue_cbarArrival hs hxp hm hall), group?_updCbar, group?_cbarArrival, hy,
    (regrouped_cbarArrival hs).member? hxp, (regrouped_cbarArrival hs).clusterOf, cbarOf_cbarArrival hs hxp hm, hm, hx]
  refine ⟨_, rfl, ?_, ?_⟩
  · rintro rfl
    have : (some exit == some true) = exit := by cases exit <;> rfl
    by_cases hc : j ∈ s.clusterOf s.cur.g <;> simp [hc, releaseCbar, withCbar, this]
  · intro hj k w hw hk
    simp only [hj, if_true, fibre?_releaseCbar, fibre?_ite_withCbar, cycle_cbarArrival]
    by_cases hme : (j, k) = (s.cur.g, s.cur.f)
    · obtain ⟨rfl, rfl⟩ := Prod.mk.inj hme
      rw [fibre?_cbarArrived_same, hw]
      exact congrArg some (if_pos rfl)
    · rw [fibre?_cbarArrived_other hme, hw]
      exact congrArg some (if_pos (hk.resolve_right hme))

/-- CBAR and CBARX arrive, and the cluster is settled. -/
theorem cbarWord_arrives {i : Instr} (hi : Issues s g f h { gangOnly := true }) (hx : (s.cbarOf g).exited = false)
    (hne : (s.cbarOf g).exit_ ≠ some (!exit)) (hs : s.scratchBusy s.cur f.inc = false) :
    cbarWord i h exit s = .next (kept s ((cbarArrival s g exit).settleCbar s.cur.g)) := by
  refine runWord_keep (g := g) (f := f) hi ?_
  simp [hx, hne, hs]
  rfl

end

theorem group?_kept (s t : State) (j : Nat) : (kept s t).group? j =
    (t.group? j).map fun x => if j = s.cur.g then x.updFibre s.cur.f fun f => { f with grant := none } else x := by
  by_cases hj : j = s.cur.g
  · subst hj; simpa using kept_group s t
  · rw [kept, State.updFibre, State.group?_updGroup_other _ hj]
    simp [hj]

/-- A word that keeps its fibre's position leaves every other fibre. -/
theorem kept_other {s t : State} {j k : Nat} {x : Group} {w : Fibre} (hne : (j, k) ≠ (s.cur.g, s.cur.f))
    (hx : t.group? j = some x) (hw : x.fibre? k = some w) :
    ∃ z, (kept s t).group? j = some z ∧ z.fibre? k = some w := by
  refine ⟨if j = s.cur.g then x.updFibre s.cur.f fun f => { f with grant := none } else x, by rw [group?_kept, hx]; rfl, ?_⟩
  split
  · next hj => rwa [Group.fibre?_updFibre_other _ fun hk => hne (by rw [hj, hk])]
  · exact hw

theorem clusterBarrier : clusterBarrierPart := by
  intro s g y f w h exit m j k hi hsorted b word awaited
  have hword : exec word s = cbarWord word h exit s := by cases exit <;> rfl
  refine ⟨fun hb => ?_, fun hx hne hs => ⟨fun hw => ?_, fun hw hm => ?_⟩⟩
  · refine hword.trans (runWord_trap (g := g) (f := f) hi (if_pos ?_))
    simpa using hb
  · obtain ⟨p, hp, hpne, hn⟩ := hw
    obtain ⟨x, hxg, hxp⟩ := cbarArrival_group (exit := exit) hsorted hi.group
    refine hword.trans ((cbarWord_arrives hi hx hne hs).trans ?_)
    rw [settleCbar_not_due hxg (not_clusterDue_cbarArrival hsorted hxp hp hpne hn)]
    rfl
  · have hall : ∀ p ∈ s.clusterExpected s.cur.g (s.cbarOf g), p ≠ (s.cur.g, s.cur.f) → p ∈ (s.cbarOf g).arrived := by
      simpa [awaited] using hw
    obtain ⟨z₀, hz₀⟩ := member?_group hsorted hm
    obtain ⟨z, hz, hcbar, -⟩ := group?_completed (exit := exit) hsorted hi.group hm hx hall hz₀
    obtain ⟨x, hxg, -, hfib⟩ := group?_completed (exit := exit) hsorted hi.group hm hx hall hi.group
    have me : x.fibre? s.cur.f = some (f.advance s.cycle) := hfib (mem_clusterOf_self hi.group) _ _ hi.fibre (.inr rfl)
    refine ⟨_, x.updFibre s.cur.f fun v => { v with grant := none }, _, f.advance s.cycle,
      hword.trans (cbarWord_arrives hi hx hne hs), by rw [group?_kept, hz]; rfl, ?_, by rw [kept_group, hxg]; rfl,
      by rw [Group.fibre?_updFibre_same, me]; rfl, rfl, rfl, fun hj hy hw' hs' hne' => ?_⟩
    · by_cases hmg : m = s.cur.g <;> simp [hmg, hcbar, b]
    · obtain ⟨q, hq, -, hqf⟩ := group?_completed (exit := exit) hsorted hi.group hm hx hall hy
      exact kept_other hne' hq (hqf hj k w hw' (.inl hs'))

end Sys2Proof.Proofs
end

section
/-! SUPPORT. A fibre taken out of its group, and what settling the barriers and the masks of the rank leaves of the others
(R118, R120). -/

namespace Sys2Proof.Proofs

open Sys2Proof Sys2Proof.Machine Sys2Proof.Safety Sys2Proof.Laws

/-! ### Tables with an entry removed, and with every entry changed -/

section

variable {α : Type} {t : Tab α} {k m : Nat} {w : α}

theorem mem_del_iff (ht : (t.map (·.1)).Pairwise (· < ·)) : (m, w) ∈ Tab.del k t ↔ (m, w) ∈ t ∧ m ≠ k := by
  induction t with
  | nil => simp [Tab.del]
  | cons p t ih =>
    obtain ⟨j, u⟩ := p
    obtain ⟨hj, ht⟩ := List.pairwise_cons.1 ht
    have above : (m, w) ∈ t → j < m := fun h => hj m (List.mem_map_of_mem h)
    rcases Nat.lt_trichotomy k j with h | rfl | h
    · simp only [Tab.del, h, if_true, List.mem_cons, Prod.mk.injEq]
      refine ⟨fun hm => ⟨hm, ?_⟩, And.left⟩
      rcases hm with ⟨rfl, -⟩ | hm
      · exact h.ne'
      · exact (h.trans (above hm)).ne'
    · simp only [Tab.del, lt_irrefl, if_false, if_true, List.mem_cons, Prod.mk.injEq]
      refine ⟨fun hm => ⟨.inr hm, (above hm).ne'⟩, fun hm => hm.1.resolve_left fun e => hm.2 e.1⟩
    · simp only [Tab.del, Nat.not_lt.2 h.le, h.ne', if_false, List.mem_cons, Prod.mk.injEq, ih ht]
      refine ⟨fun hm => ?_, fun hm => hm.1.imp_right fun h' => ⟨h', hm.2⟩⟩
      rcases hm with ⟨rfl, rfl⟩ | hm
      · exact ⟨.inl ⟨rfl, rfl⟩, h.ne⟩
      · exact ⟨.inr hm.1, hm.2⟩

theorem find_del_same (ht : (t.map (·.1)).Pairwise (· < ·)) : Tab.find (Tab.del k t) k = none := by
  cases hf : Tab.find (Tab.del k t) k with
  | none => rfl
  | some w => exact absurd rfl ((mem_del_iff ht).1 (Tab.find_mem hf)).2

theorem find_del_other (h : m ≠ k) : Tab.find (Tab.del k t) m = Tab.find t m := by
  induction t with
  | nil => rfl
  | cons p t ih =>
    obtain ⟨j, u⟩ := p
    rcases Nat.lt_trichotomy k j with hj | rfl | hj
    · simp [Tab.del, hj]
    · simp [Tab.del, Tab.find, h.symm]
    · simp [Tab.del, Tab.find, Nat.not_lt.2 hj.le, hj.ne', ih]

variable [DecidableEq α] {d : α} {F : α → α}

/-- The entries of a table changed one by one, without those that come to the default. -/
def mapTab (d : α) (F : α → α) (t : Tab α) : Tab α := (t.map fun p => (p.1, F p.2)).filter fun p => p.2 != d

theorem wfFrom_mapTab {b : Nat} (h : Tab.wfFrom d b t = true) : Tab.wfFrom d b (mapTab d F t) = true := by
  induction t generalizing b with
  | nil => rfl
  | cons p t ih =>
    obtain ⟨j, u⟩ := p
    simp only [Tab.wfFrom, Bool.and_eq_true, decide_eq_true_eq] at h
    obtain ⟨⟨hb, -⟩, ht⟩ := h
    by_cases hd : F u = d
    · simpa [mapTab, hd] using ih (Tab.wfFrom_mono d ht (hb.trans (Nat.le_succ j)))
    · simpa [mapTab, hd, Tab.wfFrom, hb] using ih ht

theorem get_mapTab {b : Nat} (hF : F d = d) (h : Tab.wfFrom d b t = true) : Tab.get d (mapTab d F t) k = F (Tab.get d t k) := by
  induction t generalizing b with
  | nil => exact hF.symm
  | cons p t ih =>
    obtain ⟨j, u⟩ := p
    simp only [Tab.wfFrom, Bool.and_eq_true, decide_eq_true_eq] at h
    obtain ⟨-, ht⟩ := h
    by_cases hd : F u = d
    · rw [show mapTab d F ((j, u) :: t) = mapTab d F t by simp [mapTab, hd], ih ht, Tab.get]
      split
      · next hj => rw [Tab.get_of_lt d ht (by omega), hF, hd]
      · rfl
    · rw [show mapTab d F ((j, u) :: t) = (j, F u) :: mapTab d F t by simp [mapTab, hd], Tab.get, Tab.get, ih ht]
      split <;> rfl

end

/-! ### Fibres woken, and settling one after another -/

/-- The fibres of a group may have been woken, those alone that waited where `Q` says. -/
def Wakes (Q : FStat → Prop) (x y : Group) : Prop :=
  ∃ u : Nat → Fibre → Fibre, (∀ k w, (u k w).wave = w.wave ∧ (u k w).inc = w.inc ∧ (¬ Q w.stat → u k w = w)) ∧
    y.fibres = x.fibres.map fun p => (p.1, u p.1 p.2)

section

variable {Q : FStat → Prop} {x y z : Group} {k : Nat} {w : Fibre}

theorem Wakes.of_fibres (h : y.fibres = x.fibres) : Wakes Q x y := ⟨fun _ w => w, fun _ _ => ⟨rfl, rfl, fun _ => rfl⟩, by simp [h]⟩

theorem Wakes.trans (h : Wakes Q x y) (h' : Wakes Q y z) : Wakes Q x z := by
  obtain ⟨u, hu, hy⟩ := h
  obtain ⟨v, hv, hz⟩ := h'
  refine ⟨fun k w => v k (u k w), fun k w => ?_, by simp [hy, hz]⟩
  obtain ⟨hw, hi, hs⟩ := hu k w
  obtain ⟨hw', hi', -⟩ := hv k (u k w)
  exact ⟨hw'.trans hw, hi'.trans hi, fun hq => (congrArg (v k) (hs hq)).trans ((hv k w).2.2 hq)⟩

theorem Wakes.stays (h : Wakes Q x y) (hw : x.fibre? k = some w) (hq : ¬ Q w.stat) : y.fibre? k = some w := by
  obtain ⟨u, hu, hy⟩ := h
  rw [Group.fibre?, hy, find_map, show Tab.find x.fibres k = some w from hw, Option.map_some, (hu k w).2.2 hq]

theorem Wakes.fibre_none (h : Wakes Q x y) (hw : x.fibre? k = none) : y.fibre? k = none := by
  obtain ⟨u, -, hy⟩ := h
  rw [Group.fibre?, hy, find_map, show Tab.find x.fibres k = none from hw, Option.map_none]

theorem Wakes.fibre_some (h : Wakes Q x y) (hw : x.fibre? k = some w) : ∃ v, y.fibre? k = some v := by
  obtain ⟨u, -, hy⟩ := h
  exact ⟨_, by rw [Group.fibre?, hy, find_map, show Tab.find x.fibres k = some w from hw]; rfl⟩

theorem Wakes.gang (h : Wakes Q x y) : y.gang = x.gang := by
  obtain ⟨u, hu, hy⟩ := h
  simp [Group.gang, hy, List.filter_map, Function.comp_def, hu]

theorem Wakes.present (h : Wakes Q x y) (hm : y.masks = x.masks) (v : Rendezvous) : y.present v = x.present v := by
  obtain ⟨u, hu, hy⟩ := h
  simp only [Group.present, hy, List.all_map, Function.comp_def, hu, Group.mask, hm]

end

/-- Settled one after another, each is settled once, and the others leave it as it is. -/
theorem foldl_settles {K : Type} [DecidableEq K] (settle : Group → K → Group) (Keeps : K → Group → Group → Prop)
    (refl : ∀ k x, Keeps k x x) (trans : ∀ k x y z, Keeps k x y → Keeps k y z → Keeps k x z)
    (other : ∀ x j k, j ≠ k → Keeps k x (settle x j)) {ks : List K} (hnd : ks.Nodup) {k : K} (hk : k ∈ ks) (x : Group) :
    ∃ y, Keeps k x y ∧ Keeps k (settle y k) (ks.foldl settle x) := by
  have rest : ∀ (js : List K) (z : Group), k ∉ js → Keeps k z (js.foldl settle z) := by
    intro js
    induction js with
    | nil => exact fun z _ => refl k z
    | cons j js ih =>
      intro z hj
      obtain ⟨hjk, hjs⟩ := List.ne_and_not_mem_of_not_mem_cons hj
      exact trans _ _ _ _ (other z j k (Ne.symm hjk)) (ih _ hjs)
  induction ks generalizing x with
  | nil => cases hk
  | cons j ks ih =>
    obtain ⟨hj, hnd⟩ := List.nodup_cons.1 hnd
    by_cases hjk : j = k
    · subst hjk
      exact ⟨x, refl _ x, rest ks _ hj⟩
    · obtain ⟨y, hy, hy'⟩ := ih hnd (by simpa [Ne.symm hjk] using hk) (settle x j)
      exact ⟨y, trans _ _ _ _ (other x j k hjk) hy, hy'⟩

/-! ### The barriers of a group -/

/-- A fibre waits at a barrier of its group. -/
def AtBar (q : FStat) : Prop := ∃ n e, q = .wait (.bar n e)

/-- What concerns a barrier is as it was: its phase, the gang, and the fibres that wait at no other barrier. -/
def KeepsBar (n : BitVec 4) (x y : Group) : Prop :=
  y.bar n = x.bar n ∧ y.gang = x.gang ∧ (Tab.wf {} x.bars = true → Tab.wf {} y.bars = true) ∧
    ∀ k w, x.fibre? k = some w → (∀ j e, w.stat = .wait (.bar j e) → j = n) → y.fibre? k = some w

/-- The barriers of a group settled in turn. -/
def settleBars (x : Group) (c : Nat) : Group := (List.range 16).foldl (fun y n => y.settleBar c (BitVec.ofNat 4 n)) x

/-- The sixteen barriers, in the order in which they are settled. -/
def groupBars : List (BitVec 4) := (List.range 16).map (BitVec.ofNat 4)

section

variable {x y z : Group} {c : Nat} {n m : BitVec 4}

theorem bar_mapFibres (x : Group) (u : Nat → Fibre → Fibre) (n : BitVec 4) : (x.mapFibres u).bar n = x.bar n := rfl

theorem settleBars_eq : settleBars x c = groupBars.foldl (fun y n => y.settleBar c n) x := List.foldl_map.symm

theorem mem_groupBars (n : BitVec 4) : n ∈ groupBars := by revert n; decide

theorem KeepsBar.refl (n : BitVec 4) (x : Group) : KeepsBar n x x := ⟨rfl, rfl, id, fun _ _ h _ => h⟩

theorem KeepsBar.trans (h : KeepsBar n x y) (h' : KeepsBar n y z) : KeepsBar n x z := by
  obtain ⟨hb, hg, hwf, hf⟩ := h
  obtain ⟨hb', hg', hwf', hf'⟩ := h'
  exact ⟨hb'.trans hb, hg'.trans hg, hwf' ∘ hwf, fun k w hw hq => hf' k w (hf k w hw hq) hq⟩

theorem KeepsBar.due (h : KeepsBar n x y) : BarDue y n ↔ BarDue x n := by
  obtain ⟨hb, hg, -⟩ := h
  simp only [BarDue, mem_expected, hb, hg]

theorem releaseBar_wave_inc (w : Fibre) : (releaseBar c n w).wave = w.wave ∧ (releaseBar c n w).inc = w.inc := by
  unfold releaseBar
  split
  · exact ⟨rfl, rfl⟩
  · split <;> exact ⟨rfl, rfl⟩

theorem wakes_settleBar : Wakes AtBar x (x.settleBar c n) := by
  by_cases h : BarDue x n
  · rw [settleBar_due h]
    refine ⟨fun _ w => releaseBar c n w, fun _ w => ⟨(releaseBar_wave_inc w).1, (releaseBar_wave_inc w).2, fun hq => ?_⟩, rfl⟩
    exact releaseBar_other fun e he => hq ⟨n, e, he⟩
  · rw [settleBar_not_due h]
    exact .of_fibres rfl

theorem keepsBar_settleBar (h : m ≠ n) : KeepsBar n x (x.settleBar c m) := by
  by_cases hd : BarDue x m
  · refine ⟨?_, wakes_settleBar.gang, ?_, fun k w hw hq => ?_⟩
    · rw [settleBar_due hd, bar_mapFibres, bar_setBar_other _ h.symm]
    · rw [settleBar_due hd, Group.mapFibres_bars]
      exact wf_bars_setBar m _
    · rw [settleBar_due hd, fibre?_mapFibres, show (x.setBar m _).fibre? k = some w from hw, Option.map_some,
        releaseBar_other fun e he => h (hq m e he)]
  · rw [settleBar_not_due hd]
    exact .refl n x

/-- A barrier among those settled is settled once. -/
theorem settleBars_settles (n : BitVec 4) (x : Group) :
    ∃ y, KeepsBar n x y ∧ KeepsBar n (y.settleBar c n) (settleBars x c) := by
  rw [settleBars_eq]
  exact foldl_settles (fun y n => y.settleBar c n) KeepsBar KeepsBar.refl (fun _ _ _ _ => KeepsBar.trans)
    (fun _ _ _ => keepsBar_settleBar) (by decide) (mem_groupBars n) x

/-- A phase that is due completes, and the fibres that wait for it go on. -/
theorem settleBars_due (hb : Tab.wf {} x.bars = true) (hd : BarDue x n) :
    (settleBars x c).bar n = { phase := (x.bar n).phase + 1 } ∧
    ∀ k w, x.fibre? k = some w → w.stat = .wait (.bar n false) →
      (settleBars x c).fibre? k = some ((w.setPending n none).advance c) := by
  obtain ⟨y, hxy, hyz⟩ := settleBars_settles (c := c) n x
  have due : BarDue y n := hxy.due.2 hd
  obtain ⟨hbar, -, hwf, hfib⟩ := hxy
  rw [settleBar_due due] at hyz
  obtain ⟨hbar', -, -, hfib'⟩ := hyz
  refine ⟨hbar'.trans ?_, fun k w hw hs => hfib' k _ ?_ fun j e he => by cases he⟩
  · rw [hbar, bar_mapFibres, bar_setBar_same _ (hwf hb)]
  · have hy : y.fibre? k = some w := hfib k w hw fun j e he => by
      rw [hs] at he
      cases he; rfl
    rw [fibre?_mapFibres, show (y.setBar n _).fibre? k = some w from hy, Option.map_some, releaseBar_waits hs]

/-- A phase that is not due stays. -/
theorem settleBars_not_due (hd : ¬ BarDue x n) : (settleBars x c).bar n = x.bar n := by
  obtain ⟨y, hxy, hyz⟩ := settleBars_settles (c := c) n x
  rw [settleBar_not_due (mt hxy.due.1 hd)] at hyz
  exact hyz.1.trans hxy.1

theorem foldl_settleBar (ns : List Nat) (x : Group) : let y := ns.foldl (fun y n => y.settleBar c (BitVec.ofNat 4 n)) x
    Wakes AtBar x y ∧ y.masks = x.masks ∧ y.arrived = x.arrived ∧ y.rvs = x.rvs := by
  induction ns generalizing x with
  | nil => exact ⟨.of_fibres rfl, rfl, rfl, rfl⟩
  | cons n ns ih =>
    obtain ⟨hw, hm, ha, hr⟩ := ih (x.settleBar c (BitVec.ofNat 4 n))
    have same : (x.settleBar c (BitVec.ofNat 4 n)).masks = x.masks ∧ (x.settleBar c (BitVec.ofNat 4 n)).arrived = x.arrived ∧
        (x.settleBar c (BitVec.ofNat 4 n)).rvs = x.rvs := by
      unfold Group.settleBar
      dsimp only
      split <;> exact ⟨rfl, rfl, rfl⟩
    exact ⟨wakes_settleBar.trans hw, hm.trans same.1, ha.trans same.2.1, hr.trans same.2.2⟩

/-- Settling the barriers wakes fibres that wait at barriers alone, and touches no mask and no rendezvous. -/
theorem settleBars_keeps (x : Group) (c : Nat) : Wakes AtBar x (settleBars x c) ∧ (settleBars x c).masks = x.masks ∧
    (settleBars x c).arrived = x.arrived ∧ (settleBars x c).rvs = x.rvs := foldl_settleBar (List.range 16) x

end

/-! ### The masks of a rank -/

/-- A fibre waits at a rejoin mask. -/
def AtJoin (q : FStat) : Prop := ∃ m p, q = .wait (.join m p)

/-- What concerns a mask of a rank is as it was: its members and arrivals, and the fibres that wait at no other mask. -/
def KeepsMask (rank : Nat) (m : BitVec 3) (x y : Group) : Prop :=
  (y.mask rank m = x.mask rank m ∧ y.arrivedAt rank m = x.arrivedAt rank m) ∧
    (Tab.wf 0#32 x.masks = true → Tab.wf 0#32 y.masks = true) ∧
    (Tab.wf 0#32 x.arrived = true → Tab.wf 0#32 y.arrived = true) ∧
    ∀ k w, x.fibre? k = some w → (∀ j p, w.stat = .wait (.join j p) → j = m) → y.fibre? k = some w

section

variable {x y z : Group} {c rank : Nat} {m j : BitVec 3}

theorem KeepsMask.refl (m : BitVec 3) (x : Group) : KeepsMask rank m x x := ⟨⟨rfl, rfl⟩, id, id, fun _ _ h _ => h⟩

theorem KeepsMask.trans (h : KeepsMask rank m x y) (h' : KeepsMask rank m y z) : KeepsMask rank m x z := by
  obtain ⟨⟨hm, ha⟩, hmw, haw, hf⟩ := h
  obtain ⟨⟨hm', ha'⟩, hmw', haw', hf'⟩ := h'
  exact ⟨⟨hm'.trans hm, ha'.trans ha⟩, hmw' ∘ hmw, haw' ∘ haw, fun k w hw hq => hf' k w (hf k w hw hq) hq⟩

theorem KeepsMask.due (h : KeepsMask rank m x y) : MaskDue y rank m ↔ MaskDue x rank m := by
  obtain ⟨⟨hm, ha⟩, -⟩ := h
  rw [MaskDue, MaskDue, hm, ha]

theorem releaseJoin_other {w : Fibre} (h : ∀ p, w.stat ≠ .wait (.join m p)) : releaseJoin c m w = w := by
  unfold releaseJoin
  split
  · next k p hs =>
    by_cases hk : k = m
    · exact absurd (hk ▸ hs) (h p)
    · rw [if_neg hk]
  · rfl

theorem releaseJoin_wave_inc (w : Fibre) : (releaseJoin c m w).wave = w.wave ∧ (releaseJoin c m w).inc = w.inc := by
  unfold releaseJoin
  split
  · next p _ =>
    split
    · cases p <;> exact ⟨rfl, rfl⟩
    · exact ⟨rfl, rfl⟩
  · exact ⟨rfl, rfl⟩

theorem wakes_settleMask : Wakes AtJoin x (x.settleMask c rank m) := by
  by_cases h : MaskDue x rank m
  · rw [settleMask_due h]
    refine ⟨fun n w => if n / 32 = rank then releaseJoin c m w else w, fun n w => ?_, rfl⟩
    by_cases hn : n / 32 = rank
    · simp only [hn, if_true]
      exact ⟨(releaseJoin_wave_inc w).1, (releaseJoin_wave_inc w).2, fun hq => releaseJoin_other fun p hp => hq ⟨m, p, hp⟩⟩
    · simp only [hn, if_false, implies_true, and_self]
  · rw [settleMask_not_due h]
    exact .of_fibres rfl

theorem keepsMask_settleMask (h : j ≠ m) : KeepsMask rank m x (x.settleMask c rank j) := by
  refine ⟨settleMask_other h.symm, ?_⟩
  by_cases hd : MaskDue x rank j
  · rw [settleMask_due hd, Group.mapFibres_masks, Group.mapFibres_arrived]
    refine ⟨wf_masks_setMask rank j _ _, wf_arrived_setMask rank j _ _, fun k w hw hq => ?_⟩
    have stays : releaseJoin c j w = w := releaseJoin_other fun p hp => h (hq j p hp)
    rw [fibre?_mapFibres, show (x.setMask rank j 0#32 0#32).fibre? k = some w from hw, Option.map_some, stays, ite_self]
  · rw [settleMask_not_due hd]
    exact (KeepsMask.refl (rank := rank) m x).2

/-- A mask of the rank is settled once. -/
theorem settleMasks_settles (m : BitVec 3) (x : Group) : ∃ y, KeepsMask rank m x y ∧
    KeepsMask rank m (y.settleMask c rank m) (settleMasks x c rank rankMasks) :=
  foldl_settles (fun y m => y.settleMask c rank m) (KeepsMask rank) KeepsMask.refl (fun _ _ _ _ => KeepsMask.trans)
    (fun _ _ _ => keepsMask_settleMask) rankMasks_nodup (mem_rankMasks m) x

/-- A mask that is due is cleared, and the fibres of the rank that wait at it with JWAIT go on. -/
theorem settleMasks_due (hm : Tab.wf 0#32 x.masks = true) (ha : Tab.wf 0#32 x.arrived = true) (hd : MaskDue x rank m) :
    (settleMasks x c rank rankMasks).mask rank m = 0#32 ∧ (settleMasks x c rank rankMasks).arrivedAt rank m = 0#32 ∧
    ∀ k w, k / 32 = rank → x.fibre? k = some w → w.stat = .wait (.join m none) →
      (settleMasks x c rank rankMasks).fibre? k = some (w.advance c) := by
  obtain ⟨y, hxy, hyz⟩ := settleMasks_settles (c := c) (rank := rank) m x
  have due : MaskDue y rank m := hxy.due.2 hd
  obtain ⟨-, hmw, haw, hfib⟩ := hxy
  rw [settleMask_due due] at hyz
  obtain ⟨⟨hmask, harr⟩, -, -, hfib'⟩ := hyz
  rw [mask_mapFibres, mask_setMask_same _ _ (hmw hm)] at hmask
  rw [arrivedAt_mapFibres, arrivedAt_setMask_same _ _ (haw ha)] at harr
  refine ⟨hmask, harr, fun k w hk hw hs => hfib' k _ ?_ fun j p hp => by cases hp⟩
  have hy : y.fibre? k = some w := hfib k w hw fun j p hp => by
    rw [hs] at hp
    cases hp; rfl
  rw [fibre?_mapFibres, show (y.setMask rank m 0#32 0#32).fibre? k = some w from hy, Option.map_some, if_pos hk,
    releaseJoin_untimed hs]

theorem settleMasks_not_due (hd : ¬ MaskDue x rank m) : (settleMasks x c rank rankMasks).mask rank m = x.mask rank m ∧
    (settleMasks x c rank rankMasks).arrivedAt rank m = x.arrivedAt rank m := by
  obtain ⟨y, hxy, hyz⟩ := settleMasks_settles (c := c) (rank := rank) m x
  rw [settleMask_not_due (mt hxy.due.1 hd)] at hyz
  exact (hxy.trans hyz).1

/-- Settling masks wakes fibres that wait at masks alone, and touches no barrier and no rendezvous. -/
theorem settleMasks_keeps (ms : List (BitVec 3)) (x : Group) : Wakes AtJoin x (settleMasks x c rank ms) ∧
    (settleMasks x c rank ms).bars = x.bars ∧ (settleMasks x c rank ms).rvs = x.rvs := by
  induction ms generalizing x with
  | nil => exact ⟨.of_fibres rfl, rfl, rfl⟩
  | cons m ms ih =>
    obtain ⟨hw, hb, hr⟩ := ih (x.settleMask c rank m)
    have same : (x.settleMask c rank m).bars = x.bars ∧ (x.settleMask c rank m).rvs = x.rvs := by
      unfold Group.settleMask
      dsimp only
      split <;> exact ⟨rfl, rfl⟩
    exact ⟨wakes_settleMask.trans hw, hb.trans same.1, hr.trans same.2⟩

end

end Sys2Proof.Proofs
end

section
/-! SUPPORT. FEND takes its fibre out of its group; what its leaving completes is completed (R118, R120). -/

namespace Sys2Proof.Proofs

open Sys2Proof Sys2Proof.Machine Sys2Proof.Safety Sys2Proof.Laws

/-! ### A fibre taken out of its group -/

/-- Lanes taken out of the masks of a rank. -/
def cutMasks (x : Group) (rank : Nat) (keep : BitVec 32) (ms : List (BitVec 3)) (y : Group) : Group :=
  ms.foldl (fun z m => z.setMask rank m (x.mask rank m &&& keep) (x.arrivedAt rank m &&& keep)) y

theorem mask_cutMasks {x y : Group} {rank : Nat} {keep : BitVec 32} {ms : List (BitVec 3)} {m : BitVec 3}
    (hm : Tab.wf 0#32 y.masks = true) (ha : Tab.wf 0#32 y.arrived = true)
    (h : m ∈ ms ∨ y.mask rank m = x.mask rank m &&& keep ∧ y.arrivedAt rank m = x.arrivedAt rank m &&& keep) :
    (cutMasks x rank keep ms y).mask rank m = x.mask rank m &&& keep ∧
      (cutMasks x rank keep ms y).arrivedAt rank m = x.arrivedAt rank m &&& keep := by
  induction ms generalizing y with
  | nil => exact h.resolve_left List.not_mem_nil
  | cons k ms ih =>
    refine ih (wf_masks_setMask rank k _ _ hm) (wf_arrived_setMask rank k _ _ ha) ?_
    by_cases hk : m = k
    · subst hk
      exact .inr ⟨mask_setMask_same _ _ hm, arrivedAt_setMask_same _ _ ha⟩
    · rw [mask_setMask_other _ _ hk, arrivedAt_setMask_other _ _ hk]
      exact h.imp_left fun h => (List.mem_cons.1 h).resolve_left hk

theorem wf_cutMasks {x y : Group} {rank : Nat} {keep : BitVec 32} {ms : List (BitVec 3)}
    (hm : Tab.wf 0#32 y.masks = true) (ha : Tab.wf 0#32 y.arrived = true) :
    Tab.wf 0#32 (cutMasks x rank keep ms y).masks = true ∧ Tab.wf 0#32 (cutMasks x rank keep ms y).arrived = true := by
  induction ms generalizing y with
  | nil => exact ⟨hm, ha⟩
  | cons k ms ih => exact ih (wf_masks_setMask rank k _ _ hm) (wf_arrived_setMask rank k _ _ ha)

/-- A barrier without a fibre. -/
def cutBar (me : Nat) (b : Barrier) : Barrier :=
  { b with joined := b.joined.filter (· != me), arrived := b.arrived.filter (· != me) }

/-- A rendezvous without a lane. -/
def cutRv (lane : Nat) (r : Rendezvous) : Rendezvous := { r with members := r.members.filter fun l => l.lane != lane }

section

variable {g : Group} {me k : Nat} {m : BitVec 3} {n : BitVec 4}

theorem masks_removeFibre : (g.removeFibre me).masks = (cutMasks g (me / 32) (~~~(laneBit me)) rankMasks g).masks ∧
    (g.removeFibre me).arrived = (cutMasks g (me / 32) (~~~(laneBit me)) rankMasks g).arrived := by
  simp [Group.removeFibre, cutMasks, rankMasks, List.foldl_map]

theorem mask_removeFibre (hm : Tab.wf 0#32 g.masks = true) (ha : Tab.wf 0#32 g.arrived = true) :
    (g.removeFibre me).mask (me / 32) m = g.mask (me / 32) m &&& ~~~(laneBit me) ∧
    (g.removeFibre me).arrivedAt (me / 32) m = g.arrivedAt (me / 32) m &&& ~~~(laneBit me) := by
  obtain ⟨hmask, harr⟩ := masks_removeFibre (g := g) (me := me)
  rw [Group.mask, hmask, Group.arrivedAt, harr]
  exact mask_cutMasks hm ha (.inl (mem_rankMasks m))

theorem wf_masks_removeFibre (hm : Tab.wf 0#32 g.masks = true) (ha : Tab.wf 0#32 g.arrived = true) :
    Tab.wf 0#32 (g.removeFibre me).masks = true ∧ Tab.wf 0#32 (g.removeFibre me).arrived = true := by
  obtain ⟨hmask, harr⟩ := masks_removeFibre (g := g) (me := me)
  rw [hmask, harr]
  exact wf_cutMasks hm ha

theorem bars_removeFibre : (g.removeFibre me).bars = mapTab {} (cutBar me) g.bars := rfl

theorem bar_removeFibre (hb : Tab.wf {} g.bars = true) : (g.removeFibre me).bar n = cutBar me (g.bar n) := by
  rw [Group.bar, bars_removeFibre]
  exact get_mapTab rfl hb

theorem wf_bars_removeFibre (hb : Tab.wf {} g.bars = true) : Tab.wf {} (g.removeFibre me).bars = true := by
  rw [bars_removeFibre]
  exact wfFrom_mapTab hb

theorem fibres_removeFibre : (g.removeFibre me).fibres = Tab.del me g.fibres := rfl

theorem fibre?_removeFibre_same (hf : (g.fibres.map (·.1)).Pairwise (· < ·)) : (g.removeFibre me).fibre? me = none :=
  find_del_same hf

theorem fibre?_removeFibre_other (hk : k ≠ me) : (g.removeFibre me).fibre? k = g.fibre? k := find_del_other hk

theorem rvs_removeFibre : (g.removeFibre me).rvs = g.rvs.map fun v => if v.rank = me / 32 then cutRv (me % 32) v else v := rfl

theorem mem_gang_removeFibre (hf : (g.fibres.map (·.1)).Pairwise (· < ·)) :
    k ∈ (g.removeFibre me).gang ↔ k ∈ g.gang ∧ k ≠ me := by
  simp only [mem_gang, fibres_removeFibre, mem_del_iff hf]
  tauto

/-- The phase that awaited the fibre alone is due without it. -/
theorem barDue_removeFibre (hf : (g.fibres.map (·.1)).Pairwise (· < ·)) (hb : Tab.wf {} g.bars = true)
    (h : ∀ k ∈ g.expected (g.bar n), k = me ∨ k ∈ (g.bar n).arrived) : BarDue (g.removeFibre me) n := by
  intro k hk
  rw [mem_expected, mem_gang_removeFibre hf, bar_removeFibre hb] at hk
  obtain ⟨⟨hg, hne⟩, hj⟩ := hk
  have hj : k ∉ (g.bar n).joined := fun hj' => hj (List.mem_filter.2 ⟨hj', by simpa using hne⟩)
  have arrived := (h k (mem_expected.2 ⟨hg, hj⟩)).resolve_left hne
  rw [bar_removeFibre hb]
  exact List.mem_filter.2 ⟨arrived, by simpa using hne⟩

theorem and_not_and_not (a b c : BitVec 32) : a &&& ~~~b &&& ~~~(c &&& ~~~b) = a &&& ~~~b &&& ~~~c := by
  have bit : ∀ p q r : Bool, (p && !q && !(r && !q)) = (p && !q && !r) := by decide
  ext i hi
  simp only [BitVec.getElem_and, BitVec.getElem_not, bit]

theorem maskDue_removeFibre (hm : Tab.wf 0#32 g.masks = true) (ha : Tab.wf 0#32 g.arrived = true) :
    MaskDue (g.removeFibre me) (me / 32) m ↔ g.mask (me / 32) m &&& ~~~(laneBit me) ≠ 0#32 ∧
      g.mask (me / 32) m &&& ~~~(laneBit me) &&& ~~~(g.arrivedAt (me / 32) m) = 0#32 := by
  obtain ⟨hmask, harr⟩ := mask_removeFibre (m := m) (me := me) hm ha
  rw [MaskDue, hmask, harr, and_not_and_not]

end

/-! ### The end of a fibre -/

/-- The group that a fibre has left, its barriers settled. -/
def leftGroup (g : Group) (me c : Nat) : Group := settleBars (g.removeFibre me) c

section

variable {s : State} {g : Group} {r : FRef}

/-- The state once the fibre has left its group and its cluster's barrier. -/
def leftState (s : State) (g : Group) (r : FRef) : State :=
  (s.setGroup r.g (leftGroup g r.f s.cycle)).updCbar (leftGroup g r.f s.cycle) fun b =>
    { b with joined := b.joined.filter (· != (r.g, r.f)), arrived := b.arrived.filter (· != (r.g, r.f)) }

theorem withCbar_cbar (x : Group) : withCbar x x.cbar = x := rfl

@[simp] theorem masks_withCbar (x : Group) (b : ClusterBarrier) : (withCbar x b).masks = x.masks := rfl

@[simp] theorem arrived_withCbar (x : Group) (b : ClusterBarrier) : (withCbar x b).arrived = x.arrived := rfl

@[simp] theorem bars_withCbar (x : Group) (b : ClusterBarrier) : (withCbar x b).bars = x.bars := rfl

@[simp] theorem rvs_withCbar (x : Group) (b : ClusterBarrier) : (withCbar x b).rvs = x.rvs := rfl

@[simp] theorem fibres_withCbar (x : Group) (b : ClusterBarrier) : (withCbar x b).fibres = x.fibres := rfl

theorem leftState_group : ∃ b, (leftState s g r).group? r.g = some (withCbar (leftGroup g r.f s.cycle) b) := by
  rw [leftState, group?_updCbar, State.group?_setGroup_same, Option.map_some]
  split
  · exact ⟨_, rfl⟩
  · exact ⟨_, congrArg some (withCbar_cbar _).symm⟩

theorem leftState_cycle : (leftState s g r).cycle = s.cycle := (cycle_updCbar ..).trans (State.setGroup_cycle ..)

/-- Fibres that wait at the barrier of their cluster may have been woken; no mask, barrier or rendezvous is touched. -/
def CbarEased (x y : Group) : Prop :=
  Wakes (· = .wait .cbar) x y ∧ y.masks = x.masks ∧ y.arrived = x.arrived ∧ y.bars = x.bars ∧ y.rvs = x.rvs

theorem cbarEased_releaseCbar (x : Group) (c : Nat) : CbarEased x (releaseCbar c x) := by
  refine ⟨⟨fun _ f => if f.stat = .wait .cbar then f.advance c else f, fun _ f => ?_, rfl⟩, rfl, rfl, rfl, rfl⟩
  by_cases hs : f.stat = .wait .cbar
  · simp only [hs, if_true, not_true_eq_false, false_implies, and_true]
    exact ⟨rfl, rfl⟩
  · simp only [hs, if_false, implies_true, and_self]

theorem cbarEased_refl (x : Group) : CbarEased x x := ⟨.of_fibres rfl, rfl, rfl, rfl, rfl⟩

theorem CbarEased.trans {x y z : Group} (h : CbarEased x y) (h' : CbarEased y z) : CbarEased x z := by
  obtain ⟨hw, hm, ha, hb, hr⟩ := h
  obtain ⟨hw', hm', ha', hb', hr'⟩ := h'
  exact ⟨hw.trans hw', hm'.trans hm, ha'.trans ha, hb'.trans hb, hr'.trans hr⟩

/-- Settling the cluster's barrier. -/
theorem settleCbar_eases {t : State} {k : Nat} {x : Group} (hx : t.group? k = some x) :
    ∃ y, (t.settleCbar k).group? k = some y ∧ CbarEased x y := by
  by_cases hd : ClusterDue t k (t.cbarOf x)
  · rw [group?_settleCbar_due hx hd, group?_updCbar, hx]
    have kept (p : Prop) [Decidable p] (b : ClusterBarrier) : CbarEased x (if p then withCbar x b else x) := by
      split
      · exact ⟨.of_fibres rfl, rfl, rfl, rfl, rfl⟩
      · exact cbarEased_refl x
    have released (p : Prop) [Decidable p] (y : Group) : CbarEased y (if p then releaseCbar t.cycle y else y) := by
      split
      · exact cbarEased_releaseCbar y _
      · exact cbarEased_refl y
    exact ⟨_, rfl, (kept _ _).trans (released _ _)⟩
  · rw [settleCbar_not_due hx hd]
    exact ⟨x, hx, cbarEased_refl x⟩

/-- A fibre that leaves others of its rank behind: its rank is settled, and the cluster's barrier. -/
theorem endFibre_eq (hg : s.group? r.g = some g) (hslot : ((s.fibre? r).bind fun f => f.slot) = none)
    (hgang : ∃ k ∈ (leftGroup g r.f s.cycle).gang, k / 32 = r.f / 32) {x : Group}
    (hx : ((leftState s g r).settleRank r.g (r.f / 32)).group? r.g = some x) (hne : ∃ k w, x.fibre? k = some w) :
    s.endFibre r = ((leftState s g r).settleRank r.g (r.f / 32)).settleCbar r.g := by
  obtain ⟨y, hy, ⟨hw, -⟩⟩ := settleCbar_eases hx
  obtain ⟨k, w, hk⟩ := hne
  obtain ⟨v, hv⟩ := hw.fibre_some hk
  have left : (s.updGroup r.g fun x => (List.range 16).foldl (fun y n => y.settleBar s.cycle (BitVec.ofNat 4 n))
      (x.removeFibre r.f)) = s.setGroup r.g (leftGroup g r.f s.cycle) := updGroup_at hg _
  have rank : ((leftGroup g r.f s.cycle).gang.any fun n => n / 32 == r.f / 32) = true := by
    simpa using hgang
  have nonempty : y.fibres.isEmpty = false := by
    cases hf : y.fibres with
    | nil => simp [Group.fibre?, hf, Tab.find] at hv
    | cons => rfl
  have stays : (((leftState s g r).settleRank r.g (r.f / 32)).settleCbar r.g).endIfDone r.g =
      ((leftState s g r).settleRank r.g (r.f / 32)).settleCbar r.g := by
    simp only [State.endIfDone, hy, nonempty, Bool.not_false, Bool.true_or, if_true]
  refine Eq.trans ?_ stays
  simp only [State.endFibre, hslot, left, State.group?_setGroup_same, rank, if_true]
  rfl

end

end Sys2Proof.Proofs
end

section
/-! SUPPORT. FEND once its rank is settled: masks, barriers and the rendezvous that awaited the fibre (R118, R120), and the
words that start and end fibres (R117 to R119). -/

namespace Sys2Proof.Proofs

open Sys2Proof Sys2Proof.Machine Sys2Proof.Safety Sys2Proof.Laws

/-! ### The group once its rank is settled -/

/-- The group that a fibre has left, its barriers and the masks of the fibre's rank settled. -/
def leftRank (g : Group) (me c : Nat) (b : ClusterBarrier) : Group :=
  settleMasks (withCbar (leftGroup g me c) b) c (me / 32) rankMasks

theorem maskDue_congr {x y : Group} {rank : Nat} {m : BitVec 3} (hm : y.masks = x.masks) (ha : y.arrived = x.arrived) :
    MaskDue y rank m ↔ MaskDue x rank m := by
  simp only [MaskDue, Group.mask, Group.arrivedAt, hm, ha]

section

variable {g : Group} {me c k : Nat} {b : ClusterBarrier} {w : Fibre} {m : BitVec 3} {n : BitVec 4}

theorem leftGroup_keeps : Wakes AtBar (g.removeFibre me) (withCbar (leftGroup g me c) b) ∧
    (withCbar (leftGroup g me c) b).masks = (g.removeFibre me).masks ∧
    (withCbar (leftGroup g me c) b).arrived = (g.removeFibre me).arrived ∧
    (withCbar (leftGroup g me c) b).rvs = (g.removeFibre me).rvs := by
  rw [masks_withCbar, arrived_withCbar, rvs_withCbar, leftGroup]
  obtain ⟨hw, kept⟩ := settleBars_keeps (g.removeFibre me) c
  exact ⟨hw.trans (.of_fibres (fibres_withCbar ..)), kept⟩

theorem bar_leftRank : (leftRank g me c b).bar n = (leftGroup g me c).bar n := by
  obtain ⟨-, hb, -⟩ := settleMasks_keeps (c := c) (rank := me / 32) rankMasks (withCbar (leftGroup g me c) b)
  rw [leftRank, Group.bar, hb, bars_withCbar, Group.bar]

theorem rvs_leftRank : (leftRank g me c b).rvs = (g.removeFibre me).rvs := by
  obtain ⟨-, -, hr⟩ := settleMasks_keeps (c := c) (rank := me / 32) rankMasks (withCbar (leftGroup g me c) b)
  obtain ⟨-, -, -, hr'⟩ := leftGroup_keeps (g := g) (me := me) (c := c) (b := b)
  exact hr.trans hr'

/-- The fibres that wait at no barrier of the group stay until the masks are settled. -/
theorem fibre?_leftGroup (hk : k ≠ me) (hw : g.fibre? k = some w) (hs : ¬ AtBar w.stat) :
    (withCbar (leftGroup g me c) b).fibre? k = some w := by
  obtain ⟨hwk, -⟩ := leftGroup_keeps (g := g) (me := me) (c := c) (b := b)
  exact hwk.stays ((fibre?_removeFibre_other hk).trans hw) hs

theorem wakes_leftRank : Wakes AtJoin (withCbar (leftGroup g me c) b) (leftRank g me c b) :=
  (settleMasks_keeps (c := c) rankMasks _).1

theorem fibre?_leftRank (hk : k ≠ me) (hw : g.fibre? k = some w) (hs : ¬ AtBar w.stat) (hj : ¬ AtJoin w.stat) :
    (leftRank g me c b).fibre? k = some w := wakes_leftRank.stays (fibre?_leftGroup hk hw hs) hj

theorem fibre?_leftRank_none (hf : (g.fibres.map (·.1)).Pairwise (· < ·)) : (leftRank g me c b).fibre? me = none := by
  obtain ⟨hwk, -⟩ := leftGroup_keeps (g := g) (me := me) (c := c) (b := b)
  exact wakes_leftRank.fibre_none (hwk.fibre_none (fibre?_removeFibre_same hf))

theorem fibre?_leftRank_some (hk : k ≠ me) (hw : g.fibre? k = some w) : ∃ v, (leftRank g me c b).fibre? k = some v := by
  obtain ⟨hwk, -⟩ := leftGroup_keeps (g := g) (me := me) (c := c) (b := b)
  obtain ⟨v, hv⟩ := hwk.fibre_some ((fibre?_removeFibre_other hk).trans hw)
  exact wakes_leftRank.fibre_some hv

/-- A phase that awaited the fibre alone has completed, and the fibres that waited for it have gone on. -/
theorem leftRank_bar_due (hb : Tab.wf {} g.bars = true) (hd : BarDue (g.removeFibre me) n) :
    (leftRank g me c b).bar n = { phase := (g.bar n).phase + 1 } ∧ ∀ k w, k ≠ me → g.fibre? k = some w →
      w.stat = .wait (.bar n false) → (leftRank g me c b).fibre? k = some ((w.setPending n none).advance c) := by
  obtain ⟨hbar, hfib⟩ := settleBars_due (c := c) (wf_bars_removeFibre hb) hd
  refine ⟨?_, fun k w hk hw hs => ?_⟩
  · rw [bar_leftRank, leftGroup, hbar, bar_removeFibre hb, cutBar]
  · have released : (withCbar (leftGroup g me c) b).fibre? k = some ((w.setPending n none).advance c) := by
      rw [fibre?_withCbar, leftGroup]
      exact hfib k w ((fibre?_removeFibre_other hk).trans hw) hs
    exact wakes_leftRank.stays released fun ⟨_, _, hq⟩ => by cases hq

theorem leftRank_bar_not_due (hb : Tab.wf {} g.bars = true) (hd : ¬ BarDue (g.removeFibre me) n) :
    (leftRank g me c b).bar n = cutBar me (g.bar n) := by
  rw [bar_leftRank, leftGroup, settleBars_not_due hd, bar_removeFibre hb]

/-- No barrier holds the fibre. -/
theorem leftRank_bar_without (hb : Tab.wf {} g.bars = true) (n : BitVec 4) :
    me ∉ ((leftRank g me c b).bar n).arrived ∧ me ∉ ((leftRank g me c b).bar n).joined := by
  by_cases hd : BarDue (g.removeFibre me) n
  · rw [(leftRank_bar_due hb hd).1]
    exact ⟨List.not_mem_nil, List.not_mem_nil⟩
  · rw [leftRank_bar_not_due hb hd]
    simp [cutBar]

section

variable (hm : Tab.wf 0#32 g.masks = true) (ha : Tab.wf 0#32 g.arrived = true)

include hm ha

theorem maskDue_leftGroup : MaskDue (withCbar (leftGroup g me c) b) (me / 32) m ↔
    g.mask (me / 32) m &&& ~~~(laneBit me) ≠ 0#32 ∧
      g.mask (me / 32) m &&& ~~~(laneBit me) &&& ~~~(g.arrivedAt (me / 32) m) = 0#32 := by
  obtain ⟨-, hm', ha', -⟩ := leftGroup_keeps (g := g) (me := me) (c := c) (b := b)
  rw [maskDue_congr hm' ha', maskDue_removeFibre hm ha]

/-- A mask whose members have all arrived without the fibre is released. -/
theorem leftRank_mask_due (hd : MaskDue (withCbar (leftGroup g me c) b) (me / 32) m) :
    (leftRank g me c b).mask (me / 32) m = 0#32 ∧ (leftRank g me c b).arrivedAt (me / 32) m = 0#32 ∧
    ∀ k w, k ≠ me → k / 32 = me / 32 → g.fibre? k = some w → w.stat = .wait (.join m none) →
      (leftRank g me c b).fibre? k = some (w.advance c) := by
  obtain ⟨-, hm', ha', -⟩ := leftGroup_keeps (g := g) (me := me) (c := c) (b := b)
  obtain ⟨wm, wa⟩ := wf_masks_removeFibre (me := me) hm ha
  rw [← hm'] at wm
  rw [← ha'] at wa
  rw [leftRank]
  obtain ⟨hmask, harr, hfib⟩ := settleMasks_due (c := c) wm wa hd
  refine ⟨hmask, harr, fun k w hk hrank hw hs => hfib k w hrank (fibre?_leftGroup hk hw ?_) hs⟩
  rintro ⟨j, e, he⟩
  rw [hs] at he
  cases he

theorem leftRank_mask_not_due (hd : ¬ MaskDue (withCbar (leftGroup g me c) b) (me / 32) m) :
    (leftRank g me c b).mask (me / 32) m = g.mask (me / 32) m &&& ~~~(laneBit me) ∧
    (leftRank g me c b).arrivedAt (me / 32) m = g.arrivedAt (me / 32) m &&& ~~~(laneBit me) := by
  obtain ⟨-, hm', ha', -⟩ := leftGroup_keeps (g := g) (me := me) (c := c) (b := b)
  obtain ⟨hmask, harr⟩ := settleMasks_not_due (c := c) hd
  obtain ⟨hmask', harr'⟩ := mask_removeFibre (m := m) (me := me) hm ha
  rw [leftRank, hmask, harr, ← hmask', ← harr', Group.mask, hm', Group.arrivedAt, ha']
  exact ⟨rfl, rfl⟩

omit hm ha in
theorem getLsbD_and_not_laneBit (v : BitVec 32) : (v &&& ~~~(laneBit me)).getLsbD (me % 32) = false := by
  simp [laneBit, BitVec.getLsbD_shiftLeft]

/-- No mask of the rank holds the fibre. -/
theorem leftRank_mask_without (m : BitVec 3) : ((leftRank g me c b).mask (me / 32) m).getLsbD (me % 32) = false ∧
    ((leftRank g me c b).arrivedAt (me / 32) m).getLsbD (me % 32) = false := by
  by_cases hd : MaskDue (withCbar (leftGroup g me c) b) (me / 32) m
  · obtain ⟨hmask, harr, -⟩ := leftRank_mask_due hm ha hd
    rw [hmask, harr]
    exact ⟨BitVec.getLsbD_zero, BitVec.getLsbD_zero⟩
  · obtain ⟨hmask, harr⟩ := leftRank_mask_not_due hm ha hd
    rw [hmask, harr]
    exact ⟨getLsbD_and_not_laneBit _, getLsbD_and_not_laneBit _⟩

end

end

end Sys2Proof.Proofs
end

section
/-! SUPPORT. The rendezvous that awaited a fibre which ends (R118), and the words that start and end fibres (R117 to
R119). -/

namespace Sys2Proof.Proofs

open Sys2Proof Sys2Proof.Machine Sys2Proof.Safety Sys2Proof.Laws

/-! ### The contributors of an exchange -/

section

variable {cs : List (Nat × Offer)} {x : Group} {c rank : Nat}

theorem exchange_lanes : (exchange cs).map (·.1) = cs.map (·.1) := by
  have lanes : (exchange cs).map (·.1) = (cs.zipIdx.map Prod.fst).map (·.1) := by
    rw [exchange, List.map_map, List.map_map]
    rfl
  rw [lanes, List.zipIdx_map_fst]

theorem exchange_contributor {u : Nat × (Fibre → Fibre)} (h : u ∈ exchange cs) : ∃ q ∈ cs, q.1 = u.1 := by
  have : u.1 ∈ cs.map (·.1) := exchange_lanes ▸ List.mem_map_of_mem h
  exact List.mem_map.1 this

theorem contributors_lanes {v : Rendezvous} (h : (v.members.map (·.lane)).Nodup) : (v.contributors.map (·.1)).Nodup := by
  have sub (ms : List Member) : ((ms.filterMap fun q => q.offer.map fun o => (q.lane, o)).map (·.1)).Sublist
      (ms.map (·.lane)) := by
    induction ms with
    | nil => exact .slnil
    | cons q ms ih =>
      cases hq : q.offer with
      | none => simpa [hq] using ih.cons q.lane
      | some o => simpa [hq] using ih.cons_cons q.lane
  exact ((sortBy_perm _ _).map _).nodup_iff.2 ((sub v.members).nodup h)

theorem fibre?_updFibre_some {k n : Nat} {w : Fibre} (u : Fibre → Fibre) (h : x.fibre? k = some w) :
    ∃ v, (x.updFibre n u).fibre? k = some v := by
  by_cases hk : k = n
  · subst hk; exact ⟨u w, by rw [Group.fibre?_updFibre_same, h]; rfl⟩
  · exact ⟨w, by rw [Group.fibre?_updFibre_other _ hk, h]⟩

/-- The contributors take their results one after another. -/
def takeAll (c rank : Nat) (us : List (Nat × (Fibre → Fibre))) (x : Group) : Group :=
  us.foldl (fun z u => z.updFibre (32 * rank + u.1) fun f => (u.2 f).advance c) x

theorem performed_eq : performed x c rank cs = takeAll c rank (exchange cs) x := rfl

variable {us : List (Nat × (Fibre → Fibre))} {k : Nat} {w : Fibre}

theorem rvs_takeAll : (takeAll c rank us x).rvs = x.rvs := by
  induction us generalizing x with
  | nil => rfl
  | cons u us ih => exact ih.trans (Group.updFibre_rvs ..)

theorem takeAll_some (h : x.fibre? k = some w) : ∃ v, (takeAll c rank us x).fibre? k = some v := by
  induction us generalizing x w with
  | nil => exact ⟨w, h⟩
  | cons u us ih =>
    obtain ⟨v, hv⟩ := fibre?_updFibre_some (n := 32 * rank + u.1) (fun f => (u.2 f).advance c) h
    exact ih hv

theorem takeAll_other (h : k ∉ us.map fun u => 32 * rank + u.1) : (takeAll c rank us x).fibre? k = x.fibre? k := by
  induction us generalizing x with
  | nil => rfl
  | cons u us ih =>
    obtain ⟨hk, hus⟩ := List.ne_and_not_mem_of_not_mem_cons h
    exact (ih hus).trans (Group.fibre?_updFibre_other _ hk _)

/-- Each contributor takes its own result. -/
theorem takeAll_takes (hnd : (us.map (·.1)).Nodup) {u : Nat × (Fibre → Fibre)} (hu : u ∈ us)
    (hw : x.fibre? (32 * rank + u.1) = some w) :
    (takeAll c rank us x).fibre? (32 * rank + u.1) = some ((u.2 w).advance c) := by
  induction us generalizing x with
  | nil => cases hu
  | cons v us ih =>
    obtain ⟨hv, hnd⟩ := List.nodup_cons.1 hnd
    rcases List.mem_cons.1 hu with rfl | hu
    · have rest : 32 * rank + u.1 ∉ us.map fun u => 32 * rank + u.1 := by
        simpa using hv
      exact (takeAll_other rest).trans (by rw [Group.fibre?_updFibre_same, hw]; rfl)
    · have hne : 32 * rank + u.1 ≠ 32 * rank + v.1 := fun e =>
        hv (List.mem_map.2 ⟨u, hu, Nat.add_left_cancel e⟩)
      exact ih hnd hu ((Group.fibre?_updFibre_other _ hne _).trans hw)

end

/-! ### The rendezvous that awaited the fibre -/

section

variable {g : Group} {me c : Nat} {b : ClusterBarrier} {m : BitVec 3} {r : Rendezvous}

theorem getLsbD_other_lane {v : BitVec 32} {k : Nat} (hk : k % 32 ≠ me % 32) :
    (v &&& ~~~(laneBit me)).getLsbD (k % 32) = v.getLsbD (k % 32) := by
  have bit : (laneBit me).getLsbD (k % 32) = false := by
    simp only [laneBit, BitVec.getLsbD_shiftLeft, BitVec.getLsbD_one]
    rcases Nat.lt_or_ge (k % 32) (me % 32) with h | h
    · simp [h]
    · have : k % 32 - me % 32 ≠ 0 := by omega
      simp [this]
  have lt : k % 32 < 32 := Nat.mod_lt _ (by decide)
  rw [BitVec.getLsbD_and, BitVec.getLsbD_not, bit, decide_eq_true lt, Bool.true_and, Bool.not_false, Bool.and_true]

/-- With no mask due, the masks of the rank stay as the fibre has left them. -/
theorem leftRank_none (h : ∀ m, ¬ MaskDue (withCbar (leftGroup g me c) b) (me / 32) m) :
    leftRank g me c b = withCbar (leftGroup g me c) b := settleMasks_none fun m _ => h m

/-- Without the fibre, the rendezvous awaits the other members of its mask in the rank. -/
theorem present_left (hf : (g.fibres.map (·.1)).Pairwise (· < ·)) (hm : Tab.wf 0#32 g.masks = true)
    (ha : Tab.wf 0#32 g.arrived = true) (hrank : r.rank = me / 32) (hfull : r.full = false) (hmask : r.mask = some m) :
    (withCbar (leftGroup g me c) b).present (cutRv (me % 32) r) = true ↔
      ∀ p ∈ g.fibres, p.1 ≠ me → p.1 / 32 = me / 32 → (g.mask (me / 32) m).getLsbD (p.1 % 32) = true →
        ∃ l ∈ r.members, l.lane = p.1 % 32 ∧ l.inc = p.2.inc := by
  obtain ⟨hw, hm', -, -⟩ := leftGroup_keeps (g := g) (me := me) (c := c) (b := b)
  obtain ⟨left, -⟩ := mask_removeFibre (m := m) (me := me) hm ha
  rw [hw.present hm', present_iff (v := cutRv (me % 32) r) hmask hfull, fibres_removeFibre, show (cutRv (me % 32) r).rank = me / 32 from hrank,
    left]
  have lane (k : Nat) (hk : k ≠ me) (hr : k / 32 = me / 32) : k % 32 ≠ me % 32 := by omega
  constructor
  · intro h p hp hne hr hin
    obtain ⟨l, hl, hlane⟩ := h p ((mem_del_iff hf).2 ⟨hp, hne⟩) hr ((getLsbD_other_lane (lane _ hne hr)).trans hin)
    exact ⟨l, (List.mem_filter.1 hl).1, hlane⟩
  · intro h p hp hr hin
    obtain ⟨hp, hne⟩ := (mem_del_iff hf).1 hp
    obtain ⟨l, hl, hlane, hinc⟩ := h p hp hne hr ((getLsbD_other_lane (lane _ hne hr)).symm.trans hin)
    exact ⟨l, List.mem_filter.2 ⟨hl, by simpa [hlane] using lane _ hne hr⟩, hlane, hinc⟩

end

end Sys2Proof.Proofs
end

section
/-! SUPPORT. FNEW and FEND (R117 to R119), and what the leaving of a fibre completes (R118, R120). -/

namespace Sys2Proof.Proofs

open Sys2Proof Sys2Proof.Machine Sys2Proof.Safety Sys2Proof.Laws

section

variable {s : State} {g : Group} {f : Fibre} {h : Hdr}

/-- FEND ends its fibre where the cluster lets it go. -/
theorem fend_ends (hi : Issues s g f h (operandsOf [])) (hm : s.mustExit g f = false) :
    Runs (.fend h) s (kept s (s.endFibre s.cur)) :=
  runWord_keep (i := .fend h) (g := g) (f := f) hi (if_neg (by simp [hm]))

theorem mustExit_iff : s.mustExit g f = true ↔
    f.wave = false ∧ 2 ≤ g.lr.cl ∧ g.gang = [s.cur.f] ∧ (s.cbarOf g).exited = false := by
  simp [State.mustExit, and_assoc]

theorem startAndEnd : startAndEndPart := by
  intro s g f h d a b
  constructor
  · intro hi entry s1 halign hrange
    have legal : badEntry (f.rdPair a) = false := badEntry_legal halign hrange
    refine ⟨fun hnone => ?_, fun x n hx hn => ?_⟩
    · have none_free : (((s.reclaim s.cur.g).group? s.cur.g).bind fun x => (s.reclaim s.cur.g).freeFibre s.cur.g x) = none :=
        Option.bind_eq_none_iff.2 hnone
      refine runWord_ok (i := .fnew h d a b) (g := g) (f := f) hi ?_
      simp only [legal, Bool.false_eq_true, if_false, none_free, s1]
    · have free : (((s.reclaim s.cur.g).group? s.cur.g).bind fun x => (s.reclaim s.cur.g).freeFibre s.cur.g x) = some n :=
        Option.bind_eq_some_iff.2 ⟨x, hx, hn⟩
      refine runWord_ok (i := .fnew h d a b) (g := g) (f := f) hi ?_
      simp only [legal, Bool.false_eq_true, if_false, free, s1, entry]
  · intro hi last
    refine ⟨fun hl => fend_ends hi (Bool.eq_false_iff.2 (mt mustExit_iff.1 hl)), fun hl => ?_⟩
    exact runWord_trap (i := .fend h) (g := g) (f := f) hi (if_pos (mustExit_iff.2 hl))

/-- FEND of a fibre that leaves a live gang fibre of its rank behind, as its group comes to stand. -/
theorem fend_group (hi : Issues s g f h (operandsOf [])) (hslot : f.slot = none)
    (hf : (g.fibres.map (·.1)).Pairwise (· < ·))
    (hlive : ∃ p ∈ g.fibres, p.1 ≠ s.cur.f ∧ p.1 / 32 = s.cur.f / 32 ∧ p.2.wave = false) {x : Group}
    (hx : ((leftState s g s.cur).settleRank s.cur.g (s.cur.f / 32)).group? s.cur.g = some x)
    (hnone : x.fibre? s.cur.f = none) (hne : ∃ k w, x.fibre? k = some w) :
    ∃ t y, Runs (.fend h) s t ∧ t.group? s.cur.g = some y ∧ CbarEased x y := by
  obtain ⟨p, hp, hpne, hrank, hwave⟩ := hlive
  have live : p.1 ∈ g.gang := mem_gang.2 ⟨p.2, hp, hwave⟩
  have stays : s.mustExit g f = false := by
    refine Bool.eq_false_iff.2 (mt mustExit_iff.1 ?_)
    rintro ⟨-, -, hgang, -⟩
    exact hpne (List.mem_singleton.1 (hgang ▸ live))
  have gang : ∃ k ∈ (leftGroup g s.cur.f s.cycle).gang, k / 32 = s.cur.f / 32 := by
    obtain ⟨hw, -⟩ := settleBars_keeps (g.removeFibre s.cur.f) s.cycle
    rw [leftGroup, hw.gang]
    exact ⟨p.1, (mem_gang_removeFibre hf).2 ⟨live, hpne⟩, hrank⟩
  have slot : ((s.fibre? s.cur).bind fun f => f.slot) = none := by
    rw [State.fibre?, hi.group, Option.bind_some, hi.fibre, Option.bind_some, hslot]
  obtain ⟨y, hy, he⟩ := settleCbar_eases hx
  refine ⟨_, y, fend_ends hi stays, ?_, he⟩
  rw [endFibre_eq hi.group slot gang hx hne, kept_group, hy, Option.map_some, Group.updFibre, he.1.fibre_none hnone]

end

section

variable {s : State} {g : Group} {f : Fibre} {h : Hdr}

/-- With no rendezvous open, settling the rank settles its masks. -/
theorem leftState_settleRank (hr : g.rvs = []) : ∃ b,
    ((leftState s g s.cur).settleRank s.cur.g (s.cur.f / 32)).group? s.cur.g = some (leftRank g s.cur.f s.cycle b) := by
  obtain ⟨b, hb⟩ := leftState_group (s := s) (g := g) (r := s.cur)
  have open_ : (leftRank g s.cur.f s.cycle b).rvs = [] := by
    rw [rvs_leftRank, rvs_removeFibre, hr, List.map_nil]
  refine ⟨b, ?_⟩
  rw [settleRank_eq hb, leftState_cycle, ← leftRank, open_, List.filter_nil, List.foldl_nil, State.group?_setGroup_same]

/-- With one rendezvous of the rank open and no mask due, settling the rank tries that rendezvous. -/
theorem leftState_settleRank_open {b : ClusterBarrier} {r : Rendezvous}
    (hb : (leftState s g s.cur).group? s.cur.g = some (withCbar (leftGroup g s.cur.f s.cycle) b)) (hr : g.rvs = [r])
    (hrank : r.rank = s.cur.f / 32)
    (hd : ∀ m, ¬ MaskDue (withCbar (leftGroup g s.cur.f s.cycle) b) (s.cur.f / 32) m) :
    (withCbar (leftGroup g s.cur.f s.cycle) b).rvs = [cutRv (s.cur.f % 32) r] ∧
    (leftState s g s.cur).settleRank s.cur.g (s.cur.f / 32) = ((leftState s g s.cur).setGroup s.cur.g
      (withCbar (leftGroup g s.cur.f s.cycle) b)).settleOne s.cur.g (cutRv (s.cur.f % 32) r) := by
  have one : (withCbar (leftGroup g s.cur.f s.cycle) b).rvs = [cutRv (s.cur.f % 32) r] := by
    obtain ⟨-, -, -, hrvs⟩ := leftGroup_keeps (g := g) (me := s.cur.f) (c := s.cycle) (b := b)
    rw [hrvs, rvs_removeFibre, hr, List.map_singleton, if_pos hrank]
  have here : ([cutRv (s.cur.f % 32) r].filter fun v => v.rank == s.cur.f / 32) = [cutRv (s.cur.f % 32) r] := by
    simp [cutRv, hrank]
  refine ⟨one, ?_⟩
  rw [settleRank_eq hb, leftState_cycle, settleMasks_none fun m _ => hd m, one, here, List.foldl_cons, List.foldl_nil]

/-- The rendezvous that FEND tries stays open, or is performed. -/
theorem fend_open (hi : Issues s g f h (operandsOf [])) (hslot : f.slot = none)
    (hf : (g.fibres.map (·.1)).Pairwise (· < ·))
    (hlive : ∃ p ∈ g.fibres, p.1 ≠ s.cur.f ∧ p.1 / 32 = s.cur.f / 32 ∧ p.2.wave = false) {x : Group} {v : Rendezvous}
    (hset : (leftState s g s.cur).settleRank s.cur.g (s.cur.f / 32) =
      ((leftState s g s.cur).setGroup s.cur.g x).settleOne s.cur.g v)
    (hrvs : x.rvs = [v]) (hnone : x.fibre? s.cur.f = none) (hsome : ∃ k w, x.fibre? k = some w)
    (hex : ∀ q ∈ v.contributors, IsExchange q.2) (hnd : (v.contributors.map (·.1)).Nodup)
    (hne : ∀ q ∈ v.contributors, 32 * v.rank + q.1 ≠ s.cur.f) :
    ∃ t y, Runs (.fend h) s t ∧ t.group? s.cur.g = some y ∧ (x.present v = false → y.rvs = [v]) ∧
      (x.present v = true → y.rvs = [] ∧ ∀ u ∈ exchange v.contributors, ∀ w, x.fibre? (32 * v.rank + u.1) = some w →
        y.fibre? (32 * v.rank + u.1) = some ((u.2 w).advance s.cycle)) := by
  cases hp : x.present v with
  | false =>
    rw [settleOne_absent (State.group?_setGroup_same ..) hp] at hset
    obtain ⟨t, y, ht, hy, -, -, -, -, hyr⟩ := fend_group hi hslot hf hlive (by rw [hset, State.group?_setGroup_same]) hnone
      hsome
    exact ⟨t, y, ht, hy, fun _ => hyr.trans hrvs, nofun⟩
  | true =>
    have rest : (x.rvs.filter fun w => w != v) = [] := by simp [hrvs]
    rw [settleOne_performs (State.group?_setGroup_same ..) (by simp [hrvs]) hp hex, rest, State.setGroup_cycle,
      leftState_cycle, performed_eq] at hset
    have stillNone : (takeAll s.cycle v.rank (exchange v.contributors) (withRvs x [])).fibre? s.cur.f = none := by
      refine (takeAll_other fun hm => ?_).trans hnone
      obtain ⟨u, hu, e⟩ := List.mem_map.1 hm
      obtain ⟨q, hq, hqu⟩ := exchange_contributor hu
      exact hne q hq (hqu ▸ e)
    obtain ⟨k, w, hw⟩ := hsome
    have stillSome := takeAll_some (c := s.cycle) (rank := v.rank) (us := exchange v.contributors) (x := withRvs x []) hw
    obtain ⟨t, y, ht, hy, hwk, -, -, -, hyr⟩ := fend_group hi hslot hf hlive (by rw [hset, State.group?_setGroup_same])
      stillNone ⟨k, stillSome⟩
    refine ⟨t, y, ht, hy, nofun, fun _ => ⟨hyr.trans rvs_takeAll, fun u hu w hw => ?_⟩⟩
    have nodup : ((exchange v.contributors).map (·.1)).Nodup := exchange_lanes ▸ hnd
    exact hwk.stays (takeAll_takes nodup hu hw) fun e => by cases e

end

/-- The masks and barriers of the group that a fibre has left, with no rendezvous open. -/
theorem leaving_closed {s : State} {g : Group} {f : Fibre} {h : Hdr} (hi : Issues s g f h (operandsOf []))
    (hslot : f.slot = none) (hf : (g.fibres.map (·.1)).Pairwise (· < ·))
    (hlive : ∃ p ∈ g.fibres, p.1 ≠ s.cur.f ∧ p.1 / 32 = s.cur.f / 32 ∧ p.2.wave = false) (hr : g.rvs = []) :
    ∃ b t y, Runs (.fend h) s t ∧ t.group? s.cur.g = some y ∧ CbarEased (leftRank g s.cur.f s.cycle b) y := by
  obtain ⟨b, hx⟩ := leftState_settleRank (s := s) hr
  obtain ⟨p, hp, hpne, -, -⟩ := id hlive
  exact ⟨b, fend_group hi hslot hf hlive hx (fibre?_leftRank_none hf)
    ⟨p.1, fibre?_leftRank_some hpne (find_of_mem hf hp)⟩⟩

/-- The contributors that remain of a rendezvous when a lane leaves it. -/
theorem mem_contributors_cutRv {r : Rendezvous} {lane : Nat} {q : Nat × Offer} (h : q ∈ (cutRv lane r).contributors) :
    ∃ l ∈ r.members, l.lane = q.1 ∧ l.offer = some q.2 ∧ q.1 ≠ lane := by
  obtain ⟨l, hl, hlane, ho⟩ := mem_contributors.1 h
  obtain ⟨hl, hne⟩ := List.mem_filter.1 hl
  exact ⟨l, hl, hlane, ho, by simpa [hlane] using hne⟩

theorem leaving : leavingPart := by
  intro s g f h r rank lane left due stays hi hslot _ hf hm ha hb hlive
  constructor
  · intro hr
    obtain ⟨b, t, y, ht, hy, hw, hmasks, harr, hbars, -⟩ := leaving_closed hi hslot hf hlive hr
    have bar (n : BitVec 4) : y.bar n = (leftRank g s.cur.f s.cycle b).bar n := by rw [Group.bar, hbars, Group.bar]
    have mask (m : BitVec 3) : y.mask rank m = (leftRank g s.cur.f s.cycle b).mask rank m := by
      rw [Group.mask, hmasks, Group.mask]
    have arrivals (m : BitVec 3) : y.arrivedAt rank m = (leftRank g s.cur.f s.cycle b).arrivedAt rank m := by
      rw [Group.arrivedAt, harr, Group.arrivedAt]
    refine ⟨t, y, ht, hy, hw.fibre_none (fibre?_leftRank_none hf), fun m => ?_, fun n => ?_, fun m hd => ?_, fun n hd => ?_⟩
    · rw [mask, arrivals]
      exact leftRank_mask_without hm ha m
    · rw [bar]
      exact leftRank_bar_without hb n
    · obtain ⟨hmask, -, hfib⟩ := leftRank_mask_due hm ha ((maskDue_leftGroup (b := b) (c := s.cycle) hm ha).2 hd)
      rw [mask]
      exact ⟨hmask, fun k w hk hkr hkw hs => hw.stays (hfib k w hk hkr hkw hs) fun e => by cases e⟩
    · obtain ⟨hbar, hfib⟩ := leftRank_bar_due (b := b) (c := s.cycle) hb (barDue_removeFibre hf hb hd)
      rw [bar, hbar]
      exact ⟨rfl, fun k w hk hkw hs => hw.stays (hfib k w hk hkw hs) fun e => by cases e⟩
  · intro hr hrank hfull hnd m hmask hex hlanes absent
    obtain ⟨p, hp, hpne, -, -⟩ := id hlive
    obtain ⟨b, hb⟩ := leftState_group (s := s) (g := g) (r := s.cur)
    obtain ⟨hrvs, hset⟩ := leftState_settleRank_open hb hr hrank fun m => mt (maskDue_leftGroup hm ha).1 (hnd m)
    have complete := present_left (c := s.cycle) (b := b) hf hm ha hrank hfull hmask
    obtain ⟨hwk, -⟩ := leftGroup_keeps (g := g) (me := s.cur.f) (c := s.cycle) (b := b)
    have kind : ∀ q ∈ (cutRv lane r).contributors, IsExchange q.2 := fun q hq c n => by
      obtain ⟨l, hl, -, ho, -⟩ := mem_contributors_cutRv hq
      obtain ⟨-, hkind⟩ := hex l hl
      simpa [ho] using hkind c n
    have lanes : ((cutRv lane r).contributors.map (·.1)).Nodup :=
      contributors_lanes ((List.filter_sublist.map _).nodup hlanes)
    have others (l : Nat) (hl : l ≠ lane) (hlt : l < 32) : 32 * rank + l ≠ s.cur.f := by omega
    have laneOf : ∀ q ∈ (cutRv lane r).contributors, 32 * rank + q.1 ≠ s.cur.f := fun q hq => by
      obtain ⟨l, hl, hlq, -, hne⟩ := mem_contributors_cutRv hq
      exact others q.1 hne (hlq ▸ (hex l hl).1)
    obtain ⟨t, y, ht, hy, hopen, hdone⟩ := fend_open hi hslot hf hlive hset hrvs
      (hwk.fibre_none (fibre?_removeFibre_same hf))
      ⟨p.1, hwk.fibre_some ((fibre?_removeFibre_other hpne).trans (find_of_mem hf hp))⟩ kind lanes (hrank.symm ▸ laneOf)
    refine ⟨t, y, ht, hy, fun ⟨q, hq, hne, hqr, hin, hno⟩ => hopen ?_, fun hn => ?_⟩
    · exact Bool.eq_false_iff.2 fun hp => hno (complete.1 hp q hq hne hqr hin)
    · obtain ⟨hyr, hyf⟩ := hdone (complete.2 fun q hq hne hqr hin => by
        by_contra hno
        exact hn ⟨q, hq, hne, hqr, hin, hno⟩)
      refine ⟨hyr, fun u hu w hw hs => ?_⟩
      obtain ⟨q, hq, hqu⟩ := exchange_contributor hu
      rw [show (cutRv lane r).rank = rank from hrank] at hyf
      refine hyf u hu w (fibre?_leftGroup (hqu ▸ laneOf q hq) hw ?_)
      rintro ⟨_, _, e⟩
      rw [hs] at e
      cases e

/-- Settles O15: starting and ending, what a leaving fibre completes, and the barriers of a group and of a cluster. -/
theorem startEndAndBarriers : Obligations.StartEndAndBarriers :=
  ⟨startAndEnd, leaving, barriers, clusterBarrier⟩

end Sys2Proof.Proofs
end

section
/-! SUPPORT. Words that compute on their own fibre's registers: arithmetic, logic and floating point (R83 to R88, R143 to
R145), shifts, counts and bit fields (R145 to R147), moves and addresses (R140 to R142, R148, R151). -/

namespace Sys2Proof.Proofs

open Sys2Proof Sys2Proof.Machine Sys2Proof.Safety Sys2Proof.Laws

/-! ### D := fn A B and D := fn A -/

section

variable {i : Instr} {h : Hdr} {d : Reg} {a b : Src} {t : Ty} {s : State} {g : Group} {f : Fibre}

/-- A word of two sources writes its result of the values read at issue. -/
theorem laneAB_issues {fn : Fibre → Nat × BitVec 7} (hi : Issues s g f h (needsAB d a b t)) :
    laneAB i h d a b t fn s = .next (after s (f.result d t.regs (fn f))) := laneWord_issues hi

/-- A word of one source writes its result of the value read at issue. -/
theorem laneA_issues {fn : Fibre → Nat × BitVec 7} (hi : Issues s g f h (needsA d a t)) :
    laneA i h d a t fn s = .next (after s (f.result d t.regs (fn f))) := laneWord_issues hi

/-- A shift writes its function of A and of the count, with no flag. -/
theorem shiftWord_issues {fn : Nat → Nat → Nat}
    (hi : Issues s g f h (operandsOf (Src.chk a t.regs ++ Src.chk b 1 ++ Reg.chk d t.regs))) :
    shiftWord i h d a b t fn s = .next (after s (f.wr d t.regs (fn (f.src t a) (f.src .z32 b)))) := laneWord_issues hi

end

/-- Settles O1: each is a word of two sources with its own function of them. -/
theorem integerArithmetic : Obligations.IntegerArithmetic := by
  unfold Obligations.IntegerArithmetic
  intro s g f h d a b t sat hi x y res
  exact ⟨laneAB_issues hi, laneAB_issues hi, laneAB_issues hi, laneAB_issues hi, laneAB_issues hi, laneAB_issues hi,
    laneAB_issues hi, laneAB_issues hi, laneAB_issues hi⟩

/-- Settles O2: each is a word of one source with its own function of it. -/
theorem unaryResults : Obligations.UnaryResults := by
  unfold Obligations.UnaryResults
  intro s g f h d a t sat hi res
  exact ⟨laneA_issues hi, laneA_issues hi, laneA_issues hi, laneA_issues hi, laneA_issues hi, laneA_issues hi,
    laneA_issues hi, laneA_issues hi, laneA_issues hi, laneA_issues hi, laneA_issues hi⟩

/-- Settles O4: each is a word of two sources with its own function of them. -/
theorem logicAndFloat : Obligations.LogicAndFloat := by
  unfold Obligations.LogicAndFloat
  intro s g f h d a b t rnd sat hi res x y u v
  exact ⟨laneAB_issues hi, laneAB_issues hi, laneAB_issues hi, laneAB_issues hi, laneAB_issues hi, laneAB_issues hi,
    laneAB_issues hi, laneAB_issues hi, laneAB_issues hi, laneAB_issues hi⟩

/-- Settles O5: each is a shift of A by the count that B gives. -/
theorem shifts : Obligations.Shifts := by
  unfold Obligations.Shifts
  intro s g f h d a b t _ hi res x n
  exact ⟨shiftWord_issues hi, shiftWord_issues hi, shiftWord_issues hi, shiftWord_issues hi⟩

/-! ### Counts and reversal -/

/-- POPC counts the bits that are set. -/
theorem popN_eq_countP (v n : Nat) : popN v n = (List.range n).countP v.testBit := by
  induction n with
  | zero => rfl
  | succ n ih => rw [popN, ih, List.range_succ, List.countP_append, List.countP_singleton, Nat.add_comm]

/-- CLZ counts down to the highest bit that is set. -/
theorem runLeadingZeros_eq {v n : Nat} (h : v < 2 ^ n) :
    execClz.runLeadingZeros v n = n - Nat.log2 (2 * v + 1) := by
  induction n with
  | zero => exact (Nat.zero_sub _).symm
  | succ n ih =>
    rw [execClz.runLeadingZeros]
    by_cases hv : v < 2 ^ n
    · have low : Nat.log2 (2 * v + 1) ≤ n := Nat.lt_succ_iff.1 ((Nat.log2_lt (by omega)).2 (by omega))
      rw [Nat.testBit_lt_two_pow hv, if_neg Bool.false_ne_true, ih hv]
      omega
    · have high : n + 1 ≤ Nat.log2 (2 * v + 1) := (Nat.le_log2 (by omega)).2 (by omega)
      rw [if_pos (Nat.testBit_of_two_pow_le_and_two_pow_add_one_gt (Nat.le_of_not_lt hv) h), Nat.sub_eq_zero_of_le high]

theorem revN_lt (v n : Nat) : revN v n < 2 ^ n := by
  induction n generalizing v with
  | zero => exact Nat.one_pos
  | succ n ih =>
    have := ih (v / 2)
    rw [revN]
    split <;> omega

/-- Bit k of the reversed code is bit w − 1 − k of the code (R146). -/
theorem testBit_revN {n k : Nat} (v : Nat) (h : k < n) : (revN v n).testBit k = v.testBit (n - 1 - k) := by
  induction n generalizing v with
  | zero => omega
  | succ n ih =>
    have low := revN_lt (v / 2) n
    rw [revN, Nat.add_sub_cancel]
    rcases Nat.lt_succ_iff_lt_or_eq.1 h with hk | rfl
    · have rest : (revN (v / 2) n).testBit k = v.testBit (n - k) := by
        rw [ih _ hk, Nat.testBit_div_two, show n - 1 - k + 1 = n - k by omega]
      split
      · rw [Nat.testBit_two_pow_add_gt hk, rest]
      · rw [Nat.zero_add, rest]
    · rw [Nat.sub_self]
      split
      · next hb => rw [Nat.testBit_two_pow_add_eq, Nat.testBit_lt_two_pow low, hb]; rfl
      · next hb => rw [Nat.zero_add, Nat.testBit_lt_two_pow low, Bool.eq_false_iff.2 hb]

/-- A code of a type is below 2^w. -/
theorem rd_lt (f : Fibre) (t : Ty) (r : Reg) : f.rd t r < 2 ^ t.width := Nat.mod_lt _ (by positivity)

/-- Settles O6: the counts and the reversal by their lemmas, the fields as the words write them. -/
theorem bitFields : Obligations.BitFields := by
  unfold Obligations.BitFields
  intro s g f h d a b c t len
  refine ⟨fun hi => ⟨?popc, ?clz⟩, fun x k hk => testBit_revN x hk, fun hi => ?brev, fun hi => ?bfx, fun hi => ?bfi⟩
  case popc =>
    rw [← popN_eq_countP]
    exact laneWord_issues hi
  case clz =>
    rw [← runLeadingZeros_eq (rd_lt f t a)]
    exact laneWord_issues hi
  case brev => exact laneWord_issues hi
  case bfx => exact laneWord_issues hi
  case bfi => exact laneWord_issues hi

/-! ### Moves and addresses -/

/-- The code of an integer of .s16, as a word of 16 bits. -/
theorem ofNat_ofI_s16 (r : Int) : BitVec.ofNat 16 (Ty.ofI .s16 r) = BitVec.ofInt 16 r := by
  apply BitVec.eq_of_toNat_eq
  have width : Ty.width .s16 = 16 := rfl
  simp only [Ty.ofI, width, BitVec.toNat_ofNat, BitVec.toNat_ofInt]
  omega

/-- A sum that XADD writes: modulo 2^16, with IOV where it leaves the range (R141). -/
theorem intResult_s16 (r : Int) : intResult .s16 false r =
    (Ty.ofI .s16 r, if -32768 ≤ r ∧ r ≤ 32767 then 0#7 else fIOV) := by
  have range : Ty.minI .s16 = -32768 ∧ Ty.maxI .s16 = 32767 := by decide
  rw [intResult, range.1, range.2]
  split <;> rfl

/-- Settles O7: each is a word of its own fibre's registers; XADD by what its sum writes. -/
theorem moves : Obligations.Moves := by
  unfold Obligations.Moves
  intro s g f h d a x y i imm t m
  refine ⟨fun wide hi => laneWord_issues hi, fun hi => ⟨laneWord_issues hi, ?xadd⟩, fun hi => laneWord_issues hi,
    fun hi => ⟨laneWord_issues hi, laneWord_issues hi⟩, fun hi => laneWord_issues hi, fun hi => laneWord_issues hi,
    fun hi => laneWord_issues hi⟩
  case xadd =>
    have adds : execXadd h i imm s = _ := laneWord_issues hi
    simp only [intResult_s16, ofNat_ofI_s16] at adds
    exact adds

/-- Settles O8: the two outcomes of the predicate against the inversion bit. -/
theorem select : Obligations.Select := by
  unfold Obligations.Select
  intro s g f h d a p t inv hi
  have selects : execSel h d a p t inv s = .next (after s (if f.p p != inv then f.wr d t.regs (f.src t a) else f)) :=
    laneWord_issues hi
  refine ⟨fun hp => selects.trans ?_, fun hp => selects.trans ?_⟩
  · rw [if_pos (bne_iff_ne.2 hp)]
  · rw [if_neg (by simpa using hp)]

end Sys2Proof.Proofs
end

section
/-! SUPPORT. The words that raise traps and return from them, and those that read and write the trap state and the system
registers (R137, R152, R372, R373, R376 to R383). -/

namespace Sys2Proof.Proofs

open Sys2Proof Sys2Proof.Machine Sys2Proof.Safety Sys2Proof.Laws

/-! ### The sticky flags -/

/-- The flags of several counters, gathered upon others. -/
theorem foldl_flags (l : Tab (BitVec 7)) (a : BitVec 7) : l.foldl (fun a p => a ||| p.2) a = a ||| flagsOf l := by
  induction l generalizing a with
  | nil => exact (BitVec.or_zero (x := a)).symm
  | cons p l ih => rw [flagsOf, List.foldl_cons, List.foldl_cons, ih, ih (0#7 ||| p.2), BitVec.zero_or, BitVec.or_assoc]

theorem flagsOf_cons (p : Nat × BitVec 7) (l : Tab (BitVec 7)) : flagsOf (p :: l) = p.2 ||| flagsOf l := by
  rw [flagsOf, List.foldl_cons, BitVec.zero_or, foldl_flags]

/-- Flags cleared at every counter, with the counters left empty dropped. -/
theorem flagsOf_cleared (m : BitVec 7) (l : Tab (BitVec 7)) :
    flagsOf ((l.map fun p => (p.1, p.2 &&& ~~~m)).filter fun p => p.2 != 0#7) = flagsOf l &&& ~~~m := by
  induction l with
  | nil => exact (BitVec.zero_and ..).symm
  | cons p l ih =>
    rw [List.map_cons, List.filter_cons, flagsOf_cons, BitVec.and_or_distrib_right]
    split
    · rw [flagsOf_cons, ih]
    · next h => rw [ih, show p.2 &&& ~~~m = 0#7 by simpa using h, BitVec.zero_or]

/-- Flags are cleared whatever counters they came by (R382). -/
theorem allFlags_clearFlags (f : Fibre) (m : BitVec 7) : (f.clearFlags m).allFlags = f.allFlags &&& ~~~m := by
  rw [Fibre.allFlags, Fibre.allFlags, BitVec.and_or_distrib_right, ← flagsOf_cleared]
  rfl

/-! ### TFENCE -/

section

variable {h : Hdr} {s : State} {g : Group} {f : Fibre} {r : Report}

theorem takeReport_fibre (hs : f.slot = some r) :
    s.takeReport g f = some (r, s.updFibre s.cur fun v => { v with slot := none }) := by
  simp only [State.takeReport, hs]

theorem takeReport_group (hs : f.slot = none) : s.takeReport g f =
    g.gslot.map fun r => (r, s.updGroup s.cur.g fun x => { x with gslot := none }) := by
  simp only [State.takeReport, hs]

/-- TFENCE takes the report that is held, and raises it. -/
theorem tfence_reports {t : State} (hi : Issues s g f h {}) (htm : f.tm = false) (hr : s.takeReport g f = some (r, t)) :
    Runs (.tfence h) s (t.takeTrap s.cur r.cause r.addr) := by
  refine runWord_trap (i := .tfence h) (g := g) (f := f) hi ?_
  simp only [htm, hr, Bool.false_eq_true, if_false]

/-- In a handler, or with nothing to report, TFENCE goes on. -/
theorem tfence_goes (hi : Issues s g f h {})
    (hn : f.tm = true ∨ (f.slot = none ∧ g.gslot = none ∧ f.flags &&& f.en = 0#7)) : Runs (.tfence h) s (after s f) := by
  rw [after, ← updFibre_issues hi fun v => v.advance s.cycle]
  refine runWord_ok (i := .tfence h) (g := g) (f := f) hi ?_
  rcases hn with htm | ⟨hs, hg, hf⟩
  · rw [if_pos htm]
  · cases htm : f.tm
    · simp only [takeReport_group hs, hg, Option.map_none, hf, Bool.false_eq_true, if_false, if_true]
    · rfl

/-- With no report held, TFENCE raises the flags that EN names. -/
theorem tfence_flags (hi : Issues s g f h {}) (htm : f.tm = false) (hs : f.slot = none) (hg : g.gslot = none)
    (hf : f.flags &&& f.en ≠ 0#7) : Runs (.tfence h) s (s.takeTrap s.cur .arith (0#57 ++ (f.flags &&& f.en))) := by
  refine runWord_trap (i := .tfence h) (g := g) (f := f) hi ?_
  simp only [htm, takeReport_group hs, hg, Option.map_none, hf, Bool.false_eq_true, if_false]

end

/-- A word that changes its own fibre goes on with what it has changed. -/
theorem runWord_fibre {i : Instr} {h : Hdr} {w : Group → Fibre → WordSpec} {body : Group → Fibre → State → Res} {s : State}
    {g : Group} {f v : Fibre} {u : Fibre → Fibre} (hi : Issues s g f h (w g f))
    (hb : body g f s = .ok (s.updFibre s.cur u)) (hv : u f = v) : runWord i h w body s = .next (after s v) := by
  rw [runWord_ok hi hb, went_updFibre hi, hv]

/-- Settles O43: TFENCE case by case, the others as words that raise a trap or change their own fibre. -/
theorem trapWords : Obligations.TrapWords := by
  unfold Obligations.TrapWords
  intro s g f h d a x n r q
  refine ⟨fun hi => ⟨?trap, ?brk⟩, fun hi => ⟨tfence_goes hi, fun htm hs => tfence_reports hi htm (takeReport_fibre hs),
    fun htm hs hg => tfence_reports hi htm ?held, tfence_flags hi⟩, fun hi => ?tret, fun hi hb => ?full, fun hi => ?en,
    fun hi => ⟨?flags, rfl, allFlags_clearFlags f _⟩, fun hi => laneWord_issues hi, fun hi => ⟨?tpc, ?taddr⟩,
    fun hi => ?tcause, fun hi => ?sread⟩
  case trap => exact runWord_trap (i := .trap h x) (g := g) (f := f) hi rfl
  case brk => exact runWord_trap (i := .brk h x) (g := g) (f := f) hi rfl
  case held => rw [takeReport_group hs, hg]; rfl
  case tret => exact runWord_keep (i := .tret h) (g := g) (f := f) hi rfl
  case full =>
    have accepted : ¬ badTmask (f.rdPair a) = true := Bool.not_eq_true _ ▸ hb
    exact runWord_fibre (i := .tmask h d (.full a)) (g := g) (f := f) hi (if_neg accepted) rfl
  case en => exact runWord_fibre (i := .tmask h d (.en x)) (g := g) (f := f) hi rfl rfl
  case flags => exact runWord_fibre (i := .flags h d x) (g := g) (f := f) hi rfl rfl
  case tpc => exact runWord_fibre (i := .sysw h .tpc a) (g := g) (f := f) hi rfl rfl
  case taddr => exact runWord_fibre (i := .sysw h .taddr a) (g := g) (f := f) hi rfl rfl
  case tcause => exact runWord_fibre (i := .sysw h .tcause a) (g := g) (f := f) hi rfl rfl
  case sread => exact runWord_fibre (i := .sread h d q) (g := g) (f := f) hi rfl rfl

end Sys2Proof.Proofs
end

section
/-! SUPPORT. The register blocks of a rank: what a complete CLAIM or SURR does to them and to its members (R130, R154,
R155). -/

namespace Sys2Proof.Proofs

open Sys2Proof Sys2Proof.Machine Sys2Proof.Safety Sys2Proof.Laws

/-! ### Blocks -/

theorem blocks_setBlocks_same {x : Group} {rank : Nat} (n : Nat) (h : Tab.wf 0 x.alloc = true) :
    (x.setBlocks rank n).blocks rank = n := by
  have entry : Tab.get 0 (x.setBlocks rank n).alloc rank = (n : Int) - x.blocks0 := Tab.get_set_same _ _ _ h
  rw [Group.blocks, entry, show (x.setBlocks rank n).blocks0 = x.blocks0 from rfl]
  omega

/-- A table keeps its canonical form when entries are dropped. -/
theorem wfFrom_filter {α : Type} [DecidableEq α] {d : α} {b : Nat} {t : Tab α} (p : Nat × α → Bool)
    (h : Tab.wfFrom d b t = true) : Tab.wfFrom d b (t.filter p) = true := by
  induction t generalizing b with
  | nil => rfl
  | cons q t ih =>
    obtain ⟨j, w⟩ := q
    simp only [Tab.wfFrom, Bool.and_eq_true, decide_eq_true_eq] at h
    obtain ⟨⟨hb, hw⟩, ht⟩ := h
    rw [List.filter_cons]
    split
    · simp [Tab.wfFrom, hb, hw, ih ht]
    · exact ih (Tab.wfFrom_mono d ht (by omega))

/-! ### Returning the blocks of free ranks -/

/-- What the return of other ranks' blocks leaves of a group, and of one rank's blocks. -/
def Reclaimed (rank : Nat) (x y : Group) : Prop :=
  y.fibres = x.fibres ∧ y.rvs = x.rvs ∧ y.claims = x.claims ∧ x.pool ≤ y.pool ∧ y.blocks rank = x.blocks rank ∧
    Tab.wf 0 y.alloc = true

section

variable {s : State} {g rank : Nat} {x : Group}

/-- A rank with a live fibre is not free. -/
theorem rankFree_live {k : Nat} {w : Fibre} (h : x.fibre? k = some w) : s.rankFree g x (k / 32) = false := by
  have live : (x.fibres.any fun p => p.1 / 32 == k / 32) = true := List.any_eq_true.2 ⟨_, Tab.find_mem h, beq_self_eq_true _⟩
  rw [State.rankFree, live]; rfl

/-- A rank that is not free keeps its blocks when the free ones return theirs, and the pool does not shrink (R133). -/
theorem reclaim_group (hg : s.group? g = some x) (hr : s.rankFree g x rank = false) (ha : Tab.wf 0 x.alloc = true) :
    (s.reclaim g).cycle = s.cycle ∧ ∃ y, (s.reclaim g).group? g = some y ∧ Reclaimed rank x y := by
  rw [State.reclaim, hg]
  refine foldl_keeps (fun t : State => t.cycle = s.cycle ∧ ∃ y, t.group? g = some y ∧ Reclaimed rank x y) _ _ _
    ⟨rfl, x, hg, rfl, rfl, rfl, le_rfl, rfl, ha⟩ fun t r ⟨hc, y, hy, hf, hv, hq, hp, hb, hw⟩ => ?_
  split
  · next hfree =>
    have other : rank ≠ r := by
      rintro rfl
      simp [hr] at hfree
    rw [updGroup_at hy]
    refine ⟨(State.setGroup_cycle ..).trans hc, _, State.group?_setGroup_same .., hf, hv, hq, Nat.le_add_right_of_le hp, ?_,
      Tab.wf_set (0 : Int) r 0 hw⟩
    rw [← hb]
    simp only [Group.blocks, Group.blocks0, Tab.get_set_other (0 : Int) other]
  · exact ⟨hc, y, hy, hf, hv, hq, hp, hb, hw⟩

end

/-! ### The members of a CLAIM or SURR -/

/-- The register that CLAIM or SURR names as its D. -/
def claimD : Offer → Option Nat
  | .claim _ d => some d
  | .surr _ d => some d
  | _ => none

/-- The lane and the D of a contributor to CLAIM or SURR. -/
def claimant (p : Nat × Offer) : Option (Nat × Nat) := (claimD p.2).map fun d => (p.1, d)

theorem claimants_eq (v : Rendezvous) : claimants v = v.contributors.filterMap claimant := by
  refine List.filterMap_congr fun p _ => ?_
  obtain ⟨l, o⟩ := p
  cases o <;> rfl

theorem mem_claimants {v : Rendezvous} {m : Nat × Nat} :
    m ∈ claimants v ↔ ∃ q ∈ v.members, q.lane = m.1 ∧ ∃ o, q.offer = some o ∧ claimD o = some m.2 := by
  rw [claimants_eq, List.mem_filterMap]
  constructor
  · rintro ⟨p, hp, hm⟩
    obtain ⟨d, hd, rfl⟩ := Option.map_eq_some_iff.1 hm
    obtain ⟨q, hq, hl, ho⟩ := mem_contributors.1 hp
    exact ⟨q, hq, hl, p.2, ho, hd⟩
  · rintro ⟨q, hq, hl, o, ho, hd⟩
    exact ⟨(m.1, o), mem_contributors.2 ⟨q, hq, hl, ho⟩, Option.map_eq_some_iff.2 ⟨m.2, hd, rfl⟩⟩

/-- The claimants stand in distinct lanes where the members do. -/
theorem claimants_lanes {v : Rendezvous} (h : (v.members.map (·.lane)).Nodup) : ((claimants v).map (·.1)).Nodup := by
  have sub (cs : List (Nat × Offer)) : ((cs.filterMap claimant).map (·.1)).Sublist (cs.map (·.1)) := by
    induction cs with
    | nil => exact .slnil
    | cons p cs ih =>
      cases hp : claimD p.2 with
      | none => simpa [claimant, hp] using ih.cons p.1
      | some d => simpa [claimant, hp] using ih.cons_cons p.1
  rw [claimants_eq]
  exact (sub v.contributors).nodup (contributors_lanes h)

/-! ### Fibres that wait -/

/-- A group has the fibres of another, up to what they wait for. -/
def Stands (x y : Group) : Prop := ∀ k w, x.fibre? k = some w → ∃ st, y.fibre? k = some { w with stat := st }

theorem stands_updFibre (x : Group) (n : Nat) (st : FStat) : Stands x (x.updFibre n fun f => { f with stat := st }) := by
  intro k w hw
  by_cases hk : k = n
  · subst hk; exact ⟨st, by rw [Group.fibre?_updFibre_same, hw]; rfl⟩
  · exact ⟨w.stat, (Group.fibre?_updFibre_other _ hk _).trans hw⟩

theorem Stands.trans {x y z : Group} (h : Stands x y) (h' : Stands y z) : Stands x z := by
  intro k w hw
  obtain ⟨st, hy⟩ := h k w hw
  obtain ⟨st', hz⟩ := h' k _ hy
  exact ⟨st', hz⟩

theorem updFibre_fields (x : Group) (n : Nat) (u : Fibre → Fibre) : ∃ fs, x.updFibre n u = { x with fibres := fs } := by
  unfold Group.updFibre
  split
  · exact ⟨_, rfl⟩
  · exact ⟨x.fibres, rfl⟩

/-- The claimants of a claim wait in the claim queue. -/
def queued (rank : Nat) (ms : List (Nat × Nat)) (x : Group) : Group :=
  ms.foldl (fun z m => z.updFibre (32 * rank + m.1) fun f => { f with stat := .wait .claim }) x

theorem queued_fields (rank : Nat) (ms : List (Nat × Nat)) (x : Group) :
    (∃ fs, queued rank ms x = { x with fibres := fs }) ∧ Stands x (queued rank ms x) := by
  refine foldl_keeps (fun z => (∃ fs, z = { x with fibres := fs }) ∧ Stands x z) _ _ _
    ⟨⟨x.fibres, rfl⟩, fun k w hw => ⟨w.stat, hw⟩⟩ fun z m ⟨⟨fs, hz⟩, hst⟩ => ⟨?_, hst.trans (stands_updFibre _ _ _)⟩
  obtain ⟨fs', h⟩ := updFibre_fields z (32 * rank + m.1) fun f => { f with stat := .wait .claim }
  exact ⟨fs', by rw [h, hz]⟩

/-- A change of one fibre, in what a rendezvous does not ask of it. -/
theorem wakes_updFibre {x : Group} (hs : (x.fibres.map (·.1)).Pairwise (· < ·)) (n : Nat) {u : Fibre → Fibre}
    (hu : ∀ w, (u w).wave = w.wave ∧ (u w).inc = w.inc) : Wakes (fun _ => True) x (x.updFibre n u) := by
  cases hn : x.fibre? n with
  | none => exact .of_fibres (by rw [Group.updFibre, hn])
  | some w =>
    refine ⟨fun k v => if k = n then u v else v, fun k v => ?_, ?_⟩
    · dsimp only
      split
      · exact ⟨(hu v).1, (hu v).2, fun h => absurd trivial h⟩
      · exact ⟨rfl, rfl, fun _ => rfl⟩
    · have there : (x.updFibre n u).fibres = Tab.put n (u w) x.fibres := by rw [Group.updFibre, hn]; rfl
      rw [there, put_eq_map hs hn]
      refine List.map_congr_left fun p hp => ?_
      dsimp only
      split
      · next hk =>
        have same : Tab.find x.fibres n = some p.2 := find_of_mem hs (hk ▸ hp)
        rw [Option.some.inj (same.symm.trans hn)]
      · rfl

/-! ### The new size -/

/-- A group has the fibres of another, up to what they wait for, and no open rendezvous. -/
def Poised (x y : Group) : Prop := y.rvs = [] ∧ Tab.wf 0 y.alloc = true ∧ Stands x y

theorem poised_of {x y z : Group} (h : Stands x y) (h' : Poised y z) : Poised x z := by
  obtain ⟨hr, ha, hst⟩ := h'
  exact ⟨hr, ha, h.trans hst⟩

/-- A fibre keeps those of its registers that lie below a number. -/
def keepRegs (rank n : Nat) (k : Nat) (f : Fibre) : Fibre :=
  if k / 32 = rank then { f with regs := f.regs.filter fun p => decide (p.1 < n) } else f

/-- A rank holds `n` blocks: its fibres keep the registers below `r`, and its claimants go on with the new size. -/
def resized (x : Group) (cycle rank n r : Nat) (ms : List (Nat × Nat)) : Group :=
  takeAll cycle rank (ms.map fun m => (m.1, fun f => f.setN m.2 1 (16 * n)))
    ((x.setBlocks rank n).mapFibres (keepRegs rank r))

section

variable {x : Group} {c rank n r : Nat} {ms : List (Nat × Nat)}

/-- Results taken one after another change no field of the group but its fibres. -/
theorem takeAll_fields (us : List (Nat × (Fibre → Fibre))) (x : Group) :
    ∃ fs, takeAll c rank us x = { x with fibres := fs } := by
  unfold takeAll
  refine foldl_keeps (fun z : Group => ∃ fs, z = { x with fibres := fs }) _ us x ⟨x.fibres, rfl⟩ fun z u ⟨fs, hz⟩ => ?_
  obtain ⟨fs', h⟩ := updFibre_fields z (32 * rank + u.1) fun f => (u.2 f).advance c
  exact ⟨fs', by rw [h, hz]⟩

/-- The first register written with a number that a register holds. -/
theorem r_setN_one {f : Fibre} (d : Nat) {v : Nat} (h : Tab.wf 0#32 f.regs = true) (hv : v < 2 ^ 32) :
    ((f.setN d 1 v).r d).toNat = v := by
  rw [Fibre.setN, Fibre.setN, Fibre.r_setR_same f d _ h, BitVec.toNat_ofNat, Nat.mod_eq_of_lt hv]

/-- Each claimant goes on to its next word with the new size in its D. -/
theorem resized_claimant {y : Group} (h : Poised x y) (hn : 16 * n < 2 ^ 32) (hnd : (ms.map (·.1)).Nodup)
    {m : Nat × Nat} (hm : m ∈ ms) {w : Fibre} (hw : x.fibre? (32 * rank + m.1) = some w)
    (hr : Tab.wf 0#32 w.regs = true) : ∃ v, (resized y c rank n r ms).fibre? (32 * rank + m.1) = some v ∧
      (v.r m.2).toNat = 16 * n ∧ v.pos = w.pos.next ∧ v.stat = .ready := by
  obtain ⟨-, -, hfib⟩ := h
  obtain ⟨st, hst⟩ := hfib _ w hw
  have kept : ∃ u, (keepRegs rank r (32 * rank + m.1) { w with stat := st }) = { w with stat := st, regs := u } ∧
      Tab.wf 0#32 u = true := by
    unfold keepRegs
    split
    · exact ⟨_, rfl, wfFrom_filter _ hr⟩
    · exact ⟨w.regs, rfl, hr⟩
  obtain ⟨u, hu, hwf⟩ := kept
  have lanes : ((ms.map fun m => (m.1, fun f : Fibre => f.setN m.2 1 (16 * n))).map (·.1)).Nodup := by
    simpa [Function.comp_def] using hnd
  have cut : ((y.setBlocks rank n).mapFibres (keepRegs rank r)).fibre? (32 * rank + m.1) =
      some { w with stat := st, regs := u } := by
    rw [fibre?_mapFibres, show (y.setBlocks rank n).fibre? _ = _ from hst, Option.map_some, hu]
  refine ⟨_, takeAll_takes lanes (List.mem_map_of_mem hm) cut, r_setN_one _ hwf hn, ?_, rfl⟩
  exact congrArg Pos.next (Fibre.setN_pos ..)

/-- The rank holds the new number of blocks, and no rendezvous is open. -/
theorem resized_blocks {y : Group} (h : Poised x y) :
    (resized y c rank n r ms).blocks rank = n ∧ (resized y c rank n r ms).rvs = [] := by
  obtain ⟨hrvs, hwf, -⟩ := h
  obtain ⟨fs, hfs⟩ := takeAll_fields (c := c) (rank := rank) (ms.map fun m => (m.1, fun f => f.setN m.2 1 (16 * n)))
    ((y.setBlocks rank n).mapFibres (keepRegs rank r))
  rw [resized, hfs]
  exact ⟨blocks_setBlocks_same n hwf, hrvs⟩

end

/-! ### Granting a claim, and surrendering -/

/-- A claim at the head of the queue that the pool covers is granted (R155). -/
theorem grant_one {x : Group} {k : Claim} (cycle : Nat) (h : k.blocks ≤ x.pool) : x.grant cycle [k] =
    resized { x with pool := x.pool - k.blocks, claims := [] } cycle k.rank (x.blocks k.rank + k.blocks)
      (16 * x.blocks k.rank) k.members := by
  rw [Group.grant, if_pos h, Group.grant, resized, takeAll, List.foldl_map]
  rfl

theorem checkStalled_none {s : State} {g : Nat} {x : Group} (hg : s.group? g = some x) (h : x.claims = []) :
    s.checkStalled g = s := by
  simp only [State.checkStalled, hg, h, List.getLast?_nil]

section

variable {s : State} {g : Nat} {x : Group} {v : Rendezvous} {c : Nat}

/-- A claim that Amax allows and the pool covers is granted at once (R154, R155). -/
theorem enterClaim_grants (hmax : x.blocks v.rank + c ≤ x.amax) (hpool : c ≤ x.pool) (hq : x.claims = [])
    (hr : x.rvs = []) (ha : Tab.wf 0 x.alloc = true) {n : Nat} {w : Fibre} (hw : x.fibre? n = some w)
    (hn : n / 32 = v.rank) : ∃ y, Poised x y ∧ (s.enterClaim g x v c).group? g =
      some (resized y s.cycle v.rank (x.blocks v.rank + c) (16 * x.blocks v.rank) (claimants v)) := by
  set z := queued v.rank (claimants v) { x with claims := [⟨v.rank, c, claimants v⟩] } with hz
  obtain ⟨⟨fs, hfs⟩, hst⟩ := queued_fields v.rank (claimants v) { x with claims := [⟨v.rank, c, claimants v⟩] }
  have enters : s.enterClaim g x v c = ((s.setGroup g z).grantClaims g).checkStalled g := by
    rw [State.enterClaim, if_neg (Nat.not_lt.2 hmax), hq]
    rfl
  have live : (s.setGroup g z).rankFree g z v.rank = false := by
    obtain ⟨st, hw'⟩ := hst n w hw
    exact hn ▸ rankFree_live hw'
  obtain ⟨hcyc, y, hy, hfib, hrvs, hclaims, hle, hblocks, hwf⟩ :=
    reclaim_group (State.group?_setGroup_same s g z) live (by rw [hz, hfs]; exact ha)
  have granted : ((s.setGroup g z).grantClaims g).group? g = some (resized { y with pool := y.pool - c, claims := [] }
      s.cycle v.rank (x.blocks v.rank + c) (16 * x.blocks v.rank) (claimants v)) := by
    have one : y.claims = [⟨v.rank, c, claimants v⟩] := by rw [hclaims, hz, hfs]
    have same : y.blocks v.rank = x.blocks v.rank := by rw [hblocks, hz, hfs]; rfl
    have covers : c ≤ y.pool := le_trans (by rw [hz, hfs]; exact hpool) hle
    rw [State.grantClaims, State.group?_updGroup_same, hy, Option.map_some, one, grant_one _ covers, State.setGroup_cycle]
    simp only [same]
  refine ⟨{ y with pool := y.pool - c, claims := [] }, ⟨?_, hwf, fun k u hu => ?_⟩, ?_⟩
  · rw [show y.rvs = x.rvs by rw [hrvs, hz, hfs], hr]
  · obtain ⟨st, hu'⟩ := hst k u hu
    exact ⟨st, by rw [← hu', ← hz, Group.fibre?, Group.fibre?, ← hfib]⟩
  · rw [enters, checkStalled_none granted, granted]
    obtain ⟨fs', h'⟩ := takeAll_fields (c := s.cycle) (rank := v.rank)
      ((claimants v).map fun m => (m.1, fun f => f.setN m.2 1 (16 * (x.blocks v.rank + c))))
      ((({ y with pool := y.pool - c, claims := [] } : Group).setBlocks v.rank (x.blocks v.rank + c)).mapFibres
        (keepRegs v.rank (16 * x.blocks v.rank)))
    rw [resized, h']
    rfl

/-- A surrender that leaves a block, and every claimant's D, takes place unless a write is outstanding (R154). -/
theorem surrender_eq (hd : ∀ m ∈ claimants v, m.2 < 16 * (x.blocks v.rank - c)) (hc : c < x.blocks v.rank) :
    s.surrender g x v c = if s.memberWrites g v (16 * (x.blocks v.rank - c)) then none else
      some (s.setGroup g (resized { x with pool := x.pool + c } s.cycle v.rank (x.blocks v.rank - c)
        (16 * (x.blocks v.rank - c)) (claimants v))) := by
  have keeps : ((claimants v).any fun m => decide ((m.2 : Int) ≥ 16 * ((x.blocks v.rank : Int) - c))) = false := by
    simp only [List.any_eq_false, decide_eq_true_eq]
    intro m hm
    have := hd m hm
    omega
  simp only [State.surrender, keeps, Bool.false_eq_true, if_false]
  rw [if_neg (by omega), resized, takeAll, List.foldl_map]
  rfl

/-- The outstanding writes that a surrender waits for, by the members they belong to. -/
theorem memberWrites_iff (hv : ∀ k ∈ v.members, k.lane < 32) (r : Nat) : s.memberWrites g v r = true ↔
    ∃ k ∈ v.members, ∃ o ∈ s.ops, o.fib = ⟨g, 32 * v.rank + k.lane⟩ ∧ o.inc = k.inc ∧ ∃ q ∈ o.dst, r ≤ q := by
  simp only [State.memberWrites, List.any_eq_true, Bool.and_eq_true, beq_iff_eq, decide_eq_true_eq]
  constructor
  · rintro ⟨o, ho, ⟨⟨hg, hr⟩, k, hk, hl, hi⟩, q, hq, hle⟩
    refine ⟨k, hk, o, ho, ?_, hi.symm, q, hq, hle⟩
    have number : o.fib.f = 32 * v.rank + k.lane := by omega
    rw [← hg, ← number]
  · rintro ⟨k, hk, o, ho, hf, hi, q, hq, hle⟩
    have := hv k hk
    refine ⟨o, ho, ⟨⟨by rw [hf], ?_⟩, k, hk, ?_, hi.symm⟩, q, hq, hle⟩
    · rw [hf]; show (32 * v.rank + k.lane) / 32 = _; omega
    · rw [hf]; show _ = (32 * v.rank + k.lane) % 32; omega

/-! ### The last member of a CLAIM or SURR -/

section

variable {l d : Nat} {cs : List (Nat × Offer)} (hv : x.rvs = [v]) (hp : x.present v = true)

include hv hp

/-- The rendezvous that has just become complete is the one that is open. -/
theorem settleOne_due : (!x.rvs.contains v || !x.present v) = false ∧ (x.rvs.filter fun w => w != v) = [] := by
  simp [hv, hp]

theorem settleOne_claims (hc : v.contributors = (l, .claim c d) :: cs) : (s.setGroup g x).settleOne g v =
    (s.setGroup g (withRvs x [])).enterClaim g (withRvs x []) v c := by
  obtain ⟨due, rest⟩ := settleOne_due hv hp
  simp only [State.settleOne, State.group?_setGroup_same, due, hc, rest, Bool.false_eq_true, if_false, setGroup_setGroup]
  rfl

theorem settleOne_surr (hc : v.contributors = (l, .surr c d) :: cs) : (s.setGroup g x).settleOne g v =
    ((s.setGroup g (withRvs x [])).surrender g (withRvs x []) v c).getD
      (s.setGroup g (withRvs x [{ v with full := true }])) := by
  obtain ⟨due, rest⟩ := settleOne_due hv hp
  simp only [State.settleOne, State.group?_setGroup_same, due, hc, rest, Bool.false_eq_true, if_false, setGroup_setGroup]
  rfl

/-- The last member of a CLAIM has its rank given the blocks, where Amax and the pool allow it. -/
theorem settleOne_grants (hc : v.contributors = (l, .claim c d) :: cs) (hmax : x.blocks v.rank + c ≤ x.amax)
    (hpool : c ≤ x.pool) (hq : x.claims = []) (ha : Tab.wf 0 x.alloc = true) {n : Nat} {w : Fibre}
    (hw : x.fibre? n = some w) (hn : n / 32 = v.rank) : ∃ r y, Poised x y ∧
      ((s.setGroup g x).settleOne g v).group? g =
        some (resized y s.cycle v.rank (x.blocks v.rank + c) r (claimants v)) := by
  obtain ⟨y, hy, ht⟩ := enterClaim_grants (s := s.setGroup g (withRvs x [])) (g := g) (x := withRvs x []) hmax hpool hq
    rfl ha hw hn
  exact ⟨_, y, hy, by rw [settleOne_claims hv hp hc, ht, State.setGroup_cycle]; rfl⟩

/-- The last member of a SURR takes the blocks from its rank, where no write is outstanding to a register that goes. -/
theorem settleOne_surrenders (hc : v.contributors = (l, .surr c d) :: cs)
    (hd : ∀ m ∈ claimants v, m.2 < 16 * (x.blocks v.rank - c)) (hlt : c < x.blocks v.rank) (ha : Tab.wf 0 x.alloc = true)
    (hw : s.memberWrites g v (16 * (x.blocks v.rank - c)) = false) : ∃ r y, Poised x y ∧
      ((s.setGroup g x).settleOne g v).group? g =
        some (resized y s.cycle v.rank (x.blocks v.rank - c) r (claimants v)) := by
  have quiet : ¬ (s.setGroup g (withRvs x [])).memberWrites g v (16 * ((withRvs x []).blocks v.rank - c)) = true := by
    rw [State.memberWrites, State.setGroup_ops]
    exact Bool.eq_false_iff.1 hw
  refine ⟨16 * (x.blocks v.rank - c), { withRvs x [] with pool := x.pool + c }, ⟨rfl, ha, fun k w hk => ⟨w.stat, hk⟩⟩, ?_⟩
  rw [settleOne_surr hv hp hc, surrender_eq (x := withRvs x []) hd hlt, if_neg quiet]
  exact State.group?_setGroup_same ..

/-- Such a write holds the rendezvous open, its members all present. -/
theorem settleOne_held (hc : v.contributors = (l, .surr c d) :: cs)
    (hd : ∀ m ∈ claimants v, m.2 < 16 * (x.blocks v.rank - c)) (hlt : c < x.blocks v.rank)
    (hw : s.memberWrites g v (16 * (x.blocks v.rank - c)) = true) : (s.setGroup g x).settleOne g v =
      s.setGroup g (withRvs x [{ v with full := true }]) := by
  have busy : (s.setGroup g (withRvs x [])).memberWrites g v (16 * ((withRvs x []).blocks v.rank - c)) = true := by
    rw [State.memberWrites, State.setGroup_ops]
    exact hw
  rw [settleOne_surr hv hp hc, surrender_eq (x := withRvs x []) hd hlt, if_pos busy]
  rfl

end

end

end Sys2Proof.Proofs
end

section
/-! SUPPORT. The rendezvous of a rank at CLAIM and SURR (R153 to R155). -/

namespace Sys2Proof.Proofs

open Sys2Proof Sys2Proof.Machine Sys2Proof.Safety Sys2Proof.Laws

/-! ### A fibre that comes -/

/-- The rendezvous of the whole rank at the fibre's PC, with the fibre as its last member to come. -/
def coming (s : State) (f : Fibre) (ms : List Member) (o : Offer) : Rendezvous :=
  ⟨s.cur.f / 32, f.pos.pc, none, ⟨s.cur.f % 32, f.inc, some o⟩ :: ms, false⟩

/-- The group with that rendezvous open and the fibre waiting at it. -/
def assembled (s : State) (g : Group) (v : Rendezvous) : Group :=
  (withRvs g [v]).updFibre s.cur.f fun w => { w with stat := .wait .rendezvous }

section

variable {i : Instr} {h : Hdr} {chks : List Chk} {offer : Fibre → Offer} {s : State} {g : Group} {f : Fibre}
  {ms : List Member} {o : Offer} {v : Rendezvous}

theorem assembled_fields (s : State) (g : Group) (v : Rendezvous) :
    (∃ fs, assembled s g v = { g with rvs := [v], fibres := fs }) ∧ Stands g (assembled s g v) :=
  ⟨updFibre_fields (withRvs g [v]) .., stands_updFibre (withRvs g [v]) _ _⟩

/-- A fibre that comes to a rendezvous of its whole rank joins it, waits, and has it tried. -/
theorem rendezvousWord_comes (hi : Issues s g f h { gangOnly := true, chks := chks })
    (hr : g.rvs = if ms = [] then [] else [⟨s.cur.f / 32, f.pos.pc, none, ms, false⟩])
    (hms : ∀ k ∈ ms, k.lane ≠ s.cur.f % 32) (hm : ∀ m, ¬ MaskDue g (s.cur.f / 32) m) :
    rendezvousWord i h chks true none offer s = .next (kept s ((s.setGroup s.cur.g
      (assembled s g (coming s f ms (offer f)))).settleOne s.cur.g (coming s f ms (offer f)))) := by
  set v := coming s f ms (offer f) with hv
  obtain ⟨⟨fs, hfs⟩, -⟩ := assembled_fields s g v
  have new : g.joined s.cur.f f none = false := by
    by_cases hn : ms = []
    · simp [Group.joined, hr, hn]
    · simpa [Group.joined, hr, hn] using fun k hk hl => absurd hl (hms k hk)
  have joins : g.join s.cur.f f none (some (offer f)) = withRvs g [v] := by
    by_cases hn : ms = []
    · simp [Group.join, hr, hn, hv, coming, withRvs]
    · simp [Group.join, hr, hn, hv, coming, withRvs]
  have masks : settleMasks (assembled s g v) s.cycle (s.cur.f / 32) rankMasks = assembled s g v :=
    settleMasks_none fun k _ => by rw [hfs]; exact hm k
  have only : ((assembled s g v).rvs.filter fun w => w.rank == s.cur.f / 32) = [v] := by
    rw [hfs]
    simp [hv, coming]
  have settled : (s.setGroup s.cur.g (assembled s g v)).settleRank s.cur.g (s.cur.f / 32) =
      (s.setGroup s.cur.g (assembled s g v)).settleOne s.cur.g v := by
    rw [settleRank_eq (State.group?_setGroup_same ..), State.setGroup_cycle, masks, only, setGroup_setGroup,
      List.foldl_cons, List.foldl_nil]
  rw [← settled]
  refine runWord_keep (g := g) (f := f) hi ?_
  simp only [new, joins, Bool.false_eq_true, if_false, assembled]

/-- The rendezvous is complete when every live gang fibre of the rank has come. -/
theorem present_assembled (hs : (g.fibres.map (·.1)).Pairwise (· < ·)) (hf : g.fibre? s.cur.f = some f) :
    (assembled s g (coming s f ms o)).present (coming s f ms o) = true ↔
      ∀ p ∈ g.fibres, p.1 / 32 = s.cur.f / 32 → p.2.wave = false →
        p.1 = s.cur.f ∨ ∃ k ∈ ms, k.lane = p.1 % 32 ∧ k.inc = p.2.inc := by
  have wakes : Wakes (fun _ => True) (withRvs g [coming s f ms o]) (assembled s g (coming s f ms o)) :=
    wakes_updFibre (x := withRvs g [coming s f ms o]) (u := fun w => { w with stat := .wait .rendezvous }) hs _
      fun _ => ⟨rfl, rfl⟩
  obtain ⟨⟨fs, hfs⟩, -⟩ := assembled_fields s g (coming s f ms o)
  rw [wakes.present (by rw [hfs]; rfl)]
  simp only [Group.present, coming, Bool.false_or, List.all_eq_true, fibres_withRvs, Bool.or_eq_true, bne_iff_ne,
    List.any_cons, List.any_eq_true, Bool.and_eq_true, beq_iff_eq]
  refine forall₂_congr fun p hp => ?_
  have me (hr : p.1 / 32 = s.cur.f / 32) : s.cur.f % 32 = p.1 % 32 ∧ f.inc = p.2.inc ↔ p.1 = s.cur.f := by
    constructor
    · rintro ⟨hl, -⟩; omega
    · intro e
      have found : g.fibre? s.cur.f = some p.2 := find_of_mem hs (e ▸ hp)
      rw [hf] at found
      exact ⟨by rw [e], by rw [Option.some.inj found]⟩
  by_cases hr : p.1 / 32 = s.cur.f / 32
  · cases p.2.wave <;> simp [hr, me hr]
  · simp [hr]

/-- The group after the word has gone by, once the rank has its new size. -/
theorem kept_resized {t : State} {x y : Group} {c rank n r : Nat} {cs : List (Nat × Nat)}
    (ht : t.group? s.cur.g = some (resized y c rank n r cs)) (hy : Poised x y) (hn : 16 * n < 2 ^ 32)
    (hcs : (cs.map (·.1)).Nodup) : ∃ z, (kept s t).group? s.cur.g = some z ∧ z.blocks rank = n ∧ z.rvs = [] ∧
      ∀ m ∈ cs, ∀ w, x.fibre? (32 * rank + m.1) = some w → Tab.wf 0#32 w.regs = true →
        ∃ u, z.fibre? (32 * rank + m.1) = some u ∧ (u.r m.2).toNat = 16 * n ∧ u.pos = w.pos.next ∧ u.stat = .ready := by
  obtain ⟨hb, hr⟩ := resized_blocks (c := c) (n := n) (rank := rank) (r := r) (ms := cs) hy
  obtain ⟨fs, hfs⟩ := updFibre_fields (resized y c rank n r cs) s.cur.f fun f => { f with grant := none }
  refine ⟨(resized y c rank n r cs).updFibre s.cur.f fun f => { f with grant := none }, by rw [kept_group, ht]; rfl,
    by rw [hfs]; exact hb, by rw [hfs]; exact hr, fun m hm w hw hwf => ?_⟩
  obtain ⟨u, hu, hd, hp, hst⟩ := resized_claimant (c := c) (r := r) hy hn hcs hm hw hwf
  by_cases hk : 32 * rank + m.1 = s.cur.f
  · exact ⟨{ u with grant := none }, by rw [hk, Group.fibre?_updFibre_same, ← hk, hu]; rfl, hd, hp, hst⟩
  · exact ⟨u, by rw [Group.fibre?_updFibre_other _ hk, hu], hd, hp, hst⟩

/-- The group after the word has gone by, with the fibre waiting on at the rendezvous. -/
theorem kept_held (rs : List Rendezvous) (hf : g.fibre? s.cur.f = some f) : ∃ z u,
    (kept s (s.setGroup s.cur.g (withRvs (assembled s g v) rs))).group? s.cur.g = some z ∧ z.rvs = rs ∧
      (∀ k, z.blocks k = g.blocks k) ∧ z.fibre? s.cur.f = some u ∧ u.stat = .wait .rendezvous ∧ u.pos = f.pos := by
  have mine : (assembled s g v).fibre? s.cur.f = some { f with stat := .wait .rendezvous } := by
    rw [assembled, Group.fibre?_updFibre_same, fibre?_withRvs, hf]; rfl
  obtain ⟨⟨fs, hfs⟩, -⟩ := assembled_fields s g v
  refine ⟨(withRvs (assembled s g v) rs).updFibre s.cur.f fun w => { w with grant := none },
    { f with stat := .wait .rendezvous, grant := none }, ?_, Group.updFibre_rvs .., fun k => ?_, ?_, rfl, rfl⟩
  · rw [kept_group, State.group?_setGroup_same, Option.map_some]
  · rw [Group.blocks, Group.blocks0, Group.updFibre_lr, Group.updFibre_alloc, hfs]; rfl
  · rw [Group.fibre?_updFibre_same, fibre?_withRvs, mine]; rfl

end

/-! ### CLAIM and SURR -/

/-- What a member brings to a CLAIM or SURR of `c`. -/
def blockOffer (claim : Bool) (c d : Nat) : Offer := if claim then .claim c d else .surr c d

theorem claimD_blockOffer (claim : Bool) (c d : Nat) : claimD (blockOffer claim c d) = some d := by cases claim <;> rfl

/-- Where all that offer something offer a CLAIM or SURR of `c`, so does the first contributor. -/
theorem contributors_first {v : Rendezvous} {k : Member} {o : Offer} {claim : Bool} {c : Nat} (hk : k ∈ v.members)
    (ho : k.offer = some o) (hall : ∀ q ∈ v.members, ∀ o, q.offer = some o → ∃ r, o = blockOffer claim c r) :
    ∃ l r cs, v.contributors = (l, blockOffer claim c r) :: cs := by
  have mine : (k.lane, o) ∈ v.contributors := mem_contributors.2 ⟨k, hk, rfl, ho⟩
  obtain ⟨⟨l, o'⟩, cs, hcs⟩ := List.exists_cons_of_ne_nil (List.ne_nil_of_mem mine)
  have head : (l, o') ∈ v.contributors := by rw [hcs]; exact List.mem_cons_self
  obtain ⟨q, hq, -, ho'⟩ := mem_contributors.1 head
  obtain ⟨r, hr⟩ := hall q hq _ ho'
  exact ⟨l, r, cs, by rw [hcs]; exact congrArg (fun o => (l, o) :: cs) hr⟩

theorem exec_claimOrSurr (claim : Bool) (h : Hdr) (d : Reg) (c : BitVec 14) (s : State) :
    exec (if claim then .claim h d c else .surr h d c) s =
      rendezvousWord (if claim then .claim h d c else .surr h d c) h (Reg.chk d 1) true none
        (fun f => blockOffer claim c.toNat (f.reg d)) s := by
  cases claim <;> rfl

/-- Settles O14: the word has the rendezvous of its rank tried, which stays open while a fibre is absent, and else is
granted, surrendered or held by outstanding writes. -/
theorem claimAndSurrender : Obligations.ClaimAndSurrender := by
  unfold Obligations.ClaimAndSurrender
  intro s g f h d c ms claim rank lane a word offer at_ all here writes hi hrvs hclaims hc halloc ha hsorted hnodup hlanes
    hmasks hoffers done
  have offer_eq (k : Nat) : offer k = blockOffer claim c.toNat k := rfl
  set v := coming s f ms (blockOffer claim c.toNat (f.reg d)) with hv
  obtain ⟨hme, -⟩ := List.nodup_cons.1 hnodup
  have comes : Runs word s (kept s ((s.setGroup s.cur.g (assembled s g v)).settleOne s.cur.g v)) :=
    (exec_claimOrSurr claim h d c s).trans (rendezvousWord_comes hi hrvs
      (fun k hk e => hme (List.mem_map.2 ⟨k, hk, e⟩)) fun m => not_maskDue (hmasks m))
  have complete := present_assembled (ms := ms) (o := blockOffer claim c.toNat (f.reg d)) hsorted hi.fibre
  obtain ⟨⟨fs, hfs⟩, hst⟩ := assembled_fields s g v
  have laneBound : ∀ k ∈ v.members, k.lane < 32 := by
    intro k hk
    rcases List.mem_cons.1 hk with rfl | hk
    · exact Nat.mod_lt _ (by decide)
    · exact hlanes k hk
  have blocks : (assembled s g v).blocks v.rank = a := by rw [hfs]; rfl
  constructor
  · rintro ⟨p, hp, hr, hw, hno⟩
    rw [settleOne_absent (State.group?_setGroup_same ..)
      (Bool.eq_false_iff.2 fun hall => hno (complete.1 hall p hp hr hw))] at comes
    exact comes
  intro hall
  have present : (assembled s g v).present v = true := complete.2 hall
  obtain ⟨l, r, cs, first⟩ : ∃ l r cs, v.contributors = (l, blockOffer claim c.toNat r) :: cs :=
    contributors_first (List.mem_cons_self ..) rfl fun k hk o ho => by
      obtain ⟨r, -, hr, -⟩ := hoffers k hk o ho
      exact ⟨r, hr⟩
  have finishes {n r : Nat} {y : Group} (hy : Poised (assembled s g v) y) (hn : n ≤ 2 ^ 15)
      (ht : ((s.setGroup s.cur.g (assembled s g v)).settleOne s.cur.g v).group? s.cur.g =
        some (resized y s.cycle rank n r (claimants v))) : done n := by
    obtain ⟨z, hz, hb, hr, hfib⟩ := kept_resized ht (poised_of hst hy) (by omega) (claimants_lanes hnodup)
    refine ⟨_, z, comes, hz, hb, hr, fun k hk q w ho hw => ?_⟩
    obtain ⟨-, w', -, hw', hwf, -⟩ := hoffers k hk _ ho
    cases hw.symm.trans hw'
    exact hfib (k.lane, q) (mem_claimants.2 ⟨k, hk, rfl, _, ho, claimD_blockOffer ..⟩) w hw hwf
  have small : c.toNat < 2 ^ 14 := c.isLt
  have below (hcl : claim = false) : ∀ m ∈ claimants v, m.2 < 16 * ((assembled s g v).blocks v.rank - c.toNat) := by
    intro m hm
    obtain ⟨k, hk, -, o, ho, hd⟩ := mem_claimants.1 hm
    obtain ⟨r, -, rfl, -, -, hr⟩ := hoffers k hk _ ho
    rw [offer_eq, claimD_blockOffer] at hd
    rw [blocks, ← Option.some.inj hd]
    exact hr hcl
  have outstanding : s.memberWrites s.cur.g v (16 * (a - c.toNat)) = true ↔ ∃ k ∈ all, ∃ o ∈ s.ops, writes k o :=
    memberWrites_iff laneBound _
  have alloc : Tab.wf 0 (assembled s g v).alloc = true := by rw [hfs]; exact halloc
  have open_ : (assembled s g v).rvs = [v] := by rw [hfs]
  rw [← blocks] at outstanding
  refine ⟨fun hcl hmax hpool => ?grants, fun hcl hlt hno => ?surrenders, fun hcl hlt hwr => ?held⟩
  case grants =>
    subst hcl
    obtain ⟨st, hmine⟩ := hst _ _ hi.fibre
    obtain ⟨r, y, hy, ht⟩ := settleOne_grants (s := s) (g := s.cur.g) open_ present first (by rw [hfs]; exact hmax)
      (by rw [hfs]; exact hpool) (by rw [hfs]; exact hclaims) alloc hmine rfl
    rw [blocks] at ht
    exact finishes hy (by omega) ht
  case surrenders =>
    subst hcl
    have quiet := Bool.eq_false_iff.2 fun hw => by
      obtain ⟨k, hk, o, ho, hwr⟩ := outstanding.1 hw
      exact hno k hk o ho hwr
    obtain ⟨r, y, hy, ht⟩ := settleOne_surrenders (s := s) (g := s.cur.g) open_ present first (below rfl)
      (by rw [blocks]; exact hlt) alloc quiet
    rw [blocks] at ht
    exact finishes hy (by omega) ht
  case held =>
    subst hcl
    rw [settleOne_held open_ present first (below rfl) (by rw [blocks]; exact hlt) (outstanding.2 hwr)] at comes
    obtain ⟨z, u, hz, hr, hb, hu, hst, hpos⟩ := kept_held (v := v) [{ v with full := true }] hi.fibre
    exact ⟨_, z, u, comes, hz, hr, hb rank, hu, hst, hpos⟩

end Sys2Proof.Proofs
end

section
/-! SUPPORT. What the operations on one group leave of its scratchpad (R157, R160), and how the canonical form of the
memories passes through the results of words, checks and folds. -/

namespace Sys2Proof.Proofs

open Sys2Proof Sys2Proof.Machine Sys2Proof.Safety Sys2Proof.Laws

variable {α : Type} {s t : State} {x y : Group}

/-! ### The scratchpad of a group -/

/-- A fold keeps the scratchpad where each of its steps does. -/
theorem foldl_scratch {u : Group → α → Group} (l : List α) (hu : ∀ z a, (u z a).scratch = z.scratch) :
    (l.foldl u x).scratch = x.scratch :=
  foldl_keeps (fun z => z.scratch = x.scratch) u l x rfl fun z a hz => (hu z a).trans hz

@[simp] theorem settleMask_scratch {cycle rank m} : (x.settleMask cycle rank m).scratch = x.scratch := by
  unfold Group.settleMask
  dsimp only
  split <;> rfl

theorem foldl_updFibre_scratch {n : α → Nat} {u : α → Fibre → Fibre} (l : List α) :
    (l.foldl (fun z a => z.updFibre (n a) (u a)) x).scratch = x.scratch :=
  foldl_scratch l fun _ _ => updFibre_scratch ..

@[simp] theorem grant_scratch {cycle} (cs : List Claim) : (x.grant cycle cs).scratch = x.scratch := by
  induction cs generalizing x with
  | nil => rfl
  | cons c cs ih =>
    unfold Group.grant
    split
    · exact ih.trans (foldl_updFibre_scratch _)
    · rfl

@[simp] theorem join_scratch {f v mask o} : (x.join f v mask o).scratch = x.scratch := by
  unfold Group.join
  dsimp only
  split <;> rfl

@[simp] theorem markTasks_scratch : x.markTasks.scratch = x.scratch := rfl

@[simp] theorem settleBar_scratch {cycle n} : (x.settleBar cycle n).scratch = x.scratch := by
  unfold Group.settleBar
  dsimp only
  split <;> rfl

@[simp] theorem arrive_scratch {cycle f n wait} : (x.arrive cycle f n wait).scratch = x.scratch :=
  settleBar_scratch.trans (updFibre_scratch ..)

@[simp] theorem joinBars_scratch {n} : (x.joinBars n).scratch = x.scratch := foldl_scratch _ fun _ _ => rfl

@[simp] theorem removeFibre_scratch {f} : (x.removeFibre f).scratch = x.scratch :=
  foldl_scratch (List.range 8) fun _ _ => rfl

@[simp] theorem setRow_scratch {t l n} (row : List Word) : (x.setRow t l n row).scratch = x.scratch := by
  induction row generalizing x n with
  | nil => rfl
  | cons w row ih => exact ih

@[simp] theorem putRow_scratch {t l row} : (x.putRow t l row).scratch = x.scratch := setRow_scratch row

@[simp] theorem releaseAbar_scratch {n cycle} : (x.releaseAbar n cycle).scratch = x.scratch := by
  unfold Group.releaseAbar
  split <;> rfl

@[simp] theorem leave_scratch {n f} : (x.leave n f).scratch = x.scratch := by
  unfold Group.leave
  split <;> rfl

@[simp] theorem resumeFibre_scratch {n f cycle step} : (x.resumeFibre n f cycle step).scratch = x.scratch := by
  unfold Group.resumeFibre
  split
  · exact leave_scratch
  · rfl

@[simp] theorem resumeAll_scratch {cycle} : (x.resumeAll cycle).scratch = x.scratch := by
  refine foldl_scratch _ fun z p => ?_
  split
  · exact resumeFibre_scratch
  · rfl

@[simp] theorem tick_scratch {cycle} : (x.tick cycle).scratch = x.scratch := by
  unfold Group.tick
  split <;> rfl

theorem declare_scratch {d} (h : declare x d = some y) : y.scratch = x.scratch := by
  unfold declare at h
  split at h
  split at h
  · cases h
  · cases h
    rfl

theorem declareAll_scratch {ds : List Dword} (h : declareAll x ds = some y) : y.scratch = x.scratch := by
  induction ds generalizing x with
  | nil =>
    cases h
    rfl
  | cons d ds ih =>
    unfold declareAll at h
    split at h
    · next z hz => exact (ih h).trans (declare_scratch hz)
    · cases h

/-- The scratchpad of a group starts as zeros (R160). -/
theorem newGroup_scratch {l v lin slot core cycle id} : (newGroup l v lin slot core cycle id).scratch = [] := by
  unfold newGroup
  dsimp only
  cases h : declareAll _ v.lr.decls with
  | none => rfl
  | some y => exact declareAll_scratch h

theorem wf_scratchWrite {off bs} (hx : Memory.wf x.scratch = true) : Memory.wf (x.scratchWrite off bs).scratch = true :=
  Memory.wf_write off bs hx

/-! ### Folds and results -/

/-- A fold over a state and what is left to be done keeps the canonical form where each of its steps does. -/
theorem memoryOk_foldl_fst {β : Type} {u : State × β → α → State × β} (l : List α) {b : β} (h : MemoryOk s)
    (hu : ∀ q a, MemoryOk q.1 → MemoryOk (u q a).1) : MemoryOk (l.foldl u (s, b)).1 :=
  foldl_keeps (fun q => MemoryOk q.1) u l (s, b) h hu

theorem memoryOk_foldl_snd {β : Type} {u : β × State → α → β × State} (l : List α) {b : β} (h : MemoryOk s)
    (hu : ∀ q a, MemoryOk q.2 → MemoryOk (u q a).2) : MemoryOk (l.foldl u (b, s)).2 :=
  foldl_keeps (fun q => MemoryOk q.2) u l (b, s) h hu

theorem memoryOk_ite {c : Prop} [Decidable c] (hs : MemoryOk s) (ht : MemoryOk t) : MemoryOk (if c then s else t) := by
  split
  · exact hs
  · exact ht

theorem memoryOk_ite_snd {c : Prop} [Decidable c] {p q : α × State} (hp : MemoryOk p.2) (hq : MemoryOk q.2) :
    MemoryOk (if c then p else q).2 := by
  split
  · exact hp
  · exact hq

/-- Whatever state there is holds canonical memories. -/
def OptOk (o : Option State) : Prop := ∀ t ∈ o, MemoryOk t

theorem optOk_none : OptOk none := fun _ h => nomatch h

theorem optOk_some (h : MemoryOk s) : OptOk (some s) := fun _ e => Option.some.inj e ▸ h

theorem memoryOk_getD {o : Option State} (ho : OptOk o) (h : MemoryOk s) : MemoryOk (o.getD s) := by
  cases o with
  | none => exact h
  | some t => exact ho t rfl

/-- The state that a check leaves, whether it ends its word or not. -/
def checkState {α : Type} : Res ⊕ (α × State) → State
  | .inl r => resState r
  | .inr p => p.2

theorem memoryOk_inl {o : Res ⊕ (α × State)} {r : Res} (h : MemoryOk (checkState o)) (e : o = .inl r) :
    MemoryOk (resState r) := by
  subst e
  exact h

theorem memoryOk_inr {o : Res ⊕ (α × State)} {a : α} (h : MemoryOk (checkState o)) (e : o = .inr (a, s)) : MemoryOk s := by
  subst e
  exact h

theorem memoryOk_snd {p : α × State} {a : α} (h : MemoryOk p.2) (e : p = (a, s)) : MemoryOk s := by
  subst e
  exact h

/-- Whatever an instruction takes the state to holds canonical memories. -/
def OutOk (o : Out) : Prop := ∀ t, o = .next t → MemoryOk t

theorem outOk_next (h : MemoryOk s) : OutOk (.next s) := by
  rintro _ ⟨⟩
  exact h

end Sys2Proof.Proofs
end

section
/-! SUPPORT. The operations that issue, ranks and barriers are made of keep the canonical form of the memories: reports,
operations, translation and fetch, rendezvous, barriers, tasks. -/

namespace Sys2Proof.Proofs

open Sys2Proof Sys2Proof.Machine Sys2Proof.Safety Sys2Proof.Laws

variable {s t : State} {x : Group}

/-! ### Groups -/

/-- A group replaced by one with the same scratchpad. -/
theorem memoryOk_regroup {g : Nat} {y : Group} (hx : s.group? g = some x) (hy : y.scratch = x.scratch) (h : MemoryOk s) :
    MemoryOk (s.setGroup g y) := memoryOk_setGroup g (hy ▸ memoryOk_group h hx) h

/-- A group changed but for its scratchpad. -/
theorem memoryOk_keepGroup {g : Nat} {u : Group → Group} (hu : ∀ x, (u x).scratch = x.scratch) (h : MemoryOk s) :
    MemoryOk (s.updGroup g u) := memoryOk_updGroup g (fun x hx => (hu x).symm ▸ hx) h

/-- Every group changed but for its scratchpad. -/
theorem memoryOk_keepGroups {u : Nat × Group → Nat × Group} (hu : ∀ p, (u p).2.scratch = p.2.scratch) (h : MemoryOk s) :
    MemoryOk { s with groups := s.groups.map u } := memoryOk_mapGroups (fun p hp => (hu p).symm ▸ hp) h

/-! ### Reports and outstanding operations -/

theorem memoryOk_onIssuer {o u} (h : MemoryOk s) : MemoryOk (s.onIssuer o u) := memoryOk_updFibre _ _ h

theorem memoryOk_land {o d n v fl} (h : MemoryOk s) : MemoryOk (s.land o d n v fl) := memoryOk_finish o (memoryOk_onIssuer h)

theorem memoryOk_reportGroup {g ctx v} (h : MemoryOk s) : MemoryOk (s.reportGroup g ctx v) := by
  unfold State.reportGroup
  split
  · exact memoryOk_postFault _ _ h
  · next x hx =>
    split
    · exact memoryOk_postFault _ _ h
    · exact memoryOk_regroup hx rfl h

theorem memoryOk_reportTo {o v w} (h : MemoryOk s) : MemoryOk (s.reportTo o v w) := by
  unfold State.reportTo
  split
  · split
    · split
      · exact memoryOk_postFault _ _ h
      · exact memoryOk_updFibre _ _ h
    · exact memoryOk_reportGroup h
  · exact memoryOk_reportGroup h

theorem memoryOk_report {o c v body} (h : MemoryOk s) : MemoryOk (s.report o c v body) := memoryOk_reportTo h

theorem memoryOk_dataError {o a} (h : MemoryOk s) : MemoryOk (s.dataError o a) := memoryOk_report h

theorem memoryOk_asyncFail {o st va} (h : MemoryOk s) : MemoryOk (s.asyncFail o st va) := memoryOk_report h

theorem memoryOk_postGroupAt {n kind status pc va core} (h : MemoryOk s) :
    MemoryOk (s.postGroup x n kind status pc va core) := by
  unfold State.postGroup
  exact memoryOk_postFault _ _ h

/-- The form of memoryOk_takeTrap for a trap that names the core it is reported for. -/
theorem memoryOk_trapAt {r c v core} (h : MemoryOk s) : MemoryOk (s.takeTrap r c v core) := by
  unfold State.takeTrap
  split
  · exact h
  · next x hx =>
    split
    · exact h
    split
    · unfold State.debugStop
      refine memoryOk_postGroupAt (memoryOk_regroup hx ?_ h)
      split <;> rfl
    split
    · unfold State.unhandled
      refine memoryOk_postGroupAt (foldl_keeps MemoryOk _ _ _ ?_ fun _ _ ht => memoryOk_keepGroup (fun _ => rfl) ht)
      exact memoryOk_regroup hx rfl h
    · exact memoryOk_regroup hx rfl h

theorem memoryOk_addOp {g f k kind dst sg rd wr nodrain used} (h : MemoryOk s) :
    MemoryOk (s.addOp g f k kind dst sg rd wr nodrain used) := by
  unfold State.addOp
  cases k with
  | none => exact h
  | some c => exact memoryOk_updFibre (s := { s with ops := _, nextId := _ }) _ _ h

theorem memoryOk_awaitUnit {u} (h : MemoryOk s) : MemoryOk (s.awaitUnit u) := memoryOk_updFibre _ _ h

/-- The form of memoryOk_runWord for words that act where their guard is false; the word's effect is asked for the issuer's
own group only. -/
theorem outOk_runWordIn {i : Instr} {hd : Hdr} {w : Group → Fibre → WordSpec} {body : Group → Fibre → State → Res}
    {u : State → State} (h : MemoryOk s) (hb : ∀ g f, s.group? s.cur.g = some g → MemoryOk (resState (body g f s)))
    (hu : MemoryOk (u s)) : OutOk (runWord i hd w body s u) := by
  unfold runWord
  split
  · exact outOk_next h
  next g hg =>
  replace hb := fun f => hb g f hg
  split
  · exact outOk_next h
  refine outOk_next (memoryOk_commit _ _ ?_)
  unfold issueWord
  dsimp only
  split
  · exact h
  split
  · exact h
  split
  · exact hu
  split
  · exact h
  split
  · exact h
  split
  · exact h
  split
  · exact h
  split
  · split
    · exact hb _
    · exact memoryOk_awaitUnit h
  · exact hb _

theorem outOk_runWord {i : Instr} {hd : Hdr} {w : Group → Fibre → WordSpec} {body : Group → Fibre → State → Res}
    (h : MemoryOk s) (hb : ∀ g f, MemoryOk (resState (body g f s))) : OutOk (runWord i hd w body s) :=
  outOk_runWordIn h (fun g f _ => hb g f) h

/-! ### Caches and pages -/

theorem memoryOk_writeBack {c a} (h : MemoryOk s) : MemoryOk (s.writeBack c a) := memoryOk_flushLines _ _ _ h

theorem memoryOk_dropLines {c a} (h : MemoryOk s) : MemoryOk (s.dropLines c a) := memoryOk_flushLines _ _ _ h

theorem memoryOk_dropLine {c a off} (h : MemoryOk s) : MemoryOk (s.dropLine c a off) := memoryOk_flushLines _ _ _ h

theorem memoryOk_sramAtomic {c a off op ty p q} (h : MemoryOk s) : MemoryOk (s.sramAtomic c a off op ty p q).2.2 :=
  memoryOk_sramWrite _ _ (memoryOk_dropLine h)

theorem memoryOk_find {c a gen va} (h : MemoryOk s) : MemoryOk (s.find c a gen va).2 := by
  unfold State.find
  dsimp only
  split
  · exact h
  · exact h
  · exact h

theorem memoryOk_lookup {c a gen va} (h : MemoryOk s) : MemoryOk (s.lookup c a gen va).2 := by
  unfold State.lookup
  dsimp only
  split
  · exact h
  · exact memoryOk_find h

theorem memoryOk_access {g va n acc tiers} (h : MemoryOk s) : MemoryOk (checkState (s.access g va n acc tiers)) := by
  unfold State.access
  split
  · exact h
  split
  · exact h
  dsimp only
  split
  · next e => exact memoryOk_snd (memoryOk_lookup h) e
  · next e =>
    have h1 := memoryOk_snd (memoryOk_lookup h) e
    split
    · exact h1
    split
    · exact h1
    · exact h1

theorem memoryOk_nearBytes {g p va n} (h : MemoryOk s) : MemoryOk (checkState (s.nearBytes g p va n)) := by
  unfold State.nearBytes
  dsimp only
  split
  · exact h
  · exact memoryOk_cacheRead _ _ _ _ h

theorem memoryOk_fibreRead {g at_ va n} {k : Nat} {acc} (h : MemoryOk s) :
    MemoryOk (checkState (s.fibreRead g at_ va n k acc)) := by
  induction k generalizing s va n acc with
  | zero => exact h
  | succ k ih =>
    unfold State.fibreRead
    dsimp only
    split
    · exact h
    split
    · next e => exact (memoryOk_inl (memoryOk_access h) e :)
    · next e => exact (memoryOk_inl (memoryOk_access h) e :)
    · next e => exact memoryOk_inl (memoryOk_access h) e
    · next e =>
      have h1 := memoryOk_inr (memoryOk_access h) e
      split
      · next e2 => exact memoryOk_inl (memoryOk_nearBytes h1) e2
      · next e2 => exact ih (memoryOk_inr (memoryOk_nearBytes h1) e2)

theorem memoryOk_readRecord {g va} {n : Nat} {acc} (h : MemoryOk s) : MemoryOk (checkState (s.readRecord g va n acc)) := by
  induction n generalizing s va acc with
  | zero => exact h
  | succ n ih =>
    unfold State.readRecord
    split
    · next e => exact memoryOk_inl (memoryOk_access h) e
    · next e =>
      have h1 := memoryOk_inr (memoryOk_access h) e
      split
      · next e2 => exact memoryOk_inl (memoryOk_nearBytes h1) e2
      · next e2 => exact ih (memoryOk_inr (memoryOk_nearBytes h1) e2)

/-! ### Fetch -/

theorem memoryOk_codeBytes {c a pc va n} (h : MemoryOk s) : MemoryOk (s.codeBytes c a pc va n).2 := by
  unfold State.codeBytes
  split
  · exact h
  split
  · next e => exact memoryOk_snd (memoryOk_lookup h) e
  · next e =>
    have h1 := memoryOk_snd (memoryOk_lookup h) e
    split
    · split <;> exact h1
    · split
      · exact h1
      · split <;> exact h1
    · exact h1

theorem memoryOk_readWord {c a pc} (h : MemoryOk s) : MemoryOk (s.readWord c a pc).2 := by
  unfold State.readWord
  dsimp only
  split
  · next e => exact memoryOk_snd (memoryOk_codeBytes h) e
  · next e =>
    have h1 := memoryOk_snd (memoryOk_codeBytes h) e
    split
    · exact h1
    split
    · next e2 => exact memoryOk_snd (memoryOk_codeBytes h1) e2
    · next e2 => exact memoryOk_snd (memoryOk_codeBytes h1) e2

theorem memoryOk_fetch {c ctx pc} (h : MemoryOk s) : MemoryOk (s.fetch c ctx pc).2 := by
  unfold State.fetch
  dsimp only
  split
  · split
    · exact h
    · exact memoryOk_readWord h
  · split
    · next e => exact (memoryOk_snd (memoryOk_readWord h) e :)
    · exact memoryOk_readWord h

theorem memoryOk_transfer {target u g} (h : MemoryOk s) : MemoryOk (resState (transfer target u g s)) := by
  unfold transfer
  split
  · exact h
  split
  · next e =>
    have h1 := memoryOk_snd (memoryOk_fetch h) e
    split
    · exact memoryOk_updFibre _ _ h1
    · exact h1
  · next e => exact memoryOk_snd (memoryOk_fetch h) e
  · next e => exact memoryOk_snd (memoryOk_fetch h) e
  · next e => exact memoryOk_snd (memoryOk_fetch h) e

theorem memoryOk_transferPair {target g} (h : MemoryOk s) : MemoryOk (resState (transferPair target g s)) := by
  unfold transferPair
  split
  · exact h
  · exact memoryOk_transfer h

theorem memoryOk_headerRes {c f} (h : MemoryOk s) : MemoryOk (resState (headerRes c s f)) := by
  unfold headerRes
  split
  · exact h
  split
  · exact h
  · exact memoryOk_updFibre _ _ h

/-! ### The blocks of a rank -/

theorem memoryOk_reclaim {g} (h : MemoryOk s) : MemoryOk (s.reclaim g) := by
  unfold State.reclaim
  split
  · exact h
  · refine foldl_keeps MemoryOk _ _ _ h fun t r ht => ?_
    split
    · exact memoryOk_keepGroup (fun _ => rfl) ht
    · exact ht

theorem memoryOk_grantClaims {g} (h : MemoryOk s) : MemoryOk (s.grantClaims g) :=
  memoryOk_keepGroup (fun x => grant_scratch x.claims) (memoryOk_reclaim h)

theorem memoryOk_trapMembers {g rank c ms} (h : MemoryOk s) : MemoryOk (s.trapMembers g rank c ms) :=
  foldl_keeps MemoryOk _ _ _ h fun _ _ ht => memoryOk_takeTrap _ _ _ ht

theorem memoryOk_checkStalled {g} (h : MemoryOk s) : MemoryOk (s.checkStalled g) := by
  unfold State.checkStalled
  split
  · exact h
  dsimp only
  split
  · exact h
  split
  · exact memoryOk_trapMembers (memoryOk_keepGroup (fun _ => rfl) h)
  · exact h

theorem optOk_surrender {g v c} (hx : Memory.wf x.scratch = true) (h : MemoryOk s) : OptOk (s.surrender g x v c) := by
  unfold State.surrender
  dsimp only
  split
  · exact optOk_some (memoryOk_trapMembers h)
  split
  · exact optOk_some (memoryOk_trapMembers h)
  split
  · exact optOk_none
  · exact optOk_some (memoryOk_setGroup g ((foldl_updFibre_scratch _).symm ▸ hx) h)

theorem memoryOk_enterClaim {g v c} (hx : Memory.wf x.scratch = true) (h : MemoryOk s) : MemoryOk (s.enterClaim g x v c) := by
  unfold State.enterClaim
  dsimp only
  split
  · exact memoryOk_trapMembers h
  · exact memoryOk_checkStalled (memoryOk_grantClaims (memoryOk_setGroup g ((foldl_updFibre_scratch _).symm ▸ hx) h))

/-! ### Rendezvous and rejoin masks -/

theorem memoryOk_settleOne {g v} (h : MemoryOk s) : MemoryOk (s.settleOne g v) := by
  unfold State.settleOne
  split
  · exact h
  · next x hx =>
    have hw := memoryOk_group h hx
    split
    · exact h
    have h1 : MemoryOk (s.setGroup g { x with rvs := x.rvs.filter fun w => w != v }) := memoryOk_setGroup g hw h
    dsimp only
    split
    · exact h1
    · exact memoryOk_getD (optOk_surrender hw h1) (memoryOk_setGroup g hw h1)
    · exact memoryOk_enterClaim hw h1
    · exact memoryOk_setGroup g ((foldl_updFibre_scratch _).symm ▸ hw) h1

theorem memoryOk_settleRank {g rank} (h : MemoryOk s) : MemoryOk (s.settleRank g rank) := by
  unfold State.settleRank
  extract_lets s1
  have h1 : MemoryOk s1 := memoryOk_keepGroup (fun _ => foldl_scratch _ fun _ _ => settleMask_scratch) h
  split
  · exact h1
  · exact foldl_keeps MemoryOk _ _ _ h1 fun _ _ ht => memoryOk_settleOne ht

theorem memoryOk_attend {mask} (h : MemoryOk s) : MemoryOk (s.attend mask) := by
  unfold State.attend
  split
  · exact h
  · next x hx =>
    split
    · exact h
    exact memoryOk_ite h (memoryOk_settleRank (memoryOk_regroup hx join_scratch h))

theorem memoryOk_settleClaims {g} (h : MemoryOk s) : MemoryOk (s.settleClaims g) := by
  unfold State.settleClaims
  split
  · exact h
  · exact memoryOk_grantClaims (foldl_keeps MemoryOk _ _ _ h fun _ _ ht => memoryOk_settleOne ht)

/-! ### Barriers, fibres and tasks -/

theorem memoryOk_updCbar {u} (h : MemoryOk s) : MemoryOk (s.updCbar x u) := by
  unfold State.updCbar
  split
  · exact h
  · exact memoryOk_keepGroup (fun _ => rfl) h

theorem memoryOk_settleCbar {g} (h : MemoryOk s) : MemoryOk (s.settleCbar g) := by
  unfold State.settleCbar
  split
  · exact h
  dsimp only
  split
  · exact foldl_keeps MemoryOk _ _ _ (memoryOk_updCbar h) fun _ _ ht => memoryOk_keepGroup (fun _ => rfl) ht
  · exact h

theorem memoryOk_startFibre {g n f entry v} (h : MemoryOk s) : MemoryOk (s.startFibre g n f entry v) := by
  unfold State.startFibre
  extract_lets v s1
  have h1 : MemoryOk s1 := memoryOk_keepGroup (s := { s with nextId := s.nextId + 1 }) (fun _ => joinBars_scratch) h
  split
  · exact h1
  · exact memoryOk_updCbar h1

theorem memoryOk_endIfDone {g} (h : MemoryOk s) : MemoryOk (s.endIfDone g) := by
  unfold State.endIfDone
  split
  · exact h
  · next x hx =>
    split
    · exact h
    split
    · exact memoryOk_keepGroup (fun _ => rfl) h
    extract_lets s1 s2
    have h1 : MemoryOk s1 := by
      unfold s1
      split
      · exact memoryOk_writeBack h
      · exact h
    have h2 : MemoryOk s2 := by
      refine memoryOk_keepGroup (fun _ => rfl) ?_
      split
      · exact memoryOk_postFault _ _ h1
      · exact h1
    split
    · exact h2
    · exact h2

end Sys2Proof.Proofs
end

section
/-! SUPPORT. Fibres and tasks that end and start, scratchpad accesses, buffer transitions, sweeps, the matrix array and the
residue banks keep the canonical form of the memories: what they write of a scratchpad is a write. -/

namespace Sys2Proof.Proofs

open Sys2Proof Sys2Proof.Machine Sys2Proof.Safety Sys2Proof.Laws

variable {s t : State} {x : Group}

/-! ### The end of a fibre, tasks and child launches -/

theorem memoryOk_endFibre {r} (h : MemoryOk s) : MemoryOk (s.endFibre r) := by
  unfold State.endFibre
  extract_lets held s0 s1
  have h0 : MemoryOk s0 :=
    memoryOk_keepGroup (fun _ => (foldl_scratch _ fun _ _ => settleBar_scratch).trans removeFibre_scratch) h
  have h1 : MemoryOk s1 := by
    unfold s1
    split
    · exact memoryOk_reportGroup h0
    · exact h0
  split
  · exact h1
  · extract_lets s2 s3 s4
    have h3 : MemoryOk s3 := memoryOk_settleCbar (memoryOk_settleRank (memoryOk_updCbar h1))
    exact memoryOk_endIfDone (memoryOk_ite h3 (memoryOk_checkStalled (memoryOk_grantClaims h3)))

theorem memoryOk_startWave {g r entry} (hx : s.group? g = some x) (h : MemoryOk s) : MemoryOk (s.startWave g x r entry) := by
  unfold State.startWave
  extract_lets picked left y z
  have hy : y.scratch = x.scratch := foldl_scratch (List.range 8) fun _ _ => rfl
  have hz : z.scratch = y.scratch := foldl_scratch _ fun _ _ => rfl
  exact memoryOk_regroup (s := { s with nextId := s.nextId + 32 }) hx (hz.trans hy) h

theorem memoryOk_taskWave {g} (h : MemoryOk s) : MemoryOk (s.taskWave g) := by
  unfold State.taskWave
  dsimp only
  split
  · exact h
  · next x hx =>
    split
    · exact h
    split
    · exact memoryOk_startWave hx (memoryOk_reclaim h)
    · exact h

theorem memoryOk_postChild {g f d va} (h : MemoryOk s) : MemoryOk (s.postChild g f d va) :=
  memoryOk_keepGroup (s := { s with launches := _, nextId := _ }) (fun _ => updFibre_scratch ..) h

/-! ### Buffer transitions -/

theorem memoryOk_applyTrans {g v} (h : MemoryOk s) : MemoryOk (s.applyTrans g v) :=
  memoryOk_updFibre (s := s.updGroup g _) v.fib _ (memoryOk_keepGroup (fun _ => rfl) h)

theorem memoryOk_settleTrans {g} (h : MemoryOk s) : MemoryOk (s.settleTrans g) := by
  unfold State.settleTrans
  split
  · exact h
  refine foldl_keeps MemoryOk _ _ _ h fun t v ht => ?_
  split
  · exact ht
  · exact memoryOk_ite (memoryOk_applyTrans ht) ht

theorem memoryOk_transition {n ev} (h : MemoryOk s) : MemoryOk (resState (s.transition n ev)) := by
  have h1 : MemoryOk (s.updGroup s.cur.g fun x =>
      ({ x with trans := x.trans ++ [(⟨s.nextId, s.cur, n, ev⟩ : Trans)] } : Group).updFibre s.cur.f fun f =>
        { f with stat := .wait (.buffer s.nextId) }) := memoryOk_keepGroup (fun _ => updFibre_scratch ..) h
  exact memoryOk_settleTrans (s := { s.updGroup s.cur.g _ with nextId := s.nextId + 1 }) h1

/-! ### Accesses of a scratchpad -/

theorem memoryOk_scratchIssue {g f hd sg off n rd wr kind dst va} (h : MemoryOk s) :
    MemoryOk (resState (scratchIssue g f hd s sg x off n rd wr kind dst va)) := by
  unfold scratchIssue
  split
  · exact h
  · exact h
  split
  · split <;> exact h
  · exact memoryOk_addOp h

theorem memoryOk_performScratch {o} (h : MemoryOk s) : MemoryOk (s.performScratch o) := by
  unfold State.performScratch
  split
  · exact memoryOk_finish _ h
  · next x hx =>
    have hw := memoryOk_group h hx
    split
    · exact memoryOk_land h
    · exact memoryOk_finish _ (memoryOk_setGroup _ (wf_scratchWrite hw) h)
    · exact memoryOk_land (memoryOk_setGroup _ (wf_scratchWrite hw) h)
    · exact h

/-! ### Sweeps -/

theorem wf_reduceStep {o : SweepOp} (hx : Memory.wf x.scratch = true) : Memory.wf (o.reduceStep x).2.scratch = true := by
  unfold SweepOp.reduceStep
  dsimp only
  split
  · exact hx
  · exact wf_scratchWrite hx

theorem wf_iterate {o : SweepOp} (hx : Memory.wf x.scratch = true) : Memory.wf (o.iterate x).2.scratch = true := by
  unfold SweepOp.iterate
  split
  · exact wf_reduceStep hx
  · exact wf_scratchWrite hx

/-- The sweep that is first at a core is one of the group it names. -/
theorem firstSweep_group {c o w} (h : s.firstSweep c = some (o, w, x)) : s.group? o.fib.g = some x := by
  obtain ⟨p, -, hp⟩ := List.exists_of_findSome?_eq_some h
  split at hp
  · split at hp
    · next y hy =>
      split at hp
      · cases hp
        exact hy
      · cases hp
    · cases hp
  · cases hp

theorem memoryOk_sweepIterate {c} (h : MemoryOk s) : MemoryOk (s.sweepIterate c) := by
  unfold State.sweepIterate
  split
  · exact h
  · next o w x hf =>
    split
    · exact memoryOk_dataError (memoryOk_land h)
    · have h1 := memoryOk_setGroup o.fib.g (wf_iterate (o := w) (memoryOk_group h (firstSweep_group hf))) h
      exact memoryOk_ite (memoryOk_land h1) h1

/-! ### The matrix array -/

theorem memoryOk_planeSwap {g} (h : MemoryOk s) : MemoryOk (s.planeSwap g) := by
  unfold State.planeSwap
  split
  · exact h
  · next x hx =>
    split
    · exact h
    dsimp only
    split
    · exact h
    split
    · exact memoryOk_takeTrap _ _ _ h
    · exact memoryOk_regroup hx (updFibre_scratch ..) h

theorem memoryOk_performMatrix {o} (h : MemoryOk s) : MemoryOk (s.performMatrix o) := by
  unfold State.performMatrix
  split
  · exact memoryOk_finish _ h
  · next x hx =>
    have row {t l r} : MemoryOk (s.setGroup o.fib.g (x.putRow t l r)) := memoryOk_regroup hx putRow_scratch h
    dsimp only
    split
    · split
      · exact memoryOk_dataError (memoryOk_finish _ h)
      · exact memoryOk_finish _ (memoryOk_regroup hx rfl h)
    · exact memoryOk_ite (memoryOk_dataError (memoryOk_land row)) (memoryOk_land row)
    · exact memoryOk_finish _ row
    · exact memoryOk_ite (memoryOk_dataError (memoryOk_finish _ row)) (memoryOk_finish _ row)
    · have h1 {off bs} := memoryOk_finish o
        (memoryOk_setGroup o.fib.g (wf_scratchWrite (off := off) (bs := bs) (memoryOk_group h hx)) h)
      exact memoryOk_ite (memoryOk_dataError h1) h1
    · exact memoryOk_ite (memoryOk_dataError (memoryOk_finish _ row)) (memoryOk_finish _ row)
    · exact h

/-! ### The quantising store and the residue banks -/

theorem memoryOk_turnAccept {g n} (h : MemoryOk s) : MemoryOk (s.turnAccept g n) := by
  unfold State.turnAccept
  split
  · exact h
  split
  · exact h
  split
  · exact memoryOk_ite (memoryOk_updFibre _ _ h) h
  · exact h

theorem memoryOk_performBank {o} (h : MemoryOk s) : MemoryOk (s.performBank o) := by
  unfold State.performBank
  split
  · exact memoryOk_finish _ h
  · next x hx =>
    have hw := memoryOk_group h hx
    have bank {b v} : MemoryOk (s.setGroup o.fib.g (x.setBank b v)) := memoryOk_setGroup _ hw h
    have stored {off bs b v} {c : Prop} [Decidable c] : MemoryOk (s.setGroup o.fib.g
        (if c then (x.scratchWrite off bs).setBank b v else x.scratchWrite off bs)) :=
      memoryOk_setGroup _ (by split <;> exact wf_scratchWrite hw) h
    have told {b : Bool} {a u} (hu : MemoryOk u) : MemoryOk (if b then u.dataError o a else u) :=
      memoryOk_ite (memoryOk_dataError hu) hu
    dsimp only
    split
    · exact told (memoryOk_land stored)
    · exact told (memoryOk_land stored)
    · exact memoryOk_finish _ bank
    · exact told (memoryOk_finish _ (memoryOk_setGroup _ (wf_scratchWrite hw) h))
    · exact memoryOk_finish _ bank
    · exact memoryOk_finish _ bank
    · exact h

end Sys2Proof.Proofs
end

section
/-! SUPPORT. NEAR accesses, page requests and far transfers keep the canonical form of the memories. -/

namespace Sys2Proof.Proofs

open Sys2Proof Sys2Proof.Machine Sys2Proof.Safety Sys2Proof.Laws

variable {s t : State} {x : Group}

/-! ### NEAR accesses and the messages to peers -/

theorem memoryOk_peerIssue {g f k r dst block nodrain used} (h : MemoryOk s) :
    MemoryOk (resState (peerIssue g f k r dst block s nodrain used)) := by
  unfold peerIssue
  extract_lets v s1
  have h1 : MemoryOk s1 := memoryOk_addOp h
  split
  · exact memoryOk_updFibre _ _ h1
  split
  · exact memoryOk_updFibre _ _ h1
  · exact h1

theorem memoryOk_passSend {o} (h : MemoryOk s) : MemoryOk (s.passSend o) := memoryOk_onIssuer h

theorem memoryOk_acceptSend {c} (h : MemoryOk s) : MemoryOk (s.acceptSend c) := by
  unfold State.acceptSend
  dsimp only
  split
  · exact h
  · next o r _ => exact memoryOk_passSend (s := s.setOp { o with kind := .peer r }) h

theorem memoryOk_postMsg {p m} (h : MemoryOk s) : MemoryOk (s.postMsg p m) := by
  unfold State.postMsg
  split
  · exact h
  · exact h

theorem memoryOk_sendUnsent (h : MemoryOk s) : MemoryOk s.sendUnsent :=
  foldl_keeps MemoryOk _ s.unsent { s with unsent := [] } h fun _ _ ht => memoryOk_postMsg ht

theorem memoryOk_loadAtOnce {g f off va ty d} (h : MemoryOk s) : MemoryOk (resState (loadAtOnce g f off va ty d s)) := by
  unfold loadAtOnce
  dsimp only
  split
  · exact h
  split
  · exact memoryOk_cacheRead _ _ _ _ h
  · exact memoryOk_updFibre _ _ (memoryOk_cacheRead _ _ _ _ h)

theorem memoryOk_atomAtOnce {g f k off va op ty p q d} (h : MemoryOk s) :
    MemoryOk (resState (atomAtOnce g f k off va op ty p q d s)) := by
  unfold atomAtOnce
  dsimp only
  split
  · exact h
  split
  · exact memoryOk_dropLine h
  · exact memoryOk_updFibre _ _ (memoryOk_sramAtomic h)

theorem memoryOk_performNear {o} (h : MemoryOk s) : MemoryOk (s.performNear o) := by
  unfold State.performNear
  split
  · dsimp only
    exact memoryOk_land (memoryOk_cacheRead _ _ _ _ h)
  · exact memoryOk_finish _ (memoryOk_cacheWrite _ _ _ _ _ h)
  · dsimp only
    split
    · exact memoryOk_land (memoryOk_sramAtomic h)
    · exact memoryOk_land (memoryOk_sramAtomic h)
  · exact memoryOk_land h
  · exact h

theorem memoryOk_postPage {c} (h : MemoryOk s) : MemoryOk (s.postPage c) := by
  unfold State.postPage
  split
  · exact h
  split
  · exact h
  · exact memoryOk_postFault _ _ (memoryOk_setCore _ _ h)

/-! ### Far transfers: issue and acceptance -/

theorem memoryOk_xferIssue {g f k v ev} (h : MemoryOk s) : MemoryOk (resState (xferIssue g f k v ev s)) :=
  memoryOk_settleTrans (memoryOk_keepGroup (fun _ => updFibre_scratch ..) (memoryOk_addOp h))

theorem memoryOk_postAccept {id} (h : MemoryOk s) : MemoryOk (s.postAccept id) := by
  unfold State.postAccept
  split
  · exact h
  · next o _ =>
    split
    · next v _ _ _ =>
      exact memoryOk_ite h (memoryOk_updFibre
        (s := s.setOp { o with kind := .xfer { v with accepted := true, keys := _, refused := _ } }) _ _ h)
    · exact h

/-! ### Far transfers: the bytes they move -/

theorem memoryOk_writePart {v : Xfer} {pasid p part bs} (h : MemoryOk s) : MemoryOk (v.writePart s pasid p part bs) := by
  unfold Xfer.writePart
  dsimp only
  split
  · exact memoryOk_sramWrite _ _ h
  · exact memoryOk_farWrite (s := { s with keys := v.keys }) p.key (farAddr p (dw part.1)) bs h
  · exact ⟨h.1, h.2.1, Memory.wf_write _ _ h.2.2.1, h.2.2.2⟩
  · exact h

theorem memoryOk_askPeers {o v blocks data} (h : MemoryOk s) : MemoryOk (s.askPeers o v blocks data) :=
  foldl_keeps MemoryOk _ blocks (s.setOp _) h fun _ _ ht => ht

theorem memoryOk_xferDone {o v st status va fl} (h : MemoryOk s) : MemoryOk (s.xferDone o v st status va fl) := by
  unfold State.xferDone
  extract_lets s1 s2
  have h2 : MemoryOk s2 := by
    refine memoryOk_settleTrans (memoryOk_land (memoryOk_keepGroup (fun g => ?_) h))
    refine markTasks_scratch.trans ?_
    split
    · exact releaseAbar_scratch
    · rfl
  exact memoryOk_ite h2 (memoryOk_asyncFail h2)

theorem memoryOk_fillBuf {o v bs} (h : MemoryOk s) : MemoryOk (s.fillBuf o v bs) :=
  memoryOk_updGroup _ (fun _ hx => wf_scratchWrite hx) h

theorem memoryOk_migrate {o p va} (h : MemoryOk s) : MemoryOk (s.migrate o p va) := by
  unfold State.migrate
  split
  · exact h
  dsimp only
  split
  · exact h
  · have h1 {a bs} := memoryOk_sramWrite a bs h
    exact memoryOk_ite (memoryOk_postFault _ _ h1) h1

theorem memoryOk_migrateAll {o ps} (h : MemoryOk s) : MemoryOk (s.migrateAll o ps) := by
  refine memoryOk_foldl_fst ps h fun q p hq => ?_
  split
  · exact hq
  · exact memoryOk_migrate hq

theorem memoryOk_syncNear {o ps} (h : MemoryOk s) : MemoryOk (s.syncNear o ps) :=
  foldl_keeps MemoryOk _ _ s h fun _ _ ht => memoryOk_flushLines _ _ _ ht

theorem memoryOk_arrival {o v} (h : MemoryOk s) : MemoryOk (s.arrival o v) := by
  unfold State.arrival
  dsimp only
  split
  · exact h
  · refine memoryOk_xferDone ?_
    split
    · exact memoryOk_migrateAll (memoryOk_fillBuf (memoryOk_syncNear h))
    · exact memoryOk_fillBuf (memoryOk_syncNear h)
  · split
    · exact memoryOk_askPeers h
    split
    · exact h
    split
    · exact memoryOk_xferDone (memoryOk_fillBuf (memoryOk_syncNear h))
    · exact memoryOk_xferDone (memoryOk_migrateAll (memoryOk_fillBuf (memoryOk_syncNear h)))

theorem memoryOk_scatter {v : Xfer} {pasid ps bs} (h : MemoryOk s) : MemoryOk (v.scatter s pasid ps bs) :=
  foldl_keeps MemoryOk _ _ s h fun _ _ ht => memoryOk_writePart ht

theorem memoryOk_putDone {o v} (h : MemoryOk s) : MemoryOk (s.putDone o v) := by
  unfold State.putDone
  extract_lets pasid lo bs s1 stop
  have h1 : MemoryOk s1 := by
    refine memoryOk_foldl_fst _ (memoryOk_syncNear h) fun q p hq => ?_
    dsimp only
    split
    · exact memoryOk_writePart hq
    · exact hq
  have hstop {st va} : MemoryOk (stop st va) := memoryOk_xferDone h1
  split
  · exact h
  · exact hstop
  · split
    · exact hstop
    · exact memoryOk_ite (memoryOk_askPeers h) (memoryOk_ite h (memoryOk_xferDone (memoryOk_scatter (memoryOk_syncNear h))))

theorem memoryOk_performFatom {o near a key va op ty p q d} (h : MemoryOk s) :
    MemoryOk (s.performFatom o near a key va op ty p q d) := by
  unfold State.performFatom
  dsimp only
  split
  · exact memoryOk_ite (memoryOk_asyncFail (memoryOk_land h)) (memoryOk_land (memoryOk_sramAtomic h))
  · exact memoryOk_ite (memoryOk_asyncFail (memoryOk_land h)) (memoryOk_land (memoryOk_farWrite _ _ _ h))

end Sys2Proof.Proofs
end

section
/-! SUPPORT. Chains, slots, FIFOs and the entries of the module engines keep the canonical form of the memories. -/

namespace Sys2Proof.Proofs

open Sys2Proof Sys2Proof.Machine Sys2Proof.Safety Sys2Proof.Laws

variable {s t : State} {x : Group}

/-! ### Chains -/

theorem memoryOk_deviceWord {ctx va v} (h : MemoryOk s) : MemoryOk (s.deviceWord ctx va v) := by
  unfold State.deviceWord
  split
  · exact memoryOk_ite (memoryOk_sramWrite _ _ h) h
  · exact h

theorem memoryOk_acquire {g} (h : MemoryOk s) : MemoryOk (s.acquire g) := memoryOk_setCore _ _ (memoryOk_dropLines h)

theorem memoryOk_handle {g hnd} (h : MemoryOk s) : MemoryOk (checkState (s.handle g hnd)) := by
  unfold State.handle
  dsimp only
  split
  · exact h
  split
  · next e => exact memoryOk_inl (memoryOk_fibreRead h) e
  · next e =>
    have h1 := memoryOk_inr (memoryOk_fibreRead h) e
    split
    · exact h1
    · exact h1

theorem memoryOk_chainRead {f ctx off n bs} (h : MemoryOk s) (e : s.chainRead f ctx off n = some (bs, t)) : MemoryOk t := by
  unfold State.chainRead at e
  split at e
  · cases e
    exact h
  · split at e
    · cases e
    · exact memoryOk_snd (memoryOk_cacheRead _ _ _ _ h) (Option.some.inj e)

theorem chainPage_ne_entry {ctx c a va raw} : s.chainPage ctx c a ≠ .inr (.entry va raw t) := by
  unfold State.chainPage
  split
  · split <;> simp
  · split
    · simp
    · split <;> simp

/-- The next entry of a chain is found in a state that has read the chain's memory at most. -/
theorem memoryOk_nextLink {ctx c f va raw} (h : MemoryOk s) (e : s.nextLink ctx c f = .entry va raw t) : MemoryOk t := by
  unfold State.nextLink at e
  extract_lets start at e
  obtain ⟨o, ho⟩ : ∃ o, start = o := ⟨_, rfl⟩
  rw [ho] at e
  split at e
  · subst e
    unfold start at ho
    split at ho
    · cases ho
    · split at ho
      · next hk =>
        cases ho
        exact absurd hk chainPage_ne_entry
      · split at ho <;> cases ho
  · next a s1 =>
    have h1 : MemoryOk s1 := by
      unfold start at ho
      split at ho
      · cases ho
        exact h
      · split at ho
        · cases ho
        · split at ho
          · cases ho
          · next hr =>
            cases ho
            exact memoryOk_chainRead h hr
    split at e
    · cases e
    split at e
    · next hk => exact absurd (e ▸ hk) chainPage_ne_entry
    split at e
    · cases e
    · next hr =>
      cases e
      exact memoryOk_chainRead h1 hr

theorem memoryOk_fwdDone {ctx hnd} (h : MemoryOk s) : MemoryOk (s.fwdDone ctx hnd) := by
  unfold State.fwdDone
  dsimp only
  split
  · exact h
  split
  · exact h
  split
  · exact memoryOk_land h
  · exact h

theorem memoryOk_forward {ctx hnd} (h : MemoryOk s) : MemoryOk (s.forward ctx hnd) := by
  unfold State.forward
  extract_lets c
  split
  · exact h
  · next f rest _ =>
    extract_lets k drained blank stop
    have hstop {u e} (hu : MemoryOk u) : MemoryOk (stop u e) := memoryOk_fwdDone (s := u.enqueue k e) hu
    split
    · exact memoryOk_fwdDone h
    split
    · exact h
    split
    · exact h
    · exact h
    · exact hstop h
    · exact hstop h
    · next he =>
      have h1 := memoryOk_nextLink h he
      extract_lets e link send bad owned
      have hsend {u y} (hu : MemoryOk u) : MemoryOk (send u y) :=
        memoryOk_ite (memoryOk_fwdDone (s := (u.enqueue k y).setChain ctx hnd _) hu) hu
      split
      · exact hstop h1
      clear_value bad
      split
      · exact hsend h1
      split
      · exact h1
      · exact hstop h1
      · exact memoryOk_ite (hstop h1) (hsend h1)

/-! ### Entries -/

theorem memoryOk_setHead {k e} (h : MemoryOk s) : MemoryOk (s.setHead k e) := h

theorem memoryOk_endEntry {k e st} (h : MemoryOk s) : MemoryOk (s.endEntry k e st) := h

theorem memoryOk_entryWrite {e : FEntry} {va bs} (h : MemoryOk s) : MemoryOk (e.write s va bs) :=
  memoryOk_foldl_fst _ h fun q p hq =>
    memoryOk_farWrite (s := { q.1 with keys := e.keys }) (e.addr p.1).2 (e.addr p.1).1 (q.2.take p.2) hq

theorem memoryOk_bindFifo {k n prod} (h : MemoryOk s) : MemoryOk (s.bindFifo k n prod).2 := by
  unfold State.bindFifo
  extract_lets v waitP waitC
  split
  · split
    · exact h
    · split <;> exact h
  · split
    · exact h
    · split <;> exact h

theorem memoryOk_bindFifos {k i} (h : MemoryOk s) : MemoryOk (s.bindFifos k i).2 :=
  memoryOk_foldl_snd _ h fun _ _ hq => memoryOk_bindFifo hq

theorem memoryOk_take {k e d o pos n} (h : MemoryOk s) : MemoryOk (s.take k e d o pos n).2 := by
  cases o with
  | mem va => exact h
  | fifo m => exact h

theorem memoryOk_give {k e o bs} (h : MemoryOk s) : MemoryOk (s.give k e o bs).2 := by
  cases o with
  | mem va => exact memoryOk_ite h (memoryOk_entryWrite h)
  | fifo m => exact h

theorem memoryOk_drain {k e d} (h : MemoryOk s) : MemoryOk (s.drain k e d) := by
  unfold State.drain
  dsimp only
  split
  · exact memoryOk_endEntry (memoryOk_give h)
  · exact memoryOk_setHead (memoryOk_give h)

theorem memoryOk_endAfter {k e d st} (h : MemoryOk s) : MemoryOk (s.endAfter k e d st) :=
  memoryOk_ite (memoryOk_setHead h) (memoryOk_endEntry h)

theorem memoryOk_flushOut {e} (h : MemoryOk s) : MemoryOk (s.flushOut e) := by
  unfold State.flushOut
  split
  · exact memoryOk_ite h (memoryOk_entryWrite h)
  · exact h

theorem memoryOk_failHead {k st} (h : MemoryOk s) : MemoryOk (s.failHead k st) := by
  unfold State.failHead
  split
  · exact h
  · exact memoryOk_ite (memoryOk_endEntry h) h

theorem memoryOk_failProducer {k o} (h : MemoryOk s) : MemoryOk (s.failProducer k o) := by
  cases o with
  | mem va => exact h
  | fifo m =>
    unfold State.failProducer
    dsimp only
    split
    · exact h
    · exact memoryOk_failHead h

theorem memoryOk_overflow {k e srcs} (h : MemoryOk s) : MemoryOk (s.overflow k e srcs) :=
  foldl_keeps MemoryOk _ _ _ (memoryOk_endEntry h) fun _ _ ht => memoryOk_failProducer ht

theorem memoryOk_atEnd {k e srcs} (h : MemoryOk s) : MemoryOk (s.atEnd k e srcs) :=
  memoryOk_ite (memoryOk_endEntry h) (memoryOk_ite (memoryOk_overflow h) (memoryOk_ite h (memoryOk_endEntry h)))

theorem memoryOk_dataStep {i d srcs len unit fn k e} (h : MemoryOk s) : MemoryOk (dataStep i d srcs len unit fn k e s) := by
  unfold dataStep
  split
  · next e1 => exact memoryOk_snd (memoryOk_bindFifos h) e1
  · next s1 e1 =>
    have h1 := memoryOk_snd (memoryOk_bindFifos h) e1
    dsimp only
    split
    · exact h1
    split
    · exact memoryOk_setHead h1
    split
    · exact memoryOk_drain h1
    split
    · exact memoryOk_atEnd h1
    split
    · exact h1
    split
    · exact memoryOk_endEntry h1
    split
    · exact h1
    split
    · exact memoryOk_endEntry h1
    · exact memoryOk_setHead (memoryOk_give (memoryOk_foldl_snd srcs h1 fun _ _ hq => memoryOk_take hq))

theorem memoryOk_transIn {k e d a len} (h : MemoryOk s) : MemoryOk (s.transIn k e d a len).2 := by
  unfold State.transIn
  split
  · exact h
  · exact memoryOk_take h

/-! ### The end of an entry -/

theorem memoryOk_writeBackEntry {e st} (h : MemoryOk s) : MemoryOk (s.writeBackEntry e st) := by
  unfold State.writeBackEntry
  extract_lets s1
  have h1 : MemoryOk s1 := memoryOk_flushOut h
  split
  · exact h1
  split
  · exact h1
  · dsimp only
    split
    · exact memoryOk_sramWrite _ _ (memoryOk_sramWrite _ _ h1)
    · exact memoryOk_sramWrite _ _ h1

theorem memoryOk_leaveFifos {k done} (h : MemoryOk s) : MemoryOk (s.leaveFifos k done) :=
  foldl_keeps MemoryOk _ _ _ h fun _ _ ht => ht

theorem memoryOk_loadTable {k e} (h : MemoryOk s) : MemoryOk (s.loadTable k e) := by
  unfold State.loadTable
  split <;> exact h

/-- What the end of an entry does after its status is written: its slot and chain change, and its chain's sequence is
written. -/
theorem memoryOk_endOfEntry {k slot ctx hnd ch va v done} (h : MemoryOk s) :
    MemoryOk ((((s.setSlot k slot).setChain ctx hnd ch).deviceWord ctx va v).leaveFifos k done) :=
  memoryOk_leaveFifos (memoryOk_deviceWord (s := (s.setSlot k slot).setChain ctx hnd ch) h)

theorem memoryOk_entryComplete {k} (h : MemoryOk s) : MemoryOk (s.entryComplete k) := by
  unfold State.entryComplete
  split
  · exact h
  split
  · exact h
  split
  · exact memoryOk_setHead h
  · exact memoryOk_endOfEntry (memoryOk_loadTable (memoryOk_writeBackEntry h))

theorem memoryOk_reportEntry {e st} (h : MemoryOk s) : MemoryOk (s.reportEntry e st) := by
  unfold State.reportEntry
  dsimp only
  split
  · exact memoryOk_report h
  · exact memoryOk_postFault _ _ h

theorem memoryOk_chainFail {k} (h : MemoryOk s) : MemoryOk (s.chainFail k) := by
  unfold State.chainFail
  split
  · exact h
  split
  · exact h
  split
  · exact h
  · exact memoryOk_reportEntry (memoryOk_endOfEntry (memoryOk_writeBackEntry h))

end Sys2Proof.Proofs
end

section
/-! SUPPORT. Pod windows, requests of peers and their answers keep the canonical form of the memories: what a package
performs for a peer is a write. -/

namespace Sys2Proof.Proofs

open Sys2Proof Sys2Proof.Machine Sys2Proof.Safety Sys2Proof.Laws

variable {s t : State} {x : Group}

/-! ### Windows -/

theorem memoryOk_window {g hnd} (h : MemoryOk s) : MemoryOk (checkState (s.window g hnd)) := by
  unfold State.window
  dsimp only
  split
  · exact h
  split
  · next e => exact memoryOk_inl (memoryOk_fibreRead h) e
  · next e => exact (memoryOk_inr (memoryOk_fibreRead h) e :)

theorem memoryOk_winCheck {g hnd off n al step} (h : MemoryOk s) : MemoryOk (checkState (s.winCheck g hnd off n al step)) := by
  unfold State.winCheck
  dsimp only
  split
  · next e => exact memoryOk_inl (memoryOk_window h) e
  · next e =>
    have h1 := memoryOk_inr (memoryOk_window h) e
    split
    · exact h1
    split
    · exact h1
    split
    · exact h1
    split
    · exact h1
    · exact h1

/-! ### Requests performed in the owning context -/

theorem memoryOk_requestPage {ctx va acc} (h : MemoryOk s) : MemoryOk (s.requestPage ctx va acc) :=
  memoryOk_ite h (memoryOk_ite (memoryOk_setCore _ _ h) (memoryOk_postFault _ _ (memoryOk_setCore _ _ h)))

theorem memoryOk_requestPages {ctx acc ps} (h : MemoryOk s) : MemoryOk (s.requestPages ctx acc ps) :=
  foldl_keeps MemoryOk _ ps s h fun _ _ ht => memoryOk_ite (memoryOk_requestPage ht) ht

theorem memoryOk_performDirect {ctx ps} {q : Direct} (h : MemoryOk s) : MemoryOk (s.performDirect ctx ps q).2 := by
  have put {bs} : MemoryOk (ps.foldl (fun (u : State × List Byte) p =>
      (u.1.devWrite ctx p.1 p.2.1 (u.2.take p.2.2), u.2.drop p.2.2)) (s, bs)).1 :=
    memoryOk_foldl_fst ps h fun _ _ hq => memoryOk_devWrite _ _ _ _ hq
  cases q with
  | read n => exact h
  | write bs => exact put
  | atomic op ty p q => exact put

/-! ### Step records -/

theorem memoryOk_updStepStat {n u} (h : MemoryOk s) : MemoryOk (s.updStepStat n u) := h

theorem memoryOk_takeRecord {src n r} (h : MemoryOk s) : MemoryOk (s.takeRecord src n r).2 := by
  unfold State.takeRecord
  split
  · exact h
  dsimp only
  split
  · exact memoryOk_sramWrite (s.freePlace n) (s.ownBytes (s.freePlace n) 32) h
  · split <;> exact h

theorem memoryOk_stepRecord {src hdr addr n bytes} (h : MemoryOk s) : MemoryOk (s.stepRecord src hdr addr n bytes).2 := by
  unfold State.stepRecord
  split
  · exact h
  dsimp only
  split
  · exact memoryOk_requestPages h
  split
  · exact h
  split
  · exact h
  · exact memoryOk_takeRecord h

/-! ### Answers -/

theorem memoryOk_respond {src tag st bytes} (h : MemoryOk s) : MemoryOk (s.respond src tag st bytes) := h

theorem memoryOk_peerTrap {o c v} (h : MemoryOk s) : MemoryOk (s.peerTrap o c v) := by
  unfold State.peerTrap
  extract_lets s1
  have h1 : MemoryOk s1 := memoryOk_finish o h
  clear_value s1
  split
  · exact memoryOk_ite (memoryOk_trapAt (memoryOk_updFibre _ _ h1)) h1
  · exact h1

theorem memoryOk_peerLand {o d n v fl} (h : MemoryOk s) : MemoryOk (s.peerLand o d n v fl) := memoryOk_onIssuer (memoryOk_land h)

theorem memoryOk_peerReport {o r c v st} (h : MemoryOk s) : MemoryOk (s.peerReport o r c v st) :=
  memoryOk_reportTo (memoryOk_finish o h)

theorem memoryOk_updXfer {id u} (h : MemoryOk s) : MemoryOk (s.updXfer id u) := by
  unfold State.updXfer
  split
  · exact h
  split
  · exact h
  · exact h

theorem memoryOk_peerRespond {o r st bytes} (h : MemoryOk s) : MemoryOk (s.peerRespond o r st bytes) := by
  unfold State.peerRespond
  extract_lets s1 c
  have h1 : MemoryOk s1 := memoryOk_passSend h
  clear_value s1
  have dropped : MemoryOk (s1.dropOp o.id) := h1
  split
  · exact h1
  split
  · exact memoryOk_ite (memoryOk_peerLand h1) (memoryOk_peerTrap h1)
  · exact memoryOk_ite (memoryOk_finish o h1) (memoryOk_peerReport h1)
  · split
    · exact memoryOk_ite (memoryOk_peerLand h1) (memoryOk_peerTrap h1)
    · exact memoryOk_ite (memoryOk_finish o h1) (memoryOk_peerReport h1)
  · exact memoryOk_ite (memoryOk_finish o h1) (memoryOk_ite (memoryOk_ite (memoryOk_peerReport h1)
      (memoryOk_updStepStat (memoryOk_peerReport h1))) (memoryOk_peerReport h1))
  · next desc _ =>
    have h2 := memoryOk_sramWrite (desc + 32) (leBytes 8 st.toNat) (memoryOk_finish o h1)
    exact memoryOk_ite h2 (memoryOk_asyncFail h2)
  · exact memoryOk_ite (memoryOk_updXfer dropped) (memoryOk_updXfer dropped)
  · exact memoryOk_ite dropped (memoryOk_updXfer dropped)

theorem memoryOk_answer {own src tag st bytes} (h : MemoryOk s) : MemoryOk (s.answer own src tag st bytes) := by
  unfold State.answer
  split
  · exact memoryOk_respond h
  split
  · split
    · exact memoryOk_peerRespond h
    · exact h
  · exact h

/-! ### XPUTQ at its target -/

theorem memoryOk_enqueueXputq {w ctx off src ps qword bytes} (h : MemoryOk s) :
    MemoryOk (s.enqueueXputq w ctx off src ps qword bytes).2 := by
  unfold State.enqueueXputq
  extract_lets at_
  refine memoryOk_ite_snd h ?_
  split
  · exact h
  · extract_lets head tail sv
    refine memoryOk_ite_snd h ?_
    split
    · exact h
    · exact memoryOk_devWrite _ _ _ _ (memoryOk_devWrite _ _ _ _ (memoryOk_performDirect h))

theorem memoryOk_tryXputq {n r qword bytes st} (h : MemoryOk s) (e : s.tryXputq n r qword bytes = .inl (st, t)) : MemoryOk t := by
  unfold State.tryXputq at e
  split at e
  · cases e
    exact h
  dsimp only at e
  split at e
  · cases e
    exact h
  split at e
  · cases e
  split at e
  · cases e
    exact h
  split at e
  · cases e
    exact h
  split at e
  · cases e
  · exact memoryOk_snd (memoryOk_enqueueXputq h) (Sum.inl.inj e)

theorem memoryOk_arriveXputq {r own qword bytes} (h : MemoryOk s) : MemoryOk (s.arriveXputq r own qword bytes) := by
  unfold State.arriveXputq
  split
  · exact memoryOk_answer h
  split
  · next e => exact memoryOk_answer (memoryOk_tryXputq h e)
  · exact memoryOk_requestPages (s := { s with xheld := _, nextId := _ }) h

theorem memoryOk_endHeld {v st} (h : MemoryOk s) : MemoryOk (s.endHeld v st) :=
  memoryOk_answer (s := { s with xheld := _ }) h

theorem memoryOk_retryHeld {v} (h : MemoryOk s) : MemoryOk (s.retryHeld v) := by
  unfold State.retryHeld
  split
  · exact memoryOk_endHeld h
  split
  · exact h
  split
  · next e => exact memoryOk_endHeld (memoryOk_tryXputq h e)
  · exact memoryOk_requestPages (s := { s with xheld := _ }) h

/-! ### Requests served and forwarded -/

theorem memoryOk_serve {n r q st bs} (h : MemoryOk s) (e : s.serve n r q = .done st bs t) : MemoryOk t := by
  unfold State.serve at e
  dsimp only at e
  split at e
  · cases e
    exact h
  split at e
  · cases e
    exact h
  split at e
  · cases e
  split at e
  · cases e
    exact memoryOk_requestPages h
  split at e
  · cases e
    exact h
  split at e
  · cases e
    exact h
  split at e
  · cases e
    exact memoryOk_performDirect h
  split at e
  · cases e
    exact h
  · cases e

theorem optOk_sendForward {n ctx used peer addr v own split q} (h : MemoryOk s) :
    OptOk (s.sendForward n ctx used peer addr v own split q) := by
  unfold State.sendForward
  split
  · exact optOk_none
  split
  · exact optOk_none
  · exact optOk_some h

theorem memoryOk_sendPart {n r own split ctx p o} (h : MemoryOk s) (e : s.sendPart n r own split ctx p = some (o, t)) :
    MemoryOk t := by
  unfold State.sendPart at e
  dsimp only at e
  split at e
  · cases e
    exact memoryOk_performDirect h
  split at e
  · split at e
    · next hs =>
      cases e
      exact memoryOk_serve h hs
    · cases e
  · obtain ⟨u, hu, hp⟩ := Option.map_eq_some_iff.1 e
    cases hp
    exact optOk_sendForward h _ hu

theorem memoryOk_sendParts {n r own k ctx i} {ps : List ((Page × (Nat × Nat)) × Direct)} {xs} (h : MemoryOk s)
    (e : s.sendParts n r own k ctx i ps = some (xs, t)) : MemoryOk t := by
  induction ps generalizing s i xs with
  | nil =>
    cases e
    exact h
  | cons p ps ih =>
    unfold State.sendParts at e
    split at e
    · cases e
    · next hp =>
      split at e
      · cases e
      · next hps =>
        cases e
        exact ih (memoryOk_sendPart h hp) hps

theorem memoryOk_joinSplit {k} (h : MemoryOk s) : MemoryOk (s.joinSplit k) := by
  unfold State.joinSplit
  split
  · exact h
  · exact memoryOk_ite h (memoryOk_answer (s := { s with splits := _ }) h)

theorem optOk_serveOrForward {n r own q} (h : MemoryOk s) : OptOk (s.serveOrForward n r own q) := by
  unfold State.serveOrForward
  split
  · next hs => exact optOk_some (memoryOk_answer (memoryOk_serve h hs))
  · exact optOk_none
  · split
    · exact optOk_none
    · next hp => exact optOk_some (memoryOk_answer (memoryOk_sendPart h hp))
    · next hp => exact optOk_some (memoryOk_sendPart h hp)
  · split
    · exact optOk_none
    · next u hp =>
      have hu : MemoryOk u := memoryOk_sendParts (s := { s with nextId := s.nextId + 1 }) h hp
      exact optOk_some (memoryOk_joinSplit (s := { u with splits := _ }) hu)

theorem memoryOk_endForward {f st bytes} (h : MemoryOk s) : MemoryOk (s.endForward f st bytes) := by
  unfold State.endForward
  dsimp only
  split
  · exact memoryOk_answer (s := { s with fwds := _ }) h
  · exact memoryOk_joinSplit (s := { s with fwds := _, splits := _ }) h

theorem memoryOk_retryIngress (h : MemoryOk s) : MemoryOk s.retryIngress := by
  refine foldl_keeps MemoryOk _ s.ingress { s with ingress := [] } h fun u p hu => ?_
  split
  · next hs => exact optOk_serveOrForward hu _ hs
  · exact hu

theorem memoryOk_retryPeers (h : MemoryOk s) : MemoryOk s.retryPeers := by
  refine memoryOk_retryIngress (foldl_keeps MemoryOk _ _ s h fun u k hu => ?_)
  split
  · exact memoryOk_retryHeld hu
  · exact hu

/-! ### Requests sent -/

theorem memoryOk_readPayload {o src len bs} (h : MemoryOk s) (e : s.readPayload o src len = some (.inl (bs, t))) :
    MemoryOk t := by
  unfold State.readPayload at e
  dsimp only at e
  split at e
  · cases e
  split at e
  · cases e
  · cases e
    exact foldl_keeps MemoryOk _ _ s h fun _ _ hu => memoryOk_flushLines _ _ _ hu

theorem memoryOk_localDone {o r} (h : MemoryOk s) : MemoryOk (s.localDone o r) :=
  memoryOk_ite (memoryOk_onIssuer (s := s.setOp _) h) h

theorem memoryOk_deliver {o r} (h : MemoryOk s) : MemoryOk (s.deliver o r) := by
  unfold State.deliver
  split
  · exact h
  split
  · split
    · exact h
    · exact h
  dsimp only
  split
  · exact memoryOk_answer (memoryOk_stepRecord h)
  · exact memoryOk_arriveXputq h
  · split
    · exact memoryOk_getD (optOk_serveOrForward h) (memoryOk_answer h)
    · exact h

theorem memoryOk_peerSend {o r} (h : MemoryOk s) : MemoryOk (s.peerSend o r) := by
  unfold State.peerSend
  split
  · exact h
  extract_lets go
  have hgo {u v} (hu : MemoryOk u) : MemoryOk (go u v) := memoryOk_passSend (memoryOk_deliver (memoryOk_localDone hu))
  split
  · split
    · exact h
    · exact memoryOk_asyncFail (memoryOk_sramWrite _ _ (memoryOk_finish o h))
    · next hp => exact hgo (memoryOk_readPayload h hp)
  · exact hgo h

/-! ### Requests that arrive -/

theorem memoryOk_permit {r u} (h : MemoryOk s) (hu : MemoryOk (u s)) : MemoryOk (s.permit r u) :=
  memoryOk_ite (memoryOk_respond h) (memoryOk_ite (memoryOk_postMsg h) hu)

theorem memoryOk_inboundDirect {r q} (h : MemoryOk s) : MemoryOk (s.inboundDirect r q) :=
  memoryOk_permit h (memoryOk_getD (optOk_serveOrForward h) h)

theorem memoryOk_loseReplay {p} (h : MemoryOk s) : MemoryOk (s.loseReplay p) := by
  refine foldl_keeps MemoryOk _ s.ops s h fun u o hu => ?_
  split
  · exact memoryOk_ite (memoryOk_peerRespond hu) hu
  · exact hu

end Sys2Proof.Proofs
end

section
/-! SUPPORT. Host registers, supersteps, collectives, synchronisation, launches and work queues keep the canonical form of
the memories. -/

namespace Sys2Proof.Proofs

open Sys2Proof Sys2Proof.Machine Sys2Proof.Safety Sys2Proof.Laws

variable {s t : State} {x : Group}

/-! ### Host registers -/

theorem memoryOk_lenient {ok tag} (h : MemoryOk s) (ht : MemoryOk t) : MemoryOk (s.lenient ok tag t) := memoryOk_ite ht h

theorem memoryOk_freshContexts (h : MemoryOk t) : MemoryOk (s.freshContexts t) := by
  unfold State.freshContexts
  extract_lets new
  exact memoryOk_ite h h

theorem memoryOk_bar2Write {o v} (h : MemoryOk s) : MemoryOk (s.bar2Write o v) := memoryOk_ite (memoryOk_setMsix _ _ h) h

theorem memoryOk_regWrite {off v} (h : MemoryOk s) : MemoryOk (s.regWrite off v) := by
  unfold State.regWrite
  extract_lets r set
  have hset {y} : MemoryOk (set y) := h
  exact memoryOk_ite hset <| memoryOk_ite (memoryOk_freshContexts hset) <| memoryOk_ite hset <| memoryOk_ite hset <|
    memoryOk_ite hset <| memoryOk_ite hset <| memoryOk_ite (memoryOk_lenient h hset) <| memoryOk_ite hset <|
    memoryOk_ite hset <| memoryOk_ite hset <| memoryOk_ite hset <| memoryOk_ite hset <| memoryOk_ite hset <|
    memoryOk_ite hset <| memoryOk_ite (memoryOk_lenient h h) <| memoryOk_ite hset <| memoryOk_ite hset <|
    memoryOk_ite hset <| memoryOk_ite (memoryOk_ite h h) <| memoryOk_ite (memoryOk_bar2Write h) h

/-! ### Supersteps -/

theorem memoryOk_readySettle (h : MemoryOk s) : MemoryOk s.readySettle := by
  unfold State.readySettle
  split
  · exact memoryOk_ite h h
  · exact h

theorem memoryOk_broadcast {m} (h : MemoryOk s) : MemoryOk (s.broadcast m) :=
  memoryOk_ite (foldl_keeps MemoryOk _ _ s h fun _ _ ht => memoryOk_postMsg ht) h

theorem memoryOk_conflict {n p} (h : MemoryOk s) : MemoryOk (s.conflict n p) :=
  memoryOk_updStepStat (memoryOk_ite (memoryOk_postFault _ _ h) h)

theorem memoryOk_applyPieces {n} {ps : List Piece} (h : MemoryOk s) : MemoryOk (s.applyPieces n ps) := by
  cases ps with
  | nil => exact h
  | cons p ps => exact foldl_keeps MemoryOk _ _ _ (memoryOk_sramWrite _ _ h) fun _ _ ht => memoryOk_conflict ht

theorem memoryOk_applyStep {n} (h : MemoryOk s) : MemoryOk (s.applyStep n) := by
  unfold State.applyStep
  extract_lets rs ps words s1
  have h1 : MemoryOk s1 := foldl_keeps MemoryOk _ words s h fun _ _ ht => memoryOk_applyPieces ht
  exact h1

theorem memoryOk_releaseSteps (h : MemoryOk s) : MemoryOk s.releaseSteps := by
  refine foldl_keeps MemoryOk _ s.groups s h fun t p ht => ?_
  exact memoryOk_ite (memoryOk_keepGroup (fun _ => rfl) (memoryOk_ite (memoryOk_acquire ht) ht)) ht

theorem memoryOk_dropMember {b p} (h : MemoryOk s) : MemoryOk (s.dropMember b p) := h

/-! ### Collectives -/

theorem memoryOk_ctileIssue {g f k v} (h : MemoryOk s) : MemoryOk (resState (ctileIssue g f k v s)) := by
  unfold ctileIssue
  extract_lets b key id s1
  have h1 : MemoryOk s1 := memoryOk_keepGroup (fun _ => rfl) (memoryOk_addOp h)
  exact memoryOk_settleTrans (s := { s1 with collCount := _ }) h1

theorem memoryOk_collWrite {o v bs} (h : MemoryOk s) : MemoryOk (s.collWrite o v bs) := by
  unfold State.collWrite
  extract_lets pasid o1 s1
  have h1 : MemoryOk s1 := h
  clear_value s1
  split
  · exact h1
  · exact memoryOk_xferDone h1
  · exact memoryOk_ite (memoryOk_askPeers h1) (memoryOk_ite h1 (memoryOk_xferDone (memoryOk_scatter (memoryOk_syncNear h1))))

/-! ### Synchronisation and reports taken -/

theorem memoryOk_release {g} (h : MemoryOk s) : MemoryOk (s.release g) := memoryOk_writeBack h

theorem memoryOk_performRel {o off} (h : MemoryOk s) : MemoryOk (s.performRel o off) :=
  memoryOk_finish o (memoryOk_sramWrite _ _ (memoryOk_dropLine h))

theorem memoryOk_addBinding {b} (h : MemoryOk s) : MemoryOk (s.addBinding b) := by
  unfold State.addBinding
  extract_lets a im
  clear_value im a
  exact memoryOk_of_eq (memoryOk_sramWrite a im h) rfl rfl rfl rfl

theorem memoryOk_dropBinding {b} (h : MemoryOk s) : MemoryOk (s.dropBinding b) :=
  memoryOk_of_eq (memoryOk_sramWrite b.place (List.replicate b.image.length 0#8) h) rfl rfl rfl rfl

theorem memoryOk_takeReport {g f r} (h : MemoryOk s) (e : s.takeReport g f = some (r, t)) : MemoryOk t := by
  unfold State.takeReport at e
  split at e
  · cases e
    exact memoryOk_updFibre _ _ h
  · obtain ⟨_, _, hp⟩ := Option.map_eq_some_iff.1 e
    cases hp
    exact memoryOk_keepGroup (fun _ => rfl) h

/-! ### Launches -/

theorem memoryOk_queueError {q reason reject va} (h : MemoryOk s) : MemoryOk (s.queueError q reason reject va) := by
  unfold State.queueError
  extract_lets v
  exact memoryOk_postFault (s := s.setQueue q _) _ _ h

theorem memoryOk_queueErr {q reason} (h : MemoryOk s) : MemoryOk (s.queueErr q reason) := memoryOk_queueError h

theorem memoryOk_setLaunch {l v} (h : MemoryOk s) : MemoryOk (s.setLaunch l v) := h

theorem memoryOk_releaseLaunch {l v} (h : MemoryOk s) : MemoryOk (s.releaseLaunch l v) :=
  foldl_keeps MemoryOk _ _ s h fun _ _ ht => memoryOk_writeBack ht

theorem memoryOk_completeLaunch {l} (h : MemoryOk s) : MemoryOk (s.completeLaunch l) := by
  unfold State.completeLaunch
  split
  · exact h
  split
  · exact h
  · exact memoryOk_setLaunch (memoryOk_ite (memoryOk_releaseLaunch h) (memoryOk_deviceWord (memoryOk_releaseLaunch h)))

theorem memoryOk_startLaunch {l v} (h : MemoryOk s) : MemoryOk (s.startLaunch l v) :=
  memoryOk_completeLaunch (s := ({ s with nextId := s.nextId + 1 } : State).setLaunch l _) h

theorem memoryOk_startChild {l v} (h : MemoryOk s) : MemoryOk (s.startChild l v) := by
  unfold State.startChild
  split
  · exact memoryOk_startLaunch h
  · exact memoryOk_postFault _ _ (memoryOk_setLaunch h)

theorem memoryOk_rejectLate {l v code} (h : MemoryOk s) : MemoryOk (s.rejectLate l v code) := by
  unfold State.rejectLate
  extract_lets skip s1
  have h1 : MemoryOk s1 := h
  split
  · exact h1
  · exact memoryOk_postFault (s := s1.setQueue _ _) _ _ h1

theorem memoryOk_launchStart {l} (h : MemoryOk s) : MemoryOk (s.launchStart l) := by
  unfold State.launchStart
  split
  · exact h
  split
  · exact h
  split
  · exact memoryOk_startChild h
  split
  · exact h
  split
  · exact memoryOk_rejectLate h
  · exact memoryOk_startLaunch h

/-! ### Paddocks, saves and placements -/

theorem memoryOk_setPad {p v} (h : MemoryOk s) : MemoryOk (s.setPad p v) := h

theorem memoryOk_settleServing {p} (h : MemoryOk s) : MemoryOk (s.settleServing p) := memoryOk_ite h h

theorem memoryOk_yieldPads (h : MemoryOk s) : MemoryOk s.yieldPads :=
  foldl_keeps MemoryOk _ _ s h fun _ _ ht => memoryOk_settleServing ht

theorem memoryOk_settlePreempt {p} (h : MemoryOk s) : MemoryOk (s.settlePreempt p) := by
  unfold State.settlePreempt
  split
  · exact h
  extract_lets n r s1 v
  have h1 : MemoryOk s1 := h
  clear_value s1
  exact memoryOk_ite h (memoryOk_ite (memoryOk_setPad h1) (memoryOk_setPad h1))

theorem memoryOk_settlePreempts (h : MemoryOk s) : MemoryOk s.settlePreempts :=
  foldl_keeps MemoryOk _ _ s h fun _ _ ht => memoryOk_settlePreempt ht

theorem memoryOk_emptyPads (h : MemoryOk s) : MemoryOk s.emptyPads := by
  refine memoryOk_keepGroups (fun p => ?_) h
  dsimp only
  split
  · split <;> rfl
  · rfl

theorem memoryOk_preempt {p c} (h : MemoryOk s) : MemoryOk (s.preempt p c) :=
  memoryOk_settlePreempt (foldl_keeps MemoryOk _ _ (s.setPad p _) h fun _ _ ht => memoryOk_keepGroup (fun _ => rfl) ht)

theorem memoryOk_slotFault {g} (hx : s.group? g = some x) (h : MemoryOk s) : MemoryOk (s.slotFault g x) :=
  memoryOk_postGroup _ _ _ _ _ _ (memoryOk_regroup hx rfl h)

theorem memoryOk_writeSlot {c ps} (h : MemoryOk s) : MemoryOk (s.writeSlot c ps) :=
  foldl_keeps MemoryOk _ ps s h fun _ _ ht => memoryOk_devWrite _ _ _ _ ht

theorem memoryOk_saveGroup {g} (h : MemoryOk s) : MemoryOk (s.saveGroup g) := by
  unfold State.saveGroup
  split
  · exact h
  split
  · exact memoryOk_keepGroup (fun _ => rfl) (memoryOk_writeSlot (memoryOk_writeBack (s := { s with issue := _ }) h))
  · exact h

/-- A group with a bad slot page is the one asked for. -/
theorem badSlot_group {g} (e : s.badSlot g = some x) : s.group? g = some x := by
  obtain ⟨y, hy, e⟩ := Option.bind_eq_some_iff.1 e
  split at e
  · cases e
    exact hy
  · cases e

theorem memoryOk_groupSave {g} (h : MemoryOk s) : MemoryOk (s.groupSave g) := by
  unfold State.groupSave
  dsimp only
  split
  · exact h
  split
  · refine foldl_keeps MemoryOk _ _ s h fun t k ht => ?_
    split
    · next hk => exact memoryOk_slotFault (badSlot_group hk) ht
    · exact ht
  · exact memoryOk_settlePreempts (foldl_keeps MemoryOk _ _ s h fun _ _ ht => memoryOk_saveGroup ht)

theorem memoryOk_placeNew {l slot core} (h : MemoryOk s) : MemoryOk (s.placeNew l slot core) := by
  unfold State.placeNew
  split
  · exact h
  · exact memoryOk_setGroup (s := { s with nextId := _ }) _ (newGroup_scratch ▸ Memory.wf_nil) h

theorem memoryOk_resumeGroup {g core} (h : MemoryOk s) : MemoryOk (s.resumeGroup g core) := by
  unfold State.resumeGroup
  split
  · exact h
  · extract_lets s1 mine back s2
    have h2 : MemoryOk s2 := memoryOk_settleClaims
      (memoryOk_keepGroup (s := { s1 with ops := _ }) (fun _ => rfl) (memoryOk_dropLines h))
    clear_value s2
    refine memoryOk_ite h2 ?_
    cases hg : s2.group? g with
    | none => exact h2
    | some y => exact memoryOk_slotFault hg h2

theorem memoryOk_renewSeq {c} (h : MemoryOk s) : MemoryOk (s.renewSeq c) := memoryOk_ite h h

theorem memoryOk_place {d v} (h : MemoryOk s) : MemoryOk (s.place d v) := by
  unfold State.place
  split
  · dsimp only
    split
    · exact h
    split
    · exact h
    · exact foldl_keeps MemoryOk _ _ s h fun _ _ ht => memoryOk_placeNew (memoryOk_renewSeq ht)
  · split
    · exact h
    · exact foldl_keeps MemoryOk _ _ s h fun _ _ ht => memoryOk_resumeGroup (memoryOk_renewSeq ht)

theorem memoryOk_groupPlace {p} (h : MemoryOk s) : MemoryOk (s.groupPlace p) := by
  unfold State.groupPlace
  split
  · exact h
  extract_lets s1
  have h1 : MemoryOk s1 := memoryOk_settleServing h
  split
  · exact h1
  split
  · exact h1
  split
  · exact memoryOk_place h1
  · exact h1

/-! ### The packets of work queues -/

/-- A packet keeps the canonical form where what it does at its queue does. -/
theorem optOk_onQueue {body : Nat → Queue → Option State} (hb : ∀ q v, OptOk (body q v)) : OptOk (onQueue s body) := by
  unfold onQueue
  split
  · exact hb _ _
  · exact optOk_none

theorem optOk_put {q v} (h : MemoryOk s) : OptOk (s.put q v) := optOk_some h

theorem optOk_queueErr {q reason} (h : MemoryOk s) : OptOk (some (s.queueErr q reason)) := optOk_some (memoryOk_queueErr h)

theorem optOk_queueError {q reason reject va} (h : MemoryOk s) : OptOk (some (s.queueError q reason reject va)) :=
  optOk_some (memoryOk_queueError h)

theorem optOk_ite {c : Prop} [Decidable c] {o p : Option State} (ho : OptOk o) (hp : OptOk p) : OptOk (if c then o else p) := by
  split
  · exact ho
  · exact hp

theorem optOk_tryLaunch {record grid} (h : MemoryOk s) : OptOk (tryLaunch record grid s) := by
  refine optOk_onQueue fun q v => ?_
  extract_lets p word y w add
  have hadd {l} : MemoryOk (add l) := h
  refine optOk_ite optOk_none (optOk_ite (optOk_some hadd) ?_)
  split
  · exact optOk_queueError h
  · exact optOk_some (memoryOk_startLaunch hadd)

theorem memoryOk_acquireAll {ctx} (h : MemoryOk s) : MemoryOk (s.acquireAll ctx) :=
  foldl_keeps MemoryOk _ _ s h fun _ _ ht => memoryOk_setCore _ _ (memoryOk_dropLines ht)

theorem optOk_tryWaitseq {cyc va value} (h : MemoryOk s) : OptOk (tryWaitseq cyc va value s) := by
  refine optOk_onQueue fun q v => ?_
  split
  · exact optOk_queueError h
  · exact optOk_ite (optOk_put (memoryOk_acquireAll h)) optOk_none

theorem optOk_tryQfence (h : MemoryOk s) : OptOk (tryQfence s) :=
  optOk_onQueue fun _ _ => optOk_ite (optOk_put h) optOk_none

theorem optOk_trySignal {add irq va value} (h : MemoryOk s) : OptOk (trySignal add irq va value s) := by
  refine optOk_onQueue fun q v => optOk_ite optOk_none ?_
  split
  · exact optOk_queueError h
  · have h1 {c p va bs} := memoryOk_devWrite c p va bs h
    exact optOk_ite (optOk_queueError h) (optOk_put (memoryOk_ite (memoryOk_raise _ h1) h1))

theorem optOk_tryLoop {count} (h : MemoryOk s) : OptOk (tryLoop count s) := by
  refine optOk_onQueue fun q v => ?_
  split
  · exact optOk_none
  · exact optOk_queueErr h
  · exact optOk_queueErr h
  · exact optOk_ite (optOk_put h) (optOk_put h)

theorem optOk_tryEndloop {on c va value mask} (h : MemoryOk s) : OptOk (tryEndloop on c va value mask s) := by
  refine optOk_onQueue fun q v => ?_
  split
  · extract_lets again
    have hagain {b} : OptOk (again b) := optOk_ite (optOk_put h) (optOk_put h)
    split
    · split
      · exact optOk_queueError h
      · exact hagain
    · exact hagain
  · exact optOk_queueErr h

theorem optOk_tryIfmem {c va value mask} (h : MemoryOk s) : OptOk (tryIfmem c va value mask s) := by
  refine optOk_onQueue fun q v => ?_
  split
  · exact optOk_none
  · exact optOk_queueErr h
  · exact optOk_queueErr h
  split
  · exact optOk_queueError h
  · exact optOk_put h
  split
  · exact optOk_put h
  · exact optOk_put h

theorem optOk_tryElse (h : MemoryOk s) : OptOk (tryElse s) := by
  refine optOk_onQueue fun q v => ?_
  split
  · split
    · exact optOk_none
    · exact optOk_queueErr h
    · exact optOk_queueErr h
    · exact optOk_put h
  · exact optOk_queueErr h

theorem optOk_tryEndif (h : MemoryOk s) : OptOk (tryEndif s) := by
  refine optOk_onQueue fun q v => ?_
  split
  · exact optOk_put h
  · exact optOk_queueErr h

theorem optOk_tryEngcmd {hnd n} (h : MemoryOk s) : OptOk (tryEngcmd hnd n s) := by
  refine optOk_onQueue fun q v => ?_
  split
  · exact optOk_ite optOk_none (optOk_put h)
  · split
    · exact optOk_queueErr h
    · exact optOk_ite (optOk_queueErr h) (optOk_ite (optOk_put h) (optOk_put h))

theorem optOk_tryStepb {n} (h : MemoryOk s) : OptOk (tryStepb n s) :=
  optOk_onQueue fun _ _ => optOk_ite (optOk_queueErr h) (optOk_ite optOk_none (optOk_put h))

theorem optOk_tryHalt (h : MemoryOk s) : OptOk (tryHalt s) :=
  optOk_onQueue fun _ _ => optOk_ite (optOk_put h) optOk_none

theorem memoryOk_writeTail {q n} (h : MemoryOk s) : MemoryOk (s.writeTail q n) :=
  memoryOk_ite h (memoryOk_ite (memoryOk_queueErr h) h)

theorem memoryOk_qpost {ctx q bs} (h : MemoryOk s) : MemoryOk (s.qpost ctx q bs).2 := by
  unfold State.qpost
  extract_lets v
  split
  · exact h
  split
  · exact h
  split
  · exact memoryOk_queueErr h
  · exact memoryOk_ite_snd (memoryOk_queueErr h) (memoryOk_devWrite _ _ _ _ h)

theorem memoryOk_performSignal {o off host v add irq} (h : MemoryOk s) : MemoryOk (s.performSignal o off host v add irq) := by
  unfold State.performSignal
  extract_lets line old s1
  have h1 : MemoryOk s1 :=
    memoryOk_ite ⟨h.1, h.2.1, Memory.wf_write _ _ h.2.2.1, h.2.2.2⟩ (memoryOk_sramWrite _ _ (memoryOk_dropLine h))
  exact memoryOk_finish o (memoryOk_ite (memoryOk_raise _ h1) h1)

end Sys2Proof.Proofs
end

section
/-! SUPPORT. Pages answered, invalidates, debugging, halts, optics, provisioning, reset and the clock keep the canonical form
of the memories. -/

namespace Sys2Proof.Proofs

open Sys2Proof Sys2Proof.Machine Sys2Proof.Safety Sys2Proof.Laws

variable {s t : State} {x : Group}

/-! ### Pages and translations -/

theorem memoryOk_answerPage {asid page absent} (h : MemoryOk s) : MemoryOk (s.answerPage asid page absent) := by
  unfold State.answerPage
  extract_lets mine
  refine memoryOk_of_eq (memoryOk_keepGroups (fun p => ?_) h) rfl rfl rfl rfl
  dsimp only
  split <;> rfl

theorem memoryOk_dropAllLines (h : MemoryOk s) : MemoryOk s.dropAllLines :=
  foldl_keeps MemoryOk _ _ s h fun _ _ ht => memoryOk_flushLines _ _ _ ht

theorem memoryOk_dropEntries {v} (h : MemoryOk s) : MemoryOk (s.dropEntries v).2 := memoryOk_ite (memoryOk_dropAllLines h) h

/-! ### Debugging -/

theorem memoryOk_dbgResult {r} (h : MemoryOk s) : MemoryOk (s.dbgResult r) := memoryOk_ite h h

/-- The group that a debugger names is one of the package. -/
theorem dbgGroup_mem {g} (e : s.dbgGroup = some (g, x)) : (g, x) ∈ s.groups :=
  List.mem_of_mem_filter (List.mem_of_getElem? e)

theorem memoryOk_onDbgGroup {u} (h : MemoryOk s) (hu : ∀ g x, Memory.wf x.scratch = true → MemoryOk (u g x)) :
    MemoryOk (s.onDbgGroup u) := by
  unfold State.onDbgGroup
  split
  · exact memoryOk_dbgResult h
  · next e => exact hu _ _ (h.2.2.2 _ (dbgGroup_mem e))

theorem memoryOk_onDbgFibre {u} (h : MemoryOk s) (hu : ∀ g x n f, Memory.wf x.scratch = true → MemoryOk (u g x n f)) :
    MemoryOk (s.onDbgFibre u) := by
  refine memoryOk_onDbgGroup h fun g x hx => ?_
  dsimp only
  split
  · exact memoryOk_dbgResult h
  · exact memoryOk_ite (hu _ _ _ _ hx) (memoryOk_dbgResult h)

theorem memoryOk_dbgHold {w} (h : MemoryOk s) : MemoryOk (s.dbgHold w) := h

theorem memoryOk_dbgAccess {v u} (h : MemoryOk s) (hu : ∀ x r f k, Memory.wf x.scratch = true → MemoryOk (u x r f k)) :
    MemoryOk (s.dbgAccess v u) := by
  refine memoryOk_ite h (memoryOk_onDbgFibre h fun g x n f hx => ?_)
  dsimp only
  split
  · exact memoryOk_dbgResult h
  split
  · exact memoryOk_ite (memoryOk_dbgHold h) (hu _ _ _ _ hx)
  · exact memoryOk_ite (memoryOk_dbgHold h) (hu _ _ _ _ hx)
  · exact hu _ _ _ _ hx

theorem optOk_dbgSet {r v} {k : DbgReg} (hx : Memory.wf x.scratch = true) (h : MemoryOk s) : OptOk (s.dbgSet x r v k) := by
  have upd {u} : OptOk (some (s.updFibre r u)) := optOk_some (memoryOk_updFibre r u h)
  cases k with
  | lane k => exact upd
  | pred n => exact upd
  | mask j => exact optOk_some (memoryOk_settleRank (memoryOk_setGroup r.g hx h))
  | ctr n => exact optOk_none
  | sys n => exact optOk_none
  | pc => exact upd
  | cause => exact upd
  | value => exact upd
  | idx i => exact upd

/-! ### Groups discarded and cores halted -/

theorem memoryOk_discard {g} (h : MemoryOk s) : MemoryOk (s.discard g) := by
  unfold State.discard
  split
  · exact h
  · next x hx =>
    extract_lets s1 y s2 s3
    have h1 : MemoryOk s1 := by
      unfold s1
      split
      · exact memoryOk_writeBack h
      · exact h
    have hy : Memory.wf y.scratch = true := by
      unfold y
      cases hg : s1.group? g with
      | none => exact memoryOk_group h hx
      | some z => exact memoryOk_group h1 hg
    have h2 : MemoryOk s2 := by
      unfold s2
      split
      · exact memoryOk_postFault _ _ h1
      · exact h1
    have h3 : MemoryOk s3 := by
      unfold s3
      split
      · exact memoryOk_setLaunch h2
      · exact h2
    exact memoryOk_settlePreempts (memoryOk_setGroup g hy h3)

theorem memoryOk_dropCore {c lost} (h : MemoryOk s) : MemoryOk (s.dropCore c lost) :=
  memoryOk_ite h (foldl_keeps MemoryOk _ _ s h fun _ _ ht => memoryOk_writeLine _ ht)

theorem memoryOk_capture {c} (h : MemoryOk s) : MemoryOk (s.capture c) := memoryOk_sramWrite _ _ h

theorem memoryOk_haltCore {c lost} (h : MemoryOk s) : MemoryOk (s.haltCore c lost) := by
  unfold State.haltCore
  extract_lets gs gone s1 k t r s2 s3
  have h2 : MemoryOk s2 := by
    have h1 : MemoryOk s1 := memoryOk_capture (memoryOk_dropCore h)
    clear_value s1
    exact h1
  have h3 : MemoryOk s3 := foldl_keeps MemoryOk _ _ s2 h2 fun _ _ ht => memoryOk_postFault _ _ ht
  exact memoryOk_emptyPads (foldl_keeps MemoryOk _ _ s3 h3 fun _ _ ht => memoryOk_discard ht)

/-! ### Optics -/

theorem memoryOk_pushOptical {body} (h : MemoryOk s) : MemoryOk (s.pushOptical body) := by
  unfold State.pushOptical
  extract_lets r log a s1
  have h1 : MemoryOk s1 := memoryOk_sramWrite _ _ h
  clear_value s1
  exact memoryOk_ite h (memoryOk_raise _ h1)

theorem memoryOk_postOptical {code target spares wl ingress e delay} (h : MemoryOk s) :
    MemoryOk (s.postOptical code target spares wl ingress e delay) := memoryOk_ite h (memoryOk_pushOptical h)

theorem memoryOk_setOptDir {e i d} (h : MemoryOk s) : MemoryOk (s.setOptDir e i d) := h

theorem memoryOk_dirDark {e i} (h : MemoryOk s) : MemoryOk (s.dirDark e i) := h

theorem memoryOk_dirDown {e i m} (h : MemoryOk s) : MemoryOk (s.dirDown e i m) := memoryOk_postOptical (memoryOk_dirDark h)

theorem memoryOk_retrainDir {e i m delay} (h : MemoryOk s) : MemoryOk (s.retrainDir e i m delay) :=
  memoryOk_ite h (memoryOk_postOptical (memoryOk_setOptDir h))

theorem memoryOk_retrainEngine {e delay} (h : MemoryOk s) : MemoryOk (s.retrainEngine e delay) := by
  unfold State.retrainEngine
  extract_lets i d s1
  have h1 : MemoryOk s1 := memoryOk_ite (memoryOk_setOptDir h) h
  clear_value s1
  exact memoryOk_ite (memoryOk_retrainDir h1) (memoryOk_ite (memoryOk_postOptical h1) h1)

theorem memoryOk_engineDown {e} (h : MemoryOk s) : MemoryOk (s.engineDown e) :=
  foldl_keeps MemoryOk _ _ s h fun _ _ ht => memoryOk_ite ht (memoryOk_dirDown ht)

theorem memoryOk_loseSource {e delay} (h : MemoryOk s) : MemoryOk (s.loseSource e delay) :=
  memoryOk_ite (memoryOk_engineDown h) (memoryOk_retrainEngine h)

/-! ### Provisioning, safe mode and reset -/

theorem memoryOk_onProv {u} (h : MemoryOk s) (hu : ∀ t, MemoryOk t → MemoryOk (u t)) : MemoryOk (s.onProv u) :=
  memoryOk_ite h (hu { s with draining := none } h)

theorem memoryOk_onDirs {es u} (h : MemoryOk s) : MemoryOk (s.onDirs es u) :=
  foldl_keeps MemoryOk _ es s h fun t _ ht => foldl_keeps MemoryOk _ _ t ht fun _ _ hv => memoryOk_setOptDir hv

/-- A module exchanged for a blank one leaves of module memory what lies elsewhere. -/
theorem memoryOk_newModule {fab} (h : MemoryOk s) : MemoryOk (s.newModule fab) := ⟨h.1, wfFrom_filter _ h.2.1, h.2.2⟩

theorem memoryOk_attach {m v own} (h : MemoryOk s) : MemoryOk (s.attach m v own) := by
  unfold State.attach
  extract_lets used s1 s2 s3 j
  have h1 : MemoryOk s1 := memoryOk_ite (memoryOk_newModule h) h
  have h2 : MemoryOk s2 := memoryOk_onDirs (s := s1.resetLanes m) h1
  have h3 : MemoryOk s3 := memoryOk_of_eq h2 rfl rfl rfl rfl
  clear_value s3
  exact memoryOk_of_eq (memoryOk_onDirs h3) rfl rfl rfl rfl

theorem memoryOk_enterSafe {unit code} (h : MemoryOk s) : MemoryOk (s.enterSafe unit code) := by
  unfold State.enterSafe
  extract_lets s1
  have h1 : MemoryOk s1 := foldl_keeps MemoryOk _ _ s h fun _ _ ht => memoryOk_dirDark (memoryOk_dirDark ht)
  clear_value s1
  exact memoryOk_of_eq h1 rfl rfl rfl rfl

/-- A reset keeps what lies outside the package, and empties the rest. -/
theorem memoryOk_kept (h : MemoryOk s) : MemoryOk s.kept := ⟨Memory.wf_nil, h.2.1, h.2.2.1, fun _ hp => nomatch hp⟩

/-! ### Completion and the clock -/

theorem memoryOk_complete {o} (h : MemoryOk s) : MemoryOk (s.complete o) := by
  unfold State.complete
  split
  · exact memoryOk_ite h (memoryOk_performNear h)
  · exact memoryOk_ite h (memoryOk_performNear h)
  · exact memoryOk_ite h (memoryOk_performNear h)
  · exact memoryOk_performNear h
  · exact memoryOk_ite h (memoryOk_performScratch h)
  · exact memoryOk_ite h (memoryOk_performScratch h)
  · exact memoryOk_ite h (memoryOk_performScratch h)
  · exact memoryOk_ite h (memoryOk_performFatom h)
  · exact memoryOk_ite h (memoryOk_performRel h)
  · exact memoryOk_performSignal h
  · exact memoryOk_peerSend h
  · split
    · split
      · exact memoryOk_collWrite h
      · exact h
    · exact h
  · exact h

theorem memoryOk_unholdAll (h : MemoryOk s) : MemoryOk s.unholdAll := by
  refine memoryOk_keepGroups (fun p => ?_) h
  dsimp only
  split <;> rfl

theorem memoryOk_formSheaves (h : MemoryOk s) : MemoryOk s.formSheaves := by
  unfold State.formSheaves
  extract_lets cores s1
  have h1 : MemoryOk s1 := memoryOk_keepGroups (fun _ => rfl) h
  exact foldl_keeps MemoryOk _ cores s1 h1 fun _ _ ht => memoryOk_setCore _ _ ht

theorem memoryOk_softError (h : MemoryOk s) : MemoryOk s.softError := by
  unfold State.softError
  extract_lets k
  split
  · exact memoryOk_ite h h
  · exact h
  · split
    · exact h
    · exact h
  · split
    · exact h
    · next p hp =>
      have hx : Memory.wf p.2.scratch = true := h.2.2.2 p (List.mem_of_getElem? hp)
      have set {y : Group} (hy : y.scratch = p.2.scratch) : MemoryOk (s.setGroup p.1 y) := memoryOk_setGroup p.1 (hy ▸ hx) h
      dsimp only
      split
      · exact memoryOk_ite h (set rfl)
      · exact set rfl
      · exact set rfl
      · exact set rfl
      · exact set rfl
      · exact h

theorem memoryOk_restarts (h : MemoryOk s) : MemoryOk s.restarts := by
  unfold State.restarts
  extract_lets back s1 s2
  have h1 : MemoryOk s1 := memoryOk_ite (foldl_keeps MemoryOk _ _ { s with mgmtDown := false, optHeld := [], cores := _ } h
    fun _ _ ht => memoryOk_pushOptical ht) h
  have h2 : MemoryOk s2 := h1
  clear_value s2
  split
  · exact memoryOk_ite h2 h2
  · exact h2

theorem memoryOk_linkAcks (h : MemoryOk s) : MemoryOk s.linkAcks := h

theorem memoryOk_sendResponses (h : MemoryOk s) : MemoryOk s.sendResponses := h

theorem memoryOk_background (h : MemoryOk s) : MemoryOk s.background :=
  memoryOk_softError (memoryOk_restarts (memoryOk_retryPeers (memoryOk_sendResponses
    (memoryOk_sendUnsent (memoryOk_linkAcks h)))))

theorem memoryOk_nextCycle (h : MemoryOk s) : MemoryOk s.nextCycle :=
  memoryOk_keepGroups (s := { s.background with cycle := s.cycle + 1 }) (fun _ => tick_scratch) (memoryOk_background h)

theorem memoryOk_sheafRound (h : MemoryOk s) : MemoryOk s.sheafRound :=
  memoryOk_ite h (memoryOk_ite (memoryOk_formSheaves (memoryOk_nextCycle h)) (memoryOk_nextCycle h))

theorem memoryOk_unitAccept {c u} (h : MemoryOk s) : MemoryOk (s.unitAccept c u) := by
  unfold State.unitAccept
  dsimp only
  split
  · exact h
  split
  · exact h
  · exact memoryOk_ite h (memoryOk_updFibre _ _ h)

theorem memoryOk_settleReady (h : MemoryOk s) : MemoryOk s.settleReady :=
  memoryOk_keepGroups (fun _ => rfl) (memoryOk_unholdAll h)

/-! ### Turns -/

theorem memoryOk_endTurn (h : MemoryOk s) : MemoryOk s.endTurn := by
  have h1 := memoryOk_yieldPads (memoryOk_settleDbg h)
  exact memoryOk_of_eq h1 rfl rfl rfl rfl

theorem memoryOk_firstIssue {g} (h : MemoryOk s) : MemoryOk (s.firstIssue g x) :=
  memoryOk_ite (memoryOk_keepGroup (fun _ => rfl) (memoryOk_setCore _ _ h)) h

theorem memoryOk_stepDone {r} (h : MemoryOk s) : MemoryOk (s.stepDone r x) :=
  memoryOk_ite (memoryOk_takeTrap _ _ _ h) (memoryOk_updFibre _ _ h)

theorem memoryOk_issuePick {p} (h : MemoryOk s) : MemoryOk (s.issuePick p).2 := by
  unfold State.issuePick
  extract_lets s1
  have h1 : MemoryOk s1 := h
  clear_value s1
  split
  · exact h1
  split
  · exact h1
  split
  · exact h1
  extract_lets s2
  have h2 : MemoryOk s2 := memoryOk_firstIssue h1
  clear_value s2
  split
  · exact memoryOk_takeTrap _ _ _ (memoryOk_updFibre _ _ h2)
  split
  · exact memoryOk_stepDone h2
  split
  · exact memoryOk_takeTrap _ _ _ h2
  split
  · next e => exact memoryOk_takeTrap _ _ _ (memoryOk_snd (memoryOk_fetch h2) e)
  · next e => exact memoryOk_park _ _ _ _ (memoryOk_snd (memoryOk_fetch h2) e)
  · next s3 e =>
    have h3 : MemoryOk s3 := memoryOk_snd (memoryOk_fetch h2) e
    exact memoryOk_commit (r := .stall s3 _) _ _ h3
  · next e =>
    have h3 := memoryOk_snd (memoryOk_fetch h2) e
    split
    · exact memoryOk_updFibre _ _ h3
    · exact memoryOk_takeTrap _ _ _ h3

theorem memoryOk_issueNext (h : MemoryOk s) : MemoryOk s.issueNext.2 := by
  unfold State.issueNext
  dsimp only
  split
  · exact h
  · exact memoryOk_issuePick (s := { s with issue := _, burst := _, looked := _ }) h

theorem memoryOk_queueNext (h : MemoryOk s) : MemoryOk s.queueNext.2 := by
  unfold State.queueNext
  extract_lets ready
  split
  · exact h
  · extract_lets s1
    have h1 : MemoryOk s1 := h
    clear_value s1
    split
    · exact memoryOk_queueErr h1
    · exact h1

theorem memoryOk_slotNext (h : MemoryOk s) : MemoryOk s.slotNext.2 := by
  unfold State.slotNext
  extract_lets us
  split
  · exact h
  · exact h

theorem memoryOk_inputNext (h : MemoryOk s) : MemoryOk s.inputNext.2 := by
  unfold State.inputNext
  split
  · exact h
  · exact h

/-- Finding the instruction of a turn keeps the canonical form. -/
theorem memoryOk_turnNext (h : MemoryOk s) : MemoryOk s.turnNext.2 := by
  unfold State.turnNext
  split
  · exact memoryOk_inputNext h
  · exact memoryOk_issueNext h
  · exact memoryOk_queueNext h
  · exact memoryOk_slotNext h
  · exact memoryOk_ite (memoryOk_settleReady h) h

end Sys2Proof.Proofs
end

section
/-! SUPPORT. Every instruction keeps the canonical form of the memories: the words that instructions share, the words of each
chapter, chain entries, packets, inputs and events. -/

namespace Sys2Proof.Proofs

open Sys2Proof Sys2Proof.Machine Sys2Proof.Safety Sys2Proof.Laws

variable {s : State} {i : Instr} {hd : Hdr}

/-! ### Words of one shape -/

theorem outOk_laneWord {cs u} (h : MemoryOk s) : OutOk (laneWord i hd cs u s) :=
  outOk_runWord h fun _ _ => memoryOk_updFibre _ _ h

theorem outOk_maskWord {m inSet} (h : MemoryOk s) : OutOk (maskWord i hd m inSet s) :=
  outOk_runWord h fun _ _ => memoryOk_settleRank (memoryOk_keepGroup (fun _ => rfl) h)

theorem outOk_joinWord {m timed} (h : MemoryOk s) : OutOk (joinWord i hd m timed s) := by
  refine outOk_runWord h fun g f => ?_
  dsimp only
  split
  · exact memoryOk_updFibre _ _ h
  · exact memoryOk_settleRank (memoryOk_keepGroup (fun _ => updFibre_scratch ..) h)

theorem outOk_rendezvousWord {cs gangOnly mask offer} (h : MemoryOk s) :
    OutOk (rendezvousWord i hd cs gangOnly mask offer s) := by
  refine outOk_runWordIn h (fun g f hg => ?_) (memoryOk_attend h)
  extract_lets lone
  split
  · exact memoryOk_updFibre _ _ h
  split
  · exact h
  · exact memoryOk_settleRank (memoryOk_regroup hg ((updFibre_scratch ..).trans join_scratch) h)

theorem outOk_bufWord {n a b ev} (h : MemoryOk s) : OutOk (bufWord i hd n a b ev s) := by
  refine outOk_runWord h fun g f => ?_
  dsimp only
  split
  · exact h
  split
  · exact h
  split
  · exact memoryOk_transition h
  · exact h

theorem outOk_arriveWord {n wait} (h : MemoryOk s) : OutOk (arriveWord i hd n wait s) := by
  refine outOk_runWord h fun g f => ?_
  split
  · exact memoryOk_updFibre _ _ h
  split
  · exact h
  · exact memoryOk_keepGroup (fun _ => arrive_scratch) h

theorem outOk_cbarWord {exit} (h : MemoryOk s) : OutOk (cbarWord i hd exit s) := by
  refine outOk_runWord h fun g f => ?_
  dsimp only
  split
  · exact h
  split
  · exact h
  · exact memoryOk_settleCbar (memoryOk_updFibre _ _ (memoryOk_updCbar h))

theorem outOk_clusterWord {d m ty store} (h : MemoryOk s) : OutOk (clusterWord i hd d m ty store s) := by
  refine outOk_runWord h fun g f => ?_
  dsimp only
  split
  · exact h
  · split
    · exact memoryOk_scratchIssue h
    · exact memoryOk_scratchIssue h

theorem outOk_sweepWord {fn w} (h : MemoryOk s) : OutOk (Machine.sweepWord i hd fn w s) := by
  refine outOk_runWord h fun g f => ?_
  split
  · exact h
  dsimp only
  split
  · exact h
  · exact memoryOk_addOp h

theorem outOk_wldWord {m ty sp scl} (h : MemoryOk s) : OutOk (wldWord i hd m ty sp scl s) := by
  refine outOk_runWord h fun g f => ?_
  extract_lets p lane rs
  split
  · exact h
  split
  · exact h
  split
  · exact h
  split
  · exact h
  split
  · exact h
  split
  · exact memoryOk_awaitUnit h
  · exact memoryOk_addOp h

theorem outOk_mmaWord {t a ty kb q sc} (h : MemoryOk s) : OutOk (mmaWord i hd t a ty kb q sc s) := by
  refine outOk_runWord h fun g f => ?_
  extract_lets ac off n
  split
  · exact h
  split
  · exact memoryOk_awaitUnit h
  split
  · exact h
  split
  · exact h
  · exact memoryOk_addOp h

theorem outOk_execMma {t a ty kb} (h : MemoryOk s) : OutOk (execMma hd t a ty kb s) := outOk_mmaWord h

theorem outOk_execMmab {t a ty q} (h : MemoryOk s) : OutOk (execMmab hd t a ty q s) := outOk_mmaWord h

theorem outOk_execMmax {t a b ty bsel kb} (h : MemoryOk s) : OutOk (execMmax hd t a b ty bsel kb s) := outOk_mmaWord h

theorem outOk_tileWord {counts cs kind} (h : MemoryOk s) : OutOk (tileWord i hd counts cs kind s) :=
  outOk_runWord h fun _ _ => memoryOk_addOp (k := none) h

theorem outOk_rowWord {t m store} (h : MemoryOk s) : OutOk (rowWord i hd t m store s) := by
  refine outOk_runWord h fun g f => ?_
  dsimp only
  split
  · exact h
  · exact memoryOk_addOp h

theorem outOk_atomWord {d m ty op ret} (h : MemoryOk s) : OutOk (atomWord i hd d m ty op ret s) := by
  refine outOk_runWord h fun g f => ?_
  dsimp only
  split
  · next e => exact memoryOk_inl (memoryOk_access h) e
  · next e =>
    have h1 := memoryOk_inr (memoryOk_access h) e
    split
    · split
      · exact memoryOk_atomAtOnce h1
      · exact memoryOk_addOp h1
    split
    · exact h1
    · exact memoryOk_peerIssue h1

theorem outOk_xferWord {n m ab link redt want ev kind} (h : MemoryOk s) :
    OutOk (xferWord i hd n m ab link redt want ev kind s) := by
  refine outOk_runWord h fun g f => ?_
  dsimp only
  split
  · next e => exact memoryOk_inl (memoryOk_readRecord h) e
  · next e =>
    have h1 := memoryOk_inr (memoryOk_readRecord h) e
    split
    · exact h1
    · exact memoryOk_xferIssue h1

end Sys2Proof.Proofs
end

section
/-! SUPPORT. Every instruction keeps the canonical form of the memories: the words with an effect of their own. -/

namespace Sys2Proof.Proofs

open Sys2Proof Sys2Proof.Machine Sys2Proof.Safety Sys2Proof.Laws

variable {s : State} {hd : Hdr} {d a b : Reg} {p q : Src} {m : Mem} {ty : Ty}

/-! ### Clauses and branches -/

theorem outOk_execXmov {x} (h : MemoryOk s) : OutOk (execXmov hd x s) := by
  cases x with
  | toIdx => exact outOk_laneWord h
  | fromIdx => exact outOk_laneWord h

theorem outOk_execPmov {x} (h : MemoryOk s) : OutOk (execPmov hd x s) := by
  cases x with
  | get => exact outOk_laneWord h
  | set => exact outOk_laneWord h

theorem outOk_execClause {c} (h : MemoryOk s) : OutOk (execClause c s) := by
  unfold execClause
  split
  · exact outOk_next h
  · exact outOk_next (memoryOk_commit _ _ (memoryOk_headerRes h))

theorem outOk_execBra {imm} (h : MemoryOk s) : OutOk (execBra hd imm s) := outOk_runWord h fun _ _ => memoryOk_transfer h

theorem outOk_execBrx (h : MemoryOk s) : OutOk (execBrx hd a s) := outOk_runWord h fun _ _ => memoryOk_transferPair h

theorem outOk_execCall {imm} (h : MemoryOk s) : OutOk (execCall hd d imm s) :=
  outOk_runWord h fun _ _ => memoryOk_transfer h

theorem outOk_execRet (h : MemoryOk s) : OutOk (execRet hd a s) := outOk_runWord h fun _ _ => memoryOk_transferPair h

theorem outOk_execCvtx {rnd} (h : MemoryOk s) : OutOk (execCvtx hd d a b ty rnd s) :=
  outOk_runWord h fun _ _ => memoryOk_updFibre _ _ h

/-! ### Scratchpad and buffers -/

theorem outOk_execLdp (h : MemoryOk s) : OutOk (execLdp hd d m ty s) := outOk_runWord h fun _ _ => memoryOk_scratchIssue h

theorem outOk_execStp (h : MemoryOk s) : OutOk (execStp hd d m ty s) := outOk_runWord h fun _ _ => memoryOk_scratchIssue h

theorem outOk_execAtomp {op} (h : MemoryOk s) : OutOk (execAtomp hd d m ty op s) :=
  outOk_runWord h fun _ _ => memoryOk_scratchIssue h

theorem outOk_execBdecl {n exp} (h : MemoryOk s) : OutOk (execBdecl hd n p q ty exp s) := by
  refine outOk_runWord h fun g f => ?_
  dsimp only
  split
  · split
    · exact h
    · exact memoryOk_transition h
  split
  · exact h
  · exact memoryOk_transition h

theorem outOk_execBstat {n} (h : MemoryOk s) : OutOk (execBstat hd d n s) :=
  outOk_runWord h fun _ _ => memoryOk_updFibre _ _ h

/-! ### Barriers, fibres, tasks -/

theorem outOk_execBarw {n} (h : MemoryOk s) : OutOk (execBarw hd n s) := by
  refine outOk_runWord h fun g f => ?_
  split
  · exact memoryOk_updFibre _ _ h
  · exact memoryOk_updFibre _ _ h

theorem outOk_execFnew (h : MemoryOk s) : OutOk (execFnew hd d a q s) := by
  refine outOk_runWord h fun g f => ?_
  dsimp only
  split
  · exact h
  split
  · exact memoryOk_updFibre _ _ (memoryOk_reclaim h)
  · exact memoryOk_updFibre _ _ (memoryOk_startFibre (memoryOk_reclaim h))

theorem outOk_execFend (h : MemoryOk s) : OutOk (execFend hd s) := by
  refine outOk_runWord h fun g f => ?_
  split
  · exact h
  · exact memoryOk_endFibre h

theorem outOk_execTask (h : MemoryOk s) : OutOk (execTask hd d a b s) := by
  refine outOk_runWord h fun g f => ?_
  dsimp only
  split
  · exact h
  split
  · exact h
  split
  · exact h
  · exact memoryOk_keepGroup (fun _ => markTasks_scratch) h

theorem outOk_execFork (h : MemoryOk s) : OutOk (execFork hd d a s) := by
  refine outOk_runWord h fun g f => ?_
  dsimp only
  split
  · exact h
  split
  · exact h
  split
  · exact memoryOk_updFibre _ _ h
  · exact memoryOk_postChild h

/-! ### Matrix and quantized stores -/

theorem outOk_execWswap (h : MemoryOk s) : OutOk (execWswap hd p s) := by
  refine outOk_runWord h fun g f => ?_
  dsimp only
  split
  · exact h
  split
  · exact h
  · exact memoryOk_updFibre _ _ h

theorem outOk_execQst {t rnd sat h3 mx} (h : MemoryOk s) : OutOk (execQst hd t m ty rnd sat h3 mx s) := by
  refine outOk_runWord h fun g f => ?_
  dsimp only
  split
  · exact h
  split
  · exact h
  split
  · exact memoryOk_addOp h
  split
  · exact memoryOk_addOp h
  · exact h
  · exact memoryOk_updFibre _ _ h

theorem outOk_execQstp {rnd sat h3 mx} (h : MemoryOk s) : OutOk (execQstp hd d m ty rnd sat h3 mx s) := by
  refine outOk_runWord h fun g f => ?_
  dsimp only
  split
  · exact h
  split
  · exact h
  · exact memoryOk_addOp h

theorem outOk_execHdecl {c len axis wrap mx rows} (h : MemoryOk s) :
    OutOk (execHdecl hd c a len ty axis wrap mx rows s) := by
  refine outOk_runWord h fun g f => ?_
  dsimp only
  split
  · exact h
  · exact memoryOk_addOp (k := none) h

theorem outOk_execHclr {c} (h : MemoryOk s) : OutOk (execHclr hd c s) :=
  outOk_runWord h fun _ _ => memoryOk_addOp (k := none) h

theorem outOk_execHsave {c} (h : MemoryOk s) : OutOk (execHsave hd c m s) := by
  refine outOk_runWord h fun g f => ?_
  dsimp only
  split
  · exact h
  · exact memoryOk_addOp h

theorem outOk_execHload {c} (h : MemoryOk s) : OutOk (execHload hd c m s) := by
  refine outOk_runWord h fun g f => ?_
  dsimp only
  split
  · exact h
  split
  · exact memoryOk_addOp h
  · exact h

/-! ### Global memory -/

theorem outOk_execLd (h : MemoryOk s) : OutOk (execLd hd d m ty s) := by
  refine outOk_runWord h fun g f => ?_
  dsimp only
  split
  · next e => exact memoryOk_inl (memoryOk_access h) e
  next e =>
  have h1 := memoryOk_inr (memoryOk_access h) e
  split
  · split
    · exact memoryOk_loadAtOnce h1
    · exact memoryOk_addOp h1
  · exact memoryOk_peerIssue h1

theorem outOk_execSt (h : MemoryOk s) : OutOk (execSt hd d m ty s) := by
  refine outOk_runWord h fun g f => ?_
  dsimp only
  split
  · next e => exact memoryOk_inl (memoryOk_access h) e
  next e =>
  have h1 := memoryOk_inr (memoryOk_access h) e
  split
  · exact memoryOk_addOp h1
  · exact memoryOk_peerIssue h1

theorem outOk_execProbe (h : MemoryOk s) : OutOk (execProbe hd d m s) := by
  refine outOk_runWord h fun g f => ?_
  dsimp only
  split
  · exact memoryOk_addOp h
  · exact memoryOk_addOp (memoryOk_lookup h)

theorem outOk_execFatom {op} (h : MemoryOk s) : OutOk (execFatom hd d m ty op s) := by
  refine outOk_runWord h fun g f => ?_
  dsimp only
  split
  · next e => exact memoryOk_inl (memoryOk_access h) e
  · next e => exact memoryOk_addOp (memoryOk_inr (memoryOk_access h) e)

theorem outOk_execWinset (h : MemoryOk s) : OutOk (execWinset hd d p s) := by
  refine outOk_runWord h fun g f => ?_
  dsimp only
  split
  · exact memoryOk_updFibre _ _ h
  split
  · exact memoryOk_updFibre _ _ h
  · exact memoryOk_updFibre _ _ (memoryOk_keepGroup (fun _ => rfl) h)

theorem outOk_execAbar {ab} (h : MemoryOk s) : OutOk (execAbar hd p ab s) :=
  outOk_runWord h fun _ _ => memoryOk_keepGroup (fun _ => releaseAbar_scratch) h

theorem outOk_execAwait {pd ab} (h : MemoryOk s) : OutOk (execAwait hd pd ab s) := by
  refine outOk_runWord h fun g f => ?_
  dsimp only
  split
  · exact memoryOk_updFibre _ _ h
  · exact memoryOk_updFibre _ _ h

/-! ### Chains -/

theorem outOk_execEtail (h : MemoryOk s) : OutOk (execEtail hd d p q s) := by
  refine outOk_runWord h fun g f => ?_
  dsimp only
  split
  · next e => exact memoryOk_inl (memoryOk_handle h) e
  next e =>
  have h1 := memoryOk_inr (memoryOk_handle h) e
  split
  · exact h1
  split
  · exact h1
  split
  · exact memoryOk_addOp h1
  · exact (memoryOk_addOp h1 :)

theorem outOk_execEtailRst (h : MemoryOk s) : OutOk (execEtailRst hd d p b s) := by
  refine outOk_runWord h fun g f => ?_
  dsimp only
  split
  · next e => exact memoryOk_inl (memoryOk_handle h) e
  next e =>
  have h1 := memoryOk_inr (memoryOk_handle h) e
  split
  · exact h1
  split
  · exact h1
  · exact memoryOk_addOp (memoryOk_deviceWord h1)

theorem outOk_execEseq (h : MemoryOk s) : OutOk (execEseq hd d p s) := by
  refine outOk_runWord h fun g f => ?_
  dsimp only
  split
  · next e => exact memoryOk_inl (memoryOk_handle h) e
  · next e => exact memoryOk_addOp (memoryOk_acquire (memoryOk_inr (memoryOk_handle h) e))

theorem outOk_execEwait {pd} (h : MemoryOk s) : OutOk (execEwait hd pd p q s) := by
  refine outOk_runWord h fun g f => ?_
  dsimp only
  split
  · next e => exact memoryOk_inl (memoryOk_handle h) e
  next e =>
  have h1 := memoryOk_inr (memoryOk_handle h) e
  split
  · exact memoryOk_updFibre _ _ (memoryOk_acquire h1)
  split
  · exact memoryOk_updFibre _ _ h1
  · exact h1

/-! ### Peers, steps and collectives -/

theorem outOk_execXld (h : MemoryOk s) : OutOk (execXld hd d m ty s) := by
  refine outOk_runWord h fun g f => ?_
  dsimp only
  split
  · next e => exact memoryOk_inl (memoryOk_winCheck h) e
  · next e => exact memoryOk_peerIssue (memoryOk_inr (memoryOk_winCheck h) e)

theorem outOk_execXst (h : MemoryOk s) : OutOk (execXst hd d m ty s) := by
  refine outOk_runWord h fun g f => ?_
  dsimp only
  split
  · next e => exact memoryOk_inl (memoryOk_winCheck h) e
  · next e => exact memoryOk_peerIssue (memoryOk_inr (memoryOk_winCheck h) e)

theorem outOk_execXatom {op} (h : MemoryOk s) : OutOk (execXatom hd d m ty op s) := by
  refine outOk_runWord h fun g f => ?_
  dsimp only
  split
  · next e => exact memoryOk_inl (memoryOk_winCheck h) e
  · next e => exact memoryOk_peerIssue (memoryOk_inr (memoryOk_winCheck h) e)

theorem outOk_execSput (h : MemoryOk s) : OutOk (execSput hd d m ty s) := by
  refine outOk_runWord h fun g f => ?_
  dsimp only
  split
  · next e => exact memoryOk_inl (memoryOk_winCheck h) e
  · next e => exact memoryOk_peerIssue (memoryOk_inr (memoryOk_winCheck h) e)

theorem outOk_execXputq (h : MemoryOk s) : OutOk (execXputq hd m s) := by
  refine outOk_runWord h fun g f => ?_
  dsimp only
  split
  · next e => exact memoryOk_inl (memoryOk_access h) e
  next e =>
  have h1 := memoryOk_inr (memoryOk_access h) e
  split
  · next e => exact memoryOk_inl (memoryOk_nearBytes h1) e
  next e =>
  have h2 := memoryOk_inr (memoryOk_nearBytes h1) e
  split
  · next e => exact memoryOk_inl (memoryOk_winCheck h2) e
  next e =>
  have h3 := memoryOk_inr (memoryOk_winCheck h2) e
  split
  · exact h3
  · exact memoryOk_peerIssue (memoryOk_sramWrite _ _ (memoryOk_dropLine h3))

theorem outOk_execSwait {pd} (h : MemoryOk s) : OutOk (execSwait hd pd p s) := by
  refine outOk_runWord h fun g f => ?_
  dsimp only
  split
  · exact memoryOk_updFibre _ _ (memoryOk_acquire h)
  · exact memoryOk_updFibre _ _ h

theorem outOk_execSstat (h : MemoryOk s) : OutOk (execSstat hd d p s) :=
  outOk_runWord h fun _ _ => memoryOk_updFibre _ _ h

theorem outOk_execCtile {n k} (h : MemoryOk s) : OutOk (execCtile hd n m k s) := by
  refine outOk_runWord h fun g f => ?_
  dsimp only
  split
  · next e => exact memoryOk_inl (memoryOk_readRecord h) e
  next e =>
  have h1 := memoryOk_inr (memoryOk_readRecord h) e
  split
  · exact h1
  · exact memoryOk_ctileIssue h1

/-! ### Order and bindings -/

theorem outOk_execFence {sc k} (h : MemoryOk s) : OutOk (execFence hd sc k s) := by
  refine outOk_runWord h fun g f => ?_
  extract_lets wide
  split
  · exact h
  · have h1 := memoryOk_ite (c := (wide && k != .acq) = true) (memoryOk_release (g := g) h) h
    exact memoryOk_ite (memoryOk_acquire h1) h1

theorem outOk_execAcq (h : MemoryOk s) : OutOk (execAcq hd d m s) := by
  refine outOk_runWord h fun g f => ?_
  dsimp only
  split
  · next e => exact memoryOk_inl (memoryOk_access h) e
  next e =>
  have h1 := memoryOk_inr (memoryOk_access h) e
  split
  · exact memoryOk_of_eq (memoryOk_flushLines _ true _ h1) rfl rfl rfl rfl
  · exact h1

theorem outOk_execRel (h : MemoryOk s) : OutOk (execRel hd m s) := by
  refine outOk_runWord h fun g f => ?_
  dsimp only
  split
  · next e => exact memoryOk_inl (memoryOk_access h) e
  next e =>
  have h1 := memoryOk_inr (memoryOk_access h) e
  split
  · exact h1
  · exact memoryOk_addOp (memoryOk_dropLine (memoryOk_flushLines _ _ _ h1))

theorem memoryOk_elim_addBinding {o : Option Binding} (h : MemoryOk s) : MemoryOk (o.elim s s.addBinding) := by
  cases o with
  | none => exact h
  | some b => exact memoryOk_addBinding h

theorem outOk_execBind (h : MemoryOk s) : OutOk (execBind hd d a b s) := by
  refine outOk_runWord h fun g f => ?_
  dsimp only
  split
  · next e => exact memoryOk_inl (memoryOk_access h) e
  · next e => exact memoryOk_updFibre _ _ (memoryOk_elim_addBinding (memoryOk_inr (memoryOk_access h) e))

theorem outOk_execUnbind (h : MemoryOk s) : OutOk (execUnbind hd d b s) :=
  outOk_runWord h fun _ _ => memoryOk_updFibre _ _ (foldl_keeps MemoryOk _ _ s h fun _ _ ht => memoryOk_dropBinding ht)

/-! ### Traps and system registers -/

theorem outOk_execTfence (h : MemoryOk s) : OutOk (execTfence hd s) := by
  refine outOk_runWord h fun g f => ?_
  split
  · exact h
  split
  · next e => exact memoryOk_takeReport h e
  split
  · exact h
  · exact h

theorem outOk_execTrap (h : MemoryOk s) : OutOk (execTrap hd p s) := outOk_runWord h fun _ _ => h

theorem outOk_execBrk (h : MemoryOk s) : OutOk (execBrk hd p s) := outOk_runWord h fun _ _ => h

theorem outOk_execTret (h : MemoryOk s) : OutOk (execTret hd s) := outOk_runWord h fun _ _ => memoryOk_updFibre _ _ h

theorem outOk_execTmask {x} (h : MemoryOk s) : OutOk (execTmask hd d x s) := by
  refine outOk_runWord h fun g f => ?_
  cases x with
  | full a =>
    dsimp only
    split
    · exact h
    · exact memoryOk_updFibre _ _ h
  | en a => exact memoryOk_updFibre _ _ h

theorem outOk_execFlags (h : MemoryOk s) : OutOk (execFlags hd d p s) :=
  outOk_runWord h fun _ _ => memoryOk_updFibre _ _ h

theorem outOk_execSysw {x} (h : MemoryOk s) : OutOk (execSysw hd x a s) :=
  outOk_runWord h fun _ _ => memoryOk_updFibre _ _ h

theorem outOk_execSread {x} (h : MemoryOk s) : OutOk (execSread hd d x s) :=
  outOk_runWord h fun _ _ => memoryOk_updFibre _ _ h

/-! ### Launches and queues -/

theorem outOk_execHintnext {n} (h : MemoryOk s) : OutOk (execHintnext hd n s) :=
  outOk_runWord h fun _ _ => memoryOk_ite h (memoryOk_keepGroup (fun _ => rfl) h)

theorem outOk_execWaitpred (h : MemoryOk s) : OutOk (execWaitpred hd s) := by
  refine outOk_runWord h fun g f => ?_
  split
  · exact h
  split
  · exact memoryOk_acquire h
  · exact h

theorem outOk_execQpost (h : MemoryOk s) : OutOk (execQpost hd d a b s) := by
  refine outOk_runWord h fun g f => ?_
  dsimp only
  split
  · next e => exact memoryOk_inl (memoryOk_access h) e
  next e =>
  have h1 := memoryOk_inr (memoryOk_access h) e
  split
  · exact h1
  · exact memoryOk_addOp (memoryOk_qpost (memoryOk_dropLine (memoryOk_release h1)))

theorem outOk_execSignal {add irq} (h : MemoryOk s) : OutOk (execSignal hd d m add irq s) := by
  refine outOk_runWord h fun g f => ?_
  dsimp only
  split
  · next e => exact memoryOk_inl (memoryOk_access h) e
  next e =>
  have h1 := memoryOk_inr (memoryOk_access h) e
  split
  · exact h1
  · exact memoryOk_addOp (memoryOk_release h1)

end Sys2Proof.Proofs
end

section
/-! SUPPORT. Every instruction keeps the canonical form of the memories: chain entries, packets, inputs and events; then the
instruction set as a whole, and the step. -/

namespace Sys2Proof.Proofs

open Sys2Proof Sys2Proof.Machine Sys2Proof.Safety Sys2Proof.Laws

variable {s : State}

/-! ### Events of groups -/

theorem outOk_execJwaittBudgetExpiry {g f} (h : MemoryOk s) : OutOk (execJwaittBudgetExpiry g f s) := by
  refine outOk_next ?_
  split
  · exact h
  next hx =>
  split
  · exact h
  split
  · exact h
  split
  · exact memoryOk_regroup hx rfl h
  · exact h

theorem outOk_execClaimGrant {g} (h : MemoryOk s) : OutOk (execClaimGrant g s) := by
  refine outOk_next ?_
  split
  · exact h
  · exact memoryOk_ite h (memoryOk_settleClaims h)

theorem outOk_execGroupSwitchOut {g} (h : MemoryOk s) : OutOk (execGroupSwitchOut g s) :=
  outOk_next (memoryOk_ite (foldl_keeps MemoryOk _ _ s h fun _ _ ht => memoryOk_keepGroup (fun _ => rfl) ht) h)

theorem outOk_execMatrixOpPerform {o} (h : MemoryOk s) : OutOk (execMatrixOpPerform o s) := by
  refine outOk_next ?_
  split
  · exact memoryOk_ite (memoryOk_performMatrix h) h
  · exact h

theorem outOk_execBankOpPerform {o} (h : MemoryOk s) : OutOk (execBankOpPerform o s) := by
  refine outOk_next ?_
  split
  · exact memoryOk_ite (memoryOk_performBank h) h
  · exact h

theorem outOk_execCountedCompletion {o} (h : MemoryOk s) : OutOk (execCountedCompletion o s) := by
  refine outOk_next ?_
  split
  · exact memoryOk_complete h
  · exact h

theorem outOk_execSharedUnitAccept {c u} (h : MemoryOk s) : OutOk (execSharedUnitAccept c u s) :=
  outOk_next (memoryOk_ite (memoryOk_acceptSend h) (memoryOk_unitAccept h))

theorem outOk_execTransferArrival {o} (h : MemoryOk s) : OutOk (execTransferArrival o s) := by
  refine outOk_next ?_
  split
  · split
    · exact memoryOk_arrival h
    · exact memoryOk_arrival h
    · exact h
  · exact h

theorem outOk_execPutCompletion {o} (h : MemoryOk s) : OutOk (execPutCompletion o s) := by
  refine outOk_next ?_
  split
  · split
    · exact memoryOk_putDone h
    · exact h
  · exact h

/-! ### Chain entries -/

/-- An entry's step keeps the canonical form where what it does at its slot's head does. -/
theorem outOk_slotStep {u : Nat → FEntry → State → State} (h : MemoryOk s) (hu : ∀ k e, MemoryOk (u k e s)) :
    OutOk (slotStep u s) := by
  unfold slotStep
  split
  · exact outOk_next (hu _ _)
  · exact outOk_next h

theorem outOk_execEngineNop (h : MemoryOk s) : OutOk (execEngineNop s) := outOk_slotStep h fun _ _ => memoryOk_endEntry h

theorem outOk_execCopy {d a len} (h : MemoryOk s) : OutOk (execCopy d a len s) := outOk_slotStep h fun _ _ => memoryOk_dataStep h

theorem outOk_execFill {d pat len} (h : MemoryOk s) : OutOk (execFill d pat len s) :=
  outOk_slotStep h fun _ _ => memoryOk_dataStep h

theorem outOk_execReduce {d a b ty mode len} (h : MemoryOk s) : OutOk (execReduce d a b ty mode len s) :=
  outOk_slotStep h fun _ _ => memoryOk_dataStep h

theorem outOk_execTload {a len} (h : MemoryOk s) : OutOk (execTload a len s) := by
  refine outOk_slotStep h fun k e => ?_
  dsimp only
  split
  · exact memoryOk_endEntry h
  · exact memoryOk_endEntry h
  split
  · exact memoryOk_endEntry h
  · exact memoryOk_endEntry h

theorem outOk_execTransduce {d a start cap len} (h : MemoryOk s) : OutOk (execTransduce d a start cap len s) := by
  refine outOk_slotStep h fun k e0 => ?_
  split
  · next e => exact memoryOk_snd (memoryOk_bindFifos h) e
  next t e =>
  have h1 : MemoryOk t := memoryOk_snd (memoryOk_bindFifos h) e
  extract_lets l e'
  split
  · exact h1
  split
  · exact memoryOk_endEntry h1
  split
  · exact memoryOk_drain h1
  split
  · exact memoryOk_atEnd (memoryOk_setHead h1)
  split
  · exact memoryOk_endEntry h1
  split
  · exact memoryOk_setHead h1
  split
  · exact memoryOk_endEntry h1
  split
  next e1 t1 e2 =>
  have h2 : MemoryOk t1 := memoryOk_snd (memoryOk_transIn h1) e2
  dsimp only
  split
  · exact memoryOk_endEntry h2
  split
  · exact memoryOk_endAfter (memoryOk_give h2)
  split
  · exact memoryOk_endAfter (memoryOk_give h2)
  · exact memoryOk_setHead (memoryOk_give h2)

theorem outOk_execEngineQfence {pairs} (h : MemoryOk s) : OutOk (execEngineQfence pairs s) := by
  refine outOk_slotStep h fun k e => ?_
  split
  · exact memoryOk_endEntry h
  · exact memoryOk_ite (memoryOk_endEntry h) h

theorem outOk_execMetard {va} (h : MemoryOk s) : OutOk (execMetard va s) := outOk_slotStep h fun _ _ => memoryOk_endEntry h

/-- A page stored raw by an entry, under the keys that the entry holds. -/
theorem memoryOk_storeRawKeys {ks k page} (h : MemoryOk s) :
    MemoryOk { ({ s with keys := ks } : State).storeRaw k page with keys := s.keys } :=
  memoryOk_of_eq (memoryOk_storeRaw (s := { s with keys := ks }) k page h) rfl rfl rfl rfl

theorem outOk_execMetawr {va ce} (h : MemoryOk s) : OutOk (execMetawr va ce s) := by
  refine outOk_slotStep h fun k e => ?_
  dsimp only
  split
  · exact memoryOk_endEntry (memoryOk_setMeta _ _ h)
  split
  · exact memoryOk_endEntry h
  · exact memoryOk_endEntry (memoryOk_storeRawKeys h)

theorem outOk_execSlotbind {slot owner} (h : MemoryOk s) : OutOk (execSlotbind slot owner s) :=
  outOk_slotStep h fun _ _ => memoryOk_ite (memoryOk_endEntry h) (memoryOk_endEntry h)

theorem outOk_execFifoStall {n} (h : MemoryOk s) : OutOk (execFifoStall n s) := by
  refine outOk_next ?_
  extract_lets v stop
  have hstop : ∀ t k, MemoryOk t → MemoryOk (stop t k) := by
    intro t k ht
    cases k with
    | none => exact ht
    | some j => exact memoryOk_failHead ht
  exact memoryOk_ite h (hstop _ _ (memoryOk_ite h (hstop _ _ h)))

/-! ### Peers -/

theorem outOk_execXputqPageWaitExpiry {o} (h : MemoryOk s) : OutOk (execXputqPageWaitExpiry o s) := by
  refine outOk_next ?_
  split
  · exact memoryOk_ite h (memoryOk_retryIngress (memoryOk_endHeld h))
  · exact h

theorem outOk_execBusyRetry {o} (h : MemoryOk s) : OutOk (execBusyRetry o s) := by
  refine outOk_next ?_
  split
  · split
    · exact memoryOk_ite (memoryOk_deliver h) h
    · exact h
  · exact h

theorem outOk_execPeerResponse {o status bytes} (h : MemoryOk s) : OutOk (execPeerResponse o status bytes s) := by
  refine outOk_next ?_
  split
  · exact memoryOk_retryIngress (memoryOk_endForward h)
  split
  · split
    · exact memoryOk_ite (memoryOk_peerRespond h) h
    · exact h
  · exact h

theorem outOk_execRequestTimeout {o} (h : MemoryOk s) : OutOk (execRequestTimeout o s) := by
  refine outOk_next ?_
  split
  · exact memoryOk_retryIngress (memoryOk_endForward h)
  split
  · split
    · refine memoryOk_peerRespond ?_
      split
      · exact h
      · exact h
    · exact h
  · exact h

theorem outOk_execXputqInbound {r qword bytes} (h : MemoryOk s) : OutOk (execXputqInbound r qword bytes s) :=
  outOk_next (memoryOk_permit h (memoryOk_arriveXputq h))

theorem outOk_execStepRecordInbound {r n bytes} (h : MemoryOk s) : OutOk (execStepRecordInbound r n bytes s) :=
  outOk_next (memoryOk_permit h (memoryOk_respond (memoryOk_stepRecord h)))

theorem outOk_execPortDown {p} (h : MemoryOk s) : OutOk (execPortDown p s) := outOk_next (memoryOk_loseReplay h)

/-! ### Ranges and steps -/

theorem outOk_execSramPool {v} (h : MemoryOk s) : OutOk (execSramPool v s) :=
  outOk_next (memoryOk_ite h (memoryOk_ite h h))

theorem outOk_execSramIntake {v} (h : MemoryOk s) : OutOk (execSramIntake v s) :=
  outOk_next (memoryOk_ite h (memoryOk_ite h h))

theorem outOk_execSramLcache {v} (h : MemoryOk s) : OutOk (execSramLcache v s) :=
  outOk_next (memoryOk_ite h (memoryOk_ite h h))

theorem outOk_execPeerId {v} (h : MemoryOk s) : OutOk (execPeerId v s) := outOk_next (memoryOk_ite h h)

theorem outOk_execBoundaryDrained (h : MemoryOk s) : OutOk (execBoundaryDrained s) := by
  refine outOk_next ?_
  split
  · exact memoryOk_ite (memoryOk_readySettle (memoryOk_broadcast h)) h
  · exact h

theorem outOk_execReadyMsg {p n} (h : MemoryOk s) : OutOk (execReadyMsg p n s) :=
  outOk_next (memoryOk_ite h (memoryOk_readySettle h))

theorem outOk_execAppliedMsg {p n} (h : MemoryOk s) : OutOk (execAppliedMsg p n s) := outOk_next (memoryOk_ite h h)

theorem outOk_execStepApply (h : MemoryOk s) : OutOk (execStepApply s) := by
  refine outOk_next ?_
  split
  · next b _ => exact memoryOk_ite (memoryOk_broadcast (memoryOk_applyStep (n := b.n) h :)) h
  · exact h

theorem outOk_execBoundaryComplete (h : MemoryOk s) : OutOk (execBoundaryComplete s) := by
  refine outOk_next ?_
  split
  · exact memoryOk_ite (memoryOk_releaseSteps h) h
  · exact h

theorem outOk_execStepWatchdog (h : MemoryOk s) : OutOk (execStepWatchdog s) := by
  refine outOk_next ?_
  split
  · split
    · split
      · exact h
      · exact memoryOk_postFault _ _ h
    · exact h
  · exact h

theorem outOk_execStepCtl {v} (h : MemoryOk s) : OutOk (execStepCtl v s) :=
  outOk_next (memoryOk_lenient h (memoryOk_ite h h))

theorem outOk_execStepSpill {v} (h : MemoryOk s) : OutOk (execStepSpill v s) := outOk_next (memoryOk_lenient h h)

theorem outOk_execStepNum {v} (h : MemoryOk s) : OutOk (execStepNum v s) :=
  outOk_next (memoryOk_ite h (memoryOk_releaseSteps h))

theorem outOk_execStepDom {w v} (h : MemoryOk s) : OutOk (execStepDom w v s) := by
  refine outOk_next ?_
  extract_lets old new gone r s1
  have h1 : MemoryOk s1 := h
  split
  · exact h1
  · exact memoryOk_readySettle (foldl_keeps MemoryOk _ _ s1 h1 fun _ _ ht => memoryOk_dropMember ht)

theorem outOk_execCtileComplete {o status parts} (h : MemoryOk s) : OutOk (execCtileComplete o status parts s) := by
  refine outOk_next ?_
  split
  · split
    · exact memoryOk_ite h (memoryOk_ite (memoryOk_xferDone h) (memoryOk_ite (memoryOk_xferDone h) (memoryOk_ite h
        (memoryOk_ite (memoryOk_xferDone h) (memoryOk_ite (memoryOk_xferDone h) (memoryOk_collWrite h))))))
    · exact h
  · exact h

theorem outOk_execCollWatchdog {o p} (h : MemoryOk s) : OutOk (execCollWatchdog o p s) := by
  refine outOk_next ?_
  split
  · split
    · split
      · exact memoryOk_ite h (memoryOk_postFault _ _ h)
      · exact h
    · exact h
  · exact h

theorem outOk_execHostMemoryAccess {write off bytes} (h : MemoryOk s) : OutOk (execHostMemoryAccess write off bytes s) :=
  outOk_next (memoryOk_ite (memoryOk_freshContexts (memoryOk_sramWrite _ _ h)) h)

/-! ### Registers, paddocks and queues -/

theorem outOk_execRegisterWrite {off v} (h : MemoryOk s) : OutOk (execRegisterWrite off v s) :=
  outOk_next (memoryOk_ite (memoryOk_emptyPads (memoryOk_regWrite h)) (memoryOk_regWrite h))

theorem outOk_execPreemptCtl {pad v} (h : MemoryOk s) : OutOk (execPreemptCtl pad v s) :=
  outOk_next (memoryOk_ite h (memoryOk_preempt h))

theorem outOk_execQuantumExpiry {pad} (h : MemoryOk s) : OutOk (execQuantumExpiry pad s) := by
  refine outOk_next ?_
  split
  · exact memoryOk_ite (memoryOk_preempt h) h
  · exact h

theorem optOk_tryNop (h : MemoryOk s) : OptOk (tryNop s) := optOk_onQueue fun _ _ => optOk_put h

theorem outOk_execHqTail {q v} (h : MemoryOk s) : OutOk (execHqTail q v s) := outOk_next (memoryOk_ite h (memoryOk_writeTail h))

theorem outOk_execResume {q} (h : MemoryOk s) : OutOk (execResume q s) := outOk_next (memoryOk_ite h h)

/-! ### Translation and the debugger -/

theorem outOk_execPgResp {status page asid} (h : MemoryOk s) : OutOk (execPgResp status page asid s) :=
  outOk_next (memoryOk_ite h (memoryOk_retryPeers (memoryOk_answerPage h)))

theorem outOk_execTlbInvalComplete (h : MemoryOk s) : OutOk (execTlbInvalComplete s) := by
  refine outOk_next ?_
  split
  · exact h
  split
  · exact (memoryOk_dropEntries h :)
  · exact memoryOk_ite h h

theorem outOk_execAsidBind {asid} (h : MemoryOk s) : OutOk (execAsidBind asid s) :=
  outOk_next (memoryOk_ite h (memoryOk_ite h h))

theorem outOk_execAsidRelease {asid} (h : MemoryOk s) : OutOk (execAsidRelease asid s) := outOk_next (memoryOk_ite h h)

theorem outOk_execDbgStop (h : MemoryOk s) : OutOk (execDbgStop s) :=
  outOk_next (memoryOk_onDbgGroup h fun _ _ hx => memoryOk_dbgResult (memoryOk_setGroup _ hx h))

theorem outOk_execDbgResume (h : MemoryOk s) : OutOk (execDbgResume s) :=
  outOk_next (memoryOk_onDbgGroup h fun _ _ hx =>
    memoryOk_dbgResult (memoryOk_setGroup _ (resumeAll_scratch.symm ▸ hx) h))

theorem outOk_execDbgStep (h : MemoryOk s) : OutOk (execDbgStep s) :=
  outOk_next (memoryOk_onDbgFibre h fun _ _ _ _ hx =>
    memoryOk_dbgResult (memoryOk_setGroup _ (resumeFibre_scratch.symm ▸ hx) h))

theorem outOk_execDbgDiscard (h : MemoryOk s) : OutOk (execDbgDiscard s) :=
  outOk_next (memoryOk_onDbgGroup h fun _ _ _ =>
    memoryOk_ite (memoryOk_dbgResult (memoryOk_discard h)) (memoryOk_dbgResult h))

theorem outOk_execDbgRead (h : MemoryOk s) : OutOk (execDbgRead s) :=
  outOk_next (memoryOk_dbgAccess h fun _ _ _ _ _ => memoryOk_dbgResult h)

theorem outOk_execDbgWrite (h : MemoryOk s) : OutOk (execDbgWrite s) := by
  refine outOk_next (memoryOk_dbgAccess h fun x r f k hx => ?_)
  split
  · next e => exact memoryOk_dbgResult (optOk_dbgSet hx h _ e)
  · exact memoryOk_dbgResult h

/-! ### Cores, optics and modules -/

theorem outOk_execHeartbeatMiss {c lost} (h : MemoryOk s) : OutOk (execHeartbeatMiss c lost s) :=
  outOk_next (memoryOk_ite h (memoryOk_ite (memoryOk_haltCore h) h))

theorem outOk_execWlFail {e ingress wl m delay} (h : MemoryOk s) : OutOk (execWlFail e ingress wl m delay s) :=
  outOk_next (memoryOk_ite h (memoryOk_postOptical (memoryOk_setOptDir h)))

theorem outOk_execWlDrop {e ingress wl m delay} (h : MemoryOk s) : OutOk (execWlDrop e ingress wl m delay s) := by
  refine outOk_next (memoryOk_ite h ?_)
  have h1 : ∀ d k dl, MemoryOk ((s.setOptDir e ingress d).postOptical 0x02 m 0 wl ingress k dl) := fun _ _ _ =>
    memoryOk_postOptical (memoryOk_setOptDir h)
  exact memoryOk_ite (memoryOk_dirDown (h1 _ _ _)) (h1 _ _ _)

theorem outOk_execLaserAge {u} (h : MemoryOk s) : OutOk (execLaserAge u s) :=
  outOk_next (memoryOk_ite (memoryOk_postOptical h) h)

theorem outOk_execRetrain {e ingress m delay} (h : MemoryOk s) : OutOk (execRetrain e ingress m delay s) :=
  outOk_next (memoryOk_ite (memoryOk_retrainDir h) h)

theorem outOk_execLaneSpare {e ingress wl m} (h : MemoryOk s) : OutOk (execLaneSpare e ingress wl m s) :=
  outOk_next (memoryOk_ite h (memoryOk_postOptical (memoryOk_setOptDir h)))

theorem outOk_execSourceLost {u delay} (h : MemoryOk s) : OutOk (execSourceLost u delay s) :=
  outOk_next (memoryOk_ite h (foldl_keeps MemoryOk _ _ _ (memoryOk_postOptical h) fun _ _ ht => memoryOk_loseSource ht))

theorem outOk_execLinkDown {e ingress m} (h : MemoryOk s) : OutOk (execLinkDown e ingress m s) :=
  outOk_next (memoryOk_ite (memoryOk_dirDown h) h)

theorem outOk_execRetrainingComplete {e ingress ok} (h : MemoryOk s) : OutOk (execRetrainingComplete e ingress ok s) :=
  outOk_next (memoryOk_ite h (memoryOk_ite (memoryOk_setOptDir h) (memoryOk_ite
    (memoryOk_ite (memoryOk_setOptDir h) (memoryOk_dirDown (memoryOk_setOptDir h))) (memoryOk_setOptDir h))))

theorem outOk_execOeReset {e} (h : MemoryOk s) : OutOk (execOeReset e s) :=
  outOk_next (foldl_keeps MemoryOk _ _ s h fun _ _ ht => memoryOk_ite (memoryOk_setOptDir ht) ht)

theorem outOk_execLsOff {u} (h : MemoryOk s) : OutOk (execLsOff u s) := by
  refine outOk_next (memoryOk_ite h ?_)
  extract_lets s1
  have h1 : MemoryOk s1 := h
  exact memoryOk_ite h1 (foldl_keeps MemoryOk _ _ s1 h1 fun _ _ ht => memoryOk_loseSource ht)

theorem outOk_execLsOn {u} (h : MemoryOk s) : OutOk (execLsOn u s) := outOk_next (memoryOk_ite h h)

theorem memoryOk_provResult {r} (h : MemoryOk s) : MemoryOk (s.provResult r) := h

theorem outOk_execProvision {m} (h : MemoryOk s) : OutOk (execProvision m s) := by
  refine outOk_next (memoryOk_onProv h fun t ht => ?_)
  dsimp only
  split
  · exact ht
  split
  · exact ht
  split
  · exact ht
  · exact memoryOk_provResult (memoryOk_attach ht)

theorem outOk_execDrain {m} (h : MemoryOk s) : OutOk (execDrain m s) := by
  refine outOk_next (memoryOk_onProv h fun t ht => ?_)
  split
  · exact ht
  · exact ht

theorem outOk_execRelease {m} (h : MemoryOk s) : OutOk (execRelease m s) := by
  refine outOk_next (memoryOk_onProv h fun t ht => ?_)
  split
  · exact ht
  split
  · exact ht
  · exact memoryOk_provResult (memoryOk_onDirs (memoryOk_of_eq ht rfl rfl rfl rfl))

theorem outOk_execKeyLoad {slot k1 k2} (h : MemoryOk s) : OutOk (execKeyLoad slot k1 k2 s) := outOk_next (memoryOk_ite h h)

theorem outOk_execFirmwareImage {cls image version} (h : MemoryOk s) : OutOk (execFirmwareImage cls image version s) := by
  refine outOk_next (memoryOk_ite h ?_)
  cases cls with
  | commandProcessor => exact h
  | larkCore => exact h
  | controlSequencer => exact h
  | managementCore => exact memoryOk_ite h h

theorem outOk_execSpdmRequest {index} (h : MemoryOk s) : OutOk (execSpdmRequest index s) := by
  refine outOk_next ?_
  split
  · exact h
  · exact h

theorem outOk_execPowerCapCrossing {watts} (h : MemoryOk s) : OutOk (execPowerCapCrossing watts s) :=
  outOk_next (memoryOk_ite h h)

theorem outOk_execThermalTrip (h : MemoryOk s) : OutOk (execThermalTrip s) :=
  outOk_next (memoryOk_ite h (memoryOk_enterSafe (foldl_keeps MemoryOk _ _ s h fun _ _ ht => memoryOk_haltCore ht)))

theorem outOk_execReset (h : MemoryOk s) : OutOk (execReset s) := by
  refine outOk_next ?_
  split
  · exact memoryOk_kept h
  next code unit _ =>
  exact memoryOk_of_eq (memoryOk_enterSafe (unit := unit) (code := code) (memoryOk_kept h)) rfl rfl rfl rfl

end Sys2Proof.Proofs
end

section
/-! SUPPORT. The step keeps the canonical form of the memories (R157, R160, R225, R231): the instruction set as a whole, and
the obligation that states it. -/

namespace Sys2Proof.Proofs

open Sys2Proof Sys2Proof.Machine Sys2Proof.Safety Sys2Proof.Laws

/-- Whatever an instruction does, it keeps the canonical form. -/
theorem outOk_exec {s : State} (i : Instr) (h : MemoryOk s) : OutOk (exec i s) := by
  cases i with
  | clause => exact outOk_execClause h
  | nop | yield | mov | movi | xset | xadd | sel | iadd | isub | imul | imulh | imad | idiv | irem | imin | imax | iabs |
    ineg | and | or | xor | not | andn | shl | shr | sar | rotl | popc | clz | brev | bfx | bfi | aadd | amad | icmp |
    plop | fadd | fsub | fmul | ffma | fmin | fmax | fcmp | frcp | frsq | fexp2 | flog2 | ftanh | fsin | fcos | hadd2 |
    hmul2 | hfma2 | cvt | cvtp | sysr =>
    exact outOk_laneWord h
  | bra => exact outOk_execBra h
  | brx => exact outOk_execBrx h
  | call => exact outOk_execCall h
  | ret => exact outOk_execRet h
  | jset | jdrop => exact outOk_maskWord h
  | jwait | jwaitt => exact outOk_joinWord h
  | jwaittBudgetExpiry => exact outOk_execJwaittBudgetExpiry h
  | fnew => exact outOk_execFnew h
  | fend => exact outOk_execFend h
  | bar | bara => exact outOk_arriveWord h
  | barw => exact outOk_execBarw h
  | cbar | cbarx => exact outOk_cbarWord h
  | task => exact outOk_execTask h
  | taskWaveStart => exact outOk_next (memoryOk_taskWave h)
  | fork => exact outOk_execFork h
  | rxchg | rvote | rred | claim | surr => exact outOk_rendezvousWord h
  | sheafRound => exact outOk_next (memoryOk_sheafRound h)
  | sharedUnitAccept => exact outOk_execSharedUnitAccept h
  | groupSwitchOut => exact outOk_execGroupSwitchOut h
  | xmov => exact outOk_execXmov h
  | pmov => exact outOk_execPmov h
  | sread => exact outOk_execSread h
  | claimGrant => exact outOk_execClaimGrant h
  | cvtx => exact outOk_execCvtx h
  | ld => exact outOk_execLd h
  | st => exact outOk_execSt h
  | atom | red => exact outOk_atomWord h
  | probe => exact outOk_execProbe h
  | pageRequestPost => exact outOk_next (memoryOk_postPage h)
  | countedCompletion => exact outOk_execCountedCompletion h
  | ldp => exact outOk_execLdp h
  | stp => exact outOk_execStp h
  | atomp => exact outOk_execAtomp h
  | ldc | stc => exact outOk_clusterWord h
  | bdecl => exact outOk_execBdecl h
  | bseal | bdrain | bdone => exact outOk_bufWord h
  | bufferTransitionEffect => exact outOk_next (memoryOk_settleTrans h)
  | bstat => exact outOk_execBstat h
  | vadd | vsub | vmul | vfma | vmin | vmax | vabs | vexp2 | vrcp | vrsq | vtanh | vcvt | vcpy | vfill | vsumr | vmaxr |
    vscal | vselp =>
    exact outOk_sweepWord h
  | sweepComplete => exact outOk_next (memoryOk_sweepIterate h)
  | wld | wldx => exact outOk_wldWord h
  | wswap => exact outOk_execWswap h
  | planeSwap => exact outOk_next (memoryOk_planeSwap h)
  | mma => exact outOk_execMma h
  | mmab => exact outOk_execMmab h
  | mmax => exact outOk_execMmax h
  | azero | amov => exact outOk_tileWord h
  | ald | ast => exact outOk_rowWord h
  | matrixOpPerform => exact outOk_execMatrixOpPerform h
  | qst => exact outOk_execQst h
  | qstp => exact outOk_execQstp h
  | qstTurnAccept => exact outOk_next (memoryOk_turnAccept h)
  | hdecl => exact outOk_execHdecl h
  | hsave => exact outOk_execHsave h
  | hload => exact outOk_execHload h
  | hclr => exact outOk_execHclr h
  | bankOpPerform => exact outOk_execBankOpPerform h
  | winset => exact outOk_execWinset h
  | fetch | put | redt => exact outOk_xferWord h
  | postAccept => exact outOk_next (memoryOk_postAccept h)
  | transferArrival => exact outOk_execTransferArrival h
  | putCompletion => exact outOk_execPutCompletion h
  | fatom => exact outOk_execFatom h
  | abar => exact outOk_execAbar h
  | await => exact outOk_execAwait h
  | etail => exact outOk_execEtail h
  | etailRst => exact outOk_execEtailRst h
  | eseq => exact outOk_execEseq h
  | ewait => exact outOk_execEwait h
  | engineEntryForward => exact outOk_next (memoryOk_forward h)
  | engineEntryComplete => exact outOk_next (memoryOk_entryComplete h)
  | engineChainFail => exact outOk_next (memoryOk_chainFail h)
  | engineNop => exact outOk_execEngineNop h
  | copy => exact outOk_execCopy h
  | reduce => exact outOk_execReduce h
  | fill => exact outOk_execFill h
  | tload => exact outOk_execTload h
  | transduce => exact outOk_execTransduce h
  | engineQfence => exact outOk_execEngineQfence h
  | metard => exact outOk_execMetard h
  | metawr => exact outOk_execMetawr h
  | slotbind => exact outOk_execSlotbind h
  | fifoStall => exact outOk_execFifoStall h
  | xld => exact outOk_execXld h
  | xst => exact outOk_execXst h
  | xatom => exact outOk_execXatom h
  | xputq => exact outOk_execXputq h
  | sput => exact outOk_execSput h
  | swait => exact outOk_execSwait h
  | sstat => exact outOk_execSstat h
  | ctile => exact outOk_execCtile h
  | ctileComplete => exact outOk_execCtileComplete h
  | inboundRead | inboundWrite | inboundAtomic => exact outOk_next (memoryOk_inboundDirect h)
  | inboundUnsupported => exact outOk_next (memoryOk_respond h)
  | xputqInbound => exact outOk_execXputqInbound h
  | stepRecordInbound => exact outOk_execStepRecordInbound h
  | peerResponse => exact outOk_execPeerResponse h
  | busyRetry => exact outOk_execBusyRetry h
  | requestTimeout => exact outOk_execRequestTimeout h
  | responseDiscard | hqCtl | clear | tlbInvalRange | tlbInvalAsid | tlbInvalFull | peerTmo | winReset | keyInval |
    optRing | provIgnored | pwrCap | heartbeat | portUp =>
    exact outOk_next h
  | boundaryDrained => exact outOk_execBoundaryDrained h
  | readyMsg => exact outOk_execReadyMsg h
  | stepApply => exact outOk_execStepApply h
  | appliedMsg => exact outOk_execAppliedMsg h
  | boundaryComplete => exact outOk_execBoundaryComplete h
  | stepWatchdog => exact outOk_execStepWatchdog h
  | collWatchdog => exact outOk_execCollWatchdog h
  | fence => exact outOk_execFence h
  | acq => exact outOk_execAcq h
  | rel => exact outOk_execRel h
  | bind => exact outOk_execBind h
  | unbind => exact outOk_execUnbind h
  | hintnext => exact outOk_execHintnext h
  | waitpred => exact outOk_execWaitpred h
  | qpost => exact outOk_execQpost h
  | signal => exact outOk_execSignal h
  | tfence => exact outOk_execTfence h
  | trap => exact outOk_execTrap h
  | brk => exact outOk_execBrk h
  | tret => exact outOk_execTret h
  | tmask => exact outOk_execTmask h
  | flags => exact outOk_execFlags h
  | sysw => exact outOk_execSysw h
  | groupSave => exact outOk_next (memoryOk_groupSave h)
  | groupPlace => exact outOk_next (memoryOk_groupPlace h)
  | launchStart => exact outOk_next (memoryOk_launchStart h)
  | launchComplete => exact outOk_next (memoryOk_completeLaunch h)
  | quantumExpiry => exact outOk_execQuantumExpiry h
  | packetNop => exact outOk_next (memoryOk_getD (optOk_tryNop h) h)
  | launch | launchi => exact outOk_next (memoryOk_getD (optOk_tryLaunch h) h)
  | waitseq => exact outOk_next (memoryOk_getD (optOk_tryWaitseq h) h)
  | signalPacket => exact outOk_next (memoryOk_getD (optOk_trySignal h) h)
  | loop => exact outOk_next (memoryOk_getD (optOk_tryLoop h) h)
  | endloop => exact outOk_next (memoryOk_getD (optOk_tryEndloop h) h)
  | ifmem => exact outOk_next (memoryOk_getD (optOk_tryIfmem h) h)
  | elsePacket => exact outOk_next (memoryOk_getD (optOk_tryElse h) h)
  | endifPacket => exact outOk_next (memoryOk_getD (optOk_tryEndif h) h)
  | qfence => exact outOk_next (memoryOk_getD (optOk_tryQfence h) h)
  | engcmd => exact outOk_next (memoryOk_getD (optOk_tryEngcmd h) h)
  | stepb => exact outOk_next (memoryOk_getD (optOk_tryStepb h) h)
  | halt => exact outOk_next (memoryOk_getD (optOk_tryHalt h) h)
  | hqTail => exact outOk_execHqTail h
  | resume => exact outOk_execResume h
  | pgResp => exact outOk_execPgResp h
  | tlbInvalComplete => exact outOk_execTlbInvalComplete h
  | asidBind => exact outOk_execAsidBind h
  | asidRelease => exact outOk_execAsidRelease h
  | peerId => exact outOk_execPeerId h
  | sramPool => exact outOk_execSramPool h
  | sramIntake => exact outOk_execSramIntake h
  | sramLcache => exact outOk_execSramLcache h
  | stepCtl => exact outOk_execStepCtl h
  | stepNum => exact outOk_execStepNum h
  | stepDom => exact outOk_execStepDom h
  | stepSpill => exact outOk_execStepSpill h
  | oeReset => exact outOk_execOeReset h
  | provision => exact outOk_execProvision h
  | drain => exact outOk_execDrain h
  | release => exact outOk_execRelease h
  | lsOff => exact outOk_execLsOff h
  | lsOn => exact outOk_execLsOn h
  | preemptCtl => exact outOk_execPreemptCtl h
  | dbgStop => exact outOk_execDbgStop h
  | dbgResume => exact outOk_execDbgResume h
  | dbgStep => exact outOk_execDbgStep h
  | dbgRead => exact outOk_execDbgRead h
  | dbgWrite => exact outOk_execDbgWrite h
  | dbgDiscard => exact outOk_execDbgDiscard h
  | dbgBadOperation => exact outOk_next (memoryOk_dbgResult h)
  | registerWrite => exact outOk_execRegisterWrite h
  | hostMemoryAccess => exact outOk_execHostMemoryAccess h
  | heartbeatMiss => exact outOk_execHeartbeatMiss h
  | wlFail => exact outOk_execWlFail h
  | wlDrop => exact outOk_execWlDrop h
  | laserAge => exact outOk_execLaserAge h
  | retrain => exact outOk_execRetrain h
  | laneSpare => exact outOk_execLaneSpare h
  | sourceLost => exact outOk_execSourceLost h
  | linkDown => exact outOk_execLinkDown h
  | reset => exact outOk_execReset h
  | firmwareImage => exact outOk_execFirmwareImage h
  | spdmRequest => exact outOk_execSpdmRequest h
  | keyLoad => exact outOk_execKeyLoad h
  | powerCapCrossing => exact outOk_execPowerCapCrossing h
  | thermalTrip => exact outOk_execThermalTrip h
  | retrainingComplete => exact outOk_execRetrainingComplete h
  | portDown => exact outOk_execPortDown h
  | xputqPageWaitExpiry => exact outOk_execXputqPageWaitExpiry h

theorem outOk_endOutcome {o : Out} (h : OutOk o) : OutOk (endOutcome o) := by
  cases o with
  | next t => exact outOk_next (memoryOk_endTurn (h t rfl))
  | fault f => exact fun _ e => nomatch e
  | refused r => exact fun _ e => nomatch e

/-- Settles O60: the turn that chooses a step, the instruction that the step runs and the end of the turn each keep the
canonical form. -/
theorem stepKeepsMemory : Obligations.StepKeepsMemory := by
  unfold Obligations.StepKeepsMemory Kept
  intro s t h
  have hturn : MemoryOk s.turnNext.2 := memoryOk_turnNext h
  have hstep : OutOk (step s) := by
    unfold step
    split
    · next i u e => exact outOk_endOutcome (outOk_exec i (memoryOk_snd hturn e))
    · next u e => exact outOk_next (memoryOk_endTurn (memoryOk_snd hturn e))
  exact hstep t

end Sys2Proof.Proofs
end

section
/-! SUPPORT. The issue of scratchpad accesses (R162, R163, R166, R171, R174), what they do as they are performed (R172), and
the buffer instructions and their transitions (R164, R167, R168, R175 to R177). -/

namespace Sys2Proof.Proofs

open Sys2Proof Sys2Proof.Machine Sys2Proof.Safety Sys2Proof.Laws

section

variable {s : State} {g x : Group} {f : Fibre} {h : Hdr} {d : Reg} {m : Mem} {t : Ty} {i : Instr}

/-! ### Issue -/

/-- An access that suits the extent and its buffers, and whose bytes hold no error where it reads them, is issued. -/
theorem scratchIssue_ok {sg off n taddr : Nat} {rd wr : Bool} {kind : OpKind} {dst : List Nat}
    (hf : x.scratchFault off n n wr = none) (he : rd = true → x.eccFault off n = false) :
    scratchIssue g f h s sg x off n rd wr kind dst taddr = .ok (s.addOp g f (f.counter h) kind dst sg
      (if rd then [(off, off + n)] else []) (if wr then [(off, off + n)] else [])) := by
  have clean : (rd && x.eccFault off n) = false := by
    cases rd with
    | false => rfl
    | true => exact he rfl
  simp only [scratchIssue, hf, clean, Bool.false_eq_true, if_false]

/-- A load from the member that the cluster address names. -/
theorem clusterWord_loads {id : Nat} (hi : Issues s g f h { counts := true, chks := Mem.chk m 1 ++ Reg.chk d t.regs })
    (ha : s.clusterAddr g (f.off m) (Ty.bytes t) = .inl (id, x))
    (hf : x.scratchFault (f.off m % 2 ^ 29) (Ty.bytes t) (Ty.bytes t) false = none)
    (he : x.eccFault (f.off m % 2 ^ 29) (Ty.bytes t) = false) :
    let o := f.off m % 2 ^ 29
    clusterWord i h d m t false s = .next (went s (s.addOp g f (f.counter h) (.ldp o t (f.reg d))
      (regRange (f.reg d) t.regs) id [(o, o + (Ty.bytes t))] [])) := by
  refine runWord_ok hi ?_
  simp only [ha]
  exact scratchIssue_ok hf fun _ => he

/-- A store to the member that the cluster address names. -/
theorem clusterWord_stores {id : Nat} (hi : Issues s g f h { counts := true, chks := Mem.chk m 1 ++ Reg.chk d t.regs })
    (ha : s.clusterAddr g (f.off m) (Ty.bytes t) = .inl (id, x))
    (hf : x.scratchFault (f.off m % 2 ^ 29) (Ty.bytes t) (Ty.bytes t) true = none) :
    let o := f.off m % 2 ^ 29
    clusterWord i h d m t true s = .next (went s (s.addOp g f (f.counter h)
      (.stp o (leBytes (Ty.bytes t) (f.rN (f.reg d) t.regs))) [] id [] [(o, o + (Ty.bytes t))])) := by
  refine runWord_ok hi ?_
  simp only [ha]
  exact scratchIssue_ok hf (fun e => nomatch e)

end

/-- Settles O21: each word comes to the issue of an access, on its own group or on the member that it names. -/
theorem scratchAccessesIssue : Obligations.ScratchAccessesIssue := by
  unfold Obligations.ScratchAccessesIssue
  intro s g x f h d m t op id off n o bytes dst _
  refine ⟨fun hi => ⟨?ldp, ?stp, ?ldc, ?stc⟩, ?atomp⟩
  case ldp => exact fun hf he => runWord_ok hi (scratchIssue_ok hf fun _ => he)
  case stp => exact fun hf => runWord_ok hi (scratchIssue_ok hf (fun e => nomatch e))
  case ldc => exact fun ha hf he => clusterWord_loads hi ha hf he
  case stc => exact fun ha hf => clusterWord_stores hi ha hf
  case atomp => exact fun hi hf he => runWord_ok hi (scratchIssue_ok hf fun _ => he)

/-! ### Performance -/

section

variable {s : State} {o : Op} {x : Group}

/-- What the end of an operation does to its fibre, in a group that may hold it. -/
def counted (o : Op) (z : Group) : Group := z.updFibre o.fib.f fun w => if w.inc = o.inc then w.uncount o.ctr else w

/-- The end of an operation counts it in its fibre's group. -/
theorem finish_same : (s.finish o).group? o.fib.g = (s.group? o.fib.g).map (counted o) :=
  State.group?_updGroup_same (s.dropOp o.id) o.fib.g (counted o)

/-- Counting an operation touches nothing of a group but its fibres, and them as the fibres alone say. -/
theorem counted_eq (o : Op) (z : Group) : counted o z = { z with fibres := (counted o z).fibres } := by
  unfold counted Group.updFibre
  split
  · rfl
  · rfl

/-- A write to the scratchpad leaves the fibres that an operation is counted in. -/
theorem counted_scratchWrite (off : Nat) (bs : List Byte) :
    (counted o (x.scratchWrite off bs)).fibres = (counted o x).fibres := by
  have same : (x.scratchWrite off bs).fibre? o.fib.f = x.fibre? o.fib.f := rfl
  unfold counted Group.updFibre
  rw [same]
  split
  · rfl
  · rfl

/-- A store is performed on the group it names, and completes. -/
theorem storeScratch_runs {off : Nat} {bs : List Byte} (ho : s.op? o.id = some o) (hk : o.kind = .stp off bs)
    (hh : s.scratchHeld o = false) (hx : s.group? o.sg = some x) :
    Runs (.countedCompletion o.id) s ((s.setGroup o.sg (x.scratchWrite off bs)).finish o) := by
  simpa only [State.complete, State.performScratch, hk, hh, hx, Bool.false_eq_true, if_false] using
    countedCompletion_runs ho

/-- The group of a store holds the bytes stored, and counts the operation if it is its fibre's. -/
theorem storeScratch_target {off : Nat} {bs : List Byte} :
    ((s.setGroup o.sg (x.scratchWrite off bs)).finish o).group? o.sg =
      some { x.scratchWrite off bs with fibres := (if o.fib.g = o.sg then counted o x else x).fibres } := by
  by_cases own : o.fib.g = o.sg
  · rw [if_pos own, ← counted_scratchWrite off bs, ← counted_eq, ← own, finish_same, State.group?_setGroup_same]
    rfl
  · rw [if_neg own, finish_other _ _ (Ne.symm own), State.group?_setGroup_same]
    rfl

theorem scratchStoreFrame : scratchStoreFramePart := by
  unfold scratchStoreFramePart
  intro s o x off bs ho hk hh hx hw
  have memory := finish_memory (s.setGroup o.sg (x.scratchWrite off bs)) o
  refine ⟨_, _, storeScratch_runs ho hk hh hx, storeScratch_target, ?stored, ?others, ⟨rfl, ?issuer⟩, ?groups, memory⟩
  case stored => exact fun i hi => Memory.get_write_same hw hi
  case others => exact fun a ha => Memory.get_write_other ha
  case issuer =>
    intro apart
    rw [finish_same, State.group?_setGroup_other s apart]
    rfl
  case groups =>
    intro k hs hf
    rw [finish_other _ _ hf, State.group?_setGroup_other s hs]

theorem scratchLoad : scratchLoadPart := by
  unfold scratchLoadPart
  intro s o x off d t ho hk hh hx
  have runs := countedCompletion_runs ho
  simp only [State.complete, State.performScratch, hk, hh, hx, Bool.false_eq_true, if_false] at runs
  exact runs

end

/-- Settles O22: the frame of a store, and what a load lands. -/
theorem scratchPerform : Obligations.ScratchPerform := ⟨scratchStoreFrame, scratchLoad⟩

/-! ### Buffers -/

section

variable {s : State} {g : Group} {f : Fibre} {h : Hdr} {n : BitVec 6} {i : Instr} {a b : BufState} {ev : BufEvent}

/-- The state after a buffer instruction has issued its transition, which takes effect at once where it can. -/
def issued (s : State) (n : BitVec 6) (ev : BufEvent) : State :=
  ({ (s.updGroup s.cur.g fun x =>
      ({ x with trans := x.trans ++ [(⟨s.nextId, s.cur, n, ev⟩ : Trans)] } : Group).updFibre s.cur.f fun v =>
        { v with stat := .wait (.buffer s.nextId) }) with nextId := s.nextId + 1 } : State).settleTrans s.cur.g

theorem transition_eq : s.transition n ev = .keep (issued s n ev) := rfl

/-- A buffer instruction that finds its buffer in the state it leads from issues its transition. -/
theorem bufWord_issues (hi : Issues s g f h (operandsOf (bufChk g n))) (hd : (g.bufNow n.toNat).decl = true)
    (hh : (g.bufNow n.toNat).held = false) (hab : a ≠ b) (hs : (g.bufNow n.toNat).state = a) :
    bufWord i h n a b ev s = .next (kept s (issued s n ev)) := by
  refine runWord_keep hi ?_
  simp only [hd, hh, hs, beq_iff_eq, hab, beq_self_eq_true, Bool.not_true, Bool.or_false, Bool.false_eq_true, if_false,
    if_true, transition_eq]

/-- A buffer instruction that finds its buffer in the state it leads to has no effect. -/
theorem bufWord_holds (hi : Issues s g f h (operandsOf (bufChk g n))) (hd : (g.bufNow n.toNat).decl = true)
    (hh : (g.bufNow n.toNat).held = false) (hs : (g.bufNow n.toNat).state = b) :
    bufWord i h n a b ev s = .next (after s f) := by
  have goes : bufWord i h n a b ev s = .next (went s s) := by
    refine runWord_ok hi ?_
    simp only [hd, hh, hs, beq_self_eq_true, Bool.not_true, Bool.or_false, Bool.false_eq_true, if_false, if_true]
  exact goes.trans (congrArg _ (updFibre_issues hi _))

theorem buffers : buffersPart := by
  unfold buffersPart
  intro s g f h n a b d t exp now issue
  refine ⟨fun hi => ⟨fun hz hf => runWord_keep hi ?declares, fun hz hh hs => runWord_keep hi ?undeclares⟩,
    fun hi hd hh => ⟨fun hs => ⟨?_, ?_⟩, fun hs => ⟨?_, ?_⟩, fun hs => ⟨?_, ?_⟩⟩, fun hi => ?stat⟩
  case declares =>
    simp only [hz, hf, if_false]
    rfl
  case undeclares =>
    simp only [now] at hh hs
    simp only [hz, hh, hs, Bool.false_or, bne_self_eq_false, Bool.false_eq_true, if_true, if_false]
    rfl
  case stat =>
    exact (runWord_ok hi rfl).trans (congrArg _ (went_updFibre hi _))
  · exact bufWord_issues hi hd hh (by decide) hs
  · exact bufWord_holds hi hd hh hs
  · exact bufWord_issues hi hd hh (by decide) hs
  · exact bufWord_holds hi hd hh hs
  · exact bufWord_issues hi hd hh (by decide) hs
  · exact bufWord_holds hi hd hh hs

theorem memoryEvents : memoryEventsPart := by
  unfold memoryEventsPart
  intro s g c x t m
  refine ⟨fun hg ht hr => ?effect, fun hl hm => ?page⟩
  case effect =>
    have settles : s.settleTrans g = s.applyTrans g t := by
      simp only [State.settleTrans, hg, ht, List.foldl_cons, List.foldl_nil, hr, if_true]
    exact congrArg Host.Outcome.next settles
  case page =>
    intro a k k'
    have posts : ¬ (s.core c).reqs.length ≥ 64 := Nat.not_le.2 hl
    refine congrArg Host.Outcome.next ?_
    simp only [State.postPage, posts, hm, if_false]
    rfl

end

/-- Settles O23: the buffer instructions, and the two events. -/
theorem buffersAndMemoryEvents : Obligations.BuffersAndMemoryEvents := ⟨buffers, memoryEvents⟩

end Sys2Proof.Proofs
end

section
/-! SUPPORT. The swap of the planes (R202), and the matrix operations as they are performed (R197, R199, R201, R203 to R207). -/

namespace Sys2Proof.Proofs

open Sys2Proof Sys2Proof.Machine Sys2Proof.Safety Sys2Proof.Laws

/-! ### The swap of the planes -/

section

variable {s : State} {g x : Group} {f v : Fibre} {h : Hdr} {a : Src} {k n : Nat}

/-- A WSWAP whose swap has been performed goes on. -/
theorem wswap_goesOn (hi : Issues s g f h { chks := Src.chk a 1, unit := some .matrix }) (hg : g.lr.mg = true)
    (hv : 0x8000 ≤ (BitVec.ofNat 16 (f.src .z32 a) - g.pseq).toNat) : Runs (.wswap h a) s (after s f) := by
  have goes : execWswap h a s = .next (went s s) := by
    refine runWord_ok hi ?_
    simp only [hg, ge_iff_le, hv, Bool.not_true, Bool.false_eq_true, if_false, if_true]
  exact goes.trans (congrArg _ (updFibre_issues hi _))

/-- Any other waits for its swap. -/
theorem wswap_waits (hi : Issues s g f h { chks := Src.chk a 1, unit := some .matrix }) (hg : g.lr.mg = true)
    (hv : (BitVec.ofNat 16 (f.src .z32 a) - g.pseq).toNat < 0x8000) :
    Runs (.wswap h a) s (s.updFibre s.cur fun _ =>
      { f with stat := .wait (.swap (BitVec.ofNat 16 (f.src .z32 a))), since := s.cycle, grant := none }) := by
  have waits : execWswap h a s = .next (kept s (s.updFibre s.cur fun w =>
      { w with stat := .wait (.swap (BitVec.ofNat 16 (f.src .z32 a))), since := s.cycle })) := by
    refine runWord_keep hi ?_
    simp only [hg, ge_iff_le, Nat.not_le.2 hv, Bool.not_true, Bool.false_eq_true, if_false]
  refine waits.trans (congrArg _ ?_)
  rw [kept, State.updFibre_updFibre, updFibre_issues hi]

/-- PLANE_SWAP, where no load or multiply of the group is left and the loads suit each other, swaps for the oldest WSWAP
that is due. -/
theorem planeSwap_swaps {p : Nat × Fibre} {ps : List (Nat × Fibre)} (hx : s.group? k = some x) (hc : x.core?.isSome = true)
    (ho : ∀ o ∈ s.ops, o.fib.g ≠ k) (hm : x.shadow.mixed = false)
    (hd : sortBy (fun a b : Nat × Fibre => decide (a.2.since < b.2.since))
      (x.fibres.filter fun p => p.2.stat == .wait (.swap x.pseq)) = p :: ps) :
    s.planeSwap k = s.setGroup k ((x.swap.updFibre p.1 fun f => f.advance s.cycle).releaseSwaps s.cycle) := by
  have placed : x.core?.isNone = false := by rw [← Option.not_isSome, hc]; rfl
  have idle : (s.ops.any fun o => o.fib.g == k && (o.kind.isWld || o.kind.isMma)) = false :=
    List.any_eq_false.2 fun o hmem => by simp [ho o hmem]
  simp only [State.planeSwap, hx, placed, idle, hd, hm, Bool.or_self, Bool.false_eq_true, if_false]

/-- A fibre that waits for no swap stays as it is when the swap releases others. -/
theorem fibre?_releaseSwaps_ready {c : Nat} (hf : x.fibre? n = some v) (hv : v.stat = .ready) :
    (x.releaseSwaps c).fibre? n = some v := by
  simp only [Group.releaseSwaps, fibre?_mapFibres, hf, Option.map_some, hv]

end

theorem planeSwaps : planeSwapsPart := by
  unfold planeSwapsPart
  intro s g f h a k n x v
  refine ⟨fun hi hg => ⟨wswap_goesOn hi hg, wswap_waits hi hg⟩, fun hx hc ho hm hf hv => ?swap⟩
  have due : (x.fibres.filter fun p => p.2.stat == .wait (.swap x.pseq)) = [(n, v)] := by
    simp only [hf, List.filter_cons, hv, beq_self_eq_true, if_true, List.filter_nil]
  have holds : x.swap.fibre? n = some v := by
    simp only [Group.fibre?, Group.swap, hf, Tab.find, if_true]
  have released := fibre?_releaseSwaps_ready (x := x.swap.updFibre n fun f => f.advance s.cycle) (n := n) (c := s.cycle)
    (v := v.advance s.cycle) (by rw [Group.fibre?_updFibre_same, holds]; rfl) rfl
  refine ⟨_, (x.swap.updFibre n fun f => f.advance s.cycle).releaseSwaps s.cycle,
    congrArg Host.Outcome.next (planeSwap_swaps hx hc ho hm (by rw [due]; rfl)), State.group?_setGroup_same .., ?_, ?_, ?_,
    released⟩
  all_goals simp [Group.releaseSwaps, Group.swap]

/-! ### The matrix operations -/

section

variable {s : State} {o : Op} {x : Group} {t : BitVec 4} {off : Nat}

/-- A matrix operation that no earlier one holds back is performed. -/
theorem matrixOpPerform_runs {k : OpKind} (ho : s.op? o.id = some o) (hr : s.matrixReady o = true) (hk : o.kind = k)
    (hm : k.isMatrix = true) : Runs (.matrixOpPerform o.id) s (s.performMatrix o) := by
  change execMatrixOpPerform o.id s = _
  simp only [execMatrixOpPerform, ho, hr, hk, hm, Bool.and_self, if_true]

/-- An operation that may read an uncorrectable error does one thing without and another with one (R199). -/
theorem matrixOpPerform_reads {k : OpKind} {good bad : State} (ho : s.op? o.id = some o) (hr : s.matrixReady o = true)
    (hk : o.kind = k) (hm : k.isMatrix = true) (he : s.performMatrix o =
      if x.matrixBad (o.fib.f % 32) k then bad.dataError o s.freeAddr else good) :
    (x.matrixBad (o.fib.f % 32) k = false → Runs (.matrixOpPerform o.id) s good) ∧
    (x.matrixBad (o.fib.f % 32) k = true → Runs (.matrixOpPerform o.id) s (bad.dataError o s.freeAddr)) := by
  have runs := matrixOpPerform_runs ho hr hk hm
  rw [he] at runs
  exact ⟨fun hb => by simpa only [hb, Bool.false_eq_true, if_false] using runs,
    fun hb => by simpa only [hb, if_true] using runs⟩

/-- A multiply leaves the row of R203 to R205 with its flags. -/
theorem performMatrix_mma {ty : Ty} {kb q : Nat} {sc : Option (Dword × Nat)} (hx : s.group? o.fib.g = some x)
    (hk : o.kind = .mma t off ty kb q sc) : s.performMatrix o =
      let l := o.fib.f % 32
      let r := mmaRow x t.toNat l off ty kb q sc
      if x.matrixBad l (.mma t off ty kb q sc) then
        ((s.setGroup o.fib.g (x.putRow t.toNat l badRow)).land o 0 0 0 0#7).dataError o s.freeAddr
      else (s.setGroup o.fib.g (x.putRow t.toNat l r.1)).land o 0 0 0 r.2 := by
  simp only [State.performMatrix, hx, hk]
  split <;> rfl

/-- ALD moves 512 bytes of the scratchpad to a row. -/
theorem performMatrix_ald (hx : s.group? o.fib.g = some x) (hk : o.kind = .ald t off) : s.performMatrix o =
    let l := o.fib.f % 32
    if x.matrixBad l (.ald t off) then
      ((s.setGroup o.fib.g (x.putRow t.toNat l badRow)).finish o).dataError o s.freeAddr
    else (s.setGroup o.fib.g (x.putRow t.toNat l
      ((List.range 128).map fun n => BitVec.ofNat 32 (elemAt (Memory.read x.scratch off 512) 32 n)))).finish o := by
  simp only [State.performMatrix, hx, hk]
  split <;> rfl

/-- AST moves a row to the scratchpad. -/
theorem performMatrix_ast (hx : s.group? o.fib.g = some x) (hk : o.kind = .ast t off) : s.performMatrix o =
    let l := o.fib.f % 32
    if x.matrixBad l (.ast t off) then
      ((s.setGroup o.fib.g (x.scratchWrite off (badRow.flatMap fun w => leBytes 4 w.toNat))).finish o).dataError o s.freeAddr
    else (s.setGroup o.fib.g (x.scratchWrite off ((x.row t.toNat l).flatMap fun w => leBytes 4 w.toNat))).finish o := by
  simp only [State.performMatrix, hx, hk]
  split <;> rfl

/-- AMOV moves a row to another tile. -/
theorem performMatrix_amov {u : BitVec 4} (hx : s.group? o.fib.g = some x) (hk : o.kind = .amov t u) : s.performMatrix o =
    let l := o.fib.f % 32
    if x.matrixBad l (.amov t u) then
      ((s.setGroup o.fib.g (x.putRow t.toNat l badRow)).finish o).dataError o s.freeAddr
    else (s.setGroup o.fib.g (x.putRow t.toNat l (x.row u.toNat l))).finish o := by
  simp only [State.performMatrix, hx, hk]
  split <;> rfl

end

theorem matrixPerforms : matrixPerformPart := by
  unfold matrixPerformPart
  intro s o x t u off kb q ty sc sp scl rows nibs scales err ho hr hx l row nan stored runs
  refine ⟨?mma, fun hk => ?azero, ?ald, ?ast, ?amov, fun hk => ⟨?loads, ?loadsNothing⟩⟩
  case mma => exact fun hk => matrixOpPerform_reads ho hr hk rfl (performMatrix_mma hx hk)
  case azero => simpa only [State.performMatrix, hx, hk] using matrixOpPerform_runs ho hr hk rfl
  case ald => exact fun hk => matrixOpPerform_reads ho hr hk rfl (performMatrix_ald hx hk)
  case ast => exact fun hk => matrixOpPerform_reads ho hr hk rfl (performMatrix_ast hx hk)
  case amov => exact fun hk => matrixOpPerform_reads ho hr hk rfl (performMatrix_amov hx hk)
  case loads =>
    rintro rfl
    simpa only [State.performMatrix, hx, hk] using matrixOpPerform_runs ho hr hk rfl
  case loadsNothing =>
    rintro a rfl
    simpa only [State.performMatrix, hx, hk] using matrixOpPerform_runs ho hr hk rfl

/-- Settles O26: the swap of the planes, and each kind of operation as it is performed. -/
theorem matrixPerform : Obligations.MatrixPerform := ⟨planeSwaps, matrixPerforms⟩

end Sys2Proof.Proofs
end

section
/-! SUPPORT. The operations of the quantising store as they are performed, and the turn of a held store (R199, R211, R216 to
R222). -/

namespace Sys2Proof.Proofs

open Sys2Proof Sys2Proof.Machine Sys2Proof.Safety Sys2Proof.Laws

/-! ### Entries that hold an error -/

/-- Each of the entries that are cleared reads as zero, as does one that held zero before. -/
theorem get_foldl_clear {js : List Nat} {j : Nat} {t : Tab Word} (ht : Tab.wf 0#32 t = true)
    (hj : j ∈ js ∨ Tab.get 0#32 t j = 0#32) :
    Tab.get 0#32 (js.foldl (fun t j => Tab.set 0#32 j 0#32 t) t) j = 0#32 := by
  induction js generalizing t with
  | nil => exact hj.resolve_left List.not_mem_nil
  | cons i js ih =>
    refine ih (Tab.wf_set _ i _ ht) ?_
    by_cases hi : j = i
    · subst hi
      exact .inr (Tab.get_set_same _ j _ ht)
    · rw [Tab.get_set_other _ hi]
      exact hj.imp_left fun hm => (List.mem_cons.1 hm).resolve_left hi

/-- An entry that is read and holds an error reads as +0.0, and is mended (R211). -/
theorem sound_mends {b : Bank} {used : List Nat} {j : Nat} (hb : Tab.wf 0#32 b.ent = true) (hu : j ∈ used) (he : j ∈ b.err) :
    Tab.get 0#32 (b.sound used).ent j = 0#32 ∧ j ∉ (b.sound used).err := by
  refine ⟨get_foldl_clear hb (.inl ?cleared), ?mended⟩
  case cleared => exact List.mem_filter.2 ⟨hu, List.contains_iff_mem.2 he⟩
  case mended =>
    intro hm
    have left := (List.mem_filter.1 hm).2
    simp [hu] at left

/-! ### The operations and the turn -/

section

variable {s : State} {o : Op} {x : Group}

/-- An operation of the quantising store that no earlier one holds back is performed. -/
theorem bankOpPerform_runs {k : OpKind} (ho : s.op? o.id = some o) (hr : s.bankReady o = true) (hk : o.kind = k)
    (hm : k.isBankOp = true) : Runs (.bankOpPerform o.id) s (s.performBank o) := by
  change execBankOpPerform o.id s = _
  simp only [execBankOpPerform, ho, hr, hk, hm, Bool.and_self, if_true]

/-- A held store whose turn has come issues again. -/
theorem qstTurnAccept_wakes {k n : Nat} {f : Fibre} {b : BitVec 3} {t : BitVec 4} (hx : s.group? k = some x)
    (hc : x.core?.isSome = true) (hf : x.fibre? n = some f) (hw : f.stat = .wait (.turn b t))
    (hj : (s.bankNow k x b).judge (n % 32) t.toNat = .go) :
    Runs (.qstTurnAccept k n) s (s.updFibre ⟨k, n⟩ fun w => w.wake s.cycle) := by
  have free : ((s.bankNow k x b).axisM && (Verdict.go == .hold)) = false := Bool.and_false _
  refine congrArg Host.Outcome.next ?_
  simp only [State.turnAccept, hx, hf, hw, hj, hc, free, Bool.not_false, Bool.and_self, if_true]

end

/-- Settles O28: each kind of operation as it is performed, what an entry with an error reads as, and the turn. -/
theorem banksPerform : Obligations.BanksPerform := by
  unfold Obligations.BanksPerform
  intro s o x t off ty rnd sat mx b v xs k n f
  refine ⟨fun ho hr hx => ?performs, qstTurnAccept_wakes⟩
  intro l used now told lost
  refine ⟨fun hb j => sound_mends hb, fun hk => ?qst, fun hk => ?qstp, fun hk => ?sets, fun hk => ?clears, fun hk => ?saves⟩
  case qst =>
    simpa only [State.performBank, hx, hk, Group.readRow, badRow, told, lost, now, used, l] using
      bankOpPerform_runs ho hr hk rfl
  case qstp => simpa only [State.performBank, hx, hk, told, lost, now, used, l] using bankOpPerform_runs ho hr hk rfl
  case sets =>
    rcases hk with hk | hk
    · simpa only [State.performBank, hx, hk] using bankOpPerform_runs ho hr hk rfl
    · simpa only [State.performBank, hx, hk] using bankOpPerform_runs ho hr hk rfl
  case clears => simpa only [State.performBank, hx, hk] using bankOpPerform_runs ho hr hk rfl
  case saves => simpa only [State.performBank, hx, hk, told, lost, now, used, l] using bankOpPerform_runs ho hr hk rfl

end Sys2Proof.Proofs
end

section
/-! SUPPORT. What the rules give the state after reset (R235, R308, R310, R318, R367, R406). -/

namespace Sys2Proof.Proofs

open Sys2Proof Sys2Proof.Machine Sys2Proof.Safety

/-- No table lists anything after reset, so that each of its reads gives its default. -/
theorem reset_memoryOk : MemoryOk State.reset := ⟨rfl, rfl, rfl, fun _ h => nomatch h⟩

/-- The block of a queue after reset. -/
theorem reset_queue (q : Nat) : State.reset.queue q = {} := rfl

/-- A queue whose EN is 0 has no packet to execute. -/
theorem reset_queueState (q : Nat) : State.reset.queueState q = .idle := by
  have notServed : State.reset.served q = false := by
    simp only [State.served, reset_queue]
    decide
  simp [State.queueState, notServed, reset_queue]

/-- Every source's quota after reset (R310). -/
theorem reset_quota (p : Nat) : State.reset.quota p = 64 := by
  change bits (64#64 : Dword).toNat 10 0 = 64
  decide

/-- Settles O55: each register, table and memory as reset leaves it. -/
theorem resetState : Obligations.ResetState := by
  unfold Obligations.ResetState
  refine ⟨rfl, rfl, rfl, rfl, rfl, rfl, rfl, reset_memoryOk, fun q => ⟨rfl, rfl, rfl, reset_queueState q⟩,
    fun _ => ⟨rfl, rfl⟩, fun _ => rfl, rfl, rfl, rfl, rfl, rfl, fun _ => rfl, reset_quota, rfl⟩

end Sys2Proof.Proofs
end

section
/-! SUPPORT. A store through a near data cache that holds no line (R243, R246): the line it fills, the bytes it lays into it,
and what the core then reads. -/

namespace Sys2Proof.Proofs

open Sys2Proof Sys2Proof.Machine Sys2Proof.Safety Sys2Proof.Laws

/-! ### Bytes laid into a line -/

section

variable {α : Type} {xs ys : List α} {i j : Nat}

theorem splice_getElem?_inside (hj : j < ys.length) (hi : i ≤ xs.length) : (splice xs i ys)[i + j]? = ys[j]? := by
  have front : (xs.take i).length = i := List.length_take_of_le hi
  rw [splice, List.append_assoc, List.getElem?_append_right (by omega), front, Nat.add_sub_cancel_left,
    List.getElem?_append_left hj]

theorem splice_getElem?_outside (hj : j < i ∨ i + ys.length ≤ j) (hi : i ≤ xs.length) :
    (splice xs i ys)[j]? = xs[j]? := by
  have front : (xs.take i).length = i := List.length_take_of_le hi
  rw [splice, List.append_assoc]
  rcases hj with hj | hj
  · rw [List.getElem?_append_left (by omega), List.getElem?_take_of_lt hj]
  · rw [List.getElem?_append_right (by omega), front, List.getElem?_append_right (by omega), List.getElem?_drop]
    congr 1
    omega

end

/-! ### The cache -/

section

variable {s : State} {c : Nat}

theorem evict_of_empty (h : (s.core c).lines = []) : s.evict c = s := by
  simp only [State.evict, h, List.getElem?_nil]

/-- The line of an offset as it is filled from the shared SRAM, clean. -/
def filled (s : State) (asid : BitVec 16) (n : Nat) : Line :=
  { asid, line := n, bytes := s.sramRead (128 * n) 128, dirty := []
    err := (s.sramErr.filter fun a => a / 128 == n).map fun a => a % 128 }

theorem fillLine_of_empty (asid : BitVec 16) (n : Nat) (h : (s.core c).lines = []) :
    s.fillLine c asid n = (filled s asid n, s.setCore c { s.core c with lines := [filled s asid n] }) := by
  simp only [State.fillLine, h, List.find?_nil, List.length_nil, Nat.zero_lt_succ, if_true, filled]

/-- A core that holds a line is not as reset leaves it, so that its table lists it. -/
theorem core_setCore_of_line {x : Core} {l : Line} (h : x.lines = [l]) : (s.setCore c x).core c = x :=
  core_setCore s c x fun he => by simp [he] at h

/-- A line with bytes laid into it at a place, dirty there, and their writer listed. -/
def stored (l : Line) (i : Nat) (bs : List Byte) (w : FRef × Nat) : Line :=
  { l with bytes := splice l.bytes i bs
           dirty := splice (if l.dirty.length = 128 then l.dirty else List.replicate 128 false) i (bs.map fun _ => true)
           err := errClear l.err i bs.length
           writers := if l.writers.contains w then l.writers else l.writers ++ [w] }

/-- A store through an empty cache leaves the core with the line it has filled, and changes nothing outside the core. -/
theorem cacheWrite_of_empty (off : Nat) (asid : BitVec 16) (bs : List Byte) (w : FRef × Nat)
    (h : (s.core c).lines = []) : s.cacheWrite c asid off bs w =
      (s.setCore c { s.core c with lines := [filled s asid (off / 128)] }).setCore c
        { s.core c with lines := [stored (filled s asid (off / 128)) (off % 128) bs w] } := by
  have held := core_setCore_of_line (s := s) (c := c)
    (x := { s.core c with lines := [filled s asid (off / 128)] }) rfl
  have found : ((filled s asid (off / 128)).asid == asid) = true := beq_self_eq_true asid
  simp only [State.cacheWrite, evict_of_empty h, fillLine_of_empty asid (off / 128) h, held, List.map_cons, List.map_nil,
    found, beq_self_eq_true, Bool.and_self, if_true, stored]

end

/-! ### What a core reads -/

section

variable {t : State} {c a : Nat} {asid : BitVec 16} {l : Line}

theorem coreByte_in_line (h : (t.core c).lines = [l]) (ha : l.asid = asid) (hl : l.line = a / 128) :
    coreByte t c asid a = (l.bytes[a % 128]?).getD 0#8 := by
  simp [coreByte, h, ha, hl]

theorem coreByte_off_line (h : (t.core c).lines = [l]) (hl : l.line ≠ a / 128) :
    coreByte t c asid a = Memory.get t.sram a := by
  simp [coreByte, h, hl]

end

/-- Settles O20: the core's one line holds the bytes stored over those of the shared SRAM, and every other byte is read
there. -/
theorem nearStoreFrame : Obligations.NearStoreFrame := by
  unfold Obligations.NearStoreFrame
  intro s t c off asid bs w hempty hfit hin ht
  have hwrite := cacheWrite_of_empty off asid bs w hempty
  rw [← ht] at hwrite
  have hlines : (t.core c).lines = [stored (filled s asid (off / 128)) (off % 128) bs w] := by
    rw [hwrite, core_setCore_of_line rfl]
  have hsram : t.sram = s.sram := by rw [hwrite]; rfl
  have hbytes : (stored (filled s asid (off / 128)) (off % 128) bs w).bytes =
    splice (s.sramRead (128 * (off / 128)) 128) (off % 128) bs := rfl
  have inside : off % 128 ≤ (s.sramRead (128 * (off / 128)) 128).length := by rw [sramRead_length]; omega
  refine ⟨hsram, by rw [hwrite]; rfl, by rw [hwrite]; rfl, fun i hi => ?stored, fun a ha hout => ?other⟩
  case stored =>
    have place : (off + i) % 128 = off % 128 + i := by omega
    have same : off / 128 = (off + i) / 128 := by omega
    rw [coreByte_in_line (asid := asid) hlines rfl same, place, hbytes, splice_getElem?_inside hi inside,
      List.getElem?_eq_getElem hi, Option.getD_some]
  case other =>
    by_cases same : off / 128 = a / 128
    · have place : 128 * (off / 128) + a % 128 = a := by omega
      rw [coreByte_in_line (asid := asid) hlines rfl same, hbytes, splice_getElem?_outside (by omega) inside,
        sramRead_get s _ _ _ (by omega) (by omega), place, Option.getD_some]
    · rw [coreByte_off_line hlines same, hsram]

end Sys2Proof.Proofs
end

section
/-! SUPPORT. Commands of system software and heartbeats (R234 to R236, R239, R389, R399): what leaves the cached translations
as they are, and what an invalidate does as it drops its entries and as it completes. -/

namespace Sys2Proof.Proofs

open Sys2Proof Sys2Proof.Machine Sys2Proof.Safety Sys2Proof.Laws

/-! ### Lines that are written back leave the cached translations -/

section

variable (s : State)

@[simp] theorem raise_tlb (v : Nat) : (s.raise v).tlb = s.tlb := by
  unfold State.raise
  split
  · rfl
  · split <;> rfl

@[simp] theorem postFault_tlb (k : Nat) (rec_ : List Dword) : (s.postFault k rec_).tlb = s.tlb := by
  unfold State.postFault
  dsimp only
  split
  · rfl
  · split
    · rfl
    · split
      · rfl
      · split
        · rfl
        · split
          · rfl
          · split
            · simp only [raise_tlb, State.sramWrite_tlb]
            · simp only [State.sramWrite_tlb]

@[simp] theorem tellWriter_tlb (r : FRef) (inc : Nat) : (s.tellWriter r inc).tlb = s.tlb := by
  unfold State.tellWriter
  split
  · rfl
  · split
    · dsimp only
      split
      · rfl
      · split
        · exact postFault_tlb _ _ _
        · rfl
    · rfl

@[simp] theorem writeBytes_tlb (l : Line) : (s.writeBytes l).tlb = s.tlb := by
  refine foldl_keeps (fun t : State => t.tlb = s.tlb) _ _ _ rfl fun t i ht => ?_
  split
  · exact ht
  · exact ht

@[simp] theorem writeLine_tlb (l : Line) : (s.writeLine l).tlb = s.tlb := by
  unfold State.writeLine
  split
  · exact writeBytes_tlb s l
  · exact foldl_keeps (fun t : State => t.tlb = s.tlb) _ _ _ (writeBytes_tlb s l)
      fun t w ht => (tellWriter_tlb t w.1 w.2).trans ht

@[simp] theorem flushLines_tlb (c : Nat) (drop : Bool) (p : Line → Bool) : (s.flushLines c drop p).tlb = s.tlb :=
  foldl_keeps (fun t : State => t.tlb = s.tlb) State.writeLine _ s rfl fun t l ht => (writeLine_tlb t l).trans ht

@[simp] theorem dropAllLines_tlb : s.dropAllLines.tlb = s.tlb :=
  foldl_keeps (fun t : State => t.tlb = s.tlb) _ _ s rfl fun t c ht => (flushLines_tlb t c true _).trans ht

end

/-! ### Invalidates -/

section

variable {s : State} {v : Inval} {rest : List Inval}

/-- An invalidate, of one ASID or full, drops the translations that it covers and no others. -/
theorem dropEntries_tlb (s : State) (v : Inval) : (s.dropEntries v).2.tlb = s.tlb.filter fun e => !v.covers e := by
  unfold State.dropEntries
  cases v.full
  · rfl
  · simp only [State.dropTlb, dropAllLines_tlb, if_true]

theorem tlbInvalComplete_drops (h : s.invals = v :: rest) (hd : v.dropped = false) :
    Runs .tlbInvalComplete s { (s.dropEntries v).2 with invals := (s.dropEntries v).1 :: rest } := by
  change execTlbInvalComplete s = _
  simp only [execTlbInvalComplete, h, hd, Bool.not_false, if_true]

/-- Every ASID whose GEN is 255 counts as flushed. -/
def flushAll (l : Tab AsidState) : Tab AsidState :=
  l.map fun p => (p.1, if p.2.gen = 255#8 then { p.2 with flushed := true } else p.2)

theorem flushed_of_mem_flushAll {l : Tab AsidState} {q : Nat × AsidState} (hq : q ∈ flushAll l) (hg : q.2.gen = 255#8) :
    q.2.flushed = true := by
  obtain ⟨p, -, rfl⟩ := List.mem_map.1 hq
  by_cases hp : p.2.gen = 255#8
  · simp only [hp, if_true]
  · simp only [hp, if_false] at hg

theorem tlbInvalComplete_completes (h : s.invals = v :: rest) (hd : s.invalDone v = true) :
    Runs .tlbInvalComplete s { s with
      invals := rest
      regs := { s.regs with tlbInvalDone := s.regs.tlbInvalDone + 1#64 }
      asids := if v.full then flushAll s.asids else s.asids } := by
  have dropped : v.dropped = true := by
    simp only [State.invalDone, Bool.and_eq_true] at hd
    obtain ⟨⟨⟨⟨hdropped, -⟩, -⟩, -⟩, -⟩ := hd
    exact hdropped
  change execTlbInvalComplete s = _
  simp only [execTlbInvalComplete, h, dropped, hd, Bool.not_true, Bool.false_eq_true, if_false, if_true, flushAll]

end

/-! ### Page answers -/

section

variable {s : State} {st : BitVec 2} {page : BitVec 40} {asid : BitVec 16}

theorem pgResp_answers (h : st.toNat < 2) :
    Runs (.pgResp st page asid) s (s.answerPage asid page.toNat (st == 1#2)).retryPeers :=
  congrArg Host.Outcome.next (if_neg (by omega))

theorem pgResp_ignored (h : 2 ≤ st.toNat) : Runs (.pgResp st page asid) s s := congrArg Host.Outcome.next (if_pos h)

end

/-! ### ASIDs -/

section

variable {s : State} {asid : BitVec 16}

theorem asidBind_binds (hb : (s.asid asid).bound = false) (hg : (s.asid asid).gen ≠ 255#8 ∨ (s.asid asid).flushed = true) :
    Runs (.asidBind asid) s (State.asidResult
      { s with asids := Tab.set {} asid.toNat { gen := (s.asid asid).gen + 1#8, bound := true } s.asids } asid 0#8) := by
  have usable : ¬ ((s.asid asid).gen = 255#8 ∧ ¬ (s.asid asid).flushed = true) := by
    rintro ⟨hgen, hflush⟩
    exact hg.elim (· hgen) hflush
  change execAsidBind asid s = _
  simp only [execAsidBind, if_neg usable, hb, Bool.false_eq_true, if_false]

/-- A generation of 255 that no full invalidate has followed is refused first (assumption 51). -/
theorem asidBind_exhausted (hg : (s.asid asid).gen = 255#8) (hf : (s.asid asid).flushed = false) :
    Runs (.asidBind asid) s (s.asidResult asid 1#8) := by
  change execAsidBind asid s = _
  simp only [execAsidBind, hg, hf, Bool.false_eq_true, not_false_eq_true, and_self, if_true]

theorem asidBind_bound (hb : (s.asid asid).bound = true) (hg : (s.asid asid).gen ≠ 255#8) :
    Runs (.asidBind asid) s (s.asidResult asid 2#8) := by
  change execAsidBind asid s = _
  simp only [execAsidBind, hg, hb, false_and, if_false, if_true]

theorem asidRelease_releases (hb : (s.asid asid).bound = true) (hc : 1024 ≤ s.ctxOf asid) :
    Runs (.asidRelease asid) s (State.asidResult
      { s with asids := Tab.set {} asid.toNat { s.asid asid with bound := false } s.asids } asid 0#8) := by
  have unnamed : ¬ (¬ (s.asid asid).bound = true ∨ s.ctxOf asid < 1024) := by simp [hb, hc]
  exact congrArg Host.Outcome.next (if_neg unnamed)

theorem asidRelease_unbound (hb : (s.asid asid).bound = false) : Runs (.asidRelease asid) s (s.asidResult asid 3#8) :=
  congrArg Host.Outcome.next (if_pos (.inl (by simp [hb])))

end

/-! ### Keys and heartbeats -/

section

variable {s : State} {c : Nat} {lost : Bool}

theorem keyLoad_loads {slot : BitVec 13} {k1 k2 : BitVec 256} (h : s.isSafe = false) :
    Runs (.keyLoad slot k1 k2) s { s with keys := Tab.put slot.toNat (some (k1, k2)) s.keys } := by
  change execKeyLoad slot k1 k2 s = _
  simp only [execKeyLoad, h, Bool.false_eq_true, if_false]

/-- A missed beat of a core that runs, while the management core does. -/
theorem heartbeatMiss_runs (hh : (s.core c).halted = false) (hc : c < 320) (hm : s.mgmtDown = false) :
    Runs (.heartbeatMiss c lost) s (if 2 ≤ (s.core c).missed + 1 then s.haltCore c lost
      else s.setCore c { s.core c with missed := (s.core c).missed + 1 }) := by
  have counts : ((s.core c).halted || s.mgmtDown || decide (c ≥ 320)) = false := by simp [hh, hm, hc]
  change execHeartbeatMiss c lost s = _
  simp only [execHeartbeatMiss, counts, Bool.false_eq_true, if_false]

theorem heartbeatMiss_first (hh : (s.core c).halted = false) (hc : c < 320) (hm : s.mgmtDown = false)
    (h0 : (s.core c).missed = 0) : Runs (.heartbeatMiss c lost) s (s.setCore c { s.core c with missed := 1 }) := by
  simpa [h0] using heartbeatMiss_runs (lost := lost) hh hc hm

theorem heartbeatMiss_second (hh : (s.core c).halted = false) (hc : c < 320) (hm : s.mgmtDown = false)
    (h1 : 1 ≤ (s.core c).missed) : Runs (.heartbeatMiss c lost) s (s.haltCore c lost) := by
  have := heartbeatMiss_runs (lost := lost) hh hc hm
  rwa [if_pos (by omega)] at this

end

/-- Settles O50: each command by the branch that its premise names; an invalidate first as it drops, then as it completes. -/
theorem hostCommands : Obligations.HostCommands := by
  unfold Obligations.HostCommands
  intro s st page asid count slot k1 k2 v rest c lost
  refine ⟨pgResp_answers, pgResp_ignored, ⟨rfl, rfl, rfl⟩, fun hv => ⟨fun hd => ?drops, fun hd => ?completes⟩,
    ⟨asidBind_binds, asidBind_exhausted, asidBind_bound, asidRelease_releases, asidRelease_unbound⟩, rfl, keyLoad_loads, rfl,
    fun hh hc hm => ⟨heartbeatMiss_first hh hc hm, heartbeatMiss_second hh hc hm⟩⟩
  case drops => exact ⟨_, tlbInvalComplete_drops hv hd, dropEntries_tlb s v⟩
  case completes =>
    refine ⟨_, tlbInvalComplete_completes hv hd, rfl, rfl, fun hf q hq => ?_⟩
    simp only [hf, if_true] at hq
    exact flushed_of_mem_flushAll hq

end Sys2Proof.Proofs
end

section
/-! SUPPORT. Registers of the package as a host write changes them (R231, R308, R309, R318, R320, R350, R368, R369, R393,
R406): the fields that are taken of the value, and the writes whose times the rules limit. -/

namespace Sys2Proof.Proofs

open Sys2Proof Sys2Proof.Machine Sys2Proof.Safety

/-! ### The value of a write -/

/-- A write of 8 bytes replaces the whole register (R368). -/
@[simp] theorem regTo_all (v old : Dword) : regTo ⟨none, v⟩ old = v := rfl

/-! The fields of each register, as a mask. -/

theorem mask_pool : mask 45 32 ||| mask 29 16 = 0x00003FFF3FFF0000#64 := by decide
theorem mask_base : mask 29 20 = 0x3FF00000#64 := by decide
theorem mask_peerId : errBit ||| mask 9 0 = 0x80000000000003FF#64 := by decide
theorem mask_stepCtl : errBit ||| mask 47 32 = 0x8000FFFF00000000#64 := by decide
theorem mask_spill : mask 55 0 = 0x00FFFFFFFFFFFFFF#64 := by decide
theorem mask_offset : mask 29 0 = 0x3FFFFFFF#64 := by decide
theorem mask_ptRoot : mask 35 32 ||| mask 29 0 = 0xF3FFFFFFF#64 := by decide
theorem mask_vector : mask 11 0 = 0xFFF#64 := by decide

section

variable {s : State} {v : Dword}

/-! ### Placement of the shared SRAM (R231) -/

theorem sramPool_places (hv : ∀ c, c < 1024 → s.ctxV c = false)
    (hr : rangesOk (placedRanges (true, s.placed.2) (v &&& 0x00003FFF3FFF0000#64) s.regs.sramIntake s.regs.sramLcache
      s.bankMiB) = true) :
    Runs (.sramPool ⟨none, v⟩) s { s with
      regs := { s.regs with sramPool := v &&& 0x00003FFF3FFF0000#64 }, placed := (true, s.placed.2) } := by
  have unused : (List.range 1024).any s.ctxV = false := by simpa [List.any_eq_false] using hv
  change execSramPool ⟨none, v⟩ s = _
  simp only [execSramPool, regTo_all, mask_pool, unused, hr, Bool.false_eq_true, if_false, if_true]

theorem sramIntake_places (hs : s.stepOn = false)
    (hr : rangesOk (placedRanges (s.placed.1, true, s.placed.2.2) s.regs.sramPool (v &&& 0x3FF00000#64) s.regs.sramLcache
      s.bankMiB) = true) :
    Runs (.sramIntake ⟨none, v⟩) s { s with
      regs := { s.regs with sramIntake := v &&& 0x3FF00000#64 }, placed := (s.placed.1, true, s.placed.2.2) } := by
  change execSramIntake ⟨none, v⟩ s = _
  simp only [execSramIntake, regTo_all, mask_base, hs, hr, Bool.false_eq_true, if_false, if_true]

theorem sramLcache_places (hp : s.peerValid = false) (hq : ∀ q ∈ s.queues, q.2.en = false)
    (hr : rangesOk (placedRanges (s.placed.1, s.placed.2.1, true) s.regs.sramPool s.regs.sramIntake (lcacheTaken v)
      s.bankMiB) = true) :
    Runs (.sramLcache ⟨none, v⟩) s { s with
      regs := { s.regs with sramLcache := lcacheTaken v }, placed := (s.placed.1, s.placed.2.1, true) } := by
  have disabled : (s.queues.any fun q => q.2.ctl.getLsbD 63) = false :=
    List.any_eq_false.2 fun q hm => by simpa [Queue.en] using hq q hm
  change execSramLcache ⟨none, v⟩ s = _
  simp only [execSramLcache, regTo_all, hp, disabled, hr, Bool.or_self, Bool.false_eq_true, if_false, if_true]

/-! ### Peers (R308) -/

theorem peerId_taken (h : s.peerValid = false) :
    Runs (.peerId ⟨none, v⟩) s { s with regs := { s.regs with peerId := v &&& 0x80000000000003FF#64 } } := by
  change execPeerId ⟨none, v⟩ s = _
  simp only [execPeerId, regTo_all, mask_peerId, h, Bool.false_eq_true, if_false]

theorem peerId_kept (h : s.peerValid = true) : Runs (.peerId ⟨none, v⟩) s s := congrArg Host.Outcome.next (if_pos h)

/-! ### Registers of the superstep (R318, R320) -/

/-- Between boundaries no free choice decides whether a write is taken (assumption 33). -/
theorem lenient_of_noBoundary (t : State) (h : s.boundary = none) : s.lenient s.boundary.isNone 30 t = t := by
  simp only [State.lenient, h, Option.isNone_none, Bool.true_or, if_true]

theorem low8_stepCtl (w : Dword) (n : Nat) (hn : n < 256) :
    bits ((w &&& 0x8000FFFF00000000#64) ||| dw n).toNat 7 0 = n := by
  have fits : n % 2 ^ 64 % 2 ^ 8 = n := by omega
  simp only [bits, dw, BitVec.toNat_or, BitVec.toNat_and, BitVec.toNat_ofNat, pow_zero, Nat.div_one, Nat.sub_zero,
    Nat.reduceAdd, Nat.or_mod_two_pow, Nat.and_mod_two_pow, fits]
  simp

/-- BANK as STEP_CTL takes it, from 1 to 128. -/
def bankTaken (v : Dword) : Nat := min 128 (max 1 (bits v.toNat 7 0))

theorem stepCtlTaken_eq (v : Dword) : stepCtlTaken v = (v &&& 0x8000FFFF00000000#64) ||| dw (bankTaken v) := by
  rw [stepCtlTaken, mask_stepCtl, bankTaken]

theorem bank_stepCtlTaken (v : Dword) : bits (stepCtlTaken v).toNat 7 0 = bankTaken v := by
  rw [stepCtlTaken_eq]
  exact low8_stepCtl v _ (by unfold bankTaken; omega)

/-- A write of STEP_CTL is taken where no intake has been placed, or where the one placed still fits with its BANK. -/
theorem stepCtl_taken (hb : s.boundary = none)
    (hp : s.placed.2.1 = false ∨
      rangesOk (placedRanges s.placed s.regs.sramPool s.regs.sramIntake s.regs.sramLcache (bankTaken v)) = true) :
    Runs (.stepCtl ⟨none, v⟩) s { s with
      regs := { s.regs with stepCtl := (v &&& 0x8000FFFF00000000#64) ||| dw (bankTaken v) } } := by
  have fits : (!s.placed.2.1 || rangesOk (placedRanges s.placed s.regs.sramPool s.regs.sramIntake s.regs.sramLcache
      (bankTaken v))) = true := by simpa using hp
  rw [← stepCtlTaken_eq]
  change execStepCtl ⟨none, v⟩ s = _
  simp only [execStepCtl, regTo_all, bank_stepCtlTaken, fits, if_true, lenient_of_noBoundary _ hb]

theorem stepCtl_refused (hb : s.boundary = none) (hp : s.placed.2.1 = true)
    (hr : rangesOk (placedRanges s.placed s.regs.sramPool s.regs.sramIntake s.regs.sramLcache (bankTaken v)) = false) :
    Runs (.stepCtl ⟨none, v⟩) s { s with
      regs := { s.regs with sramIntake := s.regs.sramIntake ||| 0x8000000000000000#64 } } := by
  change execStepCtl ⟨none, v⟩ s = _
  simp only [execStepCtl, regTo_all, bank_stepCtlTaken, hp, hr, Bool.not_true, Bool.or_self, Bool.false_eq_true, if_false,
    lenient_of_noBoundary _ hb, errBit]

theorem stepSpill_taken (hb : s.boundary = none) :
    Runs (.stepSpill ⟨none, v⟩) s { s with regs := { s.regs with
      stepSpill := (v &&& 0x00FFFFFFFFFFFFFF#64) ||| dw (2 ^ 59 * min 4 (bits v.toNat 63 59)) } } := by
  change execStepSpill ⟨none, v⟩ s = _
  simp only [execStepSpill, regTo_all, mask_spill, lenient_of_noBoundary _ hb]

theorem stepDom_taken (w : Nat) (hb : s.boundary = none) :
    Runs (.stepDom w ⟨none, v⟩) s { s with regs := { s.regs with stepDom := Tab.set 0#64 w v s.regs.stepDom } } := by
  change execStepDom w ⟨none, v⟩ s = _
  simp only [execStepDom, hb, regTo_all]

theorem stepNum_taken (hs : s.stepOn = false) :
    Runs (.stepNum ⟨none, v⟩) s (State.releaseSteps { s with
      regs := { s.regs with stepNum := v }, doneBelow := v.toNat, stats := [], intake := [], torn := []
      boundary := none, readyFrom := [], appliedFrom := [] }) :=
  congrArg Host.Outcome.next (if_neg (by simp [hs]))

end

/-! ### Registers with no action of their own (R350, R369) -/

section

variable {s : State} {v : Dword}

/-- A register outside CORE_PAD is written alone. -/
theorem registerWrite_runs {off : Nat} {h : HVal} (ho : inArray off 0x10000 320 = false) :
    Runs (.registerWrite off h) s (s.regWrite off h) :=
  congrArg Host.Outcome.next (if_neg (by simp [ho]))

/-- CTX_ROOT may bring records into force whose chains and bindings start afresh (assumption 29). -/
theorem ctxRoot_taken : Runs (.registerWrite 0x20 ⟨none, v⟩) s
    (s.freshContexts { s with regs := { s.regs with ctxRoot := v &&& 0x3FFFFFFF#64 } }) := by
  have written := registerWrite_runs (s := s) (off := 0x20) (h := ⟨none, v⟩) (by decide)
  simpa [State.regWrite, mask_offset] using written

theorem ptRoot_taken : Runs (.registerWrite 0x28 ⟨none, v⟩) s
    { s with regs := { s.regs with ptRoot := v &&& 0xF3FFFFFFF#64 } } := by
  have written := registerWrite_runs (s := s) (off := 0x28) (h := ⟨none, v⟩) (by decide)
  simpa [State.regWrite, mask_ptRoot] using written

theorem optVec_taken : Runs (.registerWrite 0x3020 ⟨none, v⟩) s
    { s with regs := { s.regs with optVec := v &&& 0xFFF#64 } } := by
  have written := registerWrite_runs (s := s) (off := 0x3020) (h := ⟨none, v⟩) (by decide)
  simpa [State.regWrite, inArray, mask_vector] using written

theorem optRing_taken : Runs (.optRing ⟨none, v⟩) s { s with regs := { s.regs with
    optRing := (v &&& 0x3FFFFFFF#64) ||| dw (2 ^ 32 * min 12 (max 4 (bits v.toNat 35 32))) } } := by
  rw [← mask_offset]
  rfl

/-- A host write of the shared SRAM may bring context records into force (R346, R350). -/
theorem hostWrite_runs {off : Nat} {bs : List Byte} :
    Runs (.hostMemoryAccess true off bs) s (s.freshContexts (s.sramWrite off bs)) :=
  congrArg Host.Outcome.next (if_pos rfl)

end

/-- Settles O51: each register by what it takes of the value, where its rule admits the write. -/
theorem hostRegisters : Obligations.HostRegisters := by
  unfold Obligations.HostRegisters
  intro s v w off bs hnd all set pool intake lc fits
  have lcache : lcacheTaken v = lc := by rw [lcacheTaken, mask_base]
  refine ⟨peerId_taken, peerId_kept, rfl, rfl, sramPool_places, sramIntake_places, ?lcache, fun hb => ?step, optRing_taken,
    rfl, ctxRoot_taken, ptRoot_taken, optVec_taken, rfl, hostWrite_runs⟩
  case lcache => exact lcache ▸ sramLcache_places
  case step =>
    exact ⟨⟨fun hp => stepCtl_taken hb (.inl hp), fun _ hr => stepCtl_taken hb (.inr hr), stepCtl_refused hb⟩,
      stepSpill_taken hb, stepDom_taken w hb, stepNum_taken⟩

end Sys2Proof.Proofs
end

section
/-! SUPPORT. Requests to peers as they leave, and their responses (R247, R307, R309, R310, R314, R317, R326). -/

namespace Sys2Proof.Proofs

open Sys2Proof Sys2Proof.Machine Sys2Proof.Safety Sys2Proof.Laws

/-! ### Requests that leave -/

section

variable {s : State} {o : Op} {r : PeerReq} {q : Nat}

/-- What a request that has been copied to its target's port puts there. -/
theorem deliver_out {t : State} (hv : t.peerValid = true) (hp : r.peer ≠ t.ownPeer) (hq : r.port = some q) :
    t.deliver o r = { t with outbox := t.outbox ++ [.request o.id q r] } := by
  have away : (r.peer != t.ownPeer) = true := by simpa using hp
  simp only [State.deliver, hv, away, hq, Bool.not_true, Bool.false_eq_true, if_false, if_true]

/-- A write whose payload has been copied completes at its fibre, and its operation goes on without a counter (R247). -/
theorem localDone_write {bs : List Byte} (hw : r.kind = .write bs) :
    s.localDone o r = (s.setOp { o with kind := .peer { r with sent := true, busy := false }, ctr := none
                                        nodrain := true }).onIssuer o
      fun f => (f.lateFlags o.ctr 0#7).uncount o.ctr := by
  simp only [State.localDone, hw, PeerKind.posted, State.postedFlags, if_true]

/-- Completion at the fibre leaves the registers of the package as they are. -/
theorem localDone_regs (s : State) (o : Op) (r : PeerReq) : (s.localDone o r).regs = s.regs := by
  unfold State.localDone
  split
  · exact State.updFibre_regs _ _ _
  · rfl

/-- A write that has room at the port of its peer is copied there, and leaves by it. -/
theorem peerSend_write {bs : List Byte} (hw : r.kind = .write bs) (hs : r.sent = false) (hh : s.peerHeld o r = false)
    (hv : s.peerValid = true) (hp : r.peer ≠ s.ownPeer) (hf : s.portFor r.peer = some q) (hr : r.room = some q) :
    s.peerSend o r = State.passSend ((s.localDone o { r with port := some q }).deliver o { r with port := some q }) o := by
  have away : (r.peer != s.ownPeer) = true := by simpa using hp
  have leaves : s.mayLeave r = true := by simp [State.mayLeave, hf, hr]
  have port : s.leavesBy r = some q := by simp only [State.leavesBy, hv, away, Bool.and_self, if_true, hf]
  simp only [State.peerSend, hs, hh, leaves, hw, port, hr, Option.isSome_some, Bool.not_true, Bool.or_self,
    Bool.false_eq_true, if_false, if_true]

/-- A posted write as it leaves. -/
theorem countedCompletion_write {bs : List Byte} (ho : s.op? o.id = some o) (hk : o.kind = .peer r) (hw : r.kind = .write bs)
    (hs : r.sent = false) (hh : s.peerHeld o r = false) (hv : s.peerValid = true) (hp : r.peer ≠ s.ownPeer)
    (hf : s.portFor r.peer = some q) (hr : r.room = some q) :
    let u := { r with port := some q }
    let t := (s.setOp { o with kind := .peer { u with sent := true, busy := false }, ctr := none, nodrain := true }).onIssuer
      o fun f => (f.lateFlags o.ctr 0#7).uncount o.ctr
    Runs (.countedCompletion o.id) s (State.passSend { t with outbox := t.outbox ++ [.request o.id q u] } o) := by
  intro u t
  have done : s.localDone o u = t := localDone_write hw
  have regs : t.regs = s.regs := done ▸ localDone_regs s o u
  have out : t.deliver o u = { t with outbox := t.outbox ++ [.request o.id q u] } :=
    deliver_out (by rwa [State.peerValid, regs]) (by rwa [State.ownPeer, regs]) rfl
  rw [← out, ← done, ← peerSend_write hw hs hh hv hp hf hr]
  simpa only [State.complete, hk] using countedCompletion_runs ho

/-! ### Room in a replay buffer -/

/-- A send of a core waits for room, and the buffer of port `k` has it. -/
def RoomDue (s : State) (c : Nat) (p : Op) (v : PeerReq) (k : Nat) : Prop :=
  p ∈ s.ops ∧ p.kind = .peer v ∧ p.core = c ∧ s.takesRoom v = true ∧ v.sent = false ∧ v.room = none ∧
    s.roomFor p.id v = some k

/-- Where some send has room, one that has is accepted. -/
theorem acceptSend_accepts {c : Nat} (h : ∃ p v k, RoomDue s c p v k) :
    ∃ p v k, RoomDue s c p v k ∧ s.acceptSend c = (s.setOp { p with kind := .peer { v with room := some k } }).passSend p := by
  unfold State.acceptSend
  extract_lets due
  have nonempty : due ≠ [] := by
    obtain ⟨p, v, k, hp, hk, hc, ht, hs, hr, hf⟩ := h
    refine List.ne_nil_of_mem (a := (p, { v with room := some k })) (List.mem_filterMap.2 ⟨p, hp, ?_⟩)
    simp only [hk, hc, ht, hs, hr, hf, beq_self_eq_true, Option.isNone_none, Bool.not_false, Bool.and_self, if_true,
      Option.map_some]
  obtain ⟨⟨p, u⟩, hmem, hchosen⟩ := choose_mem s 8 nonempty
  obtain ⟨o, ho, hdue⟩ := List.mem_filterMap.1 hmem
  split at hdue
  · next v hk =>
    split at hdue
    · next hw =>
      obtain ⟨k, hf, heq⟩ := Option.map_eq_some_iff.1 hdue
      obtain ⟨rfl, rfl⟩ := Prod.mk.inj heq
      simp only [Bool.and_eq_true, beq_iff_eq, Bool.not_eq_true', Option.isNone_iff_eq_none] at hw
      obtain ⟨⟨⟨hc, ht⟩, hs⟩, hr⟩ := hw
      exact ⟨o, v, k, ⟨ho, hk, hc, ht, hs, hr, hf⟩, by simp only [hchosen]⟩
    · cases hdue
  · cases hdue

end

/-- Posted writes as they leave, and sends that wait for room. -/
theorem podSends : podSendsPart := by
  intro s o r bs q c
  refine ⟨countedCompletion_write, fun hw hd => ?accepts⟩
  obtain ⟨p, v, k, hdue, haccept⟩ := acceptSend_accepts hd
  refine ⟨p, v, k, hdue, ?_⟩
  rw [← haccept]
  exact congrArg Host.Outcome.next (if_pos ⟨rfl, hw⟩)

/-! ### Responses -/

section

variable {s : State} {o : Op} {r : PeerReq} {bs : List Byte}

theorem find_fwd_none {n : Nat} (h : ∀ f ∈ s.fwds, f.id ≠ n) : (s.fwds.find? fun f => f.id == n) = none := by
  simpa [List.find?_eq_none] using h

/-- The response to a request of this package that has been sent. -/
theorem peerResponse_runs (st : BitVec 8) (bs : List Byte) (ho : s.op? o.id = some o) (hn : ∀ f ∈ s.fwds, f.id ≠ o.id)
    (hk : o.kind = .peer r) (hs : r.sent = true) : Runs (.peerResponse o.id st bs) s (s.peerRespond o r st bs) := by
  change execPeerResponse o.id st bs s = _
  simp only [execPeerResponse, find_fwd_none hn, ho, hk, hs, if_true]

/-- A request that was answered BUSY is sent again by its port, where that is up. -/
theorem busyRetry_runs (ho : s.op? o.id = some o) (hk : o.kind = .peer r) (hb : r.busy = true)
    (hp : ∀ q, r.port = some q → q ∉ s.downPorts) : Runs (.busyRetry o.id) s
      ((s.setOp { o with kind := .peer { r with busy := false } }).deliver o { r with busy := false }) := by
  have up : (r.port.all fun q => !s.downPorts.contains q) = true := by
    cases hq : r.port with
    | none => rfl
    | some q => simpa using hp q hq
  change execBusyRetry o.id s = _
  simp only [execBusyRetry, ho, hk, hb, up, Bool.and_self, if_true]

/-- A windowed request that has run out of time marks its handle failed (R309). -/
theorem requestTimeout_runs {hn : Nat} (ho : s.op? o.id = some o) (hf : ∀ f ∈ s.fwds, f.id ≠ o.id) (hk : o.kind = .peer r)
    (hh : r.handle = some hn) : Runs (.requestTimeout o.id) s
      (State.peerRespond { s with failedWin := (hn / 65536, hn % 65536) :: s.failedWin } o r stTimeout []) := by
  change execRequestTimeout o.id s = _
  simp only [execRequestTimeout, find_fwd_none hf, ho, hk, hh]

/-! What comes of a response, by the kind of its request. -/

theorem zero_ne_busy : (0#8 : BitVec 8) ≠ stBusy := by decide

theorem peerRespond_busy : s.peerRespond o r stBusy bs = (s.passSend o).setOp { o with kind := .peer { r with busy := true } } := by
  simp only [State.peerRespond, if_true]

theorem peerRespond_read {t : Ty} {d : Nat} (h : r.kind = .read t d) :
    s.peerRespond o r 0#8 bs = (s.passSend o).peerLand o d t.regs (loadValue t bs) 0#7 := by
  simp only [State.peerRespond, zero_ne_busy, h, if_false, if_true]

theorem peerRespond_atomic {op : AtomOp} {t : Ty} {x y : Dword} {d : Nat} (h : r.kind = .atomic op t x y (some d)) :
    s.peerRespond o r 0#8 bs =
      (s.passSend o).peerLand o d t.regs (leNat bs) (atomNew op t (leNat bs) x.toNat y.toNat).2 := by
  simp only [State.peerRespond, zero_ne_busy, h, if_false, if_true]

theorem peerRespond_write {ds : List Byte} (h : r.kind = .write ds) : s.peerRespond o r 0#8 bs = (s.passSend o).finish o := by
  simp only [State.peerRespond, zero_ne_busy, h, if_false, if_true]

theorem peerRespond_posted {op : AtomOp} {t : Ty} {x y : Dword} (h : r.kind = .atomic op t x y none) :
    s.peerRespond o r 0#8 bs = (s.passSend o).finish o := by
  simp only [State.peerRespond, zero_ne_busy, h, if_false, if_true]

/-- A held XPUTQ some of whose pages have not been answered ends when its time is up (R317). -/
theorem xputqPageWaitExpiry_runs {h : XHeld} (hf : s.xheld.find? (fun v => v.id == h.id) = some h) (hm : h.miss ≠ []) :
    Runs (.xputqPageWaitExpiry h.id) s (s.endHeld h stTranslation).retryIngress := by
  have waits : h.miss.isEmpty = false := by simpa using hm
  change execXputqPageWaitExpiry h.id s = _
  simp only [execXputqPageWaitExpiry, hf, waits, Bool.false_eq_true, if_false]

end

/-- Responses by the kind of their request, retries, timeouts, and ports. -/
theorem podAnswers : podAnswersPart := by
  intro s o r h bs t op x y p tag hn sp
  refine ⟨fun ho hf hk => ⟨fun hs => ?responses, busyRetry_runs ho hk, requestTimeout_runs ho hf hk⟩, rfl,
    xputqPageWaitExpiry_runs, rfl, rfl⟩
  have runs (st : BitVec 8) (ds : List Byte) := peerResponse_runs st ds ho hf hk hs
  refine ⟨fun d hr => ?read, fun d hr => ?atomic, fun ds hr => ?write, fun ds hr => ?posted, ?busy⟩
  case read => exact peerRespond_read hr ▸ runs 0#8 bs
  case atomic => exact peerRespond_atomic hr ▸ runs 0#8 bs
  case write => exact peerRespond_write hr ▸ runs 0#8 bs
  case posted => exact peerRespond_posted hr ▸ runs 0#8 ds
  case busy => exact peerRespond_busy ▸ runs stBusy bs

/-- Settles O39: the sends by the branch that lets them leave, the answers by the kind of their request. -/
theorem podResponses : Obligations.PodResponses := ⟨podSends, podAnswers⟩

end Sys2Proof.Proofs
end

section
/-! SUPPORT. FETCH, PUT and REDT as they post their transfer (R252, R257, R259, R266), the allowances of a group (R254), FATOM
as it issues (R267), and arrival barriers (R270, R271). -/

namespace Sys2Proof.Proofs

open Sys2Proof Sys2Proof.Machine Sys2Proof.Safety Sys2Proof.Laws

/-! ### Far transfers -/

section

variable {i : Instr} {s s1 t : State} {g : Group} {f : Fibre} {h : Hdr} {n : BitVec 6} {m : Mem} {ab : BitVec 4} {link : Bool}

/-- A transfer whose record has been read and passes its checks comes to its issue, which leaves its fibre waiting. -/
theorem xferWord_posts {redt : Bool} {want : BufState} {ev : BufEvent} {kind : List Nat → XferKind} {bs : List Byte}
    {x : Shape} {srcs : List Nat}
    (hi : Issues s g f h { counts := true, chks := Mem.chk m 2 ++ bufChk g n })
    (hr : s.readRecord g (f.va m) (if redt then 3 else 1) [] = .inr (bs, s1))
    (hc : xferCheck (g.bufNow n.toNat) n want redt (f.va m) bs = .inl (x, srcs))
    (ht : xferIssue g f (f.counter h) { kind := kind srcs, buf := n, ab := if link then some ab else none, shape := x } ev s1 =
      .keep t) : xferWord i h n m ab link redt want ev kind s = .next (kept s t) := by
  refine runWord_keep hi ?_
  simp only [hr, hc, ht]

end

/-- Settles O29: each is a transfer that passes its checks, of the record's one part or of three; a FETCH and a REDT write
their buffer, a PUT reads it. -/
theorem farTransfersIssue : Obligations.FarTransfersIssue := by
  unfold Obligations.FarTransfersIssue
  intro s s1 g f h n m ab link bs x srcs hi va b r posted
  refine ⟨?fetch, ?put, ?redt⟩
  case fetch => exact fun hr hc => xferWord_posts (redt := false) hi hr hc rfl
  case put => exact fun hr hc => xferWord_posts (redt := false) hi hr hc rfl
  case redt => exact fun hr hc => xferWord_posts (redt := true) hi hr hc rfl

/-! ### Allowances and FATOM -/

section

variable {s s1 : State} {g : Group} {f : Fibre} {h : Hdr} {d : Reg} {a : Src} {m : Mem} {t : Ty} {op : AtomOp} {pg : Page}
  {tier : Tier}

/-- WINSET asks for a number of allowances that no group may have. -/
theorem winset_outOfRange (hi : Issues s g f h (operandsOf (Src.chk a 1 ++ Reg.chk d 1)))
    (hn : f.src .z32 a < 1 ∨ 32 < f.src .z32 a) : Runs (.winset h d a) s (after s (f.wr d 1 2)) :=
  runWord_fibre (i := .winset h d a) hi (if_pos hn) rfl

/-- WINSET asks for more allowances than the core has left. -/
theorem winset_tooFew (hi : Issues s g f h (operandsOf (Src.chk a 1 ++ Reg.chk d 1)))
    (h1 : 1 ≤ f.src .z32 a) (h32 : f.src .z32 a ≤ 32)
    (hfree : s.freeAllowances g.coreOr0 < (f.src .z32 a : Int) - g.wa) :
    Runs (.winset h d a) s (after s (f.wr d 1 1)) :=
  runWord_fibre (i := .winset h d a) hi ((if_neg (by omega)).trans (if_pos hfree)) rfl

/-- WINSET grants what the core has. -/
theorem winset_grants (hi : Issues s g f h (operandsOf (Src.chk a 1 ++ Reg.chk d 1)))
    (h1 : 1 ≤ f.src .z32 a) (h32 : f.src .z32 a ≤ 32)
    (hfree : (f.src .z32 a : Int) - g.wa ≤ s.freeAllowances g.coreOr0) :
    Runs (.winset h d a) s (went s ((s.updGroup s.cur.g fun x => { x with wa := f.src .z32 a }).updFibre s.cur
      fun v => v.wr d 1 0)) :=
  runWord_ok (i := .winset h d a) hi ((if_neg (by omega)).trans (if_neg (Int.not_lt.2 hfree)))

/-- A FATOM that finds its page on a NEAR or a FAR tier issues at the place that the tier gives it. -/
theorem fatom_issues (hi : Issues s g f h { counts := true, chks := Mem.chk m 2 ++ Reg.chk d (op.regs t), unit := some .fatom })
    (hf : Found s g (f.va m) (Ty.bytes t) true true pg s1) (hp : pg.tier = tier) (ht : nearOrFar tier = true) :
    Runs (.fatom h d m t op) s (went s (s1.addOp g f (f.counter h)
      (.fatom (tier == .near) (if tier == .near then s1.nearOff pg (f.va m) else farAddr pg (f.va m)) pg.key (f.va m) op t
        (f.atomArgs op t d).1 (f.atomArgs op t d).2 (f.reg d))
      (regRange (f.reg d) t.regs) (used := [pg.span (f.va m)]))) := by
  subst hp
  have found : s.access g (f.va m) (Ty.bytes t) accAtomic nearOrFar = .inr (pg, s1) :=
    access_found hf (fun _ => rfl) (fun _ => rfl) ht
  refine runWord_ok (i := .fatom h d m t op) (g := g) (f := f) hi ?_
  simp only [found]

end

/-! ### Arrival barriers -/

section

variable {s : State} {g : Group} {f v : Fibre} {h : Hdr} {p ab : BitVec 4} {k cycle : Nat}

/-- AWAIT at a barrier whose count is 0 goes on. -/
theorem await_goes (hi : Issues s g f h (operandsOf [])) (hz : (g.abar ab).count = 0#16) :
    Runs (.await h p ab) s (after s (f.setP p (!(g.abar ab).fail))) :=
  runWord_fibre (i := .await h p ab) hi (if_pos hz) rfl

/-- AWAIT at a barrier that still counts waits. -/
theorem await_waits (hi : Issues s g f h (operandsOf [])) (hz : (g.abar ab).count ≠ 0#16) :
    Runs (.await h p ab) s (kept s (s.updFibre s.cur fun w => { w with stat := .wait (.abar ab p) })) :=
  runWord_keep (i := .await h p ab) hi (if_neg hz)

/-- What the release of an arrival barrier does to a fibre that waits for it. -/
theorem fibre?_releaseAbar (hv : g.fibre? k = some v) (hs : v.stat = .wait (.abar ab p)) :
    (g.releaseAbar ab cycle).fibre? k =
      some (if (g.abar ab).count = 0#16 then (v.advance cycle).setP p (!(g.abar ab).fail) else v) := by
  unfold Group.releaseAbar
  split
  · simp only [fibre?_mapFibres, hv, Option.map_some, hs, if_true]
  · exact hv

end

/-- Settles O30: WINSET by its three outcomes, FATOM by the tier of its page, and the barriers by their count. -/
theorem allowancesAndBarriers : Obligations.AllowancesAndBarriers := by
  unfold Obligations.AllowancesAndBarriers
  intro s s1 g f v h d a ab p m t op pg k cycle
  refine ⟨fun hi => ⟨winset_outOfRange hi, winset_tooFew hi, winset_grants hi⟩, fun hi => ?fatom, fun hi => ?abar,
    fun hi => ⟨await_goes hi, await_waits hi⟩, fibre?_releaseAbar⟩
  case fatom =>
    intro va _ hf x y
    exact ⟨fun hp => fatom_issues hi hf hp rfl, fun hp => fatom_issues hi hf hp rfl⟩
  case abar => exact runWord_ok (i := .abar h a ab) (w := fun _ _ => operandsOf (Src.chk a 1)) hi rfl

end Sys2Proof.Proofs
end

section
/-! SUPPORT. The words on a chain's handle (R290 to R292). -/

namespace Sys2Proof.Proofs

open Sys2Proof Sys2Proof.Machine Sys2Proof.Safety Sys2Proof.Laws

section

variable {s s1 : State} {g : Group} {f : Fibre} {h : Hdr} {d r : Reg} {a b : Src} {p : BitVec 4} {e : ChainEnt}

/-- ETAIL of no entry lands SENT as it stands. -/
theorem etail_none
    (hi : Issues s g f h { counts := true, chks := Src.chk a 1 ++ Src.chk b 1 ++ Reg.chk d 2, unit := some .engine })
    (hh : s.handle g (f.src .z32 a) = .inr (e, s1)) (hc : (s1.chain g.ctx (f.src .z32 a)).failed = false)
    (hn : f.src .z32 b = 0) :
    Runs (.etail h d a b) s (went s (s1.addOp g f (f.counter h) (.land (f.reg d) 2 (dw (s1.chain g.ctx (f.src .z32 a)).sent))
      (regRange (f.reg d) 2) (nodrain := true))) := by
  refine runWord_ok (i := .etail h d a b) hi ?_
  simp only [hh, hc, hn, Nat.not_lt_zero, gt_iff_lt, Bool.false_eq_true, if_false, if_true]

/-- ETAIL of at most 64 entries asks the chain's forwarder for them. -/
theorem etail_asks
    (hi : Issues s g f h { counts := true, chks := Src.chk a 1 ++ Src.chk b 1 ++ Reg.chk d 2, unit := some .engine })
    (hh : s.handle g (f.src .z32 a) = .inr (e, s1)) (hc : (s1.chain g.ctx (f.src .z32 a)).failed = false)
    (h1 : 1 ≤ f.src .z32 b) (h64 : f.src .z32 b ≤ 64) :
    let c := s1.chain g.ctx (f.src .z32 a)
    let s2 := s1.addOp g f (f.counter h) (.etail (f.src .z32 a) (f.reg d)) (regRange (f.reg d) 2) (nodrain := true)
    Runs (.etail h d a b) s (went s (s2.setChain g.ctx (f.src .z32 a)
      { c with fwd := c.fwd ++ [{ by_ := s2.op? s1.nextId, left := f.src .z32 b, ent := e, sent := c.sent }] })) := by
  refine runWord_ok (i := .etail h d a b) hi ?_
  simp only [hh, hc, gt_iff_lt, if_neg (Nat.not_lt.2 h64), if_neg (Nat.ne_of_gt h1), Bool.false_eq_true, if_false]

/-- ETAIL.rst of a chain with nothing to forward or to complete, or that has failed. -/
theorem etailRst_restarts
    (hi : Issues s g f h { counts := true, chks := Src.chk a 1 ++ Reg.chk r 2 ++ Reg.chk d 2, unit := some .engine })
    (hh : s.handle g (f.src .z32 a) = .inr (e, s1)) (hw : (s1.chain g.ctx (f.src .z32 a)).fwd = [])
    (hf : s1.failing e.key g.ctx (f.src .z32 a) = false)
    (hd : (s1.chain g.ctx (f.src .z32 a)).sent ≤ (s1.chain g.ctx (f.src .z32 a)).done ∨
      (s1.chain g.ctx (f.src .z32 a)).failed = true) :
    let c := s1.chain g.ctx (f.src .z32 a)
    let c' := { c with failed := false, sent := c.done, lastva := none, start := some (f.rdPair r) }
    Runs (.etailRst h d a r) s (went s (((s1.setChain g.ctx (f.src .z32 a) c').deviceWord g.ctx e.seqva c'.word).addOp g f
      (f.counter h) (.land (f.reg d) 2 (dw c.done)) (regRange (f.reg d) 2) (nodrain := true))) := by
  have settled : ¬ ((s1.chain g.ctx (f.src .z32 a)).done < (s1.chain g.ctx (f.src .z32 a)).sent ∧
      ¬ (s1.chain g.ctx (f.src .z32 a)).failed = true) :=
    fun ⟨behind, sound⟩ => hd.elim (Nat.not_le.2 behind) sound
  refine runWord_ok (i := .etailRst h d a r) hi ?_
  simp only [hh, hw, hf, List.isEmpty_nil, Bool.not_true, Bool.or_self, gt_iff_lt, settled, Bool.false_eq_true, if_false]

/-- ESEQ lands the sequence word, after an acquire. -/
theorem eseq_lands (hi : Issues s g f h { counts := true, chks := Src.chk a 1 ++ Reg.chk d 2, unit := some .engine })
    (hh : s.handle g (f.src .z32 a) = .inr (e, s1)) :
    Runs (.eseq h d a) s (went s ((s1.acquire g).addOp g f (f.counter h)
      (.land (f.reg d) 2 (s1.chain g.ctx (f.src .z32 a)).word) (regRange (f.reg d) 2))) := by
  refine runWord_ok (i := .eseq h d a) hi ?_
  simp only [hh]

/-- EWAIT goes on with its predicate true once DONE has reached the value. -/
theorem ewait_reached (hi : Issues s g f h (operandsOf (Src.chk a 1 ++ Src.chk b 2)))
    (hh : s.handle g (f.src .z32 a) = .inr (e, s1)) (hv : f.wideSrc b ≤ (s1.chain g.ctx (f.src .z32 a)).done) :
    Runs (.ewait h p a b) s (went s ((s1.acquire g).updFibre s1.cur fun w => w.setP p true)) := by
  refine runWord_ok (i := .ewait h p a b) hi ?_
  simp only [hh, ge_iff_le, hv, if_true]

/-- EWAIT goes on with its predicate false where the chain has failed before DONE reached the value. -/
theorem ewait_failed (hi : Issues s g f h (operandsOf (Src.chk a 1 ++ Src.chk b 2)))
    (hh : s.handle g (f.src .z32 a) = .inr (e, s1)) (hv : (s1.chain g.ctx (f.src .z32 a)).done < f.wideSrc b)
    (hc : (s1.chain g.ctx (f.src .z32 a)).failed = true) :
    Runs (.ewait h p a b) s (went s (s1.updFibre s1.cur fun w => w.setP p false)) := by
  refine runWord_ok (i := .ewait h p a b) hi ?_
  simp only [hh, ge_iff_le, Nat.not_le.2 hv, hc, if_false, if_true]

end

/-- Settles O32: each word by the branch that its premises name. -/
theorem chainWords : Obligations.ChainWords := by
  unfold Obligations.ChainWords
  intro s s1 g f h d r a b p e hnd hh c dst
  refine ⟨fun hi => ?etail, fun hi => etailRst_restarts hi hh,
    fun hi => eseq_lands hi hh, fun hi => ⟨ewait_reached hi hh, ewait_failed hi hh⟩⟩
  case etail =>
    intro n hc
    exact ⟨etail_none hi hh hc, etail_asks hi hh hc⟩

end Sys2Proof.Proofs
end

section
/-! SUPPORT. The entries that move no data, at the head of their slot (R284, R287, R289, R296, R301). -/

namespace Sys2Proof.Proofs

open Sys2Proof Sys2Proof.Machine Sys2Proof.Safety Sys2Proof.Laws

section

variable {s : State} {e : FEntry}

/-- NOP ends. -/
theorem engineNop_ends (he : s.headEntry s.curSlot = some e) : Runs .engineNop s (s.endEntry s.curSlot e 0#8) := by
  change execEngineNop s = _
  exact slotStep_head he

/-- METARD holds the record of the page of its operand. -/
theorem metard_ends {va : BitVec 56} (he : s.headEntry s.curSlot = some e) :
    Runs (.metard va) s (s.endEntry s.curSlot { e with meta_ := some (s.metaOf (e.addr va.toNat).1).word } 0#8) := by
  change execMetard va s = _
  exact slotStep_head he

/-- QFENCE ends once every pair has been reached, and none is in error. -/
theorem engineQfence_ends {pairs : List (BitVec 12 × BitVec 52)} (he : s.headEntry s.curSlot = some e)
    (hp : ∀ p ∈ pairs, s.fencePair s.curSlot e p = none ∧ p.2.toNat ≤ (s.chain e.ctx p.1.toNat).done) :
    Runs (.engineQfence pairs) s (s.endEntry s.curSlot e 0#8) := by
  have sound : pairs.findSome? (s.fencePair s.curSlot e) = none := List.findSome?_eq_none_iff.2 fun p hm => (hp p hm).1
  have reached : (pairs.all fun p => decide ((s.chain e.ctx p.1.toNat).done ≥ p.2.toNat)) = true :=
    List.all_eq_true.2 fun p hm => decide_eq_true (hp p hm).2
  change execEngineQfence pairs s = _
  refine (slotStep_head he).trans ?_
  simp only [sound, reached, if_true]

/-- TLOAD of an image that it can read and that R296 accepts. -/
theorem tload_ends {va : BitVec 56} {len : BitVec 32} {l : Lane} (he : s.headEntry s.curSlot = some e)
    (hn : len.toNat = 64 + 1024 * bits (leNat ((e.read s va.toNat 64).take 8)) 11 0)
    (hf : ∀ n, n = 64 ∨ n = len.toNat → e.fault s true false va.toNat n = none)
    (hl : laneImage (e.read s va.toNat len.toNat) len.toNat = some l) :
    Runs (.tload va len) s (s.endEntry s.curSlot { e with inb := len.toNat, table := some l } 0#8) := by
  have header : min 64 len.toNat = 64 := by omega
  change execTload va len s = _
  refine (slotStep_head he).trans ?_
  simp only [header, if_pos hn, hl, hf 64 (.inl rfl), hf _ (.inr rfl)]

/-- METAWR of CE 1 changes no block. -/
theorem metawr_sets {va : BitVec 56} (he : s.headEntry s.curSlot = some e) :
    Runs (.metawr va true) s ((s.setMeta (e.addr va.toNat).1 { s.metaOf (e.addr va.toNat).1 with ce := true }).endEntry
      s.curSlot e 0#8) := by
  change execMetawr va true s = _
  refine (slotStep_head he).trans ?_
  simp only [Bool.true_or, if_true]

/-- METAWR of CE from 1 to 0 stores the blocks of a sound page raw. -/
theorem metawr_storesRaw {va : BitVec 56} (he : s.headEntry s.curSlot = some e)
    (hc : (s.metaOf (e.addr va.toNat).1).ce = true)
    (hf : ({ s with keys := e.keys } : State).farFault (e.addr va.toNat).2 true true
      ((e.addr va.toNat).1 / 65536 * 65536) 65536 = none) :
    Runs (.metawr va false) s (State.endEntry { ({ s with keys := e.keys } : State).storeRaw (e.addr va.toNat).2
      ((e.addr va.toNat).1 / 65536 * 65536) with keys := s.keys } s.curSlot e 0#8) := by
  change execMetawr va false s = _
  refine (slotStep_head he).trans ?_
  simp only [hc, hf, Bool.not_true, Bool.or_self, Bool.false_eq_true, if_false]

/-- SLOTBIND gives a slot that exists, but slot 7 of unit 0, its owner. -/
theorem slotbind_binds {slot : BitVec 8} {owner : Option Owner} (he : s.headEntry s.curSlot = some e)
    (h7 : slot.toNat ≠ 7) (hs : slotExists (slot.toNat / 8) (slot.toNat % 8) = true) :
    Runs (.slotbind slot owner) s ((s.setSlot (256 * (s.curSlot / 256) + slot.toNat)
      { s.slot (256 * (s.curSlot / 256) + slot.toNat) with owner }).endEntry s.curSlot e 0#8) := by
  have bindable : ¬ (slot.toNat = 7 ∨ ¬ slotExists (slot.toNat / 8) (slot.toNat % 8) = true) :=
    not_or.2 ⟨h7, not_not.2 hs⟩
  change execSlotbind slot owner s = _
  refine (slotStep_head he).trans ?_
  simp only [if_neg bindable]

end

/-- Settles O34: each entry at the head of its slot, by the branch that its premises name. -/
theorem controlEntries : Obligations.ControlEntries := by
  unfold Obligations.ControlEntries
  intro s e pairs va len slot owner l k he a key page keyed
  exact ⟨engineNop_ends he, engineQfence_ends he, tload_ends he, metard_ends he, metawr_sets he, metawr_storesRaw he,
    slotbind_binds he⟩

end Sys2Proof.Proofs
end

section
/-! SUPPORT. The entries that move data, with operands in memory: the units in which they write (R302), and one step of
COPY, FILL and REDUCE (R293). -/

namespace Sys2Proof.Proofs

open Sys2Proof Sys2Proof.Machine Sys2Proof.Safety Sys2Proof.Laws

/-! ### Output to memory -/

section

variable {s : State} {k : Nat} {e : FEntry} {va : BitVec 56} {bs : List Byte}

/-- An entry that names no FIFO writes what fills whole units, and keeps the rest. -/
theorem give_mem (hp : e.inPlace = true) :
    let all := e.obuf ++ bs
    let stop := va.toNat + e.outb + bs.length
    let n := all.length - stop % 128
    s.give k e (.mem va) bs = ({ e with outb := e.outb + bs.length, obuf := all.drop n },
      if n = 0 then s else e.write s (stop - all.length) (all.take n)) := by
  intro all stop n
  have units : (if !e.inPlace || decide (all.length ≤ stop % 128) then 0 else all.length - stop % 128) = n := by
    simp only [hp, Bool.not_true, Bool.false_or, decide_eq_true_eq]
    split <;> omega
  simp only [State.give, ← Nat.add_assoc]
  exact units ▸ rfl

/-- An entry that names a FIFO keeps its output to memory until it completes. -/
theorem give_mem_kept (hp : e.inPlace = false) :
    s.give k e (.mem va) bs = ({ e with outb := e.outb + bs.length, obuf := e.obuf ++ bs }, s) := by
  simp [State.give, hp]

end

/-- Output to memory by whether the entry names a FIFO. -/
theorem outputUnits : outputPart := by
  intro s k e va bs all stop n
  refine ⟨fun hp => ?inPlace, give_mem_kept⟩
  case inPlace =>
    rw [give_mem hp]
    exact ⟨rfl, fun h0 => if_pos h0, fun h0 => if_neg (Nat.ne_of_gt h0)⟩

/-! ### A step of COPY, FILL or REDUCE -/

section

variable {s : State} {k : Nat} {e : FEntry} {d : EOp} {vs : List (BitVec 56)} {n : Nat}

/-- Operands in memory never bound the length of a step. -/
theorem foldl_avail_mem : (vs.map EOp.mem).foldl (fun m o => min m (s.avail k o n).1) n = n := by
  induction vs with
  | nil => rfl
  | cons v vs ih => simpa [State.avail] using ih

/-- Bytes are taken of operands in memory without a change of the state. -/
theorem foldl_take_mem (acc : List (List Byte)) {pos : Nat} :
    (vs.map EOp.mem).foldl (fun (t : List (List Byte) × State) o =>
      let (b, u) := t.2.take k e d o pos n
      (t.1 ++ [b], u)) (acc, s) =
    (acc ++ vs.map fun v => e.pending d (v.toNat + pos) (e.read s (v.toNat + pos) n), s) := by
  induction vs generalizing acc with
  | nil => simp
  | cons v vs ih => simpa [State.take] using ih (acc ++ [e.pending d (v.toNat + pos) (e.read s (v.toNat + pos) n)])

/-- A data entry with every byte made ends, unless a stream it reads goes on. -/
theorem atEnd_mem : s.atEnd k e (vs.map EOp.mem) = s.endEntry k e 0#8 := by
  cases vs with
  | nil => rfl
  | cons v vs => rfl

end

section

variable {i : Instr} {s : State} {k : Nat} {e : FEntry} {vd : BitVec 56} {vs : List (BitVec 56)} {len unit : Nat}
  {fn : Nat → List (List Byte) → List Byte × Flags}

/-- The step of an entry that has made all its bytes. -/
theorem dataStep_made (hi : entryFifos i = ([], [])) (hp : e.inPlace = true) (hw : s.entryWaits k e = false)
    (hl : len ≤ e.outb) : dataStep i (.mem vd) (vs.map EOp.mem) len unit fn k e s = s.endEntry k e 0#8 := by
  simp only [dataStep, bindFifos_none hi, hw, hp, FEntry.held, ge_iff_le, hl, Bool.not_true, Bool.and_false,
    Bool.false_eq_true, if_false, if_true, atEnd_mem]

/-- The first error of the bytes that a step reads or writes. -/
def stepFault (s : State) (e : FEntry) (vd : BitVec 56) (vs : List (BitVec 56)) (n : Nat) : Option (BitVec 8) :=
  ((vs.map EOp.mem).findSome? (e.opFault s true false e.outb n)).or (e.opFault s false true e.outb n (.mem vd))

/-- The state after a step of `n` bytes that has made the output and flags `made` from `ins` operands. -/
def dataMoved (s : State) (k : Nat) (e : FEntry) (vd : BitVec 56) (n ins : Nat) (made : List Byte × Flags) : State :=
  let r := s.give k e (.mem vd) made.1
  r.2.setHead k { r.1 with started := true, inb := e.inb + n * ins, eflags := e.eflags ||| made.2 }

/-- The step of an entry that has bytes to make: whole elements, unless it would touch bytes with an error. -/
theorem dataStep_moves (hi : entryFifos i = ([], [])) (hp : e.inPlace = true) (hw : s.entryWaits k e = false)
    (hl : e.outb < len) (hu : min 128 (len - e.outb) % unit = 0) :
    let n := min 128 (len - e.outb)
    let read := fun v : BitVec 56 => e.pending (.mem vd) (v.toNat + e.outb) (e.read s (v.toNat + e.outb) n)
    dataStep i (.mem vd) (vs.map EOp.mem) len unit fn k e s = (stepFault s e vd vs n).elim
      (dataMoved s k e vd n vs.length (fn e.outb (vs.map read))) (s.endEntry k e) := by
  intro n read
  have enough : ((vs.map EOp.mem).any fun o => decide ((s.avail k o n).1 < min unit n) && !(s.avail k o n).2) = false := by
    simp [State.avail]
  have whole : n / unit * unit = n := Nat.div_mul_cancel (Nat.dvd_of_mod_eq_zero hu)
  have more : n ≠ 0 := by omega
  have room : s.room k (.mem vd) 1 ≠ 0 := Nat.one_ne_zero
  simp only [dataStep, bindFifos_none hi, hw, hp, FEntry.held, ge_iff_le, Nat.not_le.2 hl, Bool.not_true, Bool.and_false,
    Bool.false_eq_true, if_false]
  rw [if_neg (Bool.eq_false_iff.1 enough), foldl_avail_mem, whole, if_neg more, if_neg room, foldl_take_mem]
  unfold stepFault
  split
  · next hf =>
    rw [hf]
    rfl
  · next hf =>
    rw [hf, List.length_map]
    rfl

/-- No operand holds an error in the bytes of the step. -/
theorem stepFault_none {n : Nat} (hr : ∀ v ∈ vs, e.opFault s true false e.outb n (.mem v) = none)
    (hd : e.opFault s false true e.outb n (.mem vd) = none) : stepFault s e vd vs n = none := by
  have sources : (vs.map EOp.mem).findSome? (e.opFault s true false e.outb n) = none := by
    simpa [List.findSome?_eq_none_iff] using hr
  rw [stepFault, sources, hd, Option.none_or]

end

section

variable {s t : State} {e : FEntry} {va vb vd : BitVec 56} {len : BitVec 32} {pat : Dword} {ty : Ty} {mode : EMode}

/-! The step of each entry in its slot's turn. -/

theorem copy_runs (he : s.headEntry s.curSlot = some e)
    (ht : dataStep (.copy (.mem vd) (.mem va) len) (.mem vd) ([va].map EOp.mem) len.toNat 1 (fun _ bs => (bs.headD [], 0#7))
      s.curSlot e s = t) : Runs (.copy (.mem vd) (.mem va) len) s t := by
  change execCopy (.mem vd) (.mem va) len s = _
  exact (slotStep_head he).trans (congrArg Host.Outcome.next ht)

theorem fill_runs (he : s.headEntry s.curSlot = some e)
    (ht : dataStep (.fill (.mem vd) pat len) (.mem vd) (([] : List (BitVec 56)).map EOp.mem) len.toNat 1 (fun at_ _ =>
      ((List.range (min 128 (len.toNat - at_))).map fun i => patByte pat (at_ + i), 0#7)) s.curSlot e s = t) :
    Runs (.fill (.mem vd) pat len) s t := by
  change execFill (.mem vd) pat len s = _
  exact (slotStep_head he).trans (congrArg Host.Outcome.next ht)

/-- The elements that REDUCE makes of its two operands, and their flags (R293). -/
def reduceElems (ty : Ty) (mode : EMode) (n : Nat) (x y : List Byte) : List Byte × Flags :=
  let rs := (List.range (n * 8 / ty.width)).map fun j => reduceElem ty mode (elemAt x ty.width j) (elemAt y ty.width j)
  (leBytes n (packCodes ty.width (rs.map (·.1))), mergeFlags (rs.map (·.2)))

theorem reduce_runs (he : s.headEntry s.curSlot = some e)
    (ht : dataStep (.reduce (.mem vd) (.mem va) (.mem vb) ty mode len) (.mem vd) ([va, vb].map EOp.mem) len.toNat (ty.width / 8)
      (fun _ bs => reduceElems ty mode (bs.headD []).length (bs.headD []) ((bs.drop 1).headD [])) s.curSlot e s = t) :
    Runs (.reduce (.mem vd) (.mem va) (.mem vb) ty mode len) s t := by
  change execReduce (.mem vd) (.mem va) (.mem vb) ty mode len s = _
  exact (slotStep_head he).trans (congrArg Host.Outcome.next ht)

end

end Sys2Proof.Proofs
end

section
/-! SUPPORT. One step of TRANSDUCE with operands in memory (R298), and the steps of the entries that move data. -/

namespace Sys2Proof.Proofs

open Sys2Proof Sys2Proof.Machine Sys2Proof.Safety Sys2Proof.Laws

section

variable {s : State} {e : FEntry} {va vd : BitVec 56} {start : Option (BitVec 12)} {cap len : BitVec 32}

/-- The input that TRANSDUCE has read and not dispatched, or reads next. -/
def nextInput (s : State) (e : FEntry) (vd va : BitVec 56) (len : Nat) : List Byte :=
  if e.ibuf = [] then e.pending (.mem vd) (va.toNat + e.inb) (e.read s (va.toNat + e.inb) (min 128 (len - e.inb))) else e.ibuf

theorem transIn_mem {k n : Nat} : s.transIn k e (.mem vd) (.mem va) n = ({ e with ibuf := nextInput s e vd va n }, s) := by
  unfold State.transIn nextInput
  by_cases h : e.ibuf = []
  · simp only [h, List.isEmpty_nil, Bool.not_true, Bool.false_eq_true, if_false, if_true]
    rfl
  · have ready : (!e.ibuf.isEmpty) = true := by simpa using h
    rw [if_pos ready, if_neg h]

/-- TRANSDUCE under way dispatches its next byte, where what it reads and writes holds no error. -/
theorem transduce_dispatches (he : s.headEntry s.curSlot = some e) (hw : s.entryWaits s.curSlot e = false)
    (hs : e.started = true) (hl : e.inb < len.toNat)
    (hi : e.ibuf = [] → e.opFault s true false e.inb (min 128 (len.toNat - e.inb)) (.mem va) = none) :
    let k := s.curSlot
    let ib := nextInput s e vd va len.toNat
    let r := dispatchByte (s.lane (laneOf k)) (leNat (ib.take 1)) e.inb (e.outCap (.mem vd) cap.toNat len.toNat) 8 e.st e.outb
    (r.out = [] ∨ e.opFault s false true e.outb r.out.length (.mem vd) = none) →
    let g := s.give k { e with ibuf := ib, st := r.st } (.mem vd) r.out
    let e3 := { g.1 with inb := g.1.inb + 1, ibuf := g.1.ibuf.drop 1 }
    Runs (.transduce (.mem vd) (.mem va) start cap len) s
      (r.fail.elim (if r.stop then g.2.endEntry k e3 0#8 else g.2.setHead k e3) (g.2.endEntry k g.1)) := by
  intro k ib r ho g e3
  have sound : (if e.ibuf.isEmpty then e.opFault s true false e.inb (min 128 (len.toNat - e.inb)) (.mem va) else none) =
      none := by
    simpa using hi
  have writes : (if r.out.isEmpty then none else
      ({ e with ibuf := ib } : FEntry).opFault s false true e.outb r.out.length (.mem vd)) = none := by
    rcases ho with ho | ho
    · rw [ho]; rfl
    · exact (congrArg (ite _ none) ho).trans (ite_self none)
  have bound := bindFifos_none (k := k) (s := s) (i := .transduce (.mem vd) (.mem va) start cap len) rfl
  change execTransduce (.mem vd) (.mem va) start cap len s = _
  refine (slotStep_head he).trans (congrArg Host.Outcome.next ?_)
  split
  · next hb => cases bound.symm.trans hb
  next hb =>
  cases bound.symm.trans hb
  extract_lets l begun e0
  have going : e0 = e := if_pos hs
  rw [going, if_neg (by simp [hw]), if_neg (fun h => h.1 hs), if_neg (by simp [FEntry.held]), if_neg (Nat.not_le.2 hl),
    if_neg (by simp [State.streamOver]), if_neg (by simp [State.avail, State.room]), sound, transIn_mem]
  dsimp only
  split
  · next hf => cases writes.symm.trans hf
  · split
    · next st hf =>
      rw [show r.fail = some st from hf]
      rfl
    · next hf =>
      rw [show r.fail = none from hf]
      rfl

end

/-- Each data entry by its step: it ends, meets an error, or moves what its operands give. -/
theorem dataSteps : dataStepsPart := by
  intro s e va vb vd len cap pat t mode start k he hp hw ended
  refine ⟨fun hl => ?made, fun hl => ?moves, fun hs hl => ?transduce⟩
  case made =>
    exact ⟨copy_runs he (dataStep_made rfl hp hw hl), fill_runs he (dataStep_made rfl hp hw hl),
      reduce_runs he (dataStep_made rfl hp hw hl)⟩
  case moves =>
    intro n read moved sound
    refine ⟨fun ⟨hr, hd⟩ => ?copy, fun ⟨hr, hd⟩ => ?fill, fun st hf => ?copyFails, fun st hf => ?fillFails,
      fun ⟨hr, hd⟩ _ hu hn => ?reduce⟩
    case copy =>
      refine copy_runs he ((dataStep_moves rfl hp hw hl (Nat.mod_one _)).trans ?_)
      rw [stepFault_none hr hd]
      rfl
    case fill =>
      refine fill_runs he ((dataStep_moves rfl hp hw hl (Nat.mod_one _)).trans ?_)
      rw [stepFault_none hr hd]
      rfl
    case copyFails =>
      refine copy_runs he ((dataStep_moves rfl hp hw hl (Nat.mod_one _)).trans ?_)
      have reads : stepFault s e vd [va] n = some st := by simp [stepFault, hf]
      rw [reads]
      rfl
    case fillFails =>
      refine fill_runs he ((dataStep_moves rfl hp hw hl (Nat.mod_one _)).trans ?_)
      have writes : stepFault s e vd [] n = some st := hf
      rw [writes]
      rfl
    case reduce =>
      refine reduce_runs he ((dataStep_moves rfl hp hw hl hu).trans ?_)
      rw [stepFault_none hr hd]
      exact congrArg (fun m => dataMoved s k e vd n 2 (reduceElems t mode m (read va) (read vb))) hn
  case transduce =>
    intro n hi ib r ho g e3
    have runs : Runs (.transduce (.mem vd) (.mem va) start cap len) s
        (r.fail.elim (if r.stop then g.2.endEntry k e3 0#8 else g.2.setHead k e3) (g.2.endEntry k g.1)) :=
      transduce_dispatches he hw hs hl hi ho
    refine ⟨fun st hf => ?fails, fun hf hstop => ?stops, fun hf hgo => ?goes⟩
    case fails => rwa [hf] at runs
    case stops => rwa [hf, hstop] at runs
    case goes => rwa [hf, hgo] at runs

/-- Settles O33: the units of output, and the step of each entry that moves data. -/
theorem dataEntries : Obligations.DataEntries := ⟨outputUnits, dataSteps⟩

end Sys2Proof.Proofs
end

section
/-! SUPPORT. The forwarding of entries (R285, R286, R291, R398), and how they complete, fail or stall (R287, R295, R296,
R300). -/

namespace Sys2Proof.Proofs

open Sys2Proof Sys2Proof.Machine Sys2Proof.Safety Sys2Proof.Laws

/-! ### The end of a request -/

section

variable {s : State} {ctx hnd d : Nat} {f : Fwd} {rest : List Fwd} {o : Op}

/-- A request of no fibre is dropped. -/
theorem fwdDone_drops (hc : (s.chain ctx hnd).fwd = f :: rest) (hb : f.by_ = none) :
    s.fwdDone ctx hnd = s.setChain ctx hnd { s.chain ctx hnd with fwd := rest, miss := [], absent := [] } := by
  simp only [State.fwdDone, hc, hb]

/-- A request of ETAIL lands SENT as it is dropped. -/
theorem fwdDone_lands (hc : (s.chain ctx hnd).fwd = f :: rest) (hb : f.by_ = some o) (ho : o.kind = .etail hnd d) :
    s.fwdDone ctx hnd = (s.setChain ctx hnd { s.chain ctx hnd with fwd := rest, miss := [], absent := [] }).land o d 2
      (dw f.sent).toNat 0#7 := by
  simp only [State.fwdDone, hc, hb, ho]

end

/-! ### Forwarding -/

/-- The oldest request of a chain may go on: it asks for more, the chain has not failed, and no failure of its forwarding
waits in the slot. -/
structure Forwards (s : State) (ctx hnd : Nat) (f : Fwd) (rest : List Fwd) : Prop where
  oldest : (s.chain ctx hnd).fwd = f :: rest
  asks : 1 ≤ f.left
  sound : (s.chain ctx hnd).failed = false
  clear : s.failing f.ent.key ctx hnd = false

section

variable {s s1 : State} {ctx hnd : Nat} {f : Fwd} {rest : List Fwd} {va : Dword} {raw : BitVec 384} {i : Instr}
  {ps : List EPage}

theorem Forwards.not_over (h : Forwards s ctx hnd f rest) :
    ¬ (f.left = 0 ∨ (s.chain ctx hnd).failed = true ∨ s.failing f.ent.key ctx hnd = true) := by
  obtain ⟨-, asks, sound, clear⟩ := h
  simp [sound, clear, Nat.ne_of_gt asks]

/-- While a page that forwarding has asked for is not answered, it waits. -/
theorem forward_waits (h : Forwards s ctx hnd f rest) (hm : (s.chain ctx hnd).miss ≠ []) :
    Runs (.engineEntryForward ctx hnd) s s := by
  refine congrArg Host.Outcome.next ?_
  have missing : ¬ (s.chain ctx hnd).miss.isEmpty = true := by simpa using hm
  simp only [State.forward, h.oldest, if_neg h.not_over, if_pos (Or.inl missing)]

/-- The entry as forwarding sends it. -/
def forwarded (s : State) (ctx hnd : Nat) (f : Fwd) (va : Dword) (raw : BitVec 384) : FEntry :=
  { ctx, hnd, num := (s.chain ctx hnd).sent + 1, va, raw, priv := f.ent.priv, owner := s.ownerOf ctx, by_ := f.by_
    pages := [], keys := s.keys, seqva := f.ent.seqva }

/-- Forwarding that waits for no page, with room in the slot, is not held back. -/
theorem forward_not_held (hm : (s.chain ctx hnd).miss = [])
    (hr : (s.slot f.ent.key).entries.length < 256) :
    ¬ (¬ (s.chain ctx hnd).miss.isEmpty = true ∨ (s.slot f.ent.key).entries.length ≥ 256) := by
  simp [hm, hr]

/-- An entry for a module under drain ends with TRANSPORT (R398). -/
theorem forward_drained (h : Forwards s ctx hnd f rest) (hm : (s.chain ctx hnd).miss = [])
    (hr : (s.slot f.ent.key).entries.length < 256) (hl : s.nextLink ctx (s.chain ctx hnd) f = .entry va raw s1)
    (hd : s.drainedModules.contains f.ent.module = true) : Runs (.engineEntryForward ctx hnd) s
      ((s1.enqueue f.ent.key { forwarded s ctx hnd f va raw with result := some 0x05#8, late := true }).fwdDone ctx hnd) := by
  refine congrArg Host.Outcome.next ?_
  simp only [State.forward, h.oldest, if_neg h.not_over, if_neg (forward_not_held hm hr), hl, hd, if_true]
  rfl

/-- The state after the entry `e` at `va` has gone to the end of its slot with the next number. -/
def afterSend (s t : State) (ctx hnd : Nat) (f : Fwd) (rest : List Fwd) (va : Dword) (e : FEntry) : State :=
  let c := s.chain ctx hnd
  let u := (t.enqueue f.ent.key e).setChain ctx hnd
    { c with sent := c.sent + 1, lastva := some va, miss := []
             fwd := { f with left := f.left - 1, sent := c.sent + 1 } :: rest }
  if f.left = 1 then u.fwdDone ctx hnd else u

/-- An entry that the rules of the chain allow is sent with its pages. -/
theorem forward_sends (h : Forwards s ctx hnd f rest) (hm : (s.chain ctx hnd).miss = [])
    (hr : (s.slot f.ent.key).entries.length < 256) (hl : s.nextLink ctx (s.chain ctx hnd) f = .entry va raw s1)
    (hd : s.drainedModules.contains f.ent.module = false) (hi : decodeEntry raw = some i)
    (hp : isPrivEntry i = true → f.ent.priv = true) (hu : unitAccepts f.ent.unit f.ent.slot i = true)
    (hf : ((entryFifos i).1 ++ (entryFifos i).2).Nodup)
    (ho : s1.entryPages ctx (s.chain ctx hnd) f.ent i = .pages ps) (hk : s1.linkUp f.ent.module = true)
    (hw : (s1.slot f.ent.key).owner = some (s1.ownerOf ctx)) : Runs (.engineEntryForward ctx hnd) s
      (afterSend s s1 ctx hnd f rest va { forwarded s ctx hnd f va raw with pages := ps }) := by
  have allowed : (isPrivEntry i && !f.ent.priv) = false := by
    cases hq : isPrivEntry i with
    | false => rfl
    | true => simp [hp hq]
  have accepted : (!unitAccepts f.ent.unit f.ent.slot i || !decide ((entryFifos i).1 ++ (entryFifos i).2).Nodup) = false := by
    simp [hu, hf]
  refine congrArg Host.Outcome.next ?_
  simp only [State.forward, h.oldest, if_neg h.not_over, if_neg (forward_not_held hm hr), hl, hd, hi, allowed, accepted,
    Option.getD_some, ho, hk, hw, Bool.not_true, Bool.false_eq_true, if_false, if_true]
  rfl

end

/-- Forwarding by whether its module is under drain, and the end of a request by who asked. -/
theorem forwarding : forwardPart := by
  intro s s1 ctx hnd d f rest va raw i ps o c k hc
  refine ⟨fun h1 hs hk hm hr hl => ?forwards, fun hm h1 hs hk => forward_waits ⟨hc, h1, hs, hk⟩ hm,
    fwdDone_drops hc, fwdDone_lands hc⟩
  case forwards =>
    have ready : Forwards s ctx hnd f rest := ⟨hc, h1, hs, hk⟩
    exact ⟨forward_drained ready hm hr hl, fun hd hi hp hu hf ho => forward_sends ready hm hr hl hd hi hp hu hf ho⟩

/-! ### Completion, failure and stalls -/

section

variable {s : State} {k : Nat} {e : FEntry} {rest : List FEntry}

/-- An entry that has succeeded completes as one step. -/
theorem engineEntryComplete_completes (he : (s.slot k).entries = e :: rest) (hw : s.flushWaits k e = false)
    (hr : e.result = some 0#8) (hl : s.linkUp (k / 256) = true) :
    let c' := { s.chain e.ctx e.hnd with done := e.num }
    let s1 := s.writeBackEntry e 0#8
    let s2 := e.table.elim s1 fun l => { s1 with lanes := Tab.set {} (laneOf k) l s1.lanes }
    Runs (.engineEntryComplete k) s ((((s2.setSlot k { s.slot k with entries := rest }).setChain e.ctx e.hnd c').deviceWord
      e.ctx e.seqva c'.word).leaveFifos k true) := by
  intro c' s1 s2
  have loaded : s1.loadTable k e = s2 := by
    unfold State.loadTable s2
    cases e.table with
    | none => rfl
    | some l => rfl
  refine congrArg Host.Outcome.next ?_
  simp only [State.entryComplete, he, hr, hw, hl, ne_eq, not_true_eq_false, Bool.not_true, Bool.false_eq_true, or_self,
    if_false]
  exact loaded ▸ rfl

/-- An entry that has failed fails its chain as one step. -/
theorem engineChainFail_fails {st : BitVec 8} (he : (s.slot k).entries = e :: rest) (hw : s.flushWaits k e = false)
    (hr : e.result = some st) (h0 : st ≠ 0#8) :
    let c' := { s.chain e.ctx e.hnd with failed := true }
    Runs (.engineChainFail k) s ((((((s.writeBackEntry e st).setSlot k { s.slot k with entries := rest.filter fun x =>
      !(x.ctx == e.ctx && x.hnd == e.hnd) }).setChain e.ctx e.hnd c').deviceWord e.ctx e.seqva c'.word).leaveFifos k
      false).reportEntry e st) := by
  intro c'
  refine congrArg Host.Outcome.next ?_
  simp only [State.chainFail, he, hr, hw, h0, Bool.false_eq_true, or_self, if_false]
  rfl

/-- The entry at the head of a slot fails as it would end. -/
theorem failHead_head {st : BitVec 8} (he : s.headEntry k = some e) : s.failHead k st = s.endEntry k e st := by
  unfold State.headEntry at he
  unfold State.failHead
  split at he
  · next x xs hx =>
    split at he
    · next hn =>
      cases he
      simp [hx, Option.isNone_iff_eq_none.1 hn]
    · cases he
  · cases he

/-- What ends in one slot leaves the head of another. -/
theorem headEntry_endEntry_other {j : Nat} {x : FEntry} {st : BitVec 8} (hj : j ≠ k) :
    (s.endEntry k x st).headEntry j = s.headEntry j := by
  have kept : (s.endEntry k x st).slot j = s.slot j := Tab.get_set_other _ hj _ _
  simp only [State.headEntry, kept]

/-- A stalled stream fails the entries bound to its two ends, and frees its FIFO. -/
theorem fifoStall_fails {m j1 j2 : Nat} {p q : FEntry} (hv : s.fifo m = { prod := some j1, cons := some j2 }) (hj : j1 ≠ j2)
    (hp : s.headEntry j1 = some p) (hq : s.headEntry j2 = some q) :
    Runs (.fifoStall m) s (((s.endEntry j1 p stFifoStall).endEntry j2 q stFifoStall).setFifo m {}) := by
  have consumer : (s.endEntry j1 p stFifoStall).headEntry j2 = some q := (headEntry_endEntry_other hj.symm).trans hq
  refine congrArg Host.Outcome.next ?_
  simp only [hv, Option.isNone_some, Bool.and_self, Bool.false_eq_true, if_false, failHead_head hp, failHead_head consumer]
  rfl

end

/-- The end of an entry by its status, and of a stream that stalls. -/
theorem entryEnds : entryEndsPart := by
  intro s k e p q rest st m j1 j2
  exact ⟨fun he hw => ⟨engineEntryComplete_completes he hw, engineChainFail_fails he hw⟩, fifoStall_fails⟩

/-- Settles O35: the forwarding of entries, and their ends. -/
theorem chainEvents : Obligations.ChainEvents := ⟨forwarding, entryEnds⟩

end Sys2Proof.Proofs
end

section
/-! SUPPORT. Requests of peers as they arrive: taken within the quota and turned away beyond it, and answered, held or
forwarded as R305 judges them (R304 to R306, R310, R317, R321). -/

namespace Sys2Proof.Proofs

open Sys2Proof Sys2Proof.Machine Sys2Proof.Safety Sys2Proof.Laws

/-! ### Quotas -/

section

variable {s : State} {r : InReq} {u : State → State}

/-- While PEER_ID is not valid a request is refused (R308). -/
theorem permit_invalid (hv : s.peerValid = false) : s.permit r u = s.respond r.src r.tag stRemote [] := by
  simp only [State.permit, hv, Bool.not_false, if_true]

theorem permit_beyond (hv : s.peerValid = true) (hf : s.quota r.src ≤ s.heldFrom r.src) :
    s.permit r u = s.postMsg r.src (.response r.src 0 r.tag stBusy []) := by
  simp only [State.permit, hv, Bool.not_true, Bool.false_eq_true, if_false]
  exact if_pos hf

theorem permit_within (hv : s.peerValid = true) (hq : s.heldFrom r.src < s.quota r.src) : s.permit r u = u s := by
  simp only [State.permit, hv, Bool.not_true, Bool.false_eq_true, if_false]
  exact if_neg (Nat.not_le.2 hq)

theorem postMsg_leaves {p q : Nat} {m : Msg} (hu : (s.unsent.any fun v => v.1 == p) = false) (hp : s.portFor p = some q) :
    s.postMsg p m = { s with outbox := s.outbox ++ [m.by_ q] } := by
  simp only [State.postMsg, hu, Bool.false_eq_true, if_false, hp]

theorem postMsg_waits {p : Nat} {m : Msg} (hp : s.portFor p = none) :
    s.postMsg p m = { s with unsent := s.unsent ++ [(p, m)] } := by
  simp only [State.postMsg, hp, ite_self]

end

/-! ### Direct requests -/

section

variable {s t : State} {r : InReq} {q : Direct} {n : Nat}

/-- A transaction that R306 does not allow is unsupported. -/
theorem serve_illegal (h : q.legal r.addr.toNat = false) : s.serve n r q = .done stRemote [] s := by
  simp only [State.serve, h, Bool.not_false, if_true]

/-- A request to a window whose entry is not valid is out of bounds (R305). -/
theorem serve_noWindow (h : q.legal r.addr.toNat = true) (hw : s.inWin? (r.addr.toNat / 2 ^ 32 % 8192) = none) :
    s.serve n r q = .done stBounds [] s := by
  simp only [State.serve, h, State.judge, hw, Bool.not_true, Bool.false_eq_true, if_false]

theorem inboundDirect_within (hv : s.peerValid = true) (hq : s.heldFrom r.src < s.quota r.src) :
    s.inboundDirect r q = (s.serveOrForward s.nextId r none q).getD
      { s with ingress := s.ingress ++ [(s.nextId, r, q)], nextId := s.nextId + 1 } := permit_within hv hq

theorem serveOrForward_done {st : BitVec 8} {out : List Byte} (h : s.serve n r q = .done st out t) :
    s.serveOrForward n r none q = some (t.respond r.src r.tag st out) := by
  simp only [State.serveOrForward, h]
  rfl

theorem serveOrForward_hold (h : s.serve n r q = .hold) : s.serveOrForward n r none q = none := by
  simp only [State.serveOrForward, h]

theorem serveOrForward_forwards {ctx : Nat} {part : (Page × (Nat × Nat)) × Direct} (h : s.serve n r q = .forward ctx [part])
    (hp : s.sendPart n r none none ctx part = some (none, t)) : s.serveOrForward n r none q = some t := by
  simp only [State.serveOrForward, h, hp]

end

/-- Settles O38: a direct request by the quota of its source and by what serving it comes to; an XPUTQ and a step record
by their judgement. -/
theorem podRequests : Obligations.PodRequests := by
  unfold Obligations.PodRequests
  intro s s1 r len n bs ds op t x y qw st out full direct
  have judged {i : Instr} {q : Direct} (hi : Runs i s (s.inboundDirect r q)) : direct i q := by
    refine ⟨fun hv hq => ?within, fun hv hf hu => ⟨fun p hp => ?port, fun hp => ?noPort⟩, fun hv => ?invalid⟩
    case within =>
      rw [inboundDirect_within hv hq] at hi
      refine ⟨fun h => ?_, fun h hw => ?_, fun h => ?_, fun h => ?_, fun ctx part u h hp => ?_⟩
      · rwa [serveOrForward_done (serve_illegal h)] at hi
      · rwa [serveOrForward_done (serve_noWindow h hw)] at hi
      · rwa [serveOrForward_done h] at hi
      · rwa [serveOrForward_hold h] at hi
      · rwa [serveOrForward_forwards h hp] at hi
    case port => rwa [State.inboundDirect, permit_beyond hv hf, postMsg_leaves hu hp] at hi
    case noPort => rwa [State.inboundDirect, permit_beyond hv hf, postMsg_waits hp] at hi
    case invalid => rwa [State.inboundDirect, permit_invalid hv] at hi
  refine ⟨judged rfl, judged rfl, judged rfl, rfl, fun hv hq => ⟨fun hx h => ?xputq, fun h => ?stepRecord⟩⟩
  case xputq =>
    have arrives : s.arriveXputq r none qw ds = s1.respond r.src r.tag st [] := by
      simp only [State.arriveXputq, ge_iff_le, Nat.not_le.2 hx, if_false, h]
      rfl
    exact congrArg Host.Outcome.next ((permit_within hv hq).trans arrives)
  case stepRecord =>
    refine congrArg Host.Outcome.next ((permit_within hv hq).trans ?_)
    simp only [h]

end Sys2Proof.Proofs
end

section
/-! SUPPORT. The phases of a boundary up to its completion, its watchdog, and the end and the watchdog of a collective (R322 to
R324, R329, R330). -/

namespace Sys2Proof.Proofs

open Sys2Proof Sys2Proof.Machine Sys2Proof.Safety Sys2Proof.Laws

section

variable {s : State} {b : Boundary} {p n : Nat}

/-! ### READY, apply and APPLIED -/

theorem boundaryDrained_runs (hb : s.boundary = some b) (hp : b.phase = 2) (hd : s.sputPending b.n = false) :
    Runs .boundaryDrained s (State.readySettle (State.broadcast
      { s with boundary := some { b with phase := 3, since := s.cycle } } fun q => .ready q 0 b.n)) := by
  change execBoundaryDrained s = _
  simp only [execBoundaryDrained, hb, hp, hd, Bool.false_eq_true, not_false_eq_true, and_self, if_true]

theorem stepApply_runs (hb : s.boundary = some b) (hp : b.phase = 4) : Runs .stepApply s (State.broadcast
    { s.applyStep b.n with boundary := some { b with phase := 5, since := s.cycle } } fun q => .applied q 0 b.n) := by
  change execStepApply s = _
  simp only [execStepApply, hb, hp, if_true]

theorem message_taken (hv : s.peerValid = true) (hn : s.doneBelow ≤ n) : (!s.peerValid || decide (n < s.doneBelow)) = false := by
  simp [hv, hn]

theorem readyMsg_runs (hv : s.peerValid = true) (hn : s.doneBelow ≤ n) : Runs (.readyMsg p n) s (State.readySettle
    { s with readyFrom := (n, p) :: s.readyFrom.filter fun v => v != (n, p) }) := by
  change execReadyMsg p n s = _
  simp only [execReadyMsg, message_taken hv hn, Bool.false_eq_true, if_false]

theorem appliedMsg_runs (hv : s.peerValid = true) (hn : s.doneBelow ≤ n) : Runs (.appliedMsg p n) s
    { s with appliedFrom := (n, p) :: s.appliedFrom.filter fun v => v != (n, p) } := by
  change execAppliedMsg p n s = _
  simp only [execAppliedMsg, message_taken hv hn, Bool.false_eq_true, if_false]

/-! ### The watchdog of a boundary -/

/-- The message of this phase has come from a member. -/
def sentIn (s : State) (b : Boundary) (q : Nat) : Bool :=
  if b.phase = 3 then s.readyFrom.contains (b.n, q) else s.appliedFrom.contains (b.n, q)

theorem missingMember_eq (s : State) (b : Boundary) : s.missingMember b = s.others.find? fun q => !sentIn s b q := by
  unfold State.missingMember sentIn
  congr 1
  funext q
  split <;> rfl

theorem others_sorted (s : State) : s.others.Pairwise (· < ·) := List.pairwise_lt_range.filter _

/-- In a list in order, what is found first is the lowest. -/
theorem find?_lowest {l : List Nat} {f : Nat → Bool} {m : Nat} (hl : l.Pairwise (· < ·)) (hm : m ∈ l) (hf : f m = true)
    (hlow : ∀ q ∈ l, q < m → f q = false) : l.find? f = some m := by
  obtain ⟨before, rest, rfl⟩ := List.append_of_mem hm
  obtain ⟨-, -, lower⟩ := List.pairwise_append.1 hl
  refine List.find?_eq_some_iff_append.2 ⟨hf, before, rest, rfl, fun q hq => ?_⟩
  simp [hlow q (by simp [hq]) (lower q hq m (by simp))]

theorem stepWatchdog_silent (hb : s.boundary = some b) (hall : ∀ q ∈ s.others, sentIn s b q = true) :
    Runs .stepWatchdog s s := by
  have nobody : s.missingMember b = none := by
    rw [missingMember_eq]
    exact List.find?_eq_none.2 fun q hq => by simp [hall q hq]
  change execStepWatchdog s = _
  simp only [execStepWatchdog, hb, nobody, ite_self]

theorem stepWatchdog_reports {m : Nat} (hb : s.boundary = some b) (hp : b.phase = 3 ∨ b.phase = 5) (hw : s.regs.stepWdog ≠ 0#64)
    (hc : b.since + s.regs.stepWdog.toNat * (b.reported + 1) ≤ s.cycle) (hm : m ∈ s.others) (hs : sentIn s b m = false)
    (hlow : ∀ q ∈ s.others, q < m → sentIn s b q = true) :
    let a := s.regs.stepCtl.extractLsb' 32 16
    Runs .stepWatchdog s (State.postFault { s with boundary := some { b with reported := b.reported + 1 } } s.stepCtx
      (faultRec 0x31#8 0#8 a (s.genOf a) 0 0 0#64 (dw m) (dw b.n))) := by
  have found : s.missingMember b = some m := by
    rw [missingMember_eq]
    exact find?_lowest (others_sorted s) hm (by simp [hs]) fun q hq hqm => by simp [hlow q hq hqm]
  change execStepWatchdog s = _
  simp only [execStepWatchdog, hb, found]
  exact congrArg Host.Outcome.next (if_pos ⟨hp, hw, hc⟩)

end

/-! ### The end of a collective -/

section

variable {s : State} {o : Op} {x : Xfer} {k : CollKind} {st : BitVec 8} {parts : List CollPart} {g : Group}

/-- A collective that has begun and has no result yet. -/
structure Running (s : State) (o : Op) (x : Xfer) (k : CollKind) : Prop where
  due : s.xferDue o.id = some (o, x)
  kind : x.kind = .ctile k
  effective : x.effective = true
  pending : x.out = none

theorem ctileComplete_timeout (h : Running s o x k) (hv : s.peerValid = false) :
    Runs (.ctileComplete o.id st parts) s (s.xferDone o x .empty stTimeout x.shape.base 0#7) := by
  change execCtileComplete o.id st parts s = _
  simp [execCtileComplete, h.due, h.kind, h.effective, h.pending, hv]

theorem ctileComplete_failure (h : Running s o x k) (hv : s.peerValid = true) (hs : st ≠ 0#8) :
    Runs (.ctileComplete o.id st parts) s (s.xferDone o x .empty st x.shape.base 0#7) := by
  change execCtileComplete o.id st parts s = _
  simp [execCtileComplete, h.due, h.kind, h.effective, h.pending, hv, hs]

/-- Every other participant has brought its part of the same collective. -/
structure Joined (x : Xfer) (parts : List CollPart) : Prop where
  all : parts.length = x.peers.length
  same : ∀ v ∈ otherParts x parts, v.nth = x.nth

theorem Joined.complete (hj : Joined x parts) :
    ¬ (parts.length ≠ x.peers.length ∨ ((otherParts x parts).any fun v => v.nth != x.nth) = true) := by
  simpa [hj.all] using hj.same

/-- Parts that disagree end the collective (R330, R331). -/
theorem ctileComplete_mismatch (h : Running s o x k) (hv : s.peerValid = true) (hj : Joined x parts)
    (hd : ∃ v ∈ otherParts x parts, s.collAgrees x k v = false) :
    Runs (.ctileComplete o.id 0#8 parts) s (s.xferDone o x .empty stMismatch x.shape.base 0#7) := by
  have differ : ((otherParts x parts).any fun v => !s.collAgrees x k v) = true := by simpa [List.any_eq_true] using hd
  change execCtileComplete o.id 0#8 parts s = _
  simp only [execCtileComplete, h.due, h.kind, h.effective, h.pending, hv, hj.complete, differ, Option.isSome_none,
    Bool.not_true, Bool.or_self, Bool.false_eq_true, ne_eq, not_true_eq_false, if_false, if_true]

/-- Where all agree it ends by what this package's own tile holds (R329). -/
theorem ctileComplete_agreed (h : Running s o x k) (hv : s.peerValid = true) (hj : Joined x parts)
    (ha : ∀ v ∈ otherParts x parts, s.collAgrees x k v = true) (hg : s.group? o.fib.g = some g) :
    let lo := (g.buf x.buf.toNat).lo
    Runs (.ctileComplete o.id 0#8 parts) s (if errIn g.scratchErr lo (collOwn x k) then
        s.xferDone o x .empty 0x04#8 x.shape.base 0#7
      else s.collWrite o x (s.collResult x k (Memory.read g.scratch lo (collOwn x k)) (parts.map fun v => v.tile))) := by
  have agree : ((otherParts x parts).any fun v => !s.collAgrees x k v) = false := by simpa using ha
  change execCtileComplete o.id 0#8 parts s = _
  simp only [execCtileComplete, h.due, h.kind, h.effective, h.pending, hv, hj.complete, agree, hg, Option.isSome_none,
    Bool.not_true, Bool.or_self, Bool.false_eq_true, ne_eq, not_true_eq_false, if_false]

/-! ### The watchdog of a collective -/

/-- The participants that the watchdog may name: those other than this package that have not come. -/
def awaited (s : State) (x : Xfer) (come : List Nat) : List Nat :=
  x.peers.filter fun q => q != s.ownPeer && !come.contains q

theorem mem_awaited {come : List Nat} {p : Nat} : p ∈ awaited s x come ↔ p ∈ x.peers ∧ p ≠ s.ownPeer ∧ p ∉ come := by
  simp [awaited]

theorem foldl_min_some (l : List Nat) (b : Nat) :
    l.foldl (fun a p => some (min p (a.getD p))) (some b) = some (l.foldl min b) := by
  induction l generalizing b with
  | nil => rfl
  | cons q l ih => rw [List.foldl_cons, Option.getD_some, ih, Nat.min_comm, List.foldl_cons]

theorem lowestMissing_eq (s : State) (x : Xfer) (come : List Nat) : s.lowestMissing x come = (awaited s x come).min? := by
  change (awaited s x come).foldl _ none = _
  cases awaited s x come with
  | nil => rfl
  | cons q l => rw [List.foldl_cons, Option.getD_none, Nat.min_self, foldl_min_some, List.min?_cons']

/-- The lowest participant that a collective lacks. -/
theorem lowestMissing_eq_some_iff {come : List Nat} {p : Nat} : s.lowestMissing x come = some p ↔
    p ∈ x.peers ∧ p ≠ s.ownPeer ∧ p ∉ come ∧ ∀ q ∈ x.peers, q ≠ s.ownPeer → q ∉ come → p ≤ q := by
  rw [lowestMissing_eq, List.min?_eq_some_iff, mem_awaited]
  simp only [mem_awaited, and_imp, and_assoc]

theorem collWatchdog_runs {p : Nat} (ho : s.op? o.id = some o) (hk : o.kind = .xfer x) (hc : x.kind = .ctile k)
    (hx : x.out = none) (hw : s.regs.stepWdog ≠ 0#64) (ht : x.wdog + s.regs.stepWdog.toNat ≤ s.cycle) :
    let came := s.comeNow x
    let a := (s.ctx o.ctx).asid
    Runs (.collWatchdog o.id p) s (if s.lowestMissing x came = some p then
      (s.setOp { o with kind := .xfer { x with wdog := x.wdog + s.regs.stepWdog.toNat, came } }).postFault o.ctx
        (faultRec 0x32#8 0#8 a (s.genOf a) o.core o.fib.f o.pc (dw p) (dw x.coll))
      else s) := by
  intro came a
  have due : (s.regs.stepWdog == 0#64) = false := by simpa using hw
  change execCollWatchdog o.id p s = _
  by_cases hp : s.lowestMissing x came = some p
  · simp only [execCollWatchdog, ho, hk, hc, hx, due, show s.lowestMissing x (s.comeNow x) = some p from hp, Nat.not_lt.2 ht,
      bne_self_eq_false, Option.isSome_none, decide_false, Bool.or_self, Bool.false_eq_true, if_false, if_pos hp]
    rfl
  · simp only [execCollWatchdog, ho, hk, hc, bne_iff_ne.2 (show s.lowestMissing x (s.comeNow x) ≠ some p from hp),
      Bool.or_true, Bool.true_or, if_true, if_neg hp]

end

end Sys2Proof.Proofs
end

section
/-! SUPPORT. The completion of a boundary (R322, R325): the status of the step, and the fibres that wait for it. -/

namespace Sys2Proof.Proofs

open Sys2Proof Sys2Proof.Machine Sys2Proof.Safety Sys2Proof.Laws

/-! ### Lines that are written back, and the reports of their errors -/

/-- The superstep stands as in `s`, and `P` holds of what the state has as fibre `r`. -/
def StepKeeps (s : State) (r : FRef) (P : Option Fibre → Prop) (t : State) : Prop :=
  t.boundary = s.boundary ∧ t.doneBelow = s.doneBelow ∧ t.stats = s.stats ∧ P (t.fibre? r)

section

variable {s t : State} {r : FRef} {P Q : Option Fibre → Prop}

theorem stepKeeps_sramWrite (a : Nat) (bs : List Byte) (h : StepKeeps s r P t) : StepKeeps s r P (t.sramWrite a bs) := h

theorem stepKeeps_raise (v : Nat) (h : StepKeeps s r P t) : StepKeeps s r P (t.raise v) := by
  unfold State.raise
  split
  · exact h
  · split <;> exact h

theorem stepKeeps_postFault (c : Nat) (rec_ : List Dword) (h : StepKeeps s r P t) :
    StepKeeps s r P (t.postFault c rec_) := by
  unfold State.postFault
  dsimp only
  split
  · exact h
  split
  · exact h
  split
  · exact stepKeeps_sramWrite _ _ h
  split
  · exact h
  split
  · exact h
  split
  · exact stepKeeps_raise _ (stepKeeps_sramWrite _ _ (stepKeeps_sramWrite _ _ h))
  · exact stepKeeps_sramWrite _ _ (stepKeeps_sramWrite _ _ h)

section

variable (hP : ∀ f o, P (some f) → P (some { f with slot := o }))

include hP

/-- The fibre that is told of an error takes it in its report slot. -/
theorem stepKeeps_tellWriter (w : FRef) (inc : Nat) (h : StepKeeps s r P t) : StepKeeps s r P (t.tellWriter w inc) := by
  unfold State.tellWriter
  split
  · exact h
  next x hx =>
  split
  · next f _ hf =>
    dsimp only
    split
    · exact h
    split
    · exact stepKeeps_postFault _ _ h
    · obtain ⟨hb, hd, hs, hr⟩ := h
      refine ⟨hb, hd, hs, ?_⟩
      have told (v : Fibre) : { t with groups := Tab.put w.g { x with fibres := Tab.put w.f v x.fibres } t.groups } =
          t.updFibre w fun _ => v := by
        simp only [State.updFibre, State.updGroup, State.group?, hx, Group.updFibre, Group.fibre?, hf]
        rfl
      rw [told]
      by_cases he : r = w
      · subst he
        have found : t.fibre? r = some f := by simp only [State.fibre?, State.group?, hx, Option.bind_some, Group.fibre?, hf]
        rw [State.fibre?_updFibre_same, found]
        exact hP f _ (found ▸ hr)
      · rwa [State.fibre?_updFibre_other t he]
  · exact h

theorem stepKeeps_writeLine (l : Line) (h : StepKeeps s r P t) : StepKeeps s r P (t.writeLine l) := by
  have written : StepKeeps s r P (t.writeBytes l) :=
    foldl_keeps (StepKeeps s r P) _ _ t h fun u i hu => by split <;> exact hu
  unfold State.writeLine
  split
  · exact written
  · exact foldl_keeps (StepKeeps s r P) _ _ _ written fun u w hu => stepKeeps_tellWriter hP w.1 w.2 hu

theorem stepKeeps_acquire (g : Group) (h : StepKeeps s r P t) : StepKeeps s r P (t.acquire g) :=
  foldl_keeps (StepKeeps s r P) State.writeLine _ t h fun _ l hu => stepKeeps_writeLine hP l hu

end

/-! ### The release of the fibres at SWAIT -/

/-- What the completed boundaries make of a fibre. -/
def leaveStep (s : State) (f : Fibre) : Fibre :=
  match f.stat with
  | .wait (.step n d) => if n < s.doneBelow then (f.advance s.cycle).setP d (s.stepWhole n) else f
  | _ => f

/-- The release of the fibres of one group, where some wait is over: an acquire, after which they go on. -/
def releaseGroup (s t : State) (p : Nat × Group) : State :=
  if p.2.fibres.any fun q => s.stepOver q.2 then
    (if p.2.core?.isSome then t.acquire p.2 else t).updGroup p.1 fun y => y.mapFibres fun _ => leaveStep s
  else t

theorem releaseSteps_eq (s : State) : s.releaseSteps = s.groups.foldl (releaseGroup s) s := rfl

theorem fibre?_updGroup_mapFibres (t : State) (k : Nat) (u : Nat → Fibre → Fibre) (r : FRef) :
    (t.updGroup k fun y => y.mapFibres u).fibre? r = if r.g = k then (t.fibre? r).map (u r.f) else t.fibre? r := by
  unfold State.fibre?
  split
  · next h =>
    subst h
    rw [State.group?_updGroup_same]
    cases t.group? r.g with
    | none => rfl
    | some y => exact fibre?_mapFibres y u r.f
  · next h => rw [State.group?_updGroup_other t h]

/-- The release of a group: its fibres go on where the wait of one is over, and else nothing changes. -/
theorem stepKeeps_releaseGroup {b : State} {p : Nat × Group} (hP : ∀ f o, P (some f) → P (some { f with slot := o }))
    (hl : ∀ o, P o → Q (o.map (leaveStep b)))
    (hk : (r.g = p.1 ∧ (p.2.fibres.any fun q => b.stepOver q.2) = true) ∨ ∀ o, P o → Q o) (h : StepKeeps s r P t) :
    StepKeeps s r Q (releaseGroup b t p) := by
  unfold releaseGroup
  split
  · have acquired : StepKeeps s r P (if p.2.core?.isSome then t.acquire p.2 else t) := by
      split
      · exact stepKeeps_acquire hP _ h
      · exact h
    obtain ⟨hb, hd, hs, hr⟩ := acquired
    refine ⟨by simpa using hb, by simpa using hd, by simpa using hs, ?_⟩
    rw [fibre?_updGroup_mapFibres]
    split
    · exact hl _ hr
    · next hg => exact hk.resolve_left (fun e => hg e.1) _ hr
  · next idle =>
    obtain ⟨hb, hd, hs, hr⟩ := h
    exact ⟨hb, hd, hs, hk.resolve_left (fun e => idle e.2) _ hr⟩

theorem leaveStep_ready {b : State} {f : Fibre} (h : f.stat = .ready) : leaveStep b f = f := by
  simp only [leaveStep, h]

theorem leaveStep_waits {b : State} {f : Fibre} {n : Nat} {d : BitVec 4} (h : f.stat = .wait (.step n d))
    (hn : n < b.doneBelow) : leaveStep b f = (f.advance b.cycle).setP d (b.stepWhole n) := by
  simp only [leaveStep, h, if_pos hn]

/-- A fibre that still waits at SWAIT for step `n`, at a position. -/
def Waits (n : Nat) (d : BitVec 4) (pos : Pos) (o : Option Fibre) : Prop :=
  ∃ u, o = some u ∧ u.stat = .wait (.step n d) ∧ u.pos = pos

/-- A fibre that has gone on from its SWAIT at a position, with its result. -/
def Gone (d : BitVec 4) (pos : Pos) (whole : Bool) (o : Option Fibre) : Prop :=
  ∃ u, o = some u ∧ u.stat = .ready ∧ u.pos = pos.next ∧ u.p d = whole

/-- A fibre that waits so, or has gone on. -/
def Due (n : Nat) (d : BitVec 4) (pos : Pos) (whole : Bool) (o : Option Fibre) : Prop :=
  Waits n d pos o ∨ Gone d pos whole o

section

variable {b : State} {n : Nat} {d : BitVec 4} {pos : Pos} {w : Bool} {o : Option Fibre}

theorem gone_slot (f : Fibre) (v : Option Report) (h : Gone d pos w (some f)) :
    Gone d pos w (some { f with slot := v }) := by
  obtain ⟨u, hf, hu⟩ := h
  obtain rfl := Option.some.inj hf
  exact ⟨_, rfl, hu⟩

theorem due_slot (f : Fibre) (v : Option Report) (h : Due n d pos w (some f)) : Due n d pos w (some { f with slot := v }) := by
  refine h.imp (fun hw => ?_) (gone_slot f v)
  obtain ⟨u, hf, hu⟩ := hw
  obtain rfl := Option.some.inj hf
  exact ⟨_, rfl, hu⟩

theorem gone_leaveStep (h : Gone d pos w o) : Gone d pos w (o.map (leaveStep b)) := by
  obtain ⟨u, rfl, hr, hu⟩ := h
  exact ⟨u, congrArg some (leaveStep_ready hr), hr, hu⟩

/-- Once its step has completed a fibre goes on, with the result where its predicate is one of the twelve. -/
theorem due_leaveStep (hn : n < b.doneBelow) (hd : d.toNat < 12) (h : Due n d pos (b.stepWhole n) o) :
    Gone d pos (b.stepWhole n) (o.map (leaveStep b)) := by
  refine h.elim (fun hw => ?_) gone_leaveStep
  obtain ⟨u, rfl, hs, rfl⟩ := hw
  exact ⟨_, congrArg some (leaveStep_waits hs hn), rfl, rfl, Fibre.p_setP_same _ hd _⟩

end

/-- The release of completed steps leaves the superstep as it is. -/
theorem stepKeeps_releaseSteps (s : State) (r : FRef) : StepKeeps s r (fun _ => True) s.releaseSteps :=
  releaseSteps_eq s ▸ foldl_keeps _ _ _ _ ⟨rfl, rfl, rfl, trivial⟩ fun _ _ ht =>
    stepKeeps_releaseGroup (fun _ _ h => h) (fun _ h => h) (.inr fun _ h => h) ht

/-- It lets a fibre that waits for one of them go on: at the latest in the turn of its own group. -/
theorem gone_releaseSteps {n : Nat} {d : BitVec 4} {z : Group} {v : Fibre} (hz : s.group? r.g = some z)
    (hv : z.fibre? r.f = some v) (hs : v.stat = .wait (.step n d)) (hn : n < s.doneBelow) (hd : d.toNat < 12) :
    Gone d v.pos (s.stepWhole n) (s.releaseSteps.fibre? r) := by
  obtain ⟨before, rest, hl⟩ := List.append_of_mem (Tab.find_mem hz)
  have leaves (o : Option Fibre) := due_leaveStep (pos := v.pos) (o := o) hn hd
  have reached : StepKeeps s r (Due n d v.pos (s.stepWhole n)) (before.foldl (releaseGroup s) s) := by
    have start : s.fibre? r = some v := by simp only [State.fibre?, hz, Option.bind_some, hv]
    refine foldl_keeps _ _ _ _ ⟨rfl, rfl, rfl, .inl ⟨v, start, hs, rfl⟩⟩ fun t p ht => ?_
    exact stepKeeps_releaseGroup due_slot (fun o h => .inr (leaves o h)) (.inr fun _ h => h) ht
  have turn : StepKeeps s r (Gone d v.pos (s.stepWhole n))
      (releaseGroup s (before.foldl (releaseGroup s) s) (r.g, z)) := by
    have waits : s.stepOver v = true := by simp only [State.stepOver, hs, hn, decide_true]
    exact stepKeeps_releaseGroup due_slot leaves (.inl ⟨rfl, List.any_eq_true.2 ⟨_, Tab.find_mem hv, waits⟩⟩) reached
  have rested : StepKeeps s r (Gone d v.pos (s.stepWhole n)) s.releaseSteps := by
    rw [releaseSteps_eq, hl, List.foldl_append, List.foldl_cons]
    exact foldl_keeps _ _ _ _ turn fun t p ht =>
      stepKeeps_releaseGroup gone_slot (fun _ => gone_leaveStep) (.inr fun _ h => h) ht
  exact rested.2.2.2

/-! ### The completion of a boundary -/

/-- The superstep once boundary `n` is complete: the status of the last four is kept (R325). -/
def completed (s : State) (n : Nat) : State :=
  { s.setStepStat (s.stepStat n) with
    boundary := none, doneBelow := n + 1
    stats := (s.setStepStat (s.stepStat n)).stats.filter fun x => decide (x.n + 4 > n)
    readyFrom := s.readyFrom.filter fun x => decide (x.1 > n)
    appliedFrom := s.appliedFrom.filter fun x => decide (x.1 > n) }

theorem boundaryComplete_completes {b : Boundary} (hb : s.boundary = some b) (hp : b.phase = 5)
    (ha : (s.others.all fun q => s.appliedFrom.contains (b.n, q)) = true) :
    Runs .boundaryComplete s (completed s b.n).releaseSteps := by
  change execBoundaryComplete s = _
  simp only [execBoundaryComplete, hb]
  rw [if_pos ⟨hp, ha⟩]
  rfl

theorem stepStat_n (s : State) (n : Nat) : (s.stepStat n).n = n := by
  unfold State.stepStat
  cases h : s.stats.find? fun x => x.n == n with
  | none => rfl
  | some x => simpa using List.find?_some h

/-- A status that comes first is the one that is kept. -/
theorem stepStat_of_head {x : StepStat} {xs : List StepStat} (h : s.stats = x :: xs) : s.stepStat x.n = x := by
  simp [State.stepStat, h]

theorem stepKept_of_head {x : StepStat} {xs : List StepStat} (h : s.stats = x :: xs) (hd : x.n < s.doneBelow) :
    s.stepKept x.n = true := by
  simp [State.stepKept, h, hd]

/-- The status of the boundary that has completed comes first. -/
theorem completed_stats (s : State) (n : Nat) : ∃ xs, (completed s n).stats = s.stepStat n :: xs := by
  refine ⟨_, List.filter_cons_of_pos (p := fun x : StepStat => decide (x.n + 4 > n)) ?_⟩
  simp [stepStat_n]

theorem stepWhole_completed (s : State) (n : Nat) :
    (completed s n).stepWhole n = (!(s.stepStat n).tornIn && !(s.stepStat n).tornOut) := by
  obtain ⟨xs, hx⟩ := completed_stats s n
  have status := stepStat_of_head hx
  have kept := stepKept_of_head hx (by simp [completed, stepStat_n])
  rw [stepStat_n] at status kept
  rw [State.stepWhole, kept, status, Bool.true_and]

/-- A boundary that every member has applied is complete, and a fibre at its SWAIT goes on with the result, where its
predicate is one of the twelve that SWAIT can name (R136, R322, R325). -/
theorem boundaryComplete_releases {b : Boundary} (hb : s.boundary = some b) (hp : b.phase = 5)
    (ha : (s.others.all fun q => s.appliedFrom.contains (b.n, q)) = true) :
    ∃ t, Runs .boundaryComplete s t ∧ t.boundary = none ∧ t.doneBelow = b.n + 1 ∧ t.stepKept b.n = true ∧
      ∀ j z q v d, s.group? j = some z → z.fibre? q = some v → v.stat = .wait (.step b.n d) → d.toNat < 12 →
        ∃ y u, t.group? j = some y ∧ y.fibre? q = some u ∧ u.stat = .ready ∧ u.pos = v.pos.next ∧
          u.p d = (!(s.stepStat b.n).tornIn && !(s.stepStat b.n).tornOut) := by
  obtain ⟨ended, done, stats, -⟩ := stepKeeps_releaseSteps (completed s b.n) ⟨0, 0⟩
  refine ⟨_, boundaryComplete_completes hb hp ha, ended, done, ?kept, fun j z q v d hz hv hs hd => ?goes⟩
  case kept =>
    obtain ⟨xs, hx⟩ := completed_stats s b.n
    have kept := stepKept_of_head (stats.trans hx) (by rw [stepStat_n, done]; exact Nat.lt_succ_self b.n)
    rwa [stepStat_n] at kept
  case goes =>
    have gone := gone_releaseSteps (s := completed s b.n) (r := ⟨j, q⟩) hz hv hs (Nat.lt_succ_self b.n) hd
    rw [stepWhole_completed] at gone
    obtain ⟨u, hu, hr⟩ := gone
    obtain ⟨y, hy, hyu⟩ := Option.bind_eq_some_iff.1 hu
    exact ⟨y, u, hy, hyu, hr⟩

end

/-! ### A predicate that SWAIT cannot name -/

/-- A fibre has twelve predicates (R136): a number above them reads as 0. -/
theorem p_beyond (f : Fibre) {d : BitVec 4} (hd : 12 ≤ d.toNat) : f.p d = false := BitVec.getLsbD_of_ge f.preds d.toNat hd

/-- A group whose one fibre waits for step 0, with p12 as the predicate of its SWAIT. -/
def beyondGroup : Group :=
  { launch := 0, ctx := 0, lin := 0, lr := {}, loc := .saved, fibres := [(0, { stat := .wait (.step 0 12#4) })] }

/-- The boundary of step 0, which lost no record, in phase 5 of a domain of no other member. -/
def beyondState : State := { boundary := some { n := 0, phase := 5, since := 0 }, groups := [(0, beyondGroup)] }

theorem others_beyondState : beyondState.others = [] := by
  have outside (p : Nat) : beyondState.isMember p = false := BitVec.getLsbD_zero
  simp [State.others, outside]

/-- A transfer and its operation, of which the boundary knows nothing. -/
def idleXfer : Xfer := { kind := .put, buf := 0#6, ab := none, shape := shapeOf 0#64 [] }
def idleOp : Op := { id := 0, fib := ⟨0, 0⟩, inc := 0, ctr := none, pc := 0#64, core := 0, ctx := 0, kind := .xfer idleXfer }

/-- Refutes O40: the statement lets a fibre at SWAIT name any of 16 predicates, and has the one it names hold 1 once a step
that lost no record is over; a fibre has twelve (R136), and p12 reads as 0. For the twelve that clause is
`boundaryComplete_releases`. -/
theorem not_superstepEvents : ¬ Obligations.SuperstepEvents := by
  unfold Obligations.SuperstepEvents
  intro h
  obtain ⟨boundary, -⟩ := h beyondState { n := 0, phase := 5, since := 0 } 0 0 idleOp idleXfer .allred 0#8 [] beyondGroup
  obtain ⟨-, -, completes, -⟩ := boundary rfl
  obtain ⟨t, -, -, -, -, released⟩ := completes rfl (by rw [others_beyondState]; rfl)
  obtain ⟨y, u, -, -, -, -, named⟩ := released 0 beyondGroup 0 _ 12#4 rfl rfl rfl
  have holds : u.p 12#4 = true := named.trans (by decide)
  exact absurd ((p_beyond u (by decide)).symm.trans holds) (by decide)

end Sys2Proof.Proofs
end

section
/-! SUPPORT. The words of visibility and of bindings as they issue: FENCE, ACQ, REL, BIND and UNBIND (R336 to R342). -/

namespace Sys2Proof.Proofs

open Sys2Proof Sys2Proof.Machine Sys2Proof.Safety Sys2Proof.Laws

section

variable {s s1 : State} {g : Group} {f : Fibre} {h : Hdr} {sc : Scope} {k : FenceKind} {d a b : Reg} {m : Mem} {p : Page}

/-! ### FENCE (R339, R340) -/

/-- What a FENCE wider than a group makes visible, by its kind. -/
def fenced (s : State) (g : Group) : FenceKind → State
  | .full => (s.release g).acquire g
  | .rel => s.release g
  | .acq => s.acquire g

/-- A fibre that has drained, within the package and, for a FENCE of the pod, beyond it, has nothing that a FENCE waits for. -/
theorem fence_drained (hu : s.undrained s.cur f = false) (hp : sc = .pod → s.podPending s.cur f = false) :
    ¬ (s.undrained s.cur f || (sc == .pod && k != .acq && s.podPending s.cur f)) = true := by
  by_cases hsc : sc = .pod
  · simp [hu, hp hsc]
  · simp [hu, hsc]

/-- A FENCE of the fibre or of the group waits for the drain alone. -/
theorem fence_narrow (hi : Issues s g f h {}) (hu : s.undrained s.cur f = false) (hsc : sc = .fibre ∨ sc = .group) :
    Runs (.fence h sc k) s (after s f) := by
  rw [after, ← updFibre_issues hi fun v => v.advance s.cycle]
  refine runWord_ok (i := .fence h sc k) (g := g) (f := f) hi ?_
  rcases hsc with rfl | rfl
  · exact if_neg (fence_drained (sc := .fibre) hu nofun)
  · exact if_neg (fence_drained (sc := .group) hu nofun)

/-- A wider FENCE then releases, acquires, or both. -/
theorem fence_wide (hi : Issues s g f h {}) (hu : s.undrained s.cur f = false)
    (hp : sc = .pod → s.podPending s.cur f = false) (hsc : sc = .cluster ∨ sc = .package ∨ sc = .pod) :
    Runs (.fence h sc k) s (went s (fenced s g k)) := by
  refine runWord_ok (i := .fence h sc k) (g := g) (f := f) hi ((if_neg (fence_drained hu hp)).trans ?_)
  rcases hsc with rfl | rfl | rfl
  all_goals cases k <;> rfl

/-! ### ACQ and REL (R336, R337, R341) -/

/-- ACQ, once the object's sequence has come, drops the lines of the object and of its bound regions. -/
theorem acq_reached (hi : Issues s g f h (operandsOf (Mem.chk m 2 ++ Reg.chk d 1)))
    (hf : Found s g (f.va m) 8 true false p s1) (hp : p.tier = .near)
    (hv : seqReached (s1.sramWord (s1.nearOff p (f.va m)) 8 / 2 ^ 32) (f.r (f.reg d)).toNat = true) :
    Runs (.acq h d m) s (went s ((s1.flushLines g.coreOr0 true fun l => l.asid == (s1.ctx g.ctx).asid &&
      ((s1.boundUnits g.ctx (f.va m)).contains (l.line / 32) || l.line == s1.nearOff p (f.va m) / 128)).dropFetched
        g.coreOr0 g.ctx)) := by
  have acc : s.access g (f.va m) 8 accRead onlyNear = .inr (p, s1) :=
    access_found hf (fun _ => rfl) (by decide) (by rw [hp]; rfl)
  refine runWord_ok (i := .acq h d m) (g := g) (f := f) hi ?_
  simp only [acc, hv, if_true]

/-- REL, once the fibre has drained, writes back the lines of the bound regions and issues the addition. -/
theorem rel_drained (hi : Issues s g f h { counts := true, chks := Mem.chk m 2 })
    (hf : Found s g (f.va m) 8 true true p s1) (hp : p.tier = .near) (hu : s1.undrained s1.cur f = false) :
    Runs (.rel h m) s (went s (((s1.flushLines g.coreOr0 false fun l => l.asid == (s1.ctx g.ctx).asid &&
      (s1.boundUnits g.ctx (f.va m)).contains (l.line / 32)).dropLine g.coreOr0 (s1.ctx g.ctx).asid
        (s1.nearOff p (f.va m))).addOp g f (f.counter h) (.rel (s1.nearOff p (f.va m)) (f.va m))
        (used := [p.span (f.va m)]))) := by
  have acc : s.access g (f.va m) 8 (accRead + accWrite) onlyNear = .inr (p, s1) :=
    access_found hf (fun _ => rfl) (fun _ => rfl) (by rw [hp]; rfl)
  refine runWord_ok (i := .rel h m) (g := g) (f := f) hi ?_
  simp only [acc, hu, Bool.false_eq_true, if_false]

/-! ### BIND (R338, R342) -/

/-- BIND on a NEAR object does what the context's table answers. -/
theorem bind_found (hi : Issues s g f h (operandsOf (Reg.chk a 2 ++ Reg.chk b 2 ++ Reg.chk d 1)))
    (hf : Found s g (f.rdPair a) 8 true true p s1) (hp : p.tier = .near) :
    let r := bindTable g.ctx (f.rdPair a) (f.rdPair b) s1.binds
    Runs (.bind h d a b) s (went s ((r.2.elim s1 s1.addBinding).updFibre s.cur fun v => v.wr d 1 r.1)) := by
  have acc : s.access g (f.rdPair a) 8 (accRead + accWrite) onlyNear = .inr (p, s1) :=
    access_found hf (fun _ => rfl) (fun _ => rfl) (by rw [hp]; rfl)
  refine runWord_ok (i := .bind h d a b) (g := g) (f := f) hi ?_
  simp only [acc]

end

/-- Settles O41: FENCE by its scope, the words on an object once it is found, and UNBIND by the context's table. -/
theorem syncWords : Obligations.SyncWords := by
  unfold Obligations.SyncWords
  intro s s1 g f h sc k d a b m p
  refine ⟨fun hi hu hp => ⟨fun narrow => fence_narrow hi hu ?scope, fun wide => ?wide⟩, fun hp => ?object, fun hi => ?unbind⟩
  case scope =>
    revert narrow
    cases sc <;> decide
  case wide => exact ⟨fence_wide hi hu hp wide, fence_wide hi hu hp wide, fence_wide hi hu hp wide⟩
  case object =>
    exact ⟨fun hi hf hv => acq_reached hi hf hp hv, fun hi hf hu => rel_drained hi hf hp hu, fun hi hf => bind_found hi hf hp⟩
  case unbind => exact runWord_ok (i := .unbind h d b) (g := g) (f := f) hi rfl

end Sys2Proof.Proofs
end

section
/-! SUPPORT. The words of launches and queues as they issue: HINTNEXT, WAITPRED, QPOST and SIGNAL (R334, R364). -/

namespace Sys2Proof.Proofs

open Sys2Proof Sys2Proof.Machine Sys2Proof.Safety Sys2Proof.Laws

section

variable {s s1 : State} {g : Group} {f : Fibre} {h : Hdr} {n : BitVec 14} {l : Launch} {d a b : Reg} {m : Mem} {p : Page}
  {add irq : Bool}

/-! ### HINTNEXT and WAITPRED -/

/-- The first HINTNEXT of a group marks it. -/
theorem hintnext_marks (hi : Issues s g f h {}) (hn : g.hint = none) : Runs (.hintnext h n) s
    (went s (s.updGroup s.cur.g fun x => { x with hint := some n.toNat })) := by
  refine runWord_ok (i := .hintnext h n) (g := g) (f := f) hi ?_
  simp only [hn, Option.isSome_none, Bool.false_eq_true, if_false]

/-- A later one does nothing. -/
theorem hintnext_marked (hi : Issues s g f h {}) (hn : g.hint ≠ none) : Runs (.hintnext h n) s (after s f) := by
  rw [after, ← updFibre_issues hi fun v => v.advance s.cycle]
  refine runWord_ok (i := .hintnext h n) (g := g) (f := f) hi ?_
  simp only [Option.isSome_iff_ne_none.2 hn, if_true]

/-- WAITPRED has no predecessor to wait for. -/
theorem waitpred_none (hi : Issues s g f h {}) (hw : s.waitedPred g = none) : Runs (.waitpred h) s (after s f) := by
  rw [after, ← updFibre_issues hi fun v => v.advance s.cycle]
  refine runWord_ok (i := .waitpred h) (g := g) (f := f) hi ?_
  simp only [hw]

/-- The predecessor that WAITPRED waits for has completed: the group acquires what it wrote. -/
theorem waitpred_complete (hi : Issues s g f h {}) (hw : s.waitedPred g = some l) (hc : l.complete = true) :
    Runs (.waitpred h) s (went s (s.acquire g)) := by
  refine runWord_ok (i := .waitpred h) (g := g) (f := f) hi ?_
  simp only [hw, hc, if_true]

/-! ### QPOST -/

/-- QPOST, once the fibre has drained, posts the packet that the shared SRAM holds and issues the word of its status. -/
theorem qpost_drained (hu : s1.undrained s1.cur f = false)
    (hi : Issues s g f h { counts := true, chks := Reg.chk a 2 ++ Reg.chk b 1 ++ Reg.chk d 1 })
    (hf : Found s g (f.rdPair a) 32 true false p s1) (hp : p.tier = .near) :
    let t := (s1.release g).dropLine g.coreOr0 (s1.ctx g.ctx).asid (s1.nearOff p (f.rdPair a))
    let r := t.qpost g.ctx (f.r (f.reg b)).toNat (t.sramRead (t.nearOff p (f.rdPair a)) 32)
    Runs (.qpost h d a b) s (went s (r.2.addOp g f (f.counter h) (.land (f.reg d) 1 (dw r.1)) [f.reg d]
      (nodrain := true))) := by
  have acc : s.access g (f.rdPair a) 32 accRead onlyNear = .inr (p, s1) :=
    access_found hf (fun _ => rfl) (by decide) (by rw [hp]; rfl)
  refine runWord_ok (i := .qpost h d a b) (g := g) (f := f) hi ?_
  simp only [acc, hu, Bool.false_eq_true, if_false]

/-! ### SIGNAL -/

/-- SIGNAL, once the fibre has drained, releases and issues its write, at the place that the tier of its page gives it; it adds
on a NEAR page alone. -/
theorem signal_drained (hu : s1.undrained s1.cur f = false)
    (hi : Issues s g f h { counts := true, chks := Mem.chk m 2 ++ Reg.chk d 2 }) (hf : Found s g (f.va m) 8 add true p s1)
    (ht : (p.tier == .near || (p.tier == .host && !add)) = true) :
    Runs (.signal h d m add irq) s (went s ((s1.release g).addOp g f (f.counter h)
      (.signal (if p.tier == .host then hostAddr (s1.ctx g.ctx).pasid p (f.va m) else s1.nearOff p (f.va m))
        (p.tier == .host) (f.rdPair d) add irq) [] (nodrain := true) (used := [p.span (f.va m)]))) := by
  have acc : s.access g (f.va m) 8 (if add then accAtomic else accWrite) (fun t => t == .near || (t == .host && !add)) =
      .inr (p, s1) := by
    cases add with
    | false => exact access_found hf (by decide) (fun _ => rfl) ht
    | true => exact access_found hf (fun _ => rfl) (fun _ => rfl) ht
  refine runWord_ok (i := .signal h d m add irq) (g := g) (f := f) hi ?_
  simp only [acc, hu, Bool.false_eq_true, if_false]

end

/-- Settles O42: HINTNEXT by its group's mark, WAITPRED by the predecessor, QPOST and SIGNAL once drained. -/
theorem launchWords : Obligations.LaunchWords := by
  unfold Obligations.LaunchWords
  intro s s1 g f h n l d a b m p add irq
  refine ⟨fun hi => ⟨hintnext_marks hi, hintnext_marked hi, waitpred_none hi, waitpred_complete hi⟩, fun hu => ?_⟩
  refine ⟨qpost_drained hu, fun hi hf => ⟨fun hp => ?near, fun hp ha => ?host⟩⟩
  case near =>
    have runs := signal_drained (irq := irq) hu hi hf (by rw [hp]; rfl)
    rwa [hp] at runs
  case host =>
    have runs := signal_drained (irq := irq) hu hi hf (by rw [hp, ha]; rfl)
    rwa [hp] at runs

end Sys2Proof.Proofs
end

section
/-! SUPPORT. Command packets and chain entries read back (R283, R284, R354 to R357): the fields of each, its options and
operands, and its bytes. -/

namespace Sys2Proof.Proofs

open Sys2Proof Sys2Proof.Laws

/-! ### Fields and options -/

theorem pcondOf_code (c : PCond) : PCond.ofCode c.code = some c := by cases c <;> rfl

theorem emodeOf_code (m : EMode) : EMode.ofCode m.code = some m := by cases m <;> rfl

theorem pairOf_code (p : BitVec 12 × BitVec 52) : pairOf (pairCode p) = p := by
  obtain ⟨hnd, v⟩ := p
  simp (disch := omega) only [pairOf, pairCode, ext_hi, ext_lo, ext_all, Nat.reduceSub]

/-- An operand of an entry reads back from its fields: the one that it does not use is 0 (R283). -/
theorem eopOf_fields (o : EOp) : eopOf o.isFifo o.num o.va = some o := by
  cases o with
  | fifo n => rfl
  | mem va => simp (disch := omega) [eopOf, EOp.isFifo, EOp.num, EOp.va, ext_hi, ext_lo]

/-- The fields of a packet read back as they were written. -/
theorem rawP_ofBits_bits (p : RawP) : RawP.ofBits p.bits = p := by
  obtain ⟨opc, flags, res, arg, p0, p1, p2⟩ := p
  simp (disch := omega) only [RawP.ofBits, RawP.bits, ext_hi, ext_lo, ext_all, Nat.reduceSub]

/-- The fields of an entry read back as they were written. -/
theorem rawE_ofBits_bits (e : RawE) : RawE.ofBits e.bits = e := by
  obtain ⟨next, opc, af, fa, bf, fb, df, fdn, fmt, mode, len, d, a, b, aux⟩ := e
  simp (disch := omega) only [RawE.ofBits, RawE.bits, ext_hi, ext_lo, ext_all, bit_hi, bit_lo, bit_bool, Nat.reduceSub]

/-! ### Packets (R354) -/

/-- What a packet instruction writes leaves the reserved bytes 0. -/
theorem rawP_res {i : Instr} {p : RawP} (hr : rawP i = some p) : p.res = 0#16 := by
  cases i <;> cases hr <;> rfl

/-- The fields of a packet parse to the instruction that they were written for. -/
theorem parseP_rawP {i : Instr} {p : RawP} (hr : rawP i = some p) : parseP p = some i := by
  cases i
  all_goals cases hr
  all_goals
    change need _ >>= _ = _
    simp (disch := omega) [need, pcondOf_code, append_and, ext_hi, ext_lo, bit_hi, bit_lo, -BitVec.getLsbD_eq_getElem]

/-- A packet instruction reads back from its 32 bytes. -/
theorem decodePacket_encodePacket {i : Instr} {w : BitVec 256} (he : encodePacket i = some w) : decodePacket w = some i := by
  obtain ⟨p, hp, rfl⟩ := Option.map_eq_some_iff.1 he
  simp [decodePacket, rawP_ofBits_bits, rawP_res hp, parseP_rawP hp, need]

/-! ### Chain entries (R283, R284) -/

/-- What an entry instruction writes leaves NEXT 0. -/
theorem rawE_next {i : Instr} {e : RawE} (hr : rawE i = some e) : e.next = 0#64 := by
  cases i <;> cases hr <;> rfl

/-- QFENCE reads back its one to four pairs: the fields past them are 0 (R284). -/
theorem parseE_qfence {ps : List (BitVec 12 × BitVec 52)} {e : RawE} (h1 : 1 ≤ ps.length) (h4 : ps.length ≤ 4)
    (hr : rawE (.engineQfence ps) = some e) : parseE e = some (.engineQfence ps) := by
  cases hr
  match ps, h1, h4 with
  | [_], _, _ | [_, _], _, _ | [_, _, _], _, _ | [_, _, _, _], _, _ => simp [parseE, need, pairOf_code]

/-- SLOTBIND reads back its slot and its owner, or that it has none. -/
theorem parseE_slotbind {n : BitVec 8} {o : Option Owner} {e : RawE} (hr : rawE (.slotbind n o) = some e) :
    parseE e = some (.slotbind n o) := by
  cases hr
  cases o <;> simp (disch := omega) [parseE, need, ext_hi, ext_lo, bit_hi, bit_lo, -BitVec.getLsbD_eq_getElem]

/-- TRANSDUCE reads back its start, where it gives one, and its capacity. -/
theorem parseE_transduce {d a : EOp} {st : Option (BitVec 12)} {cap n : BitVec 32} {e : RawE}
    (hr : rawE (.transduce d a st cap n) = some e) : parseE e = some (.transduce d a st cap n) := by
  cases hr
  cases st <;> simp (disch := omega) [parseE, need, eopOf_fields, ext_hi, ext_lo]

/-- The fields of an entry parse to the instruction that they were written for. -/
theorem parseE_rawE {i : Instr} {e : RawE} (hw : i.wf = true) (hr : rawE i = some e) : parseE e = some i := by
  cases i
  case engineQfence ps =>
    simp only [Instr.wf, Bool.and_eq_true, decide_eq_true_eq] at hw
    exact parseE_qfence hw.1 hw.2 hr
  case slotbind => exact parseE_slotbind hr
  case transduce => exact parseE_transduce hr
  all_goals cases hr
  all_goals
    simp (disch := omega) [parseE, need, eopOf_fields, tyOf_code, emodeOf_code, ext_hi, ext_lo, bit_hi, bit_lo,
      -BitVec.getLsbD_eq_getElem]

/-- A well-formed entry instruction reads back from its bytes. -/
theorem decodeEntry_encodeEntry {i : Instr} {w : BitVec 384} (hw : i.wf = true) (he : encodeEntry i = some w) :
    decodeEntry w = some i := by
  obtain ⟨e, hr, rfl⟩ := Option.map_eq_some_iff.1 he
  simp [decodeEntry, rawE_ofBits_bits, rawE_next hr, parseE_rawE hw hr, need, hw]

/-- Settles O59: the fields of packets and entries read back, and they parse to what they were written for. -/
theorem packetAndEntryRoundTrip : Obligations.PacketAndEntryRoundTrip := by
  unfold Obligations.PacketAndEntryRoundTrip
  exact fun i hw => ⟨fun _ => decodePacket_encodePacket, fun _ => decodeEntry_encodeEntry hw⟩

end Sys2Proof.Proofs
end

section
/-! SUPPORT. What a record that is posted, a line that is written back and a group that stops leave as they are (R243, R278,
R340, R351, R368, R375, R384). -/

namespace Sys2Proof.Proofs

open Sys2Proof Sys2Proof.Machine Sys2Proof.Safety Sys2Proof.Laws

/-- A read after a write of what is not the default, whatever the form of the table. -/
theorem get_set_ne {α : Type} [DecidableEq α] (d : α) (k : Nat) {v : α} (h : v ≠ d) (t : Tab α) :
    Tab.get d (Tab.set d k v t) k = v := by
  rw [Tab.set, if_neg h, Tab.get_put_same]

/-! ### Records that are posted -/

/-- Only the shared SRAM and the interrupts differ. -/
def Posted (s t : State) : Prop :=
  ∃ sram sramErr pba irqs, t = { s with sram := sram, sramErr := sramErr, pba := pba, irqs := irqs }

theorem Posted.refl (s : State) : Posted s s := ⟨_, _, _, _, rfl⟩

theorem Posted.trans {s t u : State} (h : Posted s t) (k : Posted t u) : Posted s u := by
  obtain ⟨_, _, _, _, rfl⟩ := h
  obtain ⟨_, _, _, _, rfl⟩ := k
  exact ⟨_, _, _, _, rfl⟩

theorem posted_sramWrite (s : State) (a : Nat) (bs : List Byte) : Posted s (s.sramWrite a bs) := ⟨_, _, _, _, rfl⟩

theorem posted_raise (s : State) (v : Nat) : Posted s (s.raise v) := by
  unfold State.raise
  split
  · exact .refl s
  · split <;> exact ⟨_, _, _, _, rfl⟩

theorem posted_postFault (s : State) (c : Nat) (rec_ : List Dword) : Posted s (s.postFault c rec_) := by
  unfold State.postFault
  dsimp only
  split
  · exact .refl s
  split
  · exact .refl s
  split
  · exact posted_sramWrite _ _ _
  split
  · exact .refl s
  split
  · exact .refl s
  split
  · exact ((posted_sramWrite _ _ _).trans (posted_sramWrite _ _ _)).trans (posted_raise _ _)
  · exact (posted_sramWrite _ _ _).trans (posted_sramWrite _ _ _)

section

variable {s t : State}

theorem Posted.groups (h : Posted s t) : t.groups = s.groups := by obtain ⟨_, _, _, _, rfl⟩ := h; rfl
theorem Posted.launches (h : Posted s t) : t.launches = s.launches := by obtain ⟨_, _, _, _, rfl⟩ := h; rfl
theorem Posted.queues (h : Posted s t) : t.queues = s.queues := by obtain ⟨_, _, _, _, rfl⟩ := h; rfl
theorem Posted.cores (h : Posted s t) : t.cores = s.cores := by obtain ⟨_, _, _, _, rfl⟩ := h; rfl

theorem Posted.queue (h : Posted s t) (q : Nat) : t.queue q = s.queue q := congrArg (Tab.get ({} : Queue) · q) h.queues
theorem Posted.group? (h : Posted s t) (k : Nat) : t.group? k = s.group? k := congrArg (Tab.find · k) h.groups

end

/-! ### Lines that are written back -/

/-- Only the shared SRAM, the interrupts and the insides of the groups differ: every group is there. -/
def Flushed (s t : State) : Prop :=
  ∃ groups sram sramErr pba irqs,
    t = { s with groups := groups, sram := sram, sramErr := sramErr, pba := pba, irqs := irqs } ∧
    ∀ k, (Tab.find s.groups k).isSome = true → (Tab.find groups k).isSome = true

theorem Flushed.refl (s : State) : Flushed s s := ⟨_, _, _, _, _, rfl, fun _ => id⟩

theorem Flushed.trans {s t u : State} (h : Flushed s t) (k : Flushed t u) : Flushed s u := by
  obtain ⟨_, _, _, _, _, rfl, hg⟩ := h
  obtain ⟨_, _, _, _, _, rfl, kg⟩ := k
  exact ⟨_, _, _, _, _, rfl, fun n hn => kg n (hg n hn)⟩

theorem Posted.flushed {s t : State} (h : Posted s t) : Flushed s t := by
  obtain ⟨_, _, _, _, rfl⟩ := h
  exact ⟨_, _, _, _, _, rfl, fun _ => id⟩

/-- Many steps, each of which changes only this. -/
theorem flushed_foldl {α : Type} (s : State) (u : State → α → State) (l : List α) (hu : ∀ t x, Flushed t (u t x)) :
    Flushed s (l.foldl u s) :=
  foldl_keeps (Flushed s) u l s (.refl s) fun t x h => h.trans (hu t x)

theorem flushed_tellWriter (s : State) (r : FRef) (inc : Nat) : Flushed s (s.tellWriter r inc) := by
  unfold State.tellWriter
  split
  · exact .refl s
  · split
    · dsimp only
      split
      · exact .refl s
      split
      · exact (posted_postFault _ _ _).flushed
      · refine ⟨_, _, _, _, _, rfl, fun k hk => ?_⟩
        by_cases e : k = r.g
        · rw [e, Tab.find_put_same]
          rfl
        · rwa [Tab.find_put_other e]
    · exact .refl s

theorem flushed_writeBytes (s : State) (l : Line) : Flushed s (s.writeBytes l) := by
  refine flushed_foldl s _ _ fun t i => ?_
  split
  · exact (posted_sramWrite _ _ _).flushed
  · exact .refl t

theorem flushed_writeLine (s : State) (l : Line) : Flushed s (s.writeLine l) := by
  unfold State.writeLine
  split
  · exact flushed_writeBytes s l
  · dsimp only
    have marked (t : State) (e : List Nat) : Flushed t { t with sramErr := e } := ⟨_, _, _, _, _, rfl, fun _ => id⟩
    exact ((flushed_writeBytes s l).trans (marked _ _)).trans (flushed_foldl _ _ _ fun t w => flushed_tellWriter t w.1 w.2)

theorem flushed_writeLines (s : State) (ls : List Line) : Flushed s (ls.foldl State.writeLine s) :=
  flushed_foldl s _ ls flushed_writeLine

theorem Flushed.cores {s t : State} (h : Flushed s t) : t.cores = s.cores := by obtain ⟨_, _, _, _, _, rfl, -⟩ := h; rfl
theorem Flushed.pads {s t : State} (h : Flushed s t) : t.pads = s.pads := by obtain ⟨_, _, _, _, _, rfl, -⟩ := h; rfl

theorem Flushed.group_isSome {s t : State} (h : Flushed s t) {k : Nat} (hk : (s.group? k).isSome = true) :
    (t.group? k).isSome = true := by
  obtain ⟨_, _, _, _, _, rfl, hg⟩ := h
  exact hg k hk

/-! ### Groups that stop -/

/-- Groups stop, to be saved. -/
def stopGroups (s : State) (ks : List Nat) : State :=
  ks.foldl (fun t k => t.updGroup k fun y => { y with stopping := true }) s

/-- Each of them stops, and nothing else of any group changes. -/
theorem group?_stopGroups (s : State) (ks : List Nat) (k : Nat) :
    (stopGroups s ks).group? k = (s.group? k).map fun y => { y with stopping := decide (k ∈ ks) || y.stopping } := by
  induction ks generalizing s with
  | nil => cases h : s.group? k <;> simp [stopGroups, h]
  | cons j ks ih =>
    rw [stopGroups, List.foldl_cons, ← stopGroups, ih]
    by_cases e : k = j
    · subst e
      rw [State.group?_updGroup_same]
      cases s.group? k <;> simp
    · rw [State.group?_updGroup_other _ e]
      simp [e]

end Sys2Proof.Proofs
end

section
/-! SUPPORT. The taking of a trap (R371, R374, R375) and the return from it (R377). -/

namespace Sys2Proof.Proofs

open Sys2Proof Sys2Proof.Machine Sys2Proof.Safety Sys2Proof.Laws

/-! ### The handler -/

section

variable (f : Fibre) (c : Cause) (v : Dword) (cycle : Nat)

theorem tm_enter : (f.enter c v cycle).tm = true := by
  change (f.tmask ||| 0x80#64).getLsbD 7 = true
  rw [BitVec.getLsbD_or, show (0x80#64).getLsbD 7 = true from rfl, Bool.or_true]

/-- The bit of TM lies beside EN and HBASE (R372). -/
theorem hbase_enter : (f.enter c v cycle).hbase = f.hbase := by
  change (f.tmask ||| 0x80#64).extractLsb' 8 48 = f.tmask.extractLsb' 8 48
  rw [BitVec.extractLsb'_or, show (0x80#64).extractLsb' 8 48 = 0#48 from rfl, BitVec.or_zero]

theorem en_enter : (f.enter c v cycle).en = f.en := by
  change (f.tmask ||| 0x80#64).extractLsb' 0 7 = f.tmask.extractLsb' 0 7
  rw [BitVec.extractLsb'_or, show (0x80#64).extractLsb' 0 7 = 0#7 from rfl, BitVec.or_zero]

/-- The handler stands at HBASE × 256 (R374). -/
theorem pos_enter : (f.enter c v cycle).pos = { pc := dw (f.hbase.toNat * 256) } := by
  have handler (b : BitVec 48) : (0#8 ++ b ++ 0#8 : BitVec 64) = dw (b.toNat * 256) := by
    refine BitVec.eq_of_toNat_eq (Eq.trans (b := b.toNat * 256) ?_ ?_)
    · rw [BitVec.toNat_append, BitVec.toNat_append]
      simp [Nat.shiftLeft_eq]
    · rw [dw, BitVec.toNat_ofNat, Nat.mod_eq_of_lt (by omega)]
  exact congrArg (fun pc => ({ pc := pc } : Pos)) (handler f.hbase)

/-- The return from the handler comes back to the word that trapped (R377). -/
theorem pos_trapReturn_enter : ((f.enter c v cycle).trapReturn cycle).pos = f.pos := if_pos rfl

theorem tm_trapReturn : (f.trapReturn cycle).tm = false := by
  change (f.tmask &&& ~~~0x80#64).getLsbD 7 = false
  rw [BitVec.getLsbD_and, show (~~~0x80#64).getLsbD 7 = false from rfl, Bool.and_false]

end

/-! ### Taking a trap -/

section

variable {s : State} {r : FRef} {g : Group} {f : Fibre} {c : Cause} {v : Dword}

theorem takeTrap_enters (hg : s.group? r.g = some g) (hf : g.fibre? r.f = some f) (hd : g.toDebugger c = false)
    (htm : f.tm = false) (hb : f.hbase ≠ 0#48) : s.takeTrap r c v = s.updFibre r fun _ => f.enter c v s.cycle := by
  have handled : (f.tm || f.hbase == 0#48) = false := by simp [htm, hb]
  simp only [State.takeTrap, hg, hf, hd, handled, Bool.false_eq_true, if_false, State.updFibre, State.updGroup,
    Group.updFibre]

theorem takeTrap_unhandled (hg : s.group? r.g = some g) (hf : g.fibre? r.f = some f) (hd : g.toDebugger c = false)
    (hh : f.tm = true ∨ f.hbase = 0#48) : s.takeTrap r c v = s.unhandled g r f c v := by
  have handled : (f.tm || f.hbase == 0#48) = true := by simpa using hh
  simp only [State.takeTrap, hg, hf, hd, handled, Bool.false_eq_true, if_false, if_true]

/-- An unhandled trap stops its group, and marks it (R375). -/
theorem group?_unhandled (s : State) (x : Group) (r : FRef) (f : Fibre) (c : Cause) (v : Dword) :
    (s.unhandled x r f c v).group? r.g = some { x.stopAll.setFibre r.f { f with
      stopped := true, stat := .ready, stepping := .off, grant := none
      stop := some { cause := c.code, q := f.pos, value := v, pc := f.pos.pc } } with
        stopping := true, faulted := true } := by
  unfold State.unhandled State.postGroup
  dsimp only
  rw [(posted_postFault _ _ _).group?, ← stopGroups, group?_stopGroups, State.group?_setGroup_same, Option.map_some,
    Bool.or_true]

end

/-- Settles O44: into the handler with the position saved, or, where there is none to go to, the group is faulted. -/
theorem trapEntry : Obligations.TrapEntry := by
  unfold Obligations.TrapEntry
  intro s r g f c v hg hf hd
  refine ⟨fun htm hb => ?handler, fun hh => ?faulted⟩
  case handler =>
    exact ⟨f.enter c v s.cycle, takeTrap_enters hg hf hd htm hb, rfl, rfl, rfl, rfl, tm_enter f c v _, hbase_enter f c v _,
      en_enter f c v _, pos_enter f c v _, rfl, rfl, rfl, rfl, rfl, rfl, pos_trapReturn_enter f c v _, tm_trapReturn _ _⟩
  case faulted =>
    rw [takeTrap_unhandled hg hf hd hh, group?_unhandled]
    exact ⟨_, _, rfl, Group.fibre?_setFibre_same _ _ _, rfl, rfl, rfl, rfl, rfl⟩

end Sys2Proof.Proofs
end

section
/-! SUPPORT. The packets of work queues without brackets (R354 to R357, R360, R361): what each does in its queue's turn. -/

namespace Sys2Proof.Proofs

open Sys2Proof Sys2Proof.Machine Sys2Proof.Safety Sys2Proof.Laws

/-! ### The turn of a packet -/

section

variable {s t : State} {i : Instr} {body : Nat → Queue → Option State}

/-- A packet of the queue that has its turn does what it answers. -/
theorem packet_runs (hs : s.served s.curQ = true) (he : exec i s = .next ((onQueue s body).getD s))
    (hb : body s.curQ (s.queue s.curQ) = some t) : Runs i s t :=
  he.trans (congrArg Host.Outcome.next (onQueue_served hs hb))

/-- A packet that waits changes nothing. -/
theorem packet_waits (hs : s.served s.curQ = true) (he : exec i s = .next ((onQueue s body).getD s))
    (hb : body s.curQ (s.queue s.curQ) = none) : Runs i s s := by
  have waits : (onQueue s body).getD s = s := by rw [onQueue, if_pos hs, hb, Option.getD_none]
  exact he.trans (congrArg Host.Outcome.next waits)

end

section

variable {s : State} (hs : s.served s.curQ = true)

include hs

theorem packetNop_advances : Runs .packetNop s (s.setQueue s.curQ (s.queue s.curQ).advance) := packet_runs hs rfl rfl

/-! ### Launches (R356, R360) -/

omit hs in
/-- The launch that a LAUNCH or LAUNCHI of the queue makes, before its record is judged. -/
def packetLaunch (s : State) (record : Dword) (grid : Option Dword) : Launch :=
  let v := s.queue s.curQ
  { queue := some s.curQ, ctx := v.ctx, pad := (s.ctx v.ctx).pad, prio := v.prio, pred := v.pred, recVa := record
    grid := grid.map fun a => (s.nearRead v.ctx a 8 8).map leNat, pkt := v.at_, lr := { pwait := s.asksWait v.ctx record } }

omit hs in
/-- The launch is the queue's latest, and the queue goes on. -/
def addLaunch (s : State) (y : Launch) : State :=
  (State.setQueue { s with nextId := s.nextId + 1 } s.curQ
    { (s.queue s.curQ).advance with pred := some s.nextId }).setLaunch s.nextId y

section

variable {i : Instr} {record : Dword} {grid : Option Dword} (he : exec i s = .next ((tryLaunch record grid s).getD s))
  (hp : s.padAlive (packetLaunch s record grid).pad = true) (hr : s.runningOf s.curQ < 16)

include he hp hr

/-- LAUNCH and LAUNCHI go on, where their paddock lives and one of the 16 places is free, as soon as what follows answers. -/
theorem launch_runs {t : State} (ht : (if !s.mayStart (packetLaunch s record grid) then
      some (addLaunch s (packetLaunch s record grid)) else
    match s.judgeRecord (packetLaunch s record grid).ctx (packetLaunch s record grid).pad record
        (packetLaunch s record grid).grid with
    | .inl code => some (s.queueError s.curQ 0x03 code record)
    | .inr r => some ((addLaunch s { packetLaunch s record grid with lr := r }).startLaunch s.nextId
        { packetLaunch s record grid with lr := r })) = some t) : Runs i s t := by
  have due : (!s.padAlive (packetLaunch s record grid).pad || decide (s.runningOf s.curQ ≥ 16)) = false := by
    rw [hp, decide_eq_false (by omega)]
    rfl
  refine packet_runs hs he ?_
  exact (if_neg (ne_true_of_eq_false due)).trans ht

/-- A launch that must wait for its predecessor is made as it stands. -/
theorem launch_waits (hm : s.mayStart (packetLaunch s record grid) = false) :
    Runs i s (addLaunch s (packetLaunch s record grid)) := by
  refine launch_runs hs he hp hr ?_
  rw [hm]
  rfl

/-- A launch that may start at once has its record judged, and starts. -/
theorem launch_starts {r : LaunchRec} (hm : s.mayStart (packetLaunch s record grid) = true)
    (hj : s.judgeRecord (packetLaunch s record grid).ctx (packetLaunch s record grid).pad record
      (packetLaunch s record grid).grid = .inr r) :
    Runs i s ((addLaunch s { packetLaunch s record grid with lr := r }).startLaunch s.nextId
      { packetLaunch s record grid with lr := r }) := by
  refine launch_runs hs he hp hr ?_
  rw [hm, hj]
  rfl

/-- One whose record is rejected stops its queue. -/
theorem launch_rejected {code : Nat} (hm : s.mayStart (packetLaunch s record grid) = true)
    (hj : s.judgeRecord (packetLaunch s record grid).ctx (packetLaunch s record grid).pad record
      (packetLaunch s record grid).grid = .inl code) : Runs i s (s.queueError s.curQ 0x03 code record) := by
  refine launch_runs hs he hp hr ?_
  rw [hm, hj]
  rfl

end

/-! ### Words in memory (R355, R356) -/

section

variable {va value : Dword} {p : Page}

/-- WAITSEQ whose word has come acquires, and goes on. -/
theorem waitseq_met {cyc : Bool} (hp : s.wordPage (s.queue s.curQ).ctx va false = some p)
    (hm : let w := leNat (s.devRead (s.queue s.curQ).ctx p va.toNat 8)
      (if cyc then seqReached (w / 2 ^ 32) (value.toNat % 2 ^ 32) else decide (w ≥ value.toNat)) = true) :
    Runs (.waitseq cyc va value) s
      ((s.acquireAll (s.queue s.curQ).ctx).setQueue s.curQ (s.queue s.curQ).advance) := by
  refine packet_runs hs rfl ?_
  dsimp only at hm ⊢
  simp only [hp, hm, if_true]
  rfl

/-- SIGNAL writes its word, or adds to one on a NEAR page, and raises the context's vector where it asks for it. -/
theorem signalPacket_writes {add irq : Bool} (hd : s.queueDrained s.curQ = true)
    (hp : s.wordPage (s.queue s.curQ).ctx va true = some p) (ht : ¬ (add = true ∧ p.tier = .host)) :
    let ctx := (s.queue s.curQ).ctx
    let old := if add then leNat (s.devRead ctx p va.toNat 8) else 0
    let t := s.devWrite ctx p va.toNat (leBytes 8 (old + value.toNat))
    Runs (.signalPacket add irq va value) s
      ((if irq then t.raise (s.ctx ctx).vec else t).setQueue s.curQ (s.queue s.curQ).advance) := by
  refine packet_runs hs rfl ?_
  simp only [hd, hp, ht, Bool.not_true, Bool.false_eq_true, if_false]
  rfl

end

/-! ### Packets that wait for the queue's launches (R356) -/

theorem qfence_drained (hd : s.queueDrained s.curQ = true) :
    Runs .qfence s (s.setQueue s.curQ (s.queue s.curQ).advance) := packet_runs hs rfl (if_pos hd)

theorem halt_drained (hd : s.queueDrained s.curQ = true) :
    Runs .halt s (s.setQueue s.curQ { (s.queue s.curQ).advance with state := .halted }) := packet_runs hs rfl (if_pos hd)

/-! ### ENGCMD and STEPB (R356) -/

section

variable {hnd : BitVec 12} {n : Dword} {e : ChainEnt}

/-- ENGCMD of up to 64 entries asks its chain to forward them. -/
theorem engcmd_asks (hc : s.chainEntry (s.queue s.curQ).ctx hnd.toNat = some e) (he : (s.queue s.curQ).engcmd = none)
    (h1 : 1 ≤ n.toNat) (h64 : n.toNat ≤ 64) :
    let v := s.queue s.curQ
    let c := s.chain v.ctx hnd.toNat
    Runs (.engcmd hnd n) s ((s.setChain v.ctx hnd.toNat
      { c with fwd := c.fwd ++ [{ by_ := none, queue := s.curQ, left := n.toNat, ent := e }] }).setQueue s.curQ
        { v with engcmd := some hnd.toNat }) := by
  have some_entry : n ≠ 0#64 := fun h => absurd h1 (by rw [h]; decide)
  refine packet_runs hs rfl ?_
  simp only [he, hc, some_entry, Nat.not_lt.2 h64, if_false]
  rfl

theorem engcmd_nothing (hc : s.chainEntry (s.queue s.curQ).ctx hnd.toNat = some e)
    (he : (s.queue s.curQ).engcmd = none) (hn : n = 0#64) :
    Runs (.engcmd hnd n) s (s.setQueue s.curQ (s.queue s.curQ).advance) := by
  subst hn
  refine packet_runs hs rfl ?_
  simp only [he, hc]
  rfl

/-- ENGCMD goes on once its entries have been forwarded. -/
theorem engcmd_forwarded (he : (s.queue s.curQ).engcmd = some hnd.toNat)
    (hf : s.engcmdPending s.curQ (s.queue s.curQ).ctx hnd.toNat = false) :
    Runs (.engcmd hnd n) s (s.setQueue s.curQ (s.queue s.curQ).advance) := by
  refine packet_runs hs rfl ?_
  simp only [he, hf, Bool.false_eq_true, if_false]
  rfl

/-- STEPB of the write step begins its boundary once the ones before it are complete. -/
theorem stepb_begins (ho : s.stepOn = true) (hw : n.toNat = s.writeStep)
    (ha : (s.ctx (s.queue s.curQ).ctx).asid = s.regs.stepCtl.extractLsb' 32 16) (hb : s.boundary = none)
    (hn : n.toNat ≤ s.doneBelow) :
    Runs (.stepb n) s ((s.acceptStepb n.toNat).setQueue s.curQ (s.queue s.curQ).advance) := by
  have legal : (!s.stepOn || n.toNat != s.writeStep ||
      (s.ctx (s.queue s.curQ).ctx).asid != s.regs.stepCtl.extractLsb' 32 16) = false := by simp [ho, hw, ha]
  have free : (s.boundary.isSome || decide (s.doneBelow < n.toNat)) = false := by simp [hb, hn]
  refine packet_runs hs rfl ?_
  simp only [legal, free, Bool.false_eq_true, if_false]
  rfl

end

end

/-- Settles O48: each packet in its queue's turn. -/
theorem packets : Obligations.Packets := by
  unfold Obligations.Packets
  intro s va rec_ grid value n r p hnd e irq q v went hs
  refine ⟨packetNop_advances hs, ?launches, ?waitseq, ?drained, ?engcmd, ?stepb⟩
  case launches =>
    intro pad made hp hr
    have runs {i : Instr} {g : Option Dword} (he : exec i s = .next ((tryLaunch rec_ g s).getD s)) : made i g :=
      ⟨launch_waits hs he hp hr, fun hm => ⟨launch_starts hs he hp hr hm, fun _ => launch_rejected hs he hp hr hm⟩⟩
    exact ⟨runs rfl, runs rfl⟩
  case waitseq =>
    exact fun hp => ⟨fun hw => waitseq_met hs hp (by simpa using hw), fun hw => waitseq_met hs hp (by simpa using hw)⟩
  case drained =>
    refine fun hd => ⟨qfence_drained hs hd, halt_drained hs hd, fun hp => ⟨?_, fun ht => ?_⟩⟩
    · have writes := signalPacket_writes (irq := irq) (value := value) (add := false) hs hd hp (by simp)
      simpa only [Bool.false_eq_true, if_false, Nat.zero_add] using writes
    · exact signalPacket_writes hs hd hp (by simp [ht])
  case engcmd => exact fun hc => ⟨engcmd_asks hs hc, engcmd_nothing hs hc, engcmd_forwarded hs⟩
  case stepb => exact stepb_begins hs

end Sys2Proof.Proofs
end

section
/-! SUPPORT. The brackets of a queue's packets (R353, R357) and the registers of a queue (R352). -/

namespace Sys2Proof.Proofs

open Sys2Proof Sys2Proof.Machine Sys2Proof.Safety Sys2Proof.Laws

/-- Iterations are left where the counter that ENDLOOP decrements has not come to 0. -/
theorem counter_left {left : BitVec 32} : left - 1#32 ≠ 0#32 ↔ left ≠ 1#32 := by bv_omega

section

variable {s : State} {c : PCond} {va value mask : Dword} {b : Bool} {fs : List Frame} {mid : Option (BitVec 32)}
  {count left pkt e m : BitVec 32} (hs : s.served s.curQ = true)

include hs

/-! ### LOOP and ENDLOOP -/

section

variable (hm : s.matchOf (s.queue s.curQ) (true, false) (s.queue s.curQ).frames.length = .found mid e)

include hm

/-- LOOP with a count of 0 passes over its body. -/
theorem loop_passes (hc : count = 0#32) :
    Runs (.loop count) s (s.setQueue s.curQ ((s.queue s.curQ).goTo (e + 1#32) (s.queue s.curQ).frames)) := by
  refine packet_runs hs rfl ?_
  simp only [hm, hc, if_true]
  rfl

theorem loop_enters (hc : count ≠ 0#32) :
    Runs (.loop count) s (s.setQueue s.curQ ((s.queue s.curQ).goTo ((s.queue s.curQ).at_ + 1#32)
      (.loop (s.queue s.curQ).at_ count :: (s.queue s.curQ).frames))) := by
  refine packet_runs hs rfl ?_
  simp only [hm, hc, if_false]
  rfl

end

theorem loop_waits (hm : s.matchOf (s.queue s.curQ) (true, false) (s.queue s.curQ).frames.length = .wait) :
    Runs (.loop count) s s := by
  refine packet_waits hs rfl ?_
  simp only [hm]

theorem loop_mismatched (hm : s.matchOf (s.queue s.curQ) (true, false) (s.queue s.curQ).frames.length = .bad) :
    Runs (.loop count) s (s.queueErr s.curQ 0x02) := by
  refine packet_runs hs rfl ?_
  simp only [hm]

section

variable (hf : (s.queue s.curQ).frames = .loop pkt left :: fs)

include hf

/-- ENDLOOP without a condition goes back to its body, while iterations are left. -/
theorem endloop_plain : Runs (.endloop false c va value mask) s (s.setQueue s.curQ
    (if left ≠ 1#32 then (s.queue s.curQ).goTo (pkt + 1#32) (.loop pkt (left - 1#32) :: fs)
      else (s.queue s.curQ).goTo ((s.queue s.curQ).at_ + 1#32) fs)) := by
  refine packet_runs hs rfl ?_
  simp only [hf, Bool.false_eq_true, if_false, and_true, counter_left]
  split <;> rfl

/-- ENDLOOP with a condition goes back while that holds too. -/
theorem endloop_conditional (hc : s.wordCond (s.queue s.curQ).ctx c va value mask = some b) :
    Runs (.endloop true c va value mask) s (s.setQueue s.curQ
      (if b = true ∧ left ≠ 1#32 then (s.queue s.curQ).goTo (pkt + 1#32) (.loop pkt (left - 1#32) :: fs)
        else (s.queue s.curQ).goTo ((s.queue s.curQ).at_ + 1#32) fs)) := by
  refine packet_runs hs rfl ?_
  simp only [hf, hc, if_true, counter_left, and_comm (b := b = true)]
  split <;> rfl

end

/-! ### IFMEM, ELSE and ENDIF -/

section

variable (hm : s.matchOf (s.queue s.curQ) (false, false) (s.queue s.curQ).frames.length = .found mid e)

include hm

/-- IFMEM whose condition holds enters its body. -/
theorem ifmem_holds (hc : s.wordCond (s.queue s.curQ).ctx c va value mask = some true) :
    Runs (.ifmem c va value mask) s (s.setQueue s.curQ ((s.queue s.curQ).goTo ((s.queue s.curQ).at_ + 1#32)
      (.ifm (s.queue s.curQ).at_ :: (s.queue s.curQ).frames))) := by
  refine packet_runs hs rfl ?_
  simp only [hm, hc]
  rfl

/-- One whose condition does not enters the body of its ELSE. -/
theorem ifmem_else (hc : s.wordCond (s.queue s.curQ).ctx c va value mask = some false) (he : mid = some m) :
    Runs (.ifmem c va value mask) s (s.setQueue s.curQ ((s.queue s.curQ).goTo (m + 1#32)
      (.ifm (s.queue s.curQ).at_ :: (s.queue s.curQ).frames))) := by
  refine packet_runs hs rfl ?_
  simp only [hm, hc, he]
  rfl

/-- Without an ELSE it passes over its body. -/
theorem ifmem_passes (hc : s.wordCond (s.queue s.curQ).ctx c va value mask = some false) (he : mid = none) :
    Runs (.ifmem c va value mask) s
      (s.setQueue s.curQ ((s.queue s.curQ).goTo (e + 1#32) (s.queue s.curQ).frames)) := by
  refine packet_runs hs rfl ?_
  simp only [hm, hc, he]
  rfl

end

section

variable (hf : (s.queue s.curQ).frames = .ifm pkt :: fs)

include hf

theorem endif_closes :
    Runs .endifPacket s (s.setQueue s.curQ ((s.queue s.curQ).goTo ((s.queue s.curQ).at_ + 1#32) fs)) := by
  refine packet_runs hs rfl ?_
  simp only [hf]
  rfl

/-- ELSE at the end of a body that was taken goes on after its ENDIF. -/
theorem else_passes (hm : s.matchOf (s.queue s.curQ) (false, true) fs.length = .found mid e) :
    Runs .elsePacket s (s.setQueue s.curQ ((s.queue s.curQ).goTo (e + 1#32) fs)) := by
  refine packet_runs hs rfl ?_
  simp only [hf, hm]
  rfl

end

end

/-! ### Registers (R352) -/

section

variable {s : State} {q : Nat} {t : BitVec 32} {v : Dword}

/-- TAIL takes a value within the ring that frees no packet. -/
theorem hqTail_taken (hd : (s.queue q).dev = false) (hf : (s.queue q).fill ≤ (t - (s.queue q).head).toNat)
    (hl : (t - (s.queue q).head).toNat ≤ 2 ^ (s.queue q).log) :
    Runs (.hqTail q ⟨none, 0#32 ++ t⟩) s (if t = (s.queue q).tail then s else s.setQueue q { s.queue q with tail := t }) := by
  have value : (regTo ⟨none, 0#32 ++ t⟩ (0#32 ++ (s.queue q).tail)).extractLsb' 0 32 = t :=
    (ext_lo 0 32 0#32 t (by omega)).trans (ext_all t)
  have legal : ¬ (2 ^ (s.queue q).log < (t - (s.queue q).head).toNat ∨ (t - (s.queue q).head).toNat < (s.queue q).fill) := by
    omega
  change execHqTail q _ s = _
  simp only [execHqTail, hd, value, State.writeTail, legal, Bool.false_eq_true, if_false]

/-- TAIL of a queue that the device fills is its own (R352). -/
theorem hqTail_device (hd : (s.queue q).dev = true) : Runs (.hqTail q ⟨none, v⟩) s s := congrArg Host.Outcome.next (if_pos hd)

/-- The fields of HQ_CTL, as a mask. -/
theorem hqCtl_mask : Machine.mask 63 62 ||| Machine.mask 41 32 ||| Machine.mask 11 8 ||| Machine.mask 2 0 =
    0xC00003FF00000F07#64 := by decide

/-- HQ_CTL of a queue that is at rest takes every field. -/
theorem hqCtl_still (hw : (s.queue q).still = true) :
    Runs (.hqCtl q ⟨none, v⟩) s (s.setQueue q { s.queue q with ctl := v &&& 0xC00003FF00000F07#64 }) := by
  change execHqCtl q _ s = _
  simp only [execHqCtl, hw, if_true, hqCtl_mask]
  rfl

/-- That of any other queue takes EN alone. -/
theorem hqCtl_busy (hw : (s.queue q).still = false) :
    Runs (.hqCtl q ⟨none, v⟩) s (s.setQueue q { s.queue q with
      ctl := (v &&& 0x8000000000000000#64) ||| ((s.queue q).ctl &&& 0x7FFFFFFFFFFFFFFF#64) }) := by
  change execHqCtl q _ s = _
  simp only [execHqCtl, hw, Bool.false_eq_true, if_false, hqCtl_mask, regTo, BitVec.and_assoc]
  rfl

theorem resume_halted (hw : (s.queue q).state = .halted) :
    Runs (.resume q) s (s.setQueue q { s.queue q with state := .idle }) := congrArg Host.Outcome.next (if_pos hw)

end

/-- Settles O49: the brackets in their queue's turn, by their match, and the registers of a queue by their fields. -/
theorem bracketsAndQueueRegisters : Obligations.BracketsAndQueueRegisters := by
  unfold Obligations.BracketsAndQueueRegisters
  intro s count left pkt e m t va value mask c b fs mid q v
  refine ⟨fun hs => ⟨?loop, loop_waits hs, loop_mismatched hs, ?ifmem, ?endloop, ?ends⟩, hqTail_taken, hqTail_device,
    hqCtl_still, hqCtl_busy, rfl, resume_halted⟩
  case loop => exact fun hm => ⟨loop_passes hs hm, loop_enters hs hm⟩
  case ifmem =>
    intro hm hc
    exact ⟨fun hb => ifmem_holds hs hm (hb ▸ hc), fun hb => ifmem_else hs hm (hb ▸ hc),
      fun hb => ifmem_passes hs hm (hb ▸ hc)⟩
  case endloop =>
    intro hf again ends
    have plain := endloop_plain (c := c) (va := va) (value := value) (mask := mask) hs hf
    refine ⟨fun hl => ?_, fun hl => ?_, fun hc => ?_⟩
    · rwa [if_pos hl] at plain
    · rwa [if_neg (not_not.2 hl)] at plain
    · have runs := endloop_conditional hs hf hc
      split
      · next h => rwa [if_pos h] at runs
      · next h => rwa [if_neg h] at runs
  case ends => exact fun hf => ⟨endif_closes hs hf, else_passes hs hf⟩

end Sys2Proof.Proofs
end

section
/-! SUPPORT. Optical events (R393 to R396) and laser sources (R405): the wavelengths of a direction, and what each event does
to its engine. -/

namespace Sys2Proof.Proofs

open Sys2Proof Sys2Proof.Machine Sys2Proof.Safety Sys2Proof.Laws

/-! ### Wavelengths of a direction (R394, R396) -/

theorem length_put_of_find_none {α : Type} {k : Nat} {v : α} {t : Tab α} (h : Tab.find t k = none) :
    (Tab.put k v t).length = t.length + 1 := by
  induction t with
  | nil => rfl
  | cons p t ih =>
    obtain ⟨j, w⟩ := p
    simp only [Tab.find] at h
    split at h
    · cases h
    · next hj =>
      simp only [Tab.put, Ne.symm hj, if_false]
      split
      · rfl
      · rw [List.length_cons, ih h, List.length_cons]

section

variable {d : OptDir} {wl : Nat}

theorem find_remap_of_inUse (hu : d.inUse wl = true) : Tab.find d.remap wl = none := by
  simp only [OptDir.inUse, Bool.and_eq_true, Option.isNone_iff_eq_none] at hu
  exact hu.1.2

/-- A wavelength that carries traffic takes one spare. -/
theorem spares_toSpare (hu : d.inUse wl = true) : (d.toSpare wl).spares = d.spares - 1 := by
  change 4 - (Tab.put wl _ d.remap).length = 4 - d.remap.length - 1
  rw [length_put_of_find_none (find_remap_of_inUse hu)]
  omega

theorem find_remap_toSpare : Tab.find (d.toSpare wl).remap wl = some (64 + d.remap.length) := Tab.find_put_same _ _ _

theorem inUse_toSpare : (d.toSpare wl).inUse wl = false := by
  rw [OptDir.inUse, find_remap_toSpare, Option.isNone_some, Bool.and_false, Bool.false_and]

theorem active_drop : (d.drop wl).active = d.active - 1 := by
  change 64 - (d.dropped.length + 1) = 64 - d.dropped.length - 1
  omega

theorem inUse_drop : (d.drop wl).inUse wl = false := by simp [OptDir.inUse, OptDir.drop]

end

/-! ### The directions of an engine -/

section

variable (s : State) (e : Nat)

theorem optDir_setOptDir_same (i : Bool) {d : OptDir} (h : d ≠ {}) : (s.setOptDir e i d).optDir e i = d :=
  get_set_ne ({} : OptDir) (optKey e i) h s.optDirs

theorem optDir_setOptDir_not (i : Bool) (d : OptDir) : (s.setOptDir e (!i) d).optDir e i = s.optDir e i :=
  Tab.get_set_other _ (by cases i <;> simp [optKey]) _ _

/-- A direction that retrains is not as at reset. -/
theorem retraining_ne {d : OptDir} (h : d.retraining = true) : d ≠ {} := fun he => absurd h (by rw [he]; decide)

end

/-! ### Events of a wavelength and of a direction (R394, R395) -/

section

variable {s : State} {e wl m : Nat} {i : Bool} {delay : Dword}

section

variable (hn : optNames e wl m = true) (hl : (s.optDir e i).live = true) (hu : (s.optDir e i).inUse wl = true)

include hn hl hu

theorem wlFail_remaps (hs : (s.optDir e i).spares ≠ 0) : Runs (.wlFail e i wl m delay) s
    ((s.setOptDir e i ((s.optDir e i).toSpare wl)).postOptical 0x01 m ((s.optDir e i).spares - 1) wl i e
      (delayIn 15000 delay)) :=
  congrArg Host.Outcome.next (if_neg (by simp [hn, hs, hl, hu]))

theorem laneSpare_remaps (hs : (s.optDir e i).spares ≠ 0) : Runs (.laneSpare e i wl m) s
    ((s.setOptDir e i ((s.optDir e i).toSpare wl)).postOptical 0x05 m ((s.optDir e i).spares - 1) wl i e 0#64) :=
  congrArg Host.Outcome.next (if_neg (by simp [hn, hs, hl, hu]))

/-- A drop takes the link down where fewer than 16 wavelengths are left. -/
theorem wlDrop_drops (hs : (s.optDir e i).spares = 0) :
    let t := (s.setOptDir e i ((s.optDir e i).drop wl)).postOptical 0x02 m 0 wl i e (delayIn 15000 delay)
    Runs (.wlDrop e i wl m delay) s
      (if (s.optDir e i).active - 1 < 16 ∧ (s.optDir e i).down = false then t.dirDown e i m else t) := by
  refine congrArg Host.Outcome.next ((if_neg (by simp [hn, hs, hl, hu])).trans ?_)
  simp only [Bool.and_eq_true, decide_eq_true_eq, Bool.not_eq_true']

end

theorem retrain_begins (hn : optNames e 0 m = true) (hl : (s.optDir e i).live = true) : Runs (.retrain e i m delay) s
    ((s.setOptDir e i { s.optDir e i with retraining := true }).postOptical 0x04 m (s.optDir e i).spares 0 i e
      (delayIn 80000 delay)) :=
  congrArg Host.Outcome.next ((if_pos hn).trans (if_neg (by simp [hl])))

theorem linkDown_falls (hn : optNames e 0 m = true) (hd : (s.optDir e i).down = false) :
    Runs (.linkDown e i m) s (s.dirDown e i m) := congrArg Host.Outcome.next (if_pos (by simp [hn, hd]))

/-! ### The end of a retraining (R395) -/

section

variable (hr : (s.optDir e i).retraining = true)

include hr

theorem retrainingComplete_ok : Runs (.retrainingComplete e i true) s (s.setOptDir e i { s.optDir e i with
    retraining := false, fails := 0, down := decide ((s.optDir e i).active < 16) || s.bothDark e }) :=
  congrArg Host.Outcome.next (if_neg (by simp [hr]))

theorem retrainingComplete_fails (hf : (s.optDir e i).fails < 2) : Runs (.retrainingComplete e i false) s
    (s.setOptDir e i { s.optDir e i with fails := (s.optDir e i).fails + 1 }) :=
  congrArg Host.Outcome.next (((if_neg (by simp [hr])).trans (if_neg Bool.false_ne_true)).trans (if_neg (by omega)))

/-- The third failure in a row takes the link down. -/
theorem retrainingComplete_ends (hf : 2 ≤ (s.optDir e i).fails) : Runs (.retrainingComplete e i false) s
    (if (s.optDir e i).down then
      s.setOptDir e i { s.optDir e i with retraining := false, fails := (s.optDir e i).fails + 1 }
    else (s.setOptDir e i { s.optDir e i with fails := (s.optDir e i).fails + 1 }).dirDown e i (s.moduleOf e)) :=
  congrArg Host.Outcome.next (((if_neg (by simp [hr])).trans (if_neg Bool.false_ne_true)).trans (if_pos (by omega)))

end

/-- A direction that retrains, no failure counted. -/
def OptDir.afresh (d : OptDir) : OptDir := { d with retraining := true, fails := 0 }

/-- OE_RESET of an engine that is down retrains both its directions. -/
theorem oeReset_retrains {k : BitVec 5} (hk : k.toNat < 24) (hd : ∀ i, (s.optDir k.toNat i).down = true) :
    ∃ t, Runs (.oeReset k) s t ∧ ∀ i, t.optDir k.toNat i = OptDir.afresh (s.optDir k.toNat i) := by
  have other (d : OptDir) : (s.setOptDir k.toNat false d).optDir k.toNat true = s.optDir k.toNat true :=
    optDir_setOptDir_not s k.toNat true d
  have runs : Runs (.oeReset k) s ((s.setOptDir k.toNat false (OptDir.afresh (s.optDir k.toNat false))).setOptDir k.toNat true
      (OptDir.afresh (s.optDir k.toNat true))) := by
    change execOeReset k s = _
    simp only [execOeReset, List.foldl_cons, List.foldl_nil, OptDir.afresh, hk, hd, other, and_self, if_true]
  refine ⟨_, runs, fun i => ?_⟩
  cases i with
  | true => exact optDir_setOptDir_same _ k.toNat true (retraining_ne rfl)
  | false =>
    exact (optDir_setOptDir_not _ k.toNat false _).trans (optDir_setOptDir_same s k.toNat false (retraining_ne rfl))

/-! ### Laser sources (R394, R405) -/

/-- An engine whose directions are in service retrains in both, as one event that names either. -/
theorem retrainEngine_live (s : State) (e : Nat) (delay : Dword) (hl : ∀ i, (s.optDir e i).live = true) :
    ∃ i, s.retrainEngine e delay =
      ((s.setOptDir e (!i) { s.optDir e (!i) with retraining := true }).setOptDir e i
        { s.optDir e i with retraining := true }).postOptical 0x04 (s.moduleOf e) (s.optDir e i).spares 0 i e
          (delayIn 80000 delay) := by
  refine ⟨s.choose (100 + e) 2 == 1, ?_⟩
  unfold State.retrainEngine State.retrainDir
  generalize (s.choose (100 + e) 2 == 1) = i
  simp only [hl, if_true, optDir_setOptDir_not, Bool.not_true, Bool.false_eq_true, if_false]

variable {src : Nat}

theorem laserAge_reports (h : src < 6) : Runs (.laserAge src) s (s.postOptical 0x03 src 0 0 false 0 0#64) :=
  congrArg Host.Outcome.next (if_pos h)

/-- A lit source that goes dark is lost to every engine that it feeds. -/
theorem sourceLost_falls (h : src < 6) (hd : s.darkSources.contains src = false) (ho : s.offSources.contains src = false) :
    Runs (.sourceLost src delay) s ((fedBy src).foldl (fun t v => t.loseSource v delay)
      (State.postOptical { s with darkSources := src :: s.darkSources } 0x06 src 0 0 false 0 (delayIn 80000 delay))) := by
  have every : ((fedBy src).filter fun _ => !s.offSources.contains src) = fedBy src :=
    List.filter_eq_self.2 fun _ _ => by rw [ho]; rfl
  refine congrArg Host.Outcome.next ((if_neg (by simp only [ge_iff_le, Nat.not_le.2 h, hd]; decide)).trans ?_)
  rw [every]

section

variable {n : BitVec 3} (hn : n.toNat < 6)

include hn

/-- LS_OFF darkens its source, and moves the engines of a lit one. -/
theorem lsOff_darkens (ho : s.offSources.contains n.toNat = false) :
    let dark : State := { s with
      offSources := n.toNat :: s.offSources, darkSources := n.toNat :: s.darkSources.erase n.toNat }
    Runs (.lsOff n) s (if s.darkSources.contains n.toNat then dark
      else (fedBy n.toNat).foldl (fun t v => t.loseSource v (dw (s.choose (80 + v) 80001))) dark) :=
  congrArg Host.Outcome.next (if_neg (by simp only [ge_iff_le, Nat.not_le.2 hn, ho]; decide))

omit hn in
theorem lsOff_off (ho : s.offSources.contains n.toNat = true) : Runs (.lsOff n) s s :=
  congrArg Host.Outcome.next (if_pos (by rw [ho, Bool.or_true]))

theorem lsOn_lights (hs : s.isSafe = false) : Runs (.lsOn n) s { s with
    darkSources := s.darkSources.erase n.toNat, offSources := s.offSources.erase n.toNat } :=
  congrArg Host.Outcome.next (if_neg (by simp only [ge_iff_le, Nat.not_le.2 hn, hs]; decide))

end

end

/-- Settles O53: each event by its engine, its direction or its source. -/
theorem opticalEvents : Obligations.OpticalEvents := by
  unfold Obligations.OpticalEvents
  intro s e wl m src i delay n k d post
  have names {wl : Nat} (he : e < 24) (hw : wl < 68) (hm : m < 64) : optNames e wl m = true := by simp [optNames, he, hw, hm]
  refine ⟨fun he hw hm hl => ⟨fun hu hs => ?spare, fun hu hs => ?drop, retrain_begins (names he (by decide) hm) hl,
    linkDown_falls (names he (by decide) hm)⟩, fun h => ⟨laserAge_reports h, sourceLost_falls h⟩, fun h => if_pos h,
    fun hb hl => ?partner, fun hr => ⟨retrainingComplete_ok hr, retrainingComplete_fails hr, fun hf => ?third⟩,
    oeReset_retrains, fun hn => ⟨fun ho => ?off, lsOff_off, lsOn_lights hn⟩⟩
  case spare =>
    have hn := names he hw hm
    exact ⟨spares_toSpare hu, inUse_toSpare, find_remap_toSpare, wlFail_remaps hn hl hu hs, laneSpare_remaps hn hl hu hs⟩
  case drop => exact ⟨active_drop, inUse_drop, wlDrop_drops (names he hw hm) hl hu hs⟩
  case partner =>
    obtain ⟨i, hi⟩ := retrainEngine_live s e delay hl
    exact ⟨i, (if_neg (ne_true_of_eq_false hb)).trans hi⟩
  case third =>
    have ends := retrainingComplete_ends hr hf
    refine ⟨fun hd => ?_, fun hd => ?_⟩
    · rwa [if_neg (ne_true_of_eq_false hd)] at ends
    · rwa [if_pos hd] at ends
  case off =>
    have off := lsOff_darkens hn ho
    refine ⟨fun hd => ?_, fun hd => ?_⟩
    · simpa only [hd, if_true] using off
    · simpa only [hd, Bool.false_eq_true, if_false] using off

end Sys2Proof.Proofs
end

section
/-! SUPPORT. What the package does for launches and paddocks when it is due: starts and completions (R360, R361, R363),
placements (R362), saves (R384) and pre-emption (R367, R384). -/

namespace Sys2Proof.Proofs

open Sys2Proof Sys2Proof.Machine Sys2Proof.Safety Sys2Proof.Laws

/-! ### Launches that start and complete (R360, R361, R363) -/

section

variable {s : State} {k : Nat} {l : Launch}

/-- A launch of which groups are left to place is not done. -/
theorem launchDone_of_next_lt (h : l.next < l.lr.total) : s.launchDone k l = false := by
  have left : (l.next == l.lr.total) = false := by simp [Nat.ne_of_lt h]
  simp only [State.launchDone, left, Bool.and_false, Bool.false_and]

/-- A launch with a group to place starts, and goes on. -/
theorem startLaunch_of_next_lt (h : l.next < l.lr.total) : s.startLaunch k l =
    State.setLaunch { s with nextId := s.nextId + 1 } k
      { l with started := true, startedAt := s.nextId, dbg := Tab.get 0#64 s.regs.dbgCtl l.ctx } := by
  have undone (t : State) : t.launchDone k
      { l with started := true, startedAt := s.nextId, dbg := Tab.get 0#64 s.regs.dbgCtl l.ctx } = false :=
    launchDone_of_next_lt h
  simp only [State.startLaunch, State.completeLaunch, State.setLaunch, Tab.find_put_same, undone, Bool.not_false, if_true]

section

variable (hl : Tab.find s.launches k = some l) (hc : l.complete = false) (hp : s.padAlive l.pad = true)
  (hx : s.ctxOk l.ctx = true) (hs : l.started = false) (hpar : l.parent = none) (hm : s.mayStart l = true)
  (hr : (l.queue.map s.runningOf).getD 0 < 16)

include hl hc hp hx hs hpar hm hr

/-- A launch that waited has its record judged as it starts. -/
theorem launchStart_judges : s.launchStart k =
    (s.judgeRecord l.ctx l.pad l.recVa l.grid).elim (s.rejectLate k l) fun r => s.startLaunch k { l with lr := r } := by
  simp only [State.launchStart, hl, hs, hc, hp, hx, hpar, hm, Nat.not_le.2 hr, Bool.not_true, Bool.or_self,
    Bool.false_eq_true, Option.isSome_none, decide_false, if_false]
  cases s.judgeRecord l.ctx l.pad l.recVa l.grid <;> rfl

end

/-- A launch is struck: what followed it follows its predecessor. -/
def strike (s : State) (k : Nat) (l : Launch) : State :=
  let skip (j : Option Nat) : Option Nat := if j = some k then l.pred else j
  { s with launches := (Tab.del k s.launches).map fun p => (p.1, { p.2 with pred := skip p.2.pred })
           queues := s.queues.map fun p => (p.1, { p.2 with pred := skip p.2.pred }) }

theorem at_strike (s : State) (k : Nat) (l : Launch) (q : Nat) : ((strike s k l).queue q).at_ = (s.queue q).at_ := by
  unfold strike State.queue
  dsimp only
  induction s.queues with
  | nil => rfl
  | cons p t ih =>
    simp only [List.map_cons, Tab.get]
    split
    · rfl
    · exact ih

theorem queue_setQueue_same (s : State) (q : Nat) {v : Queue} (h : v ≠ {}) : (s.setQueue q v).queue q = v :=
  get_set_ne ({} : Queue) q h s.queues

/-- A launch that is rejected late is no launch, and no predecessor; its queue stops at the packet that it executes. -/
theorem rejectLate_stops {q code : Nat} (hq : l.queue = some q) :
    let t := s.rejectLate k l code
    (t.queue q).state = .error ∧ (t.queue q).head = (s.queue q).at_ ∧
      t.launches = (Tab.del k s.launches).map fun y =>
        (y.1, { y.2 with pred := if y.2.pred = some k then l.pred else y.2.pred }) := by
  let v : Queue := { (strike s k l).queue q with
    state := .error, reason := 0x03#6, head := ((strike s k l).queue q).at_, engcmd := none }
  have stopped : v ≠ {} := fun h => absurd (congrArg Queue.state h) (show QState.error ≠ QState.idle by decide)
  have posted : Posted ((strike s k l).setQueue q v) (s.rejectLate k l code) := by
    simp only [State.rejectLate, hq]
    exact posted_postFault _ _ _
  have queue : (s.rejectLate k l code).queue q = v :=
    (posted.queue q).trans (queue_setQueue_same _ q stopped)
  refine ⟨by rw [queue], ?_, posted.launches⟩
  rw [queue]
  exact at_strike s k l q

/-- Completion releases what the groups wrote, and writes CSV to CSA. -/
theorem launchComplete_completes (hl : Tab.find s.launches k = some l) (hd : s.launchDone k l = true) :
    let s1 := s.releaseLaunch k l
    Runs (.launchComplete k) s (State.setLaunch
      (if l.lr.csa = 0#64 then s1 else s1.deviceWord l.ctx l.lr.csa l.lr.csv) k { l with complete := true }) := by
  refine congrArg Host.Outcome.next ?_
  simp only [State.completeLaunch, hl, hd, Bool.not_true, Bool.false_eq_true, if_false]

end

/-! ### Placements (R362) -/

theorem declare_bufs {x y : Group} {d : Dword} (h : declare x d = some y) : ∃ bs, y = { x with bufs := bs } := by
  unfold declare at h
  dsimp only at h
  split at h
  · cases h
  · cases h
    exact ⟨_, rfl⟩

theorem declareAll_bufs {x y : Group} {ds : List Dword} (h : declareAll x ds = some y) : ∃ bs, y = { x with bufs := bs } := by
  induction ds generalizing x with
  | nil =>
    cases h
    exact ⟨_, rfl⟩
  | cons d ds ih =>
    simp only [declareAll] at h
    split at h
    · next z hz =>
      obtain ⟨_, rfl⟩ := declare_bufs hz
      obtain ⟨_, rfl⟩ := ih h
      exact ⟨_, rfl⟩
    · cases h

/-- A group at its first placement, whatever buffers its launch declares. -/
theorem newGroup_eq (k : Nat) (l : Launch) (lin slot core cycle id : Nat) :
    ∃ bs, newGroup k l lin slot core cycle id =
      { launch := k, ctx := l.ctx, lin, lr := l.lr, loc := .resident core, lastCore := core, slot
        fibres := startFibres l.lr.entry l.lr.nf cycle id, wa := l.lr.wa, dbg := l.dbg, fresh := true, bufs := bs } := by
  unfold newGroup
  dsimp only
  cases h : declareAll _ l.lr.decls with
  | none => exact ⟨_, rfl⟩
  | some y =>
    obtain ⟨bs, rfl⟩ := declareAll_bufs h
    exact ⟨bs, rfl⟩

/-- The first fibre of a group, at the entry PC. -/
def firstFibre (entry : Dword) (cycle id : Nat) : Fibre := { pos := { pc := entry }, since := cycle + 1, inc := id }

theorem find_startFibres (entry : Dword) {n : Nat} (hn : n ≠ 0) (cycle id : Nat) :
    Tab.find (startFibres entry n cycle id) 0 = some (firstFibre entry cycle id) := by
  obtain ⟨n, rfl⟩ := Nat.exists_eq_succ_of_ne_zero hn
  simp [startFibres, firstFibre, List.range_succ_eq_map, Tab.find]

section

variable {s : State} {k p c core slot : Nat} {l : Launch} {ds : List Machine.Due}

theorem renewSeq_eq (s : State) (c : Nat) : ∃ cores, s.renewSeq c = { s with cores } := by
  unfold State.renewSeq
  split
  · exact ⟨_, rfl⟩
  · exact ⟨_, rfl⟩

/-- The next group of a launch of single groups comes to the one core that is chosen for it. -/
theorem groupPlace_places (hp : (s.pad p).preempt = none) (hs : ((s.settleServing p).pad p).serving = some c)
    (hd : (s.settleServing p).due p c = ⟨k, []⟩ :: ds) (hl : Tab.find (s.settleServing p).launches k = some l)
    (h1 : l.lr.cl = 1) (hf : (s.settleServing p).freeSlots l.ctx 1 = [slot])
    (hc : (s.settleServing p).findCores k l [l.lr.needs l.lr.wa] = some [core]) :
    s.groupPlace p = ((s.settleServing p).renewSeq core).placeNew k slot core := by
  simp only [State.groupPlace, hp, hs, hd, hl, State.place, h1, hf, hc, Option.isSome_none, Bool.false_eq_true, if_false,
    List.length_singleton, Nat.lt_irrefl, List.replicate_one, List.zip_cons_cons, List.zip_nil_right, List.foldl_cons,
    List.foldl_nil]

/-- The group that is placed is the launch's next, and its first fibre stands at the entry PC. -/
theorem placeNew_places (hl : Tab.find s.launches k = some l) :
    (∃ y f, (s.placeNew k slot core).group? s.nextId = some y ∧ y.loc = .resident core ∧ y.lin = l.next ∧ y.slot = slot ∧
      y.lr = l.lr ∧ (l.lr.nf ≠ 0 → y.fibre? 0 = some f ∧ f.pos = { pc := l.lr.entry } ∧ f.regs = [] ∧ f.stat = .ready ∧
        f.wave = false)) ∧
      (Tab.find (s.placeNew k slot core).launches k).map (·.next) = some (l.next + 1) := by
  obtain ⟨bs, made⟩ := newGroup_eq k l l.next slot core s.cycle (s.nextId + 1)
  simp only [State.placeNew, hl, made]
  refine ⟨⟨_, firstFibre l.lr.entry s.cycle (s.nextId + 1), State.group?_setGroup_same _ _ _, rfl, rfl, rfl, rfl,
    fun hn => ?_⟩, congrArg (Option.map Launch.next) (Tab.find_put_same _ _ _)⟩
  exact ⟨find_startFibres l.lr.entry hn _ _, rfl, rfl, rfl, rfl⟩

end

/-! ### Saves (R384) -/

section

variable {s t : State}

/-- The groups and the paddocks stand as they did. -/
def Apart (s t : State) : Prop := t.groups = s.groups ∧ t.pads = s.pads

theorem apart_farWrite (k : BitVec 13) (a : Nat) (bs : List Byte) (h : Apart s t) : Apart s (t.farWrite k a bs) := by
  have store (t : State) (a : Nat) (bs : List Byte) (h : Apart s t) : Apart s (t.store k a bs) :=
    foldl_keeps (fun u : State × List Byte => Apart s u.1) _ _ (t, bs) h fun _ _ hu => hu
  refine foldl_keeps (fun u : State × List Byte => Apart s u.1) _ _ (t, bs) h fun u p hu => ?_
  dsimp only
  unfold State.blockWrite
  dsimp only
  split
  · exact store _ _ _ hu
  · exact store _ _ _ hu

theorem apart_devWrite (ctx : Nat) (p : Page) (va : Nat) (bs : List Byte) (h : Apart s t) :
    Apart s (t.devWrite ctx p va bs) := by
  unfold State.devWrite
  split
  · exact h
  · exact apart_farWrite _ _ _ h
  · exact h
  · exact h

theorem apart_writeSlot (s : State) (c : Nat) (ps : List (Page × (Nat × Nat))) : Apart s (s.writeSlot c ps) :=
  foldl_keeps (Apart s) _ ps s ⟨rfl, rfl⟩ fun _ _ h => apart_devWrite _ _ _ _ h

/-- What a core writes back leaves every group there, and the paddocks as they are. -/
theorem flushLines_keeps (s : State) (c : Nat) (drop : Bool) (p : Line → Bool) :
    (∀ k, (s.group? k).isSome = true → ((s.flushLines c drop p).group? k).isSome = true) ∧
      (s.flushLines c drop p).pads = s.pads := by
  have flushed := flushed_writeLines s ((s.core c).lines.filter p)
  exact ⟨fun _ => flushed.group_isSome, flushed.pads⟩

variable {g c : Nat} {x : Group} {ps : List (Page × (Nat × Nat))}

/-- The image of a group goes to its slot, and it is on no core any more. -/
theorem saveGroup_saves (hg : s.group? g = some x) (hc : x.core? = some c) (hp : s.slotPages x.ctx x.slot = some ps) :
    (s.saveGroup g).pads = s.pads ∧
      ∃ y, (s.saveGroup g).group? g = some y ∧ y.loc = .saved ∧ y.stopping = false := by
  let s0 : State := { s with issue := s.issue.filter fun p => p.fib.g != g }
  let s1 := s0.writeBack c (s.ctx x.ctx).asid
  obtain ⟨groups, pads⟩ := flushLines_keeps s0 c false fun l => l.asid == (s.ctx x.ctx).asid
  obtain ⟨hgroups, hpads⟩ := apart_writeSlot s1 x.ctx ps
  obtain ⟨y, hy⟩ := Option.isSome_iff_exists.1 (groups g (by rw [show s0.group? g = some x from hg]; rfl))
  have found : (s1.writeSlot x.ctx ps).group? g = some y := (congrArg (Tab.find · g) hgroups).trans hy
  simp only [State.saveGroup, hg, hc, hp]
  refine ⟨(State.updGroup_pads _ _ _).trans (hpads.trans pads),
    { y.mapFibres (fun _ f => f.saved) with loc := .saved, stopping := false }, ?_, rfl, rfl⟩
  rw [State.group?_updGroup_same, found]
  rfl

/-- No pre-emption is settled where none is in progress. -/
theorem settlePreempts_none (h : ∀ q ∈ s.pads, (s.pad q.1).preempt = none) : s.settlePreempts = s := by
  have each (l : List Nat) (hl : ∀ p ∈ l, (s.pad p).preempt = none) : l.foldl State.settlePreempt s = s := by
    induction l with
    | nil => rfl
    | cons p l ih =>
      have settled : s.settlePreempt p = s := by simp only [State.settlePreempt, hl p List.mem_cons_self]
      rw [List.foldl_cons, settled]
      exact ih fun q hq => hl q (List.mem_cons_of_mem p hq)
  refine each _ fun p hp => ?_
  obtain ⟨q, hq, rfl⟩ := List.mem_map.1 hp
  exact h q hq

/-- A group that is a cluster of its own, and stops, is saved (R100). -/
theorem groupSave_saves (ho : s.clusterOf g = [g]) (hd : s.saveDue g = true) (hg : s.group? g = some x)
    (hc : x.core? = some c) (hs : s.slotPages x.ctx x.slot = some ps)
    (hp : ∀ q ∈ s.pads, (Tab.get {} s.pads q.1).preempt = none) : s.groupSave g = s.saveGroup g := by
  obtain ⟨pads, -⟩ := saveGroup_saves hg hc hs
  have good : s.badSlot g = none := by simp [State.badSlot, hg, hs]
  have settled : (s.saveGroup g).settlePreempts = s.saveGroup g := by
    refine settlePreempts_none ?_
    unfold State.pad
    rwa [pads]
  simp [State.groupSave, ho, hd, good, settled]

end

/-! ### Pre-emption (R367, R384) -/

section

variable {s : State} {p c : Nat}

theorem setPad_groups (s : State) (p : Nat) (v : Paddock) : (s.setPad p v).groups = s.groups := rfl

theorem settlePreempt_groups (s : State) (p : Nat) : (s.settlePreempt p).groups = s.groups := by
  unfold State.settlePreempt
  split
  · rfl
  · dsimp only
    split
    · rfl
    · split
      · rw [setPad_groups]
      · rw [setPad_groups]

theorem find_of_listed {α : Type} {t : Tab α} {q : Nat × α} (h : q ∈ t) : ∃ v, Tab.find t q.1 = some v := by
  induction t with
  | nil => cases h
  | cons y t ih =>
    obtain ⟨j, w⟩ := y
    by_cases e : j = q.1
    · exact ⟨w, if_pos e⟩
    · rw [Tab.find, if_neg e]
      exact ih ((List.mem_cons.1 h).resolve_left fun hq => e (by rw [hq]))

/-- Every group of the context that is resident on the paddock stops. -/
theorem preempt_stops (s : State) (p c : Nat) :
    ∀ j ∈ s.residentOn p c, ∃ y, (s.preempt p c).group? j = some y ∧ y.stopping = true := by
  intro j hj
  obtain ⟨q, hq, rfl⟩ := List.mem_map.1 hj
  obtain ⟨x, hx⟩ : ∃ x, s.group? q.1 = some x := find_of_listed (List.mem_of_mem_filter hq)
  have stopped : (s.preempt p c).group? q.1 = (stopGroups (s.setPad p _) (s.residentOn p c)).group? q.1 :=
    congrArg (Tab.find · q.1) (settlePreempt_groups _ p)
  rw [stopped, group?_stopGroups, show (s.setPad p _).group? q.1 = some x from hx]
  exact ⟨_, rfl, by rw [decide_eq_true hj]; rfl⟩

theorem quantumExpiry_preempts (hs : (s.pad p).serving = some c) (hq : s.quantumOut p = true) (hr : s.runnable p c = true) :
    Runs (.quantumExpiry p) s (s.preempt p c) := by
  refine congrArg Host.Outcome.next ?_
  simp only [hs, hq, hr, Bool.and_self, if_true]

theorem preemptCtl_preempts {v : Dword} (hv : v.getLsbD 63 = true) (hp : (s.pad p).preempt = none) :
    Runs (.preemptCtl p v) s (s.preempt p (bits v.toNat 9 0)) :=
  congrArg Host.Outcome.next (if_neg (by rw [hv, hp]; decide))

end

/-- Settles O47: a launch judged as it starts, completed, its groups placed, saved and pre-empted. -/
theorem launchEvents : Obligations.LaunchEvents := by
  unfold Obligations.LaunchEvents
  intro s k g p c core slot q code l r x v ps ds
  refine ⟨fun hl hc hp hx hs hpar hm hr => ⟨fun hj hn => ?starts, fun hj hq => ?rejected⟩, launchComplete_completes,
    fun hp hs hd hl h1 hf hc => ?placed, fun ho hd hg hc hs hp => ?saved, quantumExpiry_preempts,
    fun hv hp => ⟨preemptCtl_preempts hv hp, fun _ => ⟨_, preemptCtl_preempts hv hp, preempt_stops s p _⟩⟩⟩
  case starts =>
    refine congrArg Host.Outcome.next ?_
    rw [launchStart_judges hl hc hp hx hs hpar hm hr, hj, Sum.elim_inr]
    exact startLaunch_of_next_lt hn
  case rejected =>
    refine ⟨s.rejectLate k l code, congrArg Host.Outcome.next ?_, rejectLate_stops hq⟩
    rw [launchStart_judges hl hc hp hx hs hpar hm hr, hj, Sum.elim_inl]
  case placed =>
    refine ⟨_, congrArg Host.Outcome.next (groupPlace_places hp hs hd hl h1 hf hc), ?_⟩
    obtain ⟨cores, renewed⟩ := renewSeq_eq (s.settleServing p) core
    rw [renewed]
    exact placeNew_places hl
  case saved =>
    obtain ⟨-, saved⟩ := saveGroup_saves hg hc hs
    exact ⟨_, saved.choose, congrArg Host.Outcome.next (groupSave_saves ho hd hg hc hs hp), saved.choose_spec⟩

end Sys2Proof.Proofs
end

section
/-! SUPPORT. Provisioning (R397, R398), firmware and attestation (R400 to R402), the safe state and power (R404, R406), reset
(R403), and the cores that a thermal trip halts (R389, R404). -/

namespace Sys2Proof.Proofs

open Sys2Proof Sys2Proof.Machine Sys2Proof.Safety Sys2Proof.Laws

/-! ### The directions of engines -/

/-- A change of the directions of engines changes nothing else. -/
theorem onDirs_eq (s : State) (es : List Nat) (u : OptDir → OptDir) : ∃ ds, s.onDirs es u = { s with optDirs := ds } := by
  have dirs (t : State) (e : Nat) (h : ∃ ds, t = { s with optDirs := ds }) :
      ∃ ds, [false, true].foldl (fun (t : State) i => t.setOptDir e i (u (t.optDir e i))) t = { s with optDirs := ds } := by
    obtain ⟨_, rfl⟩ := h
    exact ⟨_, rfl⟩
  exact foldl_keeps (fun t : State => ∃ ds, t = { s with optDirs := ds }) _ es s ⟨_, rfl⟩ dirs

/-- Only the engines, and the operations and entries in flight on them, differ. -/
def Darkened (s t : State) : Prop := ∃ ops slots optDirs, t = { s with ops := ops, slots := slots, optDirs := optDirs }

theorem Darkened.trans {s t u : State} (h : Darkened s t) (k : Darkened t u) : Darkened s u := by
  obtain ⟨_, _, _, rfl⟩ := h
  obtain ⟨_, _, _, rfl⟩ := k
  exact ⟨_, _, _, rfl⟩

theorem darkened_dirDark (s : State) (e : Nat) (i : Bool) : Darkened s (s.dirDark e i) := by
  unfold State.dirDark State.failInFlight State.setOptDir
  exact ⟨_, _, _, rfl⟩

/-- The safe state darkens every laser: the engines, what is in flight on them and POST_STAT change, and nothing else
(R404). -/
theorem enterSafe_eq (s : State) (unit code : Nat) :
    ∃ ops slots optDirs, s.enterSafe unit code = { s with
      ops := ops, slots := slots, optDirs := optDirs, darkSources := List.range 6
      regs := { s.regs with postStat := dw (2 ^ 63 + 2 ^ 62 + 2 ^ 8 * unit + code) } } := by
  obtain ⟨ops, slots, optDirs, lasers⟩ := foldl_keeps (Darkened s)
    (fun (t : State) e => (t.dirDark e false).dirDark e true) (List.range 24) s ⟨_, _, _, rfl⟩
    fun t e h => (h.trans (darkened_dirDark t e false)).trans (darkened_dirDark _ e true)
  refine ⟨ops, slots, optDirs, ?_⟩
  unfold State.enterSafe
  rw [lasers]

/-- POST_STAT of the safe state says so, and holds the code. -/
theorem postStat_enterSafe (s : State) {unit code : Nat} (hu : unit < 256) (hc : code < 256) :
    (s.enterSafe unit code).isSafe = true ∧
      (s.enterSafe unit code).regs.postStat.extractLsb' 0 8 = BitVec.ofNat 8 code := by
  obtain ⟨_, _, _, safe⟩ := enterSafe_eq s unit code
  rw [safe]
  constructor
  · change (dw _).getLsbD 62 = true
    rw [dw, BitVec.getLsbD_ofNat, Nat.testBit_eq_decide_div_mod_eq]
    simp only [Bool.and_eq_true, decide_eq_true_eq]
    omega
  · apply BitVec.eq_of_toNat_eq
    simp only [dw, BitVec.extractLsb'_toNat, BitVec.toNat_ofNat, Nat.shiftRight_zero]
    omega

/-! ### Cores that are halted (R389) -/

section

variable {s : State} {k c : Nat} (h : (s.core k).halted = true)

theorem core_congr {t : State} (e : t.cores = s.cores) (k : Nat) : t.core k = s.core k :=
  congrArg (Tab.get ({} : Core) · k) e

include h in
/-- A core stays halted as a core is written, itself with a value that is halted. -/
theorem halted_setCore {x : Core} (hx : k = c → x.halted = true) : ((s.setCore c x).core k).halted = true := by
  by_cases e : k = c
  · rw [e, core_setCore s c x fun he => absurd (hx e) (by rw [he]; decide)]
    exact hx e
  · exact (congrArg Core.halted (Tab.get_set_other _ e x s.cores)).trans h

include h in
theorem halted_flushLines (drop : Bool) (p : Line → Bool) : ((s.flushLines c drop p).core k).halted = true := by
  have cores := (flushed_writeLines s ((s.core c).lines.filter p)).cores
  refine halted_setCore ((congrArg Core.halted (core_congr cores k)).trans h) fun e => ?_
  subst e
  exact h

theorem settlePreempt_cores (s : State) (p : Nat) : (s.settlePreempt p).cores = s.cores := by
  have setPad (t : State) (v : Paddock) : (t.setPad p v).cores = t.cores := rfl
  unfold State.settlePreempt
  split
  · rfl
  · dsimp only
    split
    · rfl
    · split
      · rw [setPad]
      · rw [setPad]

theorem settlePreempts_cores (s : State) : s.settlePreempts.cores = s.cores :=
  foldl_keeps (fun t : State => t.cores = s.cores) _ _ s rfl fun t p ht => (settlePreempt_cores t p).trans ht

include h in
theorem halted_discard (g : Nat) : ((s.discard g).core k).halted = true := by
  unfold State.discard
  split
  · exact h
  · next x hx =>
    extract_lets s1 y s2 s3
    have h1 : (s1.core k).halted = true := by
      unfold s1
      split
      · exact halted_flushLines h _ _
      · exact h
    have c2 : s2.cores = s1.cores := by
      unfold s2
      split
      · exact (posted_postFault _ _ _).cores
      · rfl
    have c3 : s3.cores = s2.cores := by
      unfold s3
      split <;> rfl
    have cores (z : Machine.Group) : (s3.setGroup g z).settlePreempts.cores = s1.cores :=
      (settlePreempts_cores (s3.setGroup g z)).trans (c3.trans c2)
    exact (congrArg Core.halted (core_congr (cores _) k)).trans h1

/-- A core is halted once it is halted, and once it has been. -/
theorem halted_haltCore {lost : Bool} (h : k = c ∨ (s.core k).halted = true) :
    ((s.haltCore c lost).core k).halted = true := by
  unfold State.haltCore
  extract_lets gs gone s1 co t r s2 s3
  have c1 : s1.cores = s.cores := by
    have dropped : (s.dropCore c lost).cores = s.cores := by
      unfold State.dropCore
      split
      · rfl
      · exact (flushed_writeLines s _).cores
    exact dropped
  have h2 : (s2.core k).halted = true := by
    have set : (t.core k).halted = true := by
      rcases h with rfl | h
      · exact congrArg Core.halted (core_setCore s1 k _ fun he => Bool.noConfusion (congrArg Core.halted he))
      · exact halted_setCore ((congrArg Core.halted (core_congr c1 k)).trans h) fun _ => rfl
    exact set
  have c3 : s3.cores = s2.cores :=
    foldl_keeps (fun t : State => t.cores = s2.cores) _ _ s2 rfl fun t j ht => ((posted_postFault _ _ _).cores).trans ht
  have h3 : (s3.core k).halted = true := (congrArg Core.halted (core_congr c3 k)).trans h2
  exact foldl_keeps (fun t : State => (t.core k).halted = true) State.discard _ s3 h3 fun t g ht => halted_discard ht g

/-- Each of the cores that are halted one after another is halted in the end. -/
theorem halted_foldl_haltCore (lost : State → Nat → Bool) (l : List Nat) (s : State)
    (h : k ∈ l ∨ (s.core k).halted = true) :
    ((l.foldl (fun t c => t.haltCore c (lost t c)) s).core k).halted = true := by
  induction l generalizing s with
  | nil => exact h.resolve_left List.not_mem_nil
  | cons c l ih =>
    refine ih _ ?_
    rcases h with h | h
    · rcases List.mem_cons.1 h with rfl | h
      · exact .inr (halted_haltCore (.inl rfl))
      · exact .inl h
    · exact .inr (halted_haltCore (.inr h))

end

/-! ### Provisioning (R397, R398) -/

section

variable {s : State} {m : BitVec 6} {v : Prov} {a : BitVec 16} {g : BitVec 8}

/-- A command of PROV_CMD acts where none is in progress. -/
theorem onProv_idle (hb : s.provBusy = false) (u : State → State) : s.onProv u = u { s with draining := none } :=
  if_neg (ne_true_of_eq_false hb)

theorem provEntry_draining (s : State) (k : Nat) : State.provEntry { s with draining := none } k = s.provEntry k := by
  have read (b n : Nat) : State.sramRead { s with draining := none } b n = s.sramRead b n := by
    induction n generalizing b with
    | zero => rfl
    | succ n ih => rw [State.sramRead, State.sramRead, ih]
  simp only [State.provEntry, State.sramWord, read]
  rfl

/-- A module that is set up has its table entry, and its copy slot 7 its owner. -/
theorem attach_keeps (s : State) (k : Nat) (v : Prov) (own : Owner) :
    Tab.get none (s.attach k v own).provs k = some v ∧ ((s.attach k v own).slot (256 * k + 7)).owner = some own := by
  unfold State.attach
  extract_lets used s1 s2 s3 j
  obtain ⟨_, assigned⟩ := onDirs_eq s3 v.engineList (·.assign k v.wlcnt)
  rw [assigned]
  constructor
  · exact get_set_ne none k (Option.some_ne_none v) s.provs
  · have owned : ({ s.slot j with owner := some own } : Slot) ≠ {} := fun he =>
      Option.some_ne_none own (congrArg Slot.owner he)
    exact congrArg Slot.owner (get_set_ne ({} : Slot) j owned _)

/-- What PROVISION does once the module's table entry keeps R397: attestation and link set-up pass, or it is refused
(R398). -/
theorem provision_entry (hb : s.provBusy = false)
    (he : State.provEntry { s with draining := none } m.toNat = some (v, a, g)) :
    let t : State := { s with draining := none }
    let r := (Config.attest s.tick m.toNat).toNat
    Runs (.provision m) s (if r = 1 ∨ r = 3 ∨ r = 5 then t.provResult r
      else if t.wlFree m.toNat v = false then t.provResult 2
      else (t.attach m.toNat v ⟨BitVec.ofNat 10 s.ownPeer, a, g⟩).provResult 0) := by
  refine congrArg Host.Outcome.next ((onProv_idle hb _).trans ?_)
  simp only [he, Bool.not_eq_true']
  rfl

theorem provision_refused (hb : s.provBusy = false) (he : s.provEntry m.toNat = none) :
    Runs (.provision m) s (State.provResult { s with draining := none } 3) := by
  refine congrArg Host.Outcome.next ((onProv_idle hb _).trans ?_)
  simp only [provEntry_draining, he]

theorem drain_begins (hb : s.provBusy = false) (hp : Tab.get none s.provs m.toNat = some v) :
    ∃ t, Runs (.drain m) s t ∧ t.draining = some m.toNat ∧ t.regs.provStat = 0#64 := by
  let t : State := { s with
    draining := some m.toNat
    provs := Tab.set none m.toNat (some { v with drained := some (v.drained.getD s.nextId) }) s.provs }
  refine ⟨t.provResult 0, congrArg Host.Outcome.next ((onProv_idle hb _).trans ?_), rfl, rfl⟩
  simp only [hp]
  rfl

theorem release_undrained (hb : s.provBusy = false) (hp : Tab.get none s.provs m.toNat = some v) (hd : v.drained = none) :
    Runs (.release m) s (State.provResult { s with draining := none } 4) := by
  refine congrArg Host.Outcome.next ((onProv_idle hb _).trans ?_)
  simp only [hp, hd, Option.isNone_none, if_true]

/-- The slots of a module lose their owners. -/
def freeOwners (k : Nat) (l slots : Tab Slot) : Tab Slot :=
  l.foldl (fun t p => if p.1 / 256 = k then Tab.set {} p.1 { p.2 with owner := none } t else t) slots

/-- A slot of the module that is listed, or has no owner, has none in the end. -/
theorem owner_freeOwners {k j : Nat} (hj : j / 256 = k) {l slots : Tab Slot} (hw : Tab.wf {} slots = true)
    (h : j ∈ l.map (·.1) ∨ (Tab.get {} slots j).owner = none) : (Tab.get {} (freeOwners k l slots) j).owner = none := by
  induction l generalizing slots with
  | nil => exact h.resolve_left List.not_mem_nil
  | cons p l ih =>
    rw [freeOwners, List.foldl_cons, ← freeOwners]
    by_cases hp : p.1 / 256 = k
    · rw [if_pos hp]
      refine ih (Tab.wf_set _ _ _ hw) ?_
      by_cases e : j = p.1
      · exact .inr (by rw [e, Tab.get_set_same _ _ _ hw])
      · exact h.imp (fun h => (List.mem_cons.1 h).resolve_left e) fun h => by rwa [Tab.get_set_other _ e]
    · rw [if_neg hp]
      exact ih hw (h.imp_left fun h => (List.mem_cons.1 h).resolve_left fun e => hp ((congrArg (· / 256) e).symm.trans hj))

/-- RELEASE of a drained module takes its entry and the owners of its slots away. -/
theorem release_drained (hb : s.provBusy = false) (hp : Tab.get none s.provs m.toNat = some v) (hd : v.drained ≠ none)
    (hw : Tab.wf none s.provs = true) (hs : Tab.wf {} s.slots = true) :
    ∃ t, Runs (.release m) s t ∧ Tab.get none t.provs m.toNat = none ∧
      (∀ j, j / 256 = m.toNat → (t.slot j).owner = none) ∧ t.regs.provStat = 0#64 := by
  let t : State := { s with
    draining := none, provs := Tab.set none m.toNat none s.provs, slots := freeOwners m.toNat s.slots s.slots }
  obtain ⟨_, released⟩ := onDirs_eq t (List.range 24) (·.release m.toNat)
  refine ⟨(t.onDirs (List.range 24) (·.release m.toNat)).provResult 0,
    congrArg Host.Outcome.next ((onProv_idle hb _).trans ?_), ?_⟩
  · have drained : v.drained.isNone = false := Bool.eq_false_iff.2 (mt Option.isNone_iff_eq_none.1 hd)
    simp only [hp, drained, Bool.false_eq_true, if_false]
    rfl
  · rw [released]
    refine ⟨Tab.get_set_same none _ none hw, fun j hj => owner_freeOwners hj hs ?_, rfl⟩
    rcases Tab.get_mem {} j s.slots with hd | hm
    · exact .inr (by rw [hd])
    · exact .inl (List.mem_map_of_mem hm)

end

/-! ### Firmware and attestation (R400 to R402) -/

section

variable {s : State} {cls : ImageClass} {img ver idx : Nat}

/-- An image that is not signed, or too old, is not taken (R400). -/
theorem firmwareImage_refused
    (h : Config.signed (ImageClass.num cls) img = false ∨ ver < Config.fusedMin (ImageClass.num cls)) :
    Runs (.firmwareImage cls img ver) s s :=
  congrArg Host.Outcome.next (if_pos (by simpa using h))

/-- One that is signed comes into force by its class (R401). -/
theorem firmwareImage_taken (hs : Config.signed (ImageClass.num cls) img = true)
    (hv : Config.fusedMin (ImageClass.num cls) ≤ ver) :
    Runs (.firmwareImage cls img ver) s (match cls with
      | .commandProcessor => { s.setImage 0 (img, ver) with cpDown := true }
      | .larkCore => { s with larkNext := some (img, ver) }
      | .controlSequencer => s.keepSequencers.setImage 3 (img, ver)
      | .managementCore =>
        if s.isSafe then { s with nextMgmt := some (img, ver) }
        else { s.setImage 2 (img, ver) with
          mgmtDown := true, cores := s.cores.map fun p => (p.1, { p.2 with missed := 0 }) }) := by
  refine congrArg Host.Outcome.next ((if_neg (by simpa [hs] using hv)).trans ?_)
  cases cls <;> rfl

/-- Cores that hold no group take the new image at once. -/
theorem keepSequencers_idle (h : s.busyCores = []) : s.keepSequencers.cores = s.cores := by
  simp only [State.keepSequencers, h, List.foldl_nil]

theorem measurement_none (h : idx = 0 ∨ 6 < idx) : s.measurement idx = none := by
  rcases h with rfl | h
  · rfl
  · obtain ⟨n, rfl⟩ : ∃ n, idx = n + 7 := ⟨idx - 7, by omega⟩
    rfl

theorem spdmRequest_answers {bs : List Byte} (h : s.measurement idx = some bs) :
    Runs (.spdmRequest idx) s { s with outbox := s.outbox ++ [.spdm bs] } := by
  refine congrArg Host.Outcome.next ?_
  simp only [h]

theorem spdmRequest_ignored (h : s.measurement idx = none) : Runs (.spdmRequest idx) s s := by
  refine congrArg Host.Outcome.next ?_
  simp only [h]

end

/-! ### Power and reset (R403, R404, R406) -/

section

variable {s : State} {watts : Nat}

/-- Above the cap the clock falls, to 800 MHz at the lowest. -/
theorem powerCapCrossing_falls (h : s.regs.pwrCap.toNat < watts) :
    ∃ t, Runs (.powerCapCrossing watts) s { s with clockMHz := t } ∧ 800 ≤ t ∧ (800 < s.clockMHz → t < s.clockMHz) :=
  ⟨max 800 (s.clockMHz - 50 * (s.choose 63 23 + 1)), congrArg Host.Outcome.next (if_pos h), by omega, by omega⟩

theorem choose_lt (s : State) (tag : Nat) {n : Nat} (h : 0 < n) : s.choose tag n < n := by
  unfold State.choose
  split
  · exact h
  · exact Nat.mod_lt _ h

/-- The thermal trip at the lowest clock halts every core, and leaves the safe state. -/
theorem thermalTrip_halts (hc : s.clockMHz = 800) (hs : s.isSafe = false) :
    ∃ t, Runs .thermalTrip s t ∧ t.isSafe = true ∧ t.regs.postStat.extractLsb' 0 8 = 0x07#8 ∧
      ∀ c, c < 320 → (t.core c).halted = true := by
  let lost (t : State) (c : Nat) : Bool := t.choose (3000 + c) 2 == 1
  let halted := ((List.range 320).filter fun c => !(s.core c).halted).foldl (fun t c => t.haltCore c (lost t c)) s
  have tripped : (s.clockMHz != 800 || s.isSafe) = false := by simp [hc, hs]
  obtain ⟨safe, code⟩ := postStat_enterSafe halted (choose_lt s 64 (n := 256) (by decide)) (code := 7) (by decide)
  refine ⟨halted.enterSafe (s.choose 64 256) 0x07, congrArg Host.Outcome.next (if_neg (ne_true_of_eq_false tripped)), safe,
    code, fun c hc => ?_⟩
  obtain ⟨_, _, _, entered⟩ := enterSafe_eq halted (s.choose 64 256) 0x07
  rw [entered]
  refine halted_foldl_haltCore lost _ s ?_
  cases hh : (s.core c).halted with
  | true => exact .inr rfl
  | false => exact .inl (List.mem_filter.2 ⟨List.mem_range.2 hc, by rw [hh]; rfl⟩)

theorem reset_passes (h : s.selfTest = none) : Runs .reset s s.kept := by
  change execReset s = _
  simp only [execReset, h]

/-- Where a test fails, the package comes up in the safe state, its cores off (R403, R404). -/
theorem reset_fails {code unit : Nat} (h : s.selfTest = some (code, unit)) : Runs .reset s
    { s.kept.enterSafe unit code with cores := (List.range 320).map fun c => (c, { halted := true }) } := by
  change execReset s = _
  simp only [execReset, h]

/-- Whatever the self-test finds, a reset empties the package, and keeps the memory of the modules and the host. -/
theorem reset_keeps (s : State) : ∃ t, Runs .reset s t ∧ t.groups = [] ∧ t.sram = [] ∧ t.launches = [] ∧ t.queues = [] ∧
    t.tlb = [] ∧ t.keys = [] ∧ t.cycle = 0 ∧ t.far = s.far ∧ t.hostMem = s.hostMem := by
  cases h : s.selfTest with
  | none => exact ⟨_, reset_passes h, rfl, rfl, rfl, rfl, rfl, rfl, rfl, rfl, rfl⟩
  | some r =>
    obtain ⟨_, _, _, entered⟩ := enterSafe_eq s.kept r.2 r.1
    refine ⟨_, reset_fails h, ?_⟩
    rw [entered]
    exact ⟨rfl, rfl, rfl, rfl, rfl, rfl, rfl, rfl, rfl⟩

end

/-- Settles O54: each command and event by what it changes of its module, its image or the package. -/
theorem packageControl : Obligations.PackageControl := by
  unfold Obligations.PackageControl
  intro s m v a g img ver idx watts cls k res
  refine ⟨fun hb => ⟨provision_refused hb, fun he => ?provision, fun hp => ⟨drain_begins hb hp, release_undrained hb hp,
    release_drained hb hp⟩⟩, rfl, firmwareImage_refused, fun hs hv => ?firmware, fun _ => spdmRequest_answers, fun h => ?post,
    fun h => spdmRequest_ignored (measurement_none h), powerCapCrossing_falls, thermalTrip_halts, reset_keeps s⟩
  case provision =>
    refine ⟨_, provision_entry hb he, ?_⟩
    simp only [List.mem_cons, List.not_mem_nil, or_false]
    split
    · rfl
    split
    · rfl
    · obtain ⟨entry, owner⟩ := attach_keeps { s with draining := none } m.toNat v ⟨BitVec.ofNat 10 s.ownPeer, a, g⟩
      exact ⟨entry, rfl, owner⟩
  case firmware =>
    have taken := firmwareImage_taken (s := s) hs hv
    refine ⟨fun hc => ?_, fun hc => ?_, fun hc => ?_, fun hc => ⟨fun h => ?_, fun h => ?_⟩⟩
    · subst hc
      exact taken
    · subst hc
      exact taken
    · subst hc
      exact ⟨_, taken, rfl, keepSequencers_idle⟩
    · subst hc
      rwa [if_pos h] at taken
    · subst hc
      rwa [if_neg (ne_true_of_eq_false h)] at taken
  case post =>
    subst h
    rfl

end Sys2Proof.Proofs
end
